-- ==== Sys2Proof/Word.lean ====
section
/-! DEFINITION. The word types of the Krada (00 R3, R4) and nothing else. -/

namespace Sys2Proof

/-- One byte (00 R3). -/
abbrev Byte := BitVec 8

/-- A 64-bit register or mailbox word (00 R4: bit 0 is the least significant). -/
abbrev W64 := BitVec 64

/-- An FP32 encoding (06 R122). -/
abbrev F32 := BitVec 32

end Sys2Proof
end

