-- ==== Sys2Proof/Syntax.lean ====
section
/-! DEFINITION. The commands of the Krada: one constructor of `Instr` for each row of spec/opcode_table.json,
with the row's operands, and the small types the operands use. -/

namespace Sys2Proof

/-- Who issues an access: the master identity that the hardware stamps (16 R364, Table 16-2). -/
inductive Master where
  | host | mgt0 | mgt1 | sec | dbg
  /-- SEQ 0x40 to 0x4F and every other value. -/
  | other (id : Byte)
deriving DecidableEq, Repr

/-- The sixteen block types of Table 20-1. -/
inductive Blk where
  | glb | dst | core | jnc | mov | hbs | hbc | nlp | rng | hpb | hif | mbx | mgt | rcl | itk | dbg
deriving DecidableEq, Repr

/-- A physical happening during a command: the manual says what follows from it, and the physical world whether it
occurs (02, last paragraph). A command that can meet one carries a list of them. -/
inductive Phys where
  /-- A modulo-7 residue mismatch in a dense-array cell (04 R99), by the row and column that it serves. -/
  | residue (array row col : Nat)
  /-- An uncorrectable 64-bit scratchpad word at byte `off` of the core's scratchpad, met by a read (10 R223). -/
  | spUncorrectable (core off : Nat)
  /-- A single-bit scratchpad error, corrected in the read path (10 R222). -/
  | spCorrected (core off : Nat)
  /-- The 72 raw bytes of the HBM line at device address `addr` come back with byte `i` (0 to 63 data, 64 to 71 check)
  changed by the given exclusive-or pattern (11 R242, R246). -/
  | hbmFlip (addr : Nat) (flips : List (Nat × Byte))
  /-- The die reports an uncorrectable error with the read of that line (11 R249, R250). -/
  | dieUncorrectable (addr : Nat)
  /-- The die reports a corrected error (11 Table 11-5). -/
  | dieCorrected (addr : Nat)
  /-- An uncorrectable staging, tile, buffer or packer word of a mover or Junction engine, that holds destination bytes
  `lo` up to `lo + len - 1` of the entry's output span (07 R171, 09 R215). `unit` as in the unit's fault log. -/
  | unitUncorrectable (unit lo len : Nat)
  /-- A single-bit error of such a word, corrected (07 R171, 09 R215). -/
  | unitCorrected
  /-- A modulo-7 residue mismatch in a Junction unit (07 R171). -/
  | junctionResidue (unit : Nat)
  /-- An uncorrectable lane of a crossing FIFO word of page (`ty`, `inst`); `toDomain`: core to domain (02 R36). -/
  | crossingUncorrectable (ty : Blk) (inst : Nat) (toDomain : Bool)
  /-- A single-bit error in a crossing lane, corrected (02 R35). -/
  | crossingCorrected (ty : Blk) (inst : Nat)
  /-- An uncorrectable hall-pass count word (20 R442). -/
  | passUncorrectable (pass : Nat)
  /-- A single-bit error in a hall-pass count word, corrected (20 R442). -/
  | passCorrected (pass : Nat)
  /-- The two copies of a line's zero flag differ (10 R224). -/
  | flagDiffers (line : Nat)
  /-- The completion data of the device's reads of host memory at host address `addr` (09 place 3, 15 R339). -/
  | hostData (addr : Nat) (bytes : List Byte)
  /-- The holder of the device's Locker, with an answer to a refill, says that it steps its channel profile in this restart
  (14 R327, R331). DESIGN CHOICE: log entry 129. -/
  | holderSteps
  /-- A single-bit error in a word of the management SRAM, corrected (17 Table 17-5 `SRAM_CE`). -/
  | sramCorrected
  /-- Feed, read or write waves waited, as the arbiters resolved (10 R219, R220, 07 R173: diagnostic counters). -/
  | waits (feed read write starved mergeWait : Nat)
  /-- Waves that a mover's or a Junction engine's Grid reads and fill-port writes waited at a core's scratchpad (10 R220). -/
  | gridWaits (core read write : Nat)
deriving DecidableEq, Repr

/-- How a host read that the Krada issued ended (15 R346, Table 15-7). -/
inductive Completion where
  | data (bytes : List Byte)
  /-- UR or CA status, or a poisoned completion. -/
  | bad
deriving DecidableEq, Repr

/-- Which of the Krada's own host reads is not answered (15 R357). -/
inductive HostRead where
  /-- The next pending entry of an intake ring, or its sample. -/
  | intake (ring : Nat)
  /-- A host-level stash line of an entry in flight: the host offset of the line's row group data (05 R115). -/
  | stash (hostLine : Nat)
deriving DecidableEq, Repr

/-- The causes of a host reset (19 Table 19-1). -/
inductive HostResetCause where
  | perstLow | hotReset | linkDown | flr
deriving DecidableEq, Repr

/-- The reset lands (19 R415, 21 Table 21-4). -/
inductive ResetLand where
  | por | rst | perst
deriving DecidableEq, Repr

/-- The power-good lands (21 Table 21-4) and the fixed rails whose fall acts (21 R451). -/
inductive Supply where
  | vcore | vsram | vphy | vhbm | vaon | vpcie
deriving DecidableEq, Repr

/-- The AVSBus rails (18 Table 18-6). -/
inductive Rail where
  | vcore | vsram | vphy
deriving DecidableEq, Repr

/-- SlaveAck of an AVSBus frame (18 R403). -/
inductive SlaveAck where
  | taken | busy | badCrc | invalid
deriving DecidableEq, Repr

/-- Sources of a wake request (18 Table 18-5). -/
inductive WakeSource where
  | i2c | noloc (port : Nat) | lomra (port : Nat) | pcie | start | qormanan
deriving DecidableEq, Repr

/-- What the peer sends in an identity exchange (12 R260, R270), with the channel-loss estimate of R277. -/
structure PeerIdentity where
  role : Nat
  pair : Nat
  port : Nat
  identity : W64
  resume : Bool
  /-- Receive-buffer sizes REQ, RSP, SEC of the peer in flits (R270). -/
  reqBuf : Nat
  rspBuf : Nat
  secBuf : Nat
  /-- Estimated channel loss in 0.25 dB units (R277). -/
  loss : Nat
deriving DecidableEq, Repr

/-- What stack training finds (19 R418): the lost pseudo-channels, the lanes repaired, the stacks that do not train. -/
structure HbmTraining where
  lost : List Nat
  lanesRepaired : List (Nat × Nat)
  untrained : List Nat
deriving DecidableEq, Repr

/-- Which I²C port (17 R385, 21 R457). -/
inductive I2cPort where
  | management | debug
deriving DecidableEq, Repr

/-- One command. Every constructor is one row of the opcode table; `m` is the master identity (16 R364), `v` the 64-bit
word written, `st` a stream table index, `p` a Noloc port, `inst` a physical instance, `ph` what the physical world does
during the command. A write command sets the action bit of its row in `v`. -/
inductive Instr where
  -- 03, 16: step doorbell, job control
  /-- DB_STEP: a write of the step doorbell; `ok`: a single aligned 64-bit access (16 R361). -/
  | dbStep (m : Master) (v : W64) (ok : Bool)
  /-- WORKSHEET_VALIDATION. -/
  | worksheetValidation (ph : List Phys)
  /-- STEP_START. -/
  | stepStart
  /-- SET_PHASE_COMPLETE. -/
  | setPhaseComplete
  /-- START: a write of GLB_JOB_CTRL with START set. -/
  | start (m : Master) (v : W64)
  /-- JOB_VALIDATION. -/
  | jobValidation (ph : List Phys)
  /-- HALT: a write of GLB_JOB_CTRL with HALT set. -/
  | halt (m : Master) (v : W64)
  -- entries
  | nop (st : Nat) (ph : List Phys)
  | passSet (st : Nat)
  | segment (st : Nat)
  | updateBegin (st : Nat)
  | stepEnd (st : Nat)
  | passWaitRelease (st : Nat) (ph : List Phys)
  | entryComplete (st : Nat) (ph : List Phys)
  | waitLimitExpiry (st : Nat)
  | stepWatchdog
  | matmul (st : Nat) (ph : List Phys)
  | vector (st : Nat) (ph : List Phys)
  | optim (st : Nat) (ph : List Phys)
  | copy (st : Nat) (ph : List Phys)
  | transpose (st : Nat) (ph : List Phys)
  | permute (st : Nat) (ph : List Phys)
  | fill (st : Nat) (ph : List Phys)
  | stashWrite (st : Nat) (ph : List Phys)
  | stashRead (st : Nat) (ph : List Phys)
  | gather (st : Nat) (ph : List Phys)
  | scatterAdd (st : Nat) (ph : List Phys)
  | merge (st : Nat) (ph : List Phys)
  | histogram (st : Nat) (ph : List Phys)
  | compress (st : Nat) (ph : List Phys)
  | decompress (st : Nat) (ph : List Phys)
  | route (st : Nat) (ph : List Phys)
  | dispatch (st : Nat) (ph : List Phys)
  | combineReturn (st : Nat) (ph : List Phys)
  | combineMerge (st : Nat) (ph : List Phys)
  | pack (st : Nat) (ph : List Phys)
  | unpack (st : Nat) (ph : List Phys)
  | ids (st : Nat) (ph : List Phys)
  | idsPadded (st : Nat) (ph : List Phys)
  | lenmask (st : Nat) (ph : List Phys)
  | reduceScatter (st : Nat) (ph : List Phys)
  | allGather (st : Nat) (ph : List Phys)
  | allReduce (st : Nat) (ph : List Phys)
  | rotate (st : Nat) (ph : List Phys)
  | windowOpen (st : Nat)
  | windowClose (st : Nat)
  | attach (st : Nat)
  | detach (st : Nat)
  | controlWordReceive (ring : Nat)
  -- step boundary
  | gateDecision
  | bellStart
  | bellDrain
  /-- BELL_DRAIN_COMPLETE: `elapsedUs` is the µs that ELAPSED reads (03 Table 03-6). -/
  | bellDrainComplete (elapsedUs : Nat)
  | securingReadComplete
  | securingPassComplete
  | reportCardWrite
  -- restart and Locker
  | force (m : Master) (v : W64)
  | abort (m : Master) (v : W64)
  /-- SUBSTITUTION_COMPLETE: `engines` are the Junction engines that Qormanan judges condemned (14 Table 14-4; no rule says
  how many faults condemn one); every other condemned unit follows from the state. -/
  | substitutionComplete (engines : List Nat)
  | restart (m : Master) (v : W64)
  | lockerReturned
  | refilled
  | lockerWriteArrival
  | lockerReadArrival (ph : List Phys)
  -- pace
  | lowRearm (m : Master) (inst : Nat) (v : W64)
  /-- PACE_WINDOW: `waves` monitor waves in the window of district `inst`. -/
  | paceWindow (inst waves : Nat)
  -- HBM
  | glbRegionW0 (m : Master) (k : Nat) (v : W64)
  | glbRegionW1 (m : Master) (k : Nat) (v : W64)
  | regionInitStart (m : Master) (v : W64)
  | regionFillDone
  | scrubRead (stack addr : Nat) (ph : List Phys)
  | rearm (m : Master) (inst : Nat) (v : W64)
  | spEccWriteback (core : Nat)
  | retainEntry (core pair : Nat)
  | clockRunning (ty : Blk) (inst : Nat)
  -- host interface
  | hifHwtW0 (m : Master) (k : Nat) (v : W64)
  | hifHwtW1 (m : Master) (k : Nat) (v : W64)
  | hifCardCfg (m : Master) (v : W64)
  | apertureRead (off len : Nat) (ph : List Phys)
  | apertureWrite (off : Nat) (data : List Byte) (ph : List Phys)
  | atomicOp (off : Nat)
  | poisonedWrite (bar off : Nat)
  | completionTimeout (r : HostRead)
  | tail (m : Master) (ring : Nat) (v : W64)
  | itkEn (m : Master) (ring : Nat) (v : W64)
  | itkErrClear (m : Master) (ring : Nat) (v : W64)
  /-- INTAKE_ENTRY_READ: `c` is the completion of the read of the 32-byte entry. -/
  | intakeEntryRead (ring : Nat) (c : Completion)
  /-- INTAKE_ENTRY_COMPLETE: `c` is the completion of the sample's reads. -/
  | intakeEntryComplete (ring : Nat) (c : Completion)
  -- mailboxes; `ok`: a single aligned 64-bit access (16 R361)
  | mbTx (m : Master) (ch : Nat) (v : W64) (ok : Bool)
  | mbRx (m : Master) (ch : Nat) (ok : Bool)
  | wqTx (m : Master) (ch : Nat) (v : W64) (ok : Bool)
  | wqRx (m : Master) (ch : Nat) (ok : Bool)
  | mbxBind (m : Master) (ch : Nat) (v : W64)
  -- register pages
  | blkLock (m : Master) (ty : Blk) (inst : Nat) (v : W64)
  /-- REGISTER_WRITE at BAR0 byte offset `addr`, or in BAR2 with `bar2`, of `size` bytes. -/
  | registerWrite (m : Master) (bar2 : Bool) (addr size : Nat) (v : W64)
  /-- RC_READ at BAR0 byte offset `addr`, or in BAR2 with `bar2`. -/
  | rcRead (m : Master) (bar2 : Bool) (addr size : Nat)
  | aliasWrite (m : Master) (addr : Nat) (v : W64)
  | aliasRead (m : Master) (addr : Nat)
  | enable (m : Master) (ty : Blk) (inst : Nat) (v : W64)
  | drain (m : Master) (ty : Blk) (inst : Nat) (v : W64)
  | drained (ty : Blk) (inst : Nat)
  -- resets and bring-up
  | blockGo (m : Master) (v : W64)
  | blockResetDone
  | device (m : Master) (v : W64)
  | porN
  | rstN
  | hostReset (cause : HostResetCause)
  | pgFall (x : Supply)
  | boot
  | hbmTrained (t : HbmTraining)
  /-- READY: `us` is the µs from event 2 to event 11 (19 Table 19-4). -/
  | ready (us : Nat)
  -- management controller
  | takeover (m : Master) (v : W64)
  | sramUncorrectable (word : Nat)
  | kick (m : Master) (v : W64)
  | mgtWatchdogExpiry
  | takeoverComplete
  | svnAdvance (m : Master) (v : W64)
  | flashProgram (m : Master) (v : W64)
  | flashErase (m : Master) (v : W64)
  | flashRead (m : Master) (v : W64)
  | flashDone
  | i2cWrite (port : I2cPort) (off : Nat) (data : List Byte)
  | i2cRead (port : I2cPort) (off : Nat)
  | i2cAddressMatch (addr : Nat)
  /-- SENSOR_SAMPLE: the sixteen die sensors and the six stack temperatures, °C. -/
  | sensorSample (die stack : List Int)
  -- power
  | sleepRequest (m : Master) (v : W64)
  | standbyRequest (m : Master) (v : W64)
  | wakeRequest (src : WakeSource)
  | nolocActivity (p : Nat)
  | lomraWakePattern (p : Nat)
  | pcieD0
  | entrySequenceComplete
  | restoreComplete
  | idleEntry
  | railFail
  | voltageLoopPeriod
  /-- AVS_RESPONSE to the voltage write outstanding on `rail`. -/
  | avsResponse (rail : Rail) (ack : SlaveAck)
  /-- VDONE_POLL: VDone as polled; `expired`: the bound of R403 has passed. -/
  | vdonePoll (rail : Rail) (vdone expired : Bool)
  | avsLost
  /-- CURRENT_SAMPLE: the package power averaged over 100 µs and over 1 ms, and the on-die estimate, in W (18 R410, R411). -/
  | currentSample (avg100us avg1ms estimate : Nat)
  | powerLimit1ms
  | floorRate (m : Master) (v : W64)
  | mgtVset (m : Master) (v : W64)
  -- Noloc link
  | retrain (m : Master) (p : Nat) (v : W64)
  | fastRetrain (m : Master) (p : Nat) (v : W64)
  | fastRetrainTimeout (p : Nat)
  | lossOfSignal (p : Nat)
  /-- LANES_LOCKED: `spare` is the logical lane whose physical lane full training found bad in each direction (12 R263). -/
  | lanesLocked (p : Nat) (txSpare rxSpare : Option Nat)
  | identityExchange (p : Nat) (peer : PeerIdentity)
  | identityRetry (p : Nat) (peer : PeerIdentity)
  | trainingTimeout (p : Nat)
  | trainingRetry (p : Nat)
  | laneWindow (p : Nat)
  /-- FLIT_TRANSMIT: send the next sequenced flit of class `cls` (0 REQ, 1 RSP, 2 SEC). -/
  | flitTransmit (p cls : Nat)
  /-- FLIT_RECEIVE: 256 bytes arrive on port `p`. -/
  | flitReceive (p : Nat) (bytes : List Byte)
  | retryReq (p : Nat)
  | ackTimeout (p : Nat)
  | retryLimit (p : Nat)
  | lost (p : Nat)
  | lctl (p : Nat)
  | lctlTimer (p : Nat)
  | bell (p : Nat)
  | underpassClose (m : Master) (p : Nat) (v : W64)
  | underpassOpen (m : Master) (p : Nat) (v : W64)
  | underpassOpenTimeout (pair : Nat)
  -- rings and windows
  | stepReady (p : Nat)
  | transferForward (p : Nat)
  | transferSend (ring : Nat)
  | remoteWriteArrival (p : Nat)
  | remoteReadArrival (p : Nat) (ph : List Phys)
  | resp (p : Nat) (ph : List Phys)
  | openCloseMarker (p : Nat)
  | blockEnd (p : Nat)
  | ringTransferReceive (p : Nat) (ph : List Phys)
  -- debug
  | dbgMemRead (m : Master) (v : W64)
  | dbgMemWrite (m : Master) (v : W64)
  | dbgMemDone
  | dbgFifoData (m : Master)
  -- board events
  /-- RESET_RELEASE: `straps` is the value S of the address lands as then seen (21 R455). -/
  | resetRelease (land : ResetLand) (straps : Nat)
  | powerGoodRise (x : Supply)
  | avsStatusAlert (rail : Rail) (vdone : Bool)
  | avsBusyRetry (rail : Rail)
  | laneLockLost (p lane : Nat)
  | hbmLaneFault (inst : Nat)
  | rebuildComplete (inst : Nat)
  | holderReport (gen : Nat)
  | fuseBurnDone
deriving DecidableEq, Repr

end Sys2Proof
end

