-- ==== Sys2Proof/Config.lean ====
section
/-! DEFINITION. The free values: opaque constants without a body, about which nothing can be proved. -/

namespace Sys2Proof.Config

/-- A free 64-bit value: one that the spec says is undefined or does not state, applied to a fresh count.
DESIGN CHOICE: log entry 11. -/
opaque freeWord : Nat → W64

/-- The size of the LCK region that the device of an identity holds for its neighbour, in units of 3 MiB: its owner is not told.
DESIGN CHOICE: log entry 77. -/
opaque heldUnits : W64 → Nat

/-- The repair records that the firmware data area of flash holds once it has been programmed or erased from outside Qormanan's own
keeping: condemned units, rows under soft post-package repair, and registers with their values. No rule gives their form.
DEDUCED: log entry 75. -/
opaque condemnedIn : List (Nat × Byte) → List (Nat × Nat)
opaque rowRepairsIn : List (Nat × Byte) → List (Nat × Nat)
opaque repairsIn : List (Nat × Byte) → List (Nat × W64)

end Sys2Proof.Config
end

