-- ==== Sys2Proof/Machine/State.lean ====
section
/-! DEFINITION. The whole state of the Krada as plain data, its faults and refusals, and `State.reset`.
Registers have one home, `State.regs`, keyed by BAR0 address; what is not a register has a field of its own. -/

namespace Sys2Proof.Machine

/-- A sparse map in canonical form: keys strictly rising, no entry equal to what an unlisted key reads as. -/
abbrev Cells (β : Type) := List (Nat × β)

/-- Bytes of a memory by address. -/
abbrev Mem := List Host.Cell

/-- A 4,096-bit mask over group slots (00 Table 00-4, contributor mask). -/
abbrev Mask := BitVec 4096

/-! ## Timetable -/

/-- A Timetable entry: four 64-bit words (03 R49). -/
structure Entry where
  w0 : W64
  w1 : W64
  w2 : W64
  w3 : W64
deriving DecidableEq, Repr

/-- A tensor descriptor (09 R195, Table 09-1). -/
structure Desc where
  offset : Nat
  unit : Nat
  place : Nat
  indexBase : Nat
  fmt : Nat
  layout : Nat
  scaleId : Nat
  aux : Nat
  rank : Nat
  extent : List Nat
  stride : List Nat
deriving DecidableEq, Repr

/-- The Timetable header (03 Table 03-1). -/
structure Header where
  profileCore : Nat := 0
  profileHbm : Nat := 0
  floor : Nat := 0
  mbMax : Nat := 0
  buckets : Nat := 0
  deadline : Nat := 0
  streamTable : Nat := 0
  streams : Nat := 0
  descTable : Nat := 0
  descCount : Nat := 0
  derivTable : Nat := 0
  hashMap : Nat := 0
  bucketLimit : List Nat := []
deriving DecidableEq, Repr

/-- A curve of a function record (05 Table 05-4). -/
structure Curve where
  lo : F32
  exp : Int
  l0 : F32
  l1 : F32
  h0 : F32
  h1 : F32
  seg : List (F32 × F32 × F32)
deriving DecidableEq, Repr

/-- A hyperparameter record (06 Table 06-7). -/
structure Hyper where
  beta1 : F32
  beta2 : F32
  eps : F32
  decay : F32
  gscale : F32
  lr : F32
  curve : Nat
  biasCorr : Bool
deriving DecidableEq, Repr

/-- A window table entry (13 Table 13-3). `kind`: 0 UNUSED, 1 OWNED, 2 REMOTE, 3 REMOTE_REL. -/
structure WinEntry where
  kind : Nat := 0
  ring : Nat := 0
  stash : Bool := false
  noWrite : Bool := false
  noRead : Bool := false
  noticeAbs : Bool := false
  region : Nat := 0
  pos : Nat := 0
  target : Nat := 0
  offset : Nat := 0
  size : Nat := 0
  arrivalPass : Nat := 0
  arrivalEn : Bool := false
deriving DecidableEq, Repr

/-- A confined event. `group`: `none` for every group of the entry's micro-batch (the whole local slot). -/
structure Confined where
  code : Nat
  ty : Blk
  inst : Nat
  detail : Nat
  group : Option Nat
deriving DecidableEq, Repr

/-- A fault record (14 Table 14-2). -/
structure FaultRec where
  code : Nat
  cls : Nat
  block : Nat
  inst : Nat
  stream : Nat
  entry : Nat
  step : Nat
  group : Nat
  mbSlot : Nat
  mixed : Bool
  departed : Bool
  again : Bool
  detail : Nat
deriving DecidableEq, Repr

/-- A control word's content: flags, departure bits, contributor mask (13 Table 13-8). -/
structure CtlWord where
  nf : Bool
  taint : Bool
  dep : Mask
  mask : Mask
deriving DecidableEq, Repr

/-- An entry in flight (03 R50). -/
structure Flight where
  idx : Nat
  /-- Its unit has reported it complete (every write visible). -/
  done : Bool
  /-- It issued after a void of its slot (14 R317). -/
  voided : Bool
  /-- MB_SLOT of its segment. -/
  slot : Option Nat
  /-- Records of its confined events whose voids take effect when it completes (14 R317). -/
  raised : List FaultRec
  /-- Remote transfers it waits for (13 R289, R296). -/
  waiting : Nat
  /-- Its effect has run: every remote byte that it reads has been answered. -/
  ran : Bool
  /-- Remote source bytes received so far, by window number * 2^44 + window offset. -/
  stage : Mem
  /-- Ranges of `stage` asked for: (key, length). -/
  asked : List (Nat × Nat)
  /-- What the physical world did when the entry issued, for the effect that runs at the last answer. -/
  ph : List Phys
  /-- A WRITE of the entry was answered `TRANSFER_LOST`: recorded in its completion (13 R297). -/
  lost : Bool := false
  /-- Reads of `stage` that were refused, lost or poisoned: (key, length); their rows are zero codes (07 R158, 13 R297). -/
  failed : List (Nat × Nat) := []
  /-- Hard faults of the entry that end the step once it has completed and posted (04 R99, 07 R171, 09 R215, 10 R223). -/
  hard : List FaultRec := []
  /-- The control word that a collective formed when it issued (06 R142, 13 R303). -/
  word : Option CtlWord := none
  /-- The number of the stash record that a `STASH_READ` found when it ran (05 R118). -/
  record : Option Nat := none
deriving DecidableEq, Repr

/-- A sequencer and its stream (03 R46, R50 to R55). -/
structure Stream where
  kind : Nat
  unit : Nat
  entries : List Entry
  /-- Index of the entry evaluated next. -/
  pos : Nat := 0
  inflight : List Flight := []
  /-- The wait of the entry at `pos` has been satisfied and its count subtracted (03 R57). -/
  released : Bool := false
  /-- The entry at `pos` is blocked on its wait. -/
  blocked : Bool := false
  setDone : Bool := false
  /-- The segment that holds `pos`: MB_SLOT and the index after its last covered entry (03 R52). -/
  seg : Option (Nat × Nat) := none
  /-- The stream has passed UPDATE_BEGIN. -/
  afterUpdate : Bool := false
  /-- The stream stands at STEP_END (03 R55). -/
  atEnd : Bool := false
deriving DecidableEq, Repr

/-- The job of the last accepted START, as validation copied it (03 R48, 05 R105, 06 R132, 09 R204, 13 R292). -/
structure Job where
  ttBase : Nat := 0
  seed : W64 := 0
  wsBase : Nat := 0
  startStep : Nat := 0
  header : Header := {}
  descs : List (Nat × Desc) := []
  /-- Function records F_j, D_j, j from 1. -/
  curves : List (Curve × Curve) := []
  /-- Hyperparameter records by descriptor id. -/
  hypers : List (Nat × Hyper) := []
  windows : Cells WinEntry := []
  /-- STEP of the last accepted Worksheet. -/
  lastAccepted : Option Nat := none
  /-- A step of the job has started (13 R288). -/
  stepStarted : Bool := false
  /-- HALT is requested (03 R72). -/
  haltWanted : Bool := false
  /-- START waits for the restore of the districts (18 R394). -/
  startHeld : Bool := false
  /-- The last two watchdog-class records that ended in a restart (03 R71): step, stream, entry. -/
  stalls : List (Nat × Nat × Nat) := []
  /-- The watchdog-class record of the current abort, if that is what ended the step. -/
  stallNow : Option (Nat × Nat × Nat) := none
  /-- The device has raised a hard fault or a device loss of its own since `START` (14 R336). -/
  faulted : Bool := false
  /-- Latched stash configuration and quota (05 R114). -/
  stashCfg : W64 := 0
  stashQuota : W64 := 0
deriving DecidableEq, Repr

/-! ## Worksheet and running step -/

/-- A micro-batch entry (03 Table 03-15). -/
structure Micro where
  length : Nat
  bucket : Nat
  groups : Nat
  firstGroup : Nat
deriving DecidableEq, Repr

/-- A grouped-operation table entry (08 Table 08-8). -/
structure GroupRange where
  group : Nat
  mb : Nat
  rows : Nat
  srcRow : Nat
  dstRow : Nat
deriving DecidableEq, Repr

/-- A validated Worksheet (03 Table 03-14). -/
structure Worksheet where
  step : Nat := 0
  slot : Nat := 0
  mbs : List Micro := []
  ranges : List GroupRange := []
  expectA : Mask := 0
  expectB : Mask := 0
  expectC : Mask := 0
deriving DecidableEq, Repr

/-- How far the Bell of the running step has come (03 Table 03-17). -/
inductive BellPhase where
  | running | markersSent | drained
deriving DecidableEq, Repr

/-- The six counters of Table 06-8. -/
structure Counts where
  elements : Nat := 0
  zeros : Nat := 0
  flushes : Nat := 0
  saturations : Nat := 0
  nonfinite : Nat := 0
  amax : F32 := 0
deriving DecidableEq, Repr

/-- The running step. -/
structure StepSt where
  active : Bool := false
  ws : Worksheet := {}
  setOpen : Bool := false
  maskA : Mask := 0
  maskB : Mask := 0
  maskC : Mask := 0
  /-- The device's own departure bits (03 R74). -/
  departed : Mask := 0
  /-- Departure bits after adoption of ring-wide words (08 R184). -/
  departedRing : Mask := 0
  dropped : Mask := 0
  nonfinite : Bool := false
  taint : Bool := false
  /-- The gate snapshot has been taken (06 R142). -/
  snapshot : Bool := false
  /-- The last gate word received: NONFINITE, TAINT. -/
  gateWord : Option (Bool × Bool) := none
  /-- Rings whose gate-carrying entry has completed. -/
  gateDone : List Nat := []
  decided : Bool := false
  gateOpen : Bool := false
  bell : BellPhase := .running
  /-- An update entry has written (14 R328 LIVE_CLEAN). -/
  updateWrote : Bool := false
  confined : List FaultRec := []
  confinedCount : Nat := 0
  idxAbsent : Nat := 0
  idxOob : Nat := 0
  overflow : Nat := 0
  answersDropped : Nat := 0
  refused : Nat := 0
  corrected : Nat := 0
  updateNonfinite : Bool := false
  stashPinned : Bool := false
  floorBreach : Bool := false
  /-- `ELAPSED` has been read while `UPDATE_BEGIN` waited on pass 0x7F02, and stands (03 R67). -/
  elapsedHeld : Bool := false
  stashPlaced : Nat × Nat × Nat := (0, 0, 0)
  /-- Stash records made in the step: the number of the next one. -/
  stashMade : Nat := 0
  silentIds : List Nat := []
  silentAlerts : Nat := 0
  rateMin : Nat := 0xFFFF
  /-- System passes posted (03 R56). -/
  sysPasses : List Nat := []
  /-- A step whose own hard fault or device loss ended it. -/
  aborted : Bool := false
deriving DecidableEq, Repr

/-- A step behind the running one (16 R371). -/
structure PendingStep where
  word : W64
  ws : Option Worksheet
  /-- Rejected or discarded: it holds the slot until its card is issued. -/
  rejected : Bool := false
deriving DecidableEq, Repr

/-- A Report card waiting to be written (15 R352): its 248 first bytes as fields are formed when it is queued. -/
structure Card where
  body : List Byte
  annex : Option (List Byte)
  /-- The card of a rejected or discarded doorbell: its issue frees the pending slot (16 R371). -/
  frees : Bool
deriving DecidableEq, Repr

/-! ## Census, stash -/

/-- A scale table record (06 Table 06-3). -/
structure ScaleRec where
  format : Nat := 0xF
  margin : Nat := 0
  flags : Nat := 0
  scale : Int := 0
  head : Nat := 0
  filled : Nat := 0
  hist : List F32 := List.replicate 16 0
deriving DecidableEq, Repr

/-- The Roll call (06 R137 to R141): the four units' merged counts, the snapshot, the records.
DEDUCED: log entry 38. -/
structure Census where
  scale : Cells ScaleRec := []
  counts : Cells Counts := []
  /-- Device-wide totals over every id (06 R139, 15 Table 15-4). -/
  totals : Counts := {}
  snap : Cells Counts := []
  snapTotals : Counts := {}
  runs : Cells Nat := []
  /-- Ids that have alerted in their present run (06 R140). -/
  alerted : List Nat := []
  /-- The RCL_CFG in force (06 R147: writes take effect at the next Bell drain complete). -/
  cfg : W64 := 0x000F_3E58_0000_0040
deriving DecidableEq, Repr

/-- A stash record (05 R112, R113): `blocks` are (level, block): 0 local, 1 neighbour, 2 host; `id` numbers the records of a
step, so that a read frees its own and no later one (R118). -/
structure StashRec where
  tag : Nat
  bytes : Nat
  exhausted : Bool
  blocks : List (Nat × Nat)
  id : Nat := 0
deriving DecidableEq, Repr

/-! ## Noloc and rings -/

/-- A flit (12 Table 12-3), less CRC and FEC. -/
structure Flit where
  typ : Nat
  seq : Nat := 0
  ack : Nat := 0
  cls : Nat := 0
  gv : Bool := false
  tag : Nat := 0
  group : Nat := 0
  len : Nat := 0
  payload : List Byte := []
deriving DecidableEq, Repr

/-- A transfer that waits to start: the port it leaves by, its first flit and its data (13 R289). `xfer`: the running
number of the unanswered access it makes; `entry`: the stream table index and entry that sent it. -/
structure Transfer where
  port : Nat
  first : Flit
  data : List Byte
  xfer : Option Nat := none
  entry : Option (Nat × Nat) := none
deriving DecidableEq, Repr

/-- A Noloc port beyond its registers (12 R260 to R275). -/
structure Port where
  /-- Last completed event of Table 12-2 (0 to 6). -/
  event : Nat := 0
  fast : Bool := false
  loopback : Bool := false
  /-- The role in force (a written ROLE takes effect at the next full training, 12 R283). -/
  role : Nat := 0
  /-- The link state of the last time the link was up is held: RESUME (12 R260), with the peer's identity. -/
  resume : Bool := false
  peer : Option PeerIdentity := none
  txSeq : Nat := 0
  rxSeq : Nat := 0
  /-- Unacknowledged sequenced flits, oldest first (the retry buffer). -/
  retry : List Flit := []
  /-- Flits of `retry` still to be sent again. -/
  resend : Nat := 0
  fails : Nat := 0
  failRuns : Nat := 0
  /-- The receiver drops sequenced flits until its expected SEQ passes (12 R273). -/
  awaiting : Bool := false
  /-- Flits waiting to be sent. -/
  txq : List Flit := []
  /-- Accepted sequenced flits not yet taken by the core, oldest first. -/
  rxq : List Flit := []
  /-- Accepted unsequenced flits not yet acted on. -/
  ctl : List Flit := []
  /-- Per class REQ, RSP, SEC: initial credits, cumulative returned by the peer, sent, and freed at this receiver. -/
  credInit : Nat × Nat × Nat := (0, 0, 0)
  credBack : Nat × Nat × Nat := (0, 0, 0)
  sent : Nat × Nat × Nat := (0, 0, 0)
  freed : Nat × Nat × Nat := (0, 0, 0)
  /-- Credits reported in the last LCTL, and flits sent since it. -/
  reported : Nat × Nat × Nat := (0, 0, 0)
  sinceLctl : Nat := 0
  /-- Corrected bytes per logical lane in the running window (12 R263). -/
  lanes : Cells Nat := []
  /-- A lane to name in SPARE_REQ. -/
  spareReq : Option Nat := none
  /-- Lanes whose fast retrain after a second fault is running (12 R263). -/
  retried : List Nat := []
  /-- Classes whose transfer is being dropped after a LOST flit: its further DATA flits go as they arrive (12 R274). -/
  discarding : List Nat := []
  /-- REQ and RSP flits sent since the last SEC flit while SEC flits waited (14 R326). -/
  secGap : Nat := 0
  /-- Flits of each class, to the domain and to the core, that a requested drain still has to deliver (02 R34). -/
  drainTx : Nat × Nat × Nat := (0, 0, 0)
  drainRx : Nat × Nat × Nat := (0, 0, 0)
deriving DecidableEq, Repr

/-- A window that the device owns (13 R293). -/
structure Owned where
  isOpen : Bool := false
  epoch : Nat := 0
  /-- The epoch before the last close, under which accesses that arrived before it are checked. -/
  was : Nat := 0
  /-- Accesses by port whose `HEAD` arrived before the last close and that are not answered. -/
  before : List Nat := []
  /-- Close entries that wait for them: stream table index and entry. -/
  closers : List (Nat × Nat) := []
deriving DecidableEq, Repr

/-- The view of a remote window (13 R294). -/
structure View where
  isOpen : Bool := false
  epoch : Nat := 0
  size : Nat := 0
  opens : Nat := 0
  /-- Transfers to the window not yet answered. -/
  unanswered : Nat := 0
  /-- The stash attach of the running step has completed without a later detach (13 R299). -/
  attached : Bool := false
deriving DecidableEq, Repr

/-- An unanswered WRITE or READ (13 R289): its running number (XFER is that modulo 4,096), the owner's window number,
and the entry that made it (`stream` 0xFFFF: securing traffic). `key`: where a read answer goes in the entry's `stage`. -/
structure Xfer where
  id : Nat
  op : Nat
  /-- Window table entry through which it goes. -/
  window : Nat
  key : Nat
  length : Nat
  stream : Nat
  idx : Nat
deriving DecidableEq, Repr

/-- A collective or `ROTATE` in flight (13 R301 to R310). DEDUCED: log entry 115. -/
structure Coll where
  stream : Nat
  idx : Nat
  /-- 0 control, 1 reduce, 2 gather, 3 rotate, 4 finished. -/
  phase : Nat
  /-- Control words received. -/
  lap : Nat
  /-- Bytes received in the phase on the up-going half and on the down-going half. -/
  got0 : Nat
  got1 : Nat
  /-- The number D of groups in the ring-wide mask once known (13 R305). -/
  divisor : Option Nat
  /-- The control word formed at issue: flags, departure bits, contributor mask (13 R303). -/
  nf : Bool
  taint : Bool
  dep : Mask
  mask : Mask
  /-- Codes of `DESC_A` in linear order. -/
  src : List Nat
  /-- Sums of the own chunk so far, as FP32 encodings, by element of the chunk. -/
  red : Cells Nat
  /-- Codes of `DESC_C` received, by linear index; for `ROTATE` its bytes. -/
  dst : Cells Nat
deriving DecidableEq, Repr

/-- A ring engine beyond its registers. -/
structure Ring where
  sendq : List Transfer := []
  xfers : List Xfer := []
  nextXfer : Nat := 0
  colls : List Coll := []
  /-- The steps of the `STEP_READY` markers received on the up and down port, of those not ended (13 R291). -/
  readyUp : List Nat := []
  readyDown : List Nat := []
  /-- Transfers queued when the last drain was asked for (02 R34, 20 R431). -/
  drainq : List Transfer := []
deriving DecidableEq, Repr

/-! ## Locker -/

/-- A securing pass or a restart in progress (14 R325, R330). -/
structure Locker where
  /-- A forced pass is pending (14 R327). -/
  forced : Bool := false
  /-- The running pass has read all its state (03 Table 03-13, 0x7F02). -/
  readDone : Bool := false
  /-- What the holder answered in a refill: generation bytes by offset. -/
  image : Mem := []
  /-- A read of the refill was answered without data. -/
  broken : Bool := false
  /-- The holder's identity at the last accepted START or RESTART (14 R327). -/
  holder : Option W64 := none
  /-- The channel profile to which the device steps at event 7 of the restart (14 R331). -/
  stepTo : Option Nat := none
  /-- The step whose Bell preceded the running pass, and `GLB_UPDATE_COUNT` at its start (14 Table 14-3). -/
  passStep : Nat := 0
  passUpdates : W64 := 0
  /-- The directory of each generation as its last complete pass wrote it (14 R330). -/
  dir0 : List Nat := []
  dir1 : List Nat := []
deriving DecidableEq, Repr

/-! ## Mailboxes -/

/-- A notice channel beyond its status register (16 R365). -/
structure Notice where
  full : Bool := false
  value : W64 := 0
  stamp : Byte := 0
deriving DecidableEq, Repr

/-- One party's side of a word-queue channel (16 R366): its outgoing words with stamps, and its status. -/
structure WordSide where
  out : List (W64 × Byte) := []
  overrun : Bool := false
  emptyRead : Bool := false
  rejects : Nat := 0
  rejLog : W64 := 0
deriving DecidableEq, Repr

/-- A word-queue channel: party A and party B. -/
structure WordCh where
  a : WordSide := {}
  b : WordSide := {}
deriving DecidableEq, Repr

/-! ## Intake -/

/-- An intake entry in transfer (15 R345). -/
structure IntakeEntry where
  raw : List Byte
  ok : Bool
  /-- Where it was read: host window and offset. -/
  win : Nat := 0
  off : Nat := 0
deriving DecidableEq, Repr

/-! ## Management and power -/

/-- The fuses (17, 18): key hashes, revocation mask, security version, trip levels, ceiling, VPHY set point, identity,
part revision, PCIe vendor identifier (15 Table 15-1). At reset the model names a value for each (DESIGN CHOICE, log entry 9). -/
structure Fuses where
  keyHashes : List (List Byte) := []
  revoked : Nat := 0
  svn : Nat := 0
  stage1 : Nat := 100
  stage2 : Nat := 115
  ceil : Nat := 1350
  vphy : Nat := 850
  identity : W64 := 0
  revision : Nat := 1
  vendor : Nat := 0
deriving DecidableEq, Repr

/-- The reset kind that waits behind a sequence, a flash operation or a fuse burn (19 R416). -/
inductive HeldReset where
  | byLand | byWrite | leaveStandby (src : WakeSource)
deriving DecidableEq, Repr

/-- Qormanan beyond its registers. -/
structure Mgt where
  /-- Image and data regions of the 2 MiB SRAM (17 Table 17-1). -/
  sram : Mem := []
  /-- Cores held in reset. -/
  held0 : Bool := true
  held1 : Bool := true
  takeoverRunning : Bool := false
  watchdogOn : Bool := false
  flash : Mem := []
  /-- The flash operation running: op, address, data. -/
  flashOp : Option (Nat × Nat × W64) := none
  burning : Option Nat := none
  fuses : Fuses := {}
  /-- Sensors at or above stage 1 and stage 2, and stacks at or above 105 °C, in the last sample (17 R384). -/
  hot1 : List Nat := []
  hot2 : List Nat := []
  hotStacks : List Nat := []
  warned : Bool := false
  tripped : Bool := false
  /-- THERM_TRIP_N is driven low (21 R456). -/
  tripLand : Bool := false
  strap : Nat := 0
  /-- Reset lands held low. -/
  porLow : Bool := true
  rstLow : Bool := false
  perstLow : Bool := true
  heldReset : Option HeldReset := none
  /-- The repair records in the firmware data area of flash, as Qormanan keeps them: condemned units as (type code, instance),
  which outlive every reset (19 R464, Table 19-3). -/
  records : List (Nat × Nat) := []
  /-- Rows under soft post-package repair: pseudo-channel and row group (11 Table 11-2). -/
  rowRepairs : List (Nat × Nat) := []
  /-- The substitutes and channel maps of the repair records, by register (19 Table 19-2 event 6). -/
  repairs : Cells W64 := []
  /-- The pairs whose `OPEN` the shipped image still writes at event 12 (19 R419). -/
  opening : List Nat := []
deriving DecidableEq, Repr

/-- A voltage write outstanding on a rail (18 R403). -/
structure AvsWrite where
  mv : Nat
  busy : Nat := 0
  crc : Nat := 0
  acked : Bool := false
  /-- The last answer was "busy": the write goes again after 10 µs. -/
  hold : Bool := false
deriving DecidableEq, Repr

/-- What a held request asks for (18 R399). -/
inductive HeldReq where
  | wake (src : WakeSource) | sleep | standby
deriving DecidableEq, Repr

/-- The sequence running (18 R397, R398; `bringUp`: the rails of 19 Table 19-2 event 5 come up).
DEDUCED: log entry 105. -/
inductive Seq where
  | none | enterSleep | enterStandby | restore | restoreRun | bringUp
deriving DecidableEq, Repr

/-- Power beyond its registers. -/
structure Power where
  seq : Seq := .none
  held : Option HeldReq := none
  /-- Rail enables and power-good lands: VCORE, VSRAM, VPHY, VHBM. -/
  en : List Supply := []
  pg : List Supply := []
  wcore : Option AvsWrite := none
  wsram : Option AvsWrite := none
  wphy : Option AvsWrite := none
  /-- Set points that wait behind another rail's write (18 R404). -/
  wantCore : Option Nat := none
  wantSram : Option Nat := none
  /-- The VSRAM set point that a write of `MGT_VSET` has commanded under `MANUAL` (18 R412). -/
  manualSram : Option Nat := none
  /-- VPHY's last acknowledged set point. -/
  vphy : Nat := 0
  coreFailed : Bool := false
  sramFailed : Bool := false
  /-- Body-bias steps 0 to 4 and good periods in a row (18 R408). -/
  bias : Nat := 0
  goodPeriods : Nat := 0
  /-- A step of body bias has been applied in the running loop period. -/
  biased : Bool := false
  /-- Last VCORE set point acknowledged in RUN (18 R398). -/
  runSet : Option Nat := none
  avg100 : Nat := 0
  avg1 : Nat := 0
  estimate : Nat := 0
  limiting : Bool := false
  /-- The lowest RATE_NOW of any active district over the running loop period (18 R406). -/
  rateLow : Nat := 0xFFFF
  /-- The gate of each district, of each stack's PHY and of each port pair's PHY is open (18 Table 18-1). -/
  districts : List Bool := List.replicate 4 false
  stackPhys : List Bool := List.replicate 6 false
  pairPhys : List Bool := List.replicate 3 false
  /-- Rails whose last voltage write ended by VDone (18 R398, R403). -/
  vdone : List Rail := []
  /-- The sampling oscillator runs (18 Table 18-3 event 9). -/
  oscillator : Bool := true
deriving DecidableEq, Repr

/-- One crossing (02 Table 02-5): whether its domain's clock runs, and the held wake request (R40). The words of a Noloc
crossing are the port's `txq` and `rxq`. Every other crossing passes a command's packets within that command, and what waits behind
its stopped clock is the access itself.
DEDUCED: log entry 92. -/
structure Crossing where
  clockOn : Bool := true
  wake : Bool := false
deriving DecidableEq, Repr

/-- The sideband lands that hold a level between two commands (21 Table 21-4); the bus lands' traffic is commands and outputs. -/
inductive Sideband where
  | reset (l : ResetLand)
  /-- `ADDR_S0` or `ADDR_S1`, as sampled (21 R455). -/
  | addr (bit : Fin 2)
  | enable (x : Supply)
  | good (x : Supply)
  | thermTrip
deriving DecidableEq, Repr

/-- A BAR4 access of the host: direction, offset, length or data, and what the physical world did to it (15 R342). -/
structure HostAccess where
  write : Bool
  off : Nat
  len : Nat := 0
  data : List Byte := []
  ph : List Phys := []
deriving DecidableEq, Repr

/-! ## Outputs -/

/-- What is read of a rail over AVSBus (18 Table 18-6). -/
inductive AvsItem where
  | voltage | current | temperature
deriving DecidableEq, Repr

/-- What leaves the device, appended in order. -/
inductive Out where
  /-- The value a read returns to its reader. -/
  | read (v : W64)
  | readBytes (bs : List Byte)
  /-- A posted write to host memory (15). -/
  | hostWrite (addr : Nat) (bs : List Byte)
  | msix (vector : Nat)
  /-- A line of the management core's, or of SEC's, interrupt input (16 R369, 17 R388). -/
  | mgtLine (line : Nat)
  | secLine (line : Nat)
  /-- AER: 0 Completer Abort, 1 Poisoned TLP Received, 2 Completion Timeout (15 Table 15-7). -/
  | aer (kind : Nat)
  | unsupportedRequest
  | errorResponse (m : Master)
  /-- The holder's report to the owner that a Locker generation is damaged (11 R248). -/
  | damaged (gen : Nat)
  /-- An alert or a counted event by its code. -/
  | alert (code : Nat)
  /-- A 256-byte flit on a port (12 R266). -/
  | flit (port : Nat) (bytes : List Byte)
  /-- The identity exchange: port, role, pair, device identity, `RESUME`, receive buffers REQ, RSP, SEC (12 R260, R270). -/
  | identity (port role pair : Nat) (id : W64) (resume : Bool) (req rsp sec : Nat)
  | avs (rail : Rail) (mv : Nat)
  | avsStatusRead (rail : Rail)
  /-- The transition rate of a rail, in 0.1 mV/µs, written at bring-up; the version read there; the periodic reads (18 Table
  18-6). -/
  | avsRate (rail : Rail) (rate : Nat)
  | avsVersionRead
  | avsRead (item : AvsItem) (rail : Rail)
  /-- Traffic to a stash holder or a remote device is flits; I²C answers. -/
  | i2cAck (yes : Bool)
  | land (name : String) (high : Bool)
  /-- The stream report of a watchdog (03 R69): stream, entry, and pass, required, present where blocked on a wait. -/
  | streamReport (rows : List (Nat × Nat × Option (Nat × Nat × Nat)))
deriving DecidableEq, Repr

/-! ## The state -/

structure State where
  /-- Commands waiting, first in, first out. -/
  pending : List Instr
  /-- Every register of BAR0 by address (20 R425); unlisted: its reset value. -/
  regs : Cells W64
  /-- HBM data bytes by device address (11 R231). -/
  hbm : Mem
  /-- HBM check bytes: byte i of line L at 8 L + i (11 R239). -/
  chk : Mem
  /-- Scratchpad bytes: core instance * 524,288 + offset (10 R218). -/
  sp : Mem
  /-- Corrected scratchpad words that wait for their write-back: word addresses in `sp` (10 R222). -/
  spFix : List Nat
  /-- Accumulators: ((core * 4 + array) * 2 + set) * 4,096 + row * 64 + column (04 R81). -/
  acc : Cells F32
  /-- K-steps since the set was last put at +0: (core * 4 + array) * 2 + set (04 R80). -/
  ksteps : Cells Nat
  /-- Hall-pass counts and first waiters by pass id (03 R57, R59). -/
  passes : Cells Nat
  waiters : Cells Nat
  job : Job
  streams : List Stream
  step : StepSt
  slot : Option PendingStep
  /-- The validated step that has left the pending slot and whose first entry has not run (16 R371). -/
  next : Option Worksheet
  cards : List Card
  census : Census
  stash : List StashRec
  /-- Host-level stash lines whose read is not answered (15 R357): host addresses of row groups. -/
  stashTimeouts : List Nat
  /-- The six Noloc ports and the three ring engines (12 R260, 13 R289). -/
  ports : List Port
  rings : List Ring
  owned : Cells Owned
  views : Cells View
  locker : Locker
  notices : Cells Notice
  words : Cells WordCh
  intake : Cells (List IntakeEntry)
  /-- Host memory as the Krada has written it. -/
  host : Mem
  /-- By type code * 512 + instance. -/
  crossings : Cells Crossing
  /-- The host's BAR4 accesses that wait in the PCIe crossing for a stopped clock, oldest first (02 R40). -/
  heldHost : List HostAccess
  /-- Instances whose `DRAIN` has not completed, by type code * 512 + instance (20 R431). -/
  drains : Cells Bool
  /-- What was in progress in a drained instance at the request: its key, and the step, stream and entry, or for the intake 0, the
  ring and `SEQ` (20 R431). -/
  drainHeld : List (Nat × Nat × Nat × Nat)
  /-- Uncorrectable row groups per HBC instance in the job (11 R251): (instance, row group). -/
  ueGroups : List (Nat × Nat)
  /-- Substituted pseudo-channels not yet rebuilt (11 R252). -/
  unbuilt : List Nat
  /-- Lines of LCK regions on a substitute that have been written whole since the substitution (11 R248, R252). -/
  mended : List Nat
  /-- Lines read by the running scrub pass of their stack (11 R244). -/
  scrubbed : List Nat
  /-- The running fill: base and size of the entry as it stood at `START` (11 R241). -/
  fill : Option (Nat × Nat)
  /-- Hard faults of a unit in the job, for condemnation (04 R99, 10 R225, 14 R329): BAR0 type code, instance, sub-unit. -/
  unitFaults : List (Nat × Nat × Nat)
  mgt : Mgt
  power : Power
  out : List Out
  /-- Free values taken so far: the model's own field. -/
  free : Nat
deriving DecidableEq, Repr

/-- Reasons to stop with a fault. No path of the model raises one: every fault of the manual is an effect on State.
DESIGN CHOICE: log entry 5. -/
inductive Fault where
  /-- Raised by nobody; the manual names no event that stops the block itself. Safe. -/
  | none
deriving DecidableEq, Repr

/-- Reasons to refuse a command. -/
inductive Refusal where
  /-- A command whose meaning is not modelled. Raised by `exec`'s refused arms alone. Safe. -/
  | notModelled (mnemonic : String)
deriving DecidableEq, Repr

/-- The block right after a power-on reset (19 R422): every register at its reset value, memories with nothing listed,
no job, nothing waiting. DESIGN CHOICE: log entry 8. -/
def State.reset : State where
  pending := []
  regs := []
  hbm := []
  chk := []
  sp := []
  spFix := []
  acc := []
  ksteps := []
  passes := []
  waiters := []
  job := {}
  streams := []
  step := {}
  slot := none
  next := none
  cards := []
  census := {}
  stash := []
  stashTimeouts := []
  ports := List.replicate 6 {}
  rings := List.replicate 3 {}
  owned := []
  views := []
  locker := {}
  notices := []
  words := []
  intake := []
  host := []
  crossings := []
  heldHost := []
  drains := []
  drainHeld := []
  ueGroups := []
  unbuilt := []
  mended := []
  scrubbed := []
  fill := none
  unitFaults := []
  mgt := {}
  power := {}
  out := []
  free := 0

end Sys2Proof.Machine
end

