-- ==== Sys2Proof/Machine/Cells.lean ====
section
/-! DEFINITION. Sparse maps in canonical form (keys strictly rising, no default stored), their reads and writes, and
byte runs over them. -/

namespace Sys2Proof.Machine

/-- Read key `k`; `d k` is what an unlisted key reads as. -/
def cellGet {β : Type} (d : Nat → β) : Cells β → Nat → β
  | [], k => d k
  | (a, v) :: t, k => if a = k then v else cellGet d t k

/-- Put `(k, v)` before the first key above `k`. -/
def cellInsert {β : Type} (k : Nat) (v : β) : Cells β → Cells β
  | [] => [(k, v)]
  | (a, w) :: t => if k < a then (k, v) :: (a, w) :: t else (a, w) :: cellInsert k v t

/-- Remove every entry of key `k`. -/
def cellErase {β : Type} (k : Nat) : Cells β → Cells β
  | [] => []
  | (a, w) :: t => if a = k then cellErase k t else (a, w) :: cellErase k t

/-- Write `v` at `k`; writing what an unlisted key reads as removes the entry. -/
def cellSet {β : Type} [DecidableEq β] (d : Nat → β) (m : Cells β) (k : Nat) (v : β) : Cells β :=
  if v = d k then cellErase k m else cellInsert k v (cellErase k m)

/-- Remove every entry with a key from `lo` up to `lo + n - 1`. -/
def cellClear {β : Type} (lo n : Nat) : Cells β → Cells β
  | [] => []
  | (a, w) :: t => if lo ≤ a ∧ a < lo + n then cellClear lo n t else (a, w) :: cellClear lo n t

/-- The canonical form. -/
def cellWf {β : Type} [DecidableEq β] (d : Nat → β) : Cells β → Bool
  | [] => true
  | [(a, v)] => decide (v ≠ d a)
  | (a, v) :: (b, w) :: t => decide (v ≠ d a) && decide (a < b) && cellWf d ((b, w) :: t)

/-- What an unlisted byte of every byte memory reads as. DESIGN CHOICE: log entry 7. -/
def zeroByte : Nat → Byte := fun _ => 0

/-- Read one byte. -/
def memGet (m : Mem) (a : Nat) : Byte := cellGet zeroByte m a

/-- Write one byte. -/
def memSet (m : Mem) (a : Nat) (v : Byte) : Mem := cellSet zeroByte m a v

/-- The canonical form of a byte memory. -/
def memWf (m : Mem) : Bool := cellWf zeroByte m

/-- Read `n` bytes from `a` upward. -/
def memRead (m : Mem) (a : Nat) : Nat → List Byte
  | 0 => []
  | n + 1 => memGet m a :: memRead m (a + 1) n

/-- Write a run of bytes from `a` upward. -/
def memWrite (m : Mem) (a : Nat) : List Byte → Mem
  | [] => m
  | b :: bs => memWrite (memSet m a b) (a + 1) bs

/-- Zero `n` bytes from `lo` upward. -/
def memZero (m : Mem) (lo n : Nat) : Mem := cellClear lo n m

/-- A little-endian byte run as a number (00 R3). -/
def leNat : List Byte → Nat
  | [] => 0
  | b :: bs => b.toNat + 256 * leNat bs

/-- A number as `n` little-endian bytes (00 R3). -/
def leBytes : Nat → Nat → List Byte
  | 0, _ => []
  | n + 1, v => BitVec.ofNat 8 v :: leBytes n (v / 256)

/-- A little-endian number of `n` bytes at `a`. -/
def memNat (m : Mem) (a n : Nat) : Nat := leNat (memRead m a n)

end Sys2Proof.Machine
end

