-- ==== Sys2Proof/Machine/Bits.lean ====
section
/-! DEFINITION. Bit fields, masks, counters and small numeric helpers. -/

namespace Sys2Proof.Machine

/-- Bits [hi:lo] of a number. -/
def bits (w hi lo : Nat) : Nat := w / 2 ^ lo % 2 ^ (hi + 1 - lo)

/-- One bit of a number. -/
def bit (w i : Nat) : Bool := w / 2 ^ i % 2 == 1

/-- The word with ones in [hi:lo]. -/
def fieldMask (hi lo : Nat) : W64 := BitVec.ofNat 64 (2 ^ (hi + 1) - 2 ^ lo)

/-- Field [hi:lo] of a 64-bit word (00 R4). -/
def fld (w : W64) (hi lo : Nat) : Nat := bits w.toNat hi lo

/-- Replace field [hi:lo] of a 64-bit word. -/
def setFld (w : W64) (hi lo v : Nat) : W64 :=
  (w &&& ~~~ fieldMask hi lo) ||| (BitVec.ofNat 64 (v * 2 ^ lo) &&& fieldMask hi lo)

/-- A Bool as a bit. -/
def b2n (b : Bool) : Nat := if b then 1 else 0

/-- Round up to a multiple of `k`. -/
def roundUp (n k : Nat) : Nat := (n + k - 1) / k * k

/-- Ceiling division. -/
def ceilDiv (n k : Nat) : Nat := (n + k - 1) / k

/-- Saturating addition below `2 ^ w`. -/
def satAdd (w a b : Nat) : Nat := min (a + b) (2 ^ w - 1)

/-- A `w`-bit two's-complement number. -/
def signed (w n : Nat) : Int := if n < 2 ^ (w - 1) then (n : Int) else (n : Int) - 2 ^ w

/-- Mask bits `lo` up to `lo + n - 1`. -/
def maskRange (lo n : Nat) : Mask := BitVec.ofNat 4096 ((2 ^ n - 1) * 2 ^ lo)

/-- Whether group `g` is in a mask. -/
def maskHas (m : Mask) (g : Nat) : Bool := m.getLsbD g

/-- Number of set bits among the first `n` bits of a number. -/
def popNat : Nat → Nat → Nat
  | 0, _ => 0
  | n + 1, v => v % 2 + popNat n (v / 2)

/-- Number of groups in a mask. -/
def maskCount (m : Mask) : Nat := popNat 4096 m.toNat

/-- Bytes of a mask, bit g in byte g / 8. -/
def maskBytes (m : Mask) : List Byte := leBytes 512 m.toNat

/-- Split a list into runs of `n` (fuel-bounded by its length). -/
def chunks {α : Type} (n : Nat) (l : List α) : List (List α) :=
  (List.range (ceilDiv l.length (max n 1))).map fun i => (l.drop (i * max n 1)).take (max n 1)

/-- Element `i` of a list of numbers, 0 beyond its end. -/
def nth (l : List Nat) (i : Nat) : Nat := l.getD i 0

end Sys2Proof.Machine
end

