-- ==== Sys2Proof/Machine/Codec.lean ====
section
/-! DEFINITION. The codes over bytes: CRC-32 (03 R45), GF(2^8) arithmetic and the Reed-Solomon codes of a memory line
(11 R242) and of a flit (12 R268). Bytes are numbers below 256 here. -/

namespace Sys2Proof.Machine

/-! ## CRC-32 -/

/-- One bit of the reflected CRC-32 with polynomial 0x04C1_1DB7 (reflected: 0xEDB8_8320). -/
def crcBit (c : Nat) : Nat := if c % 2 = 1 then Nat.xor (c / 2) 0xEDB88320 else c / 2

/-- Eight bits of it. -/
def crcByte (c b : Nat) : Nat :=
  crcBit (crcBit (crcBit (crcBit (crcBit (crcBit (crcBit (crcBit (Nat.xor c b))))))))

/-- The running CRC over a byte string. -/
def crcRun (c : Nat) : List Byte → Nat
  | [] => c
  | b :: bs => crcRun (crcByte c b.toNat) bs

/-- The IEEE 802.3 CRC-32 of R45. -/
def crc32 (bs : List Byte) : Nat := Nat.xor (crcRun 0xFFFFFFFF bs) 0xFFFFFFFF

/-! ## GF(2^8), field polynomial x^8 + x^4 + x^3 + x^2 + 1 (11 R242) -/

/-- Multiply by α = 0x02. -/
def gfx (a : Nat) : Nat := if a < 128 then 2 * a else Nat.xor (2 * a) 0x11D

/-- Multiply by α^n. -/
def gfxs : Nat → Nat → Nat
  | 0, a => a
  | n + 1, a => gfxs n (gfx a)

/-- Product, taking `n` bits of `b`. -/
def gfMulBits : Nat → Nat → Nat → Nat
  | 0, _, _ => 0
  | n + 1, a, b => Nat.xor (if b % 2 = 1 then a else 0) (gfMulBits n (gfx a) (b / 2))

def gfMul (a b : Nat) : Nat := gfMulBits 8 a b

/-- a^(2^8 - 2), the inverse of a nonzero element. -/
def gfInv (a : Nat) : Nat :=
  let a2 := gfMul a a
  let a4 := gfMul a2 a2
  let a8 := gfMul a4 a4
  let a16 := gfMul a8 a8
  let a32 := gfMul a16 a16
  let a64 := gfMul a32 a32
  gfMul a2 (gfMul a4 (gfMul a8 (gfMul a16 (gfMul a32 (gfMul a64 (gfMul a64 a64))))))

/-- α^n. -/
def gfPow (n : Nat) : Nat := gfxs (n % 255) 1

/-- Value at x of a polynomial whose list runs from the highest coefficient down. -/
def gfHorner (x : Nat) : Nat → List Nat → Nat
  | acc, [] => acc
  | acc, c :: cs => gfHorner x (Nat.xor (gfMul acc x) c) cs

/-- Value at α^j, from the highest coefficient down. -/
def gfHornerPow (j : Nat) : Nat → List Nat → Nat
  | acc, [] => acc
  | acc, c :: cs => gfHornerPow j (Nat.xor (gfxs j acc) c) cs

/-- Coefficients of (x - α^0) … (x - α^(k-1)), highest first. -/
def rsGen : Nat → List Nat
  | 0 => [1]
  | k + 1 =>
    let g := rsGen k
    List.zipWith Nat.xor (g ++ [0]) (0 :: g.map (gfMul (gfPow k)))

/-- Check symbols: the remainder of data × x^k divided by g, highest first. `g` is `rsGen k` less its leading 1. -/
def rsRem (g : List Nat) : List Nat → List Nat → List Nat
  | reg, [] => reg
  | reg, d :: ds =>
    let f := Nat.xor d (reg.headD 0)
    rsRem g (List.zipWith Nat.xor (reg.tail ++ [0]) (g.map (gfMul f))) ds

/-- The `k` check symbols of a data string. -/
def rsCheck (k : Nat) (data : List Nat) : List Nat := rsRem (rsGen k).tail (List.replicate k 0) data

/-- The `k` syndromes of a codeword, highest coefficient first. -/
def rsSyndromes (k : Nat) (cw : List Nat) : List Nat := (List.range k).map fun j => gfHornerPow j 0 cw

/-- Polynomial, lowest coefficient first: coefficient-wise sum. -/
def polyAdd : List Nat → List Nat → List Nat
  | [], q => q
  | p, [] => p
  | a :: p, b :: q => Nat.xor a b :: polyAdd p q

/-- State of the Berlekamp-Massey search for the error locator. -/
structure Bm where
  c : List Nat
  b : List Nat
  l : Nat
  m : Nat
  bb : Nat

/-- Discrepancy at step n: Σ c_i S_(n-i). -/
def bmDisc (c synd : List Nat) (n : Nat) : Nat :=
  (List.range c.length).foldl (fun d i => if i ≤ n then Nat.xor d (gfMul (nth c i) (nth synd (n - i))) else d) 0

/-- One step of the search. -/
def bmStep (synd : List Nat) (t : Bm) (n : Nat) : Bm :=
  let d := bmDisc t.c synd n
  if d = 0 then { t with m := t.m + 1 }
  else
    let q := gfMul d (gfInv t.bb)
    let c' := polyAdd t.c (List.replicate t.m 0 ++ t.b.map (gfMul q))
    if 2 * t.l ≤ n then { c := c', b := t.c, l := n + 1 - t.l, m := 1, bb := d }
    else { t with c := c', m := t.m + 1 }

/-- Value of a lowest-first polynomial at x. -/
def polyAt (p : List Nat) (x : Nat) : Nat := gfHorner x 0 p.reverse

/-- Formal derivative of a lowest-first polynomial: the odd coefficients. -/
def polyDeriv (p : List Nat) : List Nat :=
  (List.range (p.length - 1)).map fun i => if i % 2 = 0 then nth p (i + 1) else 0

/-- Error evaluator S(x) Λ(x) mod x^k. -/
def polyOmega (k : Nat) (synd lam : List Nat) : List Nat := (List.range k).map fun n => bmDisc lam synd n

/-- What a decoder finds. -/
inductive Decoded where
  | clean | corrected (cw : List Nat) (bytes : Nat) | failed
deriving DecidableEq, Repr

/-- Decode a codeword of `k` check symbols, correcting up to `t` symbols (bounded distance): the unique codeword within
`t` symbols where there is one, and a failure otherwise (11 R242, 12 R268). -/
def rsDecode (k t : Nat) (cw : List Nat) : Decoded :=
  let synd := rsSyndromes k cw
  if synd.all (· == 0) then .clean
  else
    let r := (List.range k).foldl (bmStep synd) { c := [1], b := [1], l := 0, m := 1, bb := 1 }
    let n := cw.length
    let poss := (List.range n).filter fun i => polyAt r.c (gfPow (255 - (n - 1 - i))) == 0
    if r.l ≤ t ∧ poss.length = r.l then
      let om := polyOmega k synd r.c
      let der := polyDeriv r.c
      let fixed := (List.range n).map fun i =>
        if poss.contains i then
          let xi := gfPow (255 - (n - 1 - i))
          Nat.xor (nth cw i) (gfMul (gfPow (n - 1 - i)) (gfMul (polyAt om xi) (gfInv (polyAt der xi))))
        else nth cw i
      if (rsSyndromes k fixed).all (· == 0) then .corrected fixed r.l else .failed
    else .failed

/-- Bytes as numbers and back. -/
def toNats (bs : List Byte) : List Nat := bs.map (·.toNat)
def ofNats (ns : List Nat) : List Byte := ns.map (BitVec.ofNat 8)

/-- Byte-wise exclusive or. -/
def xorBytes (a b : List Byte) : List Byte := List.zipWith (· ^^^ ·) a b

end Sys2Proof.Machine
end

