-- ==== Sys2Proof/Machine/Regs.lean ====
section
/-! DEFINITION. The register file: addresses (20 R425), fields with their access codes (00 R7), reset values, and the
field accessors that every meaning uses. The layouts are those of the tables that Table 20-11 names. -/

namespace Sys2Proof.Machine

/-- Type code of a block (20 Table 20-1). -/
def blkCode : Blk → Nat
  | .glb => 0 | .dst => 1 | .core => 2 | .jnc => 3 | .mov => 4 | .hbs => 5 | .hbc => 6 | .nlp => 7
  | .rng => 8 | .hpb => 9 | .hif => 10 | .mbx => 11 | .mgt => 12 | .rcl => 13 | .itk => 14 | .dbg => 15

/-- Block of a type code; every 4-bit code is listed (20 Table 20-1). -/
def blkOf : Nat → Blk
  | 0 => .glb | 1 => .dst | 2 => .core | 3 => .jnc | 4 => .mov | 5 => .hbs | 6 => .hbc | 7 => .nlp
  | 8 => .rng | 9 => .hpb | 10 => .hif | 11 => .mbx | 12 => .mgt | 13 => .rcl | 14 => .itk | _ => .dbg

/-- Instances built (20 Table 20-1). -/
def built : Blk → Nat
  | .glb => 1 | .dst => 4 | .core => 136 | .jnc => 36 | .mov => 8 | .hbs => 6 | .hbc => 384 | .nlp => 6
  | .rng => 3 | .hpb => 33 | .hif => 1 | .mbx => 1 | .mgt => 1 | .rcl => 4 | .itk => 1 | .dbg => 1

/-- `DETAIL` of `BLK_CAP` (20 Table 20-1). -/
def capDetail : Blk → Nat
  | .glb => 256 | .dst => 34 | .core => 512 | .jnc => 256 | .mov => 4096 | .hbs => 64 | .hbc => 1024 | .nlp => 17
  | .rng => 4096 | .hpb => 1024 | .hif => 64 | .mbx => 64 | .mgt => 2048 | .rcl => 4096 | .itk => 16 | .dbg => 0

/-- First MSI-X vector of a type's pages (15 Table 15-6). -/
def vectorBase : Blk → Nat
  | .glb => 256 | .dst => 257 | .core => 261 | .jnc => 397 | .mov => 433 | .hbs => 441 | .hbc => 447 | .nlp => 831
  | .rng => 837 | .hpb => 840 | .hif => 873 | .mbx => 874 | .mgt => 875 | .rcl => 876 | .itk => 880 | .dbg => 881

/-- BAR0 address of a register (20 R425). `NLP_UNDERPASS` appears in both pages of a pair and has its home in the even
one (12 R283). DEDUCED: log entry 13. -/
def reg (t : Blk) (inst off : Nat) : Nat :=
  blkCode t * 0x2000000 +
    (if t = .nlp ∧ off = 0x120 then inst / 2 * 2 else inst) * 0x10000 + off

/-- Type, instance and page offset of a BAR0 address (20 R425). -/
def regType (a : Nat) : Blk := blkOf (a / 0x2000000 % 16)
def regInst (a : Nat) : Nat := a / 0x10000 % 512
def regOff (a : Nat) : Nat := a % 0x10000

/-- Access codes (00 Table 00-3). -/
inductive Acc where
  | ro | rw | w1c | wo | rwo | rc
deriving DecidableEq, Repr

/-- A field: bits [hi:lo], its access code, and for RW the encodings listed, `least` to `most` (00 R6). -/
structure Field where
  acc : Acc
  hi : Nat
  lo : Nat
  least : Nat := 0
  most : Nat := 2 ^ 64
deriving DecidableEq, Repr

def fRw (hi lo : Nat) : Field := { acc := .rw, hi := hi, lo := lo }
def fIn (hi lo a b : Nat) : Field := { acc := .rw, hi := hi, lo := lo, least := a, most := b }
def fW1c (b : Nat) : Field := { acc := .w1c, hi := b, lo := b }
def fWo (b : Nat) : Field := { acc := .wo, hi := b, lo := b }
def fRc (hi lo : Nat) : Field := { acc := .rc, hi := hi, lo := lo }
def fRwo (b : Nat) : Field := { acc := .rwo, hi := b, lo := b }

/-- Defined bits of `BLK_INT_STATUS` above bit 0 (20 R433, Table 20-9). -/
def intBits : Blk → List Nat
  | .glb => [0, 8, 9, 10]
  | .rcl => [0, 8, 9]
  | .mbx => [0, 8, 9]
  | .mgt => [0, 1, 8, 9, 10, 11]
  | .hif => [0, 1, 8, 9, 10]
  | .hbc => [0, 1, 8]
  | .nlp => [0, 1, 8, 9]
  | _ => [0]

/-- `BLK_CTRL` fields by type (20 Tables 20-6, 20-7). -/
def ctrlFields : Blk → List Field
  | .core => [fRw 63 63, fWo 62, fIn 61 60 0 2, fRw 40 40, fIn 39 32 0 127]
  | .jnc => [fRw 63 63, fWo 62, fIn 61 60 0 2, fRw 40 40, fIn 39 32 0 31]
  | .hpb => [fRw 63 63, fWo 62, fRw 40 40, fIn 39 32 0 31]
  | .mov | .hbc | .rng => [fRw 63 63, fWo 62]
  | _ => [fWo 62]

/-- `BLK_LOCK` bits (20 R435). -/
def lockFields : Blk → List Field
  | .glb | .mbx | .dbg => [fRwo 0]
  | _ => []

/-- The list entry of key `k`, or `d`. -/
def lookupD {β : Type} (l : List (Nat × β)) (k : Nat) (d : β) : β :=
  match l.find? (fun p => p.1 == k) with
  | some p => p.2
  | none => d

/-- Fields of the GLB page from 0x200 (Table 20-11). -/
def glbFields (off : Nat) : List Field :=
  if 0x1000 ≤ off ∧ off < 0x2000 then
    (if off / 8 % 2 = 0 then [fRw 63 63, fRw 59 56, fRw 39 20] else [fRw 39 20])
  else if 0x4000 ≤ off ∧ off < 0x8000 then (if off % 0x400 < 0x3C0 then [fRw 63 0] else [])
  else lookupD
    [(0x200, [fRw 47 8]), (0x208, [fRw 63 0]), (0x210, [fWo 63, fWo 62, fRw 31 0]), (0x220, [fRw 47 13]),
     (0x230, [fRw 63 0]), (0x238, [fRw 47 8]), (0x240, [fW1c 63, fRc 31 0]), (0x248, [fW1c 63, fW1c 59, fRc 39 8]),
     (0x250, [fWo 63, fW1c 61, fRw 7 0]), (0x258, [fIn 23 20 0 2, fIn 19 16 0 4]), (0x260, [fRw 47 6, fRw 0 0]),
     (0x268, [fWo 63, fWo 62, fRw 61 61, fRw 31 0]), (0x278, [fRw 63 63, fRw 62 62, fRw 15 8]),
     (0x280, [fRw 63 0]), (0x288, [fRw 63 0]), (0x290, [fRw 63 0]), (0x298, [fRw 63 0]),
     (0x2A8, [fWo 59, fW1c 58, fW1c 57]), (0x2E8, [fW1c 63, fW1c 62, fW1c 61, fRc 47 32, fRc 31 16, fRc 15 0]),
     (0x300, [fRw 47 47, fRw 37 32, fRw 9 9, fRw 8 8, fRw 7 0]), (0x308, [fRw 62 42, fRw 41 21, fRw 20 0]),
     (0x318, [fW1c 63, fW1c 62, fRc 31 16])] off []

/-- Fields of the MGT page from 0x100. -/
def mgtFields (off : Nat) : List Field := lookupD
    [(0x100, [fWo 57, fRc 31 16]), (0x108, [fWo 63, fRw 15 0]), (0x110, [fWo 56]), (0x118, [fW1c 62, fRw 47 40]),
     (0x120, [fWo 63, fW1c 61, fW1c 60, fIn 59 58 0 2, fRw 22 0]), (0x128, [fRw 63 0]),
     (0x130, [fW1c 63, fRw 47 32, fRw 31 0]), (0x138, [fRw 63 0]),
     (0x200, [fWo 63, fRw 33 32, fRw 15 0]), (0x208, [fW1c 56, fW1c 55, fRc 31 16, fRc 15 0]),
     (0x210, [fRw 63 63, fRw 59 48, fRw 43 32, fRw 31 16, fRw 15 0]), (0x218, [fW1c 63, fW1c 62, fW1c 61]),
     (0x220, [fRc 31 16]), (0x228, [fRw 27 16, fRw 11 0]), (0x230, [fRc 47 32, fRc 31 16]),
     (0x300, [fRw 63 0]), (0x308, [fRw 63 48, fRw 47 32, fIn 23 16 1 20, fRw 15 0]), (0x310, [fW1c 63]),
     (0x400, [fWo 63, fWo 62, fRw 27 24, fRw 15 0]), (0x408, [fW1c 63, fW1c 61])] off []

/-- Fields of the HIF page from 0x100. DESIGN CHOICE: log entry 17. -/
def hifFields (off : Nat) : List Field :=
  if 0x1000 ≤ off ∧ off < 0x1400 then
    (if off / 8 % 2 = 0 then [fRw 63 63, fRw 62 62, fRw 61 61, fRw 56 12] else [fRw 39 12])
  else if 0x8000 ≤ off then [fRw 63 0]
  else lookupD
    [(0x100, [fRw 39 30]), (0x108, [fW1c 63, fW1c 62, fRc 31 16, fRc 15 0]),
     (0x120, [fRw 63 63, fW1c 62, fRw 53 48, fIn 47 44 0 12]), (0x128, [fRw 63 32, fRw 31 0]),
     (0x130, [fW1c 63, fRc 47 32])] off []

/-- Fields of a page's own registers (offsets from 0x100). -/
def ownFields (t : Blk) (off : Nat) : List Field :=
  match t with
  | .glb => glbFields off
  | .mgt => mgtFields off
  | .hif => hifFields off
  | .dst => lookupD [(0x108, [fWo 63])] off []
  | .core => lookupD
      [(0x100, [fRw 63 63, fRw 61 56, fRw 55 55, fRw 53 48, fRw 47 47, fRw 45 40, fRw 39 39, fRw 37 32,
                fRw 31 31, fRw 29 24, fRw 23 23, fRw 21 16, fRw 15 15, fRw 13 8, fRw 7 7, fRw 5 0]),
       (0x120, [fW1c 63]), (0x128, [fRw 63 63, fRw 3 0]), (0x130, [fRw 16 16, fRw 15 0]), (0x150, [fW1c 63])] off []
  | .jnc => lookupD [(0x100, [fW1c 63, fW1c 62]), (0x138, [fW1c 63])] off []
  | .mov => lookupD [(0x120, [fW1c 63])] off []
  | .hbs =>
      if 0x100 ≤ off ∧ off < 0x140 then
        [fRw 5 0, fRw 13 8, fRw 21 16, fRw 29 24, fRw 37 32, fRw 45 40, fRw 53 48, fRw 61 56]
      else lookupD [(0x140, [fRw 63 63, fRw 47 32])] off []
  | .hbc => lookupD [(0x100, [fRw 7 0]), (0x128, [fWo 63, fRw 31 0]), (0x130, [fW1c 63])] off []
  | .nlp => lookupD
      [(0x100, [fWo 63, fWo 62, fRw 19 19, fRw 18 18, fRw 15 8, fRw 7 4, fRw 1 0]),
       (0x120, [fWo 63, fWo 62, fW1c 5, fW1c 4]), (0x158, [fW1c 63])] off []
  | .rng => lookupD [(0x100, [fRw 27 16, fRw 11 0]), (0x128, [fW1c 63])] off []
  | .hpb => lookupD [(0x100, [fW1c 63])] off []
  | .mbx =>
      if 0x100 ≤ off ∧ off < 0x300 then [fRw 63 63, fRw 15 8, fRw 7 0]
      else lookupD [(0x300, [fW1c 63, fRc 47 32, fRc 31 16])] off []
  | .rcl => lookupD [(0x100, [fRw 51 32, fRw 15 0]), (0x110, [fRw 11 0]), (0x118, [fW1c 63, fRc 47 32])] off []
  | .itk =>
      if 0x100 ≤ off ∧ off < 0x200 then
        (if off / 8 % 2 = 0 then [fRw 63 63, fW1c 62, fRw 53 48, fIn 47 44 0 12, fRw 43 12] else [fRw 31 0])
      else []
  | .dbg => lookupD
      [(0x100, [fWo 63, fW1c 61, fW1c 60, fRw 59 59]), (0x108, [fRw 47 3]), (0x110, [fRw 63 0]),
       (0x118, [fRw 35 32, fRw 24 16, fRw 8 8, fRw 4 0])] off []

/-- The fields of the register at a page offset; bits outside every field read only or reserved (00 R5, 20 R428). -/
def regFields (t : Blk) (off : Nat) : List Field :=
  if off % 8 ≠ 0 then []
  else if off = 0x010 then ctrlFields t
  else if off = 0x020 then (intBits t).map fW1c
  else if off = 0x028 then (intBits t).map fun b => fRw b b
  else if off = 0x058 then lockFields t
  else if off < 0x100 then []
  else ownFields t off

/-- The reset value of an `HBS_CHMAP` register: entry i holds i, for i below 60 (11 Table 11-8). -/
def chmapReset (i : Nat) : Nat :=
  (List.range 8).foldl (fun acc m => acc + (if 8 * i + m < 60 then (8 * i + m) * 2 ^ (8 * m) else 0)) 0

/-- The reset value of a page's own registers. DEDUCED: log entry 83. -/
def ownReset (t : Blk) (off : Nat) : Nat :=
  match t with
  | .glb => if off = 0x258 then 0x200168 else 0
  | .dst => if off = 0x108 then 0xFFFF * 2 ^ 32 else 0
  | .core => if off = 0x130 then 0x10010 else 0
  | .hbs => if 0x100 ≤ off ∧ off < 0x140 then chmapReset ((off - 0x100) / 8)
            else if off = 0x140 then 2 ^ 63 + 0x18 * 2 ^ 32 else 0
  | .hbc => lookupD [(0x100, 4), (0x128, 0x1000)] off 0
  | .nlp => if off = 0x100 then 0xC4080 else 0
  | .hif => if off = 0x120 then 4 * 2 ^ 44 else 0
  | .mgt => lookupD
      [(0x108, 0x64), (0x118, 0x5A * 2 ^ 40), (0x200, 0xA), (0x208, 2 ^ 60),
       (0x210, 0x4B0 * 2 ^ 48 + 0x352 * 2 ^ 32 + 0x7D0 * 2 ^ 16 + 0x578), (0x218, 0x2EE * 2 ^ 32 + 0x307 * 2 ^ 16),
       (0x228, 0x307 * 2 ^ 16 + 0x2EE), (0x308, 0x100 * 2 ^ 48 + 2 ^ 32 + 0xC * 2 ^ 16 + 0x1C), (0x310, 2 ^ 16)] off 0
  | .rcl => if off = 0x100 then 0xF3E58 * 2 ^ 32 + 0x40 else 0
  | .itk => if 0x100 ≤ off ∧ off < 0x200 ∧ off / 8 % 2 = 0 then 4 * 2 ^ 44 else 0
  | _ => 0

/-- Types whose `ENABLE` always reads 1 (20 Table 20-7). -/
def alwaysEnabled : Blk → Bool
  | .core | .jnc | .hpb | .mov | .hbc | .rng => false
  | _ => true

/-- Reset value of the register at a BAR0 address; BAR2's status registers, kept above BAR0, reset to 0 (16 Table 16-4). DESIGN CHOICE: log entry 6. -/
def regReset (a : Nat) : W64 :=
  let t := regType a
  let off := regOff a
  if 0x20000000 ≤ a then 0
  else if off = 0x010 then (if alwaysEnabled t then BitVec.ofNat 64 (2 ^ 63) else 0)
  else if off = 0x018 then BitVec.ofNat 64 (2 ^ 61)
  else if off < 0x100 then 0
  else BitVec.ofNat 64 (ownReset t off)

/-- Stored value of a register. DEDUCED: log entry 12. -/
def rget (s : State) (a : Nat) : W64 := cellGet regReset s.regs a

/-- Store a register's value. -/
def rset (s : State) (a : Nat) (v : W64) : State := { s with regs := cellSet regReset s.regs a v }

/-- Field [hi:lo] of a stored register. -/
def getF (s : State) (a hi lo : Nat) : Nat := fld (rget s a) hi lo

/-- Set field [hi:lo] of a stored register. -/
def setF (s : State) (a hi lo v : Nat) : State := rset s a (setFld (rget s a) hi lo v)

/-- A one-bit field. -/
def getB (s : State) (a b : Nat) : Bool := getF s a b b == 1

/-- Set a one-bit field. -/
def setB (s : State) (a b : Nat) (v : Bool) : State := setF s a b b (b2n v)

/-- Add to a saturating counter field (RC and status counts). -/
def incSat (s : State) (a hi lo n : Nat) : State := setF s a hi lo (satAdd (hi + 1 - lo) (getF s a hi lo) n)

/-- Add to a counter that counts modulo its width. -/
def incMod (s : State) (a hi lo n : Nat) : State := setF s a hi lo ((getF s a hi lo + n) % 2 ^ (hi + 1 - lo))

/-! ## Register names (BAR0 addresses) -/

namespace Reg
def jobTtBase := reg .glb 0 0x200
def jobSeed := reg .glb 0 0x208
def jobCtrl := reg .glb 0 0x210
def jobStatus := reg .glb 0 0x218
def wsBase := reg .glb 0 0x220
def watchdog := reg .glb 0 0x228
def updateCount := reg .glb 0 0x230
def scaleTable := reg .glb 0 0x238
def answerStatus := reg .glb 0 0x240
def regionStatus := reg .glb 0 0x248
def regionInit := reg .glb 0 0x250
def hbmCfg := reg .glb 0 0x258
def windowTable := reg .glb 0 0x260
def restartCtrl := reg .glb 0 0x268
def restartStatus := reg .glb 0 0x270
def lockerCfg := reg .glb 0 0x278
def secureMap (i : Nat) := reg .glb 0 (0x280 + 8 * i)
def lockerSteps := reg .glb 0 0x2A0
def lockerState := reg .glb 0 0x2A8
def faultRec (i : Nat) := reg .glb 0 (0x2B0 + 8 * i)
def slotVoid := reg .glb 0 0x2D0
def slotMixed := reg .glb 0 0x2D8
def bringup := reg .glb 0 0x2E0
def bar0Status := reg .glb 0 0x2E8
def stashCfg := reg .glb 0 0x300
def stashQuota := reg .glb 0 0x308
def stashUse := reg .glb 0 0x310
def stashStatus := reg .glb 0 0x318
def regionW0 (k : Nat) := reg .glb 0 (0x1000 + 16 * k)
def regionW1 (k : Nat) := reg .glb 0 (0x1008 + 16 * k)
def groupMask (t : Blk) (g w : Nat) := reg .glb 0 (0x4000 + blkCode t * 0x400 + g * 0x40 + 8 * w)
def blkCtrl (t : Blk) (i : Nat) := reg t i 0x010
def blkStatus (t : Blk) (i : Nat) := reg t i 0x018
def intStatus (t : Blk) (i : Nat) := reg t i 0x020
def intEnable (t : Blk) (i : Nat) := reg t i 0x028
def errLog (t : Blk) (i k : Nat) := reg t i (0x030 + 8 * k)
def errCount (t : Blk) (i : Nat) := reg t i 0x050
def lock (t : Blk) (i : Nat) := reg t i 0x058
def paceCount (d : Nat) := reg .dst d 0x100
def paceRate (d : Nat) := reg .dst d 0x108
def arraySub (c : Nat) := reg .core c 0x100
def arrayFed (c : Nat) := reg .core c 0x108
def arraySkipped (c : Nat) := reg .core c 0x110
def arrayStarved (c : Nat) := reg .core c 0x118
def residueLog (c : Nat) := reg .core c 0x120
def spSub (c : Nat) := reg .core c 0x128
def spPower (c : Nat) := reg .core c 0x130
def spFeedConflict (c : Nat) := reg .core c 0x138
def spReadWait (c : Nat) := reg .core c 0x140
def spWriteWait (c : Nat) := reg .core c 0x148
def spEccLog (c : Nat) := reg .core c 0x150
def indexStatus (j : Nat) := reg .jnc j 0x100
def indexAbsent (j : Nat) := reg .jnc j 0x108
def indexOob (j : Nat) := reg .jnc j 0x110
def fetches (j : Nat) := reg .jnc j 0x118
def fetchesMerged (j : Nat) := reg .jnc j 0x120
def mergeWait (j : Nat) := reg .jnc j 0x128
def tiles (j : Nat) := reg .jnc j 0x130
def jncFaultLog (j : Nat) := reg .jnc j 0x138
def routeOverflow (j : Nat) := reg .jnc j 0x140
def dispatchRows (j : Nat) := reg .jnc j 0x148
def dispatchSkipped (j : Nat) := reg .jnc j 0x150
def movRead (m : Nat) := reg .mov m 0x100
def movWritten (m : Nat) := reg .mov m 0x108
def movTiles (m : Nat) := reg .mov m 0x110
def movMembers (m : Nat) := reg .mov m 0x118
def movFaultLog (m : Nat) := reg .mov m 0x120
def chmap (s i : Nat) := reg .hbs s (0x100 + 8 * i)
def scrub (s : Nat) := reg .hbs s 0x140
def hbsTemp (s : Nat) := reg .hbs s 0x148
def hbcState (i : Nat) := reg .hbc i 0x100
def hbcCe (i : Nat) := reg .hbc i 0x108
def hbcOde (i : Nat) := reg .hbc i 0x110
def hbcUe (i : Nat) := reg .hbc i 0x118
def hbcAct (i : Nat) := reg .hbc i 0x120
def hbcCeLimit (i : Nat) := reg .hbc i 0x128
def hbcLog0 (i : Nat) := reg .hbc i 0x130
def hbcLog1 (i : Nat) := reg .hbc i 0x138
def linkCtrl (p : Nat) := reg .nlp p 0x100
def linkStatus (p : Nat) := reg .nlp p 0x108
def peerId (p : Nat) := reg .nlp p 0x110
def lane (p : Nat) := reg .nlp p 0x118
def underpass (p : Nat) := reg .nlp p 0x120
def flitsTx (p : Nat) := reg .nlp p 0x128
def flitsRx (p : Nat) := reg .nlp p 0x130
def fecCorrected (p : Nat) := reg .nlp p 0x138
def crcFail (p : Nat) := reg .nlp p 0x140
def replays (p : Nat) := reg .nlp p 0x148
def lostCount (p : Nat) := reg .nlp p 0x150
def nlpFaultLog (p : Nat) := reg .nlp p 0x158
def rngPos (r : Nat) := reg .rng r 0x100
def rngStatus (r : Nat) := reg .rng r 0x108
def rngRefused (r : Nat) := reg .rng r 0x110
def rngForwarded (r : Nat) := reg .rng r 0x118
def rngUnmatched (r : Nat) := reg .rng r 0x120
def rngFaultLog (r : Nat) := reg .rng r 0x128
def hpbFaultLog (i : Nat) := reg .hpb i 0x100
def aperture := reg .hif 0 0x100
def hifStatus := reg .hif 0 0x108
def cardCfg := reg .hif 0 0x120
def cardBase := reg .hif 0 0x128
def cardSeq := reg .hif 0 0x130
def hwtW0 (k : Nat) := reg .hif 0 (0x1000 + 16 * k)
def hwtW1 (k : Nat) := reg .hif 0 (0x1008 + 16 * k)
def bind (c : Nat) := reg .mbx 0 (0x100 + 8 * c)
def mbxStatus := reg .mbx 0 0x300
def coreStatus := reg .mgt 0 0x100
def wdt := reg .mgt 0 0x108
def bootStatus := reg .mgt 0 0x110
def thermal := reg .mgt 0 0x118
def flashCtrl := reg .mgt 0 0x120
def flashData := reg .mgt 0 0x128
def bmcReq := reg .mgt 0 0x130
def bmcReply := reg .mgt 0 0x138
def dieTemp (i : Nat) := reg .mgt 0 (0x140 + 8 * i)
def pwrCtrl := reg .mgt 0 0x200
def pwrStatus := reg .mgt 0 0x208
def voltPolicy := reg .mgt 0 0x210
def voltStatus := reg .mgt 0 0x218
def power := reg .mgt 0 0x220
def vset := reg .mgt 0 0x228
def avsStatus := reg .mgt 0 0x230
def frate := reg .mgt 0 0x300
def securePolicy := reg .mgt 0 0x308
def secureStatus := reg .mgt 0 0x310
def resetCtrl := reg .mgt 0 0x400
def resetStatus := reg .mgt 0 0x408
def rclCfg (d : Nat) := reg .rcl d 0x100
def rclGate (d : Nat) := reg .rcl d 0x108
def rclSel (d : Nat) := reg .rcl d 0x110
def rclSilent (d : Nat) := reg .rcl d 0x118
def ringCfg (r : Nat) := reg .itk 0 (0x100 + 16 * r)
def ringIdx (r : Nat) := reg .itk 0 (0x108 + 16 * r)
def itkTotal := reg .itk 0 0x200
def dbgCtrl := reg .dbg 0 0x100
def dbgAddr := reg .dbg 0 0x108
def dbgData := reg .dbg 0 0x110
def dbgSel := reg .dbg 0 0x118
/-- Mailbox windows and the doorbell page of BAR2, kept above BAR0's 512 MiB (16 Table 16-1). -/
def bar2 (off : Nat) := 0x20000000 + off
def mbStatus (c : Nat) := bar2 (0x10000 + 0x1000 * c + 0x10)
def mbRejLog (c : Nat) := bar2 (0x10000 + 0x1000 * c + 0x18)
def dbStatus := bar2 8
end Reg

end Sys2Proof.Machine
end

