-- ==== Sys2Proof/Machine/Flags.lean ====
section
/-! DEFINITION. Sticky status and interrupt flags: the edge rule of the vectors (15 R356), the flag and count of an
event, and the job, phase and power states as read by every rule. -/

namespace Sys2Proof.Machine

/-- `STATE` of `GLB_JOB_STATUS`: 0 IDLE, 1 VALIDATING, 2 READY, 3 RUNNING, 4 HALTED, 5 REJECTED (03 Table 03-5). -/
def jobState (s : State) : Nat := getF s Reg.jobStatus 63 60

/-- A job is active (03 R463). -/
def jobActive (s : State) : Bool := jobState s == 1 || jobState s == 2 || jobState s == 3

/-- `PHASE` of `GLB_RESTART_STATUS` (14 Table 14-9). -/
def phase (s : State) : Nat := getF s Reg.restartStatus 63 60

/-- `STATE` of `MGT_PWR_STATUS`: 0 RUN, 1 IDLE, 2 SLEEP, 3 STANDBY (18 Table 18-8). -/
def pwrState (s : State) : Nat := getF s Reg.pwrStatus 63 60

/-- Put an output. DESIGN CHOICE: log entry 99. -/
def emit (o : Out) (s : State) : State := { s with out := s.out ++ [o] }

/-- An alert or counted event by code. -/
def alert (code : Nat) (s : State) : State := emit (.alert code) s

/-- Whether a page's enabled interrupt status is nonzero (15 R356). DEDUCED: log entry 16. -/
def irqOn (s : State) (t : Blk) (i : Nat) : Bool :=
  decide (rget s (Reg.intStatus t i) &&& rget s (Reg.intEnable t i) ≠ 0)

/-- Raise the page's vector and its management line if `s'` is the first state in which the enabled status is nonzero
(15 R356, 17 R388). -/
def irqEdge (s s' : State) (t : Blk) (i : Nat) : State :=
  if irqOn s' t i && !irqOn s t i then
    emit (.mgtLine (vectorBase t + i)) (emit (.msix (vectorBase t + i)) s')
  else s'

/-- Set bit `b` of a page's `BLK_INT_STATUS` (20 R433). -/
def setInt (t : Blk) (i b : Nat) (s : State) : State := irqEdge s (setB s (Reg.intStatus t i) b true) t i

/-- Add `n` to a page's `BLK_ERR_COUNT`, saturating (20 R434). -/
def errCount (t : Blk) (i n : Nat) (s : State) : State := incSat s (Reg.errCount t i) 31 0 n

/-- Count class 1 events of the step (15 Table 15-4 `CORRECTED`). -/
def countCorrected (n : Nat) (s : State) : State :=
  if s.step.active ∧ n ≠ 0 then { s with step := { s.step with corrected := satAdd 32 s.step.corrected n } } else s

/-- A corrected word of the management SRAM: `SRAM_CE` (17 Table 17-5). -/
def sramFixed (s : State) : State := incSat s Reg.coreStatus 31 16 1

/-- Set `PHASE`; a change sets `RESTART` in the GLB page (20 Table 20-9). -/
def setPhase (p : Nat) (s : State) : State :=
  if phase s = p then s else setInt .glb 0 9 (setF s Reg.restartStatus 63 60 p)

/-- Fail a restart with a code (14 R330). -/
def failRestart (code : Nat) (s : State) : State := setPhase 8 (setF s Reg.restartStatus 47 32 code)

/-- Take a fresh free value. -/
def takeFree (s : State) : W64 × State := (Config.freeWord s.free, { s with free := s.free + 1 })

/-- `n` bytes that no rule gives. -/
def freeBytes : Nat → State → List Byte × State
  | 0, s => ([], s)
  | n + 1, s =>
    let x := takeFree s
    let y := freeBytes n x.2
    (leBytes 1 x.1.toNat ++ y.1, y.2)

/-- The wave-rate floor in force (18 R407). -/
def policyFloor (s : State) : Nat := getF s Reg.voltPolicy 15 0

/-- Whether a master is a management core held in reset after its fault: its accesses are refused (17 R376). -/
def refusedMaster (s : State) : Master → Bool
  | .mgt0 => getB s Reg.coreStatus 62
  | .mgt1 => getB s Reg.coreStatus 61
  | _ => false

/-- The master identity value (16 Table 16-2). -/
def masterId : Master → Nat
  | .host => 0x01 | .mgt0 => 0x10 | .mgt1 => 0x11 | .sec => 0x20 | .dbg => 0x7F
  | .other i => i.toNat

/-- Whether a master is a management core. -/
def isMgt : Master → Bool
  | .mgt0 | .mgt1 => true
  | _ => false

/-- Whether a master is the active management core (17 R375). -/
def isActiveMgt (s : State) : Master → Bool
  | .mgt0 => !getB s Reg.coreStatus 63
  | .mgt1 => getB s Reg.coreStatus 63
  | _ => false

/-! ## Crossing clocks (02 R40) -/

/-- What an unlisted crossing is: its clock runs. -/
def runningCrossing : Nat → Crossing := fun _ => {}

/-- The key of page (`ty`, `inst`)'s crossing, and what it is. -/
def crossingKey (ty : Blk) (inst : Nat) : Nat := blkCode ty * 512 + inst
def crossingAt (s : State) (ty : Blk) (inst : Nat) : Crossing := cellGet runningCrossing s.crossings (crossingKey ty inst)

/-- A core unit writes to a crossing: if its clock is stopped, the wake request rises and is held. -/
def touchCrossing (ty : Blk) (inst : Nat) (s : State) : State :=
  if (crossingAt s ty inst).clockOn then s
  else { s with crossings := cellSet runningCrossing s.crossings (crossingKey ty inst) { clockOn := false, wake := true } }

end Sys2Proof.Machine
end

