-- ==== Sys2Proof/Machine/Hbm.lean ====
section
/-! DEFINITION. HBM: placement (11 R232), the region table (R237), the check codes of a line (R239 to R248), reads with
the outcomes of Table 11-5 and writes (R236). -/

namespace Sys2Proof.Machine

/-- An event that an access raises: its code and the raising unit (14 R322), its detail (for `LOCKER_DAMAGED` the line's
address), and the group it names, if one. -/
structure Evt where
  code : Nat
  ty : Blk
  inst : Nat
  detail : Nat := 0
  group : Option Nat := none
deriving DecidableEq, Repr

/-- Who reads: `STREAM` and `ENTRY` of `HBC_ERR_LOG1` (11 Table 11-9). -/
structure Reader where
  stream : Nat
  entry : Nat
deriving DecidableEq, Repr

/-- Scrub, aperture, securing and refill traffic. -/
def Reader.traffic : Reader := ⟨0xFFFF, 0⟩
/-- A validation read (11 R465). -/
def Reader.validation : Reader := ⟨0xFFFE, 0⟩

/-- N, the mapped pseudo-channels (11 R231, Table 11-10 `COUNT`). -/
def hbmN (s : State) : Nat := getF s Reg.hbmCfg 15 0

/-- Mapped pseudo-channels of a channel profile (01 Table 01-7). -/
def profileN (p : Nat) : Nat := 360 - 6 * p

/-- `CHMAP[st][i]` (11 R233, R255). -/
def chmapEntry (s : State) (st i : Nat) : Nat := getF s (Reg.chmap st (i / 8)) (8 * (i % 8) + 5) (8 * (i % 8))

/-- Where a device address lies: HBC instance, row group, line within it (11 R232). -/
structure Place where
  inst : Nat
  group : Nat
  line : Nat
deriving DecidableEq, Repr

/-- The rotation h × N >> 32 of R232. -/
def rotation (n l : Nat) : Nat :=
  let p := l * 0x9E3779B97F4A7C15 % 2 ^ 64
  Nat.xor (p / 2 ^ 32) (p % 2 ^ 32) * n / 2 ^ 32

/-- The logical channel of a device address (11 R232). -/
def logicalChannel (n a : Nat) : Nat := (a / 256 % n + rotation n (a / 256 / n)) % n

/-- `locate` of R232. -/
def locate (s : State) (a : Nat) : Place :=
  let n := hbmN s
  let l := a / 256 / n
  let c := logicalChannel n a
  { inst := c % 6 * 64 + chmapEntry s (c % 6) (c / 6), group := l / 2, line := 4 * (l % 2) + a / 64 % 4 }

/-! ## Region table -/

/-- A valid entry of the region table. -/
structure Region where
  idx : Nat
  cls : Nat
  base : Nat
  size : Nat
deriving DecidableEq, Repr

/-- Entry k, valid or not, as its registers stand (11 Table 11-10). -/
def regionRaw (s : State) (k : Nat) : Region :=
  { idx := k, cls := getF s (Reg.regionW0 k) 59 56, base := getF s (Reg.regionW0 k) 39 20 * 2 ^ 20,
    size := getF s (Reg.regionW1 k) 39 20 * 2 ^ 20 }

/-- Entry k when it is valid. -/
def region? (s : State) (k : Nat) : Option Region :=
  if k < 256 ∧ getB s (Reg.regionW0 k) 63 then some (regionRaw s k) else none

/-- The valid entries in increasing order. -/
def regions (s : State) : List Region := (List.range 256).filterMap (region? s)

/-- The valid region that holds a device address; regions do not overlap (11 R237). -/
def regionOf (s : State) (a : Nat) : Option Region :=
  (regions s).find? fun r => decide (r.base ≤ a ∧ a < r.base + r.size)

/-- A range lies wholly in one valid region of a class that `ok` admits. -/
def inRegion (s : State) (a n : Nat) (ok : Nat → Bool) : Bool :=
  match regionOf s a with
  | some r => decide (a + n ≤ r.base + r.size) && ok r.cls
  | none => false

/-! ## Raw lines -/

/-- The physical flips of a line's raw bytes in this command. -/
def flipsAt (ph : List Phys) (line : Nat) : List (Nat × Byte) :=
  ph.foldl (fun acc p => match p with
    | .hbmFlip a fs => if a / 64 = line / 64 then acc ++ fs else acc
    | _ => acc) []

/-- The die reports an uncorrectable error with the read of this line. -/
def dieBad (ph : List Phys) (line : Nat) : Bool :=
  ph.any fun p => match p with
    | .dieUncorrectable a => a / 64 == line / 64
    | _ => false

/-- The die reports a corrected error with the read of this line. -/
def dieFixed (ph : List Phys) (line : Nat) : Bool :=
  ph.any fun p => match p with
    | .dieCorrected a => a / 64 == line / 64
    | _ => false

/-- The 72 raw bytes of the line at a 64-byte aligned address: data, then check bytes (11 R235). -/
def lineRaw (s : State) (ph : List Phys) (line : Nat) : List Byte :=
  let raw := memRead s.hbm line 64 ++ memRead s.chk (line / 8) 8
  (flipsAt ph line).foldl (fun bs f => bs.modify f.1 (· ^^^ f.2)) raw

/-- RS(72,64) check bytes of a line (11 R242). -/
def rsLineCheck (data : List Byte) : List Byte :=
  if data.all (· == 0) then List.replicate 8 0 else ofNats (rsCheck 8 (toNats data))

/-- ACT check bytes (11 R245). -/
def actCheck (data : List Byte) (stepTag slotTag idx : Nat) : List Byte :=
  leBytes 4 (crc32 (data ++ leBytes 2 stepTag ++ leBytes 2 slotTag ++ leBytes 4 idx)) ++ leBytes 2 stepTag ++
    leBytes 2 slotTag

/-- Check bytes that a write of a whole line stores, by class (11 Table 11-4); `tags` for ACT (R240, R245). -/
def lineCheck (cls : Nat) (data : List Byte) (tags : Nat × Nat × Nat) : List Byte :=
  if cls = 0 ∨ cls = 1 ∨ cls = 6 then rsLineCheck data
  else if cls = 2 then actCheck data tags.1 tags.2.1 tags.2.2
  else List.replicate 8 0

/-- A line of an LCK region that a substituted pseudo-channel holds and that has not been rebuilt: it cannot be read
(11 R248, R252). -/
def isUnbuilt (s : State) (line : Nat) : Bool :=
  s.unbuilt.contains (locate s line).inst && !s.mended.contains line && ((regionOf s line).any fun r => r.cls == 6)

/-- An access to a line passes its pseudo-channel's crossing: one whose clock is stopped raises its wake request (02 R40).
DEDUCED: log entry 164. -/
def touchLine (line : Nat) (s : State) : State :=
  if s.crossings.isEmpty then s else touchCrossing .hbc (locate s line).inst s

/-- Lines that a byte range touches. -/
def lineCount (a n : Nat) : Nat := if n = 0 then 0 else (a + n - 1) / 64 + 1 - a / 64

/-- Lines that a run of bytes touches. -/
def linesOf (off n : Nat) : List Nat := (List.range (lineCount off n)).map (off / 64 + ·)

/-- Wake the crossings that a range's lines pass (02 R40). -/
def wakeLines (a n : Nat) (s : State) : State :=
  if s.crossings.isEmpty then s
  else (linesOf a n).foldl (fun s l => touchCrossing .hbc (locate s (l * 64)).inst s) s

/-- A range's lines pass a crossing whose clock is stopped (02 R40). -/
def linesStopped (a n : Nat) (s : State) : Bool :=
  !s.crossings.isEmpty && (linesOf a n).any fun l => !(crossingAt s .hbc (locate s (l * 64)).inst).clockOn

/-- An access of its own to ranges of lines: while the clock of a crossing that it passes is stopped it raises the wake request
and waits, and what makes it comes again once the clock runs (02 R40). DEDUCED: log entry 164. -/
def awaitClock (rs : List (Nat × Nat)) (s go : State) : State :=
  if rs.any fun r => linesStopped r.1 r.2 s then rs.foldl (fun s r => wakeLines r.1 r.2 s) s else go

/-- Store a whole line and its check bytes. -/
def putLine (s : State) (line : Nat) (data chk : List Byte) : State :=
  { touchLine line s with
    hbm := memWrite s.hbm line data, chk := memWrite s.chk (line / 8) chk
    mended := if isUnbuilt s line then line :: s.mended else s.mended }

/-- Decode a line of a correcting class: data and corrected bytes, or `none` beyond correction (11 R242) or not yet rebuilt. -/
def rsLine (s : State) (ph : List Phys) (line : Nat) : Option (List Byte × Nat) :=
  if isUnbuilt s line then none
  else
    let raw := lineRaw s ph line
    if raw.all (· == 0) then some (raw.take 64, 0)
    else match rsDecode 8 3 (toNats raw) with
      | .clean => some (raw.take 64, 0)
      | .corrected cw n => some (ofNats (cw.take 64), n)
      | .failed => none

/-! ## Counting and logging -/

/-- A correction: `HBC_CE`, `SINCE` and the alert `CHANNEL_DEGRADING` (11 R243, R256), and class 1 of the step. -/
def hbcCorrection (inst : Nat) (s : State) : State :=
  let since := getF s (Reg.hbcCeLimit inst) 62 32
  let limit := getF s (Reg.hbcCeLimit inst) 31 0
  let s := countCorrected 1 (incSat (incMod s (Reg.hbcCe inst) 47 0 1) (Reg.hbcCeLimit inst) 62 32 1)
  if since < limit ∧ limit ≤ since + 1 then alert 0x0B07 (setInt .hbc inst 8 s) else s

/-- Fill `HBC_ERR_LOG0`, `1` if clear (11 Table 11-9). -/
def hbcLog (p : Place) (kind cls rgn : Nat) (who : Reader) (s : State) : State :=
  if getB s (Reg.hbcLog0 p.inst) 63 then s
  else
    rset (rset s (Reg.hbcLog0 p.inst)
        (BitVec.ofNat 64 (2 ^ 63 + kind * 2 ^ 60 + cls * 2 ^ 56 + rgn * 2 ^ 48 + p.group * 2 ^ 24 + p.line * 2 ^ 21)))
      (Reg.hbcLog1 p.inst) (BitVec.ofNat 64 (who.entry % 2 ^ 28 * 2 ^ 16 + who.stream % 2 ^ 16))

/-- A pseudo-channel is lost (11 R251): marks it; a mapped one raises `CHANNEL_LOST`. -/
def loseChannel (inst : Nat) (s : State) : State × List Evt :=
  if getB s (Reg.hbcState inst) 62 then (s, [])
  else
    let s' := setB (setB s (Reg.hbcState inst) 62 true) (Reg.blkStatus .hbc inst) 63 true
    (s', if getB s (Reg.hbcState inst) 63 then [{ code := 0x0B05, ty := .hbc, inst := inst }] else [])

/-- An uncorrectable event: counted and logged; within a job its row group counts toward `UE_LIMIT` (11 R251, R256).
DEDUCED: log entry 22. -/
def hbcUncorrectable (p : Place) (kind cls rgn : Nat) (who : Reader) (s : State) : State × List Evt :=
  let s := hbcLog p kind cls rgn who (errCount .hbc p.inst 1 (incMod s (Reg.hbcUe p.inst) 47 0 1))
  if jobActive s && kind ≤ 1 then
    let s := if s.ueGroups.contains (p.inst, p.group) then s else { s with ueGroups := (p.inst, p.group) :: s.ueGroups }
    if getF s (Reg.hbcState p.inst) 7 0 ≤ (s.ueGroups.filter fun g => g.1 == p.inst).length then loseChannel p.inst s
    else (s, [])
  else (s, [])

/-- What a read of one line gives. `bad`: beyond correction, or reported uncorrectable where only the die detects. -/
structure LineOut where
  s : State
  data : List Byte
  evs : List Evt
  bad : Bool

/-- The other five units of the stripe that holds a line of an LCK region: their lines' addresses (11 R247). -/
def stripePeers (r : Region) (line : Nat) : List Nat :=
  let o := line - r.base
  ((List.range 6).filter (· != o % 1536 / 256)).map fun u => r.base + o / 1536 * 1536 + u * 256 + o % 256

/-- What the die reports with the read of a line is counted: a corrected error in `HBC_ODE`, an uncorrectable one in `HBC_UE` (11
R250). -/
def dieReports (ph : List Phys) (line : Nat) (s : State) : State :=
  let i := (locate s line).inst
  let s := if dieFixed ph line then incMod s (Reg.hbcOde i) 47 0 1 else s
  if dieBad ph line then errCount .hbc i 1 (incMod s (Reg.hbcUe i) 47 0 1) else s

/-- A line that a repair of its stripe has read: what R242 corrected in it is counted and written back (11 R243), and the die's
reports with it are counted (R250). -/
def keepPeer (ph : List Phys) (s : State) (x : Nat × Option (List Byte × Nat)) : State :=
  let s := touchLine x.1 (dieReports ph x.1 s)
  match x.2 with
  | some (d, n) => if n = 0 then s else hbcCorrection (locate s x.1).inst (putLine s x.1 d (rsLineCheck d))
  | none => s

/-- Byte-wise exclusive or of lines. -/
def xorLines (ls : List (List Byte)) : List Byte := ls.foldl xorBytes (List.replicate 64 0)

/-- Read one line under the rules of its class (11 Table 11-5). `act`: the tags and line index that a stash read checks
(R246); other reads of ACT check nothing (R240). DEDUCED: log entry 73. -/
def readLine (s : State) (ph : List Phys) (who : Reader) (act : Option (Nat × Nat × Nat)) (line : Nat) : LineOut :=
  match regionOf s line with
  | none => { s := s, data := List.replicate 64 0, evs := [], bad := false }
  | some r =>
    let p := locate s line
    let s := touchLine line (if dieFixed ph line then incMod s (Reg.hbcOde p.inst) 47 0 1 else s)
    let die := dieBad ph line
    -- a die report beside the Krada's own code is counted only (R250)
    let counted := fun (s : State) => if die then errCount .hbc p.inst 1 (incMod s (Reg.hbcUe p.inst) 47 0 1) else s
    let raw := lineRaw s ph line
    if r.cls = 0 ∨ r.cls = 1 ∨ r.cls = 6 then
      match rsLine s ph line with
      | some (d, 0) => { s := counted s, data := d, evs := [], bad := false }
      | some (d, _) =>
        { s := counted (hbcCorrection p.inst (putLine s line d (rsLineCheck d))), data := d, evs := [], bad := false }
      | none =>
        if r.cls = 6 then
          let ls := stripePeers r line
          let peers := ls.map (rsLine s ph)
          let s := (ls.zip peers).foldl (keepPeer ph) s
          if peers.all (·.isSome) then
            let d := xorLines (peers.filterMap (·.map (·.1)))
            { s := counted (hbcCorrection p.inst (putLine s line d (rsLineCheck d))), data := d, evs := [], bad := false }
          else
            let x := hbcUncorrectable p 4 r.cls r.idx who s
            { s := x.1, data := List.replicate 64 0, evs := { code := 0x0B06, ty := .hbc, inst := p.inst, detail := line } :: x.2,
              bad := true }
        else
          let x := hbcUncorrectable p 0 r.cls r.idx who s
          { s := x.1, data := List.replicate 64 0, evs := { code := 0x0B03, ty := .hbc, inst := p.inst } :: x.2,
            bad := true }
    else if r.cls = 2 then
      match act with
      | none => { s := counted s, data := raw.take 64, evs := [], bad := false }
      | some (st, sl, ix) =>
        let chk := raw.drop 64
        let fail := fun (kind code : Nat) =>
          let s := hbcLog p kind r.cls r.idx who
            (errCount .hbc p.inst 1 (incMod s (Reg.hbcAct p.inst) 47 0 1))
          ({ s := s, data := List.replicate 64 0, evs := [{ code := code, ty := .hbc, inst := p.inst }],
             bad := true } : LineOut)
        if leNat ((chk.drop 4).take 2) ≠ st % 2 ^ 16 ∨ leNat ((chk.drop 6).take 2) ≠ sl % 2 ^ 16 then fail 3 0x0B01
        else if chk ≠ actCheck (raw.take 64) (st % 2 ^ 16) (sl % 2 ^ 16) ix then fail 2 0x0B02
        else { s := counted s, data := raw.take 64, evs := [], bad := false }
    else if die then
      let x := hbcUncorrectable p 1 r.cls r.idx who s
      { s := x.1, data := List.replicate 64 0, evs := { code := 0x0B04, ty := .hbc, inst := p.inst } :: x.2, bad := true }
    else { s := s, data := raw.take 64, evs := [], bad := false }

/-- The line passes a crossing whose lane fails in this command, in the given direction (02 R36). -/
def lanePoison (ph : List Phys) (s : State) (line : Nat) (toDomain : Bool) : Bool :=
  ph.any fun p => match p with
    | .crossingUncorrectable ty i d => ty == .hbc && d == toDomain && i == (locate s line).inst
    | _ => false

/-- Read a line through its crossing: a poisoned request does not reach the controller, which then does nothing, a poisoned
answer is not delivered, and what the reader sees instead is free (02 R36). DESIGN CHOICE: log entry 49. -/
def fetchLine (s : State) (ph : List Phys) (who : Reader) (act : Option (Nat × Nat × Nat)) (line : Nat) : LineOut :=
  if lanePoison ph s line true then
    let f := freeBytes 64 s
    { s := f.2, data := f.1, evs := [], bad := false }
  else
    let x := readLine s ph who act line
    if lanePoison ph s line false then
      let f := freeBytes 64 x.s
      { x with s := f.2, data := f.1 }
    else x

/-- What a read or write of a byte range gives. -/
structure Span where
  s : State
  data : List Byte
  evs : List Evt
  bad : Bool

/-- Read a range line by line: `n` lines from `line` (11 R235). -/
def readLines (ph : List Phys) (who : Reader) (act : Nat → Option (Nat × Nat × Nat)) :
    Nat → Nat → State → Span
  | 0, _, s => { s := s, data := [], evs := [], bad := false }
  | n + 1, line, s =>
    let x := fetchLine s ph who (act line) line
    let y := readLines ph who act n (line + 64) x.s
    { s := y.s, data := x.data ++ y.data, evs := x.evs ++ y.evs, bad := x.bad || y.bad }

/-- Read `n` lines from `line` in turn, up to the first one that is bad: no line behind it is read (11 R465). -/
def readUntilBad (ph : List Phys) (who : Reader) : Nat → Nat → State → Span
  | 0, _, s => { s := s, data := [], evs := [], bad := false }
  | n + 1, line, s =>
    let x := fetchLine s ph who none line
    if x.bad then { s := x.s, data := x.data, evs := x.evs, bad := true }
    else
      let y := readUntilBad ph who n (line + 64) x.s
      { s := y.s, data := x.data ++ y.data, evs := x.evs ++ y.evs, bad := y.bad }

/-- Read `n` bytes at device address `a`. -/
def hbmRead (s : State) (ph : List Phys) (who : Reader) (a n : Nat) : Span :=
  let x := readLines ph who (fun _ => none) (lineCount a n) (a / 64 * 64) s
  { x with data := (x.data.drop (a % 64)).take n }

/-- Read `n` bytes at device address `a`, up to the first bad line (11 R465). -/
def hbmReadUntilBad (s : State) (ph : List Phys) (who : Reader) (a n : Nat) : Span :=
  let x := readUntilBad ph who (lineCount a n) (a / 64 * 64) s
  { x with data := (x.data.drop (a % 64)).take n }

/-- One line with its stored check bytes, as an `ACT_LINES` read takes it: nothing is checked (11 R240), and what the die reports
with it is counted (R250). A packet poisoned in the crossing is not delivered, and what its reader sees is free (02 R36). -/
def actLine (ph : List Phys) (line : Nat) (s : State) : List Byte × State :=
  let lost := lanePoison ph s line true
  let t := if lost then s else touchLine line (dieReports ph line s)
  if lost || lanePoison ph s line false then freeBytes 72 t else (lineRaw s ph line, t)

/-- `n` lines from device address `a` with their stored check bytes. -/
def getActLines (ph : List Phys) (a n : Nat) (s : State) : List Byte × State :=
  (List.range n).foldl (fun x i =>
    let y := actLine ph (a + 64 * i) x.2
    (x.1 ++ y.1, y.2)) ([], s)

/-- Write lines with their check bytes as they arrive (13 R295, `ACT_LINES`); a packet poisoned in the crossing is not
delivered (02 R36). -/
def putActLines (ph : List Phys) (a : Nat) (bs : List Byte) (s : State) : State :=
  (List.range (bs.length / 72)).foldl (fun s i =>
    let l := (bs.drop (72 * i)).take 72
    if lanePoison ph s (a + 64 * i) true then s else putLine s (a + 64 * i) (l.take 64) (l.drop 64)) s

/-- Overlay `bs` at offset `o` of `old`. -/
def overlay (old : List Byte) (o : Nat) (bs : List Byte) : List Byte :=
  old.take o ++ bs ++ old.drop (o + bs.length)

/-- Write part or the whole of one line (11 R236). `o` is the offset in the line. A packet poisoned in the crossing is not
delivered (02 R36). -/
def writeLine (s : State) (ph : List Phys) (who : Reader) (tags : Nat × Nat × Nat) (line o : Nat) (bs : List Byte) :
    Span :=
  match regionOf s line with
  | none => { s := s, data := [], evs := [], bad := false }
  | some r =>
    if lanePoison ph s line true then { s := s, data := [], evs := [], bad := false }
    else if bs.length = 64 then
      { s := putLine s line bs (lineCheck r.cls bs tags), data := [], evs := [], bad := false }
    else
      let x := readLine s ph who none line
      let d := overlay x.data o bs
      { s := putLine x.s line d (lineCheck r.cls d tags), data := [], evs := x.evs, bad := x.bad }

/-- Write a byte run: `n` lines, the first at `line` from offset `o`. -/
def writeLines (ph : List Phys) (who : Reader) (tags : Nat → Nat × Nat × Nat) :
    Nat → Nat → Nat → List Byte → State → Span
  | 0, _, _, _, s => { s := s, data := [], evs := [], bad := false }
  | n + 1, line, o, bs, s =>
    let x := writeLine s ph who (tags line) line o (bs.take (64 - o))
    let y := writeLines ph who tags n (line + 64) 0 (bs.drop (64 - o)) x.s
    { s := y.s, data := [], evs := x.evs ++ y.evs, bad := x.bad || y.bad }

/-- Write `bs` at device address `a`. -/
def hbmWrite (s : State) (ph : List Phys) (who : Reader) (a : Nat) (bs : List Byte) : Span :=
  writeLines ph who (fun _ => (0, 0, 0)) (lineCount a bs.length) (a / 64 * 64) (a % 64) bs s

/-! ## LCK stripes -/

/-- Device address of Locker byte `o` in a region (11 R247). -/
def lckAddr (base o : Nat) : Nat := base + o / 1280 * 1536 + o % 1280 / 256 * 256 + o % 256

/-- Recompute the parity unit of the stripe that starts at `a` and all check bytes of the stripe (11 R247). -/
def lckSeal (s : State) (a : Nat) : State :=
  let unit := fun (u l : Nat) => memRead s.hbm (a + u * 256 + l * 64) 64
  let s1 := (List.range 5).foldl (fun s u => (List.range 4).foldl (fun s l =>
    putLine s (a + u * 256 + l * 64) (unit u l) (rsLineCheck (unit u l))) s) s
  (List.range 4).foldl (fun s l =>
    let p := xorLines ((List.range 5).map fun u => unit u l)
    putLine s (a + 5 * 256 + l * 64) p (rsLineCheck p)) s1

/-- Write Locker bytes at Locker offset `o` of the region at `base`: always in whole stripes (11 R247). -/
def lckWrite (s : State) (base o : Nat) (bs : List Byte) : State :=
  let w := (List.range bs.length).foldl (fun m i => memSet m (lckAddr base (o + i)) (bs.getD i 0)) s.hbm
  let s1 := { s with hbm := w }
  if bs.length = 0 then s1
  else (List.range ((o + bs.length - 1) / 1280 + 1 - o / 1280)).foldl
    (fun s i => lckSeal s (base + (o / 1280 + i) * 1536)) s1

/-- Read Locker bytes: each line that holds one of them is read under the LCK rules (11 R248). -/
def lckRead (s : State) (ph : List Phys) (base o n : Nat) : Span :=
  (List.range n).foldl (fun x i =>
    let a := lckAddr base (o + i)
    if i = 0 ∨ a % 64 = 0 then
      let r := fetchLine x.s ph Reader.traffic none (a / 64 * 64)
      { s := r.s, data := x.data ++ (r.data.drop (a % 64)).take (min (64 - a % 64) (n - i)), evs := x.evs ++ r.evs,
        bad := x.bad || r.bad }
    else x) { s := s, data := [], evs := [], bad := false }

/-- Data capacity of an LCK region: 5/6 of its size (11 R247). -/
def lckCapacity (r : Region) : Nat := r.size / 6 * 5

/-- The LCK region and the Locker generation in it that hold a line. -/
def lockerGen (s : State) (a : Nat) : Option (Nat × Nat) :=
  (regionOf s a).map fun r => (r.idx, if lckCapacity r / 2 ≤ (a - r.base) / 1536 * 1280 then 1 else 0)

/-- Read the data lines of the stripe that holds Locker byte `o`, as a write of a part of it does (11 R236, R247). -/
def lckFetch (s : State) (base o : Nat) : State :=
  (List.range 20).foldl (fun s k => (readLine s [] Reader.traffic none (base + o / 1280 * 1536 + 64 * k)).s) s

/-- `LOCKER_DAMAGED` at a line of an LCK region: the holder marks the generation incomplete, by the `STATE` byte of its
header, and reports to the owner (11 R248, 14 Table 14-3). -/
def damageLocker (a : Nat) (s : State) : State :=
  match regionOf s a, lockerGen s a with
  | some r, some g =>
    let o := g.2 * (lckCapacity r / 2) + 6
    emit (.damaged g.2) (alert 0x0B06 (lckWrite (lckFetch s r.base o) r.base o [0]))
  | _, _ => s

end Sys2Proof.Machine
end

