-- ==== Sys2Proof/Machine/Num.lean ====
section
/-! DEFINITION. Numbers: exact dyadic values, the formats of 06 Table 06-1, conversions (R123 to R125), FP32 arithmetic
with one rounding, Mixer-64 (R129) and stochastic rounding (R130). A zero has no sign (R123, R124). -/

namespace Sys2Proof.Machine

/-- A value: NaN, an infinity, or m × 2^e exactly. -/
inductive Val where
  | nan
  | inf (neg : Bool)
  | fin (m : Int) (e : Int)
deriving DecidableEq, Repr

namespace Val

def zero : Val := .fin 0 0
def one : Val := .fin 1 0

/-- A finite value. -/
def isFin : Val → Bool
  | .fin _ _ => true
  | _ => false

/-- +0. -/
def isZero : Val → Bool
  | .fin m _ => m == 0
  | _ => false

/-- A negative finite value or -infinity. -/
def isNeg : Val → Bool
  | .fin m _ => decide (m < 0)
  | .inf n => n
  | .nan => false

def neg : Val → Val
  | .nan => .nan
  | .inf n => .inf !n
  | .fin m e => .fin (-m) e

def abs : Val → Val
  | .nan => .nan
  | .inf _ => .inf false
  | .fin m e => .fin m.natAbs e

/-- m × 2^e with the exponent lowered to `e0`. -/
def mant (m e e0 : Int) : Int := m * 2 ^ (e - e0).toNat

/-- Exact sum. DEDUCED: log entry 41. -/
def add : Val → Val → Val
  | .nan, _ => .nan
  | _, .nan => .nan
  | .inf a, .inf b => if a = b then .inf a else .nan
  | .inf a, _ => .inf a
  | _, .inf b => .inf b
  | .fin m e, .fin n f => .fin (mant m e (min e f) + mant n f (min e f)) (min e f)

/-- Exact product; 0 × infinity is NaN (IEEE 754). -/
def mul : Val → Val → Val
  | .nan, _ => .nan
  | _, .nan => .nan
  | .inf a, .inf b => .inf (a != b)
  | .inf a, .fin n _ => if n = 0 then .nan else .inf (a != decide (n < 0))
  | .fin m _, .inf b => if m = 0 then .nan else .inf (b != decide (m < 0))
  | .fin m e, .fin n f => .fin (m * n) (e + f)

/-- Zero-dominant product (04 R78): a zero operand gives +0 whatever the other is. -/
def mulZ (a b : Val) : Val := if a.isZero || b.isZero then zero else mul a b

/-- Times 2^k. -/
def scale : Val → Int → Val
  | .fin m e, k => .fin m (e + k)
  | v, _ => v

/-- a < b for values that are not NaN. -/
def lt : Val → Val → Bool
  | .nan, _ => false
  | _, .nan => false
  | .inf a, .inf b => a && !b
  | .inf a, _ => a
  | _, .inf b => !b
  | .fin m e, .fin n f => decide (mant m e (min e f) < mant n f (min e f))

/-- floor(log2 |v|) of a finite nonzero value. -/
def log2 : Val → Int
  | .fin m e => (Nat.log2 m.natAbs : Int) + e
  | _ => 0

end Val

/-! ## Formats -/

/-- Element format of a code: MX elements are those of codes 0x0 to 0x2 (06 Table 06-1). -/
def elemFmt (f : Nat) : Nat := if 4 ≤ f ∧ f ≤ 6 then f - 4 else f

/-- Is it an MX format? -/
def isMx (f : Nat) : Bool := decide (4 ≤ f ∧ f ≤ 6)

/-- Is it a per-tensor scaled format (06 R122)? -/
def isScaled (f : Nat) : Bool := decide (f ≤ 2)

/-- Fraction bits, exponent bits and bias of an element format. -/
def manBits (f : Nat) : Nat := if f = 0 then 3 else if f = 1 then 2 else if f = 2 then 1 else if f = 3 then 7 else 23
def expBits (f : Nat) : Nat := if f = 0 then 4 else if f = 1 then 5 else if f = 2 then 2 else 8
def bias (f : Nat) : Nat := if f = 0 then 7 else if f = 1 then 15 else if f = 2 then 1 else 127

/-- Largest finite magnitude code. -/
def maxCode (f : Nat) : Nat :=
  if f = 0 then 0x7E else if f = 1 then 0x7B else if f = 2 then 7 else if f = 3 then 0x7F7F else 0x7F7FFFFF

/-- Bits of an element (09 Table 09-2 gives the storage). -/
def fmtBits (f : Nat) : Nat := manBits (elemFmt f) + expBits (elemFmt f) + 1

/-- The sign bit's weight. -/
def signBit (f : Nat) : Nat := 2 ^ (manBits f + expBits f)

/-- Exponent of the step of the subnormals. -/
def eMin (f : Nat) : Int := 1 - (bias f : Int) - (manBits f : Int)

/-- Decode an element code of formats 0 to 3 and 7 (06 Table 06-1, R123); both zero codes read as +0. -/
def decodeElem (f c : Nat) : Val :=
  let mag := c % signBit f
  let neg := decide (signBit f ≤ c % (2 * signBit f))
  let ex := mag / 2 ^ manBits f
  let fr := mag % 2 ^ manBits f
  let fin := fun (m : Nat) (e : Int) => Val.fin (if neg then -(m : Int) else m) e
  if f = 0 ∧ mag = 0x7F then .nan
  else if (f = 1 ∨ f = 3 ∨ f = 7) ∧ ex = 2 ^ expBits f - 1 then (if fr = 0 then .inf neg else .nan)
  else if mag = 0 then Val.zero
  else if ex = 0 then fin fr (eMin f)
  else fin (fr + 2 ^ manBits f) (eMin f + (ex : Int) - 1)

/-- NaN code written (06 Table 06-1). -/
def nanCode (f : Nat) : Nat :=
  if f = 0 then 0x7F else if f = 1 then 0x7E else if f = 2 then 0 else if f = 3 then 0x7FC0 else 0x7FC00000

/-- Infinity as written: the magnitude code (06 Table 06-2; E4M3 writes 0x7F without a sign). -/
def infMag (f : Nat) : Nat :=
  if f = 0 then 0x7F else if f = 1 then 0x7C else if f = 2 then 7 else if f = 3 then 0x7F80 else 0x7F800000

/-- Integer significand k and exponent q of the grid point at or below m × 2^e on a grid of `p` significand bits and least
exponent `emin`; the remainder as numerator over 2^d. -/
structure Grid where
  k : Nat
  q : Int
  rem : Nat
  d : Nat

def toGrid (p : Nat) (emin : Int) (m : Nat) (e : Int) : Grid :=
  let q := max emin ((Nat.log2 m : Int) + e - (p : Int) + 1)
  if q ≤ e then { k := m * 2 ^ (e - q).toNat, q := q, rem := 0, d := 0 }
  else { k := m / 2 ^ (q - e).toNat, q := q, rem := m % 2 ^ (q - e).toNat, d := (q - e).toNat }

/-- Magnitude code of grid point k × 2^q in a format with `man` fraction bits: subnormals and normals alike. -/
def gridCode (man : Nat) (emin : Int) (k : Nat) (q : Int) : Nat := (q - emin).toNat * 2 ^ man + k

/-- Nearest, ties to even. -/
def roundNear (g : Grid) : Nat :=
  if g.d = 0 then g.k
  else if 2 * g.rem > 2 ^ g.d ∨ (2 * g.rem = 2 ^ g.d ∧ g.k % 2 = 1) then g.k + 1 else g.k

/-- Stochastic, with U the 24 bits [63:40] of a Mixer-64 result (06 R130). -/
def roundStoch (u : Nat) (g : Grid) : Nat :=
  if g.rem * 2 ^ 24 / 2 ^ g.d + u ≥ 2 ^ 24 then g.k + 1 else g.k

/-- A code written and whether it saturated (06 Table 06-8). -/
structure Enc where
  code : Nat
  sat : Bool := false
deriving DecidableEq, Repr

/-- Write a value into an element format with a rounding rule (06 R124, Table 06-2). -/
def encodeWith (rnd : Grid → Nat) (f : Nat) : Val → Enc
  | .nan => { code := nanCode f }
  | .inf neg =>
    { code := infMag f + (if neg ∧ f ≠ 0 then signBit f else 0) }
  | .fin m e =>
    if m = 0 then { code := 0 }
    else
      let g := toGrid (manBits f + 1) (eMin f) m.natAbs e
      let c := gridCode (manBits f) (eMin f) (rnd g) g.q
      let s := if m < 0 then signBit f else 0
      let top := decodeElem f (maxCode f)
      if maxCode f < c then
        if f = 3 ∨ f = 7 then { code := infMag f + s } else { code := maxCode f + s, sat := true }
      else if c = 0 then { code := 0 }
      else { code := c + s, sat := decide (c = maxCode f) && Val.lt top (Val.abs (.fin m e)) }

/-- Write rounded to nearest even. -/
def encode (f : Nat) (v : Val) : Enc := encodeWith roundNear f v

/-! ## FP32 arithmetic: exact, then one rounding -/

/-- Read an FP32 encoding. -/
def f32 (x : F32) : Val := decodeElem 7 x.toNat

/-- Round to FP32. -/
def toF32 (v : Val) : F32 := BitVec.ofNat 32 (encode 7 v).code

/-- Round to FP32 and read back. -/
def rnd32 (v : Val) : Val := f32 (toF32 v)

def fAdd (a b : F32) : F32 := toF32 (Val.add (f32 a) (f32 b))
def fSub (a b : F32) : F32 := toF32 (Val.add (f32 a) (Val.neg (f32 b)))
def fMul (a b : F32) : F32 := toF32 (Val.mul (f32 a) (f32 b))
/-- a × b + c with one rounding. -/
def fFma (a b c : F32) : F32 := toF32 (Val.add (Val.mul (f32 a) (f32 b)) (f32 c))
def fNeg (a : F32) : F32 := toF32 (Val.neg (f32 a))

/-- A quotient or root with a sticky bit below its last bit, exact enough for one rounding of at most 60 bits. -/
def sticky (q : Nat) (exact : Bool) (e : Int) : Val := .fin (2 * (q : Int) + (if exact then 0 else 1)) (e - 1)

/-- a / b, correctly rounded when rounded once to 60 bits or fewer. -/
def Val.div : Val → Val → Val
  | .nan, _ => .nan
  | _, .nan => .nan
  | .inf _, .inf _ => .nan
  | .inf a, .fin n _ => .inf (a != decide (n < 0))
  | .fin _ _, .inf _ => Val.zero
  | .fin m e, .fin n f =>
    if n = 0 then (if m = 0 then .nan else .inf (decide (m < 0)))
    else if m = 0 then Val.zero
    else
      let sh := Nat.log2 n.natAbs + 64
      let q := m.natAbs * 2 ^ sh / n.natAbs
      let v := sticky q (q * n.natAbs = m.natAbs * 2 ^ sh) (e - f - (sh : Int))
      if (m < 0) = (n < 0) then v else Val.neg v

/-- The integer square root by bits: the largest r with r² ≤ n. -/
def isqrt (n : Nat) : Nat :=
  (List.range (Nat.log2 n / 2 + 1)).foldl (fun r i =>
    let r' := r + 2 ^ (Nat.log2 n / 2 - i)
    if r' * r' ≤ n then r' else r) 0

/-- Square root; of a negative value NaN. -/
def Val.sqrt : Val → Val
  | .nan => .nan
  | .inf neg => if neg then .nan else .inf false
  | .fin m e =>
    if m < 0 then .nan
    else if m = 0 then Val.zero
    else
      let odd := e % 2 ≠ 0
      let n := m.natAbs * 2 ^ (128 + (if odd then 1 else 0))
      let e' := (e - 128 - (if odd then 1 else 0)) / 2
      let r := isqrt n
      sticky r (r * r = n) e'

def fDiv (a b : F32) : F32 := toF32 (Val.div (f32 a) (f32 b))
def fSqrt (a : F32) : F32 := toF32 (Val.sqrt (f32 a))

/-! ## Mixer-64 and stochastic rounding -/

/-- Mixer-64 (06 R129). -/
def mixer64 (seed step tensor index : Nat) : Nat :=
  let x := (seed + index * 0xC3A52D7B91E64F0B) % 2 ^ 64
  let x := Nat.xor (Nat.xor x (step * 2 ^ 32 % 2 ^ 64)) (tensor * 2 ^ 16)
  let x := Nat.xor x (x / 2 ^ 32)
  let x := x * 0x8F1B6E23D4C9A775 % 2 ^ 64
  let x := Nat.xor x (x / 2 ^ 28)
  let x := x * 0xB2D059E73C8416AD % 2 ^ 64
  Nat.xor x (x / 2 ^ 32)

/-- `r[63:40]`. -/
def mixerU (r : Nat) : Nat := r / 2 ^ 40

/-- Stochastic rounding to FP32 (06 R130). -/
def srF32 (v : Val) (r : Nat) : F32 := BitVec.ofNat 32 (encodeWith (roundStoch (mixerU r)) 7 v).code

/-- Stochastic rounding to the BF16 grid, as an FP32 encoding. -/
def srBf16 (v : Val) (r : Nat) : F32 := BitVec.ofNat 32 ((encodeWith (roundStoch (mixerU r)) 3 v).code * 2 ^ 16)

/-- Stochastic rounding to the FP32 grid with 16 significand bits (06 R134, U16X). DEDUCED: log entry 56. -/
def srX (v : Val) (r : Nat) : F32 :=
  match v with
  | .fin m e =>
    if m = 0 then 0
    else
      let g := toGrid 16 (1 - 127 - 15) m.natAbs e
      let c := gridCode 15 (1 - 127 - 15) (roundStoch (mixerU r) g) g.q
      let c := if 0x7F8000 ≤ c then 0x7F8000 else c
      BitVec.ofNat 32 (c * 256 + (if m < 0 ∧ c ≠ 0 then 2 ^ 31 else 0))
  | v => toF32 v

/-! ## MX blocks (06 R125) -/

/-- EMAX of an element format. -/
def eMax (f : Nat) : Int := if f = 0 then 8 else if f = 1 then 15 else 2

/-- Block scale X of the elements of a block. -/
def mxScale (f : Nat) (vs : List Val) : Nat :=
  if vs.any fun v => !v.isFin then 0xFF
  else
    let a := vs.foldl (fun a v => if Val.lt a v.abs then v.abs else a) Val.zero
    if a.isZero then 127
    else (max 0 (min 254 (a.log2 - eMax (elemFmt f) + 127))).toNat

/-- An MX element as read: its code value times 2^(X - 127); NaN throughout a block of scale 0xFF (06 R123).
DEDUCED: log entry 55. -/
def mxRead (f x c : Nat) : Val :=
  if x = 0xFF then .nan else Val.scale (decodeElem (elemFmt f) c) ((x : Int) - 127)

/-- An MX element as written. -/
def mxWrite (f x : Nat) (v : Val) : Enc :=
  if x = 0xFF then { code := 0 } else encode (elemFmt f) (Val.scale v (127 - (x : Int)))

end Sys2Proof.Machine
end

