-- ==== Sys2Proof/Machine/Census.lean ====
section
/-! DEFINITION. The Roll call: counting (06 R137 to R139), the scale table (R126 to R128) and silent layers (R140). -/

namespace Sys2Proof.Machine

/-! ## Counting -/

/-- One element reported: w before conversion and what was written (06 R138). -/
structure Reported where
  w : Val
  fmt : Nat
  code : Nat
  sat : Bool
  /-- The element lies in an MX block of scale 0xFF. -/
  block : Bool := false

/-- Is a code of an element format a zero code? -/
def isZeroCode (f c : Nat) : Bool := c % signBit (elemFmt f) == 0

/-- Is a code written NaN or infinite? -/
def isBadCode (f c : Nat) : Bool := !(decodeElem (elemFmt f) c).isFin

/-- Count one element (06 Table 06-8). A value beyond FP32 leaves AMAX as it is. DESIGN CHOICE: log entry 141. -/
def countOne (c : Counts) (r : Reported) : Counts :=
  let n := satAdd 48 c.elements 1
  if !r.w.isFin then { c with elements := n, nonfinite := satAdd 32 c.nonfinite 1 }
  else
    let z := isZeroCode r.fmt r.code
    let bad := !r.block && isBadCode r.fmt r.code
    let mag := toF32 r.w.abs
    { elements := n
      zeros := satAdd 48 c.zeros (b2n z)
      flushes := satAdd 32 c.flushes (b2n (z && !r.w.isZero))
      saturations := satAdd 32 c.saturations (b2n r.sat)
      nonfinite := satAdd 32 c.nonfinite (b2n bad)
      amax := if c.amax.toNat < mag.toNat ∧ (f32 mag).isFin then mag else c.amax }

/-- Merge two sets of counts (06 R139). -/
def mergeCounts (a b : Counts) : Counts :=
  { elements := satAdd 48 a.elements b.elements
    zeros := satAdd 48 a.zeros b.zeros
    flushes := satAdd 32 a.flushes b.flushes
    saturations := satAdd 32 a.saturations b.saturations
    nonfinite := satAdd 32 a.nonfinite b.nonfinite
    amax := if a.amax.toNat < b.amax.toNat then b.amax else a.amax }

/-- What an unlisted tensor id's counts read as. -/
def noCounts : Nat → Counts := fun _ => {}
/-- What an unlisted scale record reads as: format none. -/
def noScale : Nat → ScaleRec := fun _ => {}
/-- Unlisted number cells read 0. -/
def noNat : Nat → Nat := fun _ => 0
/-- No waiter (20 Table 20-14). -/
def noWaiter : Nat → Nat := fun _ => 0xFFFF

/-- Report a set of counts under a tensor id from a unit in district `d` (06 R137 to R139). A non-finite count sets the
device's own gate flag (R142) and `LOCAL_NONFINITE` (Table 06-13). -/
def report (d id : Nat) (c : Counts) (s : State) : State :=
  if id = 0xFFFF ∨ c = {} then s
  else
    let s := { s with census := { s.census with
      totals := mergeCounts s.census.totals { c with amax := if id < 0x1000 then c.amax else 0 }
      counts := if id < 0x1000 then
          cellSet noCounts s.census.counts id (mergeCounts (cellGet noCounts s.census.counts id) c)
        else s.census.counts } }
    if 0 < c.nonfinite then
      setB { s with step := { s.step with nonfinite := true } } (Reg.rclGate (d % 4)) 59 true
    else s

/-! ## Scale table -/

/-- Exponent a tensor id's per-tensor scaled values use (06 R123, R127). -/
def scaleOf (s : State) (id : Nat) : Int :=
  if id < 0x1000 then (cellGet noScale s.census.scale id).scale else 0

/-- A history entry as read: -0 is taken as +0 (06 R126). -/
def histVal (n : Nat) : F32 := if n = 0x80000000 then 0 else BitVec.ofNat 32 n

/-- Check and read one 128-byte record (06 R126, Table 06-3). -/
def parseScale (bs : List Byte) : Option ScaleRec :=
  let b := fun i => (bs.getD i 0).toNat
  let hist := (List.range 16).map fun i => leNat ((bs.drop (16 + 4 * i)).take 4)
  let sc := signed 8 (b 3)
  if (b 0 ≤ 2 ∨ b 0 = 0xF) ∧ b 1 ≤ 3 ∧ b 2 ≤ 1 ∧ (-126 ≤ sc ∧ sc ≤ 126) ∧ (b 0 = 0xF → sc = 0) ∧ b 4 ≤ 15 ∧ b 5 ≤ 16 ∧
      ((bs.drop 6).take 10).all (· == 0) ∧ (bs.drop 0x50).all (· == 0) ∧
      (hist.take (b 5)).all (fun h => decide (h < 0x7F800000) || h == 0x80000000) then
    some { format := b 0, margin := b 1, flags := b 2, scale := sc, head := b 4, filled := b 5, hist := hist.map histVal }
  else none

/-- A record as bytes. -/
def scaleBytes (r : ScaleRec) : List Byte :=
  leBytes 1 r.format ++ leBytes 1 r.margin ++ leBytes 1 r.flags ++ leBytes 1 (r.scale % 256).toNat ++ leBytes 1 r.head ++
    leBytes 1 r.filled ++ List.replicate 10 0 ++ (r.hist.map fun h => leBytes 4 h.toNat).flatten ++ List.replicate 48 0

/-- Smallest integer c with a ≤ 2^c, for a positive finite value (06 R128). -/
def ceilLog2 (v : Val) : Int :=
  match v with
  | .fin m e => (Nat.log2 m.natAbs : Int) + e + (if m.natAbs = 2 ^ Nat.log2 m.natAbs then 0 else 1)
  | _ => 0

/-- The Bell's update of one record (06 R128). History slots that come within `FILLED` unchecked compare as encodings, and a
maximum that is not finite counts as c = 0. DESIGN CHOICE: log entry 140. -/
def scaleStep (c : Counts) (r : ScaleRec) : ScaleRec :=
  let r := if 0 < c.elements then
      { r with hist := r.hist.set r.head c.amax, head := (r.head + 1) % 16, filled := min (r.filled + 1) 16 }
    else r
  if r.format = 0xF then r
  else
    let a := (r.hist.take r.filled).foldl (fun a h => if a.toNat < h.toNat then h else a) (0 : F32)
    let sc := if a = 0 then r.scale else eMax r.format - ceilLog2 (f32 a) - (r.margin : Int)
    let sc := if 0 < c.saturations ∨ 0 < c.nonfinite then min sc (r.scale - 1) else sc
    { r with scale := max (-126) (min 126 sc) }

/-- Event 8 of the Bell: every record takes the step's counts, which move to the snapshot (06 R128, R139). A record whose
update changes nothing stays unlisted. -/
def censusBell (c : Census) : Census :=
  let ids := (c.scale.map (·.1) ++ (c.counts.map (·.1)).filter fun i => !(c.scale.any fun p => p.1 == i))
  { c with
    scale := ids.foldl (fun m i => cellSet noScale m i (scaleStep (cellGet noCounts c.counts i) (cellGet noScale c.scale i)))
      c.scale
    counts := [], totals := {}, snap := c.counts, snapTotals := c.totals }

/-- Write the records back to the scale table (06 R126). DEDUCED: log entry 39. -/
def scaleWriteback (s : State) : State :=
  let base := getF s Reg.scaleTable 47 8 * 256
  (List.range 4096).foldl (fun s i =>
    (hbmWrite s [] Reader.traffic (base + 128 * i) (scaleBytes (cellGet noScale s.census.scale i))).s) s

/-! ## Silent layers (06 R140) -/

/-- One watched id at the Bell: its run counter, and the alert of a counter that reaches `SILENT_LIMIT`, once in a run. A limit
lowered to a counter that is there already raises no alert in that run. DESIGN CHOICE: log entry 144. -/
def silentStep (s : State) (id : Nat) : State :=
  let c := cellGet noCounts s.census.snap id
  if c.elements = 0 then s
  else
    let ppm := fld s.census.cfg 51 32
    let limit := fld s.census.cfg 15 0
    let run := cellGet noNat s.census.runs id
    let run' := if ppm * c.elements ≤ c.zeros * 1000000 then min (run + 1) 65535 else 0
    let told := s.census.alerted.contains id
    let fires := decide (run < run' ∧ run' = limit) && !told
    let rest := s.census.alerted.filter (· != id)
    let s := { s with census := { s.census with
      runs := cellSet noNat s.census.runs id run', alerted := if fires || (told && run' != 0) then id :: rest else rest } }
    if fires then
      let s := { s with step := { s.step with
        silentAlerts := satAdd 16 s.step.silentAlerts 1
        silentIds := if s.step.silentIds.length < 8 then s.step.silentIds ++ [id] else s.step.silentIds } }
      let s := (List.range 4).foldl (fun s d =>
        setInt .rcl d 8 (setF (incSat (setB s (Reg.rclSilent d) 63 true) (Reg.rclSilent d) 47 32 1)
          (Reg.rclSilent d) 11 0 id)) s
      alert 0x0601 s
    else s

/-- Every watched id, in increasing order. -/
def silentBell (s : State) : State :=
  (s.census.scale.filter fun p => p.2.flags % 2 == 1).foldl (fun s p => silentStep s p.1) s

end Sys2Proof.Machine
end

