-- ==== Sys2Proof/Machine/Ops.lean ====
section
/-! DEFINITION. The shared operations of faults and steps: fault records and drops (14), hard faults and device loss
(01 R20), Report cards (15 R352 to R355), the pending slot (16 R371) and the job's state changes (03 R72). -/

namespace Sys2Proof.Machine

/-! ## Fault records (14 R322) -/

/-- Bytes of a record (14 Table 14-2). -/
def recBytes (r : FaultRec) : List Byte :=
  leBytes 2 r.code ++ leBytes 1 r.cls ++ leBytes 1 r.block ++ leBytes 2 r.inst ++ leBytes 2 r.stream ++
    leBytes 4 (r.entry % 2 ^ 28) ++ leBytes 4 r.step ++ leBytes 2 r.group ++ leBytes 1 r.mbSlot ++
    leBytes 1 (b2n r.mixed + 2 * b2n r.departed + 4 * b2n r.again) ++ leBytes 4 r.detail ++ List.replicate 8 0

/-- Word i of a record. -/
def recWord (r : FaultRec) (i : Nat) : W64 := BitVec.ofNat 64 (leNat (((recBytes r).drop (8 * i)).take 8))

/-- Is it an HBM read event, which its own rule already counts in `BLK_ERR_COUNT` (11 R256)? -/
def hbmCode (code : Nat) : Bool := decide (0x0B01 ≤ code ∧ code ≤ 0x0B04)

/-- Does a fault of a page advance its `BLK_ERR_COUNT`? The chapters assign it the faults of the Junction engines and of the
movers and the residue faults of the arrays; an HBM read event is counted where it is found (04 R101, 07 R173, 09 R217,
11 R256, 20 R434). DEDUCED: log entry 165. -/
def countsFault (ty : Blk) (code : Nat) : Bool :=
  !hbmCode code && (ty == .jnc || ty == .mov || (ty == .core && code == 0x0401))

/-- The raising page forms a record: its error log, `BLK_ERR_COUNT` and `FAULT` (20 R433, R434). The GLB page's log holds the
validation report instead. -/
def pageRecord (ty : Blk) (r : FaultRec) (s : State) : State :=
  let s := if ty = .glb then s
    else (List.range 4).foldl (fun s i => rset s (Reg.errLog ty r.inst i) (recWord r i)) s
  let s := if countsFault ty r.code then errCount ty r.inst 1 s else s
  setInt ty r.inst 0 s

/-- A record without a drop: group, slot and flags at none. -/
def plainRec (code cls : Nat) (ty : Blk) (inst stream entry step detail : Nat) : FaultRec :=
  { code := code, cls := cls, block := blkCode ty, inst := inst, stream := stream, entry := entry, step := step,
    group := 0xFFFF, mbSlot := 0xFF, mixed := false, departed := false, again := false, detail := detail }

/-- `STEP` of the running step, as records carry it. -/
def stepNo (s : State) : Nat := s.step.ws.step

/-! ## Where the running step stands -/

/-- The running step lets entries go on: it runs and its Bell has not begun. -/
def stepRuns (s : State) : Bool := s.step.active && s.step.bell == .running

/-- The entry that a stream evaluates next. -/
def Stream.next? (x : Stream) : Option Entry := x.entries[x.pos]?

/-- The opcode evaluated next; 0xFF beyond the stream. -/
def Stream.nextOp (x : Stream) : Nat :=
  match x.next? with
  | some e => fld e.w0 7 0
  | none => 0xFF

/-- An active securing pass has read all its state, or no pass is active (03 R54, Table 03-13). DEDUCED: log entry 34. -/
def secReleased (s : State) : Bool := !getB s Reg.lockerState 61 || s.locker.readDone

/-- An `UPDATE_BEGIN` waits on pass 0x7F02: the gate is decided and the securing pass has not read its state (03 R54, R67). -/
def updateHeld (s : State) : Bool :=
  stepRuns s && s.step.setOpen && s.step.decided && !secReleased s && s.streams.any fun x => x.nextOp == 3

/-- `ELAPSED` of the running step, from the clock: no rule states its value but that it never falls and stops at `LIMIT`, and it
stands while `UPDATE_BEGIN` waits on pass 0x7F02 (03 R67, Table 03-6). Outside a step the register keeps the last step's
value. DESIGN CHOICE: log entry 132. -/
def showElapsed (s : State) : State :=
  if !s.step.active || (updateHeld s && s.step.elapsedHeld) then s
  else
    let old := getF s Reg.watchdog 63 32
    let x := takeFree s
    let t := setF x.2 Reg.watchdog 63 32 (max old (min (getF s Reg.watchdog 31 0) (fld x.1 31 0)))
    { t with step := { t.step with elapsedHeld := updateHeld s } }

/-! ## Report cards -/

/-- Bytes 0x000 to 0x0F7 of a card: `FLAGS` bit 8 is set when the annex is written (15 Table 15-4, R353).
DEDUCED: log entry 117. -/
def cardBody (s : State) (status err : Nat) (fault : List Byte) (counts : Counts) : List Byte :=
  let st := s.step
  let gw := st.gateWord.getD (false, false)
  let flags := b2n gw.2 + 2 * b2n gw.1 + 4 * b2n st.updateNonfinite + 8 * b2n (decide (0 < st.idxOob)) +
    16 * b2n (decide (0 < st.silentAlerts)) + 32 * b2n st.floorBreach + 64 * b2n st.stashPinned +
    128 * b2n (decide (0 < st.answersDropped)) + 512 * b2n (decide (64 < st.confinedCount))
  leBytes 4 st.ws.step ++ leBytes 1 status ++ leBytes 1 st.ws.slot ++ leBytes 2 err ++ leBytes 8 flags ++
    leBytes 1 0xFF ++ leBytes 1 (min st.confinedCount 255) ++ leBytes 2 (maskCount st.departed) ++
    leBytes 2 (maskCount st.maskA) ++ leBytes 2 (maskCount st.maskB) ++ leBytes 2 (maskCount st.maskC) ++
    leBytes 2 st.silentAlerts ++ leBytes 4 0 ++ leBytes 8 (rget s Reg.updateCount).toNat ++
    leBytes 8 counts.elements ++ leBytes 8 counts.zeros ++ leBytes 4 counts.flushes ++ leBytes 4 counts.saturations ++
    leBytes 4 counts.nonfinite ++ leBytes 4 0 ++ leBytes 8 st.idxAbsent ++ leBytes 8 st.idxOob ++ leBytes 8 st.overflow ++
    ((List.range 8).map fun i => leBytes 2 (st.silentIds.getD i 0xFFFF)).flatten ++ fault ++
    leBytes 4 (getF s Reg.watchdog 63 32) ++ leBytes 2 st.rateMin ++ leBytes 2 0 ++ leBytes 4 st.stashPlaced.1 ++
    leBytes 4 st.stashPlaced.2.1 ++ leBytes 4 st.stashPlaced.2.2 ++ leBytes 4 st.answersDropped ++ leBytes 4 st.refused ++
    leBytes 4 st.corrected ++ List.replicate 72 0

/-- The 4,096-byte annex (15 R355). -/
def annexBytes (s : State) : List Byte :=
  let recs := ((s.step.confined.take 64).map recBytes).flatten
  maskBytes s.step.departed ++ maskBytes s.step.maskA ++ maskBytes s.step.maskB ++ maskBytes s.step.maskC ++
    recs ++ List.replicate (2048 - recs.length) 0

/-- A `REJECTED` card (15 R354). -/
def rejectedBody (word : W64) (err mb : Nat) : List Byte :=
  leBytes 4 (fld word 63 32) ++ leBytes 1 4 ++ leBytes 1 (fld word 0 0) ++ leBytes 2 err ++ List.replicate 8 0 ++
    leBytes 1 mb ++ List.replicate 231 0

/-- Queue a card. -/
def queueCard (c : Card) (s : State) : State := { s with cards := s.cards ++ [c] }

/-- The first confined record of the step, or zeros (15 Table 15-4 `FAULT`). -/
def firstConfined (s : State) : List Byte :=
  match s.step.confined with
  | r :: _ => recBytes r
  | [] => List.replicate 32 0

/-- Free the pending slot (16 R371). -/
def freeSlot (s : State) : State := setB { s with slot := none } Reg.dbStatus 63 false

/-- Discard the pending step, and a validated step that has not started, with `STEP_DISCARDED` (03 R72). -/
def discardPending (s : State) : State :=
  let s := match s.next with
    | some ws =>
      queueCard { body := rejectedBody (BitVec.ofNat 64 (ws.step * 2 ^ 32 + ws.slot)) 0x020C 0xFF, annex := none,
                  frees := false } { s with next := none }
    | none => s
  match s.slot with
  | some p =>
    if p.rejected then s
    else queueCard { body := rejectedBody p.word 0x020C 0xFF, annex := none, frees := true }
      { s with slot := some { p with rejected := true, ws := none } }
  | none => s

/-- A validated pending step becomes the running step when nothing runs (16 R371). -/
def promote (s : State) : State :=
  match s.slot with
  | some { ws := some ws, .. } =>
    if s.next = none ∧ s.step.active = false ∧ s.cards = [] ∧ (jobState s = 2 ∨ jobState s = 3) then
      freeSlot { s with next := some ws }
    else s
  | _ => s

/-! ## Hard faults and device loss -/

/-- Ring engine r beyond its registers. -/
def ringAt (s : State) (r : Nat) : Ring := s.rings.getD r {}
def setRing (r : Nat) (x : Ring) (s : State) : State := { s with rings := s.rings.set r x }

/-- View number that no window has, for accesses without a window. -/
def secView : Nat := 4096

/-- Drop every SEC access, queued or unanswered. -/
def secDrop (s : State) : State :=
  let g := ringAt s 0
  setRing 0 { g with xfers := g.xfers.filter fun x => x.window != secView,
                     sendq := g.sendq.filter fun t => !(t.first.cls == 2 && t.port == 1) } s

/-- A refill stops and what it has brought is dropped (14 R332). -/
def dropRefill (s : State) : State := secDrop { s with locker := { s.locker with image := [], broken := false } }

/-- A hard fault between the write of `ABORT` and `START` ends the restart: `PHASE` FAILED with the fault's code, and a running
refill stops (14 R332). -/
def stopRestart (code : Nat) (s : State) : State :=
  if 1 ≤ phase s ∧ phase s ≤ 7 then failRestart code (dropRefill s) else s

/-- The `STEP_READY` of a step that has ended serves no later run of that step (13 R291). DEDUCED: log entry 120. -/
def endReady (s : State) : State :=
  let m := s.step.ws.step
  { s with rings := s.rings.map fun r =>
      { r with readyUp := r.readyUp.filter (· != m), readyDown := r.readyDown.filter (· != m) } }

/-- Set `STATE`; `LIMIT` reads 0 while no job is READY or RUNNING (03 Tables 03-5, 03-6). -/
def setJobState (v : Nat) (s : State) : State :=
  let s := setF s Reg.jobStatus 63 60 v
  if v = 2 ∨ v = 3 then s else setF s Reg.watchdog 31 0 0

/-- `STATE` becomes HALTED: every change to it first writes the scale table back, then sets `JOB_EVENT` (03 R72, 06 R126).
DEDUCED: log entry 39. -/
def toHalted (s : State) : State := setInt .glb 0 8 (setJobState 4 (scaleWriteback s))

/-- A requested `HALT` takes effect once no step runs (03 R72). -/
def haltNow (s : State) : State :=
  if s.job.haltWanted then toHalted { s with job := { s.job with haltWanted := false } } else s

/-- End the running step with `STEP_ABORTED` (01 R20); a requested `HALT` follows (03 R72). The card's counts are the values
reached; after `BELL_DRAIN` the snapshot holds them (15 R354, 06 R136). -/
def abortStep (code : Nat) (fault : List Byte) (s : State) : State :=
  if s.step.active then
    let s := showElapsed s
    let counts := if s.step.bell = .drained then s.census.snapTotals else s.census.totals
    haltNow (discardPending (queueCard
      { body := cardBody s 3 code fault counts, annex := some (annexBytes s), frees := false }
      (endReady { s with step := { s.step with active := false, aborted := true } })))
  else s

/-- A unit's own hard fault in the job, for condemnation (04 R99, 10 R225, 14 R329). -/
def noteUnitFault (ty inst sub : Nat) (s : State) : State := { s with unitFaults := (ty, inst, sub) :: s.unitFaults }

/-- The record of a hard fault or a device loss in `GLB_FAULT_REC0` to `3`, and `ERROR` (14 R322). -/
def glbRecord (r : FaultRec) (s : State) : State :=
  let s := (List.range 4).foldl (fun s i => rset s (Reg.faultRec i) (recWord r i)) s
  setF { s with job := { s.job with faulted := true } } Reg.jobStatus 47 32 r.code

/-- What a hard fault or a device loss does beyond its page: its record, the end of the running step, and of a restart under way
(14 R314, R322, R332, 01 R20). A watchdog-class record is kept for R71. DEDUCED: log entry 18. -/
def hardEnd (ty : Blk) (r : FaultRec) (s : State) : State :=
  let s := stopRestart r.code (glbRecord r s)
  let watch := decide (0x0301 ≤ r.code ∧ r.code ≤ 0x0304)
  let s := if s.step.active then
      { s with job := { s.job with stallNow := if watch then some (r.step, r.stream, r.entry) else none } }
    else s
  let s := if ty = .mov ∨ ty = .rng ∨ ty = .rcl then noteUnitFault (blkCode ty) r.inst 0 s else s
  abortStep r.code (recBytes r) s

/-- A hard fault or a device loss: the record in its page, and its end of the step (14 R322, 01 R20).
DEDUCED: log entry 18. -/
def hardFault (ty : Blk) (r : FaultRec) (s : State) : State := hardEnd ty r (pageRecord ty r s)

/-- Raise a hard fault outside any entry. -/
def raiseHard (code : Nat) (ty : Blk) (inst detail : Nat) (s : State) : State :=
  hardFault ty (plainRec code 4 ty inst 0xFFFF 0 (stepNo s) detail) s

/-! ## Ports -/

/-- Port p beyond its registers. -/
def port (s : State) (p : Nat) : Port := s.ports.getD p {}

/-- Replace port p. -/
def setPort (p : Nat) (x : Port) (s : State) : State := { s with ports := s.ports.set p x }

/-- `STATE` of `NLP_LINK_STATUS` (12 Table 12-12). -/
def linkState (s : State) (p : Nat) : Nat := getF s (Reg.linkStatus p) 63 60

/-- Set a link's `STATE`; a change sets `LINK` (20 Table 20-9). -/
def setLink (p v : Nat) (s : State) : State :=
  if linkState s p = v then s else setInt .nlp p 8 (setF s (Reg.linkStatus p) 63 60 v)

/-- A counter triple by class (0 REQ, 1 RSP, 2 SEC). -/
def get3 (t : Nat × Nat × Nat) (c : Nat) : Nat := if c = 0 then t.1 else if c = 1 then t.2.1 else t.2.2
def set3 (t : Nat × Nat × Nat) (c v : Nat) : Nat × Nat × Nat :=
  if c = 0 then (v, t.2.1, t.2.2) else if c = 1 then (t.1, v, t.2.2) else (t.1, t.2.1, v)

/-- Flits of a queue by class. -/
def classCounts (q : List Flit) : Nat × Nat × Nat :=
  let n := fun c => (q.filter fun f => f.cls == c).length
  (n 0, n 1, n 2)

/-- A drain has `n` flits of class `c` fewer to deliver (02 R34). -/
def drainedBy (c n : Nat) (t : Nat × Nat × Nat) : Nat × Nat × Nat := set3 t c (get3 t c - n)

/-- A drain has nothing left to deliver of a queue: of each class its flits have gone, or none waits. -/
def drainOver (t : Nat × Nat × Nat) (q : List Flit) : Bool :=
  [0, 1, 2].all fun c => get3 t c == 0 || get3 (classCounts q) c == 0

/-- Free `n` receive-buffer slots of class `c` (12 R270). -/
def freeRx (c n : Nat) (x : Port) : Port := { x with freed := set3 x.freed c ((get3 x.freed c + n) % 2 ^ 16) }

/-- A discard at packet boundaries (02 R34): whole packets go; of a packet already begun by the reader the rest stays. A
packet begins at any flit that is not `DATA`. -/
def discardTx : List Nat → List Flit → List Flit
  | _, [] => []
  | started, f :: t =>
    if f.typ = 3 ∧ !started.contains f.cls then f :: discardTx started t
    else discardTx (f.cls :: started) t

/-- Discard a port's crossing in both directions; the receive buffers become free, and what still comes of a transfer that
has begun to arrive is dropped as it comes (02 R34: no packet is delivered in part). -/
def discardPort (x : Port) : Port :=
  let y := x.rxq.foldl (fun y f => if f.typ = 7 then y else freeRx f.cls 1 y) x
  let tx := discardTx [] x.txq
  let left := classCounts tx
  let fewer := fun c => min (get3 x.drainTx c) (get3 left c)
  { y with txq := tx, rxq := [], discarding := [0, 1, 2], drainTx := (fewer 0, fewer 1, fewer 2), drainRx := (0, 0, 0) }

/-! ## Underpasses: closing (12 R278) -/

/-- `UNDERPASS` in both pages of pair `k` (20 Table 20-9). -/
def pairInt (k : Nat) (s : State) : State := setInt .nlp (2 * k + 1) 9 (setInt .nlp (2 * k) 9 s)

/-- A port in loopback inside the package (12, "The Underpass"): it starts to train there. -/
def enterLoopback (p : Nat) (s : State) : State :=
  setLink p 1 (setB (setPort p { port s p with loopback := true, event := 1, fast := false } s) (Reg.linkStatus p) 59 false)

/-- Close the Underpass of pair `k` with a cause (12 Table 12-15). A close trigger ends a running open sequence and sets
`OPEN_FAILED` (R281); a closed Underpass stays as it is. DEDUCED: log entry 104. -/
def closePair (k cause : Nat) (s : State) : State :=
  let a := Reg.underpass (2 * k)
  let opening := getB s a 1
  if getB s a 0 || opening then
    let s := setF (setB (setB s a 0 false) a 1 false) a 3 2 cause
    let s := if opening then setB s a 4 true else s
    enterLoopback (2 * k + 1) (enterLoopback (2 * k) (pairInt k s))
  else s

/-- Close all three. -/
def closeAll (cause : Nat) (s : State) : State := (List.range 3).foldl (fun s k => closePair k cause s) s

/-- The device-loss path (14 Table 14-1 class 5). -/
def deviceLoss (code : Nat) (ty : Blk) (inst detail : Nat) (s : State) : State :=
  hardFault ty (plainRec code 5 ty inst 0xFFFF 0 (stepNo s) detail) s

/-- Out of service: all Underpasses close and the rest of the job takes the device-loss path (14 R329). -/
def outOfService (s : State) : State :=
  deviceLoss 0x0E06 .glb 0 0 (closeAll 2 (setB s Reg.bringup 62 true))

/-! ## Drops (14 R315 to R320) -/

/-- The local micro-batch slot that holds group `g`. -/
def slotOf (ws : Worksheet) (g : Nat) : Option Nat :=
  (List.range ws.mbs.length).find? fun i =>
    match ws.mbs[i]? with
    | some m => decide (m.firstGroup ≤ g ∧ g < m.firstGroup + m.groups)
    | none => false

/-- Groups of a slot as a mask. -/
def slotMask (ws : Worksheet) (i : Nat) : Mask :=
  match ws.mbs[i]? with
  | some m => maskRange m.firstGroup m.groups
  | none => 0

/-- First group of a slot. -/
def slotFirst (ws : Worksheet) (i : Nat) : Nat :=
  match ws.mbs[i]? with
  | some m => m.firstGroup
  | none => 0xFFFF

/-- Clear groups from the three masks and make their tags odd (14 R316, 08 R181). -/
def dropMask (m : Mask) (s : State) : State :=
  { s with step := { s.step with
      maskA := s.step.maskA &&& ~~~ m, maskB := s.step.maskB &&& ~~~ m, maskC := s.step.maskC &&& ~~~ m
      dropped := s.step.dropped ||| m } }

/-- Slot `i` is void (14 Table 14-13). -/
def isVoid (s : State) (i : Nat) : Bool := getB s Reg.slotVoid i
/-- Slot `i` is mixed (14 R318). -/
def isMixed (s : State) (i : Nat) : Bool := getB s Reg.slotMixed i

/-- `LATE_DROP`: its record names the slot, which was mixed, its first group and the entry whose drop it was (14 R320, R322). -/
def lateDrop (r : FaultRec) (s : State) : State :=
  hardFault .glb { plainRec 0x0E01 4 .glb 0 r.stream r.entry (stepNo s) 0 with
    group := slotFirst s.step.ws r.mbSlot, mbSlot := r.mbSlot, mixed := true, departed := r.departed } s

/-- Void the slot of a record; a mixed one taints the step, or raises `LATE_DROP` after the snapshot unless a gate word
already carries a flag (14 R317, R318, R320). -/
def voidSlot (r : FaultRec) (s : State) : State :=
  let i := r.mbSlot
  if isVoid s i then s
  else
    let mixed := isMixed s i
    let s := setB s Reg.slotVoid i true
    if !mixed then s
    else if !s.step.snapshot then { s with step := { s.step with taint := true } }
    else match s.step.gateWord with
      | some (nf, t) => if nf || t then s else lateDrop r s
      | none => lateDrop r s

/-- Record a confined fault in the step (15 R355: the first 64, and a count). -/
def addConfined (r : FaultRec) (s : State) : State :=
  { s with step := { s.step with
      confined := if s.step.confined.length < 64 then s.step.confined ++ [r] else s.step.confined
      confinedCount := s.step.confinedCount + 1 } }

/-- The slot that a confined event concerns: that of the group it names, or the entry's. -/
def confinedSlot (c : Confined) (slot : Option Nat) (s : State) : Option Nat :=
  match c.group with
  | some g => slotOf s.step.ws g
  | none => slot

/-- The groups that a confined event drops: those of its slot, or a group that lies in no local slot alone (14 R316). -/
def confinedMask (c : Confined) (slot : Option Nat) (s : State) : Mask :=
  match slot with
  | some i => slotMask s.step.ws i
  | none => match c.group with
    | some g => maskRange g 1
    | none => 0

/-- The record of a confined event (14 Table 14-2). -/
def confinedRec (c : Confined) (stream entry : Nat) (slot : Option Nat) (s : State) : FaultRec :=
  let m := confinedMask c slot s
  { plainRec c.code 2 c.ty c.inst stream entry (stepNo s) c.detail with
    group := (match c.group with
      | some g => g
      | none => (match slot with
        | some i => slotFirst s.step.ws i
        | none => 0xFFFF))
    mbSlot := (match slot with
      | some i => i
      | none => 0xFF)
    mixed := (match slot with
      | some i => isMixed s i
      | none => false)
    departed := decide (s.step.departed &&& m ≠ 0)
    again := (match slot with
      | some i => isVoid s i
      | none => decide (s.step.dropped &&& m ≠ 0)) }

/-- A confined event in a step forms its record; its drop takes effect with the void of its slot, when the raising entry
completes (14 R316, R317, R320, R322). Its code does not enter `ERROR`. DEDUCED: log entry 23. DESIGN CHOICE: log entry 121. -/
def dropNow (c : Confined) (stream entry : Nat) (slot : Option Nat) (s : State) : State :=
  let r := confinedRec c stream entry (confinedSlot c slot s) s
  addConfined r (pageRecord c.ty r s)

/-- A record that its page's error log still holds gains `MIXED` (14 Table 14-2: the slot was mixed when voided). -/
def markRecord (r : FaultRec) (s : State) : State :=
  let r' := { r with mixed := true }
  let s := { s with step := { s.step with confined := s.step.confined.map fun x => if x = r then r' else x } }
  let a := fun i => Reg.errLog (blkOf r.block) r.inst i
  if r.block ≠ 0 ∧ (List.range 4).all fun i => rget s (a i) = recWord r i then rset s (a 2) (recWord r' 2) else s

/-- The groups that a record's event drops: those of its slot, or its group alone (14 R316). -/
def recMask (r : FaultRec) (s : State) : Mask :=
  if r.mbSlot ≠ 0xFF then slotMask s.step.ws r.mbSlot else if r.group = 0xFFFF then 0 else maskRange r.group 1

/-- A dropped group that had departed taints the step; after the gate snapshot nothing further is done (03 R74, 14 R320). -/
def taintDeparted (m : Mask) (s : State) : State :=
  if m &&& s.step.departed ≠ 0 ∧ s.step.snapshot = false then { s with step := { s.step with taint := true } } else s

/-- The drop of a recorded event takes effect: its groups leave the masks, their tags become odd, and its slot is void
(14 R316, R317, R320). -/
def voidNow (r : FaultRec) (s : State) : State :=
  let s := dropMask (recMask r s) (taintDeparted (recMask r s) s)
  if r.mbSlot = 0xFF then s
  else
    let s := if isMixed s r.mbSlot && !isVoid s r.mbSlot && !r.mixed then markRecord r s else s
    voidSlot r s

/-- A confined event while no step runs forms its record alone, and advances `BLK_ERR_COUNT` whatever it is (14 R466). -/
def confinedIdle (c : Confined) (stream entry : Nat) (s : State) : State :=
  let s := if countsFault c.ty c.code || hbmCode c.code then s else errCount c.ty c.inst 1 s
  pageRecord c.ty { plainRec c.code 2 c.ty c.inst stream entry (stepNo s) c.detail with group := c.group.getD 0xFFFF } s

/-- A confined event outside any entry: record, drop and void. -/
def confined (c : Confined) (s : State) : State :=
  if s.step.active then voidNow (confinedRec c 0xFFFF 0 (confinedSlot c none s) s) (dropNow c 0xFFFF 0 none s)
  else confinedIdle c 0xFFFF 0 s

/-- Events that are confined whoever raises them (14 Table 14-1). -/
def alwaysConfined (code : Nat) : Bool := [0x0B01, 0x0B02, 0x0501, 0x0E03].contains code

/-- Events that are confined when tagged and hard otherwise (14 Table 14-1). -/
def taggable (code : Nat) : Bool :=
  [0x0401, 0x0703, 0x0704, 0x0702, 0x0A01, 0x0901, 0x0B04, 0x1501, 0x0C01, 0x0D01, 0x0D02, 0x0D03, 0x0D04].contains code

/-- An uncorrectable crossing word without a group loses its pseudo-channel, as well as being a hard fault (11 R251). -/
def crossingLoss (e : Evt) (s : State) : State :=
  if e.code = 0x1501 ∧ e.ty = .hbc then
    let x := loseChannel e.inst s
    x.2.foldl (fun s v => raiseHard v.code v.ty v.inst v.detail s) x.1
  else s

/-- Raise an event outside any entry: confined for its group if it names one, else hard (14 R314). -/
def raiseFree (e : Evt) (s : State) : State :=
  match e.group with
  | some g =>
    if taggable e.code ∨ alwaysConfined e.code then
      confined { code := e.code, ty := e.ty, inst := e.inst, detail := e.detail, group := some g } s
    else raiseHard e.code e.ty e.inst e.detail s
  | none => crossingLoss e (raiseHard e.code e.ty e.inst e.detail s)

/-- Of a read that no entry makes, only the loss of a pseudo-channel is raised, and a damaged Locker reported (11 R248,
R249, R251). -/
def settleTraffic (evs : List Evt) (s : State) : State :=
  evs.foldl (fun s e =>
    if e.code = 0x0B05 then raiseFree e s else if e.code = 0x0B06 then damageLocker e.detail s else s) s

/-- What the physical world did to the crossings and the management SRAM during a command that no entry makes; the packet
carries the tag of group `g`, or none (02 R35 to R37, 17 Table 17-5). DEDUCED: log entry 134. -/
def trafficPhys (g : Option Nat) (ph : List Phys) (s : State) : State :=
  ph.foldl (fun s p => match p with
    | .crossingCorrected ty i => countCorrected 1 (errCount ty i 1 s)
    | .crossingUncorrectable ty i d => raiseFree { code := 0x1501, ty := ty, inst := i, detail := b2n (!d), group := g } s
    | .sramCorrected => sramFixed s
    | _ => s) s

/-- A packet of page (`ty`, `i`)'s crossing is poisoned in a direction: it is not delivered (02 R36). -/
def poisoned (ph : List Phys) (ty : Blk) (i : Nat) (toDomain : Bool) : Bool := ph.contains (.crossingUncorrectable ty i toDomain)


/-- The retained bank pairs of a core's scratchpad return to ON; a pair that is OFF stays OFF (10 R226, R227). -/
def wakePairs (core : Nat) (s : State) : State :=
  let a := Reg.spPower core
  let n := getF s a 47 32
  if n = 0 then s else setF s a 47 32 (n &&& 0xAAAA)

/-- A core's scratchpad, accumulators and counts of K-steps at zero (10 R226, R227, 04 R80). -/
def clearCore (c : Nat) (s : State) : State :=
  { s with sp := memZero s.sp (c * 524288) 524288, spFix := s.spFix.filter fun a => a / 524288 != c,
           acc := cellClear (c * 32768) 32768 s.acc, ksteps := cellClear (c * 8) 8 s.ksteps }

/-- Every bank pair of a core is in one state. -/
def allPairs (core x : Nat) (s : State) : State :=
  (List.range 8).foldl (fun s k => setF s (Reg.spPower core) (2 * k + 33) (2 * k + 32) x) s

/-- A stopped sequencer at the first entry of its stream (03 R65). -/
def restStream (x : Stream) : Stream :=
  { x with pos := 0, inflight := [], released := false, blocked := false, setDone := false, seg := none,
           afterUpdate := false, atEnd := false }

/-- Free every stash record (05 R118). -/
def freeStash (s : State) : State := { s with stash := [], stashTimeouts := [] }

/-- Accumulators at +0, scratchpads zeroed, passes cleared, streams at their first entry (03 R65). -/
def clearDataPath (s : State) : State :=
  { s with acc := [], ksteps := [], sp := [], spFix := [], passes := [], waiters := [], streams := s.streams.map restStream,
           rings := s.rings.map fun r => { r with colls := [], xfers := [], sendq := [] } }

/-- No `STEP_READY` is held: an aborted step runs again only after its peers send it again (13 R291). -/
def dropReady (s : State) : State := { s with rings := s.rings.map fun r => { r with readyUp := [], readyDown := [] } }

/-- `ABORT` (14 R328): every stream stops, the data path clears, stash records are freed, a securing pass ends, `STATE`
becomes HALTED and a pending step is discarded; a pass that ends sets `LOCKER` (20 Table 20-9). `card`: a running step without a fault of its own ends with `JOB_ABORTED`
and its card (R336). A device with a hard fault of its own in the job keeps that fault's `ERROR`. -/
def abortJob (card : Bool) (s : State) : State :=
  let own := s.step.aborted || s.job.faulted
  let s := if s.step.active then
      (if card then abortStep 0x0E07 (List.replicate 32 0) s
       else { s with step := { s.step with active := false, aborted := true } })
    else s
  let s := if own then s else setF s Reg.jobStatus 47 32 0x0E07
  let s := discardPending s
  let s := dropReady (freeStash (clearDataPath s))
  let s := { s with
    ports := s.ports.map discardPort
    census := { s.census with counts := [], totals := {} }
    locker := { s.locker with readDone := false }
    views := s.views.foldl (fun m v => cellSet (fun _ => ({} : View)) m v.1 { v.2 with unanswered := 0 }) s.views
    job := { s.job with
      haltWanted := false, startHeld := false
      stalls := match s.job.stallNow with
        | some x => if getF s Reg.restartStatus 31 16 = 0 then [] else s.job.stalls ++ [x]
        | none => []
      stallNow := none } }
  let s := if getB s Reg.lockerState 61 then setInt .glb 0 10 s else s
  toHalted (setB s Reg.lockerState 61 false)

end Sys2Proof.Machine
end

