-- ==== Sys2Proof/Machine/HbmCtl.lean ====
section
/-! DEFINITION. HBM control (11): the region table (R237, R238), the fill (R241), patrol scrub (R244), channel maps and
profiles (R233, R251 to R253, R257), repair of lost channels. -/

namespace Sys2Proof.Machine

/-! ## Region table -/

/-- A refused commit or an ignored frozen write (11 Table 11-10). -/
def regionRefuse (k reason : Nat) (s : State) : State :=
  setF (setF (setB s Reg.regionStatus 63 true) Reg.regionStatus 62 60 reason) Reg.regionStatus 7 0 k

/-- The reason for which a commit of entry k fails, in the order of R237; `none`: it commits. -/
def regionReason (s : State) (k : Nat) (v : W64) : Option Nat :=
  let cls := fld v 59 56
  let base := fld v 39 20 * 2 ^ 20
  let size := (regionRaw s k).size
  if jobActive s && getB s (Reg.regionW0 k) 63 then some 5
  else if 6 < cls then some 3
  else if size = 0 ∨ hbmN s * 2 ^ 30 < base + size then some 1
  else if (regions s).any fun r => r.idx != k && decide (base < r.base + r.size ∧ r.base < base + size) then some 2
  else if cls = 6 ∧ (base % (3 * 2 ^ 20) ≠ 0 ∨ size % (3 * 2 ^ 20) ≠ 0) then some 4
  else none

/-- The fields of `GLB_REGION_W0` (11 Table 11-10); every other bit is reserved. -/
def regionBits : W64 := fieldMask 63 63 ||| fieldMask 59 56 ||| fieldMask 39 20

/-- A write of `GLB_REGION_W0` of entry k (11 R237, R238); one that commits nothing leaves `CLASS` as it was where the class is
not listed (00 R6). A commit with a 1 in a reserved bit is a validation error (00 R5), for which no `REASON` is listed: it is
refused with a free one. DESIGN CHOICE: log entry 149. -/
def regionWrite0 (k : Nat) (v : W64) (s : State) : State :=
  let new := v &&& regionBits
  if fld v 63 63 = 1 then
    match regionReason s k v with
    | some 5 => regionRefuse k 5 s
    | r =>
      if new ≠ v then
        let x := takeFree s
        regionRefuse k (fld x.1 2 0) x.2
      else match r with
        | some r => regionRefuse k r s
        | none => rset s (Reg.regionW0 k) new
  else if jobActive s && getB s (Reg.regionW0 k) 63 then regionRefuse k 5 s
  else rset s (Reg.regionW0 k) (if 6 < fld v 59 56 then setFld new 59 56 (getF s (Reg.regionW0 k) 59 56) else new)

/-- A write of `GLB_REGION_W1` of entry k (11 R237, R238). DESIGN CHOICE: log entry 168. -/
def regionWrite1 (k : Nat) (v : W64) (s : State) : State :=
  if getB s (Reg.regionW0 k) 63 then (if jobActive s then regionRefuse k 5 s else s)
  else rset s (Reg.regionW1 k) (v &&& fieldMask 39 20)

/-! ## Fill -/

/-- A write of `START` in `GLB_REGION_INIT`: the entry that `REGION` names now is filled (11 R241). -/
def fillStart (s : State) : State :=
  if jobActive s || getB s Reg.regionInit 62 then s
  else match region? s (getF s Reg.regionInit 7 0) with
    | some r => setB { s with fill := some (r.base, r.size) } Reg.regionInit 62 true
    | none => s

/-- The lines of a range that wait on a substitute for their rebuild and that a write of the whole range makes readable (11 R248,
R252). -/
def mendedBy (s : State) (b n : Nat) : List Nat :=
  if s.unbuilt.isEmpty then [] else ((List.range (n / 64)).map fun i => b + 64 * i).filter (isUnbuilt s)

/-- REGION_FILL_DONE: the data and check bytes of the entry that was started are 0x00 (11 R241), which of an LCK region is
valid stripes, on a substitute too. -/
def execRegionFillDone (s : State) : Host.Outcome State Fault Refusal :=
  .next
    (match s.fill with
     | some (b, n) =>
       awaitClock [(b, n)] s
         (setB (setB { s with fill := none, hbm := memZero s.hbm b n, chk := memZero s.chk (b / 8) (n / 8)
                              mended := mendedBy s b n ++ s.mended }
           Reg.regionInit 62 false) Reg.regionInit 61 true)
     | none => s)

/-! ## Scrub -/

/-- A class that patrol scrub reads (11 Table 11-4). -/
def scrubs (cls : Nat) : Bool := cls == 0 || cls == 1 || cls == 6

/-- A scrub pass of a stack is complete when it has read every WGT, STA and LCK line of the stack: `PASSES` advances, and the
next pass begins (11 R244, Table 11-8). -/
def scrubDone (stack line : Nat) (s : State) : State :=
  let seen := if s.scrubbed.contains line then s.scrubbed else line :: s.scrubbed
  let all := (regions s).all fun r => !scrubs r.cls || (List.range (r.size / 64)).all fun i =>
    (locate s (r.base + 64 * i)).inst / 64 != stack || seen.contains (r.base + 64 * i)
  if all then incMod { s with scrubbed := seen.filter fun l => (locate s l).inst / 64 != stack } (Reg.scrub stack) 31 0 1
  else { s with scrubbed := seen }

/-- SCRUB_READ: patrol scrub of one WGT, STA or LCK line of a stack: corrected, or logged and left (11 R244). -/
def execScrubRead (stack addr : Nat) (ph : List Phys) (s : State) : Host.Outcome State Fault Refusal :=
  let line := addr / 64 * 64
  .next
    (if !getB s (Reg.scrub stack) 63 || (locate s line).inst / 64 != stack then s
     else match regionOf s line with
       | some r =>
         if scrubs r.cls then
           let x := readLine s ph Reader.traffic none line
           awaitClock [(line, 64)] s
             (trafficPhys none ph (scrubDone stack line (settleTraffic (x.evs.filter fun e => e.code != 0x0B06) x.s)))
         else s
       | none => s)

/-! ## Channels -/

/-- N follows `PROFILE`; a change clears the region table's `VALID` bits and leaves HBM undefined (11 R238, R241, R253). -/
def setProfile (p : Nat) (s : State) : State :=
  let s := setF s Reg.hbmCfg 19 16 p
  if hbmN s = profileN p then s
  else
    let s := setF s Reg.hbmCfg 15 0 (profileN p)
    (List.range 256).foldl (fun s k => setB s (Reg.regionW0 k) 63 false)
      { s with hbm := [], chk := [], unbuilt := [], mended := [], scrubbed := [] }

/-- `HBC_STATE.MAPPED` and `LOGICAL` follow the channel maps (11 Table 11-9). -/
def showMaps (s : State) : State :=
  let k := hbmN s / 6
  (List.range 384).foldl (fun s i =>
    let m := (List.range k).find? fun e => chmapEntry s (i / 64) e == i % 64
    match m with
    | some e => setF (setB s (Reg.hbcState i) 63 true) (Reg.hbcState i) 56 48 (6 * e + i / 64)
    | none => setF (setB s (Reg.hbcState i) 63 false) (Reg.hbcState i) 56 48 0) s

/-- Every HBC page of a stack, or of all stacks, has its enable at 0 (11 R255, R257). -/
def stackDisabled (s : State) (st : Nat) : Bool := !(List.range 64).any fun c => getB s (Reg.blkCtrl .hbc (64 * st + c)) 63
def hbmDisabled (s : State) : Bool := (List.range 6).all (stackDisabled s)

/-- What a write of `HBS_CHMAP` register i puts: an entry at N / 6 or above takes no value but 0 (11 R255, 00 R6). -/
def chmapValue (s : State) (st i : Nat) (v : W64) : W64 :=
  (List.range 8).foldl (fun v m =>
    if 8 * i + m < hbmN s / 6 ∨ fld v (8 * m + 5) (8 * m) = 0 then v
    else setFld v (8 * m + 5) (8 * m) (getF s (Reg.chmap st i) (8 * m + 5) (8 * m))) v

/-- Set map entry `e` of a stack. -/
def setChmap (st e c : Nat) (s : State) : State :=
  setF s (Reg.chmap st (e / 8)) (8 * (e % 8) + 5) (8 * (e % 8)) c

/-- Is pseudo-channel `c` of stack `st` lost? -/
def channelLost (s : State) (st c : Nat) : Bool := getB s (Reg.hbcState (64 * st + c)) 62

/-- The channel map of a stack at a profile of `k` channels: entry i is i while that channel is not lost, else the lowest
spare that is not lost (11 R233, R252). -/
def freshMap (s : State) (st k : Nat) : List Nat :=
  let spares := (List.range 64).filter fun c => decide (k ≤ c) && !channelLost s st c
  ((List.range k).foldl (fun (acc : List Nat × List Nat) i =>
    if channelLost s st i then (acc.1 ++ [acc.2.headD 0], acc.2.drop 1) else (acc.1 ++ [i], acc.2)) ([], spares)).1

/-- Pseudo-channels of a stack that are not lost. -/
def liveChannels (s : State) (st : Nat) : Nat := ((List.range 64).filter fun c => !channelLost s st c).length

/-- The largest channel profile that every stack can map, from `p` on (01 Table 01-7, 19 R418). -/
def bestProfile (s : State) (p : Nat) : Option Nat :=
  [0, 1, 2, 3, 4].find? fun q => decide (p ≤ q) && (List.range 6).all fun st => decide (profileN q / 6 ≤ liveChannels s st)

/-- Write a whole map. -/
def putMap (st : Nat) (m : List Nat) (s : State) : State :=
  (List.range 64).foldl (fun s e => setChmap st e (m.getD e 0) s) s

/-- Fill a substitute with 0x00: no byte that lies on it stays listed (11 R252). -/
def clearChannel64 (inst : Nat) (s : State) : State :=
  { s with
    hbm := s.hbm.filter fun c => (locate s (c.1 / 64 * 64)).inst != inst
    chk := s.chk.filter fun c => (locate s (c.1 * 8 / 64 * 64)).inst != inst }

/-- A substitute begins or ends to wait for its rebuild; its lines are no longer told apart. -/
def setUnbuilt (inst : Nat) (on : Bool) (s : State) : State :=
  let rest := s.unbuilt.filter (· != inst)
  { s with unbuilt := if on then inst :: rest else rest, mended := s.mended.filter fun l => (locate s l).inst != inst }

/-- Give the map entry of a lost channel to a spare of its stack, if one remains; the substitute is filled with 0x00 and
waits for its rebuild (11 R252). The flag says whether a spare was found. -/
def spareChannel (inst : Nat) (s : State) : State × Bool :=
  let st := inst / 64
  let k := hbmN s / 6
  let used := (List.range k).map (chmapEntry s st)
  match (List.range k).find? (fun e => chmapEntry s st e == inst % 64),
        (List.range 64).find? (fun c => !channelLost s st c && !used.contains c) with
  | some e, some c =>
    let s := clearChannel64 (64 * st + c) (setChmap st e c s)
    (showMaps (setUnbuilt (64 * st + c) true s), true)
  | none, _ => (s, true)
  | some _, none => (s, false)

/-- HBM_LANE_FAULT: a lane fault beyond the lane repair loses the pseudo-channel (11 R251). -/
def execHbmLaneFault (inst : Nat) (s : State) : Host.Outcome State Fault Refusal :=
  let x := loseChannel inst s
  .next (x.2.foldl (fun s e => raiseFree e s) x.1)

/-- One line of an LCK unit that lies on a substitute and waits for it, restored from its stripe, whose lines are read under
R243 (11 R247, R252). The list gathers the lines whose stripe has another line that cannot be read; each is counted and logged as
such (R256). DEDUCED: log entry 150. -/
def rebuildLine (inst : Nat) (r : Region) (x : State × List Nat) (line : Nat) : State × List Nat :=
  if (locate x.1 line).inst = inst ∧ isUnbuilt x.1 line then
    let ls := stripePeers r line
    let peers := ls.map (rsLine x.1 [])
    let s := (ls.zip peers).foldl (keepPeer []) x.1
    if peers.all (·.isSome) then
      let d := xorLines (peers.filterMap (·.map (·.1)))
      (putLine s line d (rsLineCheck d), x.2)
    else ((hbcUncorrectable (locate s line) 4 r.cls r.idx Reader.traffic s).1, x.2 ++ [line])
  else x

/-- The LCK lines on a substitute, restored as far as their stripes can be read. -/
def rebuildAll (inst : Nat) (s : State) : State × List Nat :=
  (regions s).foldl (fun x r =>
    if r.cls = 6 then (List.range (r.size / 64)).foldl (fun x i => rebuildLine inst r x (r.base + 64 * i)) x else x) (s, [])

/-- `LOCKER_DAMAGED` once for each generation that holds one of the lines (11 R248). -/
def damageEach (lines : List Nat) (s : State) : State :=
  (lines.foldl (fun (x : List (Option (Nat × Nat)) × State) a =>
    let g := lockerGen x.2 a
    if x.1.contains g then x else (g :: x.1, damageLocker a x.2)) ([], s)).2

/-- The lines that a rebuild reads and writes: the unbuilt LCK lines on the substitute and their stripe peers. -/
def rebuildReach (inst : Nat) (s : State) : List (Nat × Nat) :=
  ((regions s).filter (·.cls == 6)).flatMap fun r =>
    (((List.range (r.size / 64)).map fun i => r.base + 64 * i).filter fun l =>
      (locate s l).inst == inst && isUnbuilt s l).flatMap fun l => (l :: stripePeers r l).map (·, 64)

/-- REBUILD_COMPLETE: every LCK unit on the substitute has been rebuilt from its stripe (11 R252). A line whose stripe has a
second line that cannot be read stays unreadable, and its generation is damaged (R248). DEDUCED: log entry 150. -/
def execRebuildComplete (inst : Nat) (s : State) : Host.Outcome State Fault Refusal :=
  .next
    (if s.unbuilt.contains inst then
      let x := rebuildAll inst s
      awaitClock (rebuildReach inst s) s (if x.2 = [] then setUnbuilt inst false x.1 else damageEach x.2 x.1)
     else s)

/-! ## Scratchpad write-back and retention (10 R222, R226), crossing clocks (02 R40) -/

/-- SP_ECC_WRITEBACK: the bank writes back the oldest corrected word that no write has replaced (10 R222). Its bytes are
already those that the read delivered. -/
def execSpEccWriteback (core : Nat) (s : State) : Host.Outcome State Fault Refusal :=
  .next (match s.spFix.find? (fun a => a / 524288 == core) with
    | some a => { s with spFix := s.spFix.erase a }
    | none => s)

/-- RETAIN_ENTRY: an ON pair of a core with `AUTO_RETAIN` has had no access for `RETAIN_IDLE` × 256 waves (10 R226). -/
def execRetainEntry (core k : Nat) (s : State) : Host.Outcome State Fault Refusal :=
  let a := Reg.spPower core
  .next (if getB s a 16 && getF s a (2 * k + 33) (2 * k + 32) == 0 then setF s a (2 * k + 33) (2 * k + 32) 1 else s)

/-- The sampling clock of the management crossing stops or runs with its oscillator (02 R40, 18 R398). -/
def setSampling (on : Bool) (s : State) : State :=
  { s with
    power := { s.power with oscillator := on }
    crossings := cellSet runningCrossing s.crossings (crossingKey .mgt 0) { clockOn := on, wake := false } }

/-- Stop or start the clocks of the HBM and Noloc crossings. -/
def setClocks (on : Bool) (s : State) : State :=
  let keys := (List.range 384).map (fun i => crossingKey .hbc i) ++ (List.range 6).map fun p => crossingKey .nlp p
  { s with crossings := keys.foldl (fun m k => cellSet runningCrossing m k { clockOn := on, wake := false }) s.crossings }

end Sys2Proof.Machine
end

