-- ==== Sys2Proof/Machine/Host.lean ====
section
/-! DEFINITION. The host link (15): the host window table, the aperture, Report card delivery and intake rings. -/

namespace Sys2Proof.Machine

/-! ## PCIe configuration (R337) -/

/-- A base address register: its number, size in bytes, width, whether it is prefetchable, and the sizes that the host may give
it. -/
structure Bar where
  number : Nat
  size : Nat
  bits : Nat := 64
  prefetchable : Bool := false
  resize : Option (Nat × Nat) := none
deriving DecidableEq, Repr

/-- A capability that the function offers. -/
inductive Capability where
  | pciExpress (leastPayload mostPayload tagBits : Nat) (flr : Bool)
  /-- Power states offered: 0 D0, 3 D3hot. -/
  | powerManagement (states : List Nat)
  | msix (vectors tableOffset pbaOffset : Nat)
  | aer
  | resizableBar
  | deviceSerialNumber (id : W64)
deriving DecidableEq, Repr

/-- The one Endpoint function as the host finds it. -/
structure PcieFunction where
  vendorId : Nat
  deviceId : Nat
  classCode : Nat
  /-- Transfer rate in GT/s and lanes. -/
  rate : Nat
  lanes : Nat
  bars : List Bar
  capabilities : List Capability
deriving DecidableEq, Repr

/-- 15 Table 15-1; the MSI-X table and its pending bits lie in the HIF page. DESIGN CHOICE: log entry 100. -/
def pcieFunction (s : State) : PcieFunction :=
  { vendorId := s.mgt.fuses.vendor, deviceId := 0x9600, classCode := 0x120000, rate := 32, lanes := 16
    bars := [{ number := 0, size := 512 * 2 ^ 20 }, { number := 2, size := 4 * 2 ^ 20 },
             { number := 4, size := 64 * 2 ^ 30, prefetchable := true, resize := some (2 ^ 30, 512 * 2 ^ 30) }]
    capabilities := [.pciExpress 128 512 10 true, .powerManagement [0, 3], .msix 2048 0x8000 0x7F00, .aer, .resizableBar,
                     .deviceSerialNumber s.mgt.fuses.identity] }

/-! ## The host window table (R338, R339) -/

/-- Size in bytes of a host window entry. -/
def hwtSize (s : State) (k : Nat) : Nat := getF s (Reg.hwtW1 k) 39 12 * 4096

/-- The host address of `n` bytes at `off` of entry `k`, if the entry permits the request (R339). -/
def hwtCheck (s : State) (k off n : Nat) (write : Bool) : Option Nat :=
  if k < 64 ∧ getB s (Reg.hwtW0 k) 63 ∧ getB s (Reg.hwtW0 k) (if write then 61 else 62) ∧ off + n ≤ hwtSize s k then
    some (getF s (Reg.hwtW0 k) 56 12 * 4096 + off)
  else none

/-- A request that the window table refuses: `BLOCKED`, `BLOCKS` (R339). -/
def hostBlocked (s : State) : State :=
  alert 0x0F04 (setInt .hif 0 8 (incSat (setB s Reg.hifStatus 63 true) Reg.hifStatus 31 16 1))

/-- Most data bytes of one posted write (02 R33, Table 15-1). -/
def maxPayload : Nat := 512

/-- Issue a write to host memory, as posted writes of at most 512 bytes. -/
def postHost (a : Nat) (bs : List Byte) (s : State) : State :=
  (chunks maxPayload bs).zipIdx.foldl (fun s x => emit (.hostWrite (a + maxPayload * x.2) x.1) s)
    { s with host := memWrite s.host a bs }

/-- Write `bs` at `off` of window `k`: the new state and whether it was issued (R339). -/
def hostWrite (k off : Nat) (bs : List Byte) (s : State) : State × Bool :=
  match hwtCheck s k off bs.length true with
  | some a => (postHost a bs s, true)
  | none => (hostBlocked s, false)

/-- An accepted write of `HIF_HWT_W0` (R338). DESIGN CHOICE: log entry 169. -/
def hwtWrite0 (k : Nat) (v : W64) (s : State) : State :=
  let new := v &&& (fieldMask 63 61 ||| fieldMask 56 12)
  if getB s (Reg.hwtW0 k) 63 && jobActive s then s
  else if fld v 63 63 = 1 then
    (if 0 < hwtSize s k ∧ fld v 56 12 * 4096 + hwtSize s k ≤ 2 ^ 57 then rset s (Reg.hwtW0 k) new else s)
  else rset s (Reg.hwtW0 k) new

/-- An accepted write of `HIF_HWT_W1` (R338). -/
def hwtWrite1 (k : Nat) (v : W64) (s : State) : State :=
  if getB s (Reg.hwtW0 k) 63 then s else rset s (Reg.hwtW1 k) (v &&& fieldMask 39 12)

/-! ## Card configuration (R351) -/

/-- Writes of the card configuration are accepted (R351). -/
def cardCfgOpen (s : State) : Bool := jobState s == 0 || jobState s == 4 || jobState s == 5

/-- A write of `HIF_CARD_CFG` (R351). -/
def cardCfgWrite (v : W64) (s : State) : State :=
  let a := Reg.cardCfg
  let s := if fld v 62 62 = 1 then setB s a 62 false else s
  if !cardCfgOpen s then s
  else
    let s := setF s a 53 48 (fld v 53 48)
    let s := if fld v 47 44 ≤ 12 then setF s a 47 44 (fld v 47 44) else s
    if fld v 63 63 = 0 then setB s a 63 false
    else
      let w := getF s a 53 48
      let n := 2 ^ getF s a 47 44
      let ok := (hwtCheck s w (getF s Reg.cardBase 31 0 * 4096) (n * 256) true).isSome &&
        (hwtCheck s w (getF s Reg.cardBase 63 32 * 4096) (n * 4096) true).isSome
      if ok then setB s a 63 true else setB (setB s a 63 false) a 62 true

/-! ## Report cards (R352, R353) -/

/-- The next `SEQ`: it skips 0 when it wraps (R352). -/
def nextSeq (n : Nat) : Nat := if (n + 1) % 2 ^ 32 = 0 then 1 else (n + 1) % 2 ^ 32

/-- Set bit 8 of a card's `FLAGS`: `ANNEX` (15 Table 15-5). -/
def withAnnexFlag (body : List Byte) : List Byte := body.modify 9 (· ||| 1)

/-- A card that is not written (R352). -/
def cardMissed (s : State) : State :=
  alert 0x0F06 (setInt .hif 0 10 (incSat (setB s Reg.cardSeq 63 true) Reg.cardSeq 47 32 1))

/-- Deliver one card: annex, body, last 8 bytes, vector 0 (R353). DEDUCED: log entry 95. -/
def deliverCard (c : Card) (s : State) : State :=
  let k := nextSeq (getF s Reg.cardSeq 31 0)
  let s := setF s Reg.cardSeq 31 0 k
  if !getB s Reg.cardCfg 63 then cardMissed s
  else
    let w := getF s Reg.cardCfg 53 48
    let slot := k % 2 ^ getF s Reg.cardCfg 47 44
    let off := getF s Reg.cardBase 31 0 * 4096 + slot * 256
    let ax := match c.annex with
      | some a => hostWrite w (getF s Reg.cardBase 63 32 * 4096 + slot * 4096) a s
      | none => (s, true)
    if !ax.2 then cardMissed ax.1
    else
      let body := if c.annex.isSome then withAnnexFlag c.body else c.body
      let seq := leBytes 4 k
      let tail := seq ++ leBytes 4 (crc32 (body ++ seq))
      let x := hostWrite w off body ax.1
      if !x.2 then cardMissed x.1
      else
        let y := hostWrite w (off + 0xF8) tail x.1
        if y.2 then emit (.msix 0) y.1 else cardMissed y.1

/-- REPORT_CARD_WRITE: the oldest waiting card is issued; its issue frees the pending slot, and lets a validated pending
step become the running one (15 R353, 16 R371). -/
def execReportCardWrite (s : State) : Host.Outcome State Fault Refusal :=
  .next
    (match s.cards with
     | [] => s
     | c :: t =>
       let s := deliverCard c { s with cards := t }
       promote (if c.frees then freeSlot s else s))

/-! ## The aperture (R340, R342) -/

/-- Device address of BAR4 offset `o` (R340). -/
def apertureAddr (s : State) (o : Nat) : Nat := getF s Reg.aperture 39 30 * 2 ^ 30 + o

/-- May the aperture (or the debug page) reach a class now (15 Table 15-2)? -/
def classOpen (s : State) (cls : Nat) (write : Bool) : Bool :=
  if cls = 5 then true
  else if cls = 6 then !write && !jobActive s
  else !write || !jobActive s

/-- A request's pieces: line-bounded (address, length). -/
def pieces (a n : Nat) : List (Nat × Nat) :=
  (List.range (lineCount a n)).map fun i =>
    let lo := max a (a / 64 * 64 + 64 * i)
    (lo, min (a + n) (a / 64 * 64 + 64 * i + 64) - lo)

/-- A piece lies in no region. -/
def pieceMiss (s : State) (a : Nat) : Bool := (regionOf s a).isNone
/-- A piece is refused (Table 15-2). -/
def pieceRefused (s : State) (write : Bool) (a : Nat) : Bool :=
  match regionOf s a with
  | some r => !classOpen s r.cls write
  | none => false

/-- `MISS` and `MISSES`, once per request (11 R240). -/
def regionMiss (s : State) : State := alert 0x0B08 (incSat (setB s Reg.regionStatus 59 true) Reg.regionStatus 39 8 1)

/-- `DENIED` and `DENIALS`, once per request (R340, R342). -/
def apertureDenied (s : State) : State :=
  alert 0x0F05 (setInt .hif 0 9 (incSat (setB s Reg.hifStatus 62 true) Reg.hifStatus 15 0 1))

/-- Read the pieces under Table 15-2 (R342). -/
def readPieces (ph : List Phys) : List (Nat × Nat) → State → Span
  | [], s => { s := s, data := [], evs := [], bad := false }
  | (a, n) :: t, s =>
    let x := if pieceMiss s a || pieceRefused s false a then
        { s := s, data := List.replicate n 0, evs := [], bad := false }
      else hbmRead s ph Reader.traffic a n
    let y := readPieces ph t x.s
    { s := y.s, data := x.data ++ y.data, evs := x.evs ++ y.evs, bad := x.bad || y.bad }

/-- Write the pieces under Table 15-2 (R342). -/
def writePieces (ph : List Phys) (bs : List Byte) (a0 : Nat) : List (Nat × Nat) → State → Span
  | [], s => { s := s, data := [], evs := [], bad := false }
  | (a, n) :: t, s =>
    let x := if pieceMiss s a || pieceRefused s true a then { s := s, data := [], evs := [], bad := false }
      else hbmWrite s ph Reader.traffic a ((bs.drop (a - a0)).take n)
    let y := writePieces ph bs a0 t x.s
    { s := y.s, data := [], evs := x.evs ++ y.evs, bad := x.bad || y.bad }

/-- Count a request's misses and denials once each. -/
def countPieces (write : Bool) (ps : List (Nat × Nat)) (s0 s : State) : State :=
  let s := if ps.any fun p => pieceMiss s0 p.1 then regionMiss s else s
  if ps.any fun p => pieceRefused s0 write p.1 then apertureDenied s else s

/-- The pieces of an access. -/
def HostAccess.pieces (x : HostAccess) (s : State) : List (Nat × Nat) :=
  Machine.pieces (apertureAddr s x.off) (if x.write then x.data.length else x.len)

/-- The request is poisoned in the PCIe crossing: it is not delivered (02 R36). -/
def HostAccess.lost (x : HostAccess) : Bool := poisoned x.ph .hif 0 false

/-- The bytes of HBM that an access reaches. -/
def HostAccess.reach (x : HostAccess) (s : State) : List (Nat × Nat) :=
  if x.lost then []
  else (x.pieces s).filter fun p => !(pieceMiss s p.1 || pieceRefused s x.write p.1)

/-- A BAR4 read (R342). A request or an answer that is poisoned in the PCIe crossing is not delivered (02 R36). -/
def apertureRead (x : HostAccess) (s : State) : State :=
  let y := readPieces x.ph (x.pieces s) s
  let lost := x.lost || poisoned x.ph .hif 0 true
  trafficPhys none x.ph
    (if lost then s else countPieces false (x.pieces s) s (emit (.readBytes y.data) (settleTraffic y.evs y.s)))

/-- A BAR4 write (R342); one poisoned in the PCIe crossing is not delivered (02 R36). -/
def apertureWrite (x : HostAccess) (s : State) : State :=
  let y := writePieces x.ph x.data (apertureAddr s x.off) (x.pieces s) s
  trafficPhys none x.ph
    (if x.lost then s else countPieces true (x.pieces s) s (settleTraffic y.evs y.s))

/-- A BAR4 access takes its effect. -/
def HostAccess.run (x : HostAccess) (s : State) : State := if x.write then apertureWrite x s else apertureRead x s

/-- A BAR4 access waits in the crossing while a clock that it needs is stopped, and behind those that wait (02 R40). -/
def HostAccess.waits (x : HostAccess) (s : State) : Bool :=
  !x.lost && (!s.heldHost.isEmpty || (x.reach s).any fun r => linesStopped r.1 r.2 s)

/-- The waiting BAR4 accesses take their effects in order, up to one whose clock is still stopped (02 R40).
DEDUCED: log entry 164. -/
def releaseHost : List HostAccess → State → State
  | [], s => { s with heldHost := [] }
  | x :: t, s =>
    if (x.reach s).any fun r => linesStopped r.1 r.2 s then awaitClock (x.reach s) { s with heldHost := x :: t } s
    else releaseHost t (x.run s)

/-- A BAR4 access arrives (R342, 02 R40). -/
def hostAccess (x : HostAccess) (s : State) : State :=
  if x.waits s then (x.reach s).foldl (fun s r => wakeLines r.1 r.2 s) { s with heldHost := s.heldHost ++ [x] } else x.run s

/-- APERTURE_READ (R342). -/
def execApertureRead (off len : Nat) (ph : List Phys) (s : State) : Host.Outcome State Fault Refusal :=
  .next (hostAccess { write := false, off := off, len := len, ph := ph } s)

/-- APERTURE_WRITE (R342). -/
def execApertureWrite (off : Nat) (data : List Byte) (ph : List Phys) (s : State) : Host.Outcome State Fault Refusal :=
  .next (hostAccess { write := true, off := off, data := data, ph := ph } s)

/-- BAR4 answers an AtomicOp with Unsupported Request (R342). -/
def execAtomicOp (_off : Nat) (s : State) : Host.Outcome State Fault Refusal := .next (emit .unsupportedRequest s)

/-- A poisoned write to a BAR is dropped and reported (15 Table 15-7). -/
def execPoisonedWrite (_bar _off : Nat) (s : State) : Host.Outcome State Fault Refusal := .next (emit (.aer 1) s)

/-! ## Intake (R343 to R347) -/

def ringEn (s : State) (r : Nat) : Bool := getB s (Reg.ringCfg r) 63
def ringErr (s : State) (r : Nat) : Bool := getB s (Reg.ringCfg r) 62
/-- `LOG`: lower values act as 4 (15 Table 15-9). -/
def ringLog (s : State) (r : Nat) : Nat := max 4 (getF s (Reg.ringCfg r) 47 44)
def ringDone (s : State) (r : Nat) : Nat := getF s (Reg.ringIdx r) 63 32
def ringTail (s : State) (r : Nat) : Nat := getF s (Reg.ringIdx r) 31 0
/-- Entries pending, modulo 2^32 (R344). -/
def ringPending (s : State) (r : Nat) : Nat := (ringTail s r + 2 ^ 32 - ringDone s r) % 2 ^ 32

/-- Entries of a ring in transfer, oldest first. -/
def noTransfers : Nat → List IntakeEntry := fun _ => []
def inTransfer (s : State) (r : Nat) : List IntakeEntry := cellGet noTransfers s.intake r
def setTransfers (r : Nat) (l : List IntakeEntry) (s : State) : State :=
  { s with intake := cellSet noTransfers s.intake r l }

/-- A ring stops with a reason: `ERR`, `REASON`, its vector; what is in transfer is dropped (R346).
DEDUCED: log entry 109. -/
def intakeStop (r reason code : Nat) (s : State) : State :=
  emit (.msix (16 + r)) (alert code (setTransfers r []
    (setF (setB s (Reg.ringCfg r) 62 true) (Reg.ringCfg r) 61 59 reason)))

/-- The overrun check of a ring, made at each write of `TAIL` (R344, Table 15-10). -/
def overrunCheck (r : Nat) (s : State) : State :=
  if 2 ^ ringLog s r < ringPending s r then intakeStop r 3 0x0F03 s else s

/-- Ring offset of entry number `n` (R343). -/
def entryOff (s : State) (r n : Nat) : Nat := getF s (Reg.ringCfg r) 43 12 * 4096 + n % 2 ^ ringLog s r * 32

/-- Write a status into an entry, where it was read: bytes 0x18 to 0x1F with `STATUS` (R345, R346). The flag is `false` when R339
refused. -/
def writeStatus (status : Nat) (e : IntakeEntry) (s : State) : State × Bool :=
  hostWrite e.win (e.off + 0x18) ((e.raw.drop 0x18).take 4 ++ leBytes 2 status ++ [0, 0]) s

/-- Entry number `n` of ring `r` as it stands in the ring now, with the bytes read. -/
def entryAt (s : State) (r n : Nat) (raw : List Byte) (ok : Bool) : IntakeEntry :=
  { raw := raw, ok := ok, win := getF s (Reg.ringCfg r) 53 48, off := entryOff s r n }

/-- Fields of an intake entry (15 Table 15-3). -/
def ieField (raw : List Byte) (o n : Nat) : Nat := leNat ((raw.drop o).take n)

/-- The checks of R345 item 1 on entry number `n`. `STATUS` is the Krada's own to write, and an entry that failed before is read
again with any listed one (R346, 15 Table 15-3). -/
def entryOk (s : State) (n : Nat) (raw : List Byte) : Bool :=
  let src := ieField raw 0 8
  let dst := ieField raw 8 8
  let len := ieField raw 0x10 4
  let win := ieField raw 0x14 1
  decide (src % 64 = 0 ∧ dst % 64 = 0 ∧ 1 ≤ len ∧ len ≤ 1048576 ∧ win < 64 ∧ ieField raw 0x16 2 ≤ 1 ∧
    ieField raw 0x18 4 = n ∧ ieField raw 0x1C 2 ≤ 3 ∧ ieField raw 0x1E 2 = 0) &&
  (hwtCheck s win src len false).isSome &&
  (match region? s (ieField raw 0x15 1) with
   | some g => decide (g.cls = 5 ∧ dst + len ≤ g.size)
   | none => false)

/-- A failed entry: its status word, and the stop. A status word that R339 refuses makes the entry invalid (R346). -/
def intakeFail (r status reason code : Nat) (e : IntakeEntry) (s : State) : State :=
  let x := writeStatus status e s
  if x.2 then intakeStop r reason code x.1 else intakeStop r 1 0x0F01 x.1

/-- Put one more entry in transfer. -/
def pushTransfer (r : Nat) (e : IntakeEntry) (s : State) : State := setTransfers r (inTransfer s r ++ [e]) s

/-- What stands for an entry whose read failed: `SEQ` alone. -/
def unread (n : Nat) : List Byte := List.replicate 24 0 ++ leBytes 4 n ++ List.replicate 4 0

/-- INTAKE_ENTRY_READ: the next pending entry is read and checked; at most 8 are in transfer (R345). A read that the
window table refuses stops the ring as an invalid entry; a read that fails stops it as a DMA error. -/
def execIntakeEntryRead (r : Nat) (c : Completion) (s : State) : Host.Outcome State Fault Refusal :=
  let k := (inTransfer s r).length
  let n := (ringDone s r + k) % 2 ^ 32
  .next
    (if !ringEn s r || ringErr s r || decide (8 ≤ k) || decide (ringPending s r ≤ k) ||
        (inTransfer s r).any (fun e => !e.ok) then s
     else if (hwtCheck s (getF s (Reg.ringCfg r) 53 48) (entryOff s r n) 32 false).isNone then
       (if k = 0 then intakeStop r 1 0x0F01 (hostBlocked s) else s)
     else match c with
       | .bad =>
         if k = 0 then intakeFail r 3 2 0x0F02 (entryAt s r n (unread n) false) s else s
       | .data raw =>
         if entryOk s n raw then pushTransfer r (entryAt s r n raw true) s
         else if k = 0 then intakeFail r 2 1 0x0F01 (entryAt s r n raw false) s
         else pushTransfer r (entryAt s r n raw false) s)

/-- Copy an accepted sample into its region, zero-filled up to the next 64-byte boundary (R345 item 2). -/
def copySample (raw : List Byte) (bs : List Byte) (s : State) : State :=
  match region? s (ieField raw 0x15 1) with
  | some g =>
    let data := bs ++ List.replicate (roundUp bs.length 64 - bs.length) 0
    let x := hbmWrite s [] Reader.traffic (g.base + ieField raw 8 8) data
    settleTraffic x.evs x.s
  | none => s

/-- The bytes of HBM that an entry's sample reaches. -/
def sampleReach (raw : List Byte) (s : State) : List (Nat × Nat) :=
  match region? s (ieField raw 0x15 1) with
  | some g => [(g.base + ieField raw 8 8, roundUp (ieField raw 0x10 4) 64)]
  | none => []

/-- An entry that leaves the transfer in front: `DONE`, `TOTAL` and, with `INT`, the ring's vector (R345 item 4). -/
def intakeDone (r : Nat) (raw : List Byte) (s : State) : State :=
  let s := setTransfers r ((inTransfer s r).drop 1)
    (incMod (setF s (Reg.ringIdx r) 63 32 ((ringDone s r + 1) % 2 ^ 32)) Reg.itkTotal 47 0 1)
  if ieField raw 0x16 2 % 2 = 1 then emit (.msix (16 + r)) s else s

/-- A read entry that failed its checks comes to the front: now it is the failed entry (R345, R346). -/
def frontCheck (r : Nat) (s : State) : State :=
  match inTransfer s r with
  | e :: _ => if e.ok then s else intakeFail r 2 1 0x0F01 e s
  | [] => s

/-- INTAKE_ENTRY_COMPLETE: the oldest entry in transfer ends, with its sample or with an erroneous completion (R345, R346). -/
def execIntakeEntryComplete (r : Nat) (c : Completion) (s : State) : Host.Outcome State Fault Refusal :=
  .next
    (match inTransfer s r with
     | [] => s
     | e :: _ =>
       if ringErr s r then s
       else match c with
         | .bad => intakeFail r 3 2 0x0F02 e s
         | .data bs =>
           let t := copySample e.raw (bs.take (ieField e.raw 0x10 4)) s
           let x := writeStatus 1 e t
           awaitClock (sampleReach e.raw s) s
             (if x.2 then frontCheck r (intakeDone r e.raw x.1) else intakeStop r 1 0x0F01 x.1))

/-- An intake read that is not answered stops its ring with a DMA error (R346, 15 Table 15-7). -/
def intakeTimeout (r : Nat) (s : State) : State :=
  if ringErr s r then s
  else match inTransfer s r with
    | e :: _ => intakeFail r 3 2 0x0F02 e s
    | [] =>
      if ringPending s r = 0 ∨ !ringEn s r then s
      else intakeFail r 3 2 0x0F02 (entryAt s r (ringDone s r) (unread (ringDone s r)) false) s

/-- An accepted write of `ITK_RING_CFG`: `WINDOW`, `LOG` and `OFFSET` only while `EN` is 0; `EN` rising loads `DONE`;
clearing `ERR` resumes (R344, R346, R347). -/
def ringCfgWrite (r : Nat) (v : W64) (s : State) : State :=
  let a := Reg.ringCfg r
  let was := ringEn s r
  let s := if was then s
    else
      let s := setF (setF s a 53 48 (fld v 53 48)) a 43 12 (fld v 43 12)
      if fld v 47 44 ≤ 12 then setF s a 47 44 (fld v 47 44) else s
  let s := if fld v 62 62 = 1 then setF (setB s a 62 false) a 61 59 0 else s
  let s := setB s a 63 (fld v 63 63 == 1)
  if !was && fld v 63 63 == 1 then setF s (Reg.ringIdx r) 63 32 (ringTail s r) else s

/-- An accepted write of `TAIL` (R344). -/
def tailWrite (r : Nat) (v : W64) (s : State) : State := overrunCheck r (setF s (Reg.ringIdx r) 31 0 (fld v 31 0))

end Sys2Proof.Machine
end

