-- ==== Sys2Proof/Machine/Operands.lean ====
section
/-! DEFINITION. The fields of a Timetable entry (03 Tables 03-7 to 03-10), tensor descriptors (09 Table 09-1), their
geometry (09 R196 to R200, 04 R86, R87), and element codes as values (06 R123, R124). -/

namespace Sys2Proof.Machine

/-! ## Entry fields -/

def Entry.op (e : Entry) : Nat := fld e.w0 7 0
def Entry.waitEn (e : Entry) : Bool := fld e.w0 8 8 == 1
def Entry.postEn (e : Entry) : Bool := fld e.w0 9 9 == 1
def Entry.fence (e : Entry) : Bool := fld e.w0 10 10 == 1
def Entry.longSum (e : Entry) : Bool := fld e.w0 11 11 == 1
def Entry.keepDest (e : Entry) : Bool := fld e.w0 12 12 == 1
def Entry.tagged (e : Entry) : Bool := fld e.w0 13 13 == 1
def Entry.waitPass (e : Entry) : Nat := fld e.w0 30 16
def Entry.waitCount (e : Entry) : Nat := fld e.w0 47 32
def Entry.postPass (e : Entry) : Nat := fld e.w0 62 48
def Entry.postCount (e : Entry) : Nat := fld e.w1 15 0
def Entry.postSpan (e : Entry) : Nat := fld e.w1 21 16
def Entry.waitLimit (e : Entry) : Nat := fld e.w1 39 24
def Entry.tensorId (e : Entry) : Nat := fld e.w1 55 40
def Entry.subop (e : Entry) : Nat := fld e.w1 63 56
def Entry.subBit (e : Entry) (i : Nat) : Bool := bit e.subop i
def Entry.descA (e : Entry) : Nat := fld e.w2 19 0
def Entry.descB (e : Entry) : Nat := fld e.w2 39 20
def Entry.descC (e : Entry) : Nat := fld e.w2 59 40
def Entry.skipLen (e : Entry) : Nat := fld e.w3 43 16
def Entry.bucket (e : Entry) : Nat := fld e.w3 9 6
def Entry.mbSlot (e : Entry) : Nat := fld e.w3 5 0
def Entry.maskDesc (e : Entry) : Nat := fld e.w3 47 28
def Entry.drainProg (e : Entry) : Nat := fld e.w3 27 20
def Entry.drain (e : Entry) : Bool := fld e.w3 12 12 == 1
def Entry.accInit (e : Entry) : Bool := fld e.w3 11 11 == 1
def Entry.zeroSkip (e : Entry) : Bool := fld e.w3 10 10 == 1
def Entry.gang (e : Entry) : Nat := fld e.w3 9 8
def Entry.bFmt (e : Entry) : Nat := fld e.w3 7 4
def Entry.aFmt (e : Entry) : Nat := fld e.w3 3 0
def Entry.updateMode (e : Entry) : Nat := fld e.w3 11 10
def Entry.prog (e : Entry) : Nat := fld e.w3 7 0
def Entry.inPlace (e : Entry) : Bool := fld e.w3 26 26 == 1
/-- Source dimension of destination dimension `d`. -/
def Entry.perm (e : Entry) (d : Nat) : Nat := fld e.w3 (10 + 3 * d) (8 + 3 * d)
def Entry.coreGroup (e : Entry) : Nat := fld e.w3 7 0
def Entry.descD (e : Entry) : Nat := fld e.w3 49 30
def Entry.capacity (e : Entry) : Nat := fld e.w3 29 14
/-- Expert count (the field holds it minus 1). -/
def Entry.experts (e : Entry) : Nat := fld e.w3 13 4 + 1
def Entry.topk (e : Entry) : Nat := fld e.w3 3 0
def Entry.transit (e : Entry) : Nat := fld e.w3 19 16
def Entry.window (e : Entry) : Nat := fld e.w3 15 4
def Entry.divide (e : Entry) : Bool := fld e.w3 2 2 == 1
def Entry.ring (e : Entry) : Nat := fld e.w3 1 0

/-- The id that means no descriptor. -/
def noDesc : Nat := 0xFFFFF

/-- An entry from its 32 bytes (03 R49). -/
def entryOf (bs : List Byte) : Entry :=
  let w := fun i => BitVec.ofNat 64 (leNat ((bs.drop (8 * i)).take 8))
  { w0 := w 0, w1 := w 1, w2 := w 2, w3 := w 3 }

/-! ## Descriptors -/

/-- A little-endian field of `n` bytes at `o`. -/
def leAt (bs : List Byte) (o n : Nat) : Nat := leNat ((bs.drop o).take n)

/-- A descriptor from its 64 bytes (09 Table 09-1). -/
def descOf (bs : List Byte) : Desc :=
  let up := leAt bs 6 2
  let ax := leAt bs 0x10 4
  { offset := leAt bs 0 6, unit := bits up 11 0, place := bits up 15 14, indexBase := leAt bs 8 5
    fmt := bits (leAt bs 0xD 1) 3 0, layout := bits (leAt bs 0xD 1) 5 4, scaleId := leAt bs 0xE 2
    aux := bits ax 19 0, rank := bits ax 22 20
    extent := (List.range 6).map fun i => leAt bs (0x14 + 4 * i) 4
    stride := 0 :: (List.range 5).map fun i => leAt bs (0x2C + 4 * i) 4 }

/-- Reserved bits of a descriptor are 0 (09 Table 09-4 check 1). -/
def descReservedOk (bs : List Byte) : Bool :=
  decide (bits (leAt bs 6 2) 13 12 = 0 ∧ bits (leAt bs 0xD 1) 7 6 = 0 ∧ bits (leAt bs 0x10 4) 31 23 = 0)

/-- Width of an element in bits (09 Table 09-2). -/
def widthOf (f : Nat) : Nat :=
  if f = 0 ∨ f = 1 ∨ f = 4 ∨ f = 5 ∨ f = 9 then 8
  else if f = 2 ∨ f = 6 then 4
  else if f = 3 ∨ f = 10 then 16
  else if f = 7 ∨ f = 11 then 32
  else if f = 8 then 1
  else 64

/-- A value format, 0x0 to 0x7 (09 R462). -/
def isValueFmt (f : Nat) : Bool := decide (f ≤ 7)

/-- Extent of dimension `i`, 1 at and above the rank. -/
def Desc.dim (d : Desc) (i : Nat) : Nat := if i < d.rank then nth d.extent i else 1

/-- Rows of dimension 0. -/
def Desc.rows (d : Desc) : Nat := d.dim 1 * d.dim 2 * d.dim 3 * d.dim 4 * d.dim 5

/-- Elements. -/
def Desc.count (d : Desc) : Nat := d.dim 0 * d.rows

/-- Indices of dimensions 1 to 5 of row `r`, dimension 1 fastest (09 R197). -/
def Desc.rowIdx (d : Desc) (r : Nat) : List Nat :=
  let r2 := r / d.dim 1
  let r3 := r2 / d.dim 2
  let r4 := r3 / d.dim 3
  [r % d.dim 1, r2 % d.dim 2, r3 % d.dim 3, r4 % d.dim 4, r4 / d.dim 4 % d.dim 5]

/-- Row number of indices of dimensions 1 to 5. -/
def Desc.rowOfIdx (d : Desc) (ix : List Nat) : Nat :=
  nth ix 0 + d.dim 1 * (nth ix 1 + d.dim 2 * (nth ix 2 + d.dim 3 * (nth ix 3 + d.dim 4 * nth ix 4)))

/-- Bytes of a row of `n` elements of width `b`. -/
def rowBytesOf (n b : Nat) : Nat := (n * b + 7) / 8

/-- Bytes of a row (09 R196). -/
def Desc.rowBytes (d : Desc) : Nat := rowBytesOf (d.dim 0) (widthOf d.fmt)

/-- Byte offset of row `r` in the place, plain layout (09 R196). -/
def Desc.rowOff (d : Desc) (r : Nat) : Nat :=
  let ix := d.rowIdx r
  d.offset + 64 * (List.range 5).foldl (fun a i => a + nth ix i * nth d.stride (i + 1)) 0

/-- K indices per K-step (04 Table 04-1). -/
def kPer (f : Nat) : Nat := if f = 2 ∨ f = 6 then 4 else if f = 3 then 1 else 2

/-- K-steps of a reduction dimension (04 R87). -/
def kSteps (f k : Nat) : Nat := ceilDiv k (kPer f)

/-- 64-row groups of a feed operand (09 R198). -/
def Desc.feedGroups (d : Desc) : Nat := ceilDiv (d.dim 1) 64

/-- Bytes of one product in feed layout (09 R198, R199). -/
def Desc.product (d : Desc) : Nat :=
  if d.fmt = 9 then d.feedGroups * ceilDiv (d.dim 0) 32 * 64 else d.feedGroups * kSteps d.fmt (d.dim 0) * 128

/-- Length of the span (09 R196, R198, R200). -/
def Desc.spanLen (d : Desc) : Nat :=
  if d.layout = 1 then (d.dim 2 - 1) * nth d.stride 2 * 64 + d.product
  else if d.layout = 2 then d.dim 0
  else d.rowOff (d.rows - 1) + d.rowBytes - d.offset

/-- Byte of the product and nibble of element (row, k) in feed layout (04 R86). -/
def feedPos (d : Desc) (row k : Nat) : Nat × Nat :=
  let g := row / 64
  let r := row % 64
  if d.fmt = 9 then ((g * ceilDiv (d.dim 0) 32 + k) * 64 + r, 0)
  else
    let t := k / kPer d.fmt
    let o := (g * kSteps d.fmt (d.dim 0) + t) * 128 + 2 * r
    if kPer d.fmt = 2 then (o + k % 2, 0) else if kPer d.fmt = 4 then (o + k % 4 / 2, k % 2) else (o, 0)

/-! ## Codes in bytes -/

/-- Element `i` of packed bytes of width `b` (09 R196: low nibble first, bit i mod 8). -/
def codeAt (b : Nat) (bs : List Byte) (i : Nat) : Nat :=
  if b = 4 then (bs.getD (i / 2) 0).toNat / 16 ^ (i % 2) % 16
  else if b = 1 then (bs.getD (i / 8) 0).toNat / 2 ^ (i % 8) % 2
  else leAt bs (i * (b / 8)) (b / 8)

/-- The first `n` codes of packed bytes. -/
def unpackCodes (b n : Nat) (bs : List Byte) : List Nat := (List.range n).map (codeAt b bs)

/-- Pack codes of width `b` into bytes; free bits of the last byte are 0. -/
def packCodes (b : Nat) (cs : List Nat) : List Byte :=
  if b = 4 then (chunks 2 cs).map fun c => BitVec.ofNat 8 (nth c 0 % 16 + 16 * (nth c 1 % 16))
  else if b = 1 then (chunks 8 cs).map fun c =>
    BitVec.ofNat 8 ((List.range 8).foldl (fun a i => a + nth c i % 2 * 2 ^ i) 0)
  else (cs.map (leBytes (b / 8))).flatten

/-! ## Codes as values (06 R123, R124) -/

/-- The value of a code: `sc` is the scale exponent, `x` the block scale of an MX element. A scaled value
beyond FP32 is kept exact. DESIGN CHOICE: log entry 145. -/
def codeVal (f : Nat) (sc : Int) (x c : Nat) : Val :=
  if isMx f then mxRead f x c
  else if isScaled f then Val.scale (decodeElem f c) (-sc)
  else decodeElem f c

/-- The code that a write of `v` stores, for a format that is not MX. -/
def valCode (f : Nat) (sc : Int) (v : Val) : Enc := encode f (if isScaled f then Val.scale v sc else v)

/-- The positive zero code's bytes are 0x00 in every format. -/
def zeroCodes (n : Nat) : List Nat := List.replicate n 0

end Sys2Proof.Machine
end

