-- ==== Sys2Proof/Machine/Mailbox.lean ====
section
/-! DEFINITION. Mailboxes and the step doorbell (16). -/

namespace Sys2Proof.Machine

/-! ## Parties (16 Table 16-2, R362, R363) -/

/-- Identities allowed for a channel's kind: word-queue channels (56 up) do not join DBG. -/
def partyOk (ch id : Nat) : Bool :=
  [0x01, 0x10, 0x11, 0x20].contains id || (decide (ch < 56) && id == 0x7F)

/-- A binding that names MGT0 or MGT1 matches both (R363). -/
def partyIs (id : Nat) (m : Master) : Bool := masterId m == id || (isMgt m && (id == 0x10 || id == 0x11))

/-- Fields of binding `ch`. -/
def bindValid (s : State) (ch : Nat) : Bool := getB s (Reg.bind ch) 63
def bindSender (s : State) (ch : Nat) : Nat := getF s (Reg.bind ch) 15 8
def bindReceiver (s : State) (ch : Nat) : Nat := getF s (Reg.bind ch) 7 0

/-- Deliver an arrival (0) or empty (1) event of channel `ch` to party `id` (R369, Table 16-2). -/
def partyEvent (ch e id : Nat) (s : State) : State :=
  if id = 0x01 then emit (.msix (64 + 2 * ch + e)) s
  else if id = 0x10 ∨ id = 0x11 then emit (.mgtLine (2 * ch + e)) s
  else if id = 0x20 then emit (.secLine (2 * ch + e)) s
  else s

/-- An on-chip master receives an error response; the host does not (R364). -/
def errorTo (m : Master) (s : State) : State := if m = .host then s else emit (.errorResponse m) s

/-- An access that does not match the binding (R364). -/
def mailDenied (m : Master) (write : Bool) (s : State) : State :=
  let s := alert 0x1002 (setInt .mbx 0 9 (incSat s Reg.mbxStatus 47 32 1))
  if write then errorTo m s else emit (.read 0) s

/-- An access that is not a single aligned 64-bit access (R361). -/
def mailMalformed (write : Bool) (s : State) : State :=
  let s := alert 0x1003 (incSat s Reg.mbxStatus 31 16 1)
  if write then s else emit (.read 0) s

/-- Outcome of a write to a full channel, less the channel's own log (R367, 15 Table 15-7). -/
def mailFull (m : Master) (s : State) : State :=
  let s := alert 0x1001 (setInt .mbx 0 8 s)
  if m = .host then emit (.aer 0) s else emit (.errorResponse m) s

/-- A core held in reset after its fault is refused (17 R376). -/
def coreRefused (m : Master) (write : Bool) (s : State) : State :=
  let s := emit (.errorResponse m) s
  if write then s else emit (.read 0) s

/-! ## Notice channels -/

/-- What an unlisted notice channel holds: nothing. -/
def noNotice : Nat → Notice := fun _ => {}

def notice (s : State) (ch : Nat) : Notice := cellGet noNotice s.notices ch

/-- Accepted `MB_TX`: the notice and its stamp are stored; `SENT` counts modulo 2^24 (R365, R369). -/
def mbAccept (m : Master) (ch : Nat) (v : W64) (s : State) : State :=
  let s := { s with notices := cellSet noNotice s.notices ch { full := true, value := v, stamp := BitVec.ofNat 8 (masterId m) } }
  partyEvent ch 0 (bindReceiver s ch) (incMod s (Reg.mbStatus ch) 23 0 1)

/-- Rejected `MB_TX` (R367). -/
def mbReject (m : Master) (ch : Nat) (v : W64) (s : State) : State :=
  let a := Reg.mbStatus ch
  let s' := incSat s a 47 32 1
  let s' := if getB s a 62 then s'
    else setB (setF (rset s' (Reg.mbRejLog ch) v) a 31 24 (masterId m)) a 62 true
  mailFull m s'

/-- A write of `MB_TX` (16 R365). -/
def execMbTx (m : Master) (ch : Nat) (v : W64) (ok : Bool) (s : State) : Host.Outcome State Fault Refusal :=
  .next
    (if refusedMaster s m then coreRefused m true s
     else if !ok then mailMalformed true s
     else if !(bindValid s ch && partyIs (bindSender s ch) m) then mailDenied m true s
     else if (notice s ch).full then mbReject m ch v s
     else mbAccept m ch v s)

/-- The receiver's read of `MB_RX` (16 R365). -/
def execMbRx (m : Master) (ch : Nat) (ok : Bool) (s : State) : Host.Outcome State Fault Refusal :=
  .next
    (if refusedMaster s m then coreRefused m false s
     else if !ok then mailMalformed false s
     else if !(bindValid s ch && partyIs (bindReceiver s ch) m) then mailDenied m false s
     else if (notice s ch).full then
       partyEvent ch 1 (bindSender s ch)
         (emit (.read (notice s ch).value) { s with notices := cellSet noNotice s.notices ch {} })
     else emit (.read 0) s)

/-! ## Word-queue channels -/

/-- What an unlisted word-queue channel holds: nothing. -/
def noWord : Nat → WordCh := fun _ => {}

def wordCh (s : State) (ch : Nat) : WordCh := cellGet noWord s.words ch

/-- The side of a master: `some true` party A, `some false` party B; an exact identity decides first. -/
def wordSide (s : State) (ch : Nat) (m : Master) : Option Bool :=
  if !bindValid s ch then none
  else if masterId m = bindSender s ch then some true
  else if masterId m = bindReceiver s ch then some false
  else if partyIs (bindSender s ch) m then some true
  else if partyIs (bindReceiver s ch) m then some false
  else none

def WordCh.side (w : WordCh) (a : Bool) : WordSide := if a then w.a else w.b
def WordCh.setSide (w : WordCh) (a : Bool) (x : WordSide) : WordCh := if a then { w with a := x } else { w with b := x }

/-- Store a word-queue channel. -/
def setWord (ch : Nat) (w : WordCh) (s : State) : State := { s with words := cellSet noWord s.words ch w }

/-- The identity bound to a side. -/
def sideId (s : State) (ch : Nat) (a : Bool) : Nat := if a then bindSender s ch else bindReceiver s ch

/-- A write of `WQ_TX` (16 R366, R367). -/
def execWqTx (m : Master) (ch : Nat) (v : W64) (ok : Bool) (s : State) : Host.Outcome State Fault Refusal :=
  .next
    (if refusedMaster s m then coreRefused m true s
     else if !ok then mailMalformed true s
     else match wordSide s ch m with
       | none => mailDenied m true s
       | some a =>
         let w := wordCh s ch
         let x := w.side a
         if 16 ≤ x.out.length then
           let x := { x with rejects := satAdd 16 x.rejects 1, rejLog := if x.overrun then x.rejLog else v, overrun := true }
           mailFull m (setWord ch (w.setSide a x) s)
         else
           let s' := setWord ch (w.setSide a { x with out := x.out ++ [(v, BitVec.ofNat 8 (masterId m))] }) s
           if x.out.length = 0 then partyEvent ch 0 (sideId s ch !a) s' else s')

/-- A read of `WQ_RX` (16 R366). -/
def execWqRx (m : Master) (ch : Nat) (ok : Bool) (s : State) : Host.Outcome State Fault Refusal :=
  .next
    (if refusedMaster s m then coreRefused m false s
     else if !ok then mailMalformed false s
     else match wordSide s ch m with
       | none => mailDenied m false s
       | some a =>
         let w := wordCh s ch
         let y := w.side !a
         match y.out with
         | [] => emit (.read 0) (setWord ch (w.setSide a { w.side a with emptyRead := true }) s)
         | (v, _) :: t =>
           let s' := emit (.read v) (setWord ch (w.setSide (!a) { y with out := t }) s)
           if t = [] then partyEvent ch 1 (sideId s ch !a) s' else s')

/-! ## Bindings -/

/-- Empty a channel and clear its status fields and logs (16 R362). -/
def clearChannel (ch : Nat) (s : State) : State :=
  rset (rset { s with notices := cellSet noNotice s.notices ch {}, words := cellSet noWord s.words ch {} }
    (Reg.mbStatus ch) 0) (Reg.mbRejLog ch) 0

/-- A binding write by a management core while `BIND` is clear (16 R362). -/
def bindWrite (ch : Nat) (v : W64) (s : State) : State :=
  let snd := fld v 15 8
  let rcv := fld v 7 0
  let entry := BitVec.ofNat 64 (fld v 63 63 * 2 ^ 63 + snd * 2 ^ 8 + rcv)
  if getB s (Reg.lock .mbx 0) 0 then s
  else if fld v 63 63 = 0 then rset s (Reg.bind ch) entry
  else
    let refuse := fun (r : Nat) =>
      alert 0x1004 (setF (setF (setB s Reg.mbxStatus 63 true) Reg.mbxStatus 62 60 r) Reg.mbxStatus 59 54 ch)
    if !(partyOk ch snd && partyOk ch rcv) then refuse 1
    else if snd = rcv then refuse 2
    else clearChannel ch (rset s (Reg.bind ch) entry)

/-! ## The step doorbell -/

/-- The host writes the step doorbell (16 R371, R372, 03 R62). -/
def execDbStep (m : Master) (v : W64) (ok : Bool) (s : State) : Host.Outcome State Fault Refusal :=
  .next
    (if refusedMaster s m then coreRefused m true s
     else if !ok then mailMalformed true s
     else if m ≠ .host then mailDenied m true s
     else if s.slot.isSome then
       mailFull m (setB (incSat s Reg.dbStatus 47 32 1) Reg.dbStatus 62 true)
     else
       let s := setF (setF (setB s Reg.dbStatus 63 true) Reg.dbStatus 48 48 (fld v 0 0)) Reg.dbStatus 31 0 (fld v 63 32)
       { s with slot := some { word := v, ws := none } })

end Sys2Proof.Machine
end

