-- ==== Sys2Proof/Machine/View.lean ====
section
/-! DEFINITION. What a register read shows: the register's stored value, or a view computed from the state that the
register names (20 R425 to R432, R442, R443; 05 Table 05-10; 06 Table 06-15; 16 Tables 16-4 to 16-6). -/

namespace Sys2Proof.Machine

/-! ## Domains and units -/

/-- The page's power domain is off (18 Tables 18-1, 18-2, R396, R400). DEDUCED: log entry 15. -/
def domainOff (s : State) (t : Blk) : Bool :=
  let p := pwrState s
  match t with
  | .dst | .core | .jnc | .mov | .rng | .rcl | .hpb | .hbs | .hbc | .nlp => p == 2 || p == 3 || s.mgt.tripped
  | .glb | .hif | .mbx | .mgt | .itk | .dbg => p == 3

/-- An instance that serves logical unit `l` (20 R431). -/
def serves (s : State) (t : Blk) (l i : Nat) : Bool :=
  getB s (Reg.blkCtrl t i) 63 && getB s (Reg.blkCtrl t i) 40 && getF s (Reg.blkCtrl t i) 39 32 == l

/-- The physical instance of a logical core, Junction engine or bank. -/
def physOf (s : State) (t : Blk) (l : Nat) : Option Nat := (List.range (built t)).find? (serves s t l)

/-- The block of a stream kind (03 Table 03-2). -/
def kindBlk (k : Nat) : Blk := if k = 0 then .core else if k = 1 then .jnc else if k = 2 then .mov else .rng

/-- The physical instance of a stream's unit: movers and ring engines are their own. -/
def streamInst (s : State) (x : Stream) : Nat :=
  if x.kind ≤ 1 then (physOf s (kindBlk x.kind) x.unit).getD 0 else x.unit

/-- An entry of a stream is in progress in the instance. -/
def entryBusy (s : State) (t : Blk) (i : Nat) : Bool :=
  s.streams.any fun x => decide (kindBlk x.kind = t) && (x.inflight.any fun f => !f.done) && streamInst s x == i

/-- A block reset of the instance runs (19 R421). -/
def resetRuns (s : State) (t : Blk) (i : Nat) : Bool :=
  getB s Reg.resetStatus 62 && blkOf (getF s Reg.resetCtrl 27 24) == t && getF s Reg.resetCtrl 15 0 == i

/-- An entry or a request is in progress in the instance (20 Table 20-8 `BUSY`): an entry, a transfer of a ring engine, the flits
of a port, an open, a card, a waiting access of the host, packets behind a pseudo-channel's stopped clock, a rebuild, an intake
entry, a fill, a validation, a securing pass, a phase of a restart that the device carries
on, a flash operation, a burn, a power sequence, a debug access, a block reset. DEDUCED: log entry 154. -/
def unitBusy (s : State) (t : Blk) (i : Nat) : Bool :=
  resetRuns s t i ||
  match t with
  | .core | .jnc | .mov => entryBusy s t i
  | .rng =>
    let g := s.rings.getD i {}
    entryBusy s t i || !g.sendq.isEmpty || !g.xfers.isEmpty
  | .nlp => !(port s i).txq.isEmpty || !(port s i).rxq.isEmpty || getB s (Reg.underpass i) 1
  | .hif => !s.cards.isEmpty || !s.heldHost.isEmpty
  | .hbc => (crossingAt s .hbc i).wake || s.unbuilt.contains i
  | .itk => s.intake.any fun c => !c.2.isEmpty
  | .mgt => s.mgt.flashOp.isSome || s.mgt.burning.isSome || s.power.seq != .none
  | .dbg => getB s Reg.dbgCtrl 62
  | .glb => getB s Reg.regionInit 62 || jobState s == 1 || getB s Reg.lockerState 61 || [1, 2, 4, 6].contains (phase s)
  | .dst | .hbs | .mbx | .rcl | .hpb => false

/-- The built spares of a type (20 R432). -/
def builtSpare (t : Blk) (i : Nat) : Bool :=
  match t with
  | .core => decide (32 ≤ i % 34)
  | .jnc => i % 9 == 8
  | .hpb => i == 32
  | _ => false

/-- `BLK_STATUS` (20 Table 20-8): `LOST` and `DRAINED` are stored. -/
def statusView (s : State) (t : Blk) (i : Nat) : W64 :=
  let v := rget s (Reg.blkStatus t i)
  let v := setFld v 62 62 (b2n (builtSpare t i && getB s (Reg.blkCtrl t i) 40))
  let v := setFld v 61 61 (b2n (!domainOff s t))
  setFld v 59 59 (b2n (unitBusy s t i))

/-- `BLK_ID` (20 Table 20-4); an alias shows its own instance number (R438). -/
def idView (s : State) (t : Blk) (i : Nat) : W64 :=
  BitVec.ofNat 64 (i * 2 ^ 32 + blkCode t * 2 ^ 24 + i % 256 * 2 ^ 16 + s.mgt.fuses.revision % 2 ^ 16)

/-- `BLK_CAP` (20 Table 20-5). -/
def capView (t : Blk) : W64 := BitVec.ofNat 64 (built t * 2 ^ 16 + capDetail t)

/-! ## Passes (20 Table 20-14) -/

/-- Field [hi:lo] of word W0 of an entry. -/
def waitPassOf (e : Entry) : Nat := fld e.w0 30 16

/-- A stream waits on a system pass: on 0x7F00 at the end of its set phase, and `UPDATE_BEGIN` on 0x7F01 and 0x7F02 (03 Table
03-13). -/
def sysBlocked (s : State) (x : Stream) (p : Nat) : Bool :=
  stepRuns s &&
  (if p = 0x7F00 then !s.step.setOpen && x.setDone
   else if p = 0x7F01 then s.step.setOpen && x.nextOp == 3 && !s.step.decided
   else p == 0x7F02 && s.step.setOpen && x.nextOp == 3 && s.step.decided && !secReleased s)

/-- A wait on pass `p` is blocked now. -/
def passBlocked (s : State) (p : Nat) : Bool :=
  s.streams.any fun x => sysBlocked s x p || x.blocked && (match x.entries[x.pos]? with
    | some e => waitPassOf e == p
    | none => false)

/-- Count word p of bank instance `i`; an unmapped instance holds no counts (20 R442). DEDUCED: log entry 94. -/
def passView (s : State) (i p : Nat) : W64 :=
  let l := getF s (Reg.blkCtrl .hpb i) 39 32
  if getB s (Reg.blkCtrl .hpb i) 40 then
    let id := l * 1024 + p
    BitVec.ofNat 64 (b2n (passBlocked s id) * 2 ^ 63 + cellGet noWaiter s.waiters id * 2 ^ 32 + cellGet noNat s.passes id)
  else BitVec.ofNat 64 (0xFFFF * 2 ^ 32)

/-! ## Stash, census, crossings -/

/-- Blocks in use at a stash level. -/
def levelUse (s : State) (lv : Nat) : Nat :=
  s.stash.foldl (fun n r => n + (r.blocks.filter fun b => b.1 == lv).length) 0

/-- Records held: an exhausted record holds none (05 R113, Table 05-11). -/
def recordsHeld (s : State) : Nat := (s.stash.filter fun r => !r.exhausted).length

/-- `GLB_STASH_USE` (05 Table 05-10). -/
def stashUseView (s : State) : W64 :=
  BitVec.ofNat 64 (levelUse s 2 % 2 ^ 21 * 2 ^ 42 + levelUse s 1 % 2 ^ 21 * 2 ^ 21 + levelUse s 0 % 2 ^ 21)

/-- `RCL_TENSOR_COUNT0` to `3` of the selected id in the snapshot (06 Table 06-15). -/
def countView (s : State) (d k : Nat) : W64 :=
  let c := cellGet noCounts s.census.snap (getF s (Reg.rclSel d) 11 0)
  BitVec.ofNat 64
    (if k = 0 then c.elements else if k = 1 then c.zeros
     else if k = 2 then c.saturations % 2 ^ 32 * 2 ^ 32 + c.flushes % 2 ^ 32
     else c.nonfinite % 2 ^ 32 * 2 ^ 32 + c.amax.toNat)

/-- `RCL_SILENT` with the run counter of the selected id (06 Table 06-14). -/
def silentView (s : State) (d : Nat) : W64 :=
  setFld (rget s (Reg.rclSilent d)) 31 16 (cellGet noNat s.census.runs (getF s (Reg.rclSel d) 11 0))

/-- The flits of a port's crossing: core to domain, or domain to core (02 Table 02-5). -/
def portFlits (s : State) (p : Nat) (toCore : Bool) : List Flit := if toCore then (port s p).rxq else (port s p).txq

/-- Lanes of a crossing FIFO word by `TYPE` (20 Table 20-15, 02 Table 02-5); 0 for an unlisted type. -/
def fifoLanes (ty : Nat) : Nat := if ty = 6 then 4 else if ty = 7 then 32 else if ty = 10 then 8 else if ty = 12 then 1 else 0

/-! ## Ring engines -/

/-- An opcode of the ring engines' own entries (13 Table 13-6). -/
def ringOp (op : Nat) : Bool := decide (0x50 ≤ op ∧ op ≤ 0x55)

/-- Whether the running step's `STEP_READY` has come, among the steps held (13 Table 13-12). -/
def readyNow (s : State) (ms : List Nat) : Bool := s.step.active && ms.contains s.step.ws.step

/-- `RNG_STATUS` (13 Table 13-12): `PHASE` and `ENTRY` of the oldest ring entry in flight, and the readiness of both peers for
the running step. DEDUCED: log entry 67. -/
def ringStatusView (s : State) (r : Nat) : W64 :=
  let g := s.rings.getD r {}
  let v := setFld (setFld (rget s (reg .rng r 0x108)) 59 59 (b2n (readyNow s g.readyUp))) 58 58 (b2n (readyNow s g.readyDown))
  match (s.streams.find? fun x => x.kind == 3 && x.unit == r).bind fun x =>
      x.inflight.find? fun f => (x.entries[f.idx]?).any fun e => ringOp (fld e.w0 7 0) with
  | some f =>
    let ph := match (s.rings.getD r {}).colls.find? (fun (c : Coll) => c.idx == f.idx) with
      | some c => c.phase + 1
      | none => match (s.streams.find? fun x => x.kind == 3 && x.unit == r).bind fun x => x.entries[f.idx]? with
        | some e => if fld e.w0 7 0 = 0x54 ∨ fld e.w0 7 0 = 0x55 then 5 else 0
        | none => 0
    setFld (setFld v 63 60 ph) 31 4 f.idx
  | none => v

/-! ## Management views -/

/-- `MGT_BOOT_STATUS` with the fused version (17 Table 17-5). -/
def bootView (s : State) : W64 := setFld (rget s Reg.bootStatus) 45 40 s.mgt.fuses.svn

/-- `MGT_THERMAL` with the fused levels. -/
def thermalView (s : State) : W64 :=
  setFld (setFld (rget s Reg.thermal) 39 32 s.mgt.fuses.stage1) 31 24 s.mgt.fuses.stage2

/-- `MGT_POWER` with the fused ceiling (18 Table 18-8). -/
def powerView (s : State) : W64 := setFld (rget s Reg.power) 47 32 s.mgt.fuses.ceil

/-- `GLB_BRINGUP` with `BOUND` (19 Table 19-4). -/
def bringupView (s : State) : W64 := setFld (rget s Reg.bringup) 60 60 (getF s (Reg.lock .mbx 0) 0 0)

/-! ## One register -/

/-- What the page's own registers show at an offset. -/
def pageView (s : State) (t : Blk) (i off : Nat) : W64 :=
  let stored := rget s (reg t i off)
  match t with
  | .glb => if off = 0x310 then stashUseView s
            else if off = 0x318 then setFld stored 15 0 (recordsHeld s)
            else if off = 0x2E0 then bringupView s
            else stored
  | .hpb => if 0x1000 ≤ off ∧ off < 0x3000 then passView s i ((off - 0x1000) / 8) else stored
  | .rcl => if 0x120 ≤ off ∧ off < 0x140 then countView s i ((off - 0x120) / 8)
            else if off = 0x118 then silentView s i
            else stored
  | .rng => if off = 0x108 then ringStatusView s i else stored
  | .mgt => if off = 0x110 then bootView s
            else if off = 0x118 then thermalView s
            else if off = 0x220 then powerView s
            else stored
  | _ => stored

/-- The value a read of a page's register shows, without side effects (20 R396 through R396 of 18, R428 to R432). -/
def regView (s : State) (t : Blk) (i off : Nat) : W64 :=
  if off = 0 then idView s t i
  else if domainOff s t || off % 8 ≠ 0 then 0
  else if off = 8 then capView t
  else if off = 0x18 then statusView s t i
  else pageView s t i off

/-! ## BAR2 (16 Tables 16-4 to 16-6) -/

/-- `MB_STATUS` of a notice channel. -/
def mbStatusView (s : State) (ch : Nat) : W64 :=
  let n := notice s ch
  setFld (setFld (rget s (Reg.mbStatus ch)) 63 63 (b2n n.full)) 55 48 (if n.full then n.stamp.toNat else 0)

/-- `WQ_STATUS` as one side sees it: its outgoing side `x` and its incoming side `y`. -/
def wqStatusOf (x y : WordSide) : W64 :=
  BitVec.ofNat 64 (b2n x.overrun * 2 ^ 63 + b2n x.emptyRead * 2 ^ 62 + y.out.length * 2 ^ 48 + x.out.length * 2 ^ 40 +
    (match y.out with
     | (_, st) :: _ => st.toNat
     | [] => 0) * 2 ^ 32 + x.rejects % 2 ^ 16 * 2 ^ 16)

/-- `WQ_STATUS` as a master sees it; a master that is no party sees party A's view. -/
def wqStatusView (s : State) (ch : Nat) (m : Master) : W64 :=
  let a := (wordSide s ch m).getD true
  wqStatusOf ((wordCh s ch).side a) ((wordCh s ch).side !a)

end Sys2Proof.Machine
end

