-- ==== Sys2Proof/Machine/Seq.lean ====
section
/-! DEFINITION. Sequencers and hall passes (03 R50 to R60): streams, posts, and the faults of the banks. -/

namespace Sys2Proof.Machine

/-- Stream `i` of the stream table. -/
def streamAt (s : State) (i : Nat) : Option Stream := s.streams[i]?

/-- Replace stream `i`. -/
def setStream (i : Nat) (x : Stream) (s : State) : State := { s with streams := s.streams.set i x }

/-- Change stream `i`, if there is one. -/
def modStream (i : Nat) (f : Stream → Stream) (s : State) : State :=
  match streamAt s i with
  | some x => setStream i (f x) s
  | none => s

/-- Stream table index of a logical unit. -/
def streamOf (s : State) (kind unit : Nat) : Option Nat :=
  (List.range s.streams.length).find? fun i =>
    match streamAt s i with
    | some x => x.kind == kind && x.unit == unit
    | none => false

/-- Change the flight of an entry. -/
def modFlight (st idx : Nat) (g : Flight → Flight) (s : State) : State :=
  modStream st (fun x => { x with inflight := x.inflight.map fun f => if f.idx = idx then g f else f }) s

/-- Entry `i` of a stream. -/
def Stream.entry? (x : Stream) (i : Nat) : Option Entry := x.entries[i]?

/-! ## Passes -/

/-- A system pass (03 R56). -/
def isSys (p : Nat) : Bool := decide (0x7F00 ≤ p)

/-- The physical bank that serves a pass. -/
def bankOf (s : State) (p : Nat) : Nat := (physOf s .hpb (p / 1024)).getD 0

/-- Fill `HPB_FAULT_LOG`, 1 if clear (20 Table 20-13). -/
def hpbLog (inst kind pass st st2 : Nat) (s : State) : State :=
  if getB s (Reg.hpbFaultLog inst) 63 then s
  else rset s (Reg.hpbFaultLog inst)
    (BitVec.ofNat 64 (2 ^ 63 + kind * 2 ^ 60 + pass * 2 ^ 45 + st % 2 ^ 16 * 2 ^ 16 + st2 % 2 ^ 16))

/-- A hard fault of a hall-pass bank; the record names the stream whose post or wait raised it, `st2` for
`PASS_CONTENDED` (03 R59). The record's `DETAIL` carries the pass id. -/
def bankFault (code kind pass st entry st2 : Nat) (s : State) : State :=
  let b := bankOf s pass
  hardFault .hpb (plainRec code 4 .hpb b (if st2 = 0xFFFF then st else st2) entry (stepNo s) pass) (hpbLog b kind pass st st2 s)

/-- Post a system pass: a level (03 R56). -/
def postSys (p : Nat) (s : State) : State :=
  if s.step.sysPasses.contains p then s
  else { s with step := { s.step with sysPasses := p :: s.step.sysPasses } }

/-- Count of a pass. -/
def passCount (s : State) (p : Nat) : Nat := cellGet noNat s.passes p

/-- Set a pass's count. -/
def setPass (p n : Nat) (s : State) : State := { s with passes := cellSet noNat s.passes p n }

/-- Post `n` to pass `p` for entry `entry` of stream `st` (03 R58). -/
def postPass (p n st entry : Nat) (s : State) : State :=
  if 65535 < passCount s p + n then bankFault 0x0303 0 p st entry 0xFFFF s
  else setPass p (passCount s p + n) s

/-- Post an entry's passes (03 Table 03-8 `POST_SPAN`). -/
def postEntry (e : Entry) (st idx : Nat) (s : State) : State :=
  if e.postEn then
    (List.range (e.postSpan + 1)).foldl (fun s k => postPass (e.postPass + k) e.postCount st idx s) s
  else s

/-- Record the first waiter; a second stream's wait raises `PASS_CONTENDED` (03 R59). The flag says whether the wait may
be tested. DEDUCED: log entry 31. -/
def noteWaiter (p st idx : Nat) (s : State) : State × Bool :=
  let w := cellGet noWaiter s.waiters p
  if w = 0xFFFF then ({ s with waiters := cellSet noWaiter s.waiters p st }, true)
  else if w = st then (s, true)
  else (bankFault 0x0304 1 p w idx st s, false)

/-! ## Descriptors of the job -/

/-- Descriptor `id` as validation copied it. DEDUCED: log entry 61. -/
def descAt (s : State) (id : Nat) : Option Desc := (s.job.descs.find? fun p => p.1 == id).map (·.2)

/-- A descriptor of no tensor. -/
def nullDesc : Desc :=
  { offset := 0, unit := 0, place := 0, indexBase := 0, fmt := 0, layout := 0, scaleId := 0xFFFF, aux := noDesc, rank := 1,
    extent := [0, 0, 0, 0, 0, 0], stride := [0, 0, 0, 0, 0, 0] }

/-- Descriptor `id`, or no tensor. -/
def descOr (s : State) (id : Nat) : Desc := (descAt s id).getD nullDesc

/-- First byte beyond a tensor's span, in its place. -/
def Desc.spanEnd (d : Desc) : Nat := d.offset + d.spanLen

/-! ## Mixed slots, departures, tags -/

/-- Groups of a slot. -/
def slotGroups (s : State) (slot : Option Nat) : Mask :=
  match slot with
  | some i => slotMask s.step.ws i
  | none => 0

/-- The epoch tag of a group (08 R181). -/
def epochTag (s : State) (g : Nat) : Nat := stepNo s % 2 ^ 15 * 2 + b2n (!maskHas s.step.maskA g)

/-- Set departure bits (03 R74). -/
def depart (m : Mask) (s : State) : State := { s with step := { s.step with departed := s.step.departed ||| m } }

/-- Opcodes whose ordinary, untagged entries make a slot mixed (14 R318). -/
def mixes (op : Nat) : Bool := [0x10, 0x20, 0x41, 0x42, 0x45].contains op

end Sys2Proof.Machine
end

