-- ==== Sys2Proof/Machine/Rings.lean ====
section
/-! DEFINITION. Ring engines: positions and routes (13 R285 to R287), transfers (R289), the window table and its views
(R292 to R294), and what leaves a device. -/

namespace Sys2Proof.Machine

/-! ## Positions -/

/-- n of ring r. -/
def ringLen (s : State) (r : Nat) : Nat := getF s (Reg.rngPos r) 27 16 + 1
/-- The device's position. -/
def ringPos (s : State) (r : Nat) : Nat := getF s (Reg.rngPos r) 11 0

/-- The role in force of a port: 0 RING, 1 TREE_UP, 2 TREE_DOWN, 3 DISABLED. -/
def portRole (s : State) (p : Nat) : Nat := (port s p).role

/-- The pair of ring r is in the ring role. -/
def inRingRole (s : State) (r : Nat) : Bool := portRole s (2 * r) == 0 && portRole s (2 * r + 1) == 0

/-- The pair is in a tree role. -/
def inTreeRole (s : State) (r : Nat) : Bool :=
  let ok := fun p => portRole s p == 1 || portRole s p == 2
  ok (2 * r) && ok (2 * r + 1)

/-- The port by which a transfer to `dst` leaves; `none`: it stays on the device (13 R286, R287). -/
def routePort (s : State) (r dst : Nat) : Option Nat :=
  if inTreeRole s r then some (2 * r + dst % 2)
  else
    let n := ringLen s r
    let u := (dst + n - ringPos s r % n) % n
    if u = 0 then none else if 2 * u ≤ n then some (2 * r + 1) else some (2 * r)

/-- Position up by one, and down by one. -/
def posUp (s : State) (r : Nat) : Nat := (ringPos s r + 1) % ringLen s r
def posDown (s : State) (r : Nat) : Nat := (ringPos s r + ringLen s r - 1) % ringLen s r

/-! ## Payloads (13 Tables 13-1, 13-2, 13-4) -/

/-- Pad a payload to 240 bytes. -/
def pad240 (bs : List Byte) : List Byte := bs ++ List.replicate (240 - bs.length) 0

/-- The first six bytes of a `HEAD`, `RESP` or `MARKER`. -/
def ringHdr (s : State) (r dst : Nat) : List Byte :=
  leBytes 2 (dst % 4096) ++ leBytes 2 (ringPos s r) ++ leBytes 2 (ringLen s r - 1)

/-- `HEAD` payload. -/
structure Head where
  dst : Nat
  op : Nat
  act : Bool := false
  window : Nat := 0
  epoch : Nat := 0
  xfer : Nat := 0
  length : Nat
  step : Nat
  offset : Nat
  entry : Nat := 0
  phase : Nat := 0

def headPayload (s : State) (r : Nat) (h : Head) : List Byte :=
  pad240 (ringHdr s r h.dst ++ leBytes 1 h.op ++ leBytes 1 (b2n h.act) ++ leBytes 2 h.window ++ leBytes 2 h.epoch ++
    leBytes 2 (h.xfer % 4096) ++ leBytes 2 0 ++ leBytes 4 h.length ++ leBytes 4 h.step ++ leBytes 8 h.offset ++
    leBytes 4 (h.entry % 2 ^ 28 + h.phase * 2 ^ 28))

/-- `MARKER` payload. -/
def markerPayload (s : State) (r dst kind window epoch size : Nat) : List Byte :=
  pad240 (ringHdr s r dst ++ leBytes 1 kind ++ leBytes 1 0 ++ leBytes 2 window ++ leBytes 2 epoch ++
    leBytes 4 (stepNo s) ++ leBytes 8 size)

/-- `RESP` payload. -/
def respPayload (s : State) (r dst status op window epoch xfer length : Nat) : List Byte :=
  pad240 (ringHdr s r dst ++ leBytes 1 status ++ leBytes 1 op ++ leBytes 2 window ++ leBytes 2 epoch ++
    leBytes 2 xfer ++ leBytes 2 0 ++ leBytes 4 length)

/-- Fields common to the three. -/
def plDst (b : List Byte) : Nat := bits (leAt b 0 2) 11 0
def plSrc (b : List Byte) : Nat := bits (leAt b 2 2) 11 0
def plLen (b : List Byte) : Nat := bits (leAt b 4 2) 11 0 + 1

/-- The group tag that a flit carries: `GV`, `TAG`, `GROUP`. -/
structure GTag where
  gv : Bool := false
  tag : Nat := 0
  group : Nat := 0
deriving DecidableEq, Repr

/-- The tag of a group as it stands. -/
def groupTag (s : State) (g : Nat) : GTag := { gv := true, tag := epochTag s g, group := g }

/-- A first flit. -/
def firstFlit (typ cls : Nat) (g : GTag) (payload : List Byte) : Flit :=
  { typ := typ, cls := cls, gv := g.gv, tag := g.tag, group := g.group, payload := payload }

/-- The flits of a transfer (13 R289): its first flit, then `DATA` flits that copy `GV`, `TAG` and `GROUP`. -/
def transferFlits (first : Flit) (data : List Byte) : List Flit :=
  first :: (chunks 240 data).map fun c =>
    { typ := 3, cls := first.cls, gv := first.gv, tag := first.tag, group := first.group,
      len := ceilDiv c.length 16, payload := pad240 c }

/-- Flits of a transfer. -/
def transferSize (t : Transfer) : Nat := 1 + ceilDiv t.data.length 240

/-- Words that flits occupy in a crossing: one each, and one length slot for each packet (02 R32). -/
def crossingWords (q : List Flit) : Nat := q.length + (q.filter fun f => f.typ != 3).length

/-- Words that a Noloc port's crossing to the domain can hold: 80, and four in its fall-through chain (02 Table 02-5, R31).
DEDUCED: log entry 92. -/
def crossingDepth : Nat := 84

/-- The crossing has space for a packet of `n` flits with its length slot; a writer without space waits (02 R29, R31, R33). -/
def crossingRoom (x : Port) (n : Nat) : Bool := decide (crossingWords x.txq + n + 1 ≤ crossingDepth)

/-- Queue a transfer at ring engine r. -/
def queueTransfer (r : Nat) (t : Transfer) (s : State) : State :=
  setRing r { ringAt s r with sendq := (ringAt s r).sendq ++ [t] } s

/-! ## Windows -/

/-- What an unlisted window table entry is: `UNUSED` (13 R292). -/
def noWin : Nat → WinEntry := fun _ => {}
def winOf (s : State) (w : Nat) : WinEntry := cellGet noWin s.job.windows w

/-- An owned window's state: CLOSED, epoch 0 (13 R293). -/
def noOwned : Nat → Owned := fun _ => {}
def ownedOf (s : State) (w : Nat) : Owned := cellGet noOwned s.owned w
def setOwned (w : Nat) (x : Owned) (s : State) : State := { s with owned := cellSet noOwned s.owned w x }

/-- A view before any marker: CLOSED. -/
def noView : Nat → View := fun _ => {}
def viewOf (s : State) (w : Nat) : View := cellGet noView s.views w
def setView (w : Nat) (x : View) (s : State) : State := { s with views := cellSet noView s.views w x }

/-- The owner that a remote entry resolves to (13 Table 13-3 `POS`). -/
def winOwner (s : State) (e : WinEntry) : Nat :=
  if e.kind = 3 then (((ringPos s e.ring : Int) + signed 12 e.pos) % (ringLen s e.ring : Int)).toNat
  else e.pos

/-- The device address of byte `off` of an owned window. -/
def ownedAddr (s : State) (e : WinEntry) (off : Nat) : Nat := (regionRaw s e.region).base + e.offset + off

/-- A window access's refusal: 1 `WINDOW_CLOSED`, 2 `WINDOW_DENIED`, 3 `WINDOW_BOUNDS`; 0 accepted (13 Table 13-5). `ep`:
the epoch that a `HEAD` carries. -/
def ownerCheck (s : State) (w : Nat) (ep : Option Nat) (write act : Bool) (off dataLen wireLen : Nat) : Nat :=
  let e := winOf s w
  let o := ownedOf s w
  let epOk := match ep with
    | some x => decide (x = o.epoch)
    | none => true
  if !(e.kind == 1 && o.isOpen && epOk) then 1
  else if (if write then e.noWrite else e.noRead) || (act != e.stash) then 2
  else if e.size < off + dataLen ∨ (act ∧ wireLen / 72 * 64 ≠ dataLen) then 3
  else 0

/-- The code of a refused access (13 Table 13-15). -/
def refusalCode (status : Nat) : Nat := 0x0D00 + status

/-! ## Sending -/

/-- Entry (stream, index) that sends, as transfers name it. -/
abbrev Sender := Option (Nat × Nat)

/-- Start an access to a remote window: its transfer, its number, and the view's count (13 R289, R294).
DEDUCED: log entry 69. -/
def sendAccess (w op : Nat) (act : Bool) (g : GTag) (off len key : Nat) (data : List Byte) (st idx : Nat) (s : State) :
    State :=
  let e := winOf s w
  let r := e.ring
  let rg := ringAt s r
  let v := viewOf s w
  let h : Head := { dst := winOwner s e, op := op, act := act, window := e.target, epoch := v.epoch, xfer := rg.nextXfer,
                    length := len, step := stepNo s, offset := off }
  match routePort s r (winOwner s e) with
  | none => s
  | some p =>
    let t : Transfer :=
      { port := p, first := firstFlit 2 0 g (headPayload s r h), data := data, xfer := some rg.nextXfer,
        entry := some (st, idx) }
    let x : Xfer := { id := rg.nextXfer, op := op, window := w, key := key, length := len, stream := st, idx := idx }
    setView w { v with unanswered := v.unanswered + 1 }
      (setRing r { rg with nextXfer := rg.nextXfer + 1, xfers := rg.xfers ++ [x], sendq := rg.sendq ++ [t] } s)

/-- Send a marker to a position of ring r (13 Table 13-2); one to the own position stays on the device. -/
def sendMarker (r dst kind window epoch size : Nat) (from? : Sender) (s : State) : State :=
  match routePort s r dst with
  | none => s
  | some p => queueTransfer r
      { port := p, first := firstFlit 5 0 {} (markerPayload s r dst kind window epoch size), data := [], entry := from? } s

/-- Send a `STEP_READY` marker on a port (13 R291). -/
def sendReady (p : Nat) (s : State) : State :=
  let r := p / 2
  let dst := if p % 2 = 1 then posUp s r else posDown s r
  queueTransfer r { port := p, first := firstFlit 5 0 {} (markerPayload s r dst 3 0 0 0), data := [] } s

/-! ## Markers that update views (13 R294) -/

/-- Remote entries that resolve to a ring, a sender position and a window number at the owner. -/
def viewsOf (s : State) (r src window : Nat) : List Nat :=
  (s.job.windows.filter fun p =>
    (p.2.kind == 2 || p.2.kind == 3) && p.2.ring == r && p.2.target == window && winOwner s p.2 == src).map (·.1)

/-- The entries in flight of an opcode and a window that wait for one thing, stream by stream: stream and index. -/
def windowFlights (s : State) (op w : Nat) : List (Nat × Nat) :=
  ((List.range s.streams.length).map fun i =>
    match streamAt s i with
    | some x => (x.inflight.filter fun f => !f.done && f.waiting == 1 && (match x.entry? f.idx with
        | some e => e.op == op && e.window == w
        | none => false)).map fun f => (i, f.idx)
    | none => []).flatten

/-- An attach takes one unconsumed open and completes (13 R294). -/
def takeOpen (w : Nat) (s : State) : State :=
  setView w { viewOf s w with opens := (viewOf s w).opens - 1, attached := true } s

/-- An arriving `OPEN` lets the oldest waiting attach complete. -/
def wakeAttach (w : Nat) (s : State) : State :=
  match windowFlights s 0x54 w with
  | (st, idx) :: _ =>
    if 0 < (viewOf s w).opens then modFlight st idx (fun f => { f with waiting := 0, done := true }) (takeOpen w s) else s
  | [] => s

/-- Apply an `OPEN` (1) or `CLOSE` (2) marker to every view it matches; a marker that matches none is counted. -/
def applyMarker (r src kind window epoch size : Nat) (s : State) : State :=
  match viewsOf s r src window with
  | [] => incMod s (Reg.rngUnmatched r) 47 0 1
  | ws => ws.foldl (fun s w =>
      let v := viewOf s w
      if kind = 1 then wakeAttach w (setView w { v with isOpen := true, epoch := epoch, size := size, opens := v.opens + 1 } s)
      else setView w { v with isOpen := false, epoch := epoch } s) s

/-- Post an arrival pass for a `BLOCK_END` at an owned window, or count it (13 R300). The faulting post names the window. -/
def blockEndAt (r w : Nat) (s : State) : State :=
  let e := winOf s w
  if e.kind = 1 ∧ e.arrivalEn then
    (if 65535 < passCount s e.arrivalPass + 1 then bankFault 0x0303 0 e.arrivalPass 0xFFFF w 0xFFFF s
     else setPass e.arrivalPass (passCount s e.arrivalPass + 1) s)
  else incMod s (Reg.rngUnmatched r) 47 0 1

/-- Deliver a marker of the device to itself (ring of one, or a remote entry that resolves to the own position). -/
def selfMarker (r kind window epoch size : Nat) (s : State) : State :=
  if kind = 0 then blockEndAt r window s else applyMarker r (ringPos s r) kind window epoch size s

/-- Send a marker, or deliver it on the device (13 R286: "the transfer stays on the device"). -/
def putMarker (r dst kind window epoch size : Nat) (from? : Sender) (s : State) : State :=
  match routePort s r dst with
  | none => selfMarker r kind window epoch size s
  | some _ => sendMarker r dst kind window epoch size from? s

end Sys2Proof.Machine
end

