-- ==== Sys2Proof/Machine/Tensor.lean ====
section
/-! DEFINITION. How an entry reads and writes tensors: bytes of the four places (09 Table 09-1, 10 R222, R223, 11 R235, 13
R289 to R296, 15 R339), rows of codes (09 R196, R198), values and conversions (06 R123 to R125), and reports to the census
(06 R137, R138). -/

namespace Sys2Proof.Machine

/-- The entry that runs: its stream table index and entry index, its unit, and what its segment gives it. -/
structure Ctx where
  st : Nat
  idx : Nat
  e : Entry
  kind : Nat
  /-- Logical and physical unit. -/
  unit : Nat
  inst : Nat
  slot : Option Nat
  voided : Bool
  ph : List Phys
  /-- Which fetch of a remote row serves the position under way (07 R157). -/
  fetch : Nat := 0

/-- The run of an entry's effect. -/
structure Run where
  s : State
  /-- Events raised, each once. -/
  evs : List Evt := []
  /-- Remote source bytes received, the ranges asked for, and the ranges that the run still lacks. -/
  stage : Mem := []
  asked : List (Nat × Nat) := []
  need : List (Nat × Nat) := []
  /-- Remote accesses started, which the entry waits for. -/
  sent : Nat := 0
  /-- The reads of `stage` that failed, and whether a read of the row under way did (07 R158, 13 R297). -/
  bads : List (Nat × Nat) := []
  failed : Bool := false
  /-- Scratchpad banks, by core, whose fault this entry has raised: one fault for each (10 R225). -/
  banks : List (Nat × Nat) := []
  /-- An access met a crossing whose clock is stopped: the entry waits for it (02 R40). -/
  late : Bool := false

/-- Change the state. -/
def Run.mod (r : Run) (f : State → State) : Run := { r with s := f r.s }

/-- Raise an event, once. -/
def Run.raise (r : Run) (e : Evt) : Run := if r.evs.contains e then r else { r with evs := r.evs ++ [e] }

/-- Raise a list of events. -/
def Run.raises (r : Run) (es : List Evt) : Run := es.foldl Run.raise r

/-- Whether the entry is `GROUP_TAGGED` and voided, or voided and not tagged (14 R317). -/
def Ctx.void0 (c : Ctx) : Bool := c.voided && c.e.tagged
def Ctx.voidPlain (c : Ctx) : Bool := c.voided && !c.e.tagged

/-- The block of the entry's unit, its own events and its reader tag. -/
def Ctx.blk (c : Ctx) : Blk := kindBlk c.kind
def Ctx.who (c : Ctx) : Reader := ⟨c.st, c.idx⟩

/-- The district whose census counts the unit's writes (06 R137; 09 "Mover operations"). DEDUCED: log entry 54. -/
def Ctx.district (c : Ctx) : Nat :=
  if c.kind = 0 then c.inst / 34 else if c.kind = 1 then c.inst / 9 else if c.kind = 2 then c.inst / 2 else c.unit

/-! ## Scratchpads (10 R218, R222, R223, R226) -/

/-- Bank of a line address (10 R218). -/
def spBank (a : Nat) : Nat := Nat.xor (Nat.xor (bits a 3 0) (bits a 7 4)) (Nat.xor (bits a 11 8) (bits a 12 12))

/-- An access brings the pairs it touches to ON (10 R226). -/
def spTouch (core off n : Nat) (s : State) : State :=
  if getF s (Reg.spPower core) 47 32 = 0 then s
  else ((linesOf off n).map fun l => spBank l / 2).eraseDups.foldl
    (fun s k => setF s (Reg.spPower core) (2 * k + 33) (2 * k + 32) 0) s

/-- Uncorrectable words of a core that a run of bytes touches, as byte offsets of words (`unit` bytes wide: 64 for a
line, 8 for a word). -/
def spBad (ph : List Phys) (core off n unit : Nat) : List Nat :=
  ph.filterMap fun p => match p with
    | .spUncorrectable c o =>
      if c = core ∧ o / unit * unit < off + n ∧ off < o / unit * unit + unit then some (o / 8 * 8) else none
    | _ => none

/-- An uncorrectable word: the log, the bank's fault for condemnation, once for each entry, the event (10 R223, R225,
Table 10-5). DESIGN CHOICE: log entry 175. -/
def spFault (c : Ctx) (core w : Nat) (r : Run) : Run :=
  let e : Evt := { code := 0x0A01, ty := .core, inst := core }
  let a := Reg.spEccLog core
  let bank := spBank (w / 64)
  let sub := getB r.s (Reg.spSub core) 63 && getF r.s (Reg.spSub core) 3 0 == bank
  let s := if r.banks.contains (core, bank) then r.s else noteUnitFault 2 core (0x10000 + bank) r.s
  let s := if getB s a 63 then s
    else rset s a (BitVec.ofNat 64 (2 ^ 63 + b2n sub * 2 ^ 62 + bank * 2 ^ 58 + bits (w / 64) 12 4 * 2 ^ 49 +
      w / 8 % 8 * 2 ^ 46 + c.idx % 2 ^ 28 * 2 ^ 16))
  { r with s := s, banks := if r.banks.contains (core, bank) then r.banks else (core, bank) :: r.banks }.raise e

/-- Zero the bytes of a run that lie in `[lo, lo + k)`. -/
def zeroIn (off : Nat) (bs : List Byte) (lo k : Nat) : List Byte :=
  bs.mapIdx fun i b => if lo ≤ off + i ∧ off + i < lo + k then 0 else b

/-- Read scratchpad bytes: a line with an uncorrectable word is delivered as zeros; a corrected word waits for its
write-back. DESIGN CHOICE: log entry 176. -/
def spRead (c : Ctx) (core off n : Nat) (r : Run) : List Byte × Run :=
  let r := r.mod (spTouch core off n)
  let bs := memRead r.s.sp (core * 524288 + off) n
  let bad := spBad c.ph core off n 64
  let bs := bad.foldl (fun bs w => zeroIn off bs (w / 64 * 64) 64) bs
  let fixed := c.ph.filterMap fun p => match p with
    | .spCorrected k o => if k = core ∧ off ≤ o / 8 * 8 + 7 ∧ o / 8 * 8 < off + n then some (core * 524288 + o / 8 * 8) else none
    | _ => none
  let r := r.mod fun s => fixed.foldl (fun s a =>
    if s.spFix.contains a then s else countCorrected 1 (errCount .core core 1 { s with spFix := s.spFix ++ [a] })) s
  (bs, bad.foldl (fun r w => spFault c core w r) r)

/-- Words of which a write covers a part, and that it therefore reads corrected (10 R222). -/
def spPartFixed (ph : List Phys) (core off n : Nat) : List Nat :=
  ph.filterMap fun p => match p with
    | .spCorrected k o =>
      let w := o / 8 * 8
      if k = core ∧ off < w + 8 ∧ w < off + n ∧ (w < off ∨ off + n < w + 8) then some (core * 524288 + w) else none
    | _ => none

/-- Write scratchpad bytes; a partial write reads its word: a corrected one is counted, an uncorrectable one loses its other
bytes. A write to a word discards its write-back. DEDUCED: log entry 46. -/
def spWrite (c : Ctx) (core off : Nat) (bs : List Byte) (r : Run) : Run :=
  let n := bs.length
  let base := core * 524288
  let part := (spBad c.ph core off n 8).filter fun w => w < off || off + n < w + 8
  let r := r.mod fun s => (spPartFixed c.ph core off n).foldl (fun s a =>
    if s.spFix.contains a then s else countCorrected 1 (errCount .core core 1 s)) s
  let r := part.foldl (fun r w => spFault c core w (r.mod fun s => { s with sp := memZero s.sp (base + w) 8 })) r
  r.mod fun s => spTouch core off n { s with
    sp := memWrite s.sp (base + off) bs
    spFix := s.spFix.filter fun a => !(decide (base + off < a + 8) && decide (a < base + off + n)) }

/-! ## HBM -/

/-- The run reaches for a range of lines: stopped crossings are woken, and the entry then waits for their clocks. -/
def Run.touch (a n : Nat) (r : Run) : Run := { r with s := wakeLines a n r.s, late := r.late || linesStopped a n r.s }

/-- Read device bytes, ACT lines under the tags that `act` gives (11 R246). -/
def devReadAct (act : Nat → Option (Nat × Nat × Nat)) (c : Ctx) (a n : Nat) (r : Run) : List Byte × Run :=
  let r := r.touch a n
  let x := readLines c.ph c.who act (lineCount a n) (a / 64 * 64) r.s
  ((x.data.drop (a % 64)).take n, { r with s := x.s }.raises x.evs)

/-- Read device bytes. -/
def devRead (c : Ctx) (a n : Nat) (r : Run) : List Byte × Run := devReadAct (fun _ => none) c a n r

/-- Write the piece of a byte run that lies in one line. -/
def devWriteLine (tags : Nat → Nat × Nat × Nat) (c : Ctx) (a : Nat) (bs : List Byte) (l : Nat) (r : Run) : Run :=
  let lo := max a (l * 64)
  let x := writeLine r.s c.ph c.who (tags (l * 64)) (l * 64) (lo - l * 64) ((bs.drop (lo - a)).take (l * 64 + 64 - lo))
  { r with s := x.s }.raises x.evs

/-- Write device bytes, ACT lines stamped with the tags that `tags` gives (11 R245). -/
def devWriteAct (tags : Nat → Nat × Nat × Nat) (c : Ctx) (a : Nat) (bs : List Byte) (r : Run) : Run :=
  (linesOf a bs.length).foldl (fun r l => devWriteLine tags c a bs l r) (r.touch a bs.length)

/-- Write device bytes. -/
def devWrite (c : Ctx) (a : Nat) (bs : List Byte) (r : Run) : Run := devWriteAct (fun _ => (0, 0, 0)) c a bs r

/-! ## Windows (13 R292 to R296) -/

/-- A refused completion: counted in the card (15 Table 15-4 `REFUSED`) and noted in the unit's fault log (07 Table 07-12, 09
Table 09-11), the same for each of the three statuses (13 R296). DEDUCED: log entry 53. -/
def refusedAt (ty : Blk) (inst idx w : Nat) (s : State) : State :=
  let s := { s with step := { s.step with refused := satAdd 32 s.step.refused 1 } }
  if ty = .mov then
    (if getB s (Reg.movFaultLog inst) 63 then s
     else rset s (Reg.movFaultLog inst) (BitVec.ofNat 64 (2 ^ 63 + 4 * 2 ^ 60 + 2 ^ 56 + idx % 2 ^ 28 * 2 ^ 16 + w % 4096)))
  else if ty = .jnc then
    (if getB s (Reg.jncFaultLog inst) 63 then s
     else rset s (Reg.jncFaultLog inst) (BitVec.ofNat 64 (2 ^ 63 + 2 ^ 60 + 3 * 2 ^ 56 + idx % 2 ^ 28 * 2 ^ 16 + w % 2 ^ 16)))
  else s

/-- Refuse an access of the running entry with a status of Table 13-4. -/
def Run.refuse (c : Ctx) (w status : Nat) (r : Run) : Run :=
  (({ r with failed := true } : Run).mod (refusedAt c.blk c.inst c.idx w)).raise
    { code := refusalCode status, ty := c.blk, inst := c.inst, detail := w }

/-- Where an access through window `w` goes: it stays on the device at an owned window (its number, the epoch it carries),
goes to another device, or is refused here. -/
inductive WinPath where
  | own (w : Nat) (epoch : Option Nat)
  | remote
  | closed

/-- The path of an access (13 R294, R286). -/
def winPath (s : State) (w : Nat) : WinPath :=
  let e := winOf s w
  if e.kind = 1 then .own w none
  else if e.kind = 0 || !(viewOf s w).isOpen then .closed
  else if (routePort s e.ring (winOwner s e)).isNone then .own e.target (some (viewOf s w).epoch)
  else .remote

/-- The key of a byte of a window in a flight's `stage`, and the window of a key; above them stands the number of the fetch. -/
def stageKey (w off : Nat) : Nat := w * 2 ^ 44 + off
def keyWindow (key : Nat) : Nat := key / 2 ^ 44 % 8192
def fetchKey (c : Ctx) (w off : Nat) : Nat := c.fetch * 2 ^ 57 + stageKey w off

/-- A read of some byte of a range of `stage` failed. -/
def Run.bad (key n : Nat) (r : Run) : Bool := r.bads.any fun x => decide (x.1 < key + n ∧ key < x.1 + x.2)

/-- Note a range that the run lacks, once. -/
def Run.lacks (x : Nat × Nat) (r : Run) : Run := if r.need.contains x then r else { r with need := r.need ++ [x] }

/-- A packet of the entry to remote window `w` is poisoned in the crossing of the port by which it leaves: it is not delivered,
and what it asked for does not come (02 R36). DEDUCED: log entry 148. -/
def awayPoisoned (c : Ctx) (s : State) (w : Nat) : Bool :=
  let e := winOf s w
  match routePort s e.ring (winOwner s e) with
  | some p => poisoned c.ph .nlp p true
  | none => false

/-- Read window bytes: on the device, or from what the owner has answered. -/
def winRead (c : Ctx) (w off n : Nat) (r : Run) : List Byte × Run :=
  if n = 0 then ([], r)
  else if r.asked.contains (fetchKey c w off, n) then
    (memRead r.stage (fetchKey c w off) n, { r with failed := r.failed || r.bad (fetchKey c w off) n })
  else match winPath r.s w with
    | .own v ep =>
      let st := ownerCheck r.s v ep false false off n n
      if st = 0 then devRead c (ownedAddr r.s (winOf r.s v) off) n r else (List.replicate n 0, r.refuse c w st)
    | .closed => (List.replicate n 0, r.refuse c w 1)
    | .remote =>
      if awayPoisoned c r.s w then (List.replicate n 0, { r with failed := true })
      else (List.replicate n 0, r.lacks (fetchKey c w off, n))

/-- The most data bytes that one transfer carries (13 R289). -/
def maxData : Nat := 15360

/-- Pad data to the 16 bytes that `LENGTH` counts in. DEDUCED: log entry 70. -/
def pad16 (bs : List Byte) : List Byte := bs ++ List.replicate (roundUp bs.length 16 - bs.length) 0

/-- Write window bytes: on the device, or in `WRITE` transfers under tag `g`. -/
def winWrite (c : Ctx) (g : GTag) (w off : Nat) (bs : List Byte) (r : Run) : Run :=
  if bs.length = 0 then r
  else match winPath r.s w with
    | .own v ep =>
      let st := ownerCheck r.s v ep true false off bs.length bs.length
      if st = 0 then devWrite c (ownedAddr r.s (winOf r.s v) off) bs r else r.refuse c w st
    | .closed => r.refuse c w 1
    | .remote =>
      let cs := if awayPoisoned c r.s w then [] else chunks maxData bs
      { r with
        s := cs.zipIdx.foldl (fun s p =>
          sendAccess w 0 false g (off + p.2 * maxData) (roundUp p.1.length 16) 0 (pad16 p.1) c.st c.idx s) r.s
        sent := r.sent + cs.length }

/-- Window numbers of `stage` keys from here up mean reads with `ACT_LINES`, whose bytes are wire bytes (13 R289). -/
def actKey : Nat := 4096

/-- The most bytes that one transfer with `ACT_LINES` carries: a multiple of 288 (13 R289). -/
def maxAct : Nat := 15264

/-- Bytes that one read of a range takes at most. -/
def askStep (key : Nat) : Nat := if actKey ≤ keyWindow key then maxAct else maxData

/-- Start the reads of a range that a run lacks: at most 15,360 bytes each. -/
def askRange (st idx : Nat) (x : Nat × Nat) (s : State) : State :=
  let w := keyWindow x.1
  let off := x.1 % 2 ^ 44
  let m := askStep x.1
  (List.range (ceilDiv x.2 m)).foldl (fun s i =>
    let n := min m (x.2 - i * m)
    if actKey ≤ w then sendAccess (w - actKey) 1 true {} ((off + i * m) / 72 * 64) n (x.1 + i * m) [] st idx s
    else sendAccess w 1 false {} (off + i * m) (roundUp n 16) (x.1 + i * m) [] st idx s) s

/-- Reads that a list of ranges takes. -/
def askCount (xs : List (Nat × Nat)) : Nat := xs.foldl (fun n x => n + ceilDiv x.2 (askStep x.1)) 0

/-! ## Host memory (09 place 3) -/

/-- Host bytes as the completions of this command bring them, over what the Krada has written there.
DESIGN CHOICE: log entry 50. -/
def hostBytes (ph : List Phys) (s : State) (a n : Nat) : List Byte :=
  ph.foldl (fun bs p => match p with
    | .hostData b xs => bs.mapIdx fun i v => if b ≤ a + i then xs.getD (a + i - b) v else v
    | _ => bs) (memRead s.host a n)

/-- Read host bytes; a request outside the window table is not issued, and the bytes of one whose packet is poisoned in HIF's
crossing do not come: they are free (15 R339, 02 R36). DESIGN CHOICE: log entry 49. DESIGN CHOICE: log entry 51.
DEDUCED: log entry 148. -/
def hostRead (c : Ctx) (k off n : Nat) (r : Run) : List Byte × Run :=
  match hwtCheck r.s k off n false with
  | some a =>
    if poisoned c.ph .hif 0 true || poisoned c.ph .hif 0 false then
      let f := freeBytes n r.s
      (f.1, { r with s := f.2 })
    else (hostBytes c.ph r.s a n, r)
  | none =>
    let f := freeBytes n (hostBlocked r.s)
    (f.1, { r with s := f.2 })

/-! ## Bytes of a place -/

/-- The physical core of a place 1 descriptor (09 Table 09-1). -/
def coreOf (c : Ctx) (s : State) (d : Desc) : Nat :=
  if d.unit = 0xFFF then c.inst else (physOf s .core d.unit).getD 0

/-- Read `n` bytes at offset `off` of a descriptor's place. -/
def getBytes (c : Ctx) (d : Desc) (off n : Nat) (r : Run) : List Byte × Run :=
  if n = 0 then ([], r)
  else if d.place = 0 then devRead c ((regionRaw r.s d.unit).base + off) n r
  else if d.place = 1 then spRead c (coreOf c r.s d) off n r
  else if d.place = 2 then winRead c d.unit off n r
  else hostRead c d.unit off n r

/-- Write bytes at offset `off` of a descriptor's place; `g` tags remote writes. -/
def putBytes (c : Ctx) (g : GTag) (d : Desc) (off : Nat) (bs : List Byte) (r : Run) : Run :=
  if bs.length = 0 then r
  else if d.place = 0 then devWrite c ((regionRaw r.s d.unit).base + off) bs r
  else if d.place = 1 then spWrite c (coreOf c r.s d) off bs r
  else if d.place = 2 then winWrite c g d.unit off bs r
  else if poisoned c.ph .hif 0 true then r
  else r.mod fun s => (hostWrite d.unit off bs s).1

/-! ## Unit words (07 R171, 09 R215) -/

/-- Output bytes that an uncorrectable unit word spoils, as (offset in the span, length). -/
def spoiled (ph : List Phys) : List (Nat × Nat) :=
  ph.filterMap fun p => match p with
    | .unitUncorrectable _ lo len => some (lo, len)
    | _ => none

/-- Zero what the unit's uncorrectable words spoil of one row at span offset `o`: the row for a Junction engine, the lines
for a mover. -/
def spoil (c : Ctx) (o : Nat) (bs : List Byte) : List Byte :=
  if c.kind = 1 then
    (if (spoiled c.ph).any fun x => decide (x.1 < o + bs.length ∧ o < x.1 + x.2) then bs.map fun _ => 0 else bs)
  else if c.kind = 2 then
    (spoiled c.ph).foldl (fun bs x => zeroIn o bs (x.1 / 64 * 64) (roundUp (x.1 + x.2) 64 - x.1 / 64 * 64)) bs
  else bs

/-- Fill the mover's or the engine's fault log, 1 if clear (07 Table 07-12, 09 Table 09-11). DEDUCED: log entry 96. -/
def unitLog (c : Ctx) (unit kind detail : Nat) (s : State) : State :=
  let a := if c.kind = 1 then Reg.jncFaultLog c.inst else Reg.movFaultLog c.inst
  if getB s a 63 then s
  else rset s a (BitVec.ofNat 64 (2 ^ 63 + unit % 8 * 2 ^ 60 + kind * 2 ^ 56 + c.idx % 2 ^ 28 * 2 ^ 16 +
    detail % (if c.kind = 1 then 2 ^ 16 else 2 ^ 12)))

/-- What the physical world did to the unit and the crossings during the entry (02 R35 to R37, 07 R171, 09 R215).
DESIGN CHOICE: log entry 97. -/
def physEvents (c : Ctx) (r : Run) : Run :=
  c.ph.foldl (fun r p => match p with
    | .unitUncorrectable u _ _ =>
      if c.kind = 1 then (r.mod (unitLog c u 1 0)).raise { code := 0x0704, ty := .jnc, inst := c.inst }
      else if c.kind = 2 then (r.mod (unitLog c u 0 0)).raise { code := 0x0901, ty := .mov, inst := c.inst }
      else r
    | .junctionResidue u =>
      if c.kind = 1 then (r.mod (unitLog c u 0 0)).raise { code := 0x0703, ty := .jnc, inst := c.inst } else r
    | .unitCorrected =>
      if c.kind = 1 ∨ c.kind = 2 then r.mod fun s => countCorrected 1 (errCount c.blk c.inst 1 s) else r
    | .crossingUncorrectable ty i d => r.raise { code := 0x1501, ty := ty, inst := i, detail := b2n (!d) }
    | .crossingCorrected ty i => r.mod fun s => countCorrected 1 (errCount ty i 1 s)
    | .sramCorrected => r.mod sramFixed
    | .waits f rd w st m =>
      if c.kind = 0 then r.mod fun s =>
        incMod (incMod (incMod (incMod s (Reg.spFeedConflict c.inst) 47 0 f) (Reg.spReadWait c.inst) 47 0 rd)
          (Reg.spWriteWait c.inst) 47 0 w) (Reg.arrayStarved c.inst) 47 0 st
      else if c.kind = 1 then (if c.voided then r else r.mod fun s => incMod s (Reg.mergeWait c.inst) 47 0 m)
      else r
    | .gridWaits k rd w =>
      if c.kind = 0 then r else r.mod fun s => incMod (incMod s (Reg.spReadWait k) 47 0 rd) (Reg.spWriteWait k) 47 0 w
    | _ => r) r

/-! ## Rows of codes -/

/-- Elements of a row in feed layout: of a scale tensor one for each block of 32 (09 R198, R199). -/
def Desc.feedLen (d : Desc) : Nat := if d.fmt = 9 then ceilDiv (d.dim 0) 32 else d.dim 0

/-- Row `r` of a feed-layout tensor within the bytes of its product. -/
def feedRow (d : Desc) (row : Nat) (product : List Byte) : List Nat :=
  (List.range d.feedLen).map fun k =>
    let p := feedPos d row k
    if widthOf d.fmt = 4 then (product.getD p.1 0).toNat / 16 ^ p.2 % 16 else leAt product p.1 (widthOf d.fmt / 8)

/-- Lines of a product in feed layout that hold elements of the rows `rows` (04 R86). -/
def feedLines (d : Desc) (rows : List Nat) : List Nat :=
  if d.fmt = 9 then
    let n := ceilDiv (d.dim 0) 32
    ((rows.map (· / 64)).eraseDups.map fun g => (List.range n).map (g * n + ·)).flatten
  else
    let n := kSteps d.fmt (d.dim 0)
    ((rows.map (· / 32)).eraseDups.map fun h => (List.range n).map fun t => (h / 2 * n + t) * 2 + h % 2).flatten

/-- Of a read of `n` bytes at offset `o` of a window that has failed, the part of `k` bytes at `off` did not come: the owner's
answers say which did, and a read that is refused here fails as a whole (07 R158, 13 R297). -/
def partLost (c : Ctx) (d : Desc) (o n off k : Nat) (r : Run) : Bool :=
  !r.asked.contains (fetchKey c d.unit o, n) || r.bad (fetchKey c d.unit off) k

/-- Codes of row `i` of a plain tensor, or none where a read of the row failed (07 R158, 13 R297). -/
def tryRow (c : Ctx) (d : Desc) (i : Nat) (r : Run) : Option (List Nat) × Run :=
  let y := getBytes c d (d.rowOff i) d.rowBytes { r with failed := false }
  (if y.2.failed then none else some (unpackCodes (widthOf d.fmt) (d.dim 0) y.1),
    { y.2 with failed := r.failed || y.2.failed })

/-- Codes of every row of a tensor (plain or feed layout), rows in linear order (09 R196 to R198); none for a row of which a read
failed. -/
def tryRows (c : Ctx) (d : Desc) (r : Run) : List (Option (List Nat)) × Run :=
  if d.layout = 1 then
    (List.range (d.dim 2)).foldl (fun (x : List (Option (List Nat)) × Run) b =>
      let o := d.offset + b * nth d.stride 2 * 64
      let y := getBytes c d o d.product { x.2 with failed := false }
      (x.1 ++ (List.range (d.dim 1)).map fun i =>
          if y.2.failed && (feedLines d [i]).any fun l => partLost c d o d.product (o + 64 * l) 64 y.2 then none
          else some (feedRow d i y.1),
        { y.2 with failed := x.2.failed || y.2.failed })) ([], r)
  else
    (List.range d.rows).foldl (fun (x : List (Option (List Nat)) × Run) i =>
      let y := tryRow c d i x.2
      (x.1 ++ [y.1], y.2)) ([], r)

/-- Elements of a row as loaded. -/
def Desc.rowLen (d : Desc) : Nat := if d.layout = 1 then d.feedLen else d.dim 0

/-- Codes of every row of a tensor; a row of which a read failed is zero codes (07 R158, 13 R297). -/
def loadRows (c : Ctx) (d : Desc) (r : Run) : List (List Nat) × Run :=
  let x := tryRows c d r
  (x.1.map (·.getD (zeroCodes d.rowLen)), x.2)

/-- Load one row of a plain tensor. -/
def loadRow (c : Ctx) (d : Desc) (i : Nat) (r : Run) : List Nat × Run :=
  let x := tryRow c d i r
  (x.1.getD (zeroCodes (d.dim 0)), x.2)

/-- Set byte `i` of a list. -/
def setByte (bs : List Byte) (i : Nat) (b : Byte) : List Byte := bs.set i b

/-- The bytes of one product in feed layout from its rows; bytes of no element are 0x00 (09 R198). -/
def feedProduct (d : Desc) (rows : List (List Nat)) : List Byte :=
  rows.zipIdx.foldl (fun bs x =>
    x.1.zipIdx.foldl (fun bs y =>
      let p := feedPos d x.2 y.2
      if widthOf d.fmt = 4 then bs.modify p.1 fun b => b ||| BitVec.ofNat 8 (y.1 % 16 * 16 ^ p.2)
      else (leBytes (widthOf d.fmt / 8) y.1).zipIdx.foldl (fun bs z => setByte bs (p.1 + z.2) z.1) bs) bs)
    (List.replicate d.product 0)

/-- Write one row of a plain tensor. -/
def storeRow (c : Ctx) (g : GTag) (d : Desc) (i : Nat) (codes : List Nat) (r : Run) : Run :=
  let o := d.rowOff i
  putBytes c g d o (spoil c (o - d.offset) (packCodes (widthOf d.fmt) codes)) r

/-- Row `row` of product `b` of a feed-layout tensor holds a byte that an uncorrectable word of the unit spoils. -/
def feedHit (c : Ctx) (d : Desc) (b row : Nat) : Bool :=
  (List.range d.feedLen).any fun k =>
    let o := b * nth d.stride 2 * 64 + (feedPos d row k).1
    (spoiled c.ph).any fun x => decide (x.1 < o + max 1 (widthOf d.fmt / 8) ∧ o < x.1 + x.2)

/-- The bytes of product `b` as a unit writes them: a Junction engine writes a row that holds a spoiled word with zero codes
(07 R171), a mover the lines (09 R215). -/
def feedOut (c : Ctx) (d : Desc) (b : Nat) (rows : List (List Nat)) : List Byte :=
  if c.kind = 1 then feedProduct d (rows.mapIdx fun i row => if feedHit c d b i then row.map fun _ => 0 else row)
  else spoil c (b * nth d.stride 2 * 64) (feedProduct d rows)

/-- Write every row of a tensor. -/
def storeRows (c : Ctx) (g : GTag) (d : Desc) (rows : List (List Nat)) (r : Run) : Run :=
  if d.layout = 1 then
    (List.range (d.dim 2)).foldl (fun r b =>
      putBytes c g d (d.offset + b * nth d.stride 2 * 64) (feedOut c d b ((rows.drop (b * d.dim 1)).take (d.dim 1))) r) r
  else rows.zipIdx.foldl (fun r x => storeRow c g d x.2 x.1 r) r

/-! ## Values (06 R123 to R125) -/

/-- The scale tensor of an MX tensor. -/
def scaleDesc (s : State) (d : Desc) : Option Desc := if isMx d.fmt then descAt s d.aux else none

/-- The scale exponent of a tensor's codes (09 R201, 06 R127). -/
def scaleExp (s : State) (d : Desc) : Int := if isScaled d.fmt then scaleOf s d.scaleId else 0

/-- Scale bytes of every row of an MX tensor, none for another. -/
def loadScales (c : Ctx) (d : Desc) (r : Run) : List (List Nat) × Run :=
  match scaleDesc r.s d with
  | some x => loadRows c x r
  | none => ([], r)

/-- A row's codes with its block scales; a row of which a read failed, of its codes or of its scales, is zero codes (07 R158, 13
R297). -/
def joinRow (d : Desc) (codes scales : Option (List Nat)) : List Nat × List Nat :=
  match codes, scales with
  | some ks, some xs => (ks, xs)
  | _, _ => (zeroCodes d.rowLen, List.replicate (d.dim 0 / 32) 127)

/-- Codes and block scales of every row. -/
def loadPairs (c : Ctx) (d : Desc) (r : Run) : List (List Nat × List Nat) × Run :=
  let x := tryRows c d r
  match scaleDesc x.2.s d with
  | some sd =>
    let y := tryRows c sd x.2
    (x.1.mapIdx fun i ks => joinRow d ks (y.1.getD i (some [])), y.2)
  | none => (x.1.map fun ks => joinRow d ks (some []), x.2)

/-- The values of a row of codes. -/
def rowVals (f : Nat) (sc : Int) (xs codes : List Nat) : List Val :=
  codes.mapIdx fun i k => codeVal f sc (nth xs (i / 32)) k

/-- Rows as values. -/
def valsOf (f : Nat) (sc : Int) (rows : List (List Nat × List Nat)) : List (List Val) := rows.map fun x => rowVals f sc x.2 x.1

/-- Read a tensor's values. -/
def loadVals (c : Ctx) (d : Desc) (r : Run) : List (List Val) × Run :=
  let x := loadPairs c d r
  (valsOf d.fmt (scaleExp x.2.s d) x.1, x.2)

/-- A row as written: its codes, its block scales, and what is reported (06 R124, R125, R138). -/
structure OutRow where
  codes : List Nat
  scales : List Nat := []
  reports : List Reported := []

/-- Convert a row of values into a format. -/
def encodeRow (f : Nat) (sc : Int) (vs : List Val) : OutRow :=
  if isMx f then
    let blocks := (chunks 32 vs).map fun b => (mxScale f b, b)
    let es := (blocks.map fun x => x.2.map fun v => (x.1, v, mxWrite f x.1 v)).flatten
    { codes := es.map fun e => e.2.2.code
      scales := blocks.map (·.1)
      reports := es.map fun e => { w := e.2.1, fmt := f, code := e.2.2.code, sat := e.2.2.sat, block := e.1 == 0xFF } }
  else
    let es := vs.map fun v => (v, valCode f sc v)
    { codes := es.map fun e => e.2.code
      reports := es.map fun e => { w := e.1, fmt := f, code := e.2.code, sat := e.2.sat } }

/-- A row of codes copied unchanged: each is reported by its decoded value (06 R138). -/
def copyRow (f : Nat) (sc : Int) (xs codes : List Nat) : OutRow :=
  { codes := codes, scales := xs
    reports := if isValueFmt f then codes.mapIdx fun i k =>
        { w := codeVal f sc (nth xs (i / 32)) k, fmt := f, code := k, sat := false, block := nth xs (i / 32) == 0xFF && isMx f }
      else [] }

/-- A row of positive zero codes: zero values as a write forms them; integers and bits are 0. -/
def zeroRow (f n : Nat) : OutRow :=
  if isValueFmt f then encodeRow f 0 (List.replicate n Val.zero) else { codes := zeroCodes n }

/-- Report rows under a tensor id. -/
def reportRows (c : Ctx) (id : Nat) (rows : List OutRow) (s : State) : State :=
  if id = 0xFFFF then s
  else report c.district id (rows.foldl (fun n x => x.reports.foldl countOne n) {}) s

/-- The context without the unit's spoiled words, for the scale tensor beside the elements. -/
def Ctx.clean (c : Ctx) : Ctx :=
  { c with ph := c.ph.filter fun p => match p with
    | .unitUncorrectable _ _ _ => false
    | _ => true }

/-- The context for an entry's second output, whose bytes follow the span of the first, `d`, in the offsets of the unit's spoiled
words. DESIGN CHOICE: log entry 97. -/
def Ctx.behind (c : Ctx) (d : Desc) : Ctx :=
  { c with ph := c.ph.filterMap fun p => match p with
    | .unitUncorrectable u lo n =>
      if d.spanLen < lo + n then some (.unitUncorrectable u (lo - d.spanLen) (lo + n - max lo d.spanLen)) else none
    | x => some x }

/-- Codes of every row as the unit's spoiled words leave them (07 R171, 09 R215). -/
def spoiledCodes (c : Ctx) (d : Desc) (rows : List (List Nat)) : List (List Nat) :=
  if d.layout = 1 then
    ((List.range (d.dim 2)).map fun b =>
      let bs := feedOut c d b ((rows.drop (b * d.dim 1)).take (d.dim 1))
      (List.range (d.dim 1)).map fun i => feedRow d i bs).flatten
  else rows.mapIdx fun i codes =>
    unpackCodes (widthOf d.fmt) codes.length (spoil c (d.rowOff i - d.offset) (packCodes (widthOf d.fmt) codes))

/-- A row as spoiled words leave it: an element that changed is reported as the zero code it became. -/
def spoilOne (d : Desc) (x : OutRow) (codes : List Nat) : OutRow :=
  { x with
    codes := codes
    reports := x.reports.mapIdx fun i y =>
      if nth x.codes i = nth codes i then y else { w := Val.zero, fmt := d.fmt, code := nth codes i, sat := false } }

/-- Whether the unit has spoiled words that its writes meet. -/
def Ctx.spoils (c : Ctx) : Bool := !(spoiled c.ph).isEmpty && (c.kind == 1 || c.kind == 2)

/-- Rows as written: an element of a spoiled word is a zero code, and reported as one. -/
def spoilRows (c : Ctx) (d : Desc) (rows : List OutRow) : List OutRow :=
  if c.spoils then (rows.zip (spoiledCodes c d (rows.map OutRow.codes))).map fun x => spoilOne d x.1 x.2 else rows

/-- One row of a tensor as written, row `i` in linear order. -/
def spoilRow (c : Ctx) (d : Desc) (i : Nat) (x : OutRow) : OutRow :=
  if c.spoils && d.layout == 1 then
    (if feedHit c d (i / d.dim 1) (i % d.dim 1) then spoilOne d x (x.codes.map fun _ => 0) else x)
  else if c.spoils then
    spoilOne d x (unpackCodes (widthOf d.fmt) x.codes.length (spoil c (d.rowOff i - d.offset) (packCodes (widthOf d.fmt) x.codes)))
  else x

/-- The tag of a tagged mover or Junction entry's remote writes: its micro-batch's first group (03 R74, 08 R181). -/
def entryTag (c : Ctx) (s : State) : GTag :=
  match c.e.tagged, c.slot with
  | true, some i => groupTag s (slotFirst s.step.ws i)
  | _, _ => {}

/-- A destination that names a window of another device. -/
def offHome (s : State) (d : Desc) : Bool :=
  d.place == 2 && (match winPath s d.unit with
    | .remote => true
    | _ => false)

/-- Departure bits of a tagged entry that writes off home (03 R74). -/
def departBy (c : Ctx) (d : Desc) (s : State) : State :=
  if c.e.tagged && !c.voided && offHome s d then depart (slotGroups s c.slot) s else s

/-- Departure bits for the destinations that a Junction entry names. -/
def departs (c : Ctx) (ids : List Nat) (r : Run) : Run :=
  r.mod fun s => ids.foldl (fun s id => departBy c (descOr s id) s) s

/-- Write rows, their scales, and report them under a tensor id. -/
def writeRows (c : Ctx) (g : GTag) (d : Desc) (id : Nat) (rows : List OutRow) (r : Run) : Run :=
  let rows := spoilRows c d rows
  let r := storeRows c g d (rows.map OutRow.codes) r
  let r := match scaleDesc r.s d with
    | some x => storeRows c.clean g x (rows.map OutRow.scales) r
    | none => r
  r.mod (reportRows c id rows)

/-- Write zero codes throughout a tensor and report nothing: what a voided tagged entry does (14 R317).
DEDUCED: log entry 47. -/
def writeZeros (c : Ctx) (g : GTag) (d : Desc) (r : Run) : Run :=
  writeRows c g d 0xFFFF (List.replicate d.rows (zeroRow d.fmt (d.dim 0))) r

end Sys2Proof.Machine
end

