-- ==== Sys2Proof/Machine/Issue.lean ====
section
/-! DEFINITION. Issue and completion of entries (03 R50, R51, R57; 14 R317, R318): what lets an entry issue, the run of its
effect, the class its events take, and what its completion does. -/

namespace Sys2Proof.Machine

/-- The slot of the segment that covers the entry evaluated next (03 R52). -/
def Stream.slotNow (x : Stream) : Option Nat :=
  match x.seg with
  | some (m, stop) => if x.pos < stop then some m else none
  | none => none

/-- Entries that count toward the four in flight: those that are not done, and the done ones that ENTRY_COMPLETE can retire now,
the leading ones. DEDUCED: log entry 26. -/
def Stream.busy (x : Stream) : Nat :=
  (x.inflight.takeWhile (·.done)).length + (x.inflight.filter fun f => !f.done).length

/-- The entry may issue (R50): at most 4 in flight, its wait satisfied, its fence met. DESIGN CHOICE: log entry 4.
DEDUCED: log entry 26. -/
def mayIssue (x : Stream) (e : Entry) : Bool :=
  decide (x.busy < 4) && (!e.waitEn || x.released) && (!e.fence || x.inflight.isEmpty)

/-- Every entry in flight before entry `idx` has run: what an entry in flight reads and writes comes after what the earlier
ones of its stream write and read (07 R150, 09 R213). DEDUCED: log entry 26. -/
def Stream.turn (x : Stream) (idx : Nat) : Bool := x.inflight.all fun f => f.ran || decide (idx ≤ f.idx)

/-- A slot is void. -/
def slotVoid (s : State) : Option Nat → Bool
  | some i => isVoid s i
  | none => false

/-- The context of entry `idx` of a stream. -/
def ctxOf (s : State) (st : Nat) (x : Stream) (idx : Nat) (e : Entry) (slot : Option Nat) (voided : Bool) (ph : List Phys) :
    Ctx :=
  { st := st, idx := idx, e := e, kind := x.kind, unit := x.unit, inst := streamInst s x, slot := slot, voided := voided,
    ph := ph }

/-- The stream after its next entry issues: the entry is in flight and the next one is evaluated. -/
def launch (x : Stream) (f : Flight) : Stream :=
  { x with pos := x.pos + 1, released := false, blocked := false, inflight := x.inflight ++ [f] }

/-- A flight that waits for nothing. -/
def flightOf (idx : Nat) (slot : Option Nat) (voided : Bool) (ph : List Phys) : Flight :=
  { idx := idx, done := false, voided := voided, slot := slot, raised := [], waiting := 0, ran := false, stage := [],
    asked := [], ph := ph }

/-- The contributor mask of ring r (14 R315). -/
def maskOf (s : State) (r : Nat) : Mask := if r = 0 then s.step.maskA else if r = 1 then s.step.maskB else s.step.maskC

/-- An entry is a collective, and one that carries the gate (13 Table 13-6 `GATE`). -/
def isColl (e : Entry) : Bool := decide (0x50 ≤ e.op ∧ e.op ≤ 0x52)
def isGate (e : Entry) : Bool := isColl e && e.subBit 0

/-- The control word that ring r's engine forms now (13 R303). -/
def formWord (s : State) (r : Nat) : CtlWord :=
  { nf := s.step.nonfinite, taint := s.step.taint, dep := s.step.departed ||| s.step.departedRing, mask := maskOf s r }

/-- The flight of an entry as it issues: a collective forms its control word (13 R303). -/
def issueFlight (s : State) (x : Stream) (e : Entry) (slot : Option Nat) (voided : Bool) (ph : List Phys) : Flight :=
  { flightOf x.pos slot voided ph with word := if isColl e then some (formWord s x.unit) else none }

/-- The issue of a gate-carrying entry takes the gate snapshot (06 R142). -/
def gateIssue (e : Entry) (s : State) : State :=
  if isGate e then { s with step := { s.step with snapshot := true } } else s

/-- An ordinary, untagged entry of certain opcodes makes its slot mixed (14 R318). -/
def markMixed (e : Entry) (slot : Option Nat) (voided : Bool) (s : State) : State :=
  match slot with
  | some i => if !voided && !e.tagged && mixes e.op then setB s Reg.slotMixed i true else s
  | none => s

/-- The slot of an entry in flight. -/
def flightSlot (s : State) (st idx : Nat) : Option Nat :=
  match streamAt s st with
  | some x => (x.inflight.find? fun f => f.idx == idx).bind Flight.slot
  | none => none

/-- A confined event of an entry: it is recorded; its drop and void wait for the entry's completion (14 R316, R317). After a
hard fault of the same entry has ended the step it forms its record alone (14 R466). -/
def confineEntry (st idx : Nat) (s : State) (c : Confined) : State :=
  if s.step.active then
    let slot := flightSlot s st idx
    let r := confinedRec c st idx (confinedSlot c slot s) s
    modFlight st idx (fun f => { f with raised := f.raised ++ [r] }) (dropNow c st idx slot s)
  else confinedIdle c st idx s

/-- Events of the arrays, the scratchpads, the Junction engines, the movers, of HBM reads (the loss of a channel that a read
brings about among them), and of accesses that are refused or bring no data: their entry completes and posts (04 R99, 07 R171, 09
R215, 10 R223, 11 R249, 13 R296 to R298). DEDUCED: log entry 18. -/
def completesFirst (code : Nat) : Bool :=
  [0x0401, 0x0702, 0x0703, 0x0704, 0x0901, 0x0A01, 0x0B03, 0x0B04, 0x0B05, 0x0C01, 0x0D01, 0x0D02, 0x0D03, 0x0D04].contains code

/-- An entry is in flight. -/
def inFlight (s : State) (st idx : Nat) : Bool :=
  match streamAt s st with
  | some x => x.inflight.any fun f => f.idx == idx
  | none => false

/-- An event of an entry: confined by its rule, or because the entry is tagged; otherwise a hard fault (14 R314). Where the
entry first completes and posts, its page forms the record at once and the fault ends the step then. -/
def raiseEntry (st idx : Nat) (tagged : Bool) (s : State) (e : Evt) : State :=
  if alwaysConfined e.code ∨ (tagged ∧ (taggable e.code)) then
    confineEntry st idx s { code := e.code, ty := e.ty, inst := e.inst, detail := e.detail, group := e.group }
  else
    let r := plainRec e.code 4 e.ty e.inst st idx (stepNo s) e.detail
    if completesFirst e.code && s.step.active && inFlight s st idx then
      modFlight st idx (fun f => { f with hard := f.hard ++ [r] }) (pageRecord e.ty r s)
    else crossingLoss e (hardFault e.ty r s)

/-- An entry behind its stream's `UPDATE_BEGIN` that writes (14 R328 `LIVE_CLEAN`). -/
def noteUpdate (st idx : Nat) (e : Entry) (s : State) : State :=
  match streamAt s st with
  | some x => if x.afterUpdate ∧ ((x.entries.take idx).any fun u => u.op == 3) ∧ 0x10 ≤ e.op ∧ e.op < 0x54 then { s with step := { s.step with updateWrote := true } } else s
  | none => s

/-- The most row fetches that a Junction engine keeps outstanding (07 R149). -/
def maxFetches : Nat := 128

/-- Settle the run of an entry's effect over the state `s0` before it: a run that meets a stopped crossing raises its wake
request and waits for its clock (02 R40), and one that lacks remote bytes asks for them; both change nothing else. Any other
takes effect, and the entry is done once its remote accesses are answered. -/
def settleRun (c : Ctx) (r : Run) (s0 : State) : State :=
  if r.late then { s0 with crossings := r.s.crossings }
  else if r.need = [] then
    let s := modFlight c.st c.idx (fun f => { f with ran := true, waiting := r.sent, done := r.sent == 0 }) r.s
    r.evs.foldl (raiseEntry c.st c.idx c.e.tagged) (noteUpdate c.st c.idx c.e s)
  else
    let now := if c.kind = 1 then r.need.take maxFetches else r.need
    let s := now.foldl (fun s x => askRange c.st c.idx x s) s0
    modFlight c.st c.idx (fun f => { f with waiting := askCount now, asked := f.asked ++ now }) s

/-- Issue the next entry of a stream, if it is one that `ok` admits and it may issue, and run its effect, or leave that to its
turn. DESIGN CHOICE: log entry 25. -/
def issue (st : Nat) (ok : Entry → Bool) (ph : List Phys) (eff : Ctx → Run → Run) (s : State) : State :=
  match streamAt s st with
  | none => s
  | some x =>
    match x.next? with
    | none => s
    | some e =>
      if stepRuns s && s.step.setOpen && ok e && mayIssue x e then
        let slot := x.slotNow
        let v := slotVoid s slot
        let c := ctxOf s st x x.pos e slot v ph
        let s := gateIssue e (setStream st (launch x (issueFlight s x e slot v ph)) (markMixed e slot v s))
        if x.turn x.pos then settleRun c (eff c { s := s }) s else s
      else s

/-- Run the effect of an entry in flight in its turn, when it waits for no remote read. -/
def rerun (st idx : Nat) (eff : Ctx → Run → Run) (s : State) : State :=
  match streamAt s st with
  | none => s
  | some x =>
    match x.inflight.find? (fun f => f.idx == idx), x.entry? idx with
    | some f, some e =>
      if !f.ran && f.waiting == 0 && x.turn idx && stepRuns s then
        let c := ctxOf s st x idx e f.slot f.voided f.ph
        settleRun c (eff c { s := s, stage := f.stage, asked := f.asked, bads := f.failed }) s
      else s
    | _, _ => s

/-- An entry whose effect is nothing. -/
def noEffect (_ : Ctx) (r : Run) : Run := r

/-! ## Hall-pass words (20 R442) -/

/-- What the physical world did to the count words touched: corrections counted, an uncorrectable word a hard fault. -/
def passWords (ph : List Phys) (ps : List Nat) (st idx : Nat) (s : State) : State :=
  ph.foldl (fun s p => match p with
    | .passCorrected q =>
      if ps.contains q then countCorrected 1 (errCount .hpb (bankOf s q) 1 s) else s
    | .passUncorrectable q =>
      if ps.contains q then bankFault 0x1401 2 q st idx 0xFFFF (noteUnitFault 9 (bankOf s q) 0 s) else s
    | _ => s) s

/-- Passes that an entry posts. -/
def postedBy (e : Entry) : List Nat := if e.postEn then (List.range (e.postSpan + 1)).map (e.postPass + ·) else []

/-! ## Completion (R51) -/

/-- Free the stash record of a slot tag (05 R113). -/
def freeRecord (tag : Nat) (s : State) : State := { s with stash := s.stash.filter (·.tag != tag) }

/-- The number of the stash record of a slot tag. -/
def recordAt (s : State) (tag : Nat) : Option Nat := (s.stash.find? fun r => r.tag == tag).map (·.id)

/-- The slot tag of a stash entry (05 R112). -/
def slotTag (e : Entry) (slot : Option Nat) : Nat := e.tensorId % 1024 * 64 + slot.getD 0

/-- A `STASH_READ` without `KEEP` frees its own record when it completes, not one that has replaced it (05 R113, R118). -/
def stashDone (e : Entry) (f : Flight) (s : State) : State :=
  if e.op = 0x35 ∧ e.subBit 0 = false then
    { s with stash := s.stash.filter fun r => !(r.tag == slotTag e f.slot && f.record == some r.id) }
  else s

/-- The completion of a gate-carrying entry of ring r (06 R142, R144; 13 R307). -/
def noteGate (x : Stream) (e : Entry) (s : State) : State :=
  if x.kind = 3 ∧ (e.op = 0x50 ∨ e.op = 0x51 ∨ e.op = 0x52) ∧ e.subBit 0 then
    { s with step := { s.step with gateDone := s.step.gateDone ++ [x.unit] } }
  else s

/-- ENTRY_COMPLETE: the oldest entry in flight of a stream, when done, completes: its confined faults void the slot, then it
posts (R51, 14 R317), and then its hard faults end the step (04 R99, 07 R171, 09 R215, 10 R223). -/
def execEntryComplete (st : Nat) (ph : List Phys) (s : State) : Host.Outcome State Fault Refusal :=
  .next
    (match streamAt s st with
     | none => s
     | some x =>
       match x.inflight with
       | [] => s
       | f :: rest =>
         match x.entry? f.idx with
         | none => s
         | some e =>
           if f.done && s.step.active then
             let s := setStream st { x with inflight := rest } s
             let s := f.raised.foldl (fun s r => voidNow r s) s
             let s := noteGate x e (stashDone e f s)
             let s := if s.step.active then passWords ph (postedBy e) st f.idx (postEntry e st f.idx s) else s
             f.hard.foldl (fun s r => hardEnd (blkOf r.block) r s) s
           else s)

end Sys2Proof.Machine
end

