-- ==== Sys2Proof/Machine/Drain.lean ====
section
/-! DEFINITION. The vector unit's functions: curves (05 R106), drain programs (05 R103, Table 05-2) and partial rewrites of a
destination (04 R89). -/

namespace Sys2Proof.Machine

/-! ## Curves (05 R106) -/

/-- fma of values with one rounding to FP32. -/
def vFma (a b c : Val) : Val := rnd32 (Val.add (Val.mul a b) c)

/-- floor(d / 2^e) of a finite d that is not negative; of +∞ a number above every segment. -/
def segOf (d : Val) (e : Int) : Nat :=
  match d with
  | .fin m k => (if e ≤ k then m * 2 ^ (k - e).toNat else m / 2 ^ (e - k).toNat).toNat
  | _ => 2 ^ 40

/-- `eval(curve, x)`. -/
def evalCurve (cv : Curve) (x : Val) : Val :=
  match x with
  | .nan => .nan
  | _ =>
    let w := Val.fin 1 cv.exp
    match rnd32 (Val.add x (Val.neg (f32 cv.lo))) with
    | .nan => .nan
    | d =>
      if d.isNeg then (if (f32 cv.l1).isZero then f32 cv.l0 else vFma (f32 cv.l1) d (f32 cv.l0))
      else
        let i := segOf d cv.exp
        if 256 ≤ i then
          (if (f32 cv.h1).isZero then f32 cv.h0
           else vFma (f32 cv.h1) (rnd32 (Val.add d (Val.neg (Val.scale w 8)))) (f32 cv.h0))
        else
          let t := rnd32 (Val.add d (Val.neg (Val.mul (.fin i 0) w)))
          let c := cv.seg.getD i (0, 0, 0)
          vFma (vFma (f32 c.2.2) t (f32 c.2.1)) t (f32 c.1)

/-- Function record j, from 1: the curves F_j and D_j. -/
def curvesOf (s : State) (j : Nat) : Option (Curve × Curve) := s.job.curves[j - 1]?

/-- F_j, and D_j. -/
def fCurve (s : State) (j : Nat) (x : Val) : Val :=
  match curvesOf s j with
  | some c => evalCurve c.1 x
  | none => x
def dCurve (s : State) (j : Nat) (x : Val) : Val :=
  match curvesOf s j with
  | some c => evalCurve c.2 x
  | none => x

/-- Kind and function index of a program (Table 05-2). -/
def progKind (p : Nat) : Nat := p / 64
def progFn (p : Nat) : Nat := p % 16

/-- The result of a program of kind 0 to 2 on v with side element x. -/
def runProg (s : State) (p : Nat) (v x : Val) : Val :=
  if progKind p = 2 then rnd32 (Val.mul v (dCurve s (progFn p) x))
  else if progFn p = 0 then v
  else fCurve s (progFn p) v

/-! ## Writing some rows of a destination -/

/-- Write the given rows of a tensor, others untouched; a feed-layout tensor is written whole (09 R198). A tagged entry's
remote writes carry its tag (03 R74). -/
def storeSome (c : Ctx) (d : Desc) (rows : List (Nat × List Nat)) (r : Run) : Run :=
  if d.layout = 1 then
    let n := d.dim 1 * d.dim 2
    let x := if (List.range n).all fun i => rows.any fun p => p.1 == i then (List.replicate n [], r) else loadRows c d r
    storeRows c (entryTag c r.s) d (rows.foldl (fun old p => old.set p.1 p.2) x.1) x.2
  else rows.foldl (fun r p => storeRow c (entryTag c r.s) d p.1 p.2 r) r

/-- Write some rows with their block scales, and report them. -/
def writeSome (c : Ctx) (d : Desc) (id : Nat) (rows : List (Nat × OutRow)) (r : Run) : Run :=
  let rows := rows.map fun (p : Nat × OutRow) => (p.1, spoilRow c d p.1 p.2)
  let r := storeSome c d (rows.map fun (p : Nat × OutRow) => (p.1, p.2.codes)) r
  let r := match scaleDesc r.s d with
    | some x => storeSome c.clean x (rows.map fun (p : Nat × OutRow) => (p.1, p.2.scales)) r
    | none => r
  r.mod (reportRows c id (rows.map fun (p : Nat × OutRow) => p.2))

/-- Codes of some rows of a feed-layout tensor: only the lines that hold them are read (05 R104); none for a row of which a read
failed. -/
def tryFeedRows (c : Ctx) (d : Desc) (rows : List Nat) (r : Run) : List (Nat × Option (List Nat)) × Run :=
  (List.range (d.dim 2)).foldl (fun (a : List (Nat × Option (List Nat)) × Run) b =>
    let mine := rows.filter fun i => i / d.dim 1 == b
    let o := d.offset + b * nth d.stride 2 * 64
    let x := (feedLines d (mine.map (· % d.dim 1))).foldl (fun (m : (Mem × List Nat) × Run) l =>
      let y := getBytes c d (o + 64 * l) 64 { m.2 with failed := false }
      ((memWrite m.1.1 (64 * l) y.1, if y.2.failed then l :: m.1.2 else m.1.2),
        { y.2 with failed := m.2.failed || y.2.failed })) (([], []), a.2)
    let bs := memRead x.1.1 0 d.product
    (a.1 ++ mine.map fun i =>
      (i, if (feedLines d [i % d.dim 1]).any x.1.2.contains then none else some (feedRow d (i % d.dim 1) bs)), x.2)) ([], r)

/-- Codes of some rows of a plain or feed-layout tensor, by row number; none for a row of which a read failed. -/
def trySome (c : Ctx) (d : Desc) (rows : List Nat) (r : Run) : List (Nat × Option (List Nat)) × Run :=
  if d.layout = 1 then tryFeedRows c d rows r
  else rows.foldl (fun (a : List (Nat × Option (List Nat)) × Run) i =>
    let x := tryRow c d i a.2
    (a.1 ++ [(i, x.1)], x.2)) ([], r)

/-- Codes and block scales of some rows, by row number. -/
def somePairs (c : Ctx) (d : Desc) (rows : List Nat) (r : Run) : List (Nat × List Nat × List Nat) × Run :=
  let x := trySome c d rows r
  match scaleDesc x.2.s d with
  | some sd =>
    let y := trySome c sd rows x.2
    (x.1.map fun p => (p.1, joinRow d p.2 (lookupD y.1 p.1 (some []))), y.2)
  | none => (x.1.map fun p => (p.1, joinRow d p.2 (some [])), x.2)

/-- Read the values of some rows, by row number. -/
def loadSome (c : Ctx) (d : Desc) (rows : List Nat) (r : Run) : List (Nat × List Val) × Run :=
  let x := somePairs c d rows r
  (x.1.map fun p => (p.1, rowVals d.fmt (scaleExp x.2.s d) p.2.2 p.2.1), x.2)

/-- The values of row `i` among loaded rows. -/
def rowOfVals (rows : List (Nat × List Val)) (i : Nat) : List Val := lookupD rows i []

/-- Drop the reports of a row. -/
def OutRow.quiet (x : OutRow) : OutRow := { x with reports := [] }

/-- A row of zero codes that reports nothing. -/
def quietZero (d : Desc) : OutRow := (zeroRow d.fmt (d.dim 0)).quiet

end Sys2Proof.Machine
end

