-- ==== Sys2Proof/Machine/Arrays.lean ====
section
/-! DEFINITION. `MATMUL` on the dense arrays (04): gang modes, feeding, zero-skip, accumulation and the drain. -/

namespace Sys2Proof.Machine

/-! ## Geometry (R82, R89) -/

/-- Accumulator set. -/
def accSet (e : Entry) : Nat := e.subop % 2
/-- `DRAIN_ADD`. -/
def drainAdd (e : Entry) : Bool := e.subBit 1

/-- Arrays of a batch (Table 04-2). -/
def arraysOf (gang batch : Nat) : List Nat :=
  if gang = 0 then List.range batch
  else if gang = 1 then (List.range batch) ++ (List.range batch).map (· + 2)
  else [0, 1, 2, 3]

/-- The array, row and column of the cell that holds packed row `p`, column `col` of product `b`. -/
def cellOf (gang b p col : Nat) : Nat × Nat × Nat :=
  if gang = 0 then (b, p, col) else if gang = 1 then (b + 2 * (p / 64), p % 64, col)
  else (2 * (p / 64) + col / 64, p % 64, col % 64)

/-- Key of an array's set. -/
def setKey (core array set : Nat) : Nat := (core * 4 + array) * 2 + set
/-- Key of an accumulator. DESIGN CHOICE: log entry 40. DEDUCED: log entry 43. -/
def accKey (core set : Nat) (x : Nat × Nat × Nat) : Nat := setKey core x.1 set * 4096 + x.2.1 * 64 + x.2.2

/-- An unlisted accumulator holds +0. -/
def noF32 : Nat → F32 := fun _ => 0

/-- Put a set at +0 in some arrays: n restarts (R80, R81). -/
def clearSets (core set : Nat) (arrays : List Nat) (s : State) : State :=
  arrays.foldl (fun s a => { s with
    acc := cellClear (setKey core a set * 4096) 4096 s.acc
    ksteps := cellErase (setKey core a set) s.ksteps }) s

/-- Live rows of the tile, in increasing order (R89). -/
def liveRows (m : Nat) (mask : Option (List Nat)) : List Nat :=
  (List.range m).filter fun i => match mask with
    | some bs => nth bs i == 1
    | none => true

/-! ## Feeding (R88, R90 to R93, R219, R224) -/

/-- The two lines of K-step block (g, t) of product b of a feed operand. -/
def blockLines (d : Desc) (b g t : Nat) : List Nat :=
  let l := (d.offset + b * nth d.stride 2 * 64 + (g * kSteps d.fmt (d.dim 0) + t) * 128) / 64
  [l, l + 1]

/-- A line's zero flag as the feeder reads it (R91, R224). -/
def zeroFlag (s : State) (ph : List Phys) (core line : Nat) : Bool :=
  (memRead s.sp (core * 524288 + line * 64) 64).all (· == 0) && !(ph.any fun p => match p with
    | .flagDiffers l => l == line
    | _ => false)

/-- One array's part of an entry: product, feed group and its source groups, column group. -/
structure Feed where
  b : Nat
  grp : Nat
  src : List Nat
  cg : Nat

/-- The arrays that take K-steps: those whose feed group has a live row (R89) and whose column group has a column.
DEDUCED: log entry 44. DESIGN CHOICE: log entry 136. -/
def feedsOf (batch n : Nat) (live : List Nat) : List Feed :=
  ((List.range batch).map fun b =>
    ((chunks 64 live).mapIdx fun g rows => (List.range (ceilDiv n 64)).map fun cg =>
      ({ b := b, grp := g, src := (rows.map (· / 64)).eraseDups, cg := cg } : Feed)).flatten).flatten

/-- K-step `t` of an array is skipped (R92). -/
def skips (s : State) (ph : List Phys) (core : Nat) (a b : Desc) (f : Feed) (t : Nat) : Bool :=
  (f.src.all fun g => (blockLines a f.b g t).all (zeroFlag s ph core)) || (blockLines b f.b f.cg t).all (zeroFlag s ph core)

/-- The most lines of one bank among the distinct lines of a feed wave (R219). -/
def waveCost (ls : List Nat) : Nat :=
  let bs := ls.eraseDups.map spBank
  (List.range 16).foldl (fun m k => max m (bs.filter (· == k)).length) 0

/-- Feed waves added by bank conflicts in K-step t: wave j asks for the A lines of source group j of each feeding array
and for its B lines. DESIGN CHOICE: log entry 137. -/
def stepConflicts (a b : Desc) (t : Nat) (fs : List Feed) : Nat :=
  let n := fs.foldl (fun n f => max n f.src.length) 0
  (List.range n).foldl (fun k j =>
    let ls := (fs.map fun f => match f.src[j]? with
      | some g => blockLines a f.b g t ++ blockLines b f.b f.cg t
      | none => []).flatten
    k + (waveCost ls - 1)) 0

/-- What a `MATMUL` feeds: K-steps fed and skipped, waves added, and the lines read. -/
structure Fed where
  fed : Nat := 0
  skipped : Nat := 0
  conflicts : Nat := 0
  lines : List Nat := []

/-- The feed of an entry, its arrays aligned by the index of the K-step. DESIGN CHOICE: log entry 138. -/
def feedAll (s : State) (ph : List Phys) (core : Nat) (zskip : Bool) (a b : Desc) (fs : List Feed) : Fed :=
  (List.range (kSteps a.fmt (a.dim 0))).foldl (fun x t =>
    let go := fs.filter fun f => !(zskip && skips s ph core a b f t)
    { fed := x.fed + go.length
      skipped := x.skipped + (fs.length - go.length)
      conflicts := x.conflicts + stepConflicts a b t go
      lines := x.lines ++ (go.map fun f => (f.src.map fun g => blockLines a f.b g t).flatten ++ blockLines b f.b f.cg t).flatten })
    {}

/-! ## Operands -/

/-- An operand's element values as the arrays take them: no per-tensor scale, MX scales applied, a zero code zero even in a
block of scale 0xFF (R78). DEDUCED: log entry 55. -/
def feedVals (f : Nat) (scales codes : List Nat) : List Val :=
  codes.mapIdx fun i k => if isZeroCode f k then Val.zero else codeVal f 0 (nth scales (i / 32)) k

/-- The rows of a feed operand with the fed lines that hold an uncorrectable word delivered as zeros. -/
def feedRows (_c : Ctx) (core : Nat) (d : Desc) (bad : List Nat) (s : State) : List (List Nat) :=
  ((List.range (d.dim 2)).map fun b =>
    let o := d.offset + b * nth d.stride 2 * 64
    let bs := bad.foldl (fun bs l => zeroIn o bs (l * 64) 64) (memRead s.sp (core * 524288 + o) d.product)
    (List.range (d.dim 1)).map fun i => feedRow d i bs).flatten

/-- Words that the feeder's reads correct or find uncorrectable, among the lines fed (10 R222, R223).
DEDUCED: log entry 45. -/
def feedFaults (c : Ctx) (core : Nat) (lines : List Nat) (r : Run) : Run :=
  c.ph.foldl (fun r p => match p with
    | .spUncorrectable k o => if k = core ∧ lines.contains (o / 64) then spFault c core (o / 8 * 8) r else r
    | .spCorrected k o =>
      if k = core ∧ lines.contains (o / 64) ∧ !r.s.spFix.contains (core * 524288 + o / 8 * 8) then
        r.mod fun s => countCorrected 1 (errCount .core core 1 { s with spFix := s.spFix ++ [core * 524288 + o / 8 * 8] })
      else r
    | _ => r) r

/-! ## Accumulation (R77 to R80) -/

/-- One K-step of one cell: the exact sum of the accumulator and the products, rounded once. `mix`: the Mixer-64 result
of `LONG_SUM`. -/
def kStep (acc : F32) (ps : List (Val × Val)) (mix : Option Nat) : F32 :=
  let v := ps.foldl (fun v p => Val.add v (Val.mulZ p.1 p.2)) (f32 acc)
  match mix with
  | some r => srF32 v r
  | none => toF32 v

/-- All K-steps of one cell: `n0` is n of the first, `e0` its e, `lng` whether `LONG_SUM` holds. -/
def cellRun (seed step id n0 e0 kper : Nat) (lng : Bool) (av bv : List Val) (acc : F32) : F32 :=
  (chunks kper (av.zip bv)).zipIdx.foldl (fun acc x =>
    kStep acc x.1 (if lng then some (mixer64 seed step id ((e0 + 2 ^ 32 * (n0 + x.2)) % 2 ^ 64)) else none)) acc

/-- Run the products of a batch into the accumulators. DEDUCED: log entry 42. DESIGN CHOICE: log entry 171. -/
def accumulate (c : Ctx) (core : Nat) (a b : Desc) (live : List Nat) (av bv : List (List Val)) (s : State) : State :=
  let e := c.e
  let set := accSet e
  let m := a.dim 1
  let n := b.dim 1
  let cells := ((List.range (a.dim 2)).map fun bb =>
    (live.zipIdx.map fun x => (List.range n).map fun col => (bb, x.1, x.2, col)).flatten).flatten
  let acc := cells.foldl (fun acc x =>
    let cell := cellOf e.gang x.1 x.2.2.1 x.2.2.2
    let key := accKey core set cell
    let v := cellRun s.job.seed.toNat (stepNo s) e.tensorId (cellGet noNat s.ksteps (setKey core cell.1 set))
      (x.1 * 16384 + x.2.1 * 128 + x.2.2.2) (kPer a.fmt) e.longSum (av.getD (x.1 * m + x.2.1) [])
      (bv.getD (x.1 * n + x.2.2.2) []) (cellGet noF32 s.acc key)
    cellSet noF32 acc key v) s.acc
  let used := (cells.map fun x => (cellOf e.gang x.1 x.2.2.1 x.2.2.2).1).eraseDups
  let t := kSteps a.fmt (a.dim 0)
  { s with
    acc := acc
    ksteps := used.foldl (fun k i =>
      cellSet noNat k (setKey core i set) (cellGet noNat k (setKey core i set) + t)) s.ksteps }

/-! ## Residue faults (R99) -/

/-- The arrays' parts that are fed a K-step: not every one is skipped (R92). -/
def fedFeeds (s : State) (ph : List Phys) (core : Nat) (zskip : Bool) (a b : Desc) (fs : List Feed) : List Feed :=
  fs.filter fun f => (List.range (kSteps a.fmt (a.dim 0))).any fun t => !(zskip && skips s ph core a b f t)

/-- Row `row` of array `a` is one that the entry drives: a live row of a part that is fed lies there (R89, R92). -/
def drives (gang : Nat) (fs : List Feed) (live : List Nat) (a row : Nat) : Bool :=
  fs.any fun f => (List.range live.length).any fun p =>
    let x := cellOf gang f.b p (64 * f.cg)
    p / 64 == f.grp && x.1 == a && x.2.1 == row

/-- The spare row or column of array `a` serves row `row` or column `col` (Tables 04-6, 04-7). -/
def inSpare (s : State) (core a row col : Nat) : Bool :=
  let l := Reg.arraySub core
  (getB s l (16 * a + 15) && getF s l (16 * a + 13) (16 * a + 8) == row) ||
    (getB s l (16 * a + 7) && getF s l (16 * a + 5) (16 * a) == col)

/-- Residue mismatches of cells that the entry drives: of each cell the log, the cell's fault, and an event of its own. -/
def residueFault (c : Ctx) (fs : List Feed) (live : List Nat) (r : Run) : Run :=
  c.ph.foldl (fun r p => match p with
    | .residue a row col =>
      if !drives c.e.gang fs live a row then r
      else
        let l := Reg.residueLog c.inst
        let s := noteUnitFault 2 c.inst (a * 4096 + row * 64 + col) r.s
        let s := if getB s l 63 then s
          else rset s l (BitVec.ofNat 64 (2 ^ 63 + b2n (inSpare s c.inst a row col) * 2 ^ 62 + a * 2 ^ 60 + row * 2 ^ 54 +
            col * 2 ^ 48 + c.idx % 2 ^ 28 * 2 ^ 16))
        { r with s := s, evs := r.evs ++ [{ code := 0x0401, ty := .core, inst := c.inst }] }
    | _ => r) r

/-! ## The drain (R94) -/

/-- Descale an accumulator (step 1). -/
def descale (x : F32) (sa sb : Int) : Val := rnd32 (Val.scale (f32 x) (-(sa + sb)))

/-- Drain the set of the entry: every live element in order, masked rows as R89 gives, the set left at +0. Under `DRAIN_ADD` the
sum written is what is reported (R97). DESIGN CHOICE: log entry 139. -/
def drainTile (c : Ctx) (core : Nat) (a b : Desc) (live : List Nat) (r : Run) : Run :=
  let e := c.e
  let d := descOr r.s e.descC
  let side := descOr r.s (e.descC + 1)
  let kind := progKind e.drainProg
  let m := a.dim 1
  let n := b.dim 1
  let batch := a.dim 2
  let quiet := fun (o : OutRow) => if c.voided then o.quiet else o
  let all := List.range (batch * m)
  let ofLive := all.filter fun i => live.contains (i % m)
  let masked := all.filter fun i => !live.contains (i % m)
  let mrows := fun (d : Desc) => masked.map fun i => (i, quietZero d)
  if c.void0 then
    let zs := fun (d : Desc) => ofLive.map fun i => (i, quietZero d)
    let r := if kind = 1 then writeSome c side 0xFFFF (zs side ++ mrows side) r else r
    let r := writeSome c d 0xFFFF (zs d ++ (if e.keepDest || drainAdd e then [] else mrows d)) r
    r.mod (clearSets core (accSet e) (arraysOf e.gang batch))
  else
    let xs := if kind = 2 then loadSome c side ofLive r else ([], r)
    let ys := if drainAdd e then loadSome c d ofLive xs.2 else ([], xs.2)
    let r := ys.2
    let sa := scaleExp r.s a
    let sb := scaleExp r.s b
    let vs := ofLive.map fun i =>
      (i, (List.range n).map fun col =>
        descale (cellGet noF32 r.s.acc (accKey core (accSet e) (cellOf e.gang (i / m) (live.findIdx (· == i % m)) col))) sa sb)
    let outs := vs.map fun p =>
      let side := rowOfVals xs.1 p.1
      let ws := p.2.mapIdx fun k v => runProg r.s e.drainProg v (side.getD k Val.zero)
      let old := rowOfVals ys.1 p.1
      let ws := if drainAdd e then ws.mapIdx fun k w => rnd32 (Val.add (old.getD k Val.zero) w) else ws
      (p.1, quiet (encodeRow d.fmt (scaleExp r.s d) ws))
    let r := if kind = 1 then
        writeSome c side (e.tensorId + 1)
          ((vs.map fun p => (p.1, quiet (encodeRow side.fmt (scaleExp r.s side) p.2))) ++ mrows side) r
      else r
    let r := writeSome c d e.tensorId (outs ++ (if e.keepDest || drainAdd e then [] else mrows d)) r
    r.mod (clearSets core (accSet e) (arraysOf e.gang batch))

/-- The effect of a `MATMUL`. A voided one feeds nothing; it still applies `ACC_INIT` and drains (14 R317).
DESIGN CHOICE: log entry 155. -/
def matmulEff (c : Ctx) (r : Run) : Run :=
  let e := c.e
  let core := c.inst
  let a := descOr r.s e.descA
  let b := descOr r.s e.descB
  let x := if e.maskDesc = noDesc then (none, r)
    else
      let y := loadRow c (descOr r.s e.maskDesc) 0 r
      (some y.1, y.2)
  let live := liveRows (a.dim 1) x.1
  let r := if e.accInit then x.2.mod (clearSets core (accSet e) (arraysOf e.gang (a.dim 2))) else x.2
  let r := if c.voided then r
    else
      let sa := loadScales c a r
      let sb := loadScales c b sa.2
      let r := sb.2
      let fs := feedsOf (a.dim 2) (b.dim 1) live
      let f := feedAll r.s c.ph core e.zeroSkip a b fs
      let fed := fedFeeds r.s c.ph core e.zeroSkip a b fs
      let bad := c.ph.filterMap fun p => match p with
        | .spUncorrectable k o => if k = core ∧ f.lines.contains (o / 64) then some (o / 64) else none
        | _ => none
      let av := (feedRows c core a bad r.s).mapIdx fun i row => feedVals a.fmt (sa.1.getD i []) row
      let bv := (feedRows c core b bad r.s).mapIdx fun i row => feedVals b.fmt (sb.1.getD i []) row
      let r := feedFaults c core f.lines r
      let r := r.mod fun s => incMod (incMod (incMod s (Reg.arrayFed core) 47 0 f.fed) (Reg.arraySkipped core) 47 0 f.skipped)
        (Reg.spFeedConflict core) 47 0 f.conflicts
      let r := f.lines.eraseDups.foldl (fun r l => r.mod (spTouch core (l * 64) 64)) r
      residueFault c fed live (r.mod (accumulate c core a b live av bv))
  let r := if e.drain then drainTile c core a b live r else r
  physEvents c r

/-- MATMUL: feeds its K-steps through the arrays into an accumulator set and optionally drains the tile (04 R83). -/
def execMatmul (st : Nat) (ph : List Phys) (s : State) : Host.Outcome State Fault Refusal :=
  .next (issue st (fun e => e.op == 0x10) ph matmulEff s)

end Sys2Proof.Machine
end

