-- ==== Sys2Proof/Machine/Mover.lean ====
section
/-! DEFINITION. The movers' `COPY`, `TRANSPOSE`, `PERMUTE` and `FILL` (09 R205 to R217). -/

namespace Sys2Proof.Machine

/-! ## Codes moved or converted (R206) -/

/-- Codes are copied unchanged: equal formats and, for a per-tensor scaled one, equal scale ids. -/
def codesKept (a d : Desc) : Bool := a.fmt == d.fmt && (!isScaled a.fmt || a.scaleId == d.scaleId)

/-- Source dimension of each destination dimension. -/
def permList (e : Entry) (rank : Nat) : List Nat :=
  if e.op = 0x31 then [1, 0, 2, 3, 4, 5]
  else if e.op = 0x32 then (List.range 6).map fun d => if d < rank then e.perm d else d
  else List.range 6

/-- The source index (row, dimension 0) of destination element (row, k) (R208). -/
def sourceOf (a d : Desc) (perm : List Nat) (row k : Nat) : Nat × Nat :=
  let j := k :: d.rowIdx row
  let i := (List.range 6).map fun p => nth j (perm.findIdx (· == p))
  (a.rowOfIdx i.tail, i.headD 0)

/-- Rearrange rows into the destination's order. -/
def permuteRows {α : Type} (dflt : α) (a d : Desc) (perm : List Nat) (rows : List (List α)) : List (List α) :=
  (List.range d.rows).map fun row => (List.range (d.dim 0)).map fun k =>
    let x := sourceOf a d perm row k
    (rows.getD x.1 []).getD x.2 dflt

/-- Rearrange whole rows, when dimension 0 stays (R208). -/
def permuteWhole {α : Type} (a d : Desc) (perm : List Nat) (rows : List (List α)) : List (List α) :=
  (List.range d.rows).map fun row => rows.getD (sourceOf a d perm row 0).1 []

/-- The rows that a mover entry writes, from its source (R206, R208). -/
def movedRows (c : Ctx) (a d : Desc) (perm : List Nat) (r : Run) : List OutRow × Run :=
  let x := loadPairs c a r
  let codes := x.1.map (·.1)
  let s := x.2.s
  let whole := nth perm 0 == 0
  if codesKept a d && (whole || !isMx a.fmt) then
    let rows := if whole then permuteWhole a d perm codes else permuteRows 0 a d perm codes
    let scales := if isMx a.fmt then permuteWhole a d perm (x.1.map (·.2)) else []
    (rows.mapIdx fun i row => copyRow d.fmt (scaleExp s d) (scales.getD i []) row, x.2)
  else
    let vs := valsOf a.fmt (scaleExp s a) x.1
    let rows := if whole then permuteWhole a d perm vs else permuteRows Val.zero a d perm vs
    (rows.map (encodeRow d.fmt (scaleExp s d)), x.2)

/-! ## Counters (R217) -/

/-- Bytes of a tensor as a mover reads or writes it, its scale tensor included. -/
def plainBytes (d : Desc) : Nat := if d.layout = 1 then d.dim 2 * d.product else if d.layout = 2 then d.dim 0 else d.rows * d.rowBytes
def tensorBytes (s : State) (d : Desc) : Nat :=
  plainBytes d + (match scaleDesc s d with
    | some x => plainBytes x
    | none => 0)

/-- Blocks of 64 rows of 64 bytes through the tile. DEDUCED: log entry 60. -/
def tileBlocks (a d : Desc) (perm : List Nat) : Nat :=
  let p := nth perm 0
  if p = 0 then 0
  else
    let per := 512 / max (widthOf a.fmt) (widthOf d.fmt)
    ceilDiv (a.dim 0) per * ceilDiv (a.dim p) 64 * (a.count / (a.dim 0 * a.dim p))

/-- Count a mover entry. -/
def countMover (c : Ctx) (rd wr tiles members : Nat) (s : State) : State :=
  incMod (incMod (incMod (incMod s (Reg.movRead c.inst) 47 0 rd) (Reg.movWritten c.inst) 47 0 wr)
    (Reg.movTiles c.inst) 47 0 tiles) (Reg.movMembers c.inst) 47 0 members

/-- The tensor id under which an entry reports: none for a voided entry (14 R317). -/
def reportId (c : Ctx) : Nat := if c.voided then 0xFFFF else c.e.tensorId

/-! ## Compressed streams (07 R168) -/

/-- A compressed stream as plain bytes. -/
def asBytes (d : Desc) : Desc := if d.layout = 2 then { d with layout := 0, fmt := 9 } else d

/-- Copy a compressed stream slot by slot: the header, then the lines that it gives. DESIGN CHOICE: log entry 157. -/
def copyStream (c : Ctx) (g : GTag) (a d : Desc) (r : Run) : Run :=
  (List.range (a.dim 0 / 4160)).foldl (fun r k =>
    let h := getBytes c a (a.offset + 4160 * k) 64 r
    let n := max 1 (min 65 (bits (leAt h.1 0 8) 38 32))
    let t := getBytes c a (a.offset + 4160 * k + 64) (64 * (n - 1)) h.2
    (putBytes c g d (d.offset + 4160 * k) (spoil c (4160 * k) (h.1 ++ t.1)) t.2).mod
      (countMover c (64 * n) (64 * n) 0 0)) r

/-! ## COPY, TRANSPOSE, PERMUTE -/

/-- Destination of a mover entry: an in-place transpose writes its source. -/
def moverDest (s : State) (e : Entry) : Desc := if e.op = 0x31 ∧ e.inPlace then descOr s e.descA else descOr s e.descC

/-- The effect of `COPY`, `TRANSPOSE` and `PERMUTE`. A voided tagged entry writes zero codes; a voided untagged one runs as
usual but reports nothing (14 R317). DESIGN CHOICE: log entry 160. -/
def moveEff (c : Ctx) (r : Run) : Run :=
  let a := descOr r.s c.e.descA
  let d := moverDest r.s c.e
  let perm := permList c.e a.rank
  let g := entryTag c r.s
  let r :=
    if c.void0 then (writeZeros c g (asBytes d) r).mod (countMover c 0 (tensorBytes r.s d) (tileBlocks a d perm) 0)
    else
      let r := r.mod (departBy c d)
      if a.layout = 2 then copyStream c g a d r
      else
        let x := movedRows c a d perm r
        (writeRows c g d (reportId c) x.1 x.2).mod
          (countMover c (tensorBytes r.s a) (tensorBytes r.s d) (tileBlocks a d perm) 0)
  physEvents c r

/-- COPY: moves or converts a tensor (09 R206). -/
def execCopy (st : Nat) (ph : List Phys) (s : State) : Host.Outcome State Fault Refusal :=
  .next (issue st (fun e => e.op == 0x30) ph moveEff s)

/-- TRANSPOSE: dimensions 0 and 1 change places, in place or not (09 R208, R209). -/
def execTranspose (st : Nat) (ph : List Phys) (s : State) : Host.Outcome State Fault Refusal :=
  .next (issue st (fun e => e.op == 0x31) ph moveEff s)

/-- PERMUTE: dimensions in the order of `PERM` (09 R208). -/
def execPermute (st : Nat) (ph : List Phys) (s : State) : Host.Outcome State Fault Refusal :=
  .next (issue st (fun e => e.op == 0x32) ph moveEff s)

/-! ## FILL (R210, R211) -/

/-- Logical cores in a 16-byte core group entry, in increasing order. -/
def groupMembers (bs : List Byte) : List Nat := (List.range 128).filter fun k => bit (leNat bs) k

/-- Members of a `FILL`: the cores of its group, or its one core. -/
def fillMembers (c : Ctx) (d : Desc) (r : Run) : List Nat × Run :=
  if c.e.coreGroup = 0 then ([d.unit], r)
  else
    let t := descOr r.s c.e.descB
    let x := getBytes c t (t.offset + 16 * c.e.coreGroup) 16 r
    (groupMembers x.1, x.2)

/-- The context of a write into logical core `u`: `UNIT` 0xFFF names that core. -/
def Ctx.into (c : Ctx) (s : State) (u : Nat) : Ctx := { c with inst := (physOf s .core u).getD 0 }

/-- Write the rows of a `FILL` into one member; nothing is reported here. -/
def fillOne (c : Ctx) (d : Desc) (rows : List OutRow) (u : Nat) (r : Run) : Run :=
  writeRows (c.into r.s u) {} d 0xFFFF rows r

/-- The effect of a `FILL`: the source is read once, every member takes the same bytes, and each element is reported once
(R207, R210). -/
def fillEff (c : Ctx) (r : Run) : Run :=
  let a := descOr r.s c.e.descA
  let d := descOr r.s c.e.descC
  let m := fillMembers c d r
  let x := if c.void0 then (List.replicate d.rows (zeroRow d.fmt (d.dim 0)), m.2) else movedRows c a d (List.range 6) m.2
  let r := m.1.foldl (fun r u => fillOne c d x.1 u r) x.2
  let r := r.mod (reportRows c (reportId c) (spoilRows c d x.1))
  let r := r.mod (countMover c (if c.void0 then 0 else tensorBytes r.s a) (tensorBytes r.s d) 0
    (if c.e.coreGroup = 0 then 0 else m.1.length))
  physEvents c r

/-- FILL: a copy into one core's scratchpad, or into every member of a core group (09 R210). -/
def execFill (st : Nat) (ph : List Phys) (s : State) : Host.Outcome State Fault Refusal :=
  .next (issue st (fun e => e.op == 0x33) ph fillEff s)

end Sys2Proof.Machine
end

