-- ==== Sys2Proof/Machine/Vector.lean ====
section
/-! DEFINITION. `VECTOR` (05 R108 to R110) and `OPTIM` (06 R131 to R135) on the vector unit. -/

namespace Sys2Proof.Machine

/-! ## Rounded operations (05 R107) -/

def rAdd (a b : Val) : Val := rnd32 (Val.add a b)
def rSub (a b : Val) : Val := rnd32 (Val.add a (Val.neg b))
def rMul (a b : Val) : Val := rnd32 (Val.mul a b)
def rDiv (a b : Val) : Val := rnd32 (Val.div a b)
def rSqrt (a : Val) : Val := rnd32 (Val.sqrt a)

/-! ## VECTOR -/

/-- Whether a program reads `DESC_B` (05 Tables 05-2, 05-6). -/
def readsSide (p : Nat) : Bool := progKind p == 2 || p == 0xC0 || p == 0xC1 || p == 0xC4 || p == 0xC5

/-- The larger of two values that are not NaN. -/
def maxVal (a b : Val) : Val := if Val.lt a b then b else a

/-- Maximum of a row: NaN if any element is NaN (Table 05-6). -/
def rowMax : List Val → Val
  | [] => .nan
  | v :: vs => if (v :: vs).any fun x => decide (x = .nan) then .nan else vs.foldl maxVal v

/-- One row of a program's result (Tables 05-2, 05-6): `v` the input row, `x` the side row. -/
def vectorRow (s : State) (p : Nat) (v x : List Val) : List Val :=
  if p = 0xC0 then v.mapIdx fun i a => rAdd a (x.getD i Val.zero)
  else if p = 0xC1 then v.mapIdx fun i a => rMul a (x.getD i Val.zero)
  else if p = 0xC2 then [v.foldl rAdd Val.zero]
  else if p = 0xC3 then [rowMax v]
  else if p = 0xC4 then v.map fun a => rMul a (x.getD 0 Val.zero)
  else if p = 0xC5 then v.map fun a => rSub a (x.getD 0 Val.zero)
  else v.mapIdx fun i a => runProg s p a (x.getD i Val.zero)

/-- The effect of a `VECTOR`. -/
def vectorEff (c : Ctx) (r : Run) : Run :=
  let p := c.e.prog
  let a := descOr r.s c.e.descA
  let side := descOr r.s c.e.descB
  let d := descOr r.s c.e.descC
  let r :=
    if c.voidPlain then r
    else if c.void0 then
      let r := if progKind p = 1 then writeZeros c {} side r else r
      writeZeros c {} d r
    else
      let x := loadVals c a r
      let y := if readsSide p then loadVals c side x.2 else ([], x.2)
      let r := y.2
      let outs := x.1.mapIdx fun i v => encodeRow d.fmt (scaleExp r.s d) (vectorRow r.s p v (y.1.getD i []))
      let r := if progKind p = 1 then
          writeRows c {} side (c.e.tensorId + 1) (x.1.map fun v => encodeRow side.fmt (scaleExp r.s side) v) r
        else r
      writeRows c {} d c.e.tensorId outs r
  physEvents c r

/-- VECTOR: a program over scratchpad tensors in the vector unit (05 R108). -/
def execVector (st : Nat) (ph : List Phys) (s : State) : Host.Outcome State Fault Refusal :=
  .next (issue st (fun e => e.op == 0x20) ph vectorEff s)

/-! ## OPTIM -/

/-- `pow` of R133: one rounding per multiply. -/
def powLoop : Nat → Val → Val → Nat → Val
  | 0, p, _, _ => p
  | n + 1, p, b, k => if k = 0 then p else powLoop n (if k % 2 = 1 then rMul p b else p) (rMul b b) (k / 2)

/-- `pow(b, k)` for a 64-bit k. -/
def powF (b : Val) (k : Nat) : Val := powLoop 65 Val.one b k

/-- What R133 computes once per entry. -/
structure OptConst where
  eta : Val
  a1 : Val
  a2 : Val
  c1 : Val
  c2 : Val

/-- R133, for t committed updates plus 1. -/
def optConst (s : State) (h : Hyper) (t : Nat) : OptConst :=
  let b1 := f32 h.beta1
  let b2 := f32 h.beta2
  let eta := if h.curve = 0 then f32 h.lr else rMul (f32 h.lr) (fCurve s h.curve (rnd32 (.fin t 0)))
  { eta := eta, a1 := rSub Val.one b1, a2 := rSub Val.one b2
    c1 := if h.biasCorr then rDiv Val.one (rSub Val.one (powF b1 t)) else Val.one
    c2 := if h.biasCorr then rDiv Val.one (rSub Val.one (powF b2 t)) else Val.one }

/-- One element before and after: codes of m, v, weight and remainder. -/
structure OptElem where
  m : Nat
  v : Nat
  w : Nat
  rho : Nat

/-- The new element of R134 and the encoding X, or `none` where a value is not finite and the old one is kept. -/
def optElem (h : Hyper) (k : OptConst) (adam ext : Bool) (r : Nat) (g0 : Val) (x : OptElem) : Option (OptElem × F32) :=
  let w := if ext then f32 (BitVec.ofNat 32 (x.w * 65536 + x.rho * 256)) else decodeElem 3 x.w
  let g := rMul g0 (f32 h.gscale)
  let m := decodeElem 7 x.m
  let m2 := if adam then vFma (f32 h.beta1) m (rMul k.a1 g) else vFma (f32 h.beta1) m g
  let v2 := if adam then vFma (f32 h.beta2) (decodeElem 7 x.v) (rMul k.a2 (rMul g g)) else Val.zero
  let d := if adam then rDiv (rMul m2 k.c1) (rAdd (rSqrt (rMul v2 k.c2)) (f32 h.eps)) else m2
  let w2 := vFma (Val.neg k.eta) (vFma (f32 h.decay) w d) w
  let y := if ext then srX w2 r else srBf16 w2 r
  if m2.isFin && v2.isFin && w2.isFin && (f32 y).isFin then
    some ({ m := (toF32 m2).toNat, v := if adam then (toF32 v2).toNat else x.v, w := y.toNat / 65536,
            rho := if ext then y.toNat / 256 % 256 else x.rho }, y)
  else none

/-- The hyperparameter record that an entry names (Table 06-5). -/
def hyperOf (s : State) (id : Nat) : Hyper :=
  lookupD s.job.hypers id
    { beta1 := 0, beta2 := 0, eps := 0, decay := 0, gscale := 0, lr := 0, curve := 0, biasCorr := false }

/-- Reports of the updated elements: weights under X, moments under their own values (06 R135).
DEDUCED: log entry 57. -/
def optReports (f : Nat) (xs : List (F32 × Nat)) : OutRow :=
  { codes := [], reports := xs.map fun x => { w := f32 x.1, fmt := f, code := x.2, sat := false } }

/-- The update of every element (06 R134, R135). -/
def optimRun (c : Ctx) (r : Run) : Run :=
  let e := c.e
  let adam := e.prog == 2
  let ext := e.updateMode == 2
  let dw := descOr r.s e.descC
  let dm := descOr r.s e.descB
  let dv := descOr r.s (e.descB + 1)
  let dr := descOr r.s (e.descC + 1)
  let g := loadVals c (descOr r.s e.descA) r
  let m := loadRows c dm g.2
  let v := if adam then loadRows c dv m.2 else ([], m.2)
  let w := loadRows c dw v.2
  let rho := if ext then loadRows c dr w.2 else ([], w.2)
  let r := rho.2
  let h := hyperOf r.s (e.descA + 1)
  let k := optConst r.s h ((rget r.s Reg.updateCount).toNat + 1)
  let n := dw.dim 0
  let rows := g.1.mapIdx fun i gs => gs.mapIdx fun j gv =>
    let x : OptElem :=
      { m := nth (m.1.getD i []) j, v := nth (v.1.getD i []) j, w := nth (w.1.getD i []) j, rho := nth (rho.1.getD i []) j }
    (x, optElem h k adam ext
      (mixer64 r.s.job.seed.toNat (stepNo r.s) e.tensorId ((dw.indexBase + i * n + j) % 2 ^ 64)) gv x)
  let new := rows.map fun xs => xs.map fun (x : OptElem × Option (OptElem × F32)) => match x.2 with
    | some y => y.1
    | none => x.1
  let done := (rows.map fun xs => xs.filterMap fun (x : OptElem × Option (OptElem × F32)) => x.2).flatten
  let kept := (rows.map fun xs => (xs.filter fun (x : OptElem × Option (OptElem × F32)) => x.2.isNone).length).foldl (· + ·) 0
  let r := storeRows c {} dm (new.map fun xs => xs.map OptElem.m) r
  let r := if adam then storeRows c {} dv (new.map fun xs => xs.map OptElem.v) r else r
  let r := storeRows c {} dw (new.map fun xs => xs.map OptElem.w) r
  let r := if ext then storeRows c {} dr (new.map fun xs => xs.map OptElem.rho) r else r
  let f32Of := fun (n : Nat) => (BitVec.ofNat 32 n, n)
  let r := r.mod (reportRows c e.tensorId [optReports 3 (done.map fun x => (x.2, x.1.w))])
  let r := r.mod (reportRows c (e.tensorId + 1) [optReports 7 (done.map fun x => f32Of x.1.m)])
  let r := if adam then r.mod (reportRows c (e.tensorId + 2) [optReports 7 (done.map fun x => f32Of x.1.v)]) else r
  if kept = 0 then r
  else r.mod fun s =>
    let s := report c.district e.tensorId { nonfinite := min kept (2 ^ 32 - 1) } s
    { s with step := { s.step with updateNonfinite := true } }

/-- The effect of an `OPTIM`. -/
def optimEff (c : Ctx) (r : Run) : Run :=
  let e := c.e
  let r :=
    if c.voidPlain then r
    else if c.void0 then
      let r := writeZeros c {} (descOr r.s e.descB) r
      let r := if e.prog = 2 then writeZeros c {} (descOr r.s (e.descB + 1)) r else r
      let r := writeZeros c {} (descOr r.s e.descC) r
      if e.updateMode = 2 then writeZeros c {} (descOr r.s (e.descC + 1)) r else r
    else optimRun c r
  physEvents c r

/-- OPTIM: SGDM or ADAMW in mode U16 or U16X (06 R134). -/
def execOptim (st : Nat) (ph : List Phys) (s : State) : Host.Outcome State Fault Refusal :=
  .next (issue st (fun e => e.op == 0x21) ph optimEff s)

end Sys2Proof.Machine
end

