-- ==== Sys2Proof/Machine/Junction.lean ====
section
/-! DEFINITION. The Junction engines' `GATHER`, `SCATTER_ADD`, `MERGE`, `HISTOGRAM`, `COMPRESS` and `DECOMPRESS` (07). -/

namespace Sys2Proof.Machine

/-! ## Indices (R152 to R154, R157) -/

/-- Elements of an index tensor in position order. -/
def loadIndices (c : Ctx) (d : Desc) (r : Run) : List Int × Run :=
  let x := loadRows c d r
  (x.1.flatten.map fun n => signed (widthOf d.fmt) n, x.2)

/-- Class of an index (Table 07-3). -/
inductive IndexClass where
  | valid (row : Nat) | absent | oob
deriving DecidableEq, Repr

def classify (x : Nat) (i : Int) : IndexClass :=
  if i < 0 then .absent else if i < x then .valid i.toNat else .oob

/-- The row of a valid index. -/
def IndexClass.row? : IndexClass → Option Nat
  | .valid i => some i
  | _ => none

/-- Count an entry's absent and out-of-range indices (R153, R154). -/
def countIndices (c : Ctx) (cs : List IndexClass) (s : State) : State :=
  let absent := (cs.filter fun k => k == .absent).length
  let oob := (cs.filter fun k => k == .oob).length
  let a := Reg.indexStatus c.inst
  let s := incMod (incMod s (Reg.indexAbsent c.inst) 47 0 absent) (Reg.indexOob c.inst) 47 0 oob
  let s := if 0 < absent then setB s a 62 true else s
  let s := if 0 < oob then
      setB (if getB s a 63 then s else setF s a 43 16 (c.idx % 2 ^ 28)) a 63 true
    else s
  { s with step := { s.step with idxAbsent := s.step.idxAbsent + absent, idxOob := s.step.idxOob + oob } }

/-- The fewest fetches of a list of rows, when an occurrence within 32 positions of a fetch of its row is served by it
(R157): `last` holds the position of each row's last fetch. -/
def fewestFetches : Nat → List (Nat × Nat) → List (Option Nat) → Nat
  | _, _, [] => 0
  | p, last, none :: t => fewestFetches (p + 1) last t
  | p, last, some i :: t =>
    match last.find? fun x => x.1 == i with
    | some x => if p < x.2 + 32 then fewestFetches (p + 1) last t else 1 + fewestFetches (p + 1) ((i, p) :: last) t
    | none => 1 + fewestFetches (p + 1) ((i, p) :: last) t

/-- The fetch of its row that serves each position, when an occurrence within 32 positions of a fetch is served by it:
`last` holds each row's last fetch, its position and its number. -/
def fetchPlan : Nat → List (Nat × Nat × Nat) → List (Option Nat) → List Nat
  | _, _, [] => []
  | p, last, none :: t => 0 :: fetchPlan (p + 1) last t
  | p, last, some i :: t =>
    match last.find? fun x => x.1 == i with
    | some x =>
      if p < x.2.1 + 32 then x.2.2 :: fetchPlan (p + 1) last t
      else (x.2.2 + 1) :: fetchPlan (p + 1) ((i, p, x.2.2 + 1) :: last) t
    | none => 0 :: fetchPlan (p + 1) ((i, p, 0) :: last) t

/-- Count the row fetches of a `GATHER`: how many occurrences the engine merges is free between none and all that R157
lets it; of a table in a remote window it merges all. DESIGN CHOICE: log entry 48. -/
def countFetches (c : Ctx) (away : Bool) (rows : List (Option Nat)) (s : State) : State :=
  let n := (rows.filter Option.isSome).length
  let least := fewestFetches 0 [] rows
  let x := if least < n && !away then takeFree s else (0, s)
  let f := least + x.1.toNat % (n - least + 1)
  incMod (incMod x.2 (Reg.fetches c.inst) 47 0 f) (Reg.fetchesMerged c.inst) 47 0 (n - f)

/-! ## GATHER (R156 to R158) -/

/-- A row of codes with its block scales: of a table in feed layout only the lines that hold it are read. -/
def loadCodeRow (c : Ctx) (d : Desc) (i : Nat) (r : Run) : (List Nat × List Nat) × Run :=
  let x := somePairs c d [i] r
  (lookupD x.1 i ([], []), x.2)

/-- The row of an absent or out-of-range index: zero codes, scale bytes 127. -/
def absentRow (d : Desc) : OutRow :=
  copyRow d.fmt 0 (if isMx d.fmt then List.replicate (d.dim 0 / 32) 127 else []) (zeroCodes (d.dim 0))

/-- The effect of a `GATHER`. A row of which a read was refused is written with zero codes (R158). -/
def gatherEff (c : Ctx) (r : Run) : Run :=
  let t := descOr r.s c.e.descA
  let d := descOr r.s c.e.descC
  let r :=
    if c.voidPlain then r
    else if c.void0 then writeZeros c {} d r
    else
      let x := loadIndices c (descOr r.s c.e.descB) r
      let cs := x.1.map (classify t.rows)
      let rows := cs.map IndexClass.row?
      let r := x.2.mod fun s => countFetches c (offHome s t) rows (countIndices c cs s)
      let y := (rows.zip (fetchPlan 0 [] rows)).foldl (fun (a : List OutRow × Run) p => match p.1 with
        | some i =>
          let z := loadCodeRow { c with fetch := p.2 } t i a.2
          (a.1 ++ [copyRow d.fmt (scaleExp z.2.s d) z.1.2 z.1.1], z.2)
        | none => (a.1 ++ [absentRow d], a.2)) ([], r)
      writeRows c {} d c.e.tensorId y.1 y.2
  physEvents c r

/-- GATHER: table rows by index (07 R156). -/
def execGather (st : Nat) (ph : List Phys) (s : State) : Host.Outcome State Fault Refusal :=
  .next (issue st (fun e => e.op == 0x40) ph gatherEff s)

/-! ## SCATTER_ADD (R159 to R161) -/

/-- add32 over a row. -/
def addRow (a b : List Val) : List Val := List.zipWith rAdd a b

/-- The loop of R159 over (row, contribution) pairs in position order. -/
def scatterLoop (rows : List (Nat × List Val)) : List (Nat × List Val) → List (Nat × List Val)
  | [] => rows
  | x :: t => scatterLoop (rows.map fun y => if y.1 = x.1 then (y.1, addRow y.2 x.2) else y) t

/-- The effect of a `SCATTER_ADD`. A voided tagged one writes zero codes into the rows it would write, and counts nothing.
DESIGN CHOICE: log entry 158. -/
def scatterEff (c : Ctx) (r : Run) : Run :=
  let src := descOr r.s c.e.descA
  let d := descOr r.s c.e.descC
  let init := c.e.subBit 1
  let r :=
    if c.voidPlain then r
    else
      let x := loadIndices c (descOr r.s c.e.descB) r
      let cs := x.1.map (classify d.rows)
      let named := cs.zipIdx.filterMap fun y => y.1.row?.map fun i => (i, y.2)
      let touched := (List.range d.rows).filter fun i => named.any fun y => y.1 == i
      let write := if init then List.range d.rows else touched
      if c.void0 then writeSome c d 0xFFFF (write.map fun i => (i, quietZero d)) x.2
      else
        let r := x.2.mod fun s => incMod (countIndices c cs s) (Reg.fetches c.inst) 47 0 named.length
        let y := loadSome c src (named.map (·.2)) r
        let z := if init then (write.map fun i => (i, List.replicate (d.dim 0) Val.zero), y.2) else loadSome c d touched y.2
        let out := scatterLoop z.1 (named.map fun n => (n.1, rowOfVals y.1 n.2))
        writeSome c d c.e.tensorId (out.map fun o => (o.1, encodeRow d.fmt 0 o.2)) z.2
  physEvents c r

/-- SCATTER_ADD: source rows added into FP32 rows in position order (07 R159). -/
def execScatterAdd (st : Nat) (ph : List Phys) (s : State) : Host.Outcome State Fault Refusal :=
  .next (issue st (fun e => e.op == 0x41) ph scatterEff s)

/-! ## MERGE (R162) -/

/-- Partials P, rows of one partial, and row `r` of partial `p` among the rows of `DESC_A`. -/
def mergeParts (a : Desc) : Nat := nth a.extent (a.rank - 1)
def mergeRows (a : Desc) : Nat := if a.rank = 1 then 1 else a.rows / mergeParts a

/-- Row `r` of partial `p`: a single element of a `RANK` 1 tensor. -/
def partRow (a : Desc) (rows : List (List Val)) (p r : Nat) : List Val :=
  if a.rank = 1 then [(rows.getD 0 []).getD p Val.zero] else rows.getD (p * mergeRows a + r) []

/-- Sum the present partials of one row. -/
def mergeRow (start : Option (List Val)) (parts : List (List Val)) : Option (List Val) :=
  parts.foldl (fun acc x => match acc with
    | some y => some (addRow y x)
    | none => some x) start

/-- The effect of a `MERGE`. -/
def mergeEff (c : Ctx) (r : Run) : Run :=
  let a := descOr r.s c.e.descA
  let d := descOr r.s c.e.descC
  let accum := c.e.subBit 0
  let n := mergeRows a
  let r :=
    if c.voidPlain then r
    else
      let m := if c.e.descB = noDesc then (none, r)
        else
          let x := loadRows c (descOr r.s c.e.descB) r
          (some x.1.flatten, x.2)
      let present := fun p i => match m.1 with
        | some bs => nth bs (p * n + i) == 1
        | none => true
      let here := fun i => (List.range (mergeParts a)).filter fun p => present p i
      let write := (List.range n).filter fun i => !accum || !(here i).isEmpty
      let m := (m.1, departs c [c.e.descC] m.2)
      if c.void0 then writeSome c d 0xFFFF (write.map fun i => (i, quietZero d)) m.2
      else
        let x := loadVals c a m.2
        let y := if accum then loadSome c d write x.2 else ([], x.2)
        let out := write.map fun i =>
          let start := if accum then some (rowOfVals y.1 i) else none
          (i, (mergeRow start ((here i).map fun p => partRow a x.1 p i)).getD (List.replicate (d.dim 0) Val.zero))
        writeSome c d c.e.tensorId (out.map fun o => (o.1, encodeRow d.fmt (scaleExp y.2.s d) o.2)) y.2
  physEvents c r

/-- MERGE: partials summed in their order (07 R162). -/
def execMerge (st : Nat) (ph : List Phys) (s : State) : Host.Outcome State Fault Refusal :=
  .next (issue st (fun e => e.op == 0x42) ph mergeEff s)

/-! ## HISTOGRAM (R163) -/

/-- One position: the counts and the ranks so far. -/
def histStep (x : List Nat × List Nat) (k : IndexClass) : List Nat × List Nat :=
  match k with
  | .valid i => (x.1.modify i fun n => min (n + 1) (2 ^ 32 - 1), x.2 ++ [nth x.1 i])
  | _ => (x.1, x.2 ++ [0xFFFFFFFF])

/-- Integer rows, which nothing reports. -/
def plainRows (rows : List (List Nat)) : List OutRow := rows.map fun k => { codes := k }

/-- A flat list as rows of `n`. -/
def rowsOf (n : Nat) (xs : List Nat) : List (List Nat) := chunks n xs

/-- The effect of a `HISTOGRAM`; each output is spoiled by the words that it holds (R171). -/
def histEff (c : Ctx) (r : Run) : Run :=
  let d := descOr r.s c.e.descC
  let rk := descOr r.s c.e.descD
  let ranks := c.e.descD != noDesc
  let g := entryTag c r.s
  let r :=
    if c.voidPlain then r
    else if c.void0 then
      let r := writeZeros c g d r
      if ranks then writeZeros (c.behind d) g rk r else r
    else
      let r := departs c ([c.e.descC] ++ if ranks then [c.e.descD] else []) r
      let x := loadIndices c (descOr r.s c.e.descA) r
      let cs := x.1.map (classify d.count)
      let r := x.2.mod (countIndices c cs)
      let y := if c.e.subBit 1 then
          let z := loadRows c d r
          (z.1.flatten, z.2)
        else (List.replicate d.count 0, r)
      let out := cs.foldl histStep (y.1, [])
      let r := writeRows c g d 0xFFFF (plainRows (rowsOf (d.dim 0) out.1)) y.2
      if ranks then writeRows (c.behind d) g rk 0xFFFF (plainRows (rowsOf (rk.dim 0) out.2)) r else r
  physEvents c r

/-- HISTOGRAM: counts per bin and ranks (07 R163). -/
def execHistogram (st : Nat) (ph : List Phys) (s : State) : Host.Outcome State Fault Refusal :=
  .next (issue st (fun e => e.op == 0x48) ph histEff s)

/-! ## Activation compression (R164 to R170) -/

/-- Bytes of a tensor in linear byte order. -/
def denseBytes (c : Ctx) (d : Desc) (r : Run) : List Byte × Run :=
  if d.layout = 1 then
    (List.range (d.dim 2)).foldl (fun (a : List Byte × Run) b =>
      let y := getBytes c d (d.offset + b * nth d.stride 2 * 64) d.product a.2
      (a.1 ++ y.1, y.2)) ([], r)
  else
    (List.range d.rows).foldl (fun (a : List Byte × Run) i =>
      let y := getBytes c d (d.rowOff i) d.rowBytes a.2
      (a.1 ++ y.1, y.2)) ([], r)

/-- Write a tensor from its bytes in linear byte order. -/
def putDense (c : Ctx) (d : Desc) (bs : List Byte) (r : Run) : Run :=
  let g := entryTag c r.s
  if d.layout = 1 then
    storeRows c g d (((List.range (d.dim 2)).map fun b =>
      (List.range (d.dim 1)).map fun i => feedRow d i ((bs.drop (b * d.product)).take d.product)).flatten) r
  else
    storeRows c g d ((List.range d.rows).map fun i =>
      unpackCodes (widthOf d.fmt) (d.dim 0) ((bs.drop (i * d.rowBytes)).take d.rowBytes)) r

/-- Elements of a tile (R164). -/
def tileElems (f : Nat) : Nat := 32768 / widthOf f

/-- Payload sizes S_B and S_I (R166). -/
def sizeBitmap (f nnz : Nat) : Nat := tileElems f / 8 + (nnz * widthOf f + 7) / 8
def sizeIndex (f nnz : Nat) : Nat := 2 * nnz + (nnz * widthOf f + 7) / 8

/-- Form chosen: 0 BITMAP, 1 DENSE, 2 INDEX (R166; the numbers are the header's two flag bits). -/
def tileForm (f nnz : Nat) : Nat :=
  if 4096 ≤ sizeBitmap f nnz ∧ 4096 ≤ sizeIndex f nnz then 1
  else if sizeBitmap f nnz ≤ sizeIndex f nnz then 0 else 2

/-- Size of a form. -/
def formSize (f nnz form : Nat) : Nat := if form = 1 then 4096 else if form = 0 then sizeBitmap f nnz else sizeIndex f nnz

/-- `LINES` of a form. -/
def formLines (f nnz form : Nat) : Nat := ceilDiv (8 + formSize f nnz form) 64

/-- A compressed tile from its 4,096 bytes: its form and its lines (R165, R166, R167). -/
def compressTile (f k : Nat) (bs : List Byte) : Nat × List Byte :=
  let codes := unpackCodes (widthOf f) (tileElems f) bs
  let nz := codes.zipIdx.filter fun x => !isZeroCode f x.1
  let nnz := nz.length
  let form := tileForm f nnz
  let lines := formLines f nnz form
  let hdr := leBytes 8 (k % 2 ^ 16 * 2 ^ 48 + lines * 2 ^ 32 + nnz * 2 ^ 16 + f * 2 ^ 8 + form)
  let packed := packCodes (widthOf f) (nz.map (·.1))
  let payload := if form = 1 then bs
    else if form = 0 then packCodes 1 (codes.map fun x => if isZeroCode f x then 0 else 1) ++ packed
    else (nz.map fun x => leBytes 2 x.2).flatten ++ packed
  (form, hdr ++ payload ++ List.replicate (64 * lines - 8 - payload.length) 0)

/-- Count a tile compressed (Table 07-11). -/
def countTile (c : Ctx) (form : Nat) (s : State) : State :=
  let a := Reg.tiles c.inst
  if form = 1 then incMod s a 62 42 1 else if form = 0 then incMod s a 41 21 1 else incMod s a 20 0 1

/-- The effect of a `COMPRESS`. A voided tagged one compresses zero codes, and counts no tile (R154).
DESIGN CHOICE: log entry 159. -/
def compressEff (c : Ctx) (r : Run) : Run :=
  let a := descOr r.s c.e.descA
  let d := descOr r.s c.e.descC
  let r :=
    if c.voidPlain then r
    else
      let x := if c.void0 then (List.replicate (plainBytes a) (0 : Byte), r) else denseBytes c a r
      let tiles := (chunks 4096 x.1).map fun b => b ++ List.replicate (4096 - b.length) 0
      tiles.zipIdx.foldl (fun r t =>
        let y := compressTile a.fmt t.2 t.1
        let r := putBytes c (entryTag c r.s) d (d.offset + 4160 * t.2) (spoil c (4160 * t.2) y.2) r
        if c.void0 then r else r.mod (countTile c y.1)) (departs c [c.e.descC] x.2)
  physEvents c r

/-- COMPRESS: activation codes to a stream of compressed tiles (07 R164 to R167). -/
def execCompress (st : Nat) (ph : List Phys) (s : State) : Host.Outcome State Fault Refusal :=
  .next (issue st (fun e => e.op == 0x46) ph compressEff s)

/-- A header's own checks (R169, Table 07-5): reserved bits, flags, tile, format, `NNZ`, and `LINES`, at most 65. -/
def tileHeaderOk (f k h : Nat) : Bool :=
  let form := h % 4
  let nnz := bits h 29 16
  decide (bits h 47 39 = 0 ∧ bits h 31 30 = 0 ∧ bits h 15 12 = 0 ∧ bits h 7 2 = 0 ∧ form ≠ 3 ∧ bits h 63 48 = k % 2 ^ 16 ∧
    bits h 11 8 = f ∧ f ≤ 6 ∧ nnz ≤ tileElems f ∧ bits h 38 32 ≤ 65) && bits h 38 32 == formLines f nnz form

/-- Strictly rising. -/
def rising : List Nat → Bool
  | a :: b :: t => decide (a < b) && rising (b :: t)
  | _ => true

/-- Put codes at element numbers of a zero tile. -/
def placeCodes (n : Nat) (xs : List (Nat × Nat)) : List Nat := xs.foldl (fun l x => l.set x.1 x.2) (List.replicate n 0)

/-- The tile's codes from its payload, or `none` where it fails R169. -/
def decodeTile (f h : Nat) (payload : List Byte) : Option (List Nat) :=
  let w := widthOf f
  let n := tileElems f
  let nnz := bits h 29 16
  if h % 4 = 1 then
    let codes := unpackCodes w n payload
    if (codes.filter fun x => !isZeroCode f x).length = nnz then some codes else none
  else
    let pos := if h % 4 = 0 then (List.range n).filter fun i => codeAt 1 payload i == 1
      else (List.range nnz).map fun i => leAt payload (2 * i) 2
    let codes := unpackCodes w nnz (payload.drop (if h % 4 = 0 then n / 8 else 2 * nnz))
    if pos.length = nnz ∧ rising pos ∧ pos.all (fun p => decide (p < n)) then some (placeCodes n (pos.zip codes)) else none

/-- Decompress tile `k`: its 4,096 bytes, zero codes where it fails a check (R169). -/
def decompressTile (c : Ctx) (a : Desc) (f k : Nat) (r : Run) : List Byte × Run :=
  let o := a.offset + 4160 * k
  let x := getBytes c a o 64 r
  let h := leAt x.1 0 8
  let bad := fun (r : Run) =>
    (List.replicate 4096 (0 : Byte),
      (r.mod (unitLog c 4 2 (k % 2 ^ 16))).raise { code := 0x0702, ty := .jnc, inst := c.inst, detail := k % 2 ^ 16 })
  if tileHeaderOk f k h then
    let y := getBytes c a (o + 64) (64 * (bits h 38 32 - 1)) x.2
    match decodeTile f h ((x.1 ++ y.1).drop 8) with
    | some codes => (packCodes (widthOf f) codes, y.2)
    | none => bad y.2
  else bad x.2

/-- The effect of a `DECOMPRESS`. -/
def decompressEff (c : Ctx) (r : Run) : Run :=
  let a := descOr r.s c.e.descA
  let d := descOr r.s c.e.descC
  let r :=
    if c.voidPlain then r
    else if c.void0 then writeZeros c.clean (entryTag c r.s) { d with aux := noDesc } r
    else
      let x := (List.range (ceilDiv (plainBytes d) 4096)).foldl (fun (acc : List Byte × Run) k =>
        let y := decompressTile c a d.fmt k acc.2
        (acc.1 ++ y.1, y.2)) ([], r)
      putDense c d x.1 (departs c [c.e.descC] x.2)
  physEvents c r

/-- DECOMPRESS: a stream back to codes (07 R169). -/
def execDecompress (st : Nat) (ph : List Phys) (s : State) : Host.Outcome State Fault Refusal :=
  .next (issue st (fun e => e.op == 0x47) ph decompressEff s)

end Sys2Proof.Machine
end

