-- ==== Sys2Proof/Machine/Link.lean ====
section
/-! DEFINITION. The Noloc link (12): the flit on the wire, training and lanes, retry, credits, and the Underpass. -/

namespace Sys2Proof.Machine

/-! ## The flit on the wire (12 R266, R267) -/

/-- Flit header (12 Table 12-4). -/
def flitHeader (f : Flit) : Nat :=
  f.typ * 2 ^ 60 + f.seq % 4096 * 2 ^ 48 + f.ack % 4096 * 2 ^ 36 + f.cls * 2 ^ 34 + b2n f.gv * 2 ^ 32 + f.tag * 2 ^ 16 +
    f.group * 2 ^ 4 + f.len

/-- Bytes of one parity of offsets. -/
def everyOther (c : Nat) (bs : List Byte) : List Byte := (List.range (bs.length / 2)).map fun i => bs.getD (2 * i + c) 0

/-- The 256 bytes of a flit. -/
def flitWire (f : Flit) : List Byte :=
  let body := pad240 f.payload ++ leBytes 8 (flitHeader f)
  let body := body ++ leBytes 4 (crc32 body)
  let k0 := rsCheck 2 (toNats (everyOther 0 body))
  let k1 := rsCheck 2 (toNats (everyOther 1 body))
  body ++ ofNats [nth k0 0, nth k1 0, nth k0 1, nth k1 1]

/-- A flit from its 248 first bytes. -/
def flitOf (bs : List Byte) : Flit :=
  let h := leAt bs 0xF0 8
  { typ := bits h 63 60, seq := bits h 59 48, ack := bits h 47 36, cls := bits h 35 34, gv := bit h 32,
    tag := bits h 31 16, group := bits h 15 4, len := bits h 3 0, payload := bs.take 240 }

/-- What FEC finds in a received flit: the bytes, the offsets of the corrected ones, and whether both codewords decode. -/
structure FecOut where
  bytes : List Byte
  fixed : List Nat
  ok : Bool

/-- Decode one codeword. -/
def fecWord (bs : List Byte) (c : Nat) : List Nat × List Nat × Bool :=
  let cw := toNats (everyOther c bs)
  match rsDecode 2 1 cw with
  | .clean => (cw, [], true)
  | .corrected w _ => (w, ((List.range 128).filter fun i => nth cw i != nth w i).map fun i => 2 * i + c, true)
  | .failed => (cw, [], false)

/-- Decode both codewords (12 R268). -/
def fecDecode (bs : List Byte) : FecOut :=
  let a := fecWord bs 0
  let b := fecWord bs 1
  { bytes := ofNats ((List.range 256).map fun i => nth (if i % 2 = 0 then a.1 else b.1) (i / 2)),
    fixed := a.2.1 ++ b.2.1, ok := a.2.2 && b.2.2 }

/-- All bytes of a run are 0. -/
def zeroRun (bs : List Byte) (o n : Nat) : Bool := ((bs.drop o).take n).all (· == 0)

/-- Reserved content of a `HEAD`, `RESP` or `MARKER` payload (13 Tables 13-1, 13-2, 13-4). -/
def ringPayloadOk (typ : Nat) (b : List Byte) : Bool :=
  decide (leAt b 0 2 < 4096 ∧ leAt b 2 2 < 4096 ∧ leAt b 4 2 < 4096) &&
  (if typ = 2 then
    decide (leAt b 6 1 ≤ 2 ∧ leAt b 7 1 ≤ 1 ∧ leAt b 8 2 < 4096 ∧ leAt b 0xC 2 < 4096 ∧ leAt b 0xE 2 = 0 ∧
      leAt b 0x18 8 % (if leAt b 6 1 = 2 then 16 else 64) = 0) &&
    decide (leAt b 0x10 4 ≤ 15360 ∧ leAt b 0x10 4 % 16 = 0 ∧ 16 ≤ leAt b 0x10 4) && zeroRun b 0x24 204 &&
    (if leAt b 6 1 = 2 then decide (leAt b 8 2 = 0 ∧ leAt b 0xA 2 = 0 ∧ leAt b 0xC 2 = 0 ∧ bits (leAt b 0x20 4) 31 28 ≤ 3)
     else decide (leAt b 0x20 4 = 0))
   else if typ = 4 then
    decide (leAt b 6 1 ≤ 5 ∧ leAt b 7 1 ≤ 1 ∧ leAt b 8 2 < 4096 ∧ leAt b 0xC 2 < 4096 ∧ leAt b 0xE 2 = 0 ∧
      leAt b 0x10 4 ≤ 15360 ∧ leAt b 0x10 4 % 16 = 0 ∧
      (leAt b 0x10 4 = 0 ∨ leAt b 7 1 = 1 ∧ (leAt b 6 1 = 0 ∨ leAt b 6 1 = 5))) && zeroRun b 0x14 220
   else
    decide (leAt b 6 1 ≤ 3 ∧ leAt b 7 1 = 0 ∧ leAt b 8 2 < 4096 ∧ (leAt b 6 1 = 3 → leAt b 8 2 = 0) ∧
      (leAt b 6 1 = 0 ∨ leAt b 6 1 = 3 → leAt b 0xA 2 = 0) ∧ (leAt b 6 1 ≠ 1 → leAt b 0x10 8 = 0)) && zeroRun b 0x18 216)

/-- A flit that passes carries no reserved content (12 R266, R269; R5, R6). `h33`: header bit 33. -/
def flitOk (f : Flit) (h33 : Bool) : Bool :=
  !h33 && decide (f.typ < 8) && (f.gv || decide (f.tag = 0 ∧ f.group = 0)) &&
  (if f.typ = 3 then
    decide (1 ≤ f.len ∧ f.len ≤ 15 ∧ f.cls < 3) && zeroRun f.payload (16 * f.len) (240 - 16 * f.len)
   else decide (f.len = 0)) &&
  (if f.typ = 0 then
    decide (f.cls = 0 ∧ bits (leAt f.payload 6 1) 6 4 = 0) && zeroRun f.payload 7 233
   else if f.typ = 1 then decide (f.cls = 0) && zeroRun f.payload 0 240
   else if f.typ = 2 then decide (f.cls < 3) && ringPayloadOk 2 f.payload
   else if f.typ = 4 then decide (f.cls = 1 ∨ f.cls = 2) && ringPayloadOk 4 f.payload
   else if f.typ = 5 then decide (f.cls = 0) && ringPayloadOk 5 f.payload
   else if f.typ = 6 then decide (f.cls = 0 ∧ bits (leAt f.payload 4 2) 15 13 = 0 ∧ leAt f.payload 6 1 ≤ 5 ∧
      (bit (leAt f.payload 4 2) 12 = true → bits (leAt f.payload 4 2) 11 0 = 0)) && zeroRun f.payload 7 233
   else if f.typ = 7 then decide (f.cls < 3) && zeroRun f.payload 0 240
   else true)

/-! ## Port helpers -/

/-- Change port p. -/
def modPort (p : Nat) (f : Port → Port) (s : State) : State := setPort p (f (port s p)) s

/-- Fill `NLP_FAULT_LOG`, 1 if clear (12 Table 12-17). -/
def nlpLog (p kind seq : Nat) (gv : Bool) (group reason detail : Nat) (s : State) : State :=
  if getB s (Reg.nlpFaultLog p) 63 then s
  else rset s (Reg.nlpFaultLog p)
    (BitVec.ofNat 64 (2 ^ 63 + kind * 2 ^ 60 + seq % 4096 * 2 ^ 48 + b2n gv * 2 ^ 47 + group * 2 ^ 35 + reason * 2 ^ 32 +
      detail % 2 ^ 32))

/-- A hard fault of port p. -/
def portFault (code p detail : Nat) (s : State) : State :=
  raiseHard code .nlp p detail (noteUnitFault (blkCode .nlp) p 0 s)

/-- The device's own identity (fuses). -/
def ownIdentity (s : State) : W64 := s.mgt.fuses.identity

/-- A job is READY or RUNNING. -/
def jobRuns (s : State) : Bool := jobState s == 2 || jobState s == 3

/-- `SEQ` of the next sequenced flit: of the oldest that is still to be sent again, else a new one (12 Table 12-4, R273). -/
def nextFlitSeq (x : Port) : Nat :=
  match x.retry[x.retry.length - x.resend]? with
  | some f => f.seq
  | none => x.txSeq

/-- Put an unsequenced flit on the wire at once: no credit, no `SEQ` of its own (12 Table 12-4). -/
def sendCtl (p typ : Nat) (payload : List Byte) (s : State) : State :=
  let x := port s p
  emit (.flit p (flitWire { typ := typ, seq := nextFlitSeq x, ack := x.rxSeq, payload := payload })) s

/-- Send an `LCTL` (12 Table 12-6). -/
def sendLctl (p : Nat) (s : State) : State :=
  let x := port s p
  let spare := match x.spareReq with
    | some l => 128 + l
    | none => 0
  let s := sendCtl p 0 (leBytes 2 x.freed.1 ++ leBytes 2 x.freed.2.1 ++ leBytes 2 x.freed.2.2 ++ leBytes 1 spare) s
  modPort p (fun x => { x with reported := x.freed, sinceLctl := 0, spareReq := none }) s

/-! ## Training (12 R260 to R265) -/

/-- Start a full training: a written `ROLE` takes effect (R283); behind a closed Underpass the port trains in the loop inside the
package (21 R453). -/
def fullTraining (p : Nat) (s : State) : State :=
  let role := getF s (Reg.linkCtrl p) 1 0
  let closed := !getB s (Reg.underpass p) 0
  let s := modPort p (fun x => { x with role := role, event := 1, fast := false, retried := [], loopback := closed }) s
  if role = 3 then setLink p 5 (setB s (Reg.linkStatus p) 59 false)
  else if closed then setLink p 1 (setB s (Reg.linkStatus p) 59 false)
  else setLink p 2 s

/-- Start a fast retrain of an up link (R264). -/
def startFast (p : Nat) (s : State) : State :=
  if linkState s p = 3 then setLink p 4 (modPort p (fun x => { x with event := 4, fast := true }) s) else s

/-! ## The Underpass (12 R278 to R281) -/

/-- A close trigger is present: a reset land held low, a trip not yet reset, or an entry to SLEEP or STANDBY (18 R395). -/
def closeTrigger (s : State) : Bool :=
  s.mgt.tripped || s.mgt.porLow || s.mgt.rstLow || s.power.seq == .enterSleep || s.power.seq == .enterStandby

/-- Both ports of a pair have `PHY_READY`. -/
def pairReady (s : State) (k : Nat) : Bool := getB s (Reg.linkStatus (2 * k)) 59 && getB s (Reg.linkStatus (2 * k + 1)) 59

/-- A write of `OPEN` on pair `k` by MGT0 or MGT1 (R279, R280); out of service no Underpass opens (19 R418). -/
def doOpen (k : Nat) (s : State) : State :=
  let a := Reg.underpass (2 * k)
  let js := jobState s
  if getB s a 0 || getB s a 1 then s
  else if pairReady s k && !closeTrigger s && !getB s Reg.bringup 62 &&
      (js == 0 || js == 4 || js == 5) then
    let s := pairInt k (setB (setB s a 0 true) a 1 true)
    let go := fun p (s : State) => fullTraining p (modPort p (fun x => { x with loopback := false })
      (setB s (Reg.linkStatus p) 59 false))
    go (2 * k + 1) (go (2 * k) s)
  else pairInt k (setB s a 5 true)

/-- The shipped image opens the pairs that are left at event 12, in order, one open at a time: a pair with a port whose `ROLE` is
DISABLED stays closed, one without `PHY_READY` is waited for, and behind a refused or a failed open the next is tried (19
R419). DEDUCED: log entry 152. -/
def openPairs : List Nat → State → State
  | [], s => { s with mgt := { s.mgt with opening := [] } }
  | k :: t, s =>
    let off := fun p => getF s (Reg.linkCtrl p) 1 0 == 3
    if closeTrigger s || getB s Reg.bringup 62 then { s with mgt := { s.mgt with opening := [] } }
    else if off (2 * k) || off (2 * k + 1) || getB s (Reg.underpass (2 * k)) 0 && !getB s (Reg.underpass (2 * k)) 1 then
      openPairs t s
    else if (List.range 3).any (fun j => getB s (Reg.underpass (2 * j)) 1) || !pairReady s k then
      { s with mgt := { s.mgt with opening := k :: t } }
    else openPairs t (doOpen k s)

/-- Go on with the opens of event 12. -/
def openNext (s : State) : State := if s.mgt.opening = [] then s else openPairs s.mgt.opening s

/-- An accepted write of `CLOSE` on pair `k`. -/
def doClose (k : Nat) (s : State) : State := openNext (closePair k 2 s)

/-- UNDERPASS_OPEN_TIMEOUT: the ports are not both up within 20 ms; the failed open acts as a close trigger (12 R278,
R280), and the next pair of event 12 is tried (19 R419). -/
def execUnderpassOpenTimeout (k : Nat) (s : State) : Host.Outcome State Fault Refusal :=
  .next (if getB s (Reg.underpass (2 * k)) 1 then openNext (alert 0x0C08 (closeAll 3 s)) else s)

/-- The port is lost (R263, R265). `reason`: 0 training failed, 1 lane beyond spare, 2 retrain failed. -/
def portLost (p reason : Nat) (s : State) : State :=
  let s := setB (setB s (Reg.linkStatus p) 56 true) (Reg.blkStatus .nlp p) 63 true
  portFault 0x0C05 p 0 (nlpLog p 4 0 false 0 reason 0 s)

/-- A receive lane that is to move to the spare: over its limit, or without lock; `LANE_SPARED` is an event of class 1, which
is counted alone (R263, R284, 14 Table 14-1). -/
def laneFault (p l : Nat) (s : State) : State :=
  if !getB s (Reg.lane p) 55 then
    let s := setF (setB s (Reg.lane p) 55 true) (Reg.lane p) 51 48 l
    startFast p (countCorrected 1 (sendLctl p (modPort p (fun x => { x with spareReq := some l }) s)))
  else if (port s p).retried.contains l then portLost p 1 s
  else startFast p (modPort p (fun x => { x with retried := l :: x.retried }) s)

/-- Discard the link state (R265). -/
def dropLinkState (p : Nat) (s : State) : State :=
  modPort p (fun x => { discardPort x with
    txSeq := 0, rxSeq := 0, retry := [], resend := 0, fails := 0, failRuns := 0, awaiting := false, txq := [], ctl := []
    credBack := (0, 0, 0), sent := (0, 0, 0), freed := (0, 0, 0), reported := (0, 0, 0), sinceLctl := 0
    resume := false, secGap := 0 }) s

/-- The peer is compatible (R260). -/
def rolesMatch (s : State) (p : Nat) (q : PeerIdentity) : Bool :=
  let r := portRole s p
  if r = 0 then q.role == 0 && q.pair == p / 2 && q.port % 2 != p % 2
  else if r = 1 then q.role == 2
  else if r = 2 then q.role == 1
  else false

/-- Record what the exchange brought (12 Tables 12-12, 12-13); an estimate above 38 dB is marginal (R277). -/
def notePeer (p : Nat) (q : PeerIdentity) (s : State) : State :=
  let a := Reg.linkStatus p
  let s := setF (setF (rset s (Reg.peerId p) q.identity) a 47 45 q.port) a 44 43 q.role
  if (port s p).fast then s
  else
    let s := setB (setF s a 55 48 q.loss) a 57 (decide (152 < q.loss))
    if 152 < q.loss then alert 0x0C07 s else s

/-- Both ports of an opening pair are up: the open sequence has ended (12 Table 12-10), and event 12 goes on (19 R419). -/
def openDone (k : Nat) (s : State) : State :=
  let a := Reg.underpass (2 * k)
  if getB s a 1 && linkState s (2 * k) == 3 && linkState s (2 * k + 1) == 3 then openNext (setB s a 1 false) else s

/-- Another device answers at the ring A up port than the holder of the last START or RESTART: the device has lost its Locker,
and a restart that needs it fails (14 R332, R333). DEDUCED: log entry 130. -/
def holderCheck (p : Nat) (id : W64) (s : State) : State :=
  match s.locker.holder with
  | some h =>
    if p ≠ 1 ∨ h = id then s
    else
      let s := setF s Reg.lockerState 63 62 0
      if 4 ≤ phase s ∧ phase s ≤ 6 ∧ !getB s Reg.restartCtrl 61 then failRestart 0x0E02 (dropRefill s) else s
  | none => s

/-- The link comes up: credits are loaded, or the kept state resumes (R265). -/
def linkUp (p : Nat) (q : PeerIdentity) (s : State) : State :=
  let x := port s p
  let same := match x.peer with
    | some o => x.resume && q.resume && o.identity == q.identity
    | none => false
  let s := if same then s
    else
      let s := dropLinkState p s
      let s := if jobRuns s then
          deviceLoss 0x0C04 .nlp p (q.identity.toNat % 2 ^ 32) (nlpLog p 3 0 false 0 0 q.identity.toNat s)
        else s
      modPort p (fun x => { x with credInit := (q.reqBuf, q.rspBuf, q.secBuf) }) (holderCheck p q.identity s)
  let s := modPort p (fun x => { x with event := 6, fast := false, resume := true, peer := some q }) s
  openDone (p / 2) (setLink p 3 s)

/-- What this end of the identity exchange sends (R260, R270): its role, pair, port, identity, whether it still holds the link
state, and the sizes of its receive buffers (12 Table 12-1). -/
def ownEnd (p : Nat) (s : State) : Out :=
  .identity p (portRole s p) (p / 2) (ownIdentity s) (port s p).resume 1024 512 256

/-- The identity exchange of a training port (R260). DEDUCED: log entry 103. -/
def exchange (p : Nat) (q : PeerIdentity) (s : State) : State :=
  let s := notePeer p q (emit (ownEnd p s) s)
  if rolesMatch s p q then linkUp p q (setB s (Reg.linkStatus p) 58 false)
  else modPort p (fun x => { x with event := 5 }) (setB s (Reg.linkStatus p) 58 true)

/-- The port trains outside loopback and its lanes are locked. -/
def exchanging (s : State) (p : Nat) : Bool :=
  (linkState s p == 2 || linkState s p == 4) && decide (4 ≤ (port s p).event)

/-- LANES_LOCKED: all 17 lanes have been tested and the spares chosen afresh; in loopback the port is ready (R263, R264). -/
def execLanesLocked (p : Nat) (txSpare rxSpare : Option Nat) (s : State) : Host.Outcome State Fault Refusal :=
  .next
    (if linkState s p = 2 ∨ linkState s p = 1 then
      let put := fun (o : Option Nat) (b hi lo : Nat) (s : State) => match o with
        | some l => setF (setB s (Reg.lane p) b true) (Reg.lane p) hi lo l
        | none => setF (setB s (Reg.lane p) b false) (Reg.lane p) hi lo 0
      let s := put rxSpare 55 51 48 (put txSpare 63 59 56 s)
      let s := modPort p (fun x => { x with event := 4, retried := [] }) s
      if linkState s p = 1 then openNext (setB s (Reg.linkStatus p) 59 true) else s
     else s)

/-- IDENTITY_EXCHANGE (12 R260, R264, R265). -/
def execIdentityExchange (p : Nat) (q : PeerIdentity) (s : State) : Host.Outcome State Fault Refusal :=
  .next (if exchanging s p then exchange p q s else s)

/-- IDENTITY_RETRY: a port held by `ROLE_MISMATCH` repeats the exchange every 1 ms (12 R260). -/
def execIdentityRetry (p : Nat) (q : PeerIdentity) (s : State) : Host.Outcome State Fault Refusal :=
  .next (if exchanging s p && getB s (Reg.linkStatus p) 58 then exchange p q s else s)

/-- TRAINING_TIMEOUT: event 6 is not reached within 20 ms of event 2 (12 R265). DESIGN CHOICE: log entry 179. -/
def execTrainingTimeout (p : Nat) (s : State) : Host.Outcome State Fault Refusal :=
  .next
    (if linkState s p = 2 then
      (if jobRuns s then portLost p (if (port s p).resume then 2 else 0) s else setLink p 0 s)
     else s)

/-- TRAINING_RETRY: a port that is DOWN starts training again every 100 ms (12 R265). -/
def execTrainingRetry (p : Nat) (s : State) : Host.Outcome State Fault Refusal :=
  .next (if linkState s p = 0 then fullTraining p s else s)

/-- FAST_RETRAIN_TIMEOUT: a fast retrain past 50 µs becomes a full training (12 R264). -/
def execFastRetrainTimeout (p : Nat) (s : State) : Host.Outcome State Fault Refusal :=
  .next (if linkState s p = 4 then fullTraining p s else s)

/-- LOSS_OF_SIGNAL: a port that is up or training outside loopback starts a full training (12 R264 event 1). -/
def execLossOfSignal (p : Nat) (s : State) : Host.Outcome State Fault Refusal :=
  .next (if linkState s p = 2 ∨ linkState s p = 3 ∨ linkState s p = 4 then fullTraining p s else s)

/-- What an unlisted lane's count is. -/
def laneCount (x : Port) (l : Nat) : Nat := cellGet noNat x.lanes l

/-- LANE_WINDOW: a 1 s window ends; lanes over `LANE_LIMIT` × 1,024 move to the spare (12 R263).
DESIGN CHOICE: log entry 178. -/
def execLaneWindow (p : Nat) (s : State) : Host.Outcome State Fault Refusal :=
  let x := port s p
  let limit := getF s (Reg.linkCtrl p) 15 8 * 1024
  let worst := (List.range 16).foldl (fun w l => if laneCount x w < laneCount x l then l else w) 0
  let s := setF (setF s (Reg.lane p) 35 32 worst) (Reg.lane p) 31 0 (min (laneCount x worst) (2 ^ 32 - 1))
  let s := setPort p { x with lanes := [] } s
  .next ((List.range 16).foldl (fun s l => if 0 < limit ∧ limit < laneCount x l then laneFault p l s else s) s)

/-- LANE_LOCK_LOST: a lane that loses lock is moved to the spare (12 R263). -/
def execLaneLockLost (p lane : Nat) (s : State) : Host.Outcome State Fault Refusal :=
  .next (if linkState s p = 3 then laneFault p lane s else s)

/-! ## Receiving (12 R268, R269, R272, R273) -/

/-- Sequence distance. -/
def seqDiff (a b : Nat) : Nat := (a + 4096 - b % 4096) % 4096

/-- Take an `ACK`: earlier flits leave the retry buffer; progress restarts the failure count (R273, R274). -/
def takeAck (p a : Nat) (s : State) : State :=
  let x := port s p
  let oldest := (x.txSeq + 4096 - x.retry.length) % 4096
  let n := seqDiff a oldest
  if 0 < n ∧ n ≤ x.retry.length then
    setPort p { x with retry := x.retry.drop n, resend := min x.resend (x.retry.length - n), fails := 0, failRuns := 0 } s
  else s

/-- Count the bytes that FEC corrected (R263, R268); each is an event of class 1 (14 Table 14-1). -/
def countFec (p : Nat) (fixed : List Nat) (s : State) : State :=
  let s := countCorrected fixed.length (incMod s (Reg.fecCorrected p) 47 0 fixed.length)
  let add := fun (m : Cells Nat) (o : Nat) => cellSet noNat m (o / 16) (cellGet noNat m (o / 16) + 1)
  modPort p (fun x => { x with lanes := fixed.foldl add x.lanes }) s

/-- Ask for replay, once until the expected flit comes (R273). -/
def askReplay (p : Nat) (s : State) : State :=
  if (port s p).awaiting then s else sendCtl p 1 [] (modPort p (fun x => { x with awaiting := true }) s)

/-- Deliver an accepted sequenced flit into the crossing (R272); the buffer slot of a `LOST` flit is free at once (R274). -/
def deliver (p : Nat) (f : Flit) (s : State) : State :=
  let s := incMod s (Reg.flitsRx p) 47 0 1
  let s := if f.typ = 7 then incMod s (Reg.lostCount p) 47 0 1 else s
  modPort p (fun x =>
    let x := { x with rxSeq := (x.rxSeq + 1) % 4096, awaiting := false }
    let x := if f.typ = 7 then freeRx f.cls 1 x else x
    if f.typ = 3 ∧ x.discarding.contains f.cls then freeRx f.cls 1 x
    else if f.typ = 3 then { x with rxq := x.rxq ++ [f] }
    else { x with rxq := x.rxq ++ [f], discarding := x.discarding.filter (· != f.cls) }) s

/-- A flit that passes: reserved content makes it invalid whatever its `SEQ` (R269); another `SEQ` than the expected one asks
for a replay (R273). DEDUCED: log entry 122. -/
def receivePassed (p : Nat) (f : Flit) (h33 : Bool) (s : State) : State :=
  let expected := f.seq == (port s p).rxSeq
  if !flitOk f h33 then
    let s := if !expected then askReplay p s
      else if 2 ≤ f.typ ∧ f.typ < 8 then
        modPort p (fun x => freeRx f.cls 1 { x with rxSeq := (x.rxSeq + 1) % 4096, awaiting := false }) s
      else s
    portFault 0x0C02 p 0 (nlpLog p 1 f.seq f.gv f.group 0 0 s)
  else if !expected then askReplay p s
  else
    let s := takeAck p f.ack s
    if f.typ ≤ 1 then modPort p (fun x => { x with ctl := x.ctl ++ [f] }) s else deliver p f s

/-- FLIT_RECEIVE: a flit arrives at an up port (12 R268 to R273).
DEDUCED: log entry 72. DESIGN CHOICE: log entry 102. -/
def execFlitReceive (p : Nat) (bs : List Byte) (s : State) : Host.Outcome State Fault Refusal :=
  .next
    (if linkState s p ≠ 3 then s
     else
      let d := fecDecode bs
      let s := countFec p d.fixed s
      let f := flitOf d.bytes
      if d.ok && decide (crc32 (d.bytes.take 248) = leAt d.bytes 0xF8 4) then
        receivePassed p f (bit (leAt d.bytes 0xF0 8) 33) s
      else
        let s := incMod s (Reg.crcFail p) 47 0 1
        if f.typ ≤ 1 then s else askReplay p s)

/-- RETRY_REQ: every flit from the request's `ACK` onward is sent again; a failed send of the oldest (12 R273, R274). -/
def execRetryReq (p : Nat) (s : State) : Host.Outcome State Fault Refusal :=
  let x := port s p
  .next
    (match x.ctl.find? (fun f => f.typ == 1) with
     | none => s
     | some f =>
       let s := setPort p { x with ctl := x.ctl.erase f } s
       let s := takeAck p f.ack s
       modPort p (fun x => { x with resend := x.retry.length, fails := x.fails + (if x.retry = [] then 0 else 1) }) s)

/-- ACK_TIMEOUT: 10 µs without progress; replay from the oldest unacknowledged flit (12 R273). -/
def execAckTimeout (p : Nat) (s : State) : Host.Outcome State Fault Refusal :=
  .next
    (if linkState s p = 3 ∧ (port s p).retry ≠ [] then
      modPort p (fun x => { x with resend := x.retry.length, fails := x.fails + 1 }) s
     else s)

/-- `RETRY_LIMIT`; 0 acts as 1 (12 Table 12-11). -/
def retryLimit (s : State) (p : Nat) : Nat := max 1 (getF s (Reg.linkCtrl p) 7 4)

/-- The `LOST` flit in place of a flit (12 R274, Table 12-5). -/
def lostFor (f : Flit) : Flit :=
  { typ := 7, seq := f.seq, ack := f.ack, cls := f.cls, gv := f.gv, tag := f.tag, group := f.group,
    payload := List.replicate 240 0 }

/-- RETRY_LIMIT: `RETRY_LIMIT` failed sends of one `SEQ`: a fast retrain, and after a second run a `LOST` flit (12 R274). -/
def execRetryLimit (p : Nat) (s : State) : Host.Outcome State Fault Refusal :=
  let x := port s p
  .next
    (if x.fails < retryLimit s p then s
     else if x.failRuns = 0 then startFast p (setPort p { x with fails := 0, failRuns := 1 } s)
     else match x.retry with
       | [] => s
       | f :: t =>
         incMod (setPort p { x with fails := 0, failRuns := 0, retry := lostFor f :: t, resend := t.length + 1 } s)
           (Reg.lostCount p) 47 0 1)

/-- LCTL: credits come back; a `SPARE_REQ` moves a transmit lane to the spare (12 R263, R270). -/
def execLctl (p : Nat) (s : State) : Host.Outcome State Fault Refusal :=
  let x := port s p
  .next
    (match x.ctl.find? (fun f => f.typ == 0) with
     | none => s
     | some f =>
       let b := f.payload
       let s := setPort p { x with ctl := x.ctl.erase f, credBack := (leAt b 0 2, leAt b 2 2, leAt b 4 2) } s
       if bit (leAt b 6 1) 7 then
         (if getB s (Reg.lane p) 63 then startFast p s
          else
            startFast p (countCorrected 1
              (setF (setB s (Reg.lane p) 63 true) (Reg.lane p) 59 56 (bits (leAt b 6 1) 3 0))))
       else s)

/-- LCTL_TIMER: 1 µs has passed since the last `LCTL`, or nothing else is to be sent (12 R271). -/
def execLctlTimer (p : Nat) (s : State) : Host.Outcome State Fault Refusal :=
  .next (if linkState s p = 3 then sendLctl p s else s)

/-! ## Sending (12 R270, R273, R326 of 14) -/

/-- Credits of a class not yet used by a sent flit (R270). -/
def credits (x : Port) (c : Nat) : Nat := (get3 x.credInit c + get3 x.credBack c + 2 ^ 16 - get3 x.sent c % 2 ^ 16) % 2 ^ 16

/-- Flits of a class that wait. -/
def queued (x : Port) (c : Nat) : Nat := (x.txq.filter fun f => f.cls == c).length

/-- Credits of a class that no waiting flit has yet claimed. -/
def freeCredits (x : Port) (c : Nat) : Nat := credits x c - queued x c

/-- Credits that await return. -/
def unreported (x : Port) : Nat :=
  let d := fun c => (get3 x.freed c + 2 ^ 16 - get3 x.reported c % 2 ^ 16) % 2 ^ 16
  d 0 + d 1 + d 2

/-- Remove the first flit of a class. -/
def dropFirst (c : Nat) : List Flit → List Flit
  | [] => []
  | f :: t => if f.cls = c then t else f :: dropFirst c t

/-- After a flit: an `LCTL` when 64 credits await return and none has gone in the last 64 flits (R271). -/
def afterFlit (p : Nat) (s : State) : State :=
  let s := modPort p (fun x => { x with sinceLctl := x.sinceLctl + 1 }) s
  if 64 ≤ unreported (port s p) ∧ 64 ≤ (port s p).sinceLctl then sendLctl p s else s

/-- A flit of class `c` is ready: it waits and has a credit. -/
def classReady (x : Port) (c : Nat) : Bool := (x.txq.any fun f => f.cls == c) && decide (credits x c ≠ 0)

/-- The class has its turn at the port (14 R326): SEC takes it when no REQ or RSP flit is ready, in 1 flit of 16 at least, and
first while `UPDATE_BEGIN` waits on pass 0x7F02. -/
def classTurn (s : State) (x : Port) (c : Nat) : Bool :=
  let secFirst := updateHeld s || decide (15 ≤ x.secGap)
  if c = 2 then secFirst || !(classReady x 0 || classReady x 1) else !(secFirst && classReady x 2)

/-- The count of REQ and RSP flits since the last SEC flit, after a flit of class `c`. -/
def gapAfter (x : Port) (c : Nat) : Nat := if c ≠ 2 ∧ (x.txq.any fun f => f.cls == 2) then x.secGap + 1 else 0

/-- FLIT_TRANSMIT: a replay goes first; else the next waiting flit of class `cls`, once the crossing's clock runs, in its turn
and against a credit (12 R270, R273, 14 R326, 02 R40). A flit sent again is an event of class 1 (14 Table 14-1). -/
def execFlitTransmit (p cls : Nat) (s : State) : Host.Outcome State Fault Refusal :=
  let x := port s p
  .next
    (if linkState s p ≠ 3 then s
     else if 0 < x.resend then
       match x.retry[x.retry.length - x.resend]? with
       | some f =>
         afterFlit p (emit (.flit p (flitWire f))
           (countCorrected 1 (incMod (setPort p { x with resend := x.resend - 1 } s) (Reg.replays p) 47 0 1)))
       | none => s
     else
       match x.txq.find? (fun f => f.cls == cls) with
       | none => s
       | some f =>
         if credits x cls = 0 ∨ 1024 ≤ x.retry.length ∨ !classTurn s x cls ∨ !(crossingAt s .nlp p).clockOn then s
         else
           let f := { f with seq := x.txSeq, ack := x.rxSeq }
           let x := { x with txSeq := (x.txSeq + 1) % 4096, txq := dropFirst cls x.txq, retry := x.retry ++ [f], drainTx := drainedBy cls 1 x.drainTx,
                             sent := set3 x.sent cls ((get3 x.sent cls + 1) % 2 ^ 16), secGap := gapAfter x cls }
           afterFlit p (emit (.flit p (flitWire f)) (incMod (setPort p x s) (Reg.flitsTx p) 47 0 1)))

/-! ## Waiting flits and whole transfers -/

/-- Length in bytes of the data behind a first flit (13 R289). -/
def dataLen (f : Flit) : Nat :=
  if f.typ = 2 then (if leAt f.payload 6 1 = 1 then 0 else leAt f.payload 0x10 4)
  else if f.typ = 4 then leAt f.payload 0x10 4
  else 0

/-- The first `n` flits of class `c` of a queue, and the queue without them. -/
def takeClass (c : Nat) : Nat → List Flit → List Flit × List Flit
  | _, [] => ([], [])
  | 0, q => ([], q)
  | n + 1, f :: t =>
    if f.cls = c then
      let r := takeClass c n t
      (f :: r.1, r.2)
    else
      let r := takeClass c (n + 1) t
      (r.1, f :: r.2)

/-- The whole transfer at the front of class `c`: its flits, and the queue without them; `none` while flits are missing or
the front is no first flit. -/
def wholeTransfer (x : Port) (c : Nat) : Option (Flit × List Flit × List Flit) :=
  match x.rxq.find? (fun f => f.cls == c) with
  | some f =>
    if f.typ = 2 ∨ f.typ = 4 ∨ f.typ = 5 then
      let n := 1 + ceilDiv (dataLen f) 240
      let r := takeClass c n x.rxq
      if r.1.length = n then some (f, r.1.drop 1, r.2) else none
    else none
  | none => none

/-- A transfer's data bytes. -/
def joinData (f : Flit) (ds : List Flit) : List Byte := ((ds.map fun d => pad240 d.payload).flatten).take (dataLen f)

/-- A transfer has a `LOST` flit among its flits. -/
def hasLost (ds : List Flit) : Bool := ds.any fun f => f.typ == 7

/-- A packet enters port p's crossing to the domain; a stopped clock is woken (02 R40). -/
def sendInto (p : Nat) (fs : List Flit) (s : State) : State :=
  touchCrossing .nlp p (modPort p (fun x => { x with txq := x.txq ++ fs }) s)

/-- Take a transfer of `n` flits of class `c` out of port p's crossing; the slot of a `LOST` flit among them is free already
(12 R274). -/
def consume (p c n : Nat) (rest : List Flit) (s : State) : State :=
  modPort p (fun x =>
    freeRx c ((takeClass c n x.rxq).1.filter fun f => f.typ != 7).length
      { x with rxq := rest, drainRx := drainedBy c n x.drainRx }) s

end Sys2Proof.Machine
end

