-- ==== Sys2Proof/Machine/Windows.lean ====
section
/-! DEFINITION. What arrives over a ring (13 R288 to R300, 12 R274, R275): forwarding, sending, window accesses at their
owner, markers, the Bell's marker and lost flits. -/

namespace Sys2Proof.Machine

/-! ## Faults of a ring engine -/

/-- Fill `RNG_FAULT_LOG`, 1 if clear (13 Table 13-14). -/
def rngLog (r kind src entry window : Nat) (s : State) : State :=
  if getB s (Reg.rngFaultLog r) 63 then s
  else rset s (Reg.rngFaultLog r)
    (BitVec.ofNat 64 (2 ^ 63 + kind * 2 ^ 60 + src % 4096 * 2 ^ 48 + entry % 2 ^ 28 * 2 ^ 16 + window % 4096))

/-- `RING_MISMATCH` (13 R288): before the job's first step it rejects the job, later it is a hard fault. -/
def ringMismatch (r src : Nat) (s : State) : State :=
  let s := rngLog r 0 src 0 0 s
  if jobActive s && !s.job.stepStarted then
    let s := if jobState s = 1 then setInt .glb 0 8 s else s
    discardPending (setF (setJobState 5 s) Reg.jobStatus 47 32 0x0D05)
  else raiseHard 0x0D05 .rng r 0 s

/-- A first flit's header agrees with the ring (13 R288): its length, and a destination below n; on a pair in a tree role the
destination is a port of the pair (13 Table 13-1). -/
def ringHdrOk (s : State) (r : Nat) (f : Flit) : Bool :=
  plLen f.payload == ringLen s r && (!inRingRole s r || decide (plDst f.payload < ringLen s r))

/-- The transfer ends here: its destination is the own position, or the pair is in a tree role (13 R286, R287); or its header
is wrong, and this device raises `RING_MISMATCH` (R288). -/
def isMine (s : State) (r : Nat) (f : Flit) : Bool :=
  !inRingRole s r || plDst f.payload == ringPos s r || !ringHdrOk s r f

/-- A `STEP_READY` or a `BELL` comes from the neighbour of its port (13 R288). -/
def fromNeighbour (s : State) (p src : Nat) : Bool :=
  !inRingRole s (p / 2) || src == (if p % 2 = 1 then posUp s (p / 2) else posDown s (p / 2))

/-! ## Forwarding and sending (13 R290, R291) -/

/-- The steps of the peer's `STEP_READY` markers received on a port. -/
def readyOn (s : State) (p : Nat) : List Nat :=
  if p % 2 = 1 then (ringAt s (p / 2)).readyUp else (ringAt s (p / 2)).readyDown

/-- The peer's `STEP_READY` for step `m` has been received on a port (13 R291). -/
def readyFor (s : State) (p m : Nat) : Bool := (readyOn s p).contains m

/-- The `STEP` of a `HEAD` or a `MARKER`. -/
def flitStep (f : Flit) : Option Nat :=
  if f.typ = 2 then some (leAt f.payload 0x14 4) else if f.typ = 5 then some (leAt f.payload 0xC 4) else none

/-- A marker's `KIND`. -/
def markerKind (f : Flit) : Nat := leAt f.payload 6 1

/-- A forwarded transfer of a step waits for the peer's `STEP_READY` of it (R291); securing traffic does not. -/
def mayForward (s : State) (p : Nat) (f : Flit) : Bool :=
  f.cls == 2 || (match flitStep f with
    | some m => readyFor s p m
    | none => true)

/-- The transfer of class `c` that port `p` can forward now: the port it leaves by, its flits, and what stays. -/
def forwardPick (s : State) (p c : Nat) : Option (Nat × List Flit × List Flit) :=
  match wholeTransfer (port s p) c with
  | some (f, ds, rest) =>
    if isMine s (p / 2) f || !ringHdrOk s (p / 2) f then none
    else match routePort s (p / 2) (plDst f.payload) with
      | some q =>
        if linkState s q = 3 ∧ mayForward s q f ∧ 1 + ds.length ≤ freeCredits (port s q) c ∧
            crossingRoom (port s q) (1 + ds.length) then some (q, f :: ds, rest)
        else none
      | none => none
  | none => none

/-- The first class whose transfer port `p` can forward. -/
def forwardAny (s : State) (p : Nat) : Option (Nat × Nat × List Flit × List Flit) :=
  [0, 1, 2].findSome? fun c => (forwardPick s p c).map fun x => (c, x)

/-- TRANSFER_FORWARD: a transfer for another position goes on by the port of the route, whole (13 R286, R290). -/
def execTransferForward (p : Nat) (s : State) : Host.Outcome State Fault Refusal :=
  .next
    (match forwardAny s p with
     | some (c, q, fs, rest) =>
       incMod (sendInto q fs (consume p c fs.length rest s))
         (Reg.rngForwarded (p / 2)) 47 0 fs.length
     | none => s)

/-- Unanswered accesses of ring r. -/
def oldestXfer (g : Ring) : Option Nat := (g.xfers.map (·.id)).min?

/-- A transfer of the device's own may start now (13 R289 to R291). -/
def maySend (s : State) (r : Nat) (t : Transfer) : Bool :=
  let c := t.first.cls
  linkState s t.port == 3 && decide (transferSize t + 65 ≤ freeCredits (port s t.port) c) &&
  crossingRoom (port s t.port) (transferSize t) &&
  (c == 2 || !inRingRole s r || (t.first.typ == 5 && markerKind t.first == 3) || readyFor s t.port (stepNo s)) &&
  (match t.xfer, oldestXfer (ringAt s r) with
   | some id, some o => decide (id < o + 4096)
   | _, _ => true) &&
  !([2 * r, 2 * r + 1].any fun q => (forwardPick s q c).any fun x => x.1 == t.port)

/-- The first queued transfer that may start, none of its port and class before it; the rest of the queue. -/
def pickSend (s : State) (r : Nat) : List Transfer → List Transfer → Option (Transfer × List Transfer)
  | _, [] => none
  | before, t :: ts =>
    if maySend s r t && !(before.any fun b => b.port == t.port && b.first.cls == t.first.cls) then
      some (t, before ++ ts)
    else pickSend s r (before ++ [t]) ts

/-- One thing that an entry in flight waits for is done; an entry that waits for no more is complete. -/
def waitedFor (st idx : Nat) (s : State) : State :=
  modFlight st idx (fun f => { f with waiting := f.waiting - 1, done := f.done || (f.ran && f.waiting ≤ 1) }) s

/-- A transfer without an answer that an entry sends is done with when the next hop's crossing takes it (13 R310). -/
def sentFor (t : Transfer) (s : State) : State :=
  match t.entry, t.xfer with
  | some (st, idx), none => waitedFor st idx s
  | _, _ => s

/-- TRANSFER_SEND: a transfer that the device starts enters its port's crossing (13 R289, R290, R291). -/
def execTransferSend (r : Nat) (s : State) : Host.Outcome State Fault Refusal :=
  .next
    (match pickSend s r [] (ringAt s r).sendq with
     | some (t, rest) =>
       sentFor t (sendInto t.port (transferFlits t.first t.data)
         (setRing r { ringAt s r with sendq := rest } s))
     | none => s)

/-! ## At the owner of a window (13 R295, 08 R185, R187) -/

/-- Answer a request that came by port `p` with a `RESP` by the route to its sender; on a pair in a tree role that is the port
by which it came (13 R287, R295). -/
def answer (p : Nat) (f : Flit) (status window epoch : Nat) (data : List Byte) (s : State) : State :=
  let r := p / 2
  let tree := inTreeRole s r
  let dst := if tree then p % 2 else plSrc f.payload
  let pl := respPayload s r dst status (leAt f.payload 6 1) window epoch (leAt f.payload 0xC 2) data.length
  match (if tree then some p else routePort s r dst) with
  | some q => queueTransfer r { port := q, first := firstFlit 4 1 { gv := f.gv, tag := f.tag, group := f.group } pl, data := data } s
  | none => s

/-- The place of byte `off` of owned window `w` within tensor `d`, if the tensor lies there: through the window, or in the
region bytes that it opens. -/
def inTensor (s : State) (w off : Nat) (d : Desc) : Option Nat :=
  let e := winOf s w
  let at? := fun (n : Nat) => if d.offset ≤ n ∧ n < d.spanEnd then some (n - d.offset) else none
  if d.place = 2 ∧ d.unit = w then at? off
  else if d.place = 0 ∧ d.unit = e.region then at? (e.offset + off)
  else none

/-- Entries of the job that `ok` admits. -/
def jobEntries (s : State) (ok : Entry → Bool) : List Entry := (s.streams.map fun x => x.entries.filter ok).flatten

/-- Where byte `off` of window `w` lies in a row of a return buffer: the merge form's `DESC_A` (08 R186, R188). -/
def returnedAt (s : State) (w off : Nat) : Option Nat :=
  (jobEntries s fun e => e.op == 0x45 && !e.subBit 0).findSome? fun e =>
    let d := descOr s e.descA
    (inTensor s w off d).map (· % max 1 d.rowBytes)

/-- A return form reads its slot headers in owned window `w` (08 R180, R186). -/
def readsHeaders (s : State) (w : Nat) (e : Entry) : Bool :=
  let d := descOr s e.descB
  let x := winOf s w
  e.op == 0x45 && e.subBit 0 && ((d.place == 2 && d.unit == w) ||
    (d.place == 0 && d.unit == x.region && decide (x.offset < d.spanEnd ∧ d.offset < x.offset + x.size)))

/-- A `DISPATCH` places blocks in window `w`: its placement table, in HBM, names it (08 Table 08-4). -/
def placesIn (s : State) (w : Nat) (e : Entry) : Bool :=
  let t := descOr s e.descD
  (List.range e.experts).any fun i =>
    let o := t.rowOff (16 * i / max 1 t.rowBytes) + 16 * i % max 1 t.rowBytes
    bits (leNat (memRead s.hbm ((regionRaw s t.unit).base + o) 2)) 11 0 == w

/-- The transfer of `len` bytes at byte `off` of window `w` begins a dispatched row: of one of the sizes that the job's
`DISPATCH` entries place there, by its place and its length; where none places blocks there, by its place alone, under the row size
of the outputs that the return form sends from there, else of the first `DISPATCH`. DEDUCED: log entry 143. -/
def beginsRow (s : State) (w off len : Nat) : Bool :=
  let size := fun (e : Entry) => max 1 (descOr s e.descA).rowBytes
  let ds := jobEntries s fun e => e.op == 0x44
  let placed := ds.filter (placesIn s w)
  if placed = [] then
    match jobEntries s (readsHeaders s w) ++ ds with
    | e :: _ => off % size e == 0
    | [] => true
  else placed.any fun e => off % size e == 0 && len == min 15360 (roundUp (size e) 16)

/-- Bytes of data that `len` wire bytes carry: 64 of 72 with `ACT_LINES`. -/
def wireData (act : Bool) (len : Nat) : Nat := if act then len / 72 * 64 else len

/-- A tagged row that is not written (08 R185, R187): a returned row whose tag is not the one that its group holds here, or any
other tagged row of another step. With it, whether the bytes begin their row, which is counted once.
DEDUCED: log entry 143. -/
def staleRow (s : State) (w off : Nat) (f : Flit) : Option Bool :=
  if !f.gv then none
  else match returnedAt s w off with
    | some n => if f.tag = epochTag s f.group then none else some (n == 0)
    | none =>
      if f.tag / 2 = stepNo s % 2 ^ 15 then none
      else some (beginsRow s w off (wireData (leAt f.payload 7 1 == 1) (leAt f.payload 0x10 4)))

/-- Count a dropped row (08 Table 08-11, R187). -/
def answerDropped (s : State) : State :=
  alert 0x0802 (incSat (setB { s with step := { s.step with answersDropped := satAdd 32 s.step.answersDropped 1 } }
    Reg.answerStatus 63 true) Reg.answerStatus 31 0 1)

/-- Data of a group of a local micro-batch under an odd tag makes the device drop that group (14 R319); of a group that is
dropped already the drop is counted and logged (R316). -/
def propagateDrop (r : Nat) (f : Flit) (s : State) : State :=
  if f.gv && f.tag % 2 == 1 && f.tag / 2 == stepNo s % 2 ^ 15 && (slotOf s.step.ws f.group).isSome then
    raiseFree { code := 0x0E03, ty := .rng, inst := r, group := some f.group } s
  else s

/-- The group that a flit's tag names. -/
def flitGroup (f : Flit) : Option Nat := if f.gv then some f.group else none

/-- The front transfer of class `c` at port `p`, when it is for this device and of the type, and complete without a lost
flit. -/
def frontMine (s : State) (p c typ : Nat) : Option (Flit × List Flit × List Flit) :=
  match wholeTransfer (port s p) c with
  | some (f, ds, rest) => if f.typ = typ ∧ isMine s (p / 2) f ∧ !hasLost ds then some (f, ds, rest) else none
  | none => none

/-- An access that arrived on port `p` before the last close of its window is checked under the epoch before it (13
R293). -/
def ownedFor (s : State) (p w : Nat) : State :=
  let o := ownedOf s w
  if 0 < nth o.before p then setOwned w { o with isOpen := true, epoch := o.was } s else s

/-- Such an access has been answered; the last one completes the closes that wait for it. -/
def headDone (p w : Nat) (s : State) : State :=
  let o := ownedOf s w
  let left := o.before.mapIdx fun i n => if i = p then n - 1 else n
  if o.before.all (· == 0) then s
  else if left.all (· == 0) then
    o.closers.foldl (fun s x => waitedFor x.1 x.2 s) (setOwned w { o with before := [], closers := [] } s)
  else setOwned w { o with before := left } s

/-- The bytes that an access at the front of port `p` reaches, with header and window in order (13 R295). -/
def ownerReach (s : State) (p : Nat) (f : Flit) (write : Bool) : List (Nat × Nat) :=
  let b := f.payload
  let w := leAt b 8 2
  let off := leAt b 0x18 8
  let act := leAt b 7 1 == 1
  let len := leAt b 0x10 4
  let n := wireData act len
  if ringHdrOk s (p / 2) f && ownerCheck (ownedFor s p w) w (some (leAt b 0xA 2)) write act off n len == 0 &&
      !(write && (staleRow s w off f).isSome) then [(ownedAddr s (winOf s w) off, n)]
  else []

/-- A window write at its owner: refused, dropped as a stale row, or written (13 R295, 08 R185, R187). -/
def ownerWrite (p r : Nat) (f : Flit) (bs : List Byte) (s : State) : State :=
  let b := f.payload
  let w := leAt b 8 2
  let off := leAt b 0x18 8
  let act := leAt b 7 1 == 1
  let len := leAt b 0x10 4
  let ep := (ownedOf s w).epoch
  let st := ownerCheck (ownedFor s p w) w (some (leAt b 0xA 2)) true act off (wireData act len) len
  if st ≠ 0 then answer p f st w ep [] (incMod s (Reg.rngRefused r) 47 0 1)
  else match staleRow s w off f with
    | some first => propagateDrop r f (answer p f 0 w ep [] (if first then answerDropped s else s))
    | none =>
      let a := ownedAddr s (winOf s w) off
      let s := if act then putActLines [] a bs s
        else
          let x := hbmWrite s [] Reader.traffic a bs
          settleTraffic x.evs x.s
      propagateDrop r f (answer p f 0 w ep [] s)

/-- REMOTE_WRITE_ARRIVAL (13 R288, R295). -/
def execRemoteWriteArrival (p : Nat) (s : State) : Host.Outcome State Fault Refusal :=
  .next
    (match frontMine s p 0 2 with
     | some (f, ds, rest) =>
       if leAt f.payload 6 1 ≠ 0 then s
       else
         awaitClock (ownerReach s p f true) s <|
         let s := consume p 0 (1 + ds.length) rest s
         if !ringHdrOk s (p / 2) f then ringMismatch (p / 2) (plSrc f.payload) s
         else headDone p (leAt f.payload 8 2) (ownerWrite p (p / 2) f (joinData f ds) s)
     | none => s)

/-- A window read at its owner (13 R295, R298). -/
def ownerRead (p r : Nat) (f : Flit) (ph : List Phys) (s : State) : State :=
  let b := f.payload
  let w := leAt b 8 2
  let off := leAt b 0x18 8
  let act := leAt b 7 1 == 1
  let len := leAt b 0x10 4
  let ep := (ownedOf s w).epoch
  let st := ownerCheck (ownedFor s p w) w (some (leAt b 0xA 2)) false act off (wireData act len) len
  if st = 0 then
    let a := ownedAddr s (winOf s w) off
    if act then
      let x := getActLines ph a (len / 72) s
      answer p f 0 w ep x.1 x.2
    else
      let x := hbmRead s ph Reader.traffic a len
      let s := settleTraffic x.evs x.s
      if x.bad then answer p f 5 w ep (List.replicate len 0) s else answer p f 0 w ep x.data s
  else answer p f st w ep [] (incMod s (Reg.rngRefused r) 47 0 1)

/-- REMOTE_READ_ARRIVAL (13 R295, R298); a request poisoned in the port's crossing is not delivered (02 R36). -/
def execRemoteReadArrival (p : Nat) (ph : List Phys) (s : State) : Host.Outcome State Fault Refusal :=
  .next
    (match frontMine s p 0 2 with
     | some (f, ds, rest) =>
       if leAt f.payload 6 1 ≠ 1 then s
       else
         let lost := poisoned ph .nlp p false
         awaitClock (if lost then [] else ownerReach s p f false) s <|
         let s := consume p 0 (1 + ds.length) rest s
         let s := trafficPhys (flitGroup f) ph s
         if lost then headDone p (leAt f.payload 8 2) s
         else if !ringHdrOk s (p / 2) f then ringMismatch (p / 2) (plSrc f.payload) s
         else headDone p (leAt f.payload 8 2) (ownerRead p (p / 2) f ph s)
     | none => s)

/-! ## Markers -/

/-- A front marker of one of the kinds, taken out of the crossing: its flit and the state. -/
def frontMarker (s : State) (p : Nat) (ok : Nat → Bool) : Option (Flit × State) :=
  match frontMine s p 0 5 with
  | some (f, _, rest) => if ok (markerKind f) then some (f, consume p 0 1 rest s) else none
  | none => none

/-- OPEN_CLOSE_MARKER: an `OPEN` or `CLOSE` marker updates the views (13 R294). -/
def execOpenCloseMarker (p : Nat) (s : State) : Host.Outcome State Fault Refusal :=
  let r := p / 2
  .next
    (match frontMarker s p (fun k => k == 1 || k == 2) with
     | some (f, s) =>
       if !ringHdrOk s r f then ringMismatch r (plSrc f.payload) s
       else
         let src := if inRingRole s r then plSrc f.payload else p % 2
         applyMarker r src (markerKind f) (leAt f.payload 8 2) (leAt f.payload 0xA 2) (leAt f.payload 0x10 8) s
     | none => s)

/-- BLOCK_END: a block-end marker posts the arrival pass of its window behind every earlier REQ flit of its port (13
R300, 08 R183). -/
def execBlockEnd (p : Nat) (s : State) : Host.Outcome State Fault Refusal :=
  let r := p / 2
  .next
    (match frontMarker s p (· == 0) with
     | some (f, s) =>
       if !ringHdrOk s r f then ringMismatch r (plSrc f.payload) s else blockEndAt r (leAt f.payload 8 2) s
     | none => s)

/-- STEP_READY: the peer has started a step (13 R288, R291). -/
def execStepReady (p : Nat) (s : State) : Host.Outcome State Fault Refusal :=
  let r := p / 2
  .next
    (match frontMarker s p (· == 3) with
     | some (f, s) =>
       if !ringHdrOk s r f || !fromNeighbour s p (plSrc f.payload) then ringMismatch r (plSrc f.payload) s
       else
         let m := leAt f.payload 0xC 4
         let g := ringAt s r
         setRing r (if p % 2 = 1 then { g with readyUp := m :: g.readyUp.filter (· != m) }
           else { g with readyDown := m :: g.readyDown.filter (· != m) }) s
     | none => s)

/-! ## The Bell's marker (12 R275) -/

/-- Position of the first flit that `ok` admits. -/
def firstIdx (ok : Flit → Bool) (q : List Flit) : Option Nat := q.findIdx? ok

/-- The `BELL` at the front of class REQ with no RSP flit before it; what stays behind. -/
def frontBell (x : Port) : Option (Flit × List Flit) :=
  match x.rxq.findIdx? (fun f => f.cls == 0) with
  | some i =>
    match x.rxq[i]? with
    | some f => if f.typ = 6 ∧ !(x.rxq.take i).any (fun g => g.cls == 1) then some (f, x.rxq.eraseIdx i) else none
    | none => none
  | none => none

/-- BELL: its step and position are checked, then the port's Bell pass is posted and an `LCTL` sent (12 R275, 13 R288). -/
def execBell (p : Nat) (s : State) : Host.Outcome State Fault Refusal :=
  .next
    (match frontBell (port s p) with
     | some (f, rest) =>
       let s := consume p 0 1 rest s
       let m := leAt f.payload 0 4
       let pos := leAt f.payload 4 2
       if !s.step.active || m != stepNo s then
         portFault 0x0C03 p m (nlpLog p 2 f.seq f.gv f.group 0 m s)
       else if !bit pos 12 && !fromNeighbour s p (bits pos 11 0) then ringMismatch (p / 2) (bits pos 11 0) s
       else sendLctl p (postSys (0x7F10 + p) s)
     | none => s)

end Sys2Proof.Machine
end

