-- ==== Sys2Proof/Machine/Collectives.lean ====
section
/-! DEFINITION. Ring entries (13 R293, R294, R301 to R310): the collectives with their control rounds, `ROTATE`, and
`WINDOW_OPEN` and `WINDOW_CLOSE` with attach and detach. -/

namespace Sys2Proof.Machine

/-! ## Shapes (R302) -/

/-- What fixes the pieces of a collective: ring length and position, halves, elements of a half of a chunk, operands. -/
structure Shape where
  ring : Nat
  n : Nat
  p : Nat
  halves : Nat
  /-- Elements of a half of a chunk. -/
  hq : Nat
  a : Desc
  d : Desc
  transit : Nat
  op : Nat

/-- The shape of a ring entry. -/
def shapeOf (c : Ctx) (s : State) : Shape :=
  let a := descOr s c.e.descA
  let d := descOr s c.e.descC
  let n := ringLen s c.unit
  let h := if c.e.subBit 1 then 2 else 1
  let e := if c.e.op = 0x51 then d.count else a.count
  { ring := c.unit, n := n, p := ringPos s c.unit, halves := h, hq := e / n / h, a := a, d := d, transit := c.e.transit,
    op := c.e.op }

/-- Elements of a chunk. -/
def Shape.q (x : Shape) : Nat := x.hq * x.halves

/-- Element width of a phase in bits. -/
def Shape.width (x : Shape) (phase : Nat) : Nat := if phase = 1 then widthOf x.transit else widthOf x.d.fmt

/-- Bytes of a half of a chunk in a phase, and of the whole stream of a half that a position receives. -/
def Shape.halfBytes (x : Shape) (phase : Nat) : Nat := x.hq * x.width phase / 8
def Shape.total (x : Shape) (phase : Nat) : Nat := (x.n - 1) * x.halfBytes phase

/-- The chunk that arrives `k`-th on a half: in the reduce phase from c - 2, in the gather phase from c - 1 (R304, R306). -/
def Shape.chunkAt (x : Shape) (phase half k : Nat) : Nat :=
  let o := if phase = 1 then 2 else 1
  if half = 0 then (x.p + 2 * x.n - o - k) % x.n else (x.p + o + k) % x.n

/-- Linear index of element `e` of a half of a chunk. -/
def Shape.at (x : Shape) (chunk half e : Nat) : Nat := chunk * x.q + half * x.hq + e

/-- The port by which a half leaves (half 0 travels up, half 1 down), and the next position on it. -/
def Shape.port (x : Shape) (half : Nat) : Nat := if half = 0 then 2 * x.ring + 1 else 2 * x.ring

/-! ## Sending -/

/-- Queue the `RING` transfers of a run of bytes at `off` of a phase's stream (R289); each is one that the entry waits
for. -/
def sendRing (c : Ctx) (g : GTag) (dst port phase off : Nat) (bs : List Byte) (r : Run) : Run :=
  let cs := chunks maxData bs
  { r with
    s := cs.zipIdx.foldl (fun s (x : List Byte × Nat) =>
      let h : Head := { dst := dst, op := 2, length := x.1.length, step := stepNo s, offset := off + x.2 * maxData,
                        entry := c.idx, phase := phase }
      queueTransfer c.unit { port := port, first := firstFlit 2 0 g (headPayload s c.unit h), data := x.1,
                             entry := some (c.st, c.idx) } s) r.s
    sent := r.sent + cs.length }

/-- Send to the next position on a half's way. -/
def sendHalf (c : Ctx) (x : Shape) (half phase off : Nat) (bs : List Byte) (r : Run) : Run :=
  sendRing c {} (if half = 0 then posUp r.s x.ring else posDown r.s x.ring) (x.port half) phase off bs r

/-! ## Control words (R303, Table 13-8) -/

/-- The 1,040 bytes of a control word. -/
def ctlBytes (step entry : Nat) (w : CtlWord) : List Byte :=
  leBytes 4 step ++ leBytes 4 (entry % 2 ^ 28) ++ leBytes 8 (b2n w.nf + 2 * b2n w.taint) ++ maskBytes w.dep ++
    maskBytes w.mask

/-- A control word from its bytes. DESIGN CHOICE: log entry 170. -/
def ctlOf (bs : List Byte) : CtlWord :=
  { nf := bit (leAt bs 8 8) 0, taint := bit (leAt bs 8 8) 1, dep := BitVec.ofNat 4096 (leAt bs 0x10 512),
    mask := BitVec.ofNat 4096 (leAt bs 0x210 512) }

/-- OR of flags and departure bits, AND of masks. -/
def CtlWord.join (a b : CtlWord) : CtlWord :=
  { nf := a.nf || b.nf, taint := a.taint || b.taint, dep := a.dep ||| b.dep, mask := a.mask &&& b.mask }

/-- The word that a collective formed at issue. -/
def Coll.word (x : Coll) : CtlWord := { nf := x.nf, taint := x.taint, dep := x.dep, mask := x.mask }

/-- What the Worksheet expected of ring r's contributor mask, and the mask's replacement (14 R315). -/
def expectOf (s : State) (r : Nat) : Mask :=
  if r = 0 then s.step.ws.expectA else if r = 1 then s.step.ws.expectB else s.step.ws.expectC
def setMask (r : Nat) (m : Mask) (s : State) : State :=
  { s with step := if r = 0 then { s.step with maskA := m } else if r = 1 then { s.step with maskB := m }
                   else { s.step with maskC := m } }

/-- An entry in flight has raised an event of this code from this unit for this group. -/
def hasRaised (s : State) (st idx : Nat) (c : Confined) : Bool :=
  match streamAt s st with
  | some x => x.inflight.any fun f => f.idx == idx && f.raised.any fun r =>
      r.code == c.code && r.inst == c.inst && (match c.group with
        | some g => r.group == g
        | none => true)
  | none => false

/-- Raise confined events of an entry in flight, each once. -/
def raiseOnce (st idx : Nat) (cs : List Confined) (s : State) : State :=
  cs.foldl (fun s c => if hasRaised s st idx c then s else confineEntry st idx s c) s

/-- `DROP_PROPAGATED` for a group (14 R319). -/
def propagated (r g : Nat) : Confined := { code := 0x0E03, ty := .rng, inst := r, detail := 0, group := some g }

/-- The lowest group of each local micro-batch among cleared groups. -/
def clearedGroups (ws : Worksheet) (m : Mask) : List Nat :=
  (List.range ws.mbs.length).filterMap fun i =>
    if slotMask ws i &&& m ≠ 0 then (List.range 4096).find? (fun g => maskHas (slotMask ws i &&& m) g) else none

/-- The device adopts a ring-wide word (R303, R305, R307; 06 R142; 08 R184; 14 R319, R321). DEDUCED: log entry 64. -/
def adopt (c : Ctx) (w : CtlWord) (s : State) : State :=
  let r := c.unit
  let gone := maskOf s r &&& ~~~ w.mask
  let taint := w.taint || decide (expectOf s r &&& ~~~ w.mask &&& w.dep ≠ 0) ||
    (c.e.divide && decide (maskCount w.mask = 0))
  let s := raiseOnce c.st c.idx ((clearedGroups s.step.ws gone).map (propagated r)) s
  let s := setMask r (maskOf s r &&& w.mask) s
  { s with step := { s.step with
      nonfinite := s.step.nonfinite || w.nf
      taint := s.step.taint || taint
      departedRing := s.step.departedRing ||| w.dep
      gateWord := if c.e.subBit 0 then some (w.nf, taint) else s.step.gateWord } }

/-! ## Phases -/

/-- A collective and the run that moves it on. -/
abbrev CollRun := Coll × Run

/-- Codes in linear order as rows of dimension 0. -/
def writeFlat (c : Ctx) (d : Desc) (row : OutRow) (r : Run) : Run :=
  let r := writeRows c {} d 0xFFFF ((chunks (d.dim 0) row.codes).map fun cs => { codes := cs }) r
  r.mod (reportRows c (reportId c) [row])

/-- The results of the own chunk (R305). -/
def ownResults (x : Shape) (k : Coll) : List Val :=
  (List.range x.q).map fun i =>
    let v := f32 (BitVec.ofNat 32 (cellGet noNat k.red i))
    match k.divisor with
    | some 0 => Val.zero
    | some m => rnd32 (Val.div v (.fin m 0))
    | none => v

/-- The collective's last act: `DESC_C` is written and reported; a voided tagged entry writes zero codes (R305, R306; 14
R317). -/
def finishColl (c : Ctx) (x : Shape) (k : CollRun) : CollRun :=
  let r := k.2
  let sc := scaleExp r.s x.d
  let own := encodeRow x.d.fmt sc (ownResults x k.1)
  let row : OutRow :=
    if x.op = 0x50 then own
    else
      let codes := (List.range x.d.count).map fun i => cellGet noNat k.1.dst i
      let all := copyRow x.d.fmt sc [] codes
      if x.op = 0x51 then all
      else { all with reports := all.reports.mapIdx fun i y =>
              if x.p * x.q ≤ i ∧ i < (x.p + 1) * x.q then own.reports.getD (i - x.p * x.q) y else y }
  let r := if c.void0 then writeZeros c {} x.d r else writeFlat c x.d row r
  ({ k.1 with phase := 4 }, r)

/-- The gather phase begins with the own shard (R306). -/
def startGather (c : Ctx) (x : Shape) (k : CollRun) : CollRun :=
  let own := if x.op = 0x51 then k.1.src else (encodeRow x.d.fmt (scaleExp k.2.s x.d) (ownResults x k.1)).codes
  let dst := own.zipIdx.foldl (fun m (y : Nat × Nat) => cellSet noNat m (x.at x.p 0 y.2) y.1) k.1.dst
  let k1 : Coll := { k.1 with phase := 2, got0 := 0, got1 := 0, dst := dst }
  if x.n = 1 then finishColl c x (k1, k.2)
  else
    let out := if c.void0 then zeroCodes own.length else own
    (k1, (List.range x.halves).foldl (fun r h =>
      sendHalf c x h 2 0 (packCodes (x.width 2) ((out.drop (h * x.hq)).take x.hq)) r) k.2)

/-- The reduce phase has ended: a reduction writes its shard, or goes on to gather. -/
def endReduce (c : Ctx) (x : Shape) (k : CollRun) : CollRun :=
  if x.op = 0x50 then finishColl c x k else startGather c x k

/-- fp32(x) of element `i` of `DESC_A` (R304). -/
def inputVal (s : State) (x : Shape) (k : Coll) (i : Nat) : Val := rnd32 (codeVal x.a.fmt (scaleExp s x.a) 0 (nth k.src i))

/-- transit(v), as a code, and read back. -/
def toTransit (x : Shape) (v : Val) : Nat := (encode x.transit v).code
def ofTransit (x : Shape) (k : Nat) : Val := decodeElem x.transit k

/-- The reduce phase begins with the chunk after the own one's place, on each half (R304). -/
def startReduce (c : Ctx) (x : Shape) (k : CollRun) : CollRun :=
  if x.op = 0x51 then startGather c x k
  else
    let k1 : Coll := { k.1 with phase := 1, got0 := 0, got1 := 0 }
    if x.n = 1 then
      let red := (List.range x.q).foldl (fun m i =>
        cellSet noNat m i (toF32 (ofTransit x (toTransit x (inputVal k.2.s x k1 i)))).toNat) ([] : Cells Nat)
      endReduce c x ({ k1 with red := red }, k.2)
    else
      (k1, (List.range x.halves).foldl (fun r h =>
        let ch := if h = 0 then (x.p + x.n - 1) % x.n else (x.p + 1) % x.n
        sendHalf c x h 1 0 (packCodes (x.width 1) ((List.range x.hq).map fun e =>
          toTransit x (inputVal r.s x k1 (x.at ch h e)))) r) k.2)

/-- The control round has ended, or there is none. -/
def afterControl (c : Ctx) (x : Shape) (w : Option CtlWord) (k : CollRun) : CollRun :=
  match w with
  | some w =>
    startReduce c x ({ k.1 with divisor := if c.e.divide then some (maskCount w.mask) else none }, k.2.mod (adopt c w))
  | none => startReduce c x k

/-! ## Issue -/

/-- Codes of `DESC_A` in linear order; a voided entry has zeros in their place (14 R317). -/
def sourceCodes (c : Ctx) (a : Desc) (r : Run) : List Nat × Run :=
  if c.voided then (zeroCodes a.count, r)
  else
    let x := loadRows c a r
    (x.1.flatten, x.2)

/-- Has the entry a control round (R303)? -/
def hasControl (e : Entry) : Bool := e.subBit 0 || e.divide

/-- Keep a collective in flight, or let go of a finished one. -/
def putColl (r : Nat) (k : Coll) (s : State) : State :=
  let g := ringAt s r
  let rest := g.colls.filter fun (y : Coll) => y.idx != k.idx
  setRing r { g with colls := if k.phase = 4 then rest else rest ++ [k] } s

/-- The control word that an entry in flight formed when it issued (R303). -/
def wordOf (s : State) (c : Ctx) : CtlWord :=
  (((streamAt s c.st).bind fun x => x.inflight.find? fun f => f.idx == c.idx).bind Flight.word).getD (formWord s c.unit)

/-- The effect of a collective, under the control word of its issue. -/
def collEff (c : Ctx) (r : Run) : Run :=
  let x := shapeOf c r.s
  let y := sourceCodes c x.a r
  let w := wordOf y.2.s c
  let k : Coll :=
    { stream := c.st, idx := c.idx, phase := 0, lap := 0, got0 := 0, got1 := 0, divisor := none, nf := w.nf,
      taint := w.taint, dep := w.dep, mask := w.mask, src := y.1, red := [], dst := [] }
  let r := y.2
  let z : CollRun :=
    if !hasControl c.e then afterControl c x none (k, r)
    else if x.n = 1 then afterControl c x (some k.word) (k, r)
    else if x.p = 0 then (k, sendHalf c x 0 0 0 (ctlBytes (stepNo r.s) c.idx k.word) r)
    else (k, r)
  let r := z.2.mod (putColl c.unit z.1)
  physEvents c { r with sent := r.sent + b2n (z.1.phase != 4) }

/-- REDUCE_SCATTER: the sums of the own chunk (R304, R305). -/
def execReduceScatter (st : Nat) (ph : List Phys) (s : State) : Host.Outcome State Fault Refusal :=
  .next (issue st (fun e => e.op == 0x50) ph collEff s)

/-- ALL_GATHER: every position's shard (R306). -/
def execAllGather (st : Nat) (ph : List Phys) (s : State) : Host.Outcome State Fault Refusal :=
  .next (issue st (fun e => e.op == 0x51) ph collEff s)

/-- ALL_REDUCE: the sums of every chunk (R304 to R306). -/
def execAllReduce (st : Nat) (ph : List Phys) (s : State) : Host.Outcome State Fault Refusal :=
  .next (issue st (fun e => e.op == 0x52) ph collEff s)

/-! ## ROTATE (R308) -/

/-- The position to which a `ROTATE` on position p of a ring of n sends. -/
def rotateDst (e : Entry) (n p : Nat) : Nat :=
  let log := bits e.subop 6 3
  let sp := if log = 0 then n else 2 ^ log
  let b := p - p % sp
  b + (if e.subBit 2 then (p - b + sp - 1) % sp else (p - b + 1) % sp)

/-- Write a block from its bytes and report its elements. -/
def putBlock (c : Ctx) (d : Desc) (bs : List Byte) (r : Run) : Run :=
  if c.void0 then writeZeros c {} d r
  else
    let rows := (List.range d.rows).map fun i =>
      unpackCodes (widthOf d.fmt) (d.dim 0) ((bs.drop (i * d.rowBytes)).take d.rowBytes)
    writeRows c {} d (reportId c) (rows.map (copyRow d.fmt (scaleExp r.s d) [])) r

/-- The effect of a `ROTATE` at its issue. -/
def rotateEff (c : Ctx) (r : Run) : Run :=
  let a := descOr r.s c.e.descA
  let d := descOr r.s c.e.descC
  let x := if c.voided then (List.replicate (a.rows * a.rowBytes) 0, r) else denseBytes c a r
  let dst := rotateDst c.e (ringLen r.s c.unit) (ringPos r.s c.unit)
  let k : Coll :=
    { stream := c.st, idx := c.idx, phase := 3, lap := 0, got0 := 0, got1 := 0, divisor := none, nf := false, taint := false,
      dep := 0, mask := 0, src := [], red := [], dst := [] }
  physEvents c
    (match routePort x.2.s c.unit dst with
     | none => putBlock c d x.1 x.2
     | some p =>
       let y := sendRing c (groupTag x.2.s (slotFirst x.2.s.step.ws (c.slot.getD 0))) dst p 3 0 (pad16 x.1) x.2
       { y.mod (putColl c.unit k) with sent := y.sent + 1 })

/-- ROTATE: a block goes to one position and another comes (R308). -/
def execRotate (st : Nat) (ph : List Phys) (s : State) : Host.Outcome State Fault Refusal :=
  .next (issue st (fun e => e.op == 0x53) ph rotateEff s)

/-! ## Windows (R293, R294) -/

/-- Positions that an owned window notifies, in increasing order from its first. DEDUCED: log entry 66. -/
def noticePositions (s : State) (e : WinEntry) : List Nat :=
  let n := if inRingRole s e.ring then ringLen s e.ring else 2
  let p := if e.noticeAbs then e.pos
    else (((ringPos s e.ring : Int) + signed 12 e.pos) % (n : Int)).toNat
  (List.range e.target).map fun i => (p + i) % n

/-- Send a marker of an owned window to every position that it notifies; an open waits until those that leave the device have
been sent, a close does not (R293). -/
def notify (c : Ctx) (w : Nat) (kind epoch size : Nat) (r : Run) : Run :=
  let e := winOf r.s w
  let opens := kind == 1
  (noticePositions r.s e).foldl (fun r dst =>
    { r.mod (putMarker e.ring dst kind w epoch size (if opens then some (c.st, c.idx) else none)) with
      sent := r.sent + b2n (opens && (routePort r.s e.ring dst).isSome) }) r

/-- Accesses to window `w` whose `HEAD` lies in the receive buffer of each port. -/
def headsWaiting (s : State) (w : Nat) : List Nat :=
  (List.range 6).map fun p =>
    ((port s p).rxq.filter fun f => f.typ == 2 && f.cls == 0 && isMine s (p / 2) f && decide (leAt f.payload 6 1 ≤ 1) &&
      leAt f.payload 8 2 == w).length

/-- The effect of a `WINDOW_OPEN`: an owned window opens, a remote one is attached. DEDUCED: log entry 65. -/
def openEff (c : Ctx) (r : Run) : Run :=
  let w := c.e.window
  let e := winOf r.s w
  if e.kind = 2 ∨ e.kind = 3 then
    (if 0 < (viewOf r.s w).opens then r.mod (takeOpen w) else { r with sent := 1 })
  else
    let o := ownedOf r.s w
    if e.kind ≠ 1 ∨ o.isOpen then r
    else
      let ep := (o.epoch + 1) % 2 ^ 16
      notify c w 1 ep e.size (r.mod (setOwned w { o with isOpen := true, epoch := ep }))

/-- The `BLOCK_END` marker that a detach sends to the owner once it is complete (R294). -/
def detachMark (w : Nat) (s : State) : State :=
  let e := winOf s w
  putMarker e.ring (winOwner s e) 0 e.target 0 0 none s

/-- The effect of a `WINDOW_CLOSE`: an owned window closes, a remote one is detached. -/
def closeEff (c : Ctx) (r : Run) : Run :=
  let w := c.e.window
  let e := winOf r.s w
  if e.kind = 2 ∨ e.kind = 3 then
    let v := viewOf r.s w
    let r := r.mod (setView w { v with attached := false })
    if v.unanswered = 0 then r.mod (detachMark w) else { r with sent := 1 }
  else
    let o := ownedOf r.s w
    if e.kind ≠ 1 ∨ !o.isOpen then r
    else
      let ep := (o.epoch + 1) % 2 ^ 16
      let before := headsWaiting r.s w
      let held := before.any (· != 0)
      let r := r.mod (setOwned w { isOpen := false, epoch := ep, was := o.epoch
                                   before := if held then before else []
                                   closers := if held then o.closers ++ [(c.st, c.idx)] else [] })
      notify c w 2 ep 0 { r with sent := b2n held }

/-- The detaches of a window that wait for its transfers complete when the last is answered, and each then sends its
`BLOCK_END` (R294). -/
def wakeDetach (w : Nat) (s : State) : State :=
  if (viewOf s w).unanswered = 0 then
    (windowFlights s 0x55 w).foldl (fun s x => detachMark w (waitedFor x.1 x.2 s)) s
  else s

/-- A window entry names a remote window. -/
def isRemote (s : State) (e : Entry) : Bool := (winOf s e.window).kind == 2 || (winOf s e.window).kind == 3

/-- WINDOW_OPEN on an entry that is not remote. -/
def execWindowOpen (st : Nat) (s : State) : Host.Outcome State Fault Refusal :=
  .next (issue st (fun e => e.op == 0x54 && !isRemote s e) [] openEff s)

/-- WINDOW_CLOSE on an entry that is not remote. -/
def execWindowClose (st : Nat) (s : State) : Host.Outcome State Fault Refusal :=
  .next (issue st (fun e => e.op == 0x55 && !isRemote s e) [] closeEff s)

/-- ATTACH: a `WINDOW_OPEN` that names a remote entry. -/
def execAttach (st : Nat) (s : State) : Host.Outcome State Fault Refusal :=
  .next (issue st (fun e => e.op == 0x54 && isRemote s e) [] openEff s)

/-- DETACH: a `WINDOW_CLOSE` that names a remote entry. -/
def execDetach (st : Nat) (s : State) : Host.Outcome State Fault Refusal :=
  .next (issue st (fun e => e.op == 0x55 && isRemote s e) [] closeEff s)

/-! ## Receiving -/

/-- Settle what a received transfer did to a collective: its new state, what it waits for, its events. -/
def settleColl (c : Ctx) (k : CollRun) : State :=
  let fin := k.1.phase == 4
  let s := modFlight c.st c.idx (fun f =>
    let w := f.waiting + k.2.sent - b2n fin
    { f with waiting := w, done := w == 0 }) (putColl c.unit k.1 k.2.s)
  k.2.evs.foldl (raiseEntry c.st c.idx c.e.tagged) s

/-- `RING_ENTRY_MISMATCH` (R309). -/
def entryMismatch (r src idx : Nat) (s : State) : State :=
  raiseHard 0x0D06 .rng r idx (rngLog r 1 src idx 0 s)

/-- A control word has come (R303). DEDUCED: log entry 62. -/
def receiveWord (c : Ctx) (x : Shape) (bs : List Byte) (k : CollRun) : CollRun :=
  let w := ctlOf bs
  let k1 : Coll := { k.1 with lap := k.1.lap + 1 }
  let up := fun (off : Nat) (w : CtlWord) (r : Run) => sendHalf c x 0 0 off (ctlBytes (stepNo r.s) c.idx w) r
  if x.p = 0 ∨ (x.p ≠ x.n - 1 ∧ k.1.lap = 1) then
    afterControl c x (some w) (k1, if x.p = x.n - 2 then k.2 else up 1040 w k.2)
  else if x.p = x.n - 1 then
    let v := w.join k.1.word
    afterControl c x (some v) (k1, up 1040 v k.2)
  else (k1, up 0 (w.join k.1.word) k.2)

/-- Bytes received on a half. -/
def Coll.got (k : Coll) (half : Nat) : Nat := if half = 0 then k.got0 else k.got1
def Coll.addGot (k : Coll) (half n : Nat) : Coll :=
  if half = 0 then { k with got0 := k.got0 + n } else { k with got1 := k.got1 + n }

/-- Every byte of a phase has come. -/
def phaseDone (x : Shape) (phase : Nat) (k : Coll) : Bool :=
  k.got0 == x.total phase && (x.halves == 1 || k.got1 == x.total phase)

/-- add32 (07 R159). -/
def addSum (a b : Val) : Val := rnd32 (Val.add a b)

/-- Partial sums have come on a half: add, then pass on or keep (R304). -/
def receiveSums (c : Ctx) (x : Shape) (half : Nat) (bs : List Byte) (k : CollRun) : CollRun :=
  let w := x.width 1
  let off := k.1.got half
  let t0 := off * 8 / w
  let vs := (unpackCodes w (bs.length * 8 / w) bs).mapIdx fun i y =>
    let t := t0 + i
    let ch := x.chunkAt 1 half (t / x.hq)
    (t, addSum (ofTransit x y) (inputVal k.2.s x k.1 (x.at ch half (t % x.hq))))
  let last := (x.n - 2) * x.hq
  let on := (vs.filter fun (y : Nat × Val) => decide (y.1 < last)).map fun (y : Nat × Val) => toTransit x y.2
  let red := (vs.filter fun (y : Nat × Val) => decide (last ≤ y.1)).foldl (fun m (y : Nat × Val) =>
    cellSet noNat m (half * x.hq + (y.1 - last)) (toF32 y.2).toNat) k.1.red
  let r := if on = [] then k.2 else sendHalf c x half 1 (off + x.halfBytes 1) (packCodes w on) k.2
  let k1 := ({ k.1 with red := red } : Coll).addGot half bs.length
  if phaseDone x 1 k1 then endReduce c x (k1, r) else (k1, r)

/-- Gathered codes have come on a half: keep, and pass on (R306). -/
def receiveCodes (c : Ctx) (x : Shape) (half : Nat) (bs : List Byte) (k : CollRun) : CollRun :=
  let w := x.width 2
  let off := k.1.got half
  let t0 := off * 8 / w
  let cs := unpackCodes w (bs.length * 8 / w) bs
  let dst := cs.zipIdx.foldl (fun m (y : Nat × Nat) =>
    let t := t0 + y.2
    cellSet noNat m (x.at (x.chunkAt 2 half (t / x.hq)) half (t % x.hq)) y.1) k.1.dst
  let on := cs.take ((x.n - 2) * x.hq - t0)
  let r := if on = [] then k.2 else sendHalf c x half 2 (off + x.halfBytes 2) (packCodes w on) k.2
  let k1 := ({ k.1 with dst := dst } : Coll).addGot half bs.length
  if phaseDone x 2 k1 then finishColl c x (k1, r) else (k1, r)

/-- Keep received bytes from offset `o`. -/
def keepBytes (o : Nat) (bs : List Byte) (m : Cells Nat) : Cells Nat :=
  bs.zipIdx.foldl (fun m (y : Byte × Nat) => cellSet noNat m (o + y.2) y.1.toNat) m

/-- A `ROTATE` block has come, in order (R308). -/
def receiveBlock (c : Ctx) (d : Desc) (bs : List Byte) (k : CollRun) : CollRun :=
  let dst := keepBytes k.1.got0 bs k.1.dst
  let k1 : Coll := { k.1 with dst := dst, got0 := k.1.got0 + bs.length }
  let n := d.rows * d.rowBytes
  if n ≤ k1.got0 then
    ({ k1 with phase := 4 }, putBlock c d ((List.range n).map fun i => BitVec.ofNat 8 (cellGet noNat dst i)) k.2)
  else (k1, k.2)

/-- The stream bytes at a collective that a transfer of a phase may bring next: those missing in the phase. -/
def lacking (x : Shape) (k : Coll) (half : Nat) : Nat :=
  if k.phase = 0 then (if half = 0 then 1040 else 0)
  else if k.phase = 3 then roundUp (x.d.rows * x.d.rowBytes) 16 - k.got0
  else if x.halves ≤ half then 0
  else x.total k.phase - k.got half

/-- Bytes of the transfer that comes next on a half: a half of a chunk, and a `ROTATE` block, are cut from their start into
transfers of the most bytes that one carries (R289, R304, R306). DEDUCED: log entry 63. -/
def nextPiece (x : Shape) (k : Coll) (half : Nat) : Nat :=
  if k.phase = 3 then min maxData (lacking x k half)
  else min (lacking x k half) (min maxData (x.halfBytes k.phase - k.got half % max 1 (x.halfBytes k.phase)))

/-- The transfer agrees with the receiver's entry in size and place (R309); a control word also in its `STEP` and `ENTRY`
(R303). -/
def ringSizeOk (s : State) (x : Shape) (k : Coll) (half off : Nat) (bs : List Byte) : Bool :=
  if k.phase = 0 then bs.length == 1040 && half == 0 && leAt bs 0 4 == stepNo s && leAt bs 4 4 == k.idx
  else bs.length == nextPiece x k half && off == (if k.phase = 3 then k.got0 else k.got half)

/-- Take a transfer into a collective. -/
def feedColl (c : Ctx) (x : Shape) (half : Nat) (bs : List Byte) (k : CollRun) : CollRun :=
  if k.1.phase = 0 then receiveWord c x bs k
  else if k.1.phase = 1 then receiveSums c x half bs k
  else if k.1.phase = 2 then receiveCodes c x half bs k
  else receiveBlock c x.d bs k

/-- Phases that an opcode has. -/
def phaseOf (e : Entry) (ph : Nat) : Bool :=
  if e.op = 0x53 then ph == 3
  else (ph == 0 && hasControl e) || (ph == 1 && e.op != 0x51) || (ph == 2 && e.op != 0x50)

/-- What becomes of a `RING` transfer at the front of a port. -/
inductive RingTake where
  /-- It waits for its entry, or its phase. -/
  | wait
  | mismatch
  | feed (c : Ctx) (k : Coll)

/-- Match a `RING` transfer with its entry (R309). -/
def ringTake (s : State) (p : Nat) (f : Flit) (bs : List Byte) (ph : List Phys) : RingTake :=
  let r := p / 2
  let idx := bits (leAt f.payload 0x20 4) 27 0
  let phs := bits (leAt f.payload 0x20 4) 31 28
  let half := p % 2
  match streamOf s 3 r with
  | none => .mismatch
  | some st =>
    match streamAt s st with
    | none => .mismatch
    | some x =>
      match (ringAt s r).colls.find? (fun (k : Coll) => k.idx == idx), x.inflight.find? (fun f => f.idx == idx),
          x.entry? idx with
      | some k, some fl, some e =>
        let c := ctxOf s st x idx e fl.slot fl.voided ph
        if !phaseOf e phs || decide (phs < k.phase) then .mismatch
        else if k.phase < phs then .wait
        else if ringSizeOk s (shapeOf c s) k half (leAt f.payload 0x18 8) bs then .feed c k
        else .mismatch
      | _, _, _ => if idx < x.pos ∨ x.atEnd then .mismatch else .wait

/-- Data of a group of the entry's own segment under an odd tag (14 R319). -/
def oddTag (s : State) (c : Ctx) (f : Flit) : List Confined :=
  if f.gv && f.tag % 2 == 1 && f.tag / 2 == stepNo s % 2 ^ 15 && maskHas (slotGroups s c.slot) f.group then
    [propagated c.unit f.group]
  else []

/-- Take the front `RING` transfer of a port, if it is of a phase that `ok` admits. DEDUCED: log entry 63. -/
def takeRing (p : Nat) (ok : Nat → Bool) (ph : List Phys) (s : State) : State :=
  match frontMine s p 0 2 with
  | some (f, ds, rest) =>
    if leAt f.payload 6 1 ≠ 2 ∨ !ok (bits (leAt f.payload 0x20 4) 31 28) then s
    else
      let bs := joinData f ds
      let go := consume p 0 (1 + ds.length) rest s
      if !ringHdrOk s (p / 2) f then ringMismatch (p / 2) (plSrc f.payload) go
      else match ringTake s p f bs ph with
        | .wait => s
        | .mismatch => entryMismatch (p / 2) (plSrc f.payload) (bits (leAt f.payload 0x20 4) 27 0) go
        | .feed c k =>
          if s.step.active then
            let r : Run := { s := raiseOnce c.st c.idx (oddTag s c f) go }
            let k := feedColl c (shapeOf c s) (p % 2) bs (k, r)
            settleColl c (k.1, physEvents c k.2)
          else go
  | none => s

/-- CONTROL_WORD_RECEIVE: a control word of ring r, which travels up (R303). -/
def execControlWordReceive (r : Nat) (s : State) : Host.Outcome State Fault Refusal :=
  .next (takeRing (2 * r) (· == 0) [] s)

/-- RING_TRANSFER_RECEIVE: reduce, gather and rotate data (R304, R306, R308, R309). -/
def execRingTransferReceive (p : Nat) (ph : List Phys) (s : State) : Host.Outcome State Fault Refusal :=
  .next (takeRing p (fun k => k != 0 || p % 2 == 1) ph s)

end Sys2Proof.Machine
end

