-- ==== Sys2Proof/Machine/Maps.lean ====
section
/-! DEFINITION. The maps and enables of the instances and the repair records (19 R417, R464, Table 19-3). -/

namespace Sys2Proof.Machine

/-- Compute profile by active cores per district: C128, C120, C112, C96 (01 Table 01-6). -/
def coresPer (k : Nat) : Nat := if k = 0 then 32 else if k = 1 then 30 else if k = 2 then 28 else 24

/-- An instance is lost, now or by the repair records. -/
def unitLost (s : State) (t : Blk) (i : Nat) : Bool :=
  getB s (Reg.blkStatus t i) 63 || s.mgt.records.contains (blkCode t, i)

/-- Set the map of an instance: enabled, mapped, logical number. The scratchpad of a core whose enable returns is ON and zeroed
(10 R226). DESIGN CHOICE: log entry 174. -/
def putMapOf (t : Blk) (i : Nat) (l : Option Nat) (s : State) : State :=
  let a := Reg.blkCtrl t i
  match l with
  | some n =>
    let s := if t = .core ∧ getB s a 63 = false then allPairs i 0 (clearCore i s) else s
    setF (setB (setB s a 63 true) a 40 true) a 39 32 n
  | none => setF (setB (setB s a 63 false) a 40 false) a 39 32 0

/-- Instances `lo` to `lo + n - 1` that are not lost. -/
def live (s : State) (t : Blk) (lo n : Nat) : List Nat :=
  ((List.range n).map (lo + ·)).filter fun i => !unitLost s t i

/-- Map the first `k` live instances of a run to logical numbers from `l0`; the others are unmapped. -/
def mapRun (t : Blk) (lo n k l0 : Nat) (s : State) : State :=
  let ok := live s t lo n
  (List.range n).foldl (fun s j =>
    let i := lo + j
    match ok.findIdx? (· == i) with
    | some q => putMapOf t i (if q < k then some (l0 + q) else none) s
    | none => putMapOf t i none s) s

/-- The districts that have 8 active engines in C120: the two lowest-numbered with 8 engines that are not lost. -/
def eightDistricts (s : State) : List Nat :=
  ((List.range 4).filter fun d => decide (8 ≤ (live s .jnc (9 * d) 9).length)).take 2

/-- Active Junction engines of district `d` in a compute profile, and the logical number of its first one: 32, 30, 28 and 24 in
all (01 Table 01-6). 30 is no whole number for each of four districts: in C120 two districts have 8 and two have 7.
DESIGN CHOICE: log entry 123. -/
def enginesOf (s : State) (k d : Nat) : Nat :=
  if k = 0 then 8 else if k = 1 then (if (eightDistricts s).contains d then 8 else 7) else if k = 2 then 7 else 6
def engineBase (s : State) (k d : Nat) : Nat := (List.range d).foldl (fun n e => n + enginesOf s k e) 0

/-- Every district can serve a compute profile (R464): its cores and its Junction engines, 30 of them in C120. -/
def profileFits (s : State) (k : Nat) : Bool :=
  ((List.range 4).all fun d =>
    decide (coresPer k ≤ (live s .core (34 * d) 34).length) && decide (enginesOf s k d ≤ (live s .jnc (9 * d) 9).length)) &&
  (k != 1 || (eightDistricts s).length == 2)

/-- What R464 leaves whatever the profile: the live banks serve the logical ones in order, and every mover and ring engine is
enabled. -/
def putUnits (s : State) : State :=
  let s := mapRun .hpb 0 33 32 0 s
  let s := (List.range 8).foldl (fun s i => setB s (Reg.blkCtrl .mov i) 63 true) s
  (List.range 3).foldl (fun s i => setB s (Reg.blkCtrl .rng i) 63 true) s

/-- The maps of R464 for a compute profile: each run's live instances in order. DESIGN CHOICE: log entry 123. -/
def putMaps (k : Nat) (s : State) : State :=
  putUnits ((List.range 4).foldl (fun s d =>
    mapRun .jnc (9 * d) 9 (enginesOf s k d) (engineBase s k d)
      (mapRun .core (34 * d) 34 (coresPer k) (coresPer k * d) s)) s)

/-- The largest compute profile from `k` on that the device can serve. -/
def bestCompute (s : State) (k : Nat) : Option Nat := [0, 1, 2, 3].find? fun q => decide (k ≤ q) && profileFits s q

/-- 32 hall-pass banks are live. -/
def banksLeft (s : State) : Bool := decide (32 ≤ (live s .hpb 0 33).length)

/-- At a restart, write the largest compute profile from `k` on, or go out of service (R329). -/
def applyMaps (k : Nat) (s : State) : State :=
  match bestCompute s k with
  | some q => if banksLeft s then putMaps q s else outOfService s
  | none => outOfService s

/-- The enables and maps that bring-up leaves (R464): a part that goes out of service over them has its movers and ring engines
enabled too, and the banks and units that it can map. DESIGN CHOICE: log entry 123. -/
def bringMaps (s : State) : State :=
  match bestCompute s 0 with
  | some q => if banksLeft s then putMaps q s else outOfService (putMaps q s)
  | none => outOfService (putUnits s)

/-- Registers that the repair records restore: array and bank substitutes and the channel maps (19 Table 19-3).
DEDUCED: log entry 75. -/
def recorded (a : Nat) : Bool :=
  let t := regType a
  let off := regOff a
  (decide (t = .core) && (off == 0x100 || off == 0x128)) || (decide (t = .hbs) && decide (0x100 ≤ off ∧ off < 0x140))

/-- The condemned units: those that the repair records hold, and those lost now. -/
def condemnedUnits (s : State) : List (Nat × Nat) :=
  let of := fun (t : Blk) => (List.range (built t)).filterMap fun i =>
    if getB s (Reg.blkStatus t i) 63 then some (blkCode t, i) else none
  (s.mgt.records ++ of .core ++ of .jnc ++ of .hpb ++ of .hbc).eraseDups

/-- The repair records take effect: substitutes and channel maps return (19 Table 19-2 event 6). DEDUCED: log entry 75. -/
def applyRepairs (s : State) : State :=
  { s with regs := s.mgt.repairs.foldl (fun m c => cellSet regReset m c.1 c.2) s.regs }

/-- Qormanan notes in its repair records what it has changed between `s` and `t`: the substitutes and channel maps, and the units
now condemned (14 Table 14-4, 19 Table 19-2 event 6). DEDUCED: log entry 75. -/
def noteRepairs (s t : State) : State :=
  let regs := ((s.regs ++ t.regs).map (·.1)).filter fun a => recorded a && rget s a != rget t a
  { t with mgt := { t.mgt with
      records := condemnedUnits t
      repairs := regs.foldl (fun m a => cellSet regReset m a (rget t a)) t.mgt.repairs } }

end Sys2Proof.Machine
end

