-- ==== Sys2Proof/Machine/Power.lean ====
section
/-! DEFINITION. Power (18): the AVSBus rails and their chains (R402 to R404, R411), states and sequences (R393 to R401), the
voltage loop and its bounds (R405 to R412), and the pace monitors (02 R27). -/

namespace Sys2Proof.Machine

/-! ## Rails (R402 to R404) -/

/-- AVSBus number of a rail (18 Table 18-6). -/
def railCode : Rail → Nat
  | .vcore => 0 | .vsram => 1 | .vphy => 2

/-- The supply of a rail. -/
def railSupply : Rail → Supply
  | .vcore => .vcore | .vsram => .vsram | .vphy => .vphy

/-- The write outstanding on a rail. -/
def avsOf (s : State) : Rail → Option AvsWrite
  | .vcore => s.power.wcore | .vsram => s.power.wsram | .vphy => s.power.wphy

def setAvs (r : Rail) (w : Option AvsWrite) (s : State) : State :=
  match r with
  | .vcore => { s with power := { s.power with wcore := w } }
  | .vsram => { s with power := { s.power with wsram := w } }
  | .vphy => { s with power := { s.power with wphy := w } }

/-- Last acknowledged set points in mV (18 Table 18-8). -/
def vcore (s : State) : Nat := getF s Reg.voltStatus 43 32
def vsram (s : State) : Nat := getF s Reg.voltStatus 27 16

/-- VSRAM that R404 keeps for a VCORE. -/
def sramFor (v : Nat) : Nat := max 750 (v + 25)

/-- `POWER_THROTTLE`, `AVS_FALLBACK`, `AVS_LOST` or `RAIL_FAIL` is raised (20 Table 20-9 `POWER`). -/
def powerAlert (code : Nat) (s : State) : State := alert code (setInt .mgt 0 10 s)

/-- Start a voltage write. -/
def sendVolt (r : Rail) (mv : Nat) (s : State) : State :=
  let s := emit (.avs r mv) (setAvs r (some { mv := mv }) s)
  { s with power := { s.power with vdone := s.power.vdone.filter (· != r) } }

/-- Write a rail's transition rate, 2.5 mV/µs, once at bring-up (18 Table 18-6). -/
def sendRate (r : Rail) (s : State) : State := if s.power.seq = .bringUp then emit (.avsRate r 25) s else s

/-- Open or close every district's gate, and every PHY gate (18 Tables 18-1, 18-2). -/
def gateDistricts (on : Bool) (s : State) : State :=
  { s with power := { s.power with districts := List.replicate 4 on } }
def gatePhys (on : Bool) (s : State) : State :=
  { s with power := { s.power with stackPhys := List.replicate 6 on, pairPhys := List.replicate 3 on } }

/-- The VSRAM set point beside a VCORE: R404's, or a higher one that a write of `MGT_VSET` has commanded under `MANUAL`, at most
R404's for the top of the rail range (R404, R412). DEDUCED: log entry 81. -/
def sramGoal (s : State) (v : Nat) : Nat :=
  match s.power.manualSram with
  | some m => max (sramFor v) (min (sramFor 850) m)
  | none => sramFor v

/-- Send the VSRAM set point that waits; one above a rail that has refused to rise stays unsent (R409). -/
def sramPump (s : State) : State :=
  match s.power.wantSram with
  | some n =>
    let s' := { s with power := { s.power with wantSram := none } }
    if n = vsram s ∨ (vsram s < n ∧ s.power.sramFailed) then s' else sendVolt .vsram n s'
  | none => s

/-- Send what R404 lets go next: VSRAM rises before VCORE, and follows it behind; with memory assist VCORE may rise to VSRAM +
50 mV (R409). DEDUCED: log entry 106. -/
def railPump (s : State) : State :=
  if s.power.wcore.isSome || s.power.wsram.isSome then s
  else match s.power.wantCore with
    | some v =>
      if vcore s < v ∧ vsram s < sramFor v ∧ !s.power.sramFailed then sendVolt .vsram (sramGoal s v) s
      else
        let v' := if vcore s < v ∧ vsram s < sramFor v then max (vcore s) (min v (vsram s + 50)) else v
        let s' := { s with power := { s.power with wantCore := none, wantSram := some (sramGoal s v') } }
        if v' = vcore s then sramPump s' else sendVolt .vcore v' s'
    | none => sramPump s

/-- Ask for a VCORE set point under R404; after a thermal trip the rails stay off (R400). -/
def setCore (v : Nat) (s : State) : State :=
  if s.mgt.tripped then s
  else railPump { s with power := { s.power with wantCore := some v, sramFailed := false } }

/-- Thermal stage 1 holds the rail. -/
def stage1On (s : State) : Bool := getB s Reg.thermal 63

/-- The set point to which VCORE goes or at which it stands: that of an outstanding write, else the last acknowledged; while
AVSBus is lost the last acknowledged (R403, R411). -/
def railCore (s : State) : Nat :=
  match s.power.wcore with
  | some w => if getB s Reg.voltStatus 58 then vcore s else w.mv
  | none => vcore s

/-- The VCORE set point that the loop reckons with: one asked for, else that of the rail. -/
def coreTarget (s : State) : Nat :=
  match s.power.wantCore with
  | some v => if getB s Reg.voltStatus 58 then vcore s else v
  | none => railCore s

/-- The set point from which stage 1 and the limiter lower the rail: no rise that still waits counts (R384, R405, R410). -/
def heldCore (s : State) : Nat := min (coreTarget s) (railCore s)

/-- Lower VCORE to `v` on behalf of stage 1 or the limiter; where it stands there, a rise that waits goes, and VSRAM follows. -/
def lowerCore (v : Nat) (s : State) : State :=
  if v < heldCore s then setCore v s
  else if s.power.wantCore.any fun w => decide (v < w) then
    railPump { s with power := { s.power with wantCore := none, wantSram := some (sramGoal s (railCore s)) } }
  else s

/-- Ask for a set point on behalf of software or of a restore: while stage 1 or the limiter holds the rail it does not rise
(18 Table 18-7). -/
def askCore (v : Nat) (s : State) : State :=
  setCore (if stage1On s || s.power.limiting then min v (coreTarget s) else v) s

/-- `MANUAL` goes to 0: a commanded VSRAM set point no longer holds, and VSRAM returns to what R404 keeps for the VCORE that
stands or is asked for (R404, R412). -/
def leaveManual (s : State) : State :=
  let s := { setB s Reg.voltPolicy 63 false with power := { s.power with manualSram := none } }
  if s.power.en.contains .vcore then askCore (coreTarget s) s else s

/-- Name of an enable land (21 Table 21-4). -/
def enLand : Supply → String
  | .vcore => "EN_VCORE" | .vsram => "EN_VSRAM" | .vphy => "EN_VPHY" | .vhbm => "EN_VHBM" | .vaon => "" | .vpcie => ""

/-- Drive a rail enable. -/
def enable1 (x : Supply) (s : State) : State :=
  if s.power.en.contains x then s
  else emit (.land (enLand x) true) { s with power := { s.power with en := x :: s.power.en } }
def disable1 (x : Supply) (s : State) : State :=
  if s.power.en.contains x then
    emit (.land (enLand x) false)
      { s with power := { s.power with en := s.power.en.filter (· != x), pg := s.power.pg.filter (· != x) } }
  else s

/-- A rail's voltage is settled: power good, and its last write ended by VDone (18 Table 18-4 events 4 and 6). -/
def railReady (s : State) (r : Rail) : Bool := s.power.pg.contains (railSupply r) && s.power.vdone.contains r

/-- VPHY and VHBM come up behind VCORE: at bring-up VPHY's set point is written, once (18 R404, 19 Table 19-2 event 5, 21
R450). -/
def enablePhy (s : State) : State :=
  if s.power.en.contains .vphy then s
  else
    let s := gatePhys true (enable1 .vhbm (enable1 .vphy s))
    if s.power.seq = .bringUp then sendVolt .vphy s.mgt.fuses.vphy (sendRate .vphy s) else s

/-- Bring-up has its rails: the repair records are applied, the districts are ungated, their instances mapped and enabled, and the
ports train in loopback (19 Table 19-2 events 6, 7 and 9). -/
def railsDone (s : State) : State :=
  let s := bringMaps (applyRepairs (gateDistricts true { s with power := { s.power with seq := .none } }))
  (List.range 6).foldl (fun s p => if getF s (Reg.linkCtrl p) 1 0 = 3 then setLink p 5 s else enterLoopback p s) s

/-- The rail events of a restore or of bring-up (18 Table 18-4 events 3 to 6 and 9). -/
def railChain (s : State) : State :=
  if s.power.seq = .restore ∨ s.power.seq = .bringUp then
    if !s.power.en.contains .vcore then
      if !s.power.en.contains .vsram then sendVolt .vsram 775 (sendRate .vsram (enable1 .vsram s))
      else if railReady s .vsram then sendVolt .vcore 750 (sendRate .vcore (enable1 .vcore s))
      else s
    else if !(railReady s .vsram && railReady s .vcore) then s
    else
      let s := enablePhy s
      if s.power.seq = .bringUp ∧ railReady s .vphy then railsDone s else s
  else railPump s

/-- Every rail of a sequence stands as it should. -/
def railsUp (s : State) : Bool := railReady s .vsram && railReady s .vcore && railReady s .vphy

/-- Clear `AVS_LOST` at an acknowledged command (R411). -/
def avsFound (s : State) : State := setB s Reg.voltStatus 58 false

/-- Show the body-bias steps (18 Table 18-8). -/
def putBias (n : Nat) (s : State) : State :=
  setB (setF { s with power := { s.power with bias := n } } Reg.voltStatus 57 56 (min n 3)) Reg.voltStatus 55 (n == 4)

/-- Apply one step of body bias, once in a loop period; it lies below stage 1 and the limiter (R405, R408).
DEDUCED: log entry 167. -/
def biasUp (s : State) : State :=
  if s.power.biased ∨ 4 ≤ s.power.bias ∨ stage1On s ∨ s.power.limiting then s
  else putBias (s.power.bias + 1) { s with power := { s.power with biased := true } }

/-- A write has failed: `AVS_FALLBACK`, with body bias for VCORE and memory assist for VSRAM; VSRAM returns to what R404 keeps for
the VCORE that stands (R403, R404, R408, R409). -/
def avsFail (r : Rail) (s : State) : State :=
  let s := powerAlert 0x1202 (incSat (setAvs r none s) Reg.avsStatus 47 32 1)
  match r with
  | .vcore =>
    railChain (biasUp { s with power := { s.power with
      coreFailed := true, wantCore := none, wantSram := some (sramGoal s (vcore s)) } })
  | .vsram => railChain { setB s Reg.voltStatus 59 true with power := { s.power with sramFailed := true } }
  | .vphy => s

/-- The regulator has taken a write (R403). -/
def avsTaken (r : Rail) (w : AvsWrite) (s : State) : State :=
  let s := setAvs r (some { w with acked := true, hold := false }) s
  match r with
  | .vcore =>
    let s := setF s Reg.voltStatus 43 32 w.mv
    { s with power := { s.power with coreFailed := false,
                                     runSet := if pwrState s = 0 then some w.mv else s.power.runSet } }
  | .vsram =>
    let s := setF s Reg.voltStatus 27 16 w.mv
    if sramFor (vcore s) ≤ w.mv then setB s Reg.voltStatus 59 false else s
  | .vphy => { s with power := { s.power with vphy := w.mv } }

/-- A frame has been answered: `LAST_ACK` and `LAST_RAIL`; an acknowledged one clears `AVS_LOST` (R411, Table 18-8). -/
def lastFrame (r : Rail) (code : Nat) (s : State) : State :=
  let s := setF (setF s Reg.avsStatus 5 4 code) Reg.avsStatus 3 2 (railCode r)
  if code = 0 then avsFound s else s

/-- Send a write again. -/
def avsAgain (r : Rail) (w : AvsWrite) (s : State) : State :=
  emit (.avs r w.mv) (setAvs r (some w) (incSat s Reg.avsStatus 31 16 1))

/-- AVS_RESPONSE (R403). -/
def execAvsResponse (r : Rail) (a : SlaveAck) (s : State) : Host.Outcome State Fault Refusal :=
  .next
    (match avsOf s r with
     | none => s
     | some w =>
       if w.acked ∨ w.hold then s
       else
         let code := match a with
           | .taken => 0
           | .busy => 1
           | .badCrc => 2
           | .invalid => 3
         let s := lastFrame r code s
         match a with
         | .taken => avsTaken r w s
         | .busy => if 8 ≤ w.busy then avsFail r s else setAvs r (some { w with hold := true }) s
         | .badCrc => if 3 ≤ w.crc then avsFail r s else avsAgain r { w with crc := w.crc + 1 } s
         | .invalid => avsFail r s)

/-- AVS_BUSY_RETRY: 10 µs after a busy answer the write goes again, at most 8 times (R403). -/
def execAvsBusyRetry (r : Rail) (s : State) : Host.Outcome State Fault Refusal :=
  .next
    (match avsOf s r with
     | some w => if w.hold then avsAgain r { w with busy := w.busy + 1, hold := false } s else s
     | none => s)

/-- A write ends by VDone (R403, R404, R398). -/
def avsDone (r : Rail) (s : State) : State :=
  let s := setAvs r none s
  railChain { s with power := { s.power with vdone := r :: s.power.vdone.filter (· != r) } }

/-- VDONE_POLL: the status of a taken write is read; past its bound the write has failed (R403). -/
def execVdonePoll (r : Rail) (vdone expired : Bool) (s : State) : Host.Outcome State Fault Refusal :=
  .next
    (match avsOf s r with
     | some w =>
       if !w.acked then s
       else
         let s := lastFrame r 0 (emit (.avsStatusRead r) s)
         if vdone then avsDone r s else if expired then avsFail r s else s
     | none => s)

/-- AVS_STATUS_ALERT: a StatusAlert triggers a status read, which the regulator acknowledges (18 Table 18-6). -/
def execAvsStatusAlert (r : Rail) (vdone : Bool) (s : State) : Host.Outcome State Fault Refusal :=
  let s := lastFrame r 0 (emit (.avsStatusRead r) s)
  .next
    (match avsOf s r with
     | some w => if w.acked && vdone then avsDone r s else s
     | none => s)

/-- AVS_LOST: no valid answer to any command for 10 ms (R411), or an unsupported version (18 Table 18-6). -/
def execAvsLost (s : State) : Host.Outcome State Fault Refusal :=
  .next (if getB s Reg.voltStatus 58 then s else powerAlert 0x1203 (setB s Reg.voltStatus 58 true))

/-- POWER_GOOD_RISE (18 Table 18-4 events 4 and 6, 21 R449). -/
def execPowerGoodRise (x : Supply) (s : State) : Host.Outcome State Fault Refusal :=
  .next
    (if s.power.en.contains x && !s.power.pg.contains x then
      railChain { s with power := { s.power with pg := x :: s.power.pg } }
     else s)

/-! ## States and sequences (R393 to R401) -/

/-- Set `STATE` of `MGT_PWR_STATUS`, and `SEQ` with the sequence. -/
def setPwr (v : Nat) (s : State) : State := setF s Reg.pwrStatus 63 60 v
def setSeq (q : Seq) (s : State) : State :=
  setF { s with power := { s.power with seq := q } } Reg.pwrStatus 59 58
    (match q with
     | .enterSleep | .enterStandby => 1
     | .restore | .restoreRun => 2
     | .none | .bringUp => 0)

/-- Hold a request, or none (R399). -/
def setHeld (h : Option HeldReq) (s : State) : State :=
  setB { s with power := { s.power with held := h } } Reg.pwrStatus 57 h.isSome

/-- `LAST_WAKE` of a source (18 Table 18-5). -/
def wakeCode : WakeSource → Nat
  | .i2c => 1 | .noloc _ => 2 | .lomra _ => 3 | .pcie => 4 | .start => 5 | .qormanan => 6

/-- Whether a source wakes from a state: 1 IDLE, 2 SLEEP, 3 STANDBY (18 Table 18-5). -/
def wakesFrom (st : Nat) : WakeSource → Bool
  | .i2c | .noloc _ | .lomra _ => st == 2 || st == 3
  | .pcie => st == 2
  | .start => st == 1
  | .qormanan => st == 1 || st == 2

/-- The source is enabled (18 Table 18-5, 12 R282). -/
def wakeEnabled (s : State) : WakeSource → Bool
  | .noloc p => getB s (Reg.linkCtrl p) 18
  | .lomra p => getB s (Reg.linkCtrl p) 19
  | _ => true

/-- Ungate the districts: scratchpads zeroed, every bank pair ON that is not OFF (10 R226, R227). -/
def ungate (s : State) : State :=
  let s := gateDistricts true { s with sp := [], spFix := [], acc := [], ksteps := [] }
  (List.range 136).foldl (fun s c => wakePairs c s) s

/-- Begin the restore from IDLE to RUN (R398): the loop's first set point is written. -/
def beginRun (src : WakeSource) (s : State) : State :=
  let s := { s with power := { s.power with coreFailed := false } }
  askCore (s.power.runSet.getD 750) (setF (setSeq .restoreRun s) Reg.pwrStatus 54 52 (wakeCode src))

/-- Begin the restore from SLEEP (18 Table 18-4). -/
def beginRestore (src : WakeSource) (s : State) : State :=
  railChain (setSampling true (setF (setSeq .restore s) Reg.pwrStatus 54 52 (wakeCode src)))

/-- Enter SLEEP or STANDBY: all Underpasses close first, and `CAUSE` reads 0 in every page (R395, R397). -/
def beginEntry (standby : Bool) (s : State) : State :=
  let s := { s with mgt := { s.mgt with opening := [] } }
  let s := closeAll 0 (setSeq (if standby then .enterStandby else .enterSleep) s)
  (List.range 3).foldl (fun s k => setF s (Reg.underpass (2 * k)) 3 2 0) s

/-- A power request that is refused (R394). -/
def powerRefused (s : State) : State := alert 0x1206 (setB s Reg.pwrStatus 56 true)

/-- A request for SLEEP or STANDBY (R394, R399). -/
def powerRequest (standby : Bool) (s : State) : State :=
  match s.power.seq with
  | .restore | .restoreRun => setHeld (some (if standby then .standby else .sleep)) s
  | .none =>
    if pwrState s = 1 ∧ !jobActive s ∧ phase s = 0 ∧ !s.mgt.tripped then beginEntry standby s else powerRefused s
  | _ => powerRefused s

/-- A wake request outside STANDBY (R399, R401). In an entry it is held if its source wakes from the state being left or
entered; in a restore it is held. After a thermal trip nothing wakes the device before a reset (R400). -/
def wakeUp (src : WakeSource) (s : State) : State :=
  if s.mgt.tripped || !wakeEnabled s src then s
  else match s.power.seq with
    | .enterSleep => if wakesFrom 2 src || wakesFrom 1 src then setHeld (some (.wake src)) s else s
    | .enterStandby => if wakesFrom 3 src || wakesFrom 1 src then setHeld (some (.wake src)) s else s
    | .restore | .restoreRun => setHeld (some (.wake src)) s
    | .bringUp => s
    | .none =>
      if wakesFrom (pwrState s) src then
        (if pwrState s = 1 then beginRun src s else if pwrState s = 2 then beginRestore src s else s)
      else s

/-- Take the held request and count it. -/
def takeHeld (s : State) : Option HeldReq × State :=
  match s.power.held with
  | some h => (some h, incSat (setHeld none s) Reg.pwrStatus 31 16 1)
  | none => (none, s)

/-- Act on a held request at the end of a restore (R399). -/
def actHeld (s : State) : State :=
  match takeHeld s with
  | (some (.wake src), s) => wakeUp src s
  | (some .sleep, s) => powerRequest false s
  | (some .standby, s) => powerRequest true s
  | (none, s) => s

/-- IDLE: the districts are gated and VCORE goes to 0.65 V (18 Table 18-2). -/
def restIdle (s : State) : State := setCore 650 (gateDistricts false (setPwr 1 s))

/-- In IDLE with a job that waits, the device goes on to RUN (R394, R398); a held request is taken, and one for SLEEP or STANDBY
is refused, for the device is no longer in IDLE. -/
def runJob (s : State) : State :=
  match takeHeld s with
  | (some .sleep, s) | (some .standby, s) => powerRefused (beginRun .start s)
  | (_, s) => beginRun .start s

/-- The device has to be in RUN: a job waits or is active, or `PHASE` is not NONE (R394). -/
def runNeeded (s : State) : Bool := s.job.startHeld || jobActive s || phase s != 0

/-- The set point of the restore from IDLE to RUN has ended by VDone (R398). -/
def railSet (s : State) : Bool :=
  s.power.wcore.isNone && s.power.wsram.isNone && s.power.wantCore.isNone && !s.power.coreFailed

/-- The last event of a restore, if its rails stand: IDLE, or RUN (18 Table 18-4 event 12, R398). -/
def restoreLast (s : State) : State :=
  match s.power.seq with
  | .restore =>
    if railsUp s then
      let s := restIdle (setClocks true (setSeq .none (ungate s)))
      let s := releaseHost s.heldHost s
      (List.range 6).foldl (fun s p =>
        if (port s p).role = 3 then s else setB (enterLoopback p s) (Reg.linkStatus p) 59 true) s
    else s
  | .restoreRun =>
    if railSet s then
      let s := setPwr 0 (setSeq .none (ungate s))
      { s with job := { s.job with startHeld := false } }
    else s
  | _ => s

/-- What follows a restore that has ended: on to RUN if the device has to be there, else the held request (R394, R399). -/
def restoreNext (s : State) : State := if pwrState s = 1 ∧ runNeeded s then runJob s else actHeld s

/-- The end of a restore; a device reset that waits for it goes before what it would begin (R399, 19 R416). -/
def restoreEnd (s : State) : State :=
  let t := restoreLast s
  if (s.power.seq = .restore ∨ s.power.seq = .restoreRun) ∧ t.power.seq = .none ∧ t.mgt.heldReset.isNone then restoreNext t else t

/-- IDLE_ENTRY: no job and no restart for `IDLE_DELAY` ms (R394). -/
def execIdleEntry (s : State) : Host.Outcome State Fault Refusal :=
  .next
    (if pwrState s = 0 ∧ s.power.seq = .none ∧ !jobActive s ∧ phase s = 0 ∧ !s.mgt.tripped then restIdle s else s)

/-- No rail write is outstanding or waits. -/
def dropWrites (s : State) : State :=
  { s with power := { s.power with wcore := none, wsram := none, wphy := none, wantCore := none, wantSram := none } }

/-- Domains off at the end of an entry sequence, or of a restore that fails (18 Tables 18-2, 18-3). -/
def domainsOff (standby : Bool) (s : State) : State :=
  let s := (List.range 6).foldl (fun s p => setLink p 5 (setB s (Reg.linkStatus p) 59 false)) s
  let s := dropWrites (disable1 .vsram (disable1 .vcore (disable1 .vphy s)))
  let s := setSampling false (setClocks false { s with sp := [], spFix := [], acc := [], ksteps := [] })
  let s := gatePhys false (gateDistricts false s)
  if standby then
    let s := disable1 .vhbm s
    setPwr 3 { s with hbm := [], chk := [], mgt := { s.mgt with sram := [], held0 := true, held1 := true, watchdogOn := false } }
  else setPwr 2 s

/-- Power good or VDone missing during a restore (R398, 18 Table 18-9): the rails go in the order of Table 18-3 and the device
stays in SLEEP, its Underpasses closed; a held request is dropped with the sequence. -/
def railFail (s : State) : State :=
  if (s.power.seq = .restore ∧ !railsUp s) ∨ (s.power.seq = .restoreRun ∧ !railSet s) then
    setSeq .none (setHeld none (powerAlert 0x1204 (setB (domainsOff false (closeAll 0 s)) Reg.pwrStatus 55 true)))
  else s

/-! ## The voltage loop (R405 to R409) -/

/-- Policy values as they act (18 Table 18-8). -/
def pcap (s : State) : Nat := min 1350 (getF s Reg.voltPolicy 59 48)
def vmax (s : State) : Nat := max 650 (min 850 (getF s Reg.voltPolicy 43 32))
def targetRate (s : State) : Nat := max (policyFloor s) (getF s Reg.voltPolicy 31 16)

/-- The lowest `RATE_NOW` of any district (15 Table 15-4 `RATE_MIN`). -/
def rateNow (s : State) : Nat := (List.range 4).foldl (fun m d => min m (getF s (Reg.paceRate d) 15 0)) 0xFFFF

/-- r of R406: the lowest `RATE_NOW` of the last period. -/
def loopRate (s : State) : Nat := if s.power.rateLow = 0xFFFF then rateNow s else s.power.rateLow

/-- `PINNED` of `MGT_VOLT_STATUS` is set (20 Table 20-9). -/
def setPinned (s : State) : State := setInt .mgt 0 11 (setB s Reg.voltStatus 63 true)

/-- The set point that the floor branch of R406 asks for; the loop never leaves 650 to 850 mV (18 Table 18-7). -/
def raised (v : Nat) : Nat := min 850 (v + 5)
def lowered (v : Nat) : Nat := max 650 (v - 5)

/-- The loop does not run: `MANUAL`, lost answers, stage 1 or the limiter (R405, R410 to R412). -/
def loopStopped (s : State) : Bool :=
  getB s Reg.voltPolicy 63 || getB s Reg.voltStatus 58 || stage1On s || s.power.limiting

/-- One period of the loop of R406. -/
def loopStep (r p v : Nat) (s : State) : State :=
  let floor := policyFloor s
  if r < floor then
    let v' := if v < 850 then raised v else v
    let s := if vmax s < v' ∨ pcap s < p then setB s Reg.voltStatus 62 true else s
    if v' = v then s else setCore v' s
  else if (pcap s < p ∨ vmax s < v) ∧ floor * 51 ≤ r * 50 then (if lowered v = v then s else setCore (lowered v) s)
  else if r < targetRate s then
    (if v + 5 ≤ vmax s ∧ p + 10 ≤ pcap s then setCore (v + 5) s else setPinned s)
  else if targetRate s * 51 < r * 50 ∧ 650 < v then setCore (lowered v) s
  else s

/-- Body bias over one period (R408), `v` the set point that the loop has just chosen (R406). -/
def biasStep (r v : Nat) (s : State) : State :=
  let low := decide (v = 850 ∧ r < policyFloor s)
  let n := if policyFloor s * 51 ≤ r * 50 then min 10 (s.power.goodPeriods + 1) else 0
  let s := { s with power := { s.power with biased := false, goodPeriods := n } }
  if s.power.coreFailed || low then biasUp s
  else if s.power.bias = 0 ∨ n < 10 then s
  else putBias (s.power.bias - 1) s

/-- A safety of R73 and R410 acts in a period whose lowest rate is r. -/
def safetyHolds (s : State) (r v : Nat) : Bool :=
  getB s Reg.voltStatus 60 ||
  ((stage1On s || s.power.limiting || (s.power.bias == 4 && v == 850)) && decide (r < policyFloor s))

/-- `FLOOR_BREACH` of the running step (03 R73, R410). -/
def floorBreach (s : State) : State :=
  if s.step.active then { s with step := { s.step with floorBreach := true } } else s

/-- Note a breach as a district shows rate r: at the start of a step, and with every window of 02 R27 (03 R73). -/
def noteBreach (r : Nat) (s : State) : State := if safetyHolds s r (coreTarget s) then floorBreach s else s

/-- VOLTAGE_LOOP_PERIOD (R406, R408, R410). Stage 1 and the limiter win over the loop (18 Table 18-7). Of a period that began
before the step, the step's own part counts for `FLOOR_BREACH` (03 R73).
DEDUCED: log entry 107. -/
def execVoltageLoopPeriod (s : State) : Host.Outcome State Fault Refusal :=
  .next
    (if pwrState s = 0 ∧ s.power.seq = .none ∧ !s.mgt.tripped then
      let r := loopRate s
      let v := coreTarget s
      let p := getF s Reg.power 15 0
      let s := setF s Reg.voltStatus 15 0 r
      let s := noteBreach (max r s.step.rateMin) s
      let s := biasStep r (if loopStopped s ∨ policyFloor s ≤ r ∨ 850 ≤ v then v else raised v) s
      let s := { s with power := { s.power with rateLow := 0xFFFF } }
      if loopStopped s then s
      else loopStep r p v s
     else s)

/-! ## The limiter (R410, R411) -/

/-- The measured 100 µs average, or the estimate while AVSBus is lost. -/
def throttleOn (s : State) (avg est : Nat) : Bool :=
  let lost := getB s Reg.voltStatus 58
  let now := getB s Reg.voltStatus 60
  let x := if lost then est else avg
  let on := if lost then 1250 else s.mgt.fuses.ceil
  if now then decide (s.mgt.fuses.ceil - 25 ≤ x) || decide (on < x) else decide (on < x)

/-- Read items of the three rails over AVSBus, the last frame of which is VPHY's (18 Table 18-6). While AVSBus is lost, whether
the reads are acknowledged is free (R411). DESIGN CHOICE: log entry 151. -/
def readRails (items : List AvsItem) (s : State) : State :=
  if s.power.oscillator then
    let s := items.foldl (fun s x => [Rail.vcore, .vsram, .vphy].foldl (fun s r => emit (.avsRead x r) s) s) s
    if getB s Reg.voltStatus 58 then
      let x := takeFree s
      if x.1.getLsbD 0 then lastFrame .vphy 0 x.2 else x.2
    else lastFrame .vphy 0 s
  else s

/-- CURRENT_SAMPLE (18 Table 18-6, R410, R411). DESIGN CHOICE: log entry 82. -/
def execCurrentSample (avg100us avg1ms est : Nat) (s : State) : Host.Outcome State Fault Refusal :=
  let was := getB s Reg.voltStatus 60
  let s := readRails [.current] s
  let on := throttleOn s avg100us est
  let s := { s with power := { s.power with avg100 := avg100us, avg1 := avg1ms, estimate := est } }
  let s := setF s Reg.power 15 0 (min avg1ms 65535)
  let s := setF s Reg.power 31 16 (max (getF s Reg.power 31 16) (min avg100us 65535))
  let s := setB s Reg.voltStatus 60 on
  let s := if on && !was then powerAlert 0x1205 s else s
  .next (if on then floorBreach s else s)

/-- POWER_LIMIT_1MS: voltages and temperatures are read (18 Table 18-6), and the limiter lowers VCORE by 10 mV per 1 ms while the
1 ms average is too high (R410). -/
def execPowerLimit1ms (s : State) : Host.Outcome State Fault Refusal :=
  let s := readRails [.voltage, .temperature] s
  let x := if getB s Reg.voltStatus 58 then s.power.estimate else s.power.avg1
  let on := if s.power.limiting then decide (s.mgt.fuses.ceil - 25 ≤ x) else decide (s.mgt.fuses.ceil < x)
  let s' := { s with power := { s.power with limiting := on } }
  .next
    (if on then
      let s' := if s.power.limiting then s' else powerAlert 0x1205 s'
      lowerCore (max 650 (heldCore s - 10)) s'
     else s')

/-! ## Policy writes (R407, R412) -/

/-- `FLOOR` of the job's Timetable: while a job is being validated, as its header holds it in HBM (03 R68, R463).
DEDUCED: log entry 119. -/
def jobFloor (s : State) : Nat :=
  if jobState s = 1 then leNat (memRead s.hbm (s.job.ttBase + 8) 2) else s.job.header.floor

/-- A write of `MGT_VOLT_POLICY`: a floor below 1,400, or below the job's `FLOOR`, is refused (R407); `MANUAL` only while no
job is active (R412). The other fields take effect. -/
def policyWrite (v : W64) (s : State) : State :=
  let a := Reg.voltPolicy
  let f := fld v 15 0
  let s := setF (setF (setF s a 59 48 (fld v 59 48)) a 43 32 (fld v 43 32)) a 31 16 (fld v 31 16)
  let s := if f < 1400 ∨ (jobActive s ∧ f < jobFloor s) then alert 0x1201 (setB s Reg.voltStatus 61 true)
    else setF s a 15 0 f
  if jobActive s then s
  else if fld v 63 63 = 1 then setB s a 63 true
  else if getB s a 63 then leaveManual s
  else s

/-- A write of `MGT_VSET`: with `MANUAL` it commands both rails within the fused range and under R404 (R412).
DEDUCED: log entry 81. -/
def vsetWrite (v : W64) (s : State) : State :=
  if jobActive s then s
  else
    let c := fld v 11 0
    let m := fld v 27 16
    let s := setF (setF s Reg.vset 11 0 c) Reg.vset 27 16 m
    if getB s Reg.voltPolicy 63 ∧ s.power.en.contains .vcore ∧ !s.mgt.tripped then
      askCore (max 650 (min 850 c)) { s with power := { s.power with manualSram := some m } }
    else s

/-! ## Pace monitors (02 R27) -/

/-- PACE_WINDOW: a 1.000 µs window of district `d` ends with `w` monitor waves. -/
def execPaceWindow (d w : Nat) (s : State) : Host.Outcome State Fault Refusal :=
  let a := Reg.paceRate d
  let w := min w 65535
  let s := setF (incMod s (Reg.paceCount d) 31 0 w) a 15 0 w
  let s := if w < getF s a 47 32 then setF s a 47 32 w else s
  let s := { s with power := { s.power with rateLow := min s.power.rateLow w } }
  .next (if s.step.active then noteBreach w { s with step := { s.step with rateMin := min s.step.rateMin w } } else s)

/-- A write of `LOW_REARM` (02 Table 02-3). -/
def lowRearmAct (d : Nat) (s : State) : State := setF s (Reg.paceRate d) 47 32 (getF s (Reg.paceRate d) 15 0)

end Sys2Proof.Machine
end

