-- ==== Sys2Proof/Machine/Secure.lean ====
section
/-! DEFINITION. SHA-384 and ECDSA over P-384, the functions that 17 R379 and R380 name by their standards: FIPS 180-4 and FIPS
186-5. PRESUMED: log entry 10, the constants and steps below are those of the standards. -/

namespace Sys2Proof.Machine

/-! ## SHA-384 (FIPS 180-4) -/

/-- Round constants 0 to 39: the first 64 bits of the fractions of the cube roots of the primes. -/
def shaKey0 : List Nat :=
  [0x428A2F98D728AE22, 0x7137449123EF65CD, 0xB5C0FBCFEC4D3B2F, 0xE9B5DBA58189DBBC,
    0x3956C25BF348B538, 0x59F111F1B605D019, 0x923F82A4AF194F9B, 0xAB1C5ED5DA6D8118,
    0xD807AA98A3030242, 0x12835B0145706FBE, 0x243185BE4EE4B28C, 0x550C7DC3D5FFB4E2,
    0x72BE5D74F27B896F, 0x80DEB1FE3B1696B1, 0x9BDC06A725C71235, 0xC19BF174CF692694,
    0xE49B69C19EF14AD2, 0xEFBE4786384F25E3, 0x0FC19DC68B8CD5B5, 0x240CA1CC77AC9C65,
    0x2DE92C6F592B0275, 0x4A7484AA6EA6E483, 0x5CB0A9DCBD41FBD4, 0x76F988DA831153B5,
    0x983E5152EE66DFAB, 0xA831C66D2DB43210, 0xB00327C898FB213F, 0xBF597FC7BEEF0EE4,
    0xC6E00BF33DA88FC2, 0xD5A79147930AA725, 0x06CA6351E003826F, 0x142929670A0E6E70,
    0x27B70A8546D22FFC, 0x2E1B21385C26C926, 0x4D2C6DFC5AC42AED, 0x53380D139D95B3DF,
    0x650A73548BAF63DE, 0x766A0ABB3C77B2A8, 0x81C2C92E47EDAEE6, 0x92722C851482353B]

/-- Round constants 40 to 79. -/
def shaKey1 : List Nat :=
  [0xA2BFE8A14CF10364, 0xA81A664BBC423001, 0xC24B8B70D0F89791, 0xC76C51A30654BE30,
    0xD192E819D6EF5218, 0xD69906245565A910, 0xF40E35855771202A, 0x106AA07032BBD1B8,
    0x19A4C116B8D2D0C8, 0x1E376C085141AB53, 0x2748774CDF8EEB99, 0x34B0BCB5E19B48A8,
    0x391C0CB3C5C95A63, 0x4ED8AA4AE3418ACB, 0x5B9CCA4F7763E373, 0x682E6FF3D6B2B8A3,
    0x748F82EE5DEFB2FC, 0x78A5636F43172F60, 0x84C87814A1F0AB72, 0x8CC702081A6439EC,
    0x90BEFFFA23631E28, 0xA4506CEBDE82BDE9, 0xBEF9A3F7B2C67915, 0xC67178F2E372532B,
    0xCA273ECEEA26619C, 0xD186B8C721C0C207, 0xEADA7DD6CDE0EB1E, 0xF57D4F7FEE6ED178,
    0x06F067AA72176FBA, 0x0A637DC5A2C898A6, 0x113F9804BEF90DAE, 0x1B710B35131C471B,
    0x28DB77F523047D84, 0x32CAAB7B40C72493, 0x3C9EBE0A15C9BEBC, 0x431D67C49C100D4C,
    0x4CC5D4BECB3E42B6, 0x597F299CFC657E2A, 0x5FCB6FAB3AD6FAEC, 0x6C44198C4A475817]

/-- The initial hash value of SHA-384. -/
def shaInit : List Nat :=
  [0xCBBB9D5DC1059ED8, 0x629A292A367CD507, 0x9159015A3070DD17, 0x152FECD8F70E5939,
    0x67332667FFC00B31, 0x8EB44A8768581511, 0xDB0C2E0D64F98FA7, 0x47B5481DBEFA4FA4]

/-- A number as big-endian bytes. -/
def beBytes (n v : Nat) : List Byte := (leBytes n v).reverse

/-- Big-endian bytes as a number. -/
def beNat (bs : List Byte) : Nat := bs.foldl (fun v b => v * 256 + b.toNat) 0

/-- The message padded to whole blocks of 128 bytes. -/
def shaPad (bs : List Byte) : List Byte :=
  bs ++ 0x80 :: List.replicate ((239 - bs.length % 128) % 128) 0 ++ beBytes 16 (8 * bs.length)

/-- A 64-bit word rotated right by n; words are numbers below 2^64. -/
def shaTurn (x n : Nat) : Nat :=
  Nat.lor (Nat.shiftRight x n) (Nat.land (Nat.shiftLeft x (64 - n)) 0xFFFFFFFFFFFFFFFF)

/-- The exclusive or of three words. -/
def xor3 (a b c : Nat) : Nat := Nat.xor (Nat.xor a b) c

/-- The next word of a schedule, held newest first. -/
def shaNext (w : List Nat) : Nat :=
  let a := w.getD 1 0
  let b := w.getD 14 0
  (xor3 (shaTurn a 19) (shaTurn a 61) (Nat.shiftRight a 6) + w.getD 6 0 +
    xor3 (shaTurn b 1) (shaTurn b 8) (Nat.shiftRight b 7) + w.getD 15 0) % 0x10000000000000000

/-- The schedule of a block: its 16 words, then 64 more. -/
def shaSchedule (block : List Byte) : List Nat :=
  let w := (List.range 16).map fun i => beNat ((block.drop (8 * i)).take 8)
  ((List.range 64).foldl (fun (w : List Nat) _ => shaNext w :: w) w.reverse).reverse

/-- One round over the eight working words. -/
def shaRound (z : List Nat) (k w : Nat) : List Nat :=
  match z with
  | [a, b, c, d, e, f, g, h] =>
    let t1 := h + xor3 (shaTurn e 14) (shaTurn e 18) (shaTurn e 41) +
      Nat.xor (Nat.land e f) (Nat.land (0xFFFFFFFFFFFFFFFF - e) g) + k + w
    let t2 := xor3 (shaTurn a 28) (shaTurn a 34) (shaTurn a 39) + xor3 (Nat.land a b) (Nat.land a c) (Nat.land b c)
    [(t1 + t2) % 0x10000000000000000, a, b, c, (d + t1) % 0x10000000000000000, e, f, g]
  | _ => z

/-- One block taken into the hash. -/
def shaBlock (h : List Nat) (block : List Byte) : List Nat :=
  let z := ((shaKey0 ++ shaKey1).zip (shaSchedule block)).foldl (fun h x => shaRound h x.1 x.2) h
  h.zipWith (fun a b => (a + b) % 0x10000000000000000) z

/-- SHA-384 of a byte string (17 R380). PRESUMED: log entry 10. -/
def sha384 (bs : List Byte) : List Byte :=
  let m := shaPad bs
  let h := (List.range (m.length / 128)).foldl (fun h i => shaBlock h ((m.drop (128 * i)).take 128)) shaInit
  ((h.take 6).map (beBytes 8)).flatten

/-! ## ECDSA over P-384 (FIPS 186-5) -/

/-- The prime of the field of P-384. -/
def p384Prime : Nat := 2 ^ 384 - 2 ^ 128 - 2 ^ 96 + 2 ^ 32 - 1

/-- The order of its base point. -/
def p384Order : Nat :=
  0xFFFFFFFFFFFFFFFFFFFFFFFFFFFFFFFFFFFFFFFFFFFFFFFFC7634D81F4372DDF581A0DB248B0A77AECEC196ACCC52973

/-- The coefficient b of the curve; a is -3. -/
def p384B : Nat :=
  0xB3312FA7E23EE7E4988E056BE3F82D19181D9C6EFE8141120314088F5013875AC656398D8A2ED19D2A85C8EDD3EC2AEF

/-- The base point. -/
def p384Base : Nat × Nat :=
  (0xAA87CA22BE8B05378EB1C71EF320AD746E1D3B628BA79B9859F741E082542A385502F25DBF55296C3A545E3872760AB7,
    0x3617DE4A96262C6F5D9E98BF9292DC29F8F41DBD289A147CE9DA3113B5F0B8C00A60B1CE1D7E819D7A431D7C90EA0E5F)

/-- One step of Euclid's algorithm after another: `a` and `b` are the multiples `u` and `v` of a number mod m. -/
def euclid (m : Nat) : Nat → Nat → Nat → Nat → Nat → Nat
  | 0, _, _, _, _ => 0
  | n + 1, a, b, u, v => if b = 0 then u else euclid m n b (a % b) v ((u + m - a / b * v % m) % m)

/-- The inverse mod a prime below 2^384. -/
def invMod (m x : Nat) : Nat := euclid m 600 m (x % m) 0 1

/-- A point (X / Z², Y / Z³) of the curve; with Z = 0 the point at infinity. -/
structure Point where
  x : Nat
  y : Nat
  z : Nat

/-- The point at infinity, and a point by its two coordinates. -/
def Point.zero : Point := ⟨1, 1, 0⟩
def Point.of (a : Nat × Nat) : Point := ⟨a.1, a.2, 1⟩

/-- Difference in the field. -/
def fieldSub (a b : Nat) : Nat := (a + p384Prime - b % p384Prime) % p384Prime

/-- Twice a point. -/
def Point.twice (a : Point) : Point :=
  let q := p384Prime
  let d := a.z * a.z % q
  let g := a.y * a.y % q
  let b := a.x * g % q
  let l := 3 * (fieldSub a.x d * (a.x + d)) % q
  let x := fieldSub (l * l) (8 * b)
  ⟨x, fieldSub (l * fieldSub (4 * b) x) (8 * g * g), 2 * a.y * a.z % q⟩

/-- The sum of two points. -/
def Point.add (a b : Point) : Point :=
  let q := p384Prime
  if a.z = 0 then b
  else if b.z = 0 then a
  else
    let az := a.z * a.z % q
    let bz := b.z * b.z % q
    let u := a.x * bz % q
    let s := a.y * b.z * bz % q
    let h := fieldSub (b.x * az) u
    let r := fieldSub (b.y * a.z * az) s
    if h = 0 then (if r = 0 then a.twice else Point.zero)
    else
      let hh := h * h % q
      let v := u * hh % q
      let x := fieldSub (r * r) (h * hh + 2 * v)
      ⟨x, fieldSub (r * fieldSub v x) (s * h * hh), a.z * b.z * h % q⟩

/-- A multiple of a point; k below 2^384. -/
def Point.mul (k : Nat) (a : Point) : Point :=
  (List.range 384).foldr (fun i (r : Point) => if k.testBit i then r.twice.add a else r.twice) Point.zero

/-- The point that 97 bytes spell: 0x04, then X and Y. -/
def p384Point (bs : List Byte) : Option (Nat × Nat) :=
  let x := beNat ((bs.drop 1).take 48)
  let y := beNat ((bs.drop 49).take 48)
  if bs.length = 97 ∧ bs.getD 0 0 = 4 ∧ x < p384Prime ∧ y < p384Prime ∧
      y * y % p384Prime = (x * x * x + (p384Prime - 3) * x + p384B) % p384Prime then some (x, y)
  else none

/-- Whether a signature `sr`, `ss` of the message verifies under the public key: ECDSA P-384 with SHA-384 (17 R379). -/
def ecdsaVerify (key message sr ss : List Byte) : Bool :=
  let n := p384Order
  let r := beNat sr
  let s := beNat ss
  match p384Point key with
  | none => false
  | some q =>
    if 0 < r ∧ r < n ∧ 0 < s ∧ s < n then
      let w := invMod n s
      let x := ((Point.of p384Base).mul (beNat (sha384 message) * w % n)).add ((Point.of q).mul (r * w % n))
      x.z ≠ 0 ∧ x.x * invMod p384Prime (x.z * x.z) % p384Prime % n = r
    else false

end Sys2Proof.Machine
end

