-- ==== Sys2Proof/Machine/Mgt.lean ====
section
/-! DEFINITION. The management controller (17): cores and takeover, boot, fuses, flash, sensors and the thermal trip. -/

namespace Sys2Proof.Machine

/-! ## Cores and takeover (R375 to R378) -/

/-- `STATE` of `MGT_BOOT_STATUS`: 0 VERIFYING, 1 RUNNING, 2 BOOT_FAILED. -/
def bootState (s : State) : Nat := getF s Reg.bootStatus 63 60

/-- The active core: 0 or 1. -/
def activeCore (s : State) : Nat := getF s Reg.coreStatus 63 63

/-- A core has faulted since power-on reset. -/
def coreBad (s : State) (c : Nat) : Bool := getB s Reg.coreStatus (62 - c)

/-- Hold a core in reset, or release it. -/
def holdCore (c : Nat) (h : Bool) (s : State) : State :=
  if c = 0 then { s with mgt := { s.mgt with held0 := h } } else { s with mgt := { s.mgt with held1 := h } }

/-- The active core executes. -/
def coreRuns (s : State) : Bool := bootState s == 1 && !(if activeCore s = 0 then s.mgt.held0 else s.mgt.held1)

/-- `MGT_CORE_FAULT` (R375 to R377): 1 SRAM, 2 watchdog, 3 `TAKEOVER`. -/
def coreFault (cause : Nat) (s : State) : State :=
  if !coreRuns s then s
  else
    let c := activeCore s
    let s := holdCore c true (setB (setF s Reg.coreStatus 60 58 cause) Reg.coreStatus (62 - c) true)
    let s := raiseHard 0x0E05 .mgt 0 0 { s with mgt := { s.mgt with watchdogOn := false } }
    if coreBad s (1 - c) then outOfService s else { s with mgt := { s.mgt with takeoverRunning := true } }

/-- SRAM_UNCORRECTABLE: the active core reads an uncorrectable word (R375). -/
def execSramUncorrectable (_word : Nat) (s : State) : Host.Outcome State Fault Refusal := .next (coreFault 1 s)

/-- MGT_WATCHDOG_EXPIRY (R378): it counts in the sampling clock, which stands in SLEEP and STANDBY (18 Table 18-2). -/
def execMgtWatchdogExpiry (s : State) : Host.Outcome State Fault Refusal :=
  .next (if s.mgt.watchdogOn && s.power.oscillator then coreFault 2 s else s)

/-- TAKEOVER_COMPLETE: the data region is zeroed and the other core starts at the image entry (17 Table 17-2 event 3). -/
def execTakeoverComplete (s : State) : Host.Outcome State Fault Refusal :=
  .next
    (if s.mgt.takeoverRunning then
      let c := 1 - activeCore s
      let s := { s with mgt := { s.mgt with
        sram := memZero s.mgt.sram 0x100000 0x100000, takeoverRunning := false, watchdogOn := true } }
      holdCore c false (setF s Reg.coreStatus 63 63 c)
     else s)

/-! ## Secure boot (R379 to R382) -/

/-- Flash address of a slot, and its first 512 bytes. -/
def slotBase (k : Nat) : Nat := k * 0x200000
def slotHeader (s : State) (k : Nat) : List Byte := memRead s.mgt.flash (slotBase k) 512

/-- The reserved bytes of an image header are 0, and its fields are in range (17 Table 17-4). DEDUCED: log entry 79. -/
def headerOk (h : List Byte) : Bool :=
  decide (leAt h 0 4 = 0x4B544601 ∧ leAt h 4 2 = 1 ∧ leAt h 6 1 < 4 ∧ leAt h 7 1 = 0 ∧ leAt h 8 4 < 64 ∧
    4096 ≤ leAt h 0xC 4 ∧ leAt h 0xC 4 ≤ 1048064 ∧ leAt h 0x10 4 < 0x100000) &&
  zeroRun h 0x14 12 && zeroRun h 0xB1 15 && zeroRun h 0x120 224

/-- The first failed check of a slot, as `A_FAIL` codes it; 0: valid (R380, 17 Table 17-5). -/
def slotFail (s : State) (k : Nat) : Nat :=
  let h := slotHeader s k
  let key := leAt h 6 1
  let body := memRead s.mgt.flash (slotBase k + 0x200) (leAt h 0xC 4)
  let part := fun (o n : Nat) => (h.drop o).take n
  if h.all (· == 0) then 7
  else if !headerOk h then 1
  else if bit s.mgt.fuses.revoked key then 3
  else if sha384 (part 0x50 97) ≠ s.mgt.fuses.keyHashes.getD key [] then 2
  else if leAt h 8 4 < s.mgt.fuses.svn then 4
  else if sha384 body ≠ part 0x20 48 then 5
  else if !ecdsaVerify (part 0x50 97) (h.take 0xC0) (part 0xC0 48) (part 0xF0 48) then 6
  else 0

/-- The slot that the boot record prefers; slot A if the record is invalid (R380). -/
def preferred (s : State) : Nat :=
  let b := memRead s.mgt.flash 0x400000 64
  if leAt b 0 4 = 0x4B544201 ∧ leAt b 4 1 ≤ 1 ∧ zeroRun b 5 55 ∧ crc32 (b.take 60) = leAt b 60 4 then leAt b 4 1 else 0

/-- The slot to load (R380). -/
def bootSlot (s : State) (fa fb : Nat) : Option Nat :=
  let v := fun k => leAt (slotHeader s k) 8 4
  if fa = 0 ∧ fb = 0 then some (if v 0 = v 1 then preferred s else if v 0 < v 1 then 1 else 0)
  else if fa = 0 then some 0
  else if fb = 0 then some 1
  else none

/-- Load a slot and start the lowest-numbered core that is not marked; Qormanan then brings the rails up, which after a thermal
trip stay off (R377, R380, 18 R400, 19 Table 19-2 event 5). -/
def bootLoad (k : Nat) (s : State) : State :=
  let h := slotHeader s k
  let img := memRead s.mgt.flash (slotBase k) (512 + leAt h 0xC 4)
  let s := { s with mgt := { s.mgt with sram := memWrite (memZero s.mgt.sram 0 0x100000) 0 img } }
  let s := setF (setF (setF s Reg.bootStatus 63 60 1) Reg.bootStatus 59 59 k) Reg.bootStatus 37 32 (leAt h 8 4)
  if coreBad s 0 && coreBad s 1 then outOfService s
  else
    let c := b2n (coreBad s 0)
    let s := holdCore c false (setF s Reg.coreStatus 63 63 c)
    let s := emit .avsVersionRead s
    let s := { s with mgt := { s.mgt with watchdogOn := true } }
    if s.mgt.tripped then s else railChain { s with power := { s.power with seq := .bringUp } }

/-- BOOT (R380, R381). -/
def execBoot (s : State) : Host.Outcome State Fault Refusal :=
  .next
    (if s.mgt.porLow || s.mgt.rstLow || bootState s != 0 then s
     else
      let fa := slotFail s 0
      let fb := slotFail s 1
      let b := bootSlot s fa fb
      let s := setF (setF s Reg.bootStatus 31 28 fa) Reg.bootStatus 27 24 fb
      let s := setB (setB s Reg.bootStatus 58 (fa == 0)) Reg.bootStatus 57 (fb == 0)
      match b with
      | some k => bootLoad k s
      | none => alert 0x1104 (setF s Reg.bootStatus 63 60 2))

/-- A write of `SVN_ADVANCE`: the fused version is burnt up to the running image's, never down (R382). -/
def svnAct (s : State) : State :=
  let v := getF s Reg.bootStatus 37 32
  if bootState s = 1 ∧ s.mgt.fuses.svn < v ∧ s.mgt.burning.isNone then
    { s with mgt := { s.mgt with burning := some v } }
  else s

/-- The burn ends. -/
def burnEnd (s : State) : State :=
  match s.mgt.burning with
  | some v =>
    { s with mgt := { s.mgt with burning := none, fuses := { s.mgt.fuses with svn := max s.mgt.fuses.svn v } } }
  | none => s

/-! ## Flash (R389) -/

/-- A program of 8 bytes or an erase of 4 KiB touches the slot now running. -/
def inRunningSlot (s : State) (a : Nat) : Bool := bootState s == 1 && a / 0x200000 == getF s Reg.bootStatus 59 59

/-- A write of `GO` in `MGT_FLASH_CTRL`; `OP` and `ADDR` are already written. -/
def flashGo (s : State) : State :=
  let op := getF s Reg.flashCtrl 59 58
  let a := getF s Reg.flashCtrl 22 0
  let a := if op = 1 then a / 4096 * 4096 else a / 8 * 8
  if s.mgt.flashOp.isSome then s
  else if op ≠ 2 ∧ inRunningSlot s a then alert 0x1105 (setB s Reg.flashCtrl 60 true)
  else setB { s with mgt := { s.mgt with flashOp := some (op, a, rget s Reg.flashData) } } Reg.flashCtrl 62 true

/-- The firmware data area of flash (17 Table 17-1), with the repair records in it. -/
def dataArea (flash : Mem) : Mem := flash.filter fun c => 0x401000 ≤ c.1

/-- A program or an erase has changed flash at `a`: in the firmware data area the repair records are those that it now holds (19
Table 19-2 event 6). DEDUCED: log entry 75. -/
def flashChanged (a : Nat) (flash : Mem) (s : State) : State :=
  let m := { s.mgt with flash := flash }
  { s with mgt := if a < 0x401000 then m else { m with
      records := Config.condemnedIn (dataArea flash), rowRepairs := Config.rowRepairsIn (dataArea flash)
      repairs := (Config.repairsIn (dataArea flash)).foldl
        (fun r c => if recorded c.1 then cellSet regReset r c.1 c.2 else r) [] } }

/-- The flash operation ends: 8 bytes programmed or read with `ADDR` advanced by 8, or a sector erased. -/
def flashEnd (s : State) : State :=
  match s.mgt.flashOp with
  | none => s
  | some (op, a, d) =>
    let s := { s with mgt := { s.mgt with flashOp := none } }
    let s := if op = 0 then flashChanged a (memWrite s.mgt.flash a (leBytes 8 d.toNat)) s
      else if op = 1 then flashChanged a (memZero s.mgt.flash a 4096) s
      else rset s Reg.flashData (BitVec.ofNat 64 (memNat s.mgt.flash a 8))
    let s := if op = 1 then s else incMod s Reg.flashCtrl 22 0 8
    setB (setB s Reg.flashCtrl 62 false) Reg.flashCtrl 61 true

/-! ## Sensors and the trip (R383, R384) -/

/-- A temperature as a register shows it. -/
def tempOf (t : Int) : Nat := (max 0 (min 255 t)).toNat

/-- Sensors, by number, at or above a level. -/
def atLevel (lv : Nat) (ts : List Int) : List Nat :=
  (List.range ts.length).filter fun i => decide (lv ≤ tempOf (ts.getD i 0))

/-- Drop what waits for a running step, without a card. -/
def dropSteps (s : State) : State :=
  { freeSlot s with next := none, cards := s.cards.filter fun c => !c.frees,
                    step := { s.step with active := false, aborted := s.step.aborted || s.step.active } }

/-- Stage 2 (R384, R400): the Underpasses close, the core, PHY and HBM rails go, HBM loses its contents, and the device is
lost without a card. -/
def thermalTrip (s : State) : State :=
  let s := setB s Reg.thermal 62 true
  let s := closeAll 1 { s with mgt := { s.mgt with tripped := true, tripLand := true } }
  let s := emit (.land "THERM_TRIP_N" false) s
  let s := dropWrites (disable1 .vhbm (disable1 .vsram (disable1 .vcore (disable1 .vphy s))))
  let s := setSeq .none (setHeld none s)
  let s := deviceLoss 0x1103 .mgt 0 0 (dropSteps s)
  gatePhys false (gateDistricts false { s with hbm := [], chk := [], sp := [], spFix := [], acc := [], ksteps := [] })

/-- Stage 1 (R384): the hardware lowers the core rail, by 1 mV or more as the manual leaves open, until every sensor reads
below `STAGE1_C` - 5. DESIGN CHOICE: log entry 80. -/
def stage1 (temps : List Int) (start : Bool) (s : State) : State :=
  let on := getB s Reg.thermal 63
  let hottest := temps.foldl (fun m t => max m (tempOf t)) 0
  let s := if start && !on then alert 0x1102 (setInt .mgt 0 9 (setB s Reg.thermal 63 true)) else s
  if (start || on) && decide (s.mgt.fuses.stage1 ≤ hottest + 5) then
    let f := takeFree s
    let v := heldCore f.2
    if f.2.power.en.contains .vcore then lowerCore (if 650 < v then v - 1 - f.1.toNat % (v - 650) else v) f.2 else f.2
  else setB s Reg.thermal 63 false

/-- `THERMAL_WARN` at a rise through `WARN_C`, which acts as at most `STAGE1_C` (R384). -/
def thermalWarn (hottest : Nat) (s : State) : State :=
  let hot := decide (min (getF s Reg.thermal 47 40) s.mgt.fuses.stage1 ≤ hottest)
  let s' := { s with mgt := { s.mgt with warned := hot } }
  if hot && !s.mgt.warned then alert 0x1101 (setInt .mgt 0 9 s') else s'

/-- Show a sample: `MGT_DIE_TEMP`, `HOTTEST`, `HBS_TEMP` with `HOT` above 85 °C (R383, 11 R230). -/
def showTemps (die stack : List Int) (s : State) : State :=
  let t := fun i => tempOf (die.getD i 0)
  let top := (List.range 16).foldl (fun m i => if t m < t i then i else m) 0
  let s := (List.range 16).foldl (fun s i => setF s (Reg.dieTemp (i / 4)) (16 * (i % 4) + 7) (16 * (i % 4)) (t i)) s
  let s := setF (setF s Reg.thermal 23 16 (t top)) Reg.thermal 11 8 top
  (List.range 6).foldl (fun s i =>
    let u := tempOf (stack.getD i 0)
    setB (setF s (Reg.hbsTemp i) 7 0 u) (Reg.hbsTemp i) 8 (decide (85 < u))) s

/-- SENSOR_SAMPLE (R383, R384). -/
def execSensorSample (die stack : List Int) (s : State) : Host.Outcome State Fault Refusal :=
  .next
    (if !s.power.oscillator || pwrState s == 3 then s
     else
      let h1 := atLevel s.mgt.fuses.stage1 die
      let h2 := atLevel s.mgt.fuses.stage2 die
      let hs := atLevel 105 stack
      let both := fun (old new : List Nat) => new.any old.contains
      let st1 := both s.mgt.hot1 h1
      let st2 := both s.mgt.hot2 h2 || both s.mgt.hotStacks hs
      let s := showTemps die stack { s with mgt := { s.mgt with hot1 := h1, hot2 := h2, hotStacks := hs } }
      let s := thermalWarn (die.foldl (fun m t => max m (tempOf t)) 0) s
      if s.mgt.tripped then s
      else if st2 then thermalTrip s
      else stage1 die st1 s)

end Sys2Proof.Machine
end

