-- ==== Sys2Proof/Machine/Locker.lean ====
section
/-! DEFINITION. Lockers and restarts (14 R323 to R336): securing passes and their interval, the holder's side, aborts, spares
and the restart. -/

namespace Sys2Proof.Machine

/-! ## The secured set (R324) -/

/-- Region table entries that `GLB_SECURE_MAP0` to `3` mark, in increasing order. -/
def marked (s : State) : List Nat := (List.range 256).filter fun k => getB s (Reg.secureMap (k / 64)) (k % 64)

/-- The marked regions that are valid. -/
def securedRegions (s : State) : List Region := (marked s).filterMap (region? s)

/-- `GLB_LOCKER_CFG`. -/
def secureEn (s : State) : Bool := getB s Reg.lockerCfg 63
def holdEn (s : State) : Bool := getB s Reg.lockerCfg 62
/-- The LCK region that the device holds. -/
def holdRegion (s : State) : Option Region :=
  match region? s (getF s Reg.lockerCfg 15 8) with
  | some r => if r.cls = 6 then some r else none
  | none => none

/-- C of the Locker at the holder: 5/6 of the LCK region there, which is one or more units of 3 MiB (11 R237); its size is a free
value, since the manual gives the owner no way to learn it. DESIGN CHOICE: log entry 77. -/
def lockerC (s : State) : Nat := max 1 (Config.heldUnits (rget s (Reg.peerId 1))) * 2621440

/-- `BYTES` of a generation (R324). -/
def genBytes (s : State) : Nat := (securedRegions s).foldl (fun n r => n + r.size) (4096 + 524288)

/-- One directory entry (14 Table 14-3). -/
def dirEntry (r : Region) : Nat := r.idx + r.cls * 2 ^ 8 + r.size / 2 ^ 20 * 2 ^ 16

/-- CORE instances that are enabled and mapped. -/
def mappedCores (s : State) : Nat :=
  ((List.range 136).filter fun i => getB s (Reg.blkCtrl .core i) 63 && getB s (Reg.blkCtrl .core i) 40).length

/-- The device's compute profile, as header byte `PROFILE_CORE` codes it; 4: none. -/
def coreProfile (s : State) : Nat := ([0, 1, 2, 3].find? fun k => 4 * coresPer k == mappedCores s).getD 4

/-- The channel profile in force. -/
def hbmProfile (s : State) : Nat := getF s Reg.hbmCfg 19 16

/-- The directory of a generation (14 R324). -/
def dirNow (s : State) : List Nat := (securedRegions s).map dirEntry

/-- The header of generation `g` (14 Table 14-3): its step and updates are those that the pass began with (R325, R41). -/
def genHeader (s : State) (g state : Nat) : List Byte :=
  let rs := securedRegions s
  let dir := (rs.map fun r => leBytes 8 (dirEntry r)).flatten
  let h := leBytes 4 0x4B544C01 ++ leBytes 2 1 ++ leBytes 1 state ++ leBytes 1 g ++ leBytes 8 (ownIdentity s).toNat ++
    leBytes 4 s.locker.passStep ++ leBytes 2 rs.length ++ leBytes 1 (coreProfile s) ++ leBytes 1 (hbmProfile s) ++
    leBytes 8 s.locker.passUpdates.toNat ++ leBytes 8 s.job.seed.toNat ++ leBytes 8 (genBytes s) ++
    List.replicate 16 0 ++ dir ++ List.replicate (2048 - dir.length) 0 ++ List.replicate 1980 0
  h ++ leBytes 4 (crc32 h)

/-! ## Secured traffic (R323) -/

/-- Queue one SEC access to the holder: by port 1 to the up neighbour. -/
def secSend (op off len : Nat) (data : List Byte) (s : State) : State :=
  let g := ringAt s 0
  let h : Head := { dst := posUp s 0, op := op, xfer := g.nextXfer, length := len, step := getF s Reg.jobStatus 31 0,
                    offset := off }
  let t : Transfer := { port := 1, first := firstFlit 2 2 {} (headPayload s 0 h), data := data, xfer := some g.nextXfer }
  let x : Xfer := { id := g.nextXfer, op := op, window := secView, key := off, length := len, stream := 0xFFFF, idx := 0 }
  setRing 0 { g with nextXfer := g.nextXfer + 1, xfers := g.xfers ++ [x], sendq := g.sendq ++ [t] } s

/-- Write a byte run to the holder, in transfers of at most 15,360 bytes. -/
def secWrite (off : Nat) (bs : List Byte) (s : State) : State :=
  (List.range (ceilDiv bs.length 15360)).foldl (fun s i =>
    let c := (bs.drop (15360 * i)).take 15360
    secSend 0 (off + 15360 * i) c.length c s) s

/-- Read a byte run from the holder. -/
def secRead (off n : Nat) (s : State) : State :=
  (List.range (ceilDiv n 15360)).foldl (fun s i =>
    secSend 1 (off + 15360 * i) (min 15360 (n - 15360 * i)) [] s) s

/-- Unanswered SEC accesses. -/
def secOpen (s : State) : Bool := (ringAt s 0).xfers.any fun x => x.window == secView

/-! ## Securing passes (R325 to R327, R334) -/

def passActive (s : State) : Bool := getB s Reg.lockerState 61
def passGen (s : State) : Nat := getF s Reg.lockerState 60 60
def genComplete (s : State) (g : Nat) : Bool := getB s Reg.lockerState (63 - g)
def genStep (s : State) (g : Nat) : Nat := getF s Reg.lockerSteps (32 * g + 31) (32 * g)

/-- `LOCKER` of the GLB page (20 Table 20-9). -/
def lockerInt (s : State) : State := setInt .glb 0 10 s

/-- The target of a pass: the generation that does not hold the newest complete `STEP`; a forced one the incomplete
generation (R325, R327). -/
def passTarget (s : State) : Nat :=
  if genComplete s 0 && genComplete s 1 then (if genStep s 0 ≤ genStep s 1 then 0 else 1)
  else if genComplete s 0 then 1 else 0

/-- Start a pass: it is of the step whose Bell has just ended, and its first write, one stripe, sets the target header's `STATE`
to 0 (R325 item 3, 11 R247). DEDUCED: log entry 116. -/
def passStart (s : State) : State :=
  if lockerC s / 2 < genBytes s then lockerInt (setB s Reg.lockerState 57 true)
  else
    let g := passTarget s
    let s := setB (setF (setB s Reg.lockerState 61 true) Reg.lockerState 60 60 g) Reg.lockerState (63 - g) false
    let s := { s with locker := { s.locker with
      forced := false, readDone := false, passStep := getF s Reg.jobStatus 31 0, passUpdates := rget s Reg.updateCount } }
    secWrite (g * (lockerC s / 2)) ((genHeader s g 0).take 1280) s

/-- Whether a pass starts at this Bell (R325 item 1). -/
def passDue (s : State) : Bool :=
  secureEn s && !passActive s && decide (2 ≤ ringLen s 0) &&
  (s.locker.forced || decide (getF s Reg.secureStatus 31 16 ≤
      (getF s Reg.jobStatus 31 0 + 2 ^ 32 - getF s Reg.lockerState 31 0) % 2 ^ 32))

/-- One reckoning of the interval (R334). -/
def intervalStep (s : State) : State :=
  let rate := (rget s Reg.frate).toNat
  let pol := Reg.securePolicy
  let floor := max 1 (getF s pol 47 32)
  let ceil := getF s pol 63 48
  let want := if rate = 0 then 65535 else min 65535 (isqrt (getF s pol 15 0 * 2 ^ 25 / rate))
  let a := Reg.secureStatus
  let s := setF (setF s a 47 32 want) a 31 16 (min ceil (max floor want))
  let s := setB (setB s a 62 (decide (want < floor))) a 61 (decide (ceil < want))
  if want < floor ∨ ceil < want then setInt .mgt 0 11 (setB s a 63 true) else s

/-- What the estimator does at a Bell drain complete, and the start of a pass (R334, R325). -/
def bellSecuring (s : State) : State :=
  let rate := (rget s Reg.frate).toNat
  let s := rset s Reg.frate (BitVec.ofNat 64 (rate - rate / 2 ^ getF s Reg.securePolicy 23 16))
  let s := intervalStep s
  if passDue s then passStart s else s

/-- The content of the secured regions in directory order, read under their class rules; only the loss of a channel is
raised. -/
def securedData : List Region → State → List Byte × State
  | [], s => ([], s)
  | r :: rs, s =>
    let x := hbmRead s [] Reader.traffic r.base r.size
    let y := securedData rs (settleTraffic x.evs x.s)
    (x.data ++ y.1, y.2)

/-- The bytes of regions. -/
def regionSpans (rs : List Region) : List (Nat × Nat) := rs.map fun r => (r.base, r.size)

/-- The scale records in slot order (R324). -/
def genScales (s : State) : List Byte :=
  ((List.range 4096).map fun i => scaleBytes (cellGet noScale s.census.scale i)).flatten

/-- Bytes completed to whole stripes with 0x00 (11 R247). -/
def wholeStripes (bs : List Byte) : List Byte :=
  bs ++ List.replicate (ceilDiv bs.length 1280 * 1280 - bs.length) 0

/-- SECURING_READ_COMPLETE: the pass has read all its state; pass 0x7F02 is posted (R17, R325 items 4 and 5). Every write is of
whole stripes: the set goes from the stripe that holds its first byte, and the header as the first four stripes (11 R247).
DEDUCED: log entry 147. -/
def execSecuringReadComplete (s : State) : Host.Outcome State Fault Refusal :=
  .next
    (if passActive s && !s.locker.readDone then
      let g := passGen s
      let base := g * (lockerC s / 2)
      let x := securedData (securedRegions s) s
      awaitClock (regionSpans (securedRegions s)) s <|
      let s' := secWrite (base + 3840) (wholeStripes ((genHeader s g 0).drop 3840 ++ genScales s ++ x.1)) x.2
      let s' := secWrite base (genHeader s g 1 ++ (genScales s).take 1024) s'
      let s' := { s' with locker := { s'.locker with readDone := true } }
      if s'.step.active then postSys 0x7F02 s' else s'
     else s)

/-- A pass ends (20 Table 20-9 `LOCKER`). -/
def passEnd (s : State) : State :=
  lockerInt { setB s Reg.lockerState 61 false with locker := { s.locker with readDone := false } }

/-- SECURING_PASS_COMPLETE: the holder has answered the complete header (R325 item 5). -/
def execSecuringPassComplete (s : State) : Host.Outcome State Fault Refusal :=
  .next
    (if passActive s && s.locker.readDone && !secOpen s then
      let g := passGen s
      let st := s.locker.passStep
      let s := { s with locker := if g = 0 then { s.locker with dir0 := dirNow s } else { s.locker with dir1 := dirNow s } }
      let s := setF (setB s Reg.lockerState (63 - g) true) Reg.lockerSteps (32 * g + 31) (32 * g) st
      passEnd (setF s Reg.lockerState 31 0 st)
     else s)

/-- A write of `FORCE` (R327). -/
def forceAct (s : State) : State := { s with locker := { s.locker with forced := true } }

/-- HOLDER_REPORT: the holder has found generation `g` damaged (R327, 11 R248). -/
def execHolderReport (g : Nat) (s : State) : Host.Outcome State Fault Refusal :=
  .next (alert 0x0B06 (lockerInt (forceAct (setB (setB s Reg.lockerState 58 true) Reg.lockerState (63 - g) false))))

/-! ## At the holder (R323) -/

/-- Answer a SEC access by port 0. -/
def secAnswer (f : Flit) (status : Nat) (data : List Byte) (s : State) : State :=
  let pl := respPayload s 0 (plSrc f.payload) status (leAt f.payload 6 1) (leAt f.payload 8 2) 0 (leAt f.payload 0xC 2)
    data.length
  queueTransfer 0 { port := 0, first := firstFlit 4 2 {} pl, data := data } s

/-- The held region, if the access lies in its data space. -/
def heldRange (s : State) (off n : Nat) : Option Region :=
  if holdEn s then
    match holdRegion s with
    | some r => if off + n ≤ lckCapacity r then some r else none
    | none => none
  else none

/-- The stripes that a SEC access of the holder's neighbour reaches, with header and range in order (R323, 11 R247). -/
def lockerReach (s : State) (f : Flit) (n : Nat) : List (Nat × Nat) :=
  let off := leAt f.payload 0x18 8
  match heldRange s off n with
  | some r =>
    if ringHdrOk s 0 f && decide (0 < n) then
      [(r.base + off / 1280 * 1536, ((off + n - 1) / 1280 + 1 - off / 1280) * 1536)]
    else []
  | none => []

/-- LOCKER_WRITE_ARRIVAL: a SEC write of the down neighbour (R323, 11 R247). -/
def execLockerWriteArrival (s : State) : Host.Outcome State Fault Refusal :=
  .next
    (match frontMine s 0 2 2 with
     | some (f, ds, rest) =>
       if leAt f.payload 6 1 ≠ 0 then s
       else
         let bs := joinData f ds
         let off := leAt f.payload 0x18 8
         awaitClock (lockerReach s f bs.length) s <|
         let s := consume 0 2 (1 + ds.length) rest s
         if !ringHdrOk s 0 f then ringMismatch 0 (plSrc f.payload) s
         else match heldRange s off bs.length with
           | some r => secAnswer f 0 [] (lckWrite s r.base off bs)
           | none => secAnswer f 3 [] s
     | none => s)

/-- LOCKER_READ_ARRIVAL: a SEC read of the down neighbour, with stripes repaired as needed (R323, 11 R248). -/
def execLockerReadArrival (ph : List Phys) (s : State) : Host.Outcome State Fault Refusal :=
  .next
    (match frontMine s 0 2 2 with
     | some (f, ds, rest) =>
       if leAt f.payload 6 1 ≠ 1 then s
       else
         let off := leAt f.payload 0x18 8
         let len := leAt f.payload 0x10 4
         let lost := poisoned ph .nlp 0 false
         awaitClock (if lost then [] else lockerReach s f len) s <|
         let s := trafficPhys none ph (consume 0 2 (1 + ds.length) rest s)
         if lost then s
         else if !ringHdrOk s 0 f then ringMismatch 0 (plSrc f.payload) s
         else match heldRange s off len with
           | some r =>
             let x := lckRead s ph r.base off len
             let s := settleTraffic x.evs x.s
             if x.bad then secAnswer f 5 (List.replicate len 0) s else secAnswer f 0 x.data s
           | none => secAnswer f 3 [] s
     | none => s)

/-! ## Abort (R328, R332) -/

/-- A write of `ABORT` (R328); `card`: a running step ends with its card. DEDUCED: log entry 21. -/
def abortAct (card : Bool) (s : State) : State :=
  if jobActive s then
    let clean := !s.step.updateWrote
    setPhase 1 (setB (abortJob card (secDrop s)) Reg.restartStatus 59 clean)
  else if phase s ≠ 0 then
    setPhase 1 (dropRefill s)
  else s

/-! ## Spares (R329, 14 Table 14-4) -/

/-- The run of instances that spare each other: a core's or an engine's district, or all banks. -/
def spareRun (t : Blk) (i : Nat) : Nat × Nat :=
  match t with
  | .core => (i / 34 * 34, 34)
  | .jnc => (i / 9 * 9, 9)
  | _ => (0, 33)

/-- Lose a core, an engine or a bank: a free live instance of its run takes its logical unit; with none left `UNIT_LOST` is
recorded, and the device takes the profile after the one in force, or goes out of service (R329, R336).
DEDUCED: log entry 124. -/
def loseUnit (t : Blk) (i : Nat) (s : State) : State :=
  let a := Reg.blkCtrl t i
  let on := getB s a 63 && getB s a 40
  let l := getF s a 39 32
  let k := coreProfile s
  let s := putMapOf t i none (setB s (Reg.blkStatus t i) 63 true)
  let run := spareRun t i
  if !on then s
  else match (live s t run.1 run.2).find? (fun j => !getB s (Reg.blkCtrl t j) 40) with
    | some j => putMapOf t j (some l) s
    | none =>
      let r := plainRec 0x0E04 4 t i 0xFFFF 0 (stepNo s) 0
      let s := glbRecord r (pageRecord t r s)
      if t = .hpb then outOfService s else applyMaps (k + 1) s

/-- Times a unit has raised a fault of its own in the job. -/
def faultTimes (s : State) (x : Nat × Nat × Nat) : Nat := (s.unitFaults.filter (· == x)).length

/-- A cell that has faulted twice: its array's spare row, else its spare column, else the core is lost (04 R99). -/
def repairCell (core sub : Nat) (s : State) : State :=
  let arr := sub / 4096
  let row := sub % 4096 / 64
  let col := sub % 64
  let a := Reg.arraySub core
  if !getB s a (16 * arr + 15) then setF (setB s a (16 * arr + 15) true) a (16 * arr + 13) (16 * arr + 8) row
  else if !getB s a (16 * arr + 7) then setF (setB s a (16 * arr + 7) true) a (16 * arr + 5) (16 * arr) col
  else loseUnit .core core s

/-- A scratchpad bank that has faulted twice: the spare bank, else the core is lost (10 R225). -/
def repairBank (core bank : Nat) (s : State) : State :=
  if !getB s (Reg.spSub core) 63 then setF (setB s (Reg.spSub core) 63 true) (Reg.spSub core) 3 0 bank
  else loseUnit .core core s

/-- A ring without a working pair or engine: its Underpass closes, and the device takes the device-loss path on that ring, with
a record of class 5; its other rings stay in service (R329). DEDUCED: log entry 125. -/
def ringLoss (k code : Nat) (t : Blk) (i : Nat) (s : State) : State :=
  let r := plainRec code 5 t i 0xFFFF 0 (stepNo s) 0
  glbRecord r (pageRecord t r (closePair k 2 s))

/-- What Qormanan does for one unit whose faults condemn it; handled faults are struck off. -/
def repairUnit (x : Nat × Nat × Nat) (s : State) : State :=
  let twice := decide (2 ≤ faultTimes s x)
  let done := { s with unitFaults := s.unitFaults.filter (· != x) }
  let ty := x.1
  if ty = 2 then
    (if !twice then s else if 0x10000 ≤ x.2.2 then repairBank x.2.1 (x.2.2 - 0x10000) done else repairCell x.2.1 x.2.2 done)
  else if ty = 9 then loseUnit .hpb x.2.1 done
  else if ty = 7 then (if getB s (Reg.linkStatus x.2.1) 56 then ringLoss (x.2.1 / 2) 0x0C05 .nlp x.2.1 done else s)
  else if ty = 8 then (if twice then ringLoss x.2.1 0x0E04 .rng x.2.1 done else s)
  else if ty = 4 ∨ ty = 13 then (if twice then outOfService done else s)
  else s

/-- A lost mapped pseudo-channel: a spare of its stack, else the next channel profile at event 7, else out of service
(R329, 11 R252, R253). -/
def repairChannel (i : Nat) (s : State) : State :=
  if getB s (Reg.hbcState i) 62 && getB s (Reg.hbcState i) 63 then
    let x := spareChannel i s
    if x.2 then x.1
    else match bestProfile s (hbmProfile s + 1) with
      | some q => { s with locker := { s.locker with stepTo := some q } }
      | none => outOfService s
  else s

/-- SUBSTITUTION_COMPLETE: `PHASE` is SUBSTITUTING while spares replace every condemned unit, then READY, unless the device
went out of service over it; each row that logged an uncorrectable error gets a soft post-package repair (R328, R329, 11 Table
11-2). DEDUCED: log entry 74. DEDUCED: log entry 135. DESIGN CHOICE: log entry 172. -/
def execSubstitutionComplete (engines : List Nat) (s : State) : Host.Outcome State Fault Refusal :=
  .next
    (if jobState s = 4 ∧ phase s = 1 then
      let s0 := setPhase 2 s
      let s := s0
      let s := s.unitFaults.eraseDups.foldl (fun s x => repairUnit x s) s
      let s := engines.foldl (fun s i => loseUnit .jnc i s) s
      let s := { s with mgt := { s.mgt with rowRepairs := (s.ueGroups ++ s.mgt.rowRepairs).eraseDups } }
      let s := (List.range 384).foldl (fun s i => repairChannel i s) s
      let s := noteRepairs s0 s
      if phase s = 2 then setPhase 3 s else s
     else s)

/-! ## Restart (R330 to R333) -/

/-- R71: two consecutive restarts have ended with the same watchdog-class record. -/
def stalledTwice (s : State) : Bool :=
  match s.job.stalls.reverse with
  | a :: b :: _ => a == b
  | _ => false

/-- The complete generation of `GEN_STEP`. -/
def wantedGen (s : State) : Option Nat :=
  [0, 1].find? fun g => genComplete s g && genStep s g == getF s Reg.restartCtrl 31 0

/-- The directory that generation `g` was written with. -/
def genDir (s : State) (g : Nat) : List Nat := if g = 0 then s.locker.dir0 else s.locker.dir1

/-- Bytes of a generation with a directory. -/
def genSize (d : List Nat) : Nat := 528384 + (d.map fun e => e / 2 ^ 16 % 2 ^ 20 * 2 ^ 20).sum

/-- A directory entry's region, at its present address; the entry's size and class match the region table (R330). -/
def dirRegion (s : State) (e : Nat) : Option Region :=
  (region? s (e % 256)).filter fun r => r.cls == e / 2 ^ 8 % 16 && r.size / 2 ^ 20 == e / 2 ^ 16 % 2 ^ 20

/-- A directory's sizes and classes match the region table (R330). -/
def dirFits (s : State) (d : List Nat) : Bool := d.all fun e => (dirRegion s e).isSome

/-- The directory of generation `g` matches the region table (R330). -/
def dirMatches (s : State) (g : Nat) : Bool := dirFits s (genDir s g)

/-- Queue the reads of a generation, in full as its directory gives it. -/
def refillStart (g : Nat) (s : State) : State :=
  secRead (g * (lockerC s / 2)) (genSize (genDir s g)) { s with locker := { s.locker with image := [], broken := false } }

/-- An accepted restart: `RESTARTS`, the estimator, run counters, and a forced pass if it has changed the holder, or its profile
(R327, R330, R334, 06 R141). A restart from live state makes no access to the holder, and whether the holder steps its profile
in it is free. DEDUCED: log entry 78. DESIGN CHOICE: log entry 129. -/
def restartNote (live : Bool) (s : State) : State :=
  let s := incSat s Reg.restartStatus 31 16 1
  let s := rset s Reg.frate (rget s Reg.frate + BitVec.ofNat 64 (2 ^ 32 / 2 ^ getF s Reg.securePolicy 23 16))
  let now := rget s (Reg.peerId 1)
  let moved := match s.locker.holder with
    | some o => o != now
    | none => false
  let x := takeFree s
  let steps := live && x.1.getLsbD 0
  { x.2 with census := { s.census with runs := [], alerted := [] },
             locker := { s.locker with holder := some now, forced := s.locker.forced || moved || steps } }

/-- An accepted restart of a device that must step its channel profile: where every device of ring A must, no Locker can be
returned and the restart fails (R331); whether the others must is free. DESIGN CHOICE: log entry 131. -/
def restartStep (live : Bool) (s : State) : State :=
  let x := takeFree (setPhase 4 (restartNote live s))
  if !live && x.1.getLsbD 0 then failRestart 0x0E02 x.2 else x.2

/-- A write of `RESTART` (R330); `FROM_LIVE` and `GEN_STEP` are already written. It is accepted in `PHASE` READY, and goes on in
`PHASE` RECONFIGURE (14 Table 14-5 event 8); in any other phase it fails, with a code that no rule gives, and with `PHASE` no longer
NONE the device goes to RUN (18 R394). A generation must be complete, of the wanted step, and of the present region table; a restart from live state needs none.
DESIGN CHOICE: log entry 126. DEDUCED: log entry 127. DEDUCED: log entry 166. -/
def restartAct (s : State) : State :=
  let live := getB s Reg.restartCtrl 61
  let go := phase s == 5
  if phase s ≠ 3 ∧ !go then
    let x := takeFree (if phase s = 0 then wakeUp .qormanan s else s)
    failRestart (x.1.toNat % 2 ^ 16) x.2
  else if !go && stalledTwice s then failRestart 0x0305 (setF s Reg.jobStatus 47 32 0x0305)
  else if live then
    (if go then setPhase 7 s
     else if s.locker.stepTo.isSome then restartStep true s else setPhase 7 (restartNote true s))
  else match wantedGen s with
    | none => failRestart 0x0E02 s
    | some g =>
      if !dirMatches s g then failRestart 0x0110 s
      else if go then setPhase 6 (refillStart g s)
      else if s.locker.stepTo.isSome then restartStep false s
      else refillStart g (setPhase 4 (restartNote false s))

/-- The map of a stack as its registers hold it, if it can serve `k` channels: distinct pseudo-channels that are not lost (11
R233). -/
def keptMap (s : State) (st k : Nat) : Option (List Nat) :=
  let m := (List.range k).map (chmapEntry s st)
  if m.eraseDups.length = k && m.all fun c => !channelLost s st c then some m else none

/-- The maps of a channel profile (11 R233, R253); at bring-up (`boot`) a map that the repair records have restored stays where it
fits (19 R422). DEDUCED: log entry 75. -/
def putChannels (boot : Bool) (q : Nat) (s : State) : State :=
  let s := setProfile q s
  let k := profileN q / 6
  let s := (List.range 6).foldl (fun s st =>
    putMap st (((if boot then keptMap s st k else none)).getD (freshMap s st k)) s) s
  let s := showMaps s
  (List.range 384).foldl (fun s i => setB s (Reg.blkCtrl .hbc i) 63 (getB s (Reg.hbcState i) 63)) s

/-- LOCKER_RETURNED: the held Locker has gone back; a device that steps its channel profile does so now (14 Table 14-5 event
7, R331). -/
def execLockerReturned (s : State) : Host.Outcome State Fault Refusal :=
  .next
    (if phase s = 4 then
      match s.locker.stepTo with
      | some q => setPhase 5 (noteRepairs s (putChannels false q { s with locker := { s.locker with stepTo := none } }))
      | none => setPhase 6 s
     else s)

/-- The directory of the refilled image (14 Table 14-3). -/
def imageDir (s : State) : List Nat :=
  (List.range (memNat s.locker.image 0x14 2)).map fun i => memNat s.locker.image (0x40 + 8 * i) 8

/-- The regions that the refilled image holds, in its order. -/
def imageRegions (s : State) : List Region := (imageDir s).filterMap (dirRegion s)

/-- The header and directory of the refilled image: 0 good, else the code of the failure (R330). -/
def imageCheck (s : State) : Nat :=
  let h := memRead s.locker.image 0 4096
  if s.locker.broken ∨ leAt h 0 4 ≠ 0x4B544C01 ∨ leAt h 4 2 ≠ 1 ∨ leAt h 6 1 ≠ 1 ∨ leAt h 8 8 ≠ (ownIdentity s).toNat ∨
      leAt h 0x10 4 ≠ getF s Reg.restartCtrl 31 0 ∨ crc32 (h.take 0xFFC) ≠ leAt h 0xFFC 4 then 0x0E02
  else if 256 < (imageDir s).length ∨ !dirFits s (imageDir s) then 0x0110
  else 0

/-- Write the refilled state: regions by offset, scale records, `GLB_UPDATE_COUNT` and the seed (14 Table 14-5 event 9). The
records also go to the scale table, from which the next START's validation takes them (R43, 06 R126).
DEDUCED: log entry 128. -/
def imageWrite (s : State) : State :=
  let im := s.locker.image
  let x := (imageRegions s).foldl (fun (acc : Nat × State) r =>
    let y := hbmWrite acc.2 [] Reader.traffic r.base (memRead im acc.1 r.size)
    (acc.1 + r.size, settleTraffic y.evs y.s)) (0x81000, s)
  let s := x.2
  let scale := (List.range 4096).foldl (fun m i =>
    cellSet noScale m i ((parseScale (memRead im (4096 + 128 * i) 128)).getD {})) s.census.scale
  let s := scaleWriteback { s with census := { s.census with scale := scale } }
  rset (rset s Reg.updateCount (BitVec.ofNat 64 (memNat im 0x18 8))) Reg.jobSeed (BitVec.ofNat 64 (memNat im 0x20 8))

/-- REFILLED: the holder has answered the whole generation (R330, 14 Table 14-5 event 9). -/
def execRefilled (s : State) : Host.Outcome State Fault Refusal :=
  .next
    (if phase s = 6 ∧ !secOpen s then
      let c := imageCheck s
      if c = 0 then
        awaitClock (regionSpans (imageRegions s)) s (setPhase 7 { imageWrite s with locker := { s.locker with image := [] } })
      else failRestart c s
     else s)

end Sys2Proof.Machine
end

