-- ==== Sys2Proof/Machine/Routing.lean ====
section
/-! DEFINITION. Experts, routing and ragged shapes (08): `ROUTE`, `DISPATCH`, the two forms of `COMBINE`, and the five forms
of `GROUPED`. -/

namespace Sys2Proof.Machine

/-! ## Tables as bytes -/

/-- Write a tensor of raw bytes, in linear byte order; nothing is reported. -/
def putTable (c : Ctx) (d : Desc) (bs : List Byte) (r : Run) : Run :=
  storeRows c (entryTag c r.s) d ((List.range d.rows).map fun i =>
    unpackCodes (widthOf d.fmt) (d.dim 0) ((bs.drop (i * d.rowBytes)).take d.rowBytes)) r

/-- Elements of a tensor in position order. -/
def loadFlat (c : Ctx) (d : Desc) (r : Run) : List Nat × Run :=
  let x := loadRows c d r
  (x.1.flatten, x.2)

/-! ## ROUTE (R175 to R178) -/

/-- A score comes before another in key order: larger first, NaN last. -/
def scoreBefore (a b : Val) : Bool :=
  if a = .nan then false else if b = .nan then true else Val.lt b a

/-- The first expert in key order that is not yet chosen. -/
def bestExpert (row : List Val) (chosen : List Nat) : Option Nat :=
  (row.zipIdx.filter fun x => !chosen.contains x.2).foldl (fun best x => match best with
    | none => some x
    | some y => if scoreBefore x.1 y.1 then some x else some y) none |>.map (·.2)

/-- The first k experts in key order. -/
def chooseExperts : Nat → List Val → List Nat → List Nat
  | 0, _, chosen => chosen
  | n + 1, row, chosen =>
    match bestExpert row chosen with
    | some e => chooseExperts n row (chosen ++ [e])
    | none => chosen

/-- A route table choice entry (Table 08-2). -/
def choiceBytes (expert slot : Nat) (w : F32) : List Byte := leBytes 2 expert ++ leBytes 2 slot ++ leBytes 4 w.toNat

/-- No choice. -/
def noChoice : List Byte := choiceBytes 0xFFFF 0xFFFF 0

/-- One token's choices: the loads, and its row of the table (R176). -/
def routeToken (cap k : Nat) (renorm : Bool) (row : List Val) (load : List (Nat × Nat)) :
    List (Nat × Nat) × List Byte :=
  let chosen := chooseExperts k row []
  let score := fun e => row.getD e Val.zero
  let sum := match chosen with
    | [] => Val.zero
    | e :: t => t.foldl (fun a e => rAdd a (score e)) (score e)
  let x := chosen.foldl (fun (a : List (Nat × Nat) × List Byte) e =>
    let l := a.1.getD e (0, 0)
    let w := toF32 (if renorm then rDiv (score e) sum else score e)
    if l.1 < cap then (a.1.set e (l.1 + 1, l.2), a.2 ++ choiceBytes e l.1 w)
    else (a.1.set e (l.1, l.2 + 1), a.2 ++ choiceBytes e 0xFFFF w)) (load, [])
  (x.1, x.2 ++ (List.replicate (8 - chosen.length) noChoice).flatten)

/-- The loop of R176. DEDUCED: log entry 113. -/
def routeAll (cap k : Nat) (renorm : Bool) (rows : List (List Val)) (groups : List Nat) (n : Nat) :
    List (Nat × Nat) × List Byte :=
  groups.zipIdx.foldl (fun (a : List (Nat × Nat) × List Byte) g =>
    if 0x1000 ≤ g.1 then (a.1, a.2 ++ (List.replicate 8 noChoice).flatten)
    else
      let y := routeToken cap k renorm (rows.getD g.2 []) a.1
      (y.1, a.2 ++ y.2)) (List.replicate n (0, 0), [])

/-- The effect of a `ROUTE`; overflowed choices are counted under `ROUTE_OVERFLOW` (R178, R194). -/
def routeEff (c : Ctx) (r : Run) : Run :=
  let e := c.e
  let tbl := descOr r.s e.descC
  let load := descOr r.s e.descD
  let r :=
    let g := entryTag c r.s
    if c.voided then writeZeros (c.behind tbl) g load (writeZeros c g tbl r)
    else
      let r := departs c [e.descC, e.descD] r
      let x := loadVals c (descOr r.s e.descA) r
      let g := loadFlat c (descOr r.s e.descB) x.2
      let y := routeAll e.capacity e.topk (e.subBit 0) x.1 g.1 e.experts
      let full := y.1.foldl (fun n l => n + l.2) 0
      let r := g.2.mod fun s =>
        let s := incMod { s with step := { s.step with overflow := s.step.overflow + full } } (Reg.routeOverflow c.inst) 47 0 full
        if full = 0 then s else alert 0x0801 s
      putTable (c.behind tbl) load (y.1.map fun l => leBytes 4 l.1 ++ leBytes 4 l.2).flatten (putTable c tbl y.2 r)
  physEvents c r

/-- ROUTE: the top-k experts of each token and their capacity slots (08 R176). -/
def execRoute (st : Nat) (ph : List Phys) (s : State) : Host.Outcome State Fault Refusal :=
  .next (issue st (fun e => e.op == 0x43) ph routeEff s)

/-! ## Rows sent to windows -/

/-- Return one row into a window under a group's tag. On the device itself it is dropped like an arriving one that its window
admits and whose tag does not hold (R187). -/
def sendRow (c : Ctx) (g : GTag) (w off : Nat) (bs : List Byte) (r : Run) : Run :=
  match winPath r.s w with
  | .own v ep =>
    if ownerCheck r.s v ep true false off bs.length bs.length = 0 ∧ g.tag ≠ epochTag r.s g.group then r.mod answerDropped else winWrite c g w off (spoil c off bs) r
  | _ => winWrite c g w off (spoil c off bs) r

/-- Send a block-end marker to the owner of a window (R182, R186). -/
def sendBlockEnd (w : Nat) (r : Run) : Run :=
  let e := winOf r.s w
  r.mod fun s =>
    if e.kind = 1 then blockEndAt e.ring w s
    else if e.kind = 0 then s
    else putMarker e.ring (winOwner s e) 0 e.target 0 0 none s

/-- Bytes of the slot headers of a block (R180). -/
def headerBytes (cap : Nat) : Nat := ceilDiv cap 128 * 1088

/-- Bytes of row `i` of a tensor. -/
def rowRaw (c : Ctx) (d : Desc) (i : Nat) (r : Run) : List Byte × Run := getBytes c d (d.rowOff i) d.rowBytes r

/-! ## DISPATCH (R180 to R182) -/

/-- A choice entry of a route table's bytes: row p, choice j. -/
def choiceAt (tbl : List Byte) (p j : Nat) : Nat × Nat × Nat :=
  (leAt tbl (64 * p + 8 * j) 2, leAt tbl (64 * p + 8 * j + 2) 2, leAt tbl (64 * p + 8 * j + 4) 4)

/-- The token that chose slot `s` of expert `e`. -/
def tokenOf (tbl : List Byte) (tokens k e s : Nat) : Option Nat :=
  (List.range tokens).find? fun p => (List.range k).any fun j => (choiceAt tbl p j).1 == e && (choiceAt tbl p j).2.1 == s

/-- A directory entry (Table 08-5). -/
def dirBytes (expert tag group : Nat) : List Byte := leBytes 8 (expert * 2 ^ 32 + tag * 2 ^ 16 + group)

/-- An empty directory entry. -/
def dirEmpty (expert : Nat) : List Byte := dirBytes expert 0 0xFFFF

/-- The header of a block from its slots: the tag and group of each row sent (R180). -/
def blockHeader (cap expert : Nat) (slots : List (Option GTag)) : List Byte :=
  ((List.range (ceilDiv cap 128)).map fun q =>
    let run := (List.range 128).map fun i => (slots.getD (128 * q + i) none)
    packCodes 1 (run.map fun x => b2n x.isSome) ++ List.replicate 48 0 ++
      (run.map fun x => match x with
        | some g => dirBytes expert g.tag g.group
        | none => dirEmpty expert).flatten).flatten

/-- Placement entry (Table 08-4). -/
structure Placement where
  window : Nat
  local_ : Nat
  source : Nat
  sources : Nat
  hdr : Nat

def placementOf (bs : List Byte) : Placement :=
  let n := leNat bs
  { window := bits n 11 0, local_ := bits n 25 16, source := bits n 43 32, sources := bits n 59 48 + 1, hdr := bits n 95 64 }

/-- Slot `s` of a block: send its row, or withhold it, which is counted under `DISPATCH_SKIPPED` (R182, R194). -/
def dispatchSlot (c : Ctx) (d : Desc) (tbl : List Byte) (groups : List Nat) (e : Nat) (pl : Placement) (b s : Nat)
    (x : List (Option GTag) × Run) : List (Option GTag) × Run :=
  match tokenOf tbl groups.length c.e.topk e s with
  | none => (x.1 ++ [none], x.2)
  | some p =>
    let g := nth groups p
    if !c.voided && maskHas x.2.s.step.maskA g then
      let t := groupTag x.2.s g
      let y := rowRaw c d p x.2
      let away := match winPath y.2.s pl.window with
        | .remote => true
        | _ => false
      let r := if away then y.2.mod (depart (maskRange g 1)) else y.2
      let o := (b * c.e.capacity + s) * d.rowBytes
      let r := winWrite c t pl.window o (spoil c o y.1) r
      (x.1 ++ [some t], r.mod fun s => incMod s (Reg.dispatchRows c.inst) 47 0 1)
    else (x.1 ++ [none], x.2.mod fun s => alert 0x0803 (incMod s (Reg.dispatchSkipped c.inst) 47 0 1))

/-- The block of one expert: its rows, its header, its marker. -/
def dispatchBlock (c : Ctx) (d : Desc) (tbl : List Byte) (groups : List Nat) (e : Nat) (pl : Placement) (r : Run) : Run :=
  let b := pl.local_ * pl.sources + pl.source
  let x := (List.range c.e.capacity).foldl (fun x s => dispatchSlot c d tbl groups e pl b s x) ([], r)
  sendBlockEnd pl.window
    (winWrite c {} pl.window (pl.hdr * 64 + b * headerBytes c.e.capacity) (blockHeader c.e.capacity e x.1) x.2)

/-- The effect of a `DISPATCH`. A voided one withholds every row (14 R317). -/
def dispatchEff (c : Ctx) (r : Run) : Run :=
  let e := c.e
  let d := descOr r.s e.descA
  let t := denseBytes c (descOr r.s e.descB) r
  let g := loadFlat c (descOr r.s e.descC) t.2
  let p := denseBytes c (descOr r.s e.descD) g.2
  physEvents c ((List.range e.experts).foldl (fun r x =>
    dispatchBlock c d t.1 g.1 x (placementOf ((p.1.drop (16 * x)).take 16)) r) p.2)

/-- DISPATCH: live tokens into the receive-window blocks, with headers and block-end markers (08 R182). -/
def execDispatch (st : Nat) (ph : List Phys) (s : State) : Host.Outcome State Fault Refusal :=
  .next (issue st (fun e => e.op == 0x44) ph dispatchEff s)

/-! ## COMBINE (R186 to R188) -/

/-- Slot `s` of block `b` in the return form. -/
def returnSlot (c : Ctx) (d : Desc) (hdr : List Byte) (w b s : Nat) (r : Run) : Run :=
  let x := leAt hdr (b * headerBytes c.e.capacity + s / 128 * 1088 + 64 + s % 128 * 8) 8
  let group := bits x 15 0
  if group = 0xFFFF then r
  else
    let y := rowRaw c d (b * c.e.capacity + s) r
    (sendRow c { gv := true, tag := bits x 31 16, group := group } w ((bits x 41 32 * c.e.capacity + s) * d.rowBytes)
      y.1 y.2).mod fun s => incMod s (Reg.dispatchRows c.inst) 47 0 1

/-- The effect of the return form. A voided one sends as usual (14 R317). -/
def returnEff (c : Ctx) (r : Run) : Run :=
  let e := c.e
  let d := descOr r.s e.descA
  let h := denseBytes c (descOr r.s e.descB) r
  let t := denseBytes c (descOr r.s e.descD) h.2
  let n := t.1.length / 8
  physEvents c ((List.range (e.experts * n)).foldl (fun r b =>
    let w := bits (leAt t.1 (8 * (b % n)) 8) 11 0
    sendBlockEnd w ((List.range e.capacity).foldl (fun r s => returnSlot c d h.1 w b s r) r)) t.2)

/-- COMBINE with `RETURN`: sends the expert outputs back to their sources (08 R186). -/
def execCombineReturn (st : Nat) (ph : List Phys) (s : State) : Host.Outcome State Fault Refusal :=
  .next (issue st (fun e => e.op == 0x45 && e.subBit 0) ph returnEff s)

/-- One token of the merge form: its choices that count, as weight and row of the return buffer (R188). -/
def mergeChoices (s : State) (tbl : List Byte) (k cap g p : Nat) : List (F32 × Nat) :=
  (List.range k).filterMap fun j =>
    let x := choiceAt tbl p j
    if x.2.1 = 0xFFFF ∨ 0x1000 ≤ g ∨ !maskHas s.step.maskA g then none
    else some (BitVec.ofNat 32 x.2.2, x.1 * cap + x.2.1)

/-- One token's row. -/
def mergeToken (ret : List (Nat × List Val)) (acc : List Val) (xs : List (F32 × Nat)) : List Val :=
  xs.foldl (fun acc x => addRow acc ((rowOfVals ret x.2).map (rMul (f32 x.1)))) acc

/-- The effect of the merge form. -/
def combineEff (c : Ctx) (r : Run) : Run :=
  let e := c.e
  let a := descOr r.s e.descA
  let d := descOr r.s e.descC
  let r :=
    if c.voided then writeZeros c (entryTag c r.s) d r
    else
      let r := departs c [e.descC] r
      let t := denseBytes c (descOr r.s e.descB) r
      let g := loadFlat c (descOr r.s e.descD) t.2
      let cs := g.1.zipIdx.map fun x => mergeChoices g.2.s t.1 e.topk e.capacity x.1 x.2
      let ret := loadSome c a ((cs.map fun xs => xs.map fun x => x.2).flatten).eraseDups g.2
      let old := if e.subBit 1 then loadVals c d ret.2 else ([], ret.2)
      let rows := cs.mapIdx fun p xs =>
        mergeToken ret.1 (if e.subBit 1 then old.1.getD p [] else List.replicate (d.dim 0) Val.zero) xs
      writeRows c (entryTag c old.2.s) d e.tensorId (rows.map (encodeRow d.fmt (scaleExp old.2.s d))) old.2
  physEvents c r

/-- COMBINE without `RETURN`: the weighted sum of the answers of each token (08 R188). -/
def execCombineMerge (st : Nat) (ph : List Phys) (s : State) : Host.Outcome State Fault Refusal :=
  .next (issue st (fun e => e.op == 0x45 && !e.subBit 0) ph combineEff s)

/-! ## GROUPED (R191, R192) -/

/-- The micro-batch of the entry's segment. -/
def microOf (c : Ctx) (s : State) : Micro :=
  (s.step.ws.mbs[c.slot.getD 0]?).getD { length := 0, bucket := 0, groups := 0, firstGroup := 0 }

/-- The ranges of the entry's micro-batch; without a table, one range. -/
def rangesOf (c : Ctx) (s : State) : List GroupRange :=
  if s.step.ws.ranges.isEmpty then
    let m := microOf c s
    [{ group := m.firstGroup, mb := c.slot.getD 0, rows := m.length, srcRow := 0, dstRow := 0 }]
  else s.step.ws.ranges.filter fun g => g.mb == c.slot.getD 0

/-- First row of a range in the layout written. -/
def rangeAt (padded : Bool) (g : GroupRange) : Nat := if padded then g.dstRow else g.srcRow

/-- Rows of a range at `d` or beyond. -/
def excessRows (padded : Bool) (d : Nat) (g : GroupRange) : Nat :=
  g.rows - (d - min d (rangeAt padded g))

/-- Count the excess rows of an entry's ranges (R192). -/
def countExcess (c : Ctx) (padded : Bool) (d : Nat) (s : State) : State :=
  countIndices c (List.replicate ((rangesOf c s).foldl (fun n g => n + excessRows padded d g) 0) .oob) s

/-- The range that covers a row of the layout written. -/
def coverOf (gs : List GroupRange) (padded : Bool) (row : Nat) : Option GroupRange :=
  gs.find? fun g => decide (rangeAt padded g ≤ row ∧ row < rangeAt padded g + g.rows)

/-- Read row `i` of a source as written; a row beyond the tensor has free codes. DESIGN CHOICE: log entry 52. Its
elements are reported by the destination's scale. DESIGN CHOICE: log entry 142. -/
def groupedRow (c : Ctx) (a d : Desc) (i : Nat) (r : Run) : OutRow × Run :=
  if i < a.rows then
    let z := loadCodeRow c a i r
    (copyRow d.fmt (scaleExp z.2.s d) z.1.2 z.1.1, z.2)
  else
    let f := freeBytes a.rowBytes r.s
    (copyRow d.fmt (scaleExp f.2 d) (List.replicate (d.dim 0 / 32) 127) (unpackCodes (widthOf a.fmt) (a.dim 0) f.1),
      { r with s := f.2 })

/-- Copy ranges between the packed and the padded layout. DEDUCED: log entry 59. -/
def copyRanges (c : Ctx) (a d : Desc) (padded : Bool) (r : Run) : Run :=
  let gs := rangesOf c r.s
  let x := (List.range d.rows).foldl (fun (acc : List OutRow × Run) row =>
    match coverOf gs padded row with
    | some g =>
      let y := groupedRow c a d (rangeAt (!padded) g + (row - rangeAt padded g)) acc.2
      (acc.1 ++ [y.1], y.2)
    | none => (acc.1 ++ [zeroRow d.fmt (d.dim 0)], acc.2)) ([], r)
  writeRows c {} d c.e.tensorId x.1 x.2

/-- Lines of a mask tensor, and rows per line. -/
def maskLines (d : Desc) : Nat := d.rows * d.rowBytes / 64
def maskRows (e : Entry) : Nat := if e.subBit 3 then 64 else 128

/-- Mask lines of live rows (R174). -/
def maskBytesOf (per lines : Nat) (live : Nat → Bool) : List Byte :=
  ((List.range lines).map fun l =>
    packCodes 1 ((List.range per).map fun i => b2n (live (per * l + i))) ++ List.replicate (64 - per / 8) 0).flatten

/-- PACK: each range to its padded rows, with its mask lines (R192). DESIGN CHOICE: log entry 173. -/
def packEff (c : Ctx) (r : Run) : Run :=
  let a := descOr r.s c.e.descA
  let d := descOr r.s c.e.descC
  let m := descOr r.s c.e.descD
  let masked := c.e.descD != noDesc
  let r :=
    if c.voided then
      let r := writeZeros c {} d r
      if masked then writeZeros (c.behind d) {} m r else r
    else
      let gs := rangesOf c r.s
      let r := copyRanges c a d true (r.mod (countExcess c true d.rows))
      if masked then
        putTable (c.behind d) m (maskBytesOf (maskRows c.e) (maskLines m) fun row => decide (row < d.rows) && (coverOf gs true row).isSome) r
      else r
  physEvents c r

/-- PACK as an entry: the rows of a ragged tensor to their padded places (08 R192). -/
def execPack (st : Nat) (ph : List Phys) (s : State) : Host.Outcome State Fault Refusal :=
  .next (issue st (fun e => e.op == 0x49 && e.subop % 8 == 0) ph packEff s)

/-- UNPACK: each range back to its packed rows (R192). -/
def unpackEff (c : Ctx) (r : Run) : Run :=
  let a := descOr r.s c.e.descA
  let d := descOr r.s c.e.descC
  physEvents c (if c.voided then writeZeros c {} d r else copyRanges c a d false (r.mod (countExcess c false d.rows)))

/-- UNPACK as an entry: the padded rows back to their packed places (08 R192). -/
def execUnpack (st : Nat) (ph : List Phys) (s : State) : Host.Outcome State Fault Refusal :=
  .next (issue st (fun e => e.op == 0x49 && e.subop % 8 == 1) ph unpackEff s)

/-- The group tensor of a layout (R192, forms 2 and 3). -/
def idsEff (padded : Bool) (c : Ctx) (r : Run) : Run :=
  let d := descOr r.s c.e.descC
  let r :=
    if c.voided then writeZeros c {} d r
    else
      let gs := rangesOf c r.s
      let ids := (List.range d.count).map fun row => match coverOf gs padded row with
        | some g => g.group
        | none => 0xFFFF
      storeRows c {} d (rowsOf (d.dim 0) ids) (r.mod (countExcess c padded d.count))
  physEvents c r

/-- IDS: the group of each packed row. -/
def execIds (st : Nat) (ph : List Phys) (s : State) : Host.Outcome State Fault Refusal :=
  .next (issue st (fun e => e.op == 0x49 && e.subop % 8 == 2) ph (idsEff false) s)

/-- IDS_PADDED: the group of each padded row. -/
def execIdsPadded (st : Nat) (ph : List Phys) (s : State) : Host.Outcome State Fault Refusal :=
  .next (issue st (fun e => e.op == 0x49 && e.subop % 8 == 3) ph (idsEff true) s)

/-- LENMASK: a row is live if and only if it lies below `LENGTH` (R192). -/
def lenmaskEff (c : Ctx) (r : Run) : Run :=
  let d := descOr r.s c.e.descC
  let per := maskRows c.e
  let r :=
    if c.voided then writeZeros c {} d r
    else
      let n := (microOf c r.s).length
      putTable c d (maskBytesOf per (maskLines d) fun row => decide (row < n))
        (r.mod (countExcess c false (maskLines d * per)))
  physEvents c r

def execLenmask (st : Nat) (ph : List Phys) (s : State) : Host.Outcome State Fault Refusal :=
  .next (issue st (fun e => e.op == 0x49 && e.subop % 8 == 4) ph lenmaskEff s)

end Sys2Proof.Machine
end

