-- ==== Sys2Proof/Machine/Stash.lean ====
section
/-! DEFINITION. The stash (05 R111 to R118; 07 R168; 11 R245, R246; 13 R299): records as lines, the three levels, placement,
`STASH_WRITE` and `STASH_READ`. -/

namespace Sys2Proof.Machine

/-! ## A record as lines -/

/-- The byte runs of a tensor in record order: offset in its place and length. -/
def stashExtents (d : Desc) : List (Nat × Nat) :=
  if d.layout = 2 then [(d.offset, d.dim 0)]
  else if d.layout = 1 then (List.range (d.dim 2)).map fun b => (d.offset + b * nth d.stride 2 * 64, d.product)
  else (List.range d.rows).map fun i => (d.rowOff i, d.rowBytes)

/-- Byte size of the record of a tensor (R111). -/
def stashSize (d : Desc) : Nat := (stashExtents d).foldl (fun n x => n + x.2) 0

/-- Step tag and slot tag that an entry computes (R112). -/
def stashTags (s : State) (e : Entry) (slot : Option Nat) : Nat × Nat := (stepNo s % 2 ^ 16, slotTag e slot)

/-- The descriptor names an ACT region. -/
def inAct (s : State) (d : Desc) : Bool := d.place == 0 && (regionRaw s d.unit).cls == 2

/-- Read `n` bytes at `off` of a stash entry's tensor; lines of an ACT region are checked against the entry's tags and their
index in the record, `pos` being the record position of the first byte (11 R246). -/
def stashGet (c : Ctx) (tags : Nat × Nat) (d : Desc) (off n pos : Nat) (r : Run) : List Byte × Run :=
  if inAct r.s d then
    let a := (regionRaw r.s d.unit).base + off
    devReadAct (fun l => some (tags.1, tags.2, pos / 64 + (l - a) / 64)) c a n r
  else getBytes c d off n r

/-- Write bytes of a `STASH_READ`'s destination; lines of an ACT region are stamped (11 R245). -/
def stashPut (c : Ctx) (tags : Nat × Nat) (d : Desc) (off : Nat) (bs : List Byte) (pos : Nat) (r : Run) : Run :=
  let bs := spoil c (off - d.offset) bs
  if inAct r.s d then
    let a := (regionRaw r.s d.unit).base + off
    devWriteAct (fun l => (tags.1, tags.2, pos / 64 + (l - a) / 64)) c a bs r
  else putBytes c {} d off bs r

/-- Lines that a slot of a compressed stream moves (07 R168). -/
def slotMoves (hdr : List Byte) : Nat := max 1 (min 65 (bits (leAt hdr 0 8) 38 32))

/-- Complete a byte string to whole lines and number them from `i0`. -/
def numberLines (i0 : Nat) (bs : List Byte) : List (Nat × List Byte) :=
  (chunks 64 (bs ++ List.replicate (roundUp bs.length 64 - bs.length) 0)).zipIdx.map fun x => (i0 + x.2, x.1)

/-- The lines of the record of a `STASH_WRITE`'s source that move, with their indices. -/
def recordLines (c : Ctx) (tags : Nat × Nat) (d : Desc) (r : Run) : List (Nat × List Byte) × Run :=
  if d.layout = 2 then
    (List.range (d.dim 0 / 4160)).foldl (fun (a : List (Nat × List Byte) × Run) k =>
      let h := stashGet c tags d (d.offset + 4160 * k) 64 (4160 * k) a.2
      let t := stashGet c tags d (d.offset + 4160 * k + 64) (64 * (slotMoves h.1 - 1)) (4160 * k + 64) h.2
      (a.1 ++ numberLines (65 * k) (h.1 ++ t.1), t.2)) ([], r)
  else
    let x := (stashExtents d).foldl (fun (a : List Byte × Run) x =>
      let y := stashGet c tags d x.1 x.2 a.1.length a.2
      (a.1 ++ y.1, y.2)) ([], r)
    (numberLines 0 x.1, x.2)

/-! ## Levels (R113, R114, R299) -/

def stashHostWin (s : State) : Nat := fld s.job.stashCfg 37 32
def stashRegion (s : State) : Nat := fld s.job.stashCfg 7 0

/-- The window of the remote `STASH` entry. -/
def nbrWin (s : State) : Option Nat :=
  (s.job.windows.find? fun p => (p.2.kind == 2 || p.2.kind == 3) && p.2.stash).map (·.1)

/-- A level counts as enabled: 0 local, 1 neighbour, 2 host. -/
def levelOn (s : State) (lv : Nat) : Bool :=
  if lv = 0 then fld s.job.stashCfg 8 8 == 1
  else if lv = 1 then fld s.job.stashCfg 9 9 == 1 && (match nbrWin s with
    | some w => (viewOf s w).attached
    | none => false)
  else fld s.job.stashCfg 47 47 == 1

/-- Physical blocks of a level. -/
def levelPhys (s : State) (lv : Nat) : Nat :=
  if lv = 0 then
    (match region? s (stashRegion s) with
     | some g => if g.cls = 2 then g.size / 65536 else 0
     | none => 0)
  else if lv = 1 then
    (match nbrWin s with
     | some w => (viewOf s w).size / 65536
     | none => 0)
  else
    let k := stashHostWin s
    if getB s (Reg.hwtW0 k) 63 && getB s (Reg.hwtW0 k) 62 && getB s (Reg.hwtW0 k) 61 then hwtSize s k / 73728 else 0

/-- Quota of a level. -/
def levelQuota (s : State) (lv : Nat) : Nat :=
  if lv = 0 then fld s.job.stashQuota 20 0 else if lv = 1 then fld s.job.stashQuota 41 21 else fld s.job.stashQuota 62 42

/-- The first free block of a level, in increasing order. -/
def freeBlock (s : State) (used : List (Nat × Nat)) (lv : Nat) : Option Nat :=
  match (List.range (used.length + 1)).find? fun b => !used.contains (lv, b) with
  | some b => if b < levelPhys s lv then some b else none
  | none => none

/-- Blocks of a level among those in use. -/
def usedAt (used : List (Nat × Nat)) (lv : Nat) : Nat := (used.filter fun b => b.1 == lv).length

/-- Place one block: the first level that qualifies, and whether a quota moved it on (R113, R114).
DEDUCED: log entry 58. -/
def placeBlock (s : State) (used : List (Nat × Nat)) : List Nat → Bool → Option (Nat × Nat) × Bool
  | [], pin => (none, pin)
  | lv :: t, pin =>
    match freeBlock s used lv with
    | some b =>
      if !levelOn s lv then placeBlock s used t pin
      else if usedAt used lv < levelQuota s lv then (some (lv, b), pin)
      else placeBlock s used t true
    | none => placeBlock s used t pin

/-- Place `n` blocks, each in turn. -/
def placeBlocks (s : State) : Nat → List (Nat × Nat) → List (Nat × Nat) → Bool → Option (List (Nat × Nat)) × Bool
  | 0, _, got, pin => (some got, pin)
  | n + 1, used, got, pin =>
    match placeBlock s used [0, 1, 2] pin with
    | (some b, pin) => placeBlocks s n (b :: used) (got ++ [b]) pin
    | (none, pin) => (none, pin)

/-- Blocks in use. -/
def blocksUsed (s : State) : List (Nat × Nat) := (s.stash.map StashRec.blocks).flatten

/-- Set `PINNED` (R114). -/
def stashPin (pin : Bool) (s : State) : State :=
  if pin then setB { s with step := { s.step with stashPinned := true } } Reg.stashStatus 63 true else s

/-- Add a record to the directory, under the step's next number. -/
def addRecord (r : StashRec) (s : State) : State :=
  { s with stash := s.stash ++ [{ r with id := s.step.stashMade }], step := { s.step with stashMade := s.step.stashMade + 1 } }

/-- A record placed: the directory, the peak and the step's counts (Table 05-11, R114). -/
def putRecord (tag bytes : Nat) (bs : List (Nat × Nat)) (s : State) : State :=
  let s := addRecord { tag := tag, bytes := bytes, exhausted := false, blocks := bs } s
  let p := s.step.stashPlaced
  let placed := (satAdd 32 p.1 (usedAt bs 0), satAdd 32 p.2.1 (usedAt bs 1), satAdd 32 p.2.2 (usedAt bs 2))
  setF { s with step := { s.step with stashPlaced := placed } } Reg.stashStatus 31 16
    (max (getF s Reg.stashStatus 31 16) (recordsHeld s))

/-- `STASH_EXHAUSTED` (R113). -/
def putExhausted (tag bytes : Nat) (s : State) : State :=
  setB (addRecord { tag := tag, bytes := bytes, exhausted := true, blocks := [] } s) Reg.stashStatus 62 true

/-! ## Lines at a level -/

/-- Block of line `i` of a record, and the line's place in it. -/
def lineBlock (bs : List (Nat × Nat)) (i : Nat) : Nat × Nat := bs.getD (i / 1024) (0, 0)

/-- Offset of line `j` of host block `b`: data, and check bytes (R115). -/
def hostLine (b j : Nat) : Nat × Nat := (b * 73728 + j / 8 * 576 + j % 8 * 64, b * 73728 + j / 8 * 576 + 512 + 8 * (j % 8))

/-- Address of local block `b`. -/
def localAddr (s : State) (b j : Nat) : Nat := (regionRaw s (stashRegion s)).base + b * 65536 + j * 64

/-- Write one line at the local or the host level. -/
def putStashLine (c : Ctx) (tags : Nat × Nat) (bs : List (Nat × Nat)) (x : Nat × List Byte) (r : Run) : Run :=
  let b := lineBlock bs x.1
  let j := x.1 % 1024
  if b.1 = 0 then devWriteAct (fun _ => (tags.1, tags.2, x.1)) c (localAddr r.s b.2 j) x.2 r
  else if b.1 = 2 then
    let o := hostLine b.2 j
    let k := stashHostWin r.s
    r.mod fun s => (hostWrite k o.2 (actCheck x.2 tags.1 tags.2 x.1) (hostWrite k o.1 x.2 s).1).1
  else r

/-- Write window bytes with `ACT_LINES`. -/
def winWriteAct (c : Ctx) (w off : Nat) (wire : List Byte) (r : Run) : Run :=
  match winPath r.s w with
  | .own v ep =>
    let n := wire.length / 72 * 64
    let st := ownerCheck r.s v ep true true off n wire.length
    let a := ownedAddr r.s (winOf r.s v) off
    if st = 0 then (r.touch a n).mod (putActLines c.ph a wire) else r.refuse c w st
  | .closed => r.refuse c w 1
  | .remote =>
    if awayPoisoned c r.s w then r
    else { r with s := sendAccess w 0 true {} off wire.length 0 wire c.st c.idx r.s, sent := r.sent + 1 }

/-- Runs of consecutive numbers in a rising list: first, and how many. -/
def runsIn : List Nat → List (Nat × Nat)
  | [] => []
  | n :: t => match runsIn t with
    | (m, k) :: rest => if m = n + 1 then (n, k + 1) :: rest else (n, 1) :: (m, k) :: rest
    | [] => [(n, 1)]

/-- Write the lines of one 53-unit group of a neighbour block: every unit that holds a line that moves, consecutive units in
one transfer; a line of such a unit that does not move is zero (07 R168, 13 R289). `ls`: the lines that move, by record
index. -/
def putNbrGroup (c : Ctx) (tags : Nat × Nat) (w b i0 g : Nat) (ls : List (Nat × List Byte)) (r : Run) : Run :=
  let units := ((ls.filter fun x => (x.1 - i0) / 212 == g).map fun x => (x.1 - i0) / 4).eraseDups
  (runsIn units).foldl (fun r u =>
    let wire := ((List.range (4 * u.2)).map fun k =>
      let i := i0 + 4 * u.1 + k
      let d := lookupD ls i (List.replicate 64 0)
      d ++ actCheck d tags.1 tags.2 i).flatten
    winWriteAct c w (b * 65536 + u.1 * 256) wire r) r

/-- Write the lines of a record that lie at the neighbour level. -/
def putNbrLines (c : Ctx) (tags : Nat × Nat) (bs : List (Nat × Nat)) (ls : List (Nat × List Byte)) (r : Run) : Run :=
  match nbrWin r.s with
  | none => r
  | some w => bs.zipIdx.foldl (fun r x =>
      if x.1.1 = 1 then
        let mine := ls.filter fun l => l.1 / 1024 == x.2
        (List.range 5).foldl (fun r g => putNbrGroup c tags w x.1.2 (x.2 * 1024) g mine r) r
      else r) r

/-- Count what a mover entry moved (09 Table 09-10). -/
def countMoved (c : Ctx) (rd wr : Nat) (s : State) : State :=
  incMod (incMod s (Reg.movRead c.inst) 47 0 rd) (Reg.movWritten c.inst) 47 0 wr

/-- The effect of a `STASH_WRITE`: a voided one places no block (14 R317). -/
def stashWriteEff (c : Ctx) (r : Run) : Run :=
  let d := descOr r.s c.e.descA
  let tags := stashTags r.s c.e c.slot
  let r :=
    if c.voided then r
    else
      let r := r.mod (freeRecord tags.2)
      let n := stashSize d
      let p := if recordsHeld r.s < 16384 then placeBlocks r.s (ceilDiv n 65536) (blocksUsed r.s) [] false else (none, false)
      let r := r.mod (stashPin p.2)
      match p.1 with
      | none =>
        (r.mod (putExhausted tags.2 n)).raise { code := 0x0501, ty := .mov, inst := c.inst }
      | some bs =>
        let x := recordLines c tags d (r.mod (putRecord tags.2 n bs))
        let ls := x.1.map fun l => (l.1, spoil c (64 * l.1) l.2)
        let r := ls.foldl (fun r l => putStashLine c tags bs l r) x.2
        (putNbrLines c tags bs ls r).mod (countMoved c (if d.layout = 2 then 64 * ls.length else n) (64 * ls.length))
  physEvents c r

/-- STASH_WRITE: places a record's blocks and stamps each line (05 R112, R113). -/
def execStashWrite (st : Nat) (ph : List Phys) (s : State) : Host.Outcome State Fault Refusal :=
  .next (issue st (fun e => e.op == 0x34) ph stashWriteEff s)

/-! ## Reading a record -/

/-- Check a line that came from another level (11 R246); the raising unit is the mover. -/
def checkStashLine (c : Ctx) (tags : Nat × Nat) (i : Nat) (data chk : List Byte) (late : Bool) (r : Run) : List Byte × Run :=
  if late ∨ leNat ((chk.drop 4).take 2) ≠ tags.1 ∨ leNat ((chk.drop 6).take 2) ≠ tags.2 then
    (List.replicate 64 0, r.raise { code := 0x0B01, ty := .mov, inst := c.inst })
  else if chk ≠ actCheck data tags.1 tags.2 i then
    (List.replicate 64 0, r.raise { code := 0x0B02, ty := .mov, inst := c.inst })
  else (data, r)

/-- The host address of the row group of line `j` of host block `b`, where the window table lets the stash read it. -/
def rowGroup (s : State) (b j : Nat) : Option Nat := hwtCheck s (stashHostWin s) ((hostLine b j).1 / 576 * 576) 576 false

/-- The read of that row group is known to have timed out. -/
def timedOut (s : State) (b j : Nat) : Bool :=
  match rowGroup s b j with
  | some a => s.stashTimeouts.contains a
  | none => false

/-- Read one host-level line. A line whose row group's read timed out is taken as one whose tag differs (15 Table 15-7). -/
def hostStashLine (c : Ctx) (tags : Nat × Nat) (b i : Nat) (r : Run) : List Byte × Run :=
  let o := hostLine b (i % 1024)
  let k := stashHostWin r.s
  let late := timedOut r.s b (i % 1024)
  let x := hostRead c k o.1 64 r
  let y := hostRead c k o.2 8 x.2
  checkStashLine c tags i x.1 y.1 late y.2

/-- Read `n` lines from line `i` of a neighbour block. -/
def nbrStashLines (c : Ctx) (tags : Nat × Nat) (b i n : Nat) (r : Run) : List Byte × Run :=
  let zeros := List.replicate (64 * n) 0
  match nbrWin r.s with
  | none => (zeros, r)
  | some w =>
    let j := i % 1024
    let u0 := j / 4
    let u1 := (j + n - 1) / 4
    let off := b * 65536 + u0 * 256
    let len := 288 * (u1 + 1 - u0)
    let key := fetchKey c (actKey + w) (off / 64 * 72)
    let got := fun (wire : List Byte) (r : Run) =>
      (List.range n).foldl (fun (a : List Byte × Run) k =>
        let l := (wire.drop (72 * (j - 4 * u0 + k))).take 72
        let x := checkStashLine c tags (i + k) (l.take 64) (l.drop 64) false a.2
        (a.1 ++ x.1, x.2)) ([], r)
    if r.asked.contains (key, len) then got (memRead r.stage key len) r
    else match winPath r.s w with
      | .closed => (zeros, r.refuse c w 1)
      | .own v ep =>
        let st := ownerCheck r.s v ep false true off (len / 72 * 64) len
        if st = 0 then
          let a := ownedAddr r.s (winOf r.s v) off
          let x := getActLines c.ph a (len / 72) r.s
          got x.1 ({ r with s := x.2 }.touch a (len / 72 * 64))
        else (zeros, r.refuse c w st)
      | .remote => (zeros, if awayPoisoned c r.s w then r else r.lacks (key, len))

/-- Read `n` lines from line `i` of a record, in one block. -/
def blockStashLines (c : Ctx) (tags : Nat × Nat) (bs : List (Nat × Nat)) (i n : Nat) (r : Run) : List Byte × Run :=
  let b := lineBlock bs i
  if b.1 = 0 then
    let a := localAddr r.s b.2 (i % 1024)
    devReadAct (fun l => some (tags.1, tags.2, i + (l - a) / 64)) c a (64 * n) r
  else if b.1 = 1 then nbrStashLines c tags b.2 i n r
  else (List.range n).foldl (fun (a : List Byte × Run) k =>
    let x := hostStashLine c tags b.2 (i + k) a.2
    (a.1 ++ x.1, x.2)) ([], r)

/-- Read `n` lines from line `i` of a record. -/
def stashLines (c : Ctx) (tags : Nat × Nat) (bs : List (Nat × Nat)) (i n : Nat) (r : Run) : List Byte × Run :=
  if n = 0 then ([], r)
  else (List.range ((i + n - 1) / 1024 + 1 - i / 1024)).foldl (fun (a : List Byte × Run) k =>
    let lo := max i ((i / 1024 + k) * 1024)
    let hi := min (i + n) ((i / 1024 + k + 1) * 1024)
    let x := blockStashLines c tags bs lo (hi - lo) a.2
    (a.1 ++ x.1, x.2)) ([], r)

/-- Write a record's bytes into the destination. -/
def putRecordBytes (c : Ctx) (tags : Nat × Nat) (d : Desc) (bs : List Byte) (r : Run) : Run :=
  ((stashExtents d).foldl (fun (a : Nat × Run) x =>
    (a.1 + x.2, stashPut c tags d x.1 ((bs.drop a.1).take x.2) a.1 a.2)) (0, r)).2

/-- Deliver a record at blocks `bs`. -/
def deliverRecord (c : Ctx) (tags : Nat × Nat) (d : Desc) (bs : List (Nat × Nat)) (r : Run) : Run :=
  if d.layout = 2 then
    (List.range (d.dim 0 / 4160)).foldl (fun r k =>
      let h := stashLines c tags bs (65 * k) 1 r
      let n := slotMoves h.1
      let t := stashLines c tags bs (65 * k + 1) (n - 1) h.2
      (stashPut c tags d (d.offset + 4160 * k) (h.1 ++ t.1) (4160 * k) t.2).mod (countMoved c (64 * n) (64 * n))) r
  else
    let n := stashSize d
    let x := stashLines c tags bs 0 (ceilDiv n 64) r
    (putRecordBytes c tags d x.1 x.2).mod (countMoved c n n)

/-- The lines of a record at blocks `bs` that a `STASH_READ` reads. -/
def linesRead (c : Ctx) (tags : Nat × Nat) (d : Desc) (bs : List (Nat × Nat)) (r : Run) : List Nat :=
  if d.layout = 2 then
    ((List.range (d.dim 0 / 4160)).map fun k =>
      (List.range (slotMoves (stashLines c tags bs (65 * k) 1 r).1)).map (65 * k + ·)).flatten
  else List.range (ceilDiv (stashSize d) 64)

/-- Those of them that lie at the host level, each with the host address of its row group. -/
def hostGroups (c : Ctx) (tags : Nat × Nat) (d : Desc) (bs : List (Nat × Nat)) (r : Run) : List (Nat × Nat) :=
  if bs.any fun b => b.1 == 2 then
    (linesRead c tags d bs r).filterMap fun i =>
      let b := lineBlock bs i
      if b.1 = 2 then (rowGroup r.s b.2 (i % 1024)).map fun a => (i, a) else none
  else []

/-- Forget the timeouts of the row groups that a `STASH_READ` has read. -/
def clearTimeouts (gs : List Nat) (s : State) : State :=
  { s with stashTimeouts := s.stashTimeouts.filter fun a => !gs.contains a }

/-- A `STASH_READ` notes the record that it finds, which its completion frees (R118). -/
def noteRecord (c : Ctx) (tag : Nat) (s : State) : State :=
  modFlight c.st c.idx (fun f => { f with record := recordAt s tag }) s

/-- The effect of a `STASH_READ` (R117, R118, 14 R317). -/
def stashReadEff (c : Ctx) (r : Run) : Run :=
  let d := descOr r.s c.e.descC
  let tags := stashTags r.s c.e c.slot
  let n := stashSize d
  let zeros := fun (r : Run) => (putRecordBytes c tags d (List.replicate n 0) r).mod (countMoved c 0 n)
  let r :=
    if c.voided then zeros r
    else match r.s.stash.find? fun x => x.tag == tags.2 with
      | none => zeros (r.raise { code := 0x0B01, ty := .mov, inst := c.inst })
      | some x =>
        if x.exhausted then zeros r
        else
          let gs := if r.s.stashTimeouts = [] then [] else (hostGroups c tags d x.blocks r).map (·.2)
          (deliverRecord c tags d x.blocks r).mod (clearTimeouts gs)
  physEvents c (r.mod (noteRecord c tags.2))

/-- STASH_READ: checks and delivers a record (05 R117, R118). -/
def execStashRead (st : Nat) (ph : List Phys) (s : State) : Host.Outcome State Fault Refusal :=
  .next (issue st (fun e => e.op == 0x35) ph stashReadEff s)

/-! ## A stash read that is not answered (15 Table 15-7) -/

/-- Line `i` of the record is delivered as +0. -/
def zeroLine (c : Ctx) (tags : Nat × Nat) (d : Desc) (i : Nat) (r : Run) : Run :=
  ((stashExtents d).foldl (fun (a : Nat × Run) x =>
    let lo := max (64 * i) a.1
    let hi := min (64 * i + 64) (a.1 + x.2)
    (a.1 + x.2,
      if lo < hi then stashPut c tags d (x.1 + (lo - a.1)) (List.replicate (hi - lo) 0) lo a.2 else a.2)) (0, r)).2

/-- A flight of stream `st` that is a `STASH_READ` and has read a record: its context and the record. -/
def stashReader (st : Nat) (s : State) (f : Flight) : Option (Ctx × StashRec) :=
  match streamAt s st with
  | none => none
  | some x =>
    match x.entry? f.idx, s.stash.find? fun z => f.record == some z.id with
    | some e, some z =>
      if e.op = 0x35 ∧ f.ran ∧ !f.voided ∧ !z.exhausted then some (ctxOf s st x f.idx e f.slot f.voided f.ph, z) else none
    | _, _ => none

/-- The run in which a flight's effect stands. -/
def flightRun (f : Flight) (s : State) : Run := { s := s, stage := f.stage, asked := f.asked, bads := f.failed }

/-- The lines of its record that a reading flight took from the row group at host address `l`. -/
def groupLines (l : Nat) (s : State) (f : Flight) (c : Ctx) (z : StashRec) : List Nat :=
  ((hostGroups c (stashTags s c.e c.slot) (descOr s c.e.descC) z.blocks (flightRun f s)).filter fun x => x.2 == l).map (·.1)

/-- The flight has read the row group at host address `l`. -/
def readsGroup (l st : Nat) (s : State) (f : Flight) : Bool :=
  match stashReader st s f with
  | some (c, z) => !(groupLines l s f c z).isEmpty
  | none => false

/-- Lines whose row group was not answered are delivered as +0, and their tags count as differing: `STALE_READ` of the reading
entry (R117, 11 R246). -/
def timeoutFlight (l st : Nat) (s : State) (f : Flight) : State :=
  match stashReader st s f with
  | some (c, z) =>
    match groupLines l s f c z with
    | [] => s
    | ls =>
      let r := ls.foldl (fun r i => zeroLine c (stashTags s c.e c.slot) (descOr s c.e.descC) i r) (flightRun f s)
      raiseEntry st f.idx c.e.tagged r.s { code := 0x0B01, ty := .mov, inst := c.inst }
  | none => s

/-- The entries in flight of a stream. -/
def flightsOf (s : State) (st : Nat) : List Flight :=
  match streamAt s st with
  | some x => x.inflight
  | none => []

/-- COMPLETION_TIMEOUT: an intake read stops its ring with a DMA error (R346); the lines of a stash row group fail their tags for
the entries in flight that have read it, or, where none has, for the next one of the step that reads it (R357).
DEDUCED: log entry 180. -/
def execCompletionTimeout (w : HostRead) (s : State) : Host.Outcome State Fault Refusal :=
  let s := emit (.aer 2) s
  let sts := List.range s.streams.length
  .next
    (match w with
     | .intake r => intakeTimeout r s
     | .stash l =>
       if sts.any fun st => (flightsOf s st).any (readsGroup l st s) then
         sts.foldl (fun s st => (flightsOf s st).foldl (timeoutFlight l st) s) s
       else { s with stashTimeouts := l :: s.stashTimeouts })

end Sys2Proof.Machine
end

