-- ==== Sys2Proof/Machine/Answers.lean ====
section
/-! DEFINITION. Answers to accesses (13 R294, R296, R298) and lost flits (12 R274, 13 R297), and the effect of an opcode for
an entry that runs once its last remote read is answered. -/

namespace Sys2Proof.Machine

/-- The effect of an entry by its opcode (03 Table 03-9). -/
def effectOf (e : Entry) : Ctx → Run → Run :=
  if e.op = 0x10 then matmulEff
  else if e.op = 0x20 then vectorEff
  else if e.op = 0x21 then optimEff
  else if 0x30 ≤ e.op ∧ e.op ≤ 0x32 then moveEff
  else if e.op = 0x33 then fillEff
  else if e.op = 0x34 then stashWriteEff
  else if e.op = 0x35 then stashReadEff
  else if e.op = 0x40 then gatherEff
  else if e.op = 0x41 then scatterEff
  else if e.op = 0x42 then mergeEff
  else if e.op = 0x43 then routeEff
  else if e.op = 0x44 then dispatchEff
  else if e.op = 0x45 then (if e.subBit 0 then returnEff else combineEff)
  else if e.op = 0x46 then compressEff
  else if e.op = 0x47 then decompressEff
  else if e.op = 0x48 then histEff
  else if e.op = 0x49 then
    (if e.subop % 8 = 0 then packEff else if e.subop % 8 = 1 then unpackEff else if e.subop % 8 = 4 then lenmaskEff
     else idsEff (e.subop % 8 == 3))
  else if 0x50 ≤ e.op ∧ e.op ≤ 0x52 then collEff
  else if e.op = 0x53 then rotateEff
  else if e.op = 0x54 then openEff
  else if e.op = 0x55 then closeEff
  else noEffect

/-- Run an entry in flight again with its opcode's effect. -/
def rerunEntry (st idx : Nat) (s : State) : State :=
  match streamAt s st with
  | some x =>
    match x.entry? idx with
    | some e => rerun st idx (effectOf e) s
    | none => s
  | none => s

/-- The entries in flight of a stream, from the oldest on, run as their turns come. -/
def runReady (st : Nat) (s : State) : State :=
  match streamAt s st with
  | some x => x.inflight.foldl (fun s f => rerunEntry st f.idx s) s
  | none => s

/-- One access of an entry in flight has been answered; after its last read the entry runs, and those that wait for it. -/
def answered (st idx : Nat) (g : Flight → Flight) (s : State) : State :=
  runReady st (waitedFor st idx (modFlight st idx g s))

/-- CLOCK_RUNNING: the domain's clock is stable; the wake request falls, and the entries and the host's accesses that
wait for it go on (02 R40). -/
def execClockRunning (ty : Blk) (inst : Nat) (s : State) : Host.Outcome State Fault Refusal :=
  .next
    (if (crossingAt s ty inst).wake then
      let s := (List.range s.streams.length).foldl (fun s st => runReady st s)
        { s with crossings := cellSet runningCrossing s.crossings (crossingKey ty inst) { clockOn := true, wake := false } }
      releaseHost s.heldHost s
     else s)

/-- The unanswered access of ring r that a `RESP` answers. -/
def xferOf (g : Ring) (n : Nat) : Option Xfer := g.xfers.find? fun x => x.id % 4096 == n

/-- An access is answered: it leaves the list, its window's view counts it, and a waiting detach may go on (R289, R294). -/
def closeXfer (r : Nat) (x : Xfer) (s : State) : State :=
  let s := setRing r { ringAt s r with xfers := (ringAt s r).xfers.filter (·.id != x.id) } s
  if x.window = secView then s
  else wakeDetach x.window (setView x.window { viewOf s x.window with unanswered := (viewOf s x.window).unanswered - 1 } s)

/-- Bytes of an answer that were asked for at a key. -/
def askedLen (f : Flight) (key n : Nat) : Nat :=
  match f.asked.find? (fun a => decide (a.1 ≤ key ∧ key < a.1 + a.2)) with
  | some a => min n (a.1 + a.2 - key)
  | none => n

/-- Keep the data of a read answer. -/
def keepData (key : Nat) (bs : List Byte) (f : Flight) : Flight :=
  { f with stage := memWrite f.stage key (bs.take (askedLen f key bs.length)) }

/-- Raise an event of an entry in flight under its own block. -/
def raiseAt (st idx code detail : Nat) (s : State) : State :=
  match streamAt s st with
  | some x =>
    match x.entry? idx with
    | some e => raiseEntry st idx e.tagged s { code := code, ty := kindBlk x.kind, inst := streamInst s x, detail := detail }
    | none => s
  | none => s

/-- Count and log a refused completion under the block of the entry's unit. -/
def refusedFor (st idx w : Nat) (s : State) : State :=
  match streamAt s st with
  | some x => refusedAt (kindBlk x.kind) (streamInst s x) idx w s
  | none => s

/-- A read of an entry in flight brings no data: its rows are zero codes (07 R158, 13 R297, R298). -/
def failRead (x : Xfer) (s : State) : State :=
  if x.op = 1 then modFlight x.stream x.idx (fun f => { f with failed := f.failed ++ [(x.key, x.length)] }) s else s

/-- What a `STATUS` does to the entry that made the access (R296 to R298); `TRANSFER_LOST` is recorded in its completion. -/
def statusAct (r src status : Nat) (x : Xfer) (s : State) : State :=
  let s := if status = 0 then s else failRead x s
  if status = 4 then modFlight x.stream x.idx (fun f => { f with lost := true }) s
  else if 1 ≤ status ∧ status ≤ 3 then
    raiseAt x.stream x.idx (refusalCode status) x.window (refusedFor x.stream x.idx x.window s)
  else if status = 5 then raiseAt x.stream x.idx 0x0D04 x.window (rngLog r 2 src x.idx x.window s)
  else s

/-- An answer to a SEC access: data of a refill, or a write; a failure breaks the refill or ends the pass incomplete (14 R325,
R330). DEDUCED: log entry 76. -/
def secAnswered (x : Xfer) (ok : Bool) (bs : List Byte) (s : State) : State :=
  if x.op = 1 then
    (if ok then
      { s with locker := { s.locker with image := memWrite s.locker.image (x.key % max 1 (lockerC s / 2)) bs } }
     else { s with locker := { s.locker with broken := true } })
  else if ok then s
  else if passActive s then passEnd (secDrop s)
  else s

/-- A holder that steps its channel profile in the restart makes a forced pass pending (14 R327).
DESIGN CHOICE: log entry 129. -/
def noteHolder (ph : List Phys) (s : State) : State := if ph.contains .holderSteps then forceAct s else s

/-- Take a `RESP` into the access that it answers. -/
def takeResp (p : Nat) (f : Flit) (bs : List Byte) (ph : List Phys) (s : State) : State :=
  let r := p / 2
  let b := f.payload
  let status := leAt b 6 1
  match xferOf (ringAt s r) (leAt b 0xC 2) with
  | none => s
  | some x =>
    let s := closeXfer r x s
    if x.window = secView then secAnswered x (status == 0) bs (noteHolder ph s)
    else
      answered x.stream x.idx
        (fun fl => { (if x.op = 1 ∧ status = 0 then keepData x.key bs fl else fl) with ph := fl.ph ++ ph })
        (statusAct r (plSrc b) status x s)

/-- An answer poisoned in the port's crossing brings no data: the reader takes zero codes, as of a lost answer (02 R36, R297).
DEDUCED: log entry 134. -/
def poisonedResp (p : Nat) (f : Flit) (s : State) : State :=
  match xferOf (ringAt s (p / 2)) (leAt f.payload 0xC 2) with
  | none => s
  | some x =>
    let s := closeXfer (p / 2) x s
    if x.window = secView then secAnswered x false [] s else answered x.stream x.idx id (failRead x s)

/-- RESP: an answer completes the access with its status (R294, R296 to R298); securing answers come in class SEC. -/
def execResp (p : Nat) (ph : List Phys) (s : State) : Host.Outcome State Fault Refusal :=
  .next
    (match [1, 2].findSome? (fun c => (frontMine s p c 4).map fun x => (c, x)) with
     | some (c, f, ds, rest) =>
       let s := consume p c (1 + ds.length) rest s
       let s := trafficPhys (flitGroup f) ph s
       if poisoned ph .nlp p false then poisonedResp p f s
       else if !ringHdrOk s (p / 2) f then ringMismatch (p / 2) (plSrc f.payload) s
       else takeResp p f (joinData f ds) ph s
     | none => s)

/-! ## Lost flits (12 R274, 13 R297) -/

/-- The event of a lost flit on port `p`. -/
def lostEvt (p : Nat) (f : Flit) : Evt :=
  { code := 0x0C01, ty := .nlp, inst := p, group := if f.gv then some f.group else none }

/-- `FLIT_LOST`: logged; confined for the group of a flit with `GV`, hard otherwise. DEDUCED: log entry 68. -/
def flitLost (p : Nat) (f : Flit) (s : State) : State := raiseFree (lostEvt p f) s

/-- The transfer at the front of class `c` that has a `LOST` flit: its first flit, the lost one, and the flits behind the
first. -/
def lostFront (x : Port) (c : Nat) : Option (Flit × Flit × List Flit) :=
  match x.rxq.filter fun f => f.cls == c with
  | [] => none
  | f :: t =>
    let n := ceilDiv (dataLen f) 240
    let body := (if f.typ = 7 then t else t.take n).takeWhile fun g => g.typ == 3 || (f.typ != 7 && g.typ == 7)
    if f.typ = 7 then some (f, f, body)
    else match body.find? (fun g => g.typ == 7) with
      | some l => some (f, l, body)
      | none => none

/-- A read answer of an entry is lost: `FLIT_LOST` names the entry, is confined for the group of a flit with `GV` and hard
otherwise (12 R274), and the answer's bytes are zero codes (R297). -/
def lostAnswer (p : Nat) (l : Flit) (x : Xfer) (s : State) : State :=
  let s := closeXfer (p / 2) x s
  if x.window = secView then secAnswered x false [] (flitLost p l s)
  else answered x.stream x.idx id (raiseEntry x.stream x.idx l.gv (failRead x s) (lostEvt p l))

/-- A `ROTATE` whose transfer is lost: `FLIT_LOST` confined for every group of its segment's micro-batch; the missing bytes
are zeros (R297). -/
def lostBlock (p : Nat) (c : Ctx) (k : Coll) (bs : List Byte) (s : State) : State :=
  let ev : Confined := { code := 0x0C01, ty := .nlp, inst := p, detail := 0, group := none }
  settleColl c (feedColl c (shapeOf c s) (p % 2) bs (k, { s := raiseOnce c.st c.idx [ev] s }))

/-- What a lost transfer comes to at its receiver, once it is out of the crossing. -/
def lostRest (p : Nat) (f l : Flit) (s : State) : State :=
  let r := p / 2
  let w := leAt f.payload 8 2
  if f.typ = 2 ∧ leAt f.payload 6 1 = 0 then
    let s := flitLost p l s
    if f.cls = 2 then secAnswer f 4 [] s else headDone p w (answer p f 4 w (ownedOf s w).epoch [] s)
  else if f.typ = 4 then
    match xferOf (ringAt s r) (leAt f.payload 0xC 2) with
    | some x => lostAnswer p l x s
    | none => flitLost p l s
  else flitLost p l s

/-- The `RING` transfer of a `ROTATE` (phase 3). -/
def isBlock (f : Flit) : Bool := f.typ == 2 && leAt f.payload 6 1 == 2 && bits (leAt f.payload 0x20 4) 31 28 == 3

/-- LOST: the transfer is dropped with its remaining flits, its buffer freed, and `FLIT_LOST` raised; a transfer for another
position passes on with its `LOST` flit (12 R274, 13 R290, R297). -/
def execLost (p : Nat) (s : State) : Host.Outcome State Fault Refusal :=
  .next
    (match [0, 1, 2].findSome? (fun c => (lostFront (port s p) c).map fun x => (c, x)) with
     | some (c, f, l, body) =>
       if (f.typ = 2 ∨ f.typ = 4 ∨ f.typ = 5) ∧ !isMine s (p / 2) f then s
       else
         let rest := (takeClass c (1 + body.length) (port s p).rxq).2
         let whole := f.typ ≠ 7 ∧ body.length = ceilDiv (dataLen f) 240
         let go := nlpLog p 0 l.seq l.gv l.group 0 0 (consume p c (1 + body.length) rest s)
         let go := if whole then go else modPort p (fun x => { x with discarding := c :: x.discarding }) go
         if isBlock f then
           let bs := List.replicate (dataLen f) (0 : Byte)
           match ringTake s p f bs [] with
           | .wait => s
           | .mismatch => flitLost p l go
           | .feed e k => lostBlock p e k bs go
         else lostRest p f l go
     | none => s)

end Sys2Proof.Machine
end

