-- ==== Sys2Proof/Machine/Reset.lean ====
section
/-! DEFINITION. Resets and bring-up (19), and the power sequences that end in one (18 R397 to R401). -/

namespace Sys2Proof.Machine

/-! ## Power-on and device reset (R415 to R417, R422) -/

/-- A power-on (`por`) or device reset; `last`: `LAST_RESET` (19 Table 19-4). The state is that of `State.reset` but for what
Table 19-3 keeps; the command queue, what has left the device and the memory of the host are not the device's to clear.
DEDUCED: log entry 112. -/
def resetAll (por : Bool) (last : Nat) (s : State) : State :=
  let s := [Supply.vphy, .vcore, .vsram, .vhbm].foldl (fun s x => disable1 x s) s
  let s := if s.mgt.tripLand then emit (.land "THERM_TRIP_N" true) s else s
  let m := s.mgt
  let t : State := { State.reset with
    pending := s.pending, out := s.out, free := s.free, host := s.host
    mgt := { fuses := m.fuses, flash := m.flash, strap := m.strap, porLow := m.porLow, rstLow := m.rstLow,
             perstLow := m.perstLow, records := m.records, rowRepairs := m.rowRepairs, repairs := m.repairs } }
  let t := setF t Reg.bringup 59 58 last
  if por then t
  else setF (setB t Reg.thermal 62 (getB s Reg.thermal 62)) Reg.coreStatus 62 61 (getF s Reg.coreStatus 62 61)

/-- A device reset waits for a power sequence, a flash program or erase, or a fuse burn (R416). -/
def mustHold (s : State) : Bool :=
  (match s.power.seq with
   | .none | .bringUp => false
   | _ => true) ||
  (match s.mgt.flashOp with
   | some (op, _, _) => decide (op ≤ 1)
   | none => false) || s.mgt.burning.isSome

/-- A device reset acts; leaving STANDBY is one from the management domain on (R415, 18 R398). -/
def resetBy (h : HeldReset) (s : State) : State :=
  match h with
  | .byLand => resetAll false 1 s
  | .byWrite => resetAll false 2 s
  | .leaveStandby src => setF (resetAll false 3 s) Reg.pwrStatus 54 52 (wakeCode src)

/-- Request a device reset; while `POR_N` is low the wider reset acts alone (R415). -/
def deviceReset (h : HeldReset) (s : State) : State :=
  if s.mgt.porLow then s
  else if mustHold s then { s with mgt := { s.mgt with heldReset := s.mgt.heldReset.or (some h) } }
  else resetBy h s

/-- A held device reset acts once nothing holds it. -/
def settleReset (s : State) : State :=
  match s.mgt.heldReset with
  | some h => if mustHold s then s else resetBy h s
  | none => s

/-- POR_N: `POR_N` is low. -/
def execPorN (s : State) : Host.Outcome State Fault Refusal :=
  .next (resetAll true 0 { s with mgt := { s.mgt with porLow := true } })

/-- RST_N: `RST_N` has been low for 10 µs. -/
def execRstN (s : State) : Host.Outcome State Fault Refusal :=
  .next (deviceReset .byLand { s with mgt := { s.mgt with rstLow := true } })

/-- A sideband land is high (21 R454, R456): the resets and the trip are active low, the rail enables and power good active high,
and no rail is enabled from reset on. Levels in volts, currents and hysteresis are the board's: log entry 101.
DEDUCED: log entry 181. -/
def landHigh (s : State) : Sideband → Bool
  | .reset .por => !s.mgt.porLow
  | .reset .rst => !s.mgt.rstLow
  | .reset .perst => !s.mgt.perstLow
  | .addr b => bit s.mgt.strap b.val
  | .enable x => s.power.en.contains x
  | .good x => s.power.pg.contains x
  | .thermTrip => !s.mgt.tripLand

/-- S of the address straps: 2 × `ADDR_S1` + `ADDR_S0` (21 Table 21-4). -/
def strapS (s : State) : Nat := 2 * b2n (landHigh s (.addr 1)) + b2n (landHigh s (.addr 0))

/-- RESET_RELEASE: a reset land goes high; the address straps are sampled behind a power-on reset alone (21 R455).
DESIGN CHOICE: log entry 101. -/
def execResetRelease (l : ResetLand) (straps : Nat) (s : State) : Host.Outcome State Fault Refusal :=
  .next
    (match l with
     | .por => { s with mgt := { s.mgt with porLow := false, strap := if s.mgt.porLow then straps % 4 else s.mgt.strap } }
     | .rst => { s with mgt := { s.mgt with rstLow := false } }
     | .perst => { s with mgt := { s.mgt with perstLow := false } })

/-! ## Host reset (R420) -/

/-- Registers that a host reset returns to their reset value: the HIF and ITK pages, the MBX page's counters and logs, and
the doorbell status (19 Table 19-3). -/
def hostFacing (a : Nat) : Bool :=
  if a = Reg.dbStatus then true
  else if 0x20000000 ≤ a then false
  else
    let t := regType a
    let off := regOff a
    decide (t = .hif) || decide (t = .itk) ||
      (decide (t = .mbx) && !(decide (0x100 ≤ off ∧ off < 0x300)) && off != 0x58)

/-- Empty every channel that has HOST as a party. -/
def emptyHostChannels (s : State) : State :=
  (List.range 64).foldl (fun s ch =>
    if bindValid s ch && (bindSender s ch == 0x01 || bindReceiver s ch == 0x01) then clearChannel ch s else s) s

/-- A host reset. -/
def hostResetAct (s : State) : State :=
  let stop := jobState s == 2 || jobState s == 3 || phase s != 0
  let s := { freeSlot s with next := none }
  let s := if stop then abortAct false s else s
  let s := emptyHostChannels { s with cards := [], intake := [], stashTimeouts := [], heldHost := [] }
  incSat { s with regs := s.regs.filter fun c => !hostFacing c.1 } Reg.bringup 47 32 1

/-- A host reset is requested: while `POR_N` or `RST_N` is low the wider reset acts and this one is discarded (R415). -/
def hostReset (s : State) : State := if s.mgt.porLow || s.mgt.rstLow then s else hostResetAct s

/-- HOST_RESET. -/
def execHostReset (c : HostResetCause) (s : State) : Host.Outcome State Fault Refusal :=
  .next (hostReset (if c = .perstLow then { s with mgt := { s.mgt with perstLow := true } } else s))

/-- A loss of supply: a power-on reset, at event 2 of which the address straps are sampled (R416, 21 R455). Their levels are no
part of the command and free. DESIGN CHOICE: log entry 153. -/
def supplyLoss (s : State) : State :=
  let x := takeFree (resetAll true 0 s)
  { x.2 with mgt := { x.2.mgt with strap := x.1.toNat % 4 } }

/-- PG_FALL: a power-good land that falls while its enable is high is a loss of supply, which is a power-on reset; VAON is
one always, and VPCIE a host reset (R416, 21 R451). -/
def execPgFall (x : Supply) (s : State) : Host.Outcome State Fault Refusal :=
  .next
    (match x with
     | .vaon => supplyLoss s
     | .vpcie => hostReset s
     | _ => if s.power.en.contains x then supplyLoss s else s)

/-! ## Block resets (R421) -/

/-- The instance is disabled; an HBS page by its 64 HBC pages. -/
def blockDisabled (s : State) (t : Blk) (i : Nat) : Bool :=
  if t = .hbs then stackDisabled s i else !getB s (Reg.blkCtrl t i) 63

/-- The types that a block reset reaches. -/
def resettable (t : Blk) : Bool := [Blk.core, .jnc, .mov, .hbs, .rng, .hpb].contains t

/-- A page's registers at their reset values, but for substitutes, maps, channel maps and `LOST` of `BLK_STATUS`.
DEDUCED: log entry 111. -/
def clearPage (t : Blk) (i : Nat) (s : State) : State :=
  let ctrl := rget s (Reg.blkCtrl t i)
  let lost := getB s (Reg.blkStatus t i) 63
  let s' := { s with regs := s.regs.filter fun c =>
    !(decide (c.1 < 0x20000000) && decide (regType c.1 = t) && regInst c.1 == i && !recorded c.1) }
  let s' := setB s' (Reg.blkStatus t i) 63 lost
  if t = .core ∨ t = .jnc ∨ t = .hpb then
    setF (setB s' (Reg.blkCtrl t i) 40 (fld ctrl 40 40 == 1)) (Reg.blkCtrl t i) 39 32 (fld ctrl 39 32)
  else s'

/-- The stack in which a device address lies (11 R232). -/
def stackOf (s : State) (a : Nat) : Nat := (locate s a).inst / 64

/-- The contents of a stack as nothing had been written there: they are undefined (R421). -/
def clearStack (i : Nat) (s : State) : State :=
  { s with hbm := s.hbm.filter fun c => stackOf s c.1 != i, chk := s.chk.filter fun c => stackOf s (c.1 / 8 * 64) != i,
           unbuilt := s.unbuilt.filter (fun c => c / 64 != i), mended := s.mended.filter fun a => stackOf s a != i,
           scrubbed := s.scrubbed.filter fun a => stackOf s a != i }

/-- What a block reset does beyond its page: a core's scratchpad is zeroed, a stack's contents are undefined, a bank's
counts and a ring engine's queues are cleared, the packets of its ports discarded (R421, 10 R227, 02 R34). -/
def clearBlock (t : Blk) (i : Nat) (s : State) : State :=
  match t with
  | .core => clearCore i s
  | .hbs =>
    let s := (List.range 64).foldl (fun s c => clearPage .hbc (64 * i + c) s) s
    showMaps (clearStack i s)
  | .rng => { setRing i {} s with ports := s.ports.mapIdx fun p x => if p / 2 = i then discardPort x else x }
  | .hpb =>
    if getB s (Reg.blkCtrl .hpb i) 40 then
      let l := getF s (Reg.blkCtrl .hpb i) 39 32
      { s with passes := cellClear (1024 * l) 1024 s.passes, waiters := cellClear (1024 * l) 1024 s.waiters }
    else s
  | _ => s

/-- A write of `BLOCK_GO`; `TYPE` and `INSTANCE` are already written (R421). -/
def blockGoAct (s : State) : State :=
  let t := blkOf (getF s Reg.resetCtrl 27 24)
  let i := getF s Reg.resetCtrl 15 0
  if resettable t && decide (i < built t) && blockDisabled s t i && !jobActive s then
    let s := clearPage t i (clearBlock t i s)
    setB (incSat s Reg.resetStatus 15 0 1) Reg.resetStatus 62 true
  else alert 0x1301 (setB s Reg.resetStatus 63 true)

/-- BLOCK_RESET_DONE. -/
def execBlockResetDone (s : State) : Host.Outcome State Fault Refusal :=
  .next (if getB s Reg.resetStatus 62 then setB (setB s Reg.resetStatus 62 false) Reg.resetStatus 61 true else s)

/-! ## Bring-up (R417 to R419, R464) -/

/-- A pseudo-channel fails training: it is lost (R418, 11 R251), which the repair records note. -/
def trainingLoss (i : Nat) (s : State) : State :=
  let x := loseChannel i s
  let s := x.2.foldl (fun s e => raiseFree e s) x.1
  { s with mgt := { s.mgt with records := if s.mgt.records.contains (6, i) then s.mgt.records else s.mgt.records ++ [(6, i)] } }

/-- An HBS reset runs: its stack trains again (R421, 11 R253). -/
def retrains (s : State) : Bool :=
  getB s Reg.resetStatus 62 && getB s Reg.bringup 61 && blkOf (getF s Reg.resetCtrl 27 24) == .hbs

/-- A stack has trained again after its reset: channels that fail are lost, lanes are repaired; a stack that does not train
puts the device out of service (11 R251, R418). -/
def retrained (t : HbmTraining) (i : Nat) (s : State) : State :=
  let s := (t.lost.filter (· / 64 == i)).foldl (fun s k => trainingLoss k s) s
  let s := (t.lanesRepaired.filter (·.1 / 64 == i)).foldl (fun s l => setF s (Reg.hbcState l.1) 39 32 l.2) s
  if t.untrained.contains i then outOfService s else s

/-- HBM_TRAINED: event 8 of Table 19-2 (R418, R464), or the end of a stack's training after its reset. -/
def execHbmTrained (t : HbmTraining) (s : State) : Host.Outcome State Fault Refusal :=
  .next
    (if retrains s then retrained t (getF s Reg.resetCtrl 15 0) s
     else if bootState s != 1 || s.mgt.tripped || s.power.seq != .none || getB s Reg.bringup 61 ||
        !(s.power.pg.contains .vphy && s.power.pg.contains .vhbm) then s
     else
      let old := (s.mgt.records.filter fun r => r.1 == 6).map (·.2)
      let s := (t.lost ++ old).foldl (fun s i => trainingLoss i s) s
      let s := t.lanesRepaired.foldl (fun s l => setF s (Reg.hbcState l.1) 39 32 l.2) s
      let s := setB s Reg.bringup 61 true
      match t.untrained, bestProfile s 0 with
      | [], some q => noteRepairs s (putChannels true q s)
      | _, _ => outOfService s)

/-- READY: event 11 of Table 19-2, behind events 7, 8 and 10 (R417). The device is in IDLE, and its districts gate again
(18 Tables 18-2, 18-4); a job that waits takes it to RUN. The opens of event 12 begin (R419). DEDUCED: log entry 133. -/
def execReady (us : Nat) (s : State) : Host.Outcome State Fault Refusal :=
  .next
    (if getB s Reg.bringup 63 || !getB s Reg.bringup 61 || !getB s (Reg.lock .mbx 0) 0 || s.power.seq != .none then s
     else
      let s := openPairs [0, 1, 2] (setF (setB s Reg.bringup 63 true) Reg.bringup 31 0 us)
      if s.mgt.tripped || pwrState s != 1 then s
      else if runNeeded s then runJob (restIdle s) else restIdle s)

/-! ## Sequences that end (18 R397 to R401) -/

/-- Leave STANDBY: a device reset, bring-up from the management domain on (R398, 19 Table 19-1, R416). -/
def leaveStandby (src : WakeSource) (s : State) : State := deviceReset (.leaveStandby src) s

/-- A wake request in any state (R401). -/
def wakeAny (src : WakeSource) (s : State) : State :=
  if pwrState s = 3 ∧ s.power.seq = .none then
    (if wakesFrom 3 src && wakeEnabled s src then leaveStandby src s else s)
  else wakeUp src s

/-- The held request at the end of an entry: the restore begins at once, whatever source the wake has (R399). -/
def heldAfterEntry (s : State) : State :=
  match takeHeld s with
  | (some (.wake src), s) =>
    if pwrState s = 3 then leaveStandby src s else beginRestore src s
  | (_, s) => s

/-- ENTRY_SEQUENCE_COMPLETE (R397, R399). -/
def execEntrySequenceComplete (s : State) : Host.Outcome State Fault Refusal :=
  .next
    (if s.power.seq = .enterSleep ∨ s.power.seq = .enterStandby then
      let s := setSeq .none (domainsOff (decide (s.power.seq = .enterStandby)) s)
      if s.mgt.heldReset.isSome then settleReset s else heldAfterEntry s
     else s)

/-- RESTORE_COMPLETE (R398, R399). -/
def execRestoreComplete (s : State) : Host.Outcome State Fault Refusal := .next (settleReset (restoreEnd s))

/-- RAIL_FAIL (18 Table 18-9). -/
def execRailFail (s : State) : Host.Outcome State Fault Refusal := .next (settleReset (railFail s))

/-- WAKE_REQUEST (R401). -/
def execWakeRequest (src : WakeSource) (s : State) : Host.Outcome State Fault Refusal := .next (wakeAny src s)

/-- NOLOC_ACTIVITY: ignored while the port's Underpass is closed (12 R282). -/
def execNolocActivity (p : Nat) (s : State) : Host.Outcome State Fault Refusal :=
  .next (if getB s (Reg.underpass p) 0 then wakeAny (.noloc p) s else s)

/-- LOMRA_WAKE_PATTERN (12 R282). -/
def execLomraWakePattern (p : Nat) (s : State) : Host.Outcome State Fault Refusal := .next (wakeAny (.lomra p) s)

/-- PCIE_D0 (18 Table 18-5). -/
def execPcieD0 (s : State) : Host.Outcome State Fault Refusal := .next (wakeAny .pcie s)

/-- I2C_ADDRESS_MATCH: the management port answers at 0x58 + S, and a match while the sampling clock is stopped wakes the
device; the debug port answers at 0x60 while
the MGMT domain is on (17 R385, 21 R457). -/
def execI2cAddressMatch (a : Nat) (s : State) : Host.Outcome State Fault Refusal :=
  .next
    (if a = 0x58 + strapS s then emit (.i2cAck true) (if s.power.oscillator then s else wakeAny .i2c s)
     else emit (.i2cAck (decide (a = 0x60 ∧ pwrState s ≠ 3))) s)

/-- FLASH_DONE (17 R389). -/
def execFlashDone (s : State) : Host.Outcome State Fault Refusal := .next (settleReset (flashEnd s))

/-- FUSE_BURN_DONE (17 R382). -/
def execFuseBurnDone (s : State) : Host.Outcome State Fault Refusal := .next (settleReset (burnEnd s))

end Sys2Proof.Machine
end

