-- ==== Sys2Proof/Machine/JobCtl.lean ====
section
/-! DEFINITION. `START` and `HALT` (03 R47, R48, R72; 05 R114; 14 R334; 18 R394). -/

namespace Sys2Proof.Machine

/-- `START` is not acted on: a job is active (R47), the device is out of service (19 R418), or its core domain is off and
nothing brings it back. -/
def startIgnored (s : State) : Bool :=
  jobActive s || getB s Reg.bringup 62 || s.mgt.tripped || (decide (s.power.seq = .none) && (pwrState s == 2 || pwrState s == 3))

/-- What `START` latches and clears (R47, 05 R114, 06 R141, 14 R334, 18 R412). A `START` at `PHASE` REFILLED continues the job
over its restart; any other begins a new one (14 Table 14-5). DEDUCED: log entry 78.
DESIGN CHOICE: log entry 177. -/
def startLatch (s : State) : State :=
  let again := phase s == 7
  let job : Job :=
    { ttBase := getF s Reg.jobTtBase 47 8 * 256, seed := rget s Reg.jobSeed, wsBase := getF s Reg.wsBase 47 13 * 8192
      startStep := getF s Reg.jobCtrl 31 0, stashCfg := rget s Reg.stashCfg, stashQuota := rget s Reg.stashQuota
      stalls := if again then s.job.stalls else [] }
  let s := if again then s
    else setF (setF { s with unitFaults := [], ueGroups := [] } Reg.restartStatus 31 16 0) Reg.restartStatus 47 32 0
  let s := setPhase 0 s
  let s := setF s Reg.lockerState 31 0 ((job.startStep + 2 ^ 32 - 1) % 2 ^ 32)
  let s := if getB s Reg.voltPolicy 63 then leaveManual s else s
  let s := clearDataPath s
  setJobState 1 { s with
    job := job, streams := [], step := {}, next := none
    census := { s.census with runs := [], alerted := [], counts := [], totals := {} }
    locker := { s.locker with holder := some (rget s (Reg.peerId 1)) } }

/-- The restore that a `START` in IDLE needs (18 R394, R399). -/
def startPower (s : State) : State :=
  if pwrState s = 0 ∧ s.power.seq = .none then s
  else
    let s := { s with job := { s.job with startHeld := true } }
    match s.power.seq with
    | .none => if pwrState s = 1 then beginRun .start s else s
    | .bringUp => s
    | _ => setHeld (some (.wake .start)) s

/-- A write of `START`. DEDUCED: log entry 20. -/
def startAct (s : State) : State := if startIgnored s then s else startPower (startLatch s)

/-- A write of `HALT` (R72): at once with no step running, else when the running step has ended; a pending step is
then discarded. DEDUCED: log entry 19. -/
def haltAct (s : State) : State :=
  match jobState s with
  | 1 => { s with job := { s.job with haltWanted := true } }
  | 2 | 3 =>
    if s.step.active then { s with job := { s.job with haltWanted := true } }
    else toHalted (discardPending s)
  | _ => s

end Sys2Proof.Machine
end

