-- ==== Sys2Proof/Machine/Pages.lean ====
section
/-! DEFINITION. Register accesses (20): the access path, rights, access codes, the writes with effects of their own, aliases
and reads; BAR2's status registers (16); the debug page (R443). -/

namespace Sys2Proof.Machine

/-! ## Rights (R427, Table 20-2) -/

/-- A write of the whole register is refused to the master. -/
def wholeDenied (s : State) (m : Master) (t : Blk) (off : Nat) : Bool :=
  match t with
  | .hif => decide (0x1000 ≤ off ∧ off < 0x1400) && m != .host
  | .mbx => decide (0x100 ≤ off ∧ off < 0x300) && !isMgt m
  | .mgt => off == 0x108 && !isActiveMgt s m
  | .glb => decide (0x4000 ≤ off ∧ off < 0x8000) && m != .host && !isMgt m
  | .dbg => decide (0x100 ≤ off) && m != .host && !isMgt m && m != .dbg
  | _ => false

/-- Fields that the master may not write: (hi, lo, WO). -/
def deniedFields (m : Master) (t : Blk) (off : Nat) : List (Nat × Nat × Bool) :=
  if off = 0x010 ∧ !isMgt m then [(63, 63, false), (61, 60, false), (40, 40, false), (39, 32, false)]
  else if t = .nlp ∧ off = 0x120 ∧ !isMgt m then [(63, 63, true), (62, 62, true)]
  else if t = .mgt ∧ off = 0x400 then
    (if isMgt m then [] else [(62, 62, true)]) ++ (if m = .host ∨ isMgt m then [] else [(63, 63, true)])
  else []

/-- The denied fields that the page has. -/
def deniedHere (m : Master) (t : Blk) (off : Nat) : List (Nat × Nat × Bool) :=
  (deniedFields m t off).filter fun d => (regFields t off).any fun f => f.hi == d.1 && f.lo == d.2.1

/-- The write carries a change in a denied field. -/
def carriesDenied (s : State) (m : Master) (t : Blk) (i off : Nat) (v : W64) : Bool :=
  (deniedHere m t off).any fun d =>
    if d.2.2 then fld v d.1 d.2.1 == 1 else fld v d.1 d.2.1 != getF s (reg t i off) d.1 d.2.1

/-- `DENIED` (R427, R441). -/
def countDenied (s : State) : State :=
  alert 0x1402 (incSat (setB s Reg.bar0Status 62 true) Reg.bar0Status 31 16 1)
/-- `MALFORMED` and `UNMAPPED` (R425, R426, R441). -/
def countMalformed (s : State) : State :=
  alert 0x1403 (incSat (setB s Reg.bar0Status 63 true) Reg.bar0Status 47 32 1)
def countUnmapped (s : State) : State :=
  alert 0x1403 (incSat (setB s Reg.bar0Status 61 true) Reg.bar0Status 15 0 1)
/-- `OFF_ACCESSES` (18 R396). -/
def countOff (s : State) : State := incSat s Reg.pwrStatus 15 0 1

/-! ## Fields (00 Table 00-3) -/

/-- Whether a field takes a write in the present state. -/
def fieldOpen (s : State) (t : Blk) (i off : Nat) (f : Field) : Bool :=
  if off = 0x010 then
    if f.lo = 63 ∨ f.lo = 60 then !jobActive s
    else !jobActive s && !getB s (Reg.blkCtrl t i) 63
  else match t with
    | .glb =>
      if off = 0x200 ∨ off = 0x208 ∨ off = 0x220 ∨ off = 0x210 ∨ off = 0x230 ∨ off = 0x238 ∨ off = 0x260 ∨ off = 0x278 ∨
          (0x280 ≤ off ∧ off < 0x2A0) then !jobActive s
      else if 0x4000 ≤ off ∧ off < 0x8000 then !getB s (Reg.lock .glb 0) 0
      else true
    | .core => if off = 0x100 ∨ (off = 0x128) then !getB s (Reg.blkCtrl .core i) 63 else true
    | .hbs => if 0x100 ≤ off ∧ off < 0x140 then stackDisabled s i else true
    | .nlp => if off = 0x100 ∧ f.lo = 0 ∧ f.acc = .rw then !jobActive s else true
    | .rng => if off = 0x100 then !jobActive s else true
    | .hif => if off = 0x128 then cardCfgOpen s else true
    | .mgt => if off = 0x300 ∨ off = 0x308 ∨ off = 0x310 then !jobActive s else true
    | _ => true

/-- Bits of group mask words at or above the built count are reserved (20 Table 20-10). -/
def groupBits (off : Nat) : Nat :=
  let t := blkOf ((off - 0x4000) / 0x400)
  min 64 (built t - (off / 8 % 8) * 64)

/-- Write one field by its access code (00 R5 to R7). -/
def writeField (a : Nat) (v : W64) (f : Field) (s : State) : State :=
  match f.acc with
  | .rw => if f.least ≤ fld v f.hi f.lo ∧ fld v f.hi f.lo ≤ f.most then setF s a f.hi f.lo (fld v f.hi f.lo) else s
  | .w1c => if fld v f.lo f.lo = 1 then setB s a f.lo false else s
  | .rwo => if fld v f.lo f.lo = 1 then setB s a f.lo true else s
  | .ro | .wo | .rc => s

/-- The fields of a register that a master's write reaches now. -/
def openFields (s : State) (m : Master) (t : Blk) (i off : Nat) : List Field :=
  (regFields t off).filter fun f =>
    fieldOpen s t i off f && !(deniedHere m t off).any fun d => d.1 == f.hi && d.2.1 == f.lo

/-- Write a register's fields. -/
def writeFields (m : Master) (t : Blk) (i off : Nat) (v : W64) (s : State) : State :=
  let v := if t = .glb ∧ 0x4000 ≤ off ∧ off < 0x8000 then v &&& BitVec.ofNat 64 (2 ^ groupBits off - 1) else v
  (openFields s m t i off).foldl (fun s f => writeField (reg t i off) v f s) s

/-! ## Writes with effects of their own -/

/-- `BLK_CTRL` of an instance (R431): a lost instance stays disabled; a core's bank pairs follow its power request, and its
scratchpad is zeroed as its enable returns (10 R226). DESIGN CHOICE: log entry 161. -/
def ctrlWrite (m : Master) (t : Blk) (i : Nat) (v : W64) (s : State) : State :=
  let a := Reg.blkCtrl t i
  let was := getB s a 63
  let s := writeFields m t i 0x010 v s
  let s := if !was && getB s a 63 && getB s (Reg.blkStatus t i) 63 then setB s a 63 false else s
  if t = .core then
    if !was && getB s a 63 then allPairs i 0 (clearCore i s)
    else if !getB s a 63 ∧ getF s a 61 60 = 2 then allPairs i 2 (clearCore i s)
    else s
  else s

/-- The keys of drains. -/
def noDrain : Nat → Bool := fun _ => false
def drainKey (t : Blk) (i : Nat) : Nat := blkCode t * 512 + i

/-- Waiting cards, each by the `SEQ` that it will take. -/
def futureSeqs (k : Nat) : Nat → Nat → List (Nat × Nat × Nat × Nat)
  | _, 0 => []
  | q, n + 1 => (k, 0, 0, nextSeq q) :: futureSeqs k (nextSeq q) n

/-- What is in progress in an instance: its entries in flight, of the intake the entries in transfer, of the PCIe crossing the
cards that wait, and of an HBM crossing the packets behind its stopped clock (R431, 02 R34). -/
def inProgress (s : State) (t : Blk) (i : Nat) : List (Nat × Nat × Nat × Nat) :=
  let k := drainKey t i
  if t = .itk then
    ((List.range 16).map fun r => (inTransfer s r).map fun e => (k, 0, r, ieField e.raw 0x18 4)).flatten
  else if t = .hif then futureSeqs k (getF s Reg.cardSeq 31 0) s.cards.length
  else if t = .hbc then (if (crossingAt s .hbc i).wake then [(k, 0, 0, 0)] else [])
  else
    ((List.range s.streams.length).map fun st =>
      let x := s.streams.getD st { kind := 0, unit := 0, entries := [] }
      if kindBlk x.kind = t ∧ streamInst s x = i then
        (x.inflight.filter fun f => !f.done).map fun f => (k, stepNo s, st, f.idx)
      else []).flatten

/-- A write of `DRAIN`: what is in progress now is to end, of a port the packets that its crossing holds are to be delivered, and of
a ring engine the transfers that are queued (R431, 02 R34). DEDUCED: log entry 93. -/
def drainAct (t : Blk) (i : Nat) (s : State) : State :=
  let s := if t = .nlp then
      modPort i (fun x => { x with drainTx := classCounts x.txq, drainRx := classCounts x.rxq }) s
    else if t = .rng then setRing i { ringAt s i with drainq := (ringAt s i).sendq } s
    else s
  let s := { s with drainHeld := s.drainHeld.filter (fun (d : Nat × Nat × Nat × Nat) => d.1 != drainKey t i) ++ inProgress s t i }
  setB { s with drains := cellSet noDrain s.drains (drainKey t i) true } (Reg.blkStatus t i) 60 false

/-- A write of `MGT_RESET_CTRL`'s action bits, `DEVICE` first. -/
def resetCtrlAct (m : Master) (v : W64) (s : State) : State :=
  if fld v 63 63 = 1 ∧ (m = .host ∨ isMgt m) then deviceReset .byWrite s
  else if fld v 62 62 = 1 ∧ isMgt m then blockGoAct s
  else s

/-- A power request by `GO` (18 R394, Table 18-8). -/
def powerGo (s : State) : State :=
  match getF s Reg.pwrCtrl 33 32 with
  | 2 => powerRequest false s
  | 3 => powerRequest true s
  | _ => wakeAny .qormanan s

/-- A write of `GO` in `DBG_MEM_CTRL` (R443). -/
def debugGo (s : State) : State :=
  if getB s (Reg.lock .dbg 0) 0 then setB s Reg.dbgCtrl 60 true
  else if getB s Reg.dbgCtrl 62 then s
  else setB s Reg.dbgCtrl 62 true

/-- `REARM` (11 Table 11-9). -/
def rearmAct (i : Nat) (s : State) : State := setF s (Reg.hbcCeLimit i) 62 32 0

/-- `RETRAIN` and `FAST_RETRAIN` (12 R264). A disabled link layer trains when its role allows. -/
def retrainAct (p : Nat) (s : State) : State := if pwrState s ≤ 1 then fullTraining p s else s

/-- The action bits of a register, after its fields; `START` before `HALT`. DESIGN CHOICE: log entry 146. -/
def writeActions (m : Master) (t : Blk) (i off : Nat) (v : W64) (s : State) : State :=
  let on := fun (b : Nat) => fld v b b == 1
  let act := fun (b : Nat) (f : State → State) (s : State) => if on b then f s else s
  if off = 0x010 then act 62 (drainAct t i) s
  else match t with
    | .glb =>
      if off = 0x210 then act 62 haltAct (act 63 startAct s)
      else if off = 0x250 then act 63 fillStart s
      else if off = 0x268 then act 62 restartAct (act 63 (abortAct true) s)
      else if off = 0x2A8 then act 59 forceAct s
      else s
    | .dst => if off = 0x108 then act 63 (lowRearmAct i) s else s
    | .hbc => if off = 0x128 then act 63 (rearmAct i) s else s
    | .nlp =>
      if off = 0x100 then act 62 (startFast i) (act 63 (retrainAct i) s)
      else if off = 0x120 ∧ isMgt m then act 62 (doClose (i / 2)) (act 63 (doOpen (i / 2)) s)
      else s
    | .mgt =>
      if off = 0x100 then act 57 (fun s => if isActiveMgt s m then coreFault 3 s else s) s
      else if off = 0x110 then act 56 svnAct s
      else if off = 0x120 then act 63 flashGo s
      else if off = 0x200 then act 63 powerGo s
      else if off = 0x400 then resetCtrlAct m v s
      else s
    | .dbg => if off = 0x100 then act 63 debugGo s else s
    | _ => s

/-- A write of `GLB_HBM_CFG`: ignored while any HBC page is enabled; N follows `PROFILE` (11 R257). -/
def hbmCfgWrite (v : W64) (s : State) : State :=
  if hbmDisabled s then
    let s := if fld v 23 20 ≤ 2 then setF s Reg.hbmCfg 23 20 (fld v 23 20) else s
    if fld v 19 16 ≤ 4 then showMaps (setProfile (fld v 19 16) s) else s
  else s

/-- A write that clears `VALID` of `GLB_FAULT`-style logs and interrupt bits can raise or rest a vector (15 R356). -/
def intWrite (m : Master) (t : Blk) (i off : Nat) (v : W64) (s : State) : State :=
  irqEdge s (writeFields m t i off v s) t i

/-- What a write of `DBG_FIFO_SEL` puts: a `TYPE` that names no crossing leaves the field as it was (R443, 00 R6). -/
def selValue (s : State) (v : W64) : W64 :=
  if fifoLanes (fld v 35 32) = 0 then setFld v 35 32 (getF s Reg.dbgSel 35 32) else v

/-- A write of a page's register, behind the checks of the access path (R427 to R435). DESIGN CHOICE: log entry 163. -/
def writePage (m : Master) (t : Blk) (i off : Nat) (v : W64) (s : State) : State :=
  if wholeDenied s m t off then countDenied s
  else
    let s := if carriesDenied s m t i off v then countDenied s else s
    if off = 0x020 ∨ off = 0x028 then intWrite m t i off v s
    else if off = 0x010 then writeActions m t i off v (ctrlWrite m t i v s)
    else match t with
      | .glb =>
        if 0x1000 ≤ off ∧ off < 0x2000 ∧ off % 8 = 0 then
          (if off / 8 % 2 = 0 then regionWrite0 ((off - 0x1000) / 16) v s else regionWrite1 ((off - 0x1000) / 16) v s)
        else if off = 0x258 then hbmCfgWrite v s
        else writeActions m t i off v (writeFields m t i off v s)
      | .hif =>
        if 0x1000 ≤ off ∧ off < 0x1400 ∧ off % 8 = 0 then
          (if off / 8 % 2 = 0 then hwtWrite0 ((off - 0x1000) / 16) v s else hwtWrite1 ((off - 0x1000) / 16) v s)
        else if off = 0x120 then cardCfgWrite v s
        else writeFields m t i off v s
      | .itk =>
        if 0x100 ≤ off ∧ off < 0x200 ∧ off % 8 = 0 then
          (if off / 8 % 2 = 0 then ringCfgWrite ((off - 0x100) / 16) v s else tailWrite ((off - 0x100) / 16) v s)
        else writeFields m t i off v s
      | .mbx =>
        if 0x100 ≤ off ∧ off < 0x300 ∧ off % 8 = 0 then bindWrite ((off - 0x100) / 8) v s else writeFields m t i off v s
      | .mgt =>
        if off = 0x210 then policyWrite v s
        else if off = 0x228 then vsetWrite v s
        else writeActions m t i off v (writeFields m t i off v s)
      | .dbg => writeActions m t i off v (writeFields m t i off (if off = 0x118 then selValue s v else v) s)
      | .hbs =>
        if 0x100 ≤ off ∧ off < 0x140 then showMaps (writeFields m t i off (chmapValue s i ((off - 0x100) / 8) v) s)
        else writeFields m t i off v s
      | _ => writeActions m t i off v (writeFields m t i off v s)

/-! ## The access path (R425, R426, R436, 18 R396) -/

/-- HIF offsets that also accept 32-bit accesses (R426). -/
def shortOk (a : Nat) : Bool := a / 0x10000 == blkCode .hif * 0x200 && decide (0x7F00 ≤ a % 0x10000)

/-- A register access is well formed (R426). -/
def accessOk (a size : Nat) : Bool :=
  (size == 8 && a % 8 == 0) || (size == 4 && a % 4 == 0 && shortOk a)

/-- The word that a 32-bit write makes of the register's other half. -/
def widen (s : State) (a size : Nat) (v : W64) : W64 :=
  if size = 4 then
    let old := rget s (a / 8 * 8)
    if a % 8 = 4 then setFld old 63 32 (fld v 31 0) else setFld old 31 0 (fld v 31 0)
  else v

/-- Instances that an alias marks: 0x1FF all built, 0x1F0 + g those of group mask g (R436). -/
def aliasMember (s : State) (t : Blk) (al i : Nat) : Bool :=
  al == 0x1FF || getB s (Reg.groupMask t (al - 0x1F0) (i / 64)) (i % 64)

/-- The enabled members of an alias, in increasing order (R436). DEDUCED: log entry 110. -/
def aliasMembers (s : State) (t : Blk) (al : Nat) : List Nat :=
  (List.range (built t)).filter fun i =>
    aliasMember s t al i && !domainOff s t && !getB s (Reg.blkStatus t i) 63

/-- An alias write reaches every enabled member in increasing order (R437). -/
def aliasPut (m : Master) (t : Blk) (al off : Nat) (v : W64) (s : State) : State :=
  (aliasMembers s t al).foldl (fun s i => writePage m t i off v s) s

/-- A register write from the bus. DEDUCED: log entry 14. -/
def busWrite (m : Master) (a size : Nat) (v : W64) (s : State) : State :=
  let t := regType a
  let i := regInst a
  let off := regOff a / 8 * 8
  if refusedMaster s m then coreRefused m true s
  else if !accessOk a size then countMalformed s
  else if 0x1F0 ≤ i then aliasPut m t i off v s
  else if built t ≤ i then countUnmapped s
  else if domainOff s t then countOff s
  else writePage m t i off (widen s a size v) s

/-- A write of one instance's register by its name. -/
def regWrite (m : Master) (t : Blk) (i off : Nat) (v : W64) (s : State) : State :=
  busWrite m (blkCode t * 0x2000000 + i * 0x10000 + off) 8 v s

/-- The word with an action bit set. -/
def withBit (b : Nat) (v : W64) : W64 := v ||| BitVec.ofNat 64 (2 ^ b)

/-! ## Reads -/

/-- What a peek meets at the head of a crossing FIFO: no such FIFO or lane, an empty FIFO, a word whose bits no rule gives (a
length slot, or a word of a crossing whose packets the spec does not lay out), or the lane of a flit. -/
inductive FifoHead where
  | noLane
  | empty
  | hidden
  | word (v : W64)
deriving DecidableEq, Repr

/-- The packet whose first word is the oldest of a port's crossing is committed (02 R32). -/
def headCommitted (x : Port) (toCore : Bool) (f : Flit) : Bool :=
  !toCore || !(f.typ == 2 || f.typ == 4 || f.typ == 5) || (wholeTransfer x f.cls).isSome

/-- The head of a port's crossing: the length slot before a packet of which nothing has been taken, else its next flit; a packet
that is not committed is not seen (02 R32). DEDUCED: log entry 92. -/
def portHead (s : State) (p : Nat) (toCore : Bool) (lane : Nat) : FifoHead :=
  match portFlits s p toCore with
  | [] => .empty
  | f :: _ =>
    if f.typ = 3 ∨ f.typ = 7 then .word (BitVec.ofNat 64 (leAt (flitWire f) (8 * lane) 8))
    else if headCommitted (port s p) toCore f then .hidden else .empty

/-- The head word of the selected crossing FIFO (R443): words wait behind a pseudo-channel's stopped clock (02 R40), and toward the
PCIe core while cards wait. DEDUCED: log entry 92. -/
def fifoPeek (s : State) : FifoHead :=
  let ty := getF s Reg.dbgSel 35 32
  let i := getF s Reg.dbgSel 24 16
  let lane := getF s Reg.dbgSel 4 0
  let toCore := getB s Reg.dbgSel 8
  if lane < fifoLanes ty ∧ i < built (blkOf ty) then
    if ty = 7 then portHead s i toCore lane
    else if !toCore && (ty == 6 && (crossingAt s .hbc i).wake || ty == 10 && !s.cards.isEmpty) then .hidden
    else .empty
  else .noLane

/-- A peek: the value, a free one for a word that no rule lays out, with `EMPTY_READ` in the owning page for an empty FIFO (02
R39). -/
def peek (s : State) : W64 × State :=
  match fifoPeek s with
  | .noLane => (0, s)
  | .empty => (0, setInt (blkOf (getF s Reg.dbgSel 35 32)) (getF s Reg.dbgSel 24 16) 1 s)
  | .hidden => takeFree s
  | .word v => (v, s)

/-- Clear the RC fields of a register (00 Table 00-3). DESIGN CHOICE: log entry 156. -/
def clearRc (t : Blk) (i off : Nat) (s : State) : State :=
  (regFields t off).foldl (fun s f => if f.acc = .rc then setF s (reg t i off) f.hi f.lo 0 else s) s

/-- What a read of one instance returns, and the state behind it. -/
def readPage (t : Blk) (i off : Nat) (s : State) : W64 × State :=
  if t = .dbg ∧ off = 0x120 then peek s else (regView s t i off, clearRc t i off s)

/-- An alias read: the OR over the enabled members, without side effects; `BLK_ID` and `BLK_CAP` are the alias's own (R438). -/
def aliasView (s : State) (t : Blk) (al off : Nat) : W64 :=
  if off = 0 then idView s t al
  else if off = 8 then capView t
  else (aliasMembers s t al).foldl (fun v i =>
    v ||| (if t = .dbg ∧ off = 0x120 then (match fifoPeek s with
      | .word x => x
      | .hidden => Config.freeWord s.free
      | .empty | .noLane => 0) else regView s t i off)) 0

/-- The half of a word that a 32-bit read returns. -/
def narrow (a size : Nat) (v : W64) : W64 :=
  if size = 4 then BitVec.ofNat 64 (if a % 8 = 4 then fld v 63 32 else fld v 31 0) else v

/-- A read of `GLB_WATCHDOG` shows `ELAPSED` of the running step, from the clock (03 R67). -/
def elapsedAt (t : Blk) (off : Nat) (s : State) : State := if t = .glb ∧ off = 0x228 then showElapsed s else s

/-- A register read from the bus: the value and the state behind it. -/
def busRead (m : Master) (a size : Nat) (s : State) : State :=
  let t := regType a
  let i := regInst a
  let off := regOff a / 8 * 8
  if refusedMaster s m then coreRefused m false s
  else if !accessOk a size then emit (.read 0) (countMalformed s)
  else if 0x1F0 ≤ i then emit (.read (aliasView (elapsedAt t off s) t i off)) (elapsedAt t off s)
  else if built t ≤ i then emit (.read 0) (countUnmapped s)
  else if domainOff s t then emit (.read (regView s t i off)) (countOff s)
  else
    let x := readPage t i off (elapsedAt t off s)
    emit (.read (narrow a size x.1)) x.2

/-! ## BAR2 (16 R360, R361, R364, Tables 16-4 to 16-6) -/

/-- A BAR2 read of a doorbell or channel register other than the receive registers. -/
def bar2Status (m : Master) (off : Nat) (s : State) : W64 × State :=
  if off < 0x1000 then
    (if off = 8 then (rget s Reg.dbStatus, setF s Reg.dbStatus 47 32 0) else (0, s))
  else if 0x10000 ≤ off ∧ off < 0x50000 then
    let ch := (off - 0x10000) / 0x1000
    let o := off % 0x1000
    if ch < 56 then
      (if o = 0x10 then (mbStatusView s ch, setF s (Reg.mbStatus ch) 47 32 0)
       else if o = 0x18 then (rget s (Reg.mbRejLog ch), s)
       else (0, s))
    else
      let w := wordCh s ch
      let a := wordSide s ch m
      if o = 0x10 then
        (wqStatusView s ch m, match a with
          | some a => setWord ch (w.setSide a { w.side a with rejects := 0 }) s
          | none => s)
      else if o = 0x18 then ((w.side (a.getD true)).rejLog, s)
      else (0, s)
  else (0, s)

/-- The channel or doorbell windows, where an access must be one aligned 64-bit access (16 R361). -/
def inWindow (off : Nat) : Bool := decide (off < 0x1000) || decide (0x10000 ≤ off ∧ off < 0x50000)

/-- A BAR2 read; a receive register's read is that of its own command. -/
def bar2Read (m : Master) (off size : Nat) (s : State) : State :=
  let ok := size == 8 && off % 8 == 0
  if refusedMaster s m then coreRefused m false s
  else if !inWindow off then emit (.read 0) s
  else if !ok then mailMalformed false s
  else if 0x10000 ≤ off ∧ off % 0x1000 = 8 then
    let ch := (off - 0x10000) / 0x1000
    match (if ch < 56 then execMbRx m ch true s else execWqRx m ch true s) with
    | .next s' => s'
    | _ => s
  else
    let x := bar2Status m off s
    emit (.read x.1) x.2

/-- Clear W1C bits of a word-queue side's status. -/
def wqClear (v : W64) (x : WordSide) : WordSide :=
  { x with overrun := x.overrun && fld v 63 63 == 0, emptyRead := x.emptyRead && fld v 62 62 == 0 }

/-- A BAR2 write; transmit registers and the doorbell are those of their own commands. DEDUCED: log entry 108. -/
def bar2Write (m : Master) (off size : Nat) (v : W64) (s : State) : State :=
  let ok := size == 8 && off % 8 == 0
  let run := fun (o : Host.Outcome State Fault Refusal) => match o with
    | .next s' => s'
    | _ => s
  if refusedMaster s m then coreRefused m true s
  else if !inWindow off then s
  else if !ok then mailMalformed true s
  else if off < 0x1000 then
    (if off = 0 then run (execDbStep m v true s)
     else if off = 8 ∧ fld v 62 62 = 1 then setB s Reg.dbStatus 62 false
     else s)
  else
    let ch := (off - 0x10000) / 0x1000
    let o := off % 0x1000
    if o = 0 then (if ch < 56 then run (execMbTx m ch v true s) else run (execWqTx m ch v true s))
    else if o = 0x10 then
      (if ch < 56 then (if fld v 62 62 = 1 then setB s (Reg.mbStatus ch) 62 false else s)
       else match wordSide s ch m with
        | some a => setWord ch ((wordCh s ch).setSide a (wqClear v ((wordCh s ch).side a))) s
        | none => s)
    else s

/-! ## Commands of the register pages -/

/-- REGISTER_WRITE (00 R7, R425 to R428). -/
def execRegisterWrite (m : Master) (bar2 : Bool) (addr size : Nat) (v : W64) (s : State) :
    Host.Outcome State Fault Refusal :=
  .next (if bar2 then bar2Write m addr size v s else busWrite m addr size v s)

/-- RC_READ (00 R7). -/
def execRcRead (m : Master) (bar2 : Bool) (addr size : Nat) (s : State) : Host.Outcome State Fault Refusal :=
  .next (if bar2 then bar2Read m addr size s else busRead m addr size s)

/-- ALIAS_WRITE (R436, R437). -/
def execAliasWrite (m : Master) (addr : Nat) (v : W64) (s : State) : Host.Outcome State Fault Refusal :=
  .next (busWrite m addr 8 v s)

/-- ALIAS_READ (R438). -/
def execAliasRead (m : Master) (addr : Nat) (s : State) : Host.Outcome State Fault Refusal :=
  .next (busRead m addr 8 s)

/-- BLK_LOCK (R435). -/
def execBlkLock (m : Master) (t : Blk) (i : Nat) (v : W64) (s : State) : Host.Outcome State Fault Refusal :=
  .next (regWrite m t i 0x058 v s)

/-- ENABLE (R431). -/
def execEnable (m : Master) (t : Blk) (i : Nat) (v : W64) (s : State) : Host.Outcome State Fault Refusal :=
  .next (regWrite m t i 0x010 v s)

/-- DRAIN (R431). -/
def execDrain (m : Master) (t : Blk) (i : Nat) (v : W64) (s : State) : Host.Outcome State Fault Refusal :=
  .next (regWrite m t i 0x010 (withBit 62 v) s)

/-- Every packet that the instance's crossings held when the drain was asked for has been delivered, with what was queued and what
was in progress then; what began later holds no drain (R431, 02 R34). -/
def drainedNow (s : State) (t : Blk) (i : Nat) : Bool :=
  if t = .nlp then drainOver (port s i).drainTx (port s i).txq && drainOver (port s i).drainRx (port s i).rxq
  else
    !(s.drainHeld.any fun d => d.1 == drainKey t i && (inProgress s t i).contains d) &&
    (t != .rng || !((ringAt s i).drainq.any fun x => (ringAt s i).sendq.contains x))

/-- DRAINED (R431). -/
def execDrained (t : Blk) (i : Nat) (s : State) : Host.Outcome State Fault Refusal :=
  .next
    (if cellGet noDrain s.drains (drainKey t i) && drainedNow s t i then
      setB { s with drains := cellSet noDrain s.drains (drainKey t i) false } (Reg.blkStatus t i) 60 true
     else s)

/-- START (03 R47, R48). -/
def execStart (m : Master) (v : W64) (s : State) : Host.Outcome State Fault Refusal :=
  .next (regWrite m .glb 0 0x210 (withBit 63 v) s)

/-- HALT (03 R72). -/
def execHalt (m : Master) (v : W64) (s : State) : Host.Outcome State Fault Refusal :=
  .next (regWrite m .glb 0 0x210 (withBit 62 v) s)

/-- FORCE (14 R327). -/
def execForce (m : Master) (v : W64) (s : State) : Host.Outcome State Fault Refusal :=
  .next (regWrite m .glb 0 0x2A8 (withBit 59 v) s)

/-- ABORT (14 R328). -/
def execAbort (m : Master) (v : W64) (s : State) : Host.Outcome State Fault Refusal :=
  .next (regWrite m .glb 0 0x268 (withBit 63 v) s)

/-- RESTART (14 R330). -/
def execRestart (m : Master) (v : W64) (s : State) : Host.Outcome State Fault Refusal :=
  .next (regWrite m .glb 0 0x268 (withBit 62 v) s)

/-- LOW_REARM (02 Table 02-3). -/
def execLowRearm (m : Master) (i : Nat) (v : W64) (s : State) : Host.Outcome State Fault Refusal :=
  .next (regWrite m .dst i 0x108 (withBit 63 v) s)

/-- GLB_REGION_W0 (11 R237). -/
def execGlbRegionW0 (m : Master) (k : Nat) (v : W64) (s : State) : Host.Outcome State Fault Refusal :=
  .next (regWrite m .glb 0 (0x1000 + 16 * k) v s)

/-- GLB_REGION_W1 (11 R237, R238). -/
def execGlbRegionW1 (m : Master) (k : Nat) (v : W64) (s : State) : Host.Outcome State Fault Refusal :=
  .next (regWrite m .glb 0 (0x1008 + 16 * k) v s)

/-- REGION_INIT_START (11 R241). -/
def execRegionInitStart (m : Master) (v : W64) (s : State) : Host.Outcome State Fault Refusal :=
  .next (regWrite m .glb 0 0x250 (withBit 63 v) s)

/-- REARM (11 R256). -/
def execRearm (m : Master) (i : Nat) (v : W64) (s : State) : Host.Outcome State Fault Refusal :=
  .next (regWrite m .hbc i 0x128 (withBit 63 v) s)

/-- HIF_HWT_W0 (15 R338). -/
def execHifHwtW0 (m : Master) (k : Nat) (v : W64) (s : State) : Host.Outcome State Fault Refusal :=
  .next (regWrite m .hif 0 (0x1000 + 16 * k) v s)

/-- HIF_HWT_W1 (15 R338). -/
def execHifHwtW1 (m : Master) (k : Nat) (v : W64) (s : State) : Host.Outcome State Fault Refusal :=
  .next (regWrite m .hif 0 (0x1008 + 16 * k) v s)

/-- HIF_CARD_CFG (15 R351). -/
def execHifCardCfg (m : Master) (v : W64) (s : State) : Host.Outcome State Fault Refusal :=
  .next (regWrite m .hif 0 0x120 v s)

/-- TAIL (15 R344). -/
def execTail (m : Master) (r : Nat) (v : W64) (s : State) : Host.Outcome State Fault Refusal :=
  .next (regWrite m .itk 0 (0x108 + 16 * r) v s)

/-- ITK_EN (15 R344, R347). -/
def execItkEn (m : Master) (r : Nat) (v : W64) (s : State) : Host.Outcome State Fault Refusal :=
  .next (regWrite m .itk 0 (0x100 + 16 * r) v s)

/-- ITK_ERR_CLEAR (15 R346). -/
def execItkErrClear (m : Master) (r : Nat) (v : W64) (s : State) : Host.Outcome State Fault Refusal :=
  .next (regWrite m .itk 0 (0x100 + 16 * r) (withBit 62 v) s)

/-- MBX_BIND (16 R362). -/
def execMbxBind (m : Master) (ch : Nat) (v : W64) (s : State) : Host.Outcome State Fault Refusal :=
  .next (regWrite m .mbx 0 (0x100 + 8 * ch) v s)

/-- BLOCK_GO (19 R421). -/
def execBlockGo (m : Master) (v : W64) (s : State) : Host.Outcome State Fault Refusal :=
  .next (regWrite m .mgt 0 0x400 (withBit 62 v) s)

/-- DEVICE (19 R415, R416). -/
def execDevice (m : Master) (v : W64) (s : State) : Host.Outcome State Fault Refusal :=
  .next (regWrite m .mgt 0 0x400 (withBit 63 v) s)

/-- TAKEOVER (17 R375). -/
def execTakeover (m : Master) (v : W64) (s : State) : Host.Outcome State Fault Refusal :=
  .next (regWrite m .mgt 0 0x100 (withBit 57 v) s)

/-- KICK: the watchdog's count starts again (17 R378); the count itself is time. -/
def execKick (m : Master) (v : W64) (s : State) : Host.Outcome State Fault Refusal :=
  .next (regWrite m .mgt 0 0x108 (withBit 63 v) s)

/-- SVN_ADVANCE (17 R382). -/
def execSvnAdvance (m : Master) (v : W64) (s : State) : Host.Outcome State Fault Refusal :=
  .next (regWrite m .mgt 0 0x110 (withBit 56 v) s)

/-- FLASH_PROGRAM (17 R389). -/
def execFlashProgram (m : Master) (v : W64) (s : State) : Host.Outcome State Fault Refusal :=
  .next (regWrite m .mgt 0 0x120 (withBit 63 (setFld v 59 58 0)) s)

/-- FLASH_ERASE (17 R389). -/
def execFlashErase (m : Master) (v : W64) (s : State) : Host.Outcome State Fault Refusal :=
  .next (regWrite m .mgt 0 0x120 (withBit 63 (setFld v 59 58 1)) s)

/-- FLASH_READ (17 R389). -/
def execFlashRead (m : Master) (v : W64) (s : State) : Host.Outcome State Fault Refusal :=
  .next (regWrite m .mgt 0 0x120 (withBit 63 (setFld v 59 58 2)) s)

/-- SLEEP_REQUEST (18 R394). -/
def execSleepRequest (m : Master) (v : W64) (s : State) : Host.Outcome State Fault Refusal :=
  .next (regWrite m .mgt 0 0x200 (withBit 63 (setFld v 33 32 2)) s)

/-- STANDBY_REQUEST (18 R394). -/
def execStandbyRequest (m : Master) (v : W64) (s : State) : Host.Outcome State Fault Refusal :=
  .next (regWrite m .mgt 0 0x200 (withBit 63 (setFld v 33 32 3)) s)

/-- FLOOR_RATE (18 R407). -/
def execFloorRate (m : Master) (v : W64) (s : State) : Host.Outcome State Fault Refusal :=
  .next (regWrite m .mgt 0 0x210 v s)

/-- MGT_VSET (18 R412). -/
def execMgtVset (m : Master) (v : W64) (s : State) : Host.Outcome State Fault Refusal :=
  .next (regWrite m .mgt 0 0x228 v s)

/-- RETRAIN (12 R264). -/
def execRetrain (m : Master) (p : Nat) (v : W64) (s : State) : Host.Outcome State Fault Refusal :=
  .next (regWrite m .nlp p 0x100 (withBit 63 v) s)

/-- FAST_RETRAIN (12 R264). -/
def execFastRetrain (m : Master) (p : Nat) (v : W64) (s : State) : Host.Outcome State Fault Refusal :=
  .next (regWrite m .nlp p 0x100 (withBit 62 v) s)

/-- UNDERPASS_CLOSE (12 R278). -/
def execUnderpassClose (m : Master) (p : Nat) (v : W64) (s : State) : Host.Outcome State Fault Refusal :=
  .next (regWrite m .nlp p 0x120 (withBit 62 v) s)

/-- UNDERPASS_OPEN (12 R279). -/
def execUnderpassOpen (m : Master) (p : Nat) (v : W64) (s : State) : Host.Outcome State Fault Refusal :=
  .next (regWrite m .nlp p 0x120 (withBit 63 v) s)

/-! ## Debug (R443) -/

/-- DBG_MEM_READ: a write of `GO` with `OP` 0. -/
def execDbgMemRead (m : Master) (v : W64) (s : State) : Host.Outcome State Fault Refusal :=
  .next (regWrite m .dbg 0 0x100 (withBit 63 (setFld v 59 59 0)) s)

/-- DBG_MEM_WRITE: a write of `GO` with `OP` 1. -/
def execDbgMemWrite (m : Master) (v : W64) (s : State) : Host.Outcome State Fault Refusal :=
  .next (regWrite m .dbg 0 0x100 (withBit 63 (setFld v 59 59 1)) s)

/-- The access itself, at its end: 8 bytes under Table 15-2 and 11 R240. -/
def debugAccess (s : State) : State :=
  let a := getF s Reg.dbgAddr 47 3 * 8
  let wr := getB s Reg.dbgCtrl 59
  if pieceMiss s a then (if wr then regionMiss s else rset (regionMiss s) Reg.dbgData 0)
  else if pieceRefused s wr a then
    let s := setB s Reg.dbgCtrl 60 true
    if wr then s else rset s Reg.dbgData 0
  else if wr then
    let x := hbmWrite s [] Reader.traffic a (leBytes 8 (rget s Reg.dbgData).toNat)
    settleTraffic x.evs x.s
  else
    let x := hbmRead s [] Reader.traffic a 8
    settleTraffic x.evs (rset x.s Reg.dbgData (BitVec.ofNat 64 (leNat x.data)))

/-- The bytes that the access reaches. -/
def debugReach (s : State) : List (Nat × Nat) :=
  let a := getF s Reg.dbgAddr 47 3 * 8
  if pieceMiss s a || pieceRefused s (getB s Reg.dbgCtrl 59) a then [] else [(a, 8)]

/-- DBG_MEM_DONE. -/
def execDbgMemDone (s : State) : Host.Outcome State Fault Refusal :=
  .next
    (if getB s Reg.dbgCtrl 62 then
      awaitClock (debugReach s) s (setB (setB (debugAccess s) Reg.dbgCtrl 62 false) Reg.dbgCtrl 61 true)
     else s)

/-- DBG_FIFO_DATA. -/
def execDbgFifoData (m : Master) (s : State) : Host.Outcome State Fault Refusal :=
  .next (busRead m (Reg.dbgData + 0x10) 8 s)

/-! ## I²C (17 R385 to R387, 21 R457) -/

/-- Offsets of the MGT page that the management port reads, and writes (17 Table 17-6). DEDUCED: log entry 118. -/
def i2cReads (s : State) (off : Nat) : Bool :=
  [0x000, 0x100, 0x110, 0x118, 0x140, 0x148, 0x150, 0x158, 0x130, 0x138, 0x310].contains off ||
  ((off == 0x120 || off == 0x128) && bootState s == 2)
def i2cWrites (s : State) (off : Nat) : Bool := off == 0x130 || ((off == 0x120 || off == 0x128) && bootState s == 2)

/-- An access needs the MGMT domain, and by the management port the sampling clock, until which that port holds SCL (17 R385, 21
R457). -/
def i2cReady (s : State) (p : I2cPort) : Bool := (p == .debug || s.power.oscillator) && pwrState s != 3

/-- The management port's write of a register: `MGT_BMC_REQ` also sets `NEW` and the `BMC` interrupt (17 Table 17-5). -/
def i2cPut (off : Nat) (v : W64) (s : State) : State :=
  if off = 0x130 then
    setInt .mgt 0 8 (setB (setF (setF s Reg.bmcReq 47 32 (fld v 47 32)) Reg.bmcReq 31 0 (fld v 31 0)) Reg.bmcReq 63 true)
  else writePage .mgt0 .mgt 0 off v s

/-- I2C_WRITE (17 R386, R387, 21 R457). -/
def execI2cWrite (p : I2cPort) (off : Nat) (data : List Byte) (s : State) : Host.Outcome State Fault Refusal :=
  let v := BitVec.ofNat 64 (leNat data)
  .next
    (if !i2cReady s p then s
     else if off % 8 ≠ 0 then emit (.i2cAck false) s
     else
      let s := emit (.i2cAck true) s
      if data.length ≠ 8 then s
      else match p with
        | .management => if i2cWrites s off then i2cPut off v s else s
        | .debug => regWrite .dbg .dbg 0 off v s)

/-- I2C_READ (17 R386, R387, 21 R457). -/
def execI2cRead (p : I2cPort) (off : Nat) (s : State) : Host.Outcome State Fault Refusal :=
  .next
    (if !i2cReady s p then s
     else if off % 8 ≠ 0 then emit (.i2cAck false) s
     else match p with
       | .management =>
         if i2cReads s off then
           let x := readPage .mgt 0 off s
           emit (.readBytes (leBytes 8 x.1.toNat)) x.2
         else emit (.readBytes (List.replicate 8 0)) s
       | .debug =>
         let x := readPage .dbg 0 off s
         emit (.readBytes (leBytes 8 x.1.toNat)) x.2)

end Sys2Proof.Machine
end

