-- ==== Sys2Proof/Machine/Steps.lean ====
section
/-! DEFINITION. The running step (03 R50 to R72, 06 R136, R142 to R145, 14 R315): its start, the control entries, waits and
watchdogs, the gate, and the Bell. -/

namespace Sys2Proof.Machine

/-! ## Start of a step (R53, 13 R291, 14 R315) -/

/-- A stream at the first entry of a step: one without a leading `PASS_SET` is at the set barrier at once. -/
def openStream (x : Stream) : Stream :=
  let y := restStream x
  { y with setDone := y.nextOp != 1 }

/-- `RCL_GATE` of every instance loses its bits 63:59 (06 Table 06-13). -/
def clearGate (s : State) : State := (List.range 4).foldl (fun s d => setF s (Reg.rclGate d) 63 59 0) s

/-- Post pass 0x7F02 as soon as its condition holds. -/
def postSecuring (s : State) : State := if secReleased s then postSys 0x7F02 s else s

/-- The `STEP_READY` markers of ring engine r, on both ports of a pair in the ring role. DEDUCED: log entry 71. -/
def readyRing (s : State) (r : Nat) : State :=
  if inRingRole s r then sendReady (2 * r) (sendReady (2 * r + 1) s) else s

/-- The state in which the validated Worksheet's step begins. DEDUCED: log entry 32. DEDUCED: log entry 36. -/
def startStep (ws : Worksheet) (s : State) : State :=
  let s := setF (setF (clearGate s) Reg.watchdog 63 32 0) Reg.jobStatus 31 0 ws.step
  let s := rset (rset (setJobState 3 s) Reg.slotVoid 0) Reg.slotMixed 0
  let s := { s with
    next := none
    step := { active := true, ws := ws, maskA := ws.expectA, maskB := ws.expectB, maskC := ws.expectC, rateMin := rateNow s }
    streams := s.streams.map openStream
    job := { s.job with stepStarted := true }
    census := { s.census with counts := [], totals := {} }
    views := s.views.foldl (fun m v => cellSet noView m v.1 { v.2 with attached := false }) s.views }
  postSecuring ([0, 1, 2].foldl readyRing (noteBreach (rateNow s) s))

/-- STEP_START: the validated step begins, once every earlier card has been issued (R53, 01 R19, 14 R315). -/
def execStepStart (s : State) : Host.Outcome State Fault Refusal :=
  .next
    (match s.next with
     | some ws =>
       if s.step.active = false ∧ s.cards = [] ∧ (jobState s = 2 ∨ jobState s = 3) then startStep ws s else s
     | none => s)

/-! ## Control entries -/

/-- Move a stream on to entry `i` without issuing anything. -/
def moveTo (i : Nat) (x : Stream) : Stream := { x with pos := i, released := false, blocked := false }

/-- PASS_SET: the named passes take `POST_COUNT` during the set phase (R53, Table 03-7). DEDUCED: log entry 28. -/
def execPassSet (st : Nat) (s : State) : Host.Outcome State Fault Refusal :=
  .next
    (match streamAt s st with
     | some x =>
       match x.next? with
       | some e =>
         if stepRuns s && !s.step.setOpen && e.op == 1 then
           let y := moveTo (x.pos + 1) x
           setPass e.postPass e.postCount (setStream st { y with setDone := y.nextOp != 1 } s)
         else s
       | none => s
     | none => s)

/-- SET_PHASE_COMPLETE: every stream has finished its set phase; pass 0x7F00 opens the barrier (R53, R56). -/
def execSetPhaseComplete (s : State) : Host.Outcome State Fault Refusal :=
  .next
    (if stepRuns s && !s.step.setOpen && s.streams.all (·.setDone) then
      postSys 0x7F00 { s with step := { s.step with setOpen := true } }
     else s)

/-- NOP: issues, does nothing and completes (R50). -/
def execNop (st : Nat) (ph : List Phys) (s : State) : Host.Outcome State Fault Refusal :=
  .next (issue st (fun e => e.op == 0) ph noEffect s)

/-- The Worksheet runs a segment of this micro-batch and bucket (R52). -/
def selected (ws : Worksheet) (e : Entry) : Bool :=
  match ws.mbs[e.mbSlot]? with
  | some m => m.bucket == e.bucket
  | none => false

/-- The entry at `pos` of a stream, before and after a command, has issued. -/
def hasIssued (s s' : State) (st : Nat) : Bool :=
  match streamAt s st, streamAt s' st with
  | some x, some y => y.pos == x.pos + 1
  | _, _ => false

/-- SEGMENT: an unselected one skips the entries it covers, with no wait and no post; a selected one issues and opens its
segment (R52). -/
def execSegment (st : Nat) (s : State) : Host.Outcome State Fault Refusal :=
  .next
    (match streamAt s st with
     | some x =>
       match x.next? with
       | some e =>
         if !(stepRuns s && s.step.setOpen && e.op == 2) then s
         else if selected s.step.ws e then
           let s' := issue st (fun e => e.op == 2) [] noEffect s
           if hasIssued s s' st then
             modStream st (fun y => { y with seg := some (e.mbSlot, x.pos + 1 + e.skipLen) }) s'
           else s'
         else setStream st (moveTo (x.pos + 1 + e.skipLen) x) s
       | none => s
     | none => s)

/-- UPDATE_BEGIN: after the gate decision and the securing release, an open gate lets the stream go on, a closed one sends
it to its `STEP_END` (R54, 01 R17, 06 R145). -/
def execUpdateBegin (st : Nat) (s : State) : Host.Outcome State Fault Refusal :=
  .next
    (match streamAt s st with
     | some x =>
       if !(stepRuns s && s.step.setOpen && x.nextOp == 3 && s.step.decided && secReleased s) then s
       else if s.step.gateOpen then
         let s' := issue st (fun e => e.op == 3) [] noEffect (postSecuring s)
         if hasIssued s s' st then modStream st (fun y => { y with afterUpdate := true }) s' else s'
       else setStream st (moveTo (x.entries.length - 1) x) (postSecuring s)
     | none => s)

/-- STEP_END: the sequencer stops until Bell drain complete (R55). -/
def execStepEnd (st : Nat) (s : State) : Host.Outcome State Fault Refusal :=
  .next
    (match streamAt s st with
     | some x =>
       if stepRuns s && s.step.setOpen && x.nextOp == 4 then setStream st { x with atEnd := true } s else s
     | none => s)

/-! ## Waits (R57 to R59) -/

/-- The entry is one whose own wait comes now: no unselected segment, no `UPDATE_BEGIN` before its release (R52, R54). -/
def evaluates (s : State) (e : Entry) : Bool :=
  if e.op = 1 ∨ e.op = 4 then false
  else if e.op = 2 then selected s.step.ws e
  else if e.op = 3 then s.step.decided && s.step.gateOpen && secReleased s
  else true

/-- The next entry of a stream stands at its own wait. -/
def atWait (s : State) (x : Stream) (e : Entry) : Bool :=
  stepRuns s && s.step.setOpen && !x.atEnd && evaluates s e && e.waitEn && !x.released && (!e.fence || x.inflight.isEmpty)

/-- Test and subtract (R57). -/
def testWait (st : Nat) (x : Stream) (e : Entry) (s : State) : State :=
  let p := e.waitPass
  let w := noteWaiter p st x.pos s
  if !w.2 then w.1
  else if e.waitCount ≤ passCount w.1 p then
    modStream st (fun y => { y with released := true, blocked := false }) (setPass p (passCount w.1 p - e.waitCount) w.1)
  else modStream st (fun y => { y with blocked := true }) w.1

/-- PASS_WAIT_RELEASE: the wait of the next entry is tested, and satisfied or blocked (R57, R59, 20 R442).
DEDUCED: log entry 27. -/
def execPassWaitRelease (st : Nat) (ph : List Phys) (s : State) : Host.Outcome State Fault Refusal :=
  .next
    (match streamAt s st with
     | some x =>
       match x.next? with
       | some e =>
         if atWait s x e then
           let s' := passWords ph [e.waitPass] st x.pos s
           if s'.step.active then testWait st x e s' else s'
         else s
       | none => s
     | none => s)

/-! ## Watchdogs (R69, R70) -/

/-- The pass on which a stream is blocked, with the count required and present; a system pass counts as 0 or 1. -/
def blockedOn (s : State) (x : Stream) : Option (Nat × Nat × Nat) :=
  if !s.step.setOpen then (if x.setDone then some (0x7F00, 1, 0) else none)
  else match x.next? with
    | some e =>
      if e.op = 3 ∧ s.step.decided = false then some (0x7F01, 1, 0)
      else if e.op = 3 ∧ secReleased s = false then some (0x7F02, 1, 0)
      else if atWait s x e && decide (passCount s e.waitPass < e.waitCount) then
        some (e.waitPass, e.waitCount, passCount s e.waitPass)
      else none
    | none => none

/-- One row of the stream report. -/
abbrev StallRow := Nat × Nat × Option (Nat × Nat × Nat)

/-- A port that takes part in the Bell: its link is up, or retrains and keeps what it held when it was up (12 R264, R265). -/
def bellPort (s : State) (p : Nat) : Bool :=
  linkState s p == 3 || linkState s p == 4 || (linkState s p == 2 && (port s p).resume)

/-- Bell markers still to come (Table 03-17 event 4). -/
def markersMissing (s : State) : List Nat :=
  (List.range 6).filter fun p => bellPort s p && !s.step.sysPasses.contains (0x7F10 + p)

/-- The streams that are not at `STEP_END`; once none is left the Bell has begun, and until it has drained the markers that
have not come (R64, R69). -/
def stallRows (s : State) : List StallRow :=
  let streams := (List.range s.streams.length).filterMap fun i =>
    match streamAt s i with
    | some x => if x.atEnd then none else some (i, x.pos, blockedOn s x)
    | none => none
  if streams ≠ [] then streams
  else if s.step.bell = .drained then []
  else (markersMissing s).map fun p => (0xFFFF, 0, some (0x7F10 + p, 1, 0))

/-- Report the streams and end the step: `PASS_STALL` if a row names a blocked wait, else `ENTRY_STALL` (R69). -/
def raiseStall (rows : List StallRow) (s : State) : State :=
  let first := match rows.find? (fun (r : StallRow) => r.2.2.isSome) with
    | some r => r
    | none => rows.headD (0xFFFF, 0, none)
  let code := if first.2.2.isSome then 0x0301 else 0x0302
  let detail := match first.2.2 with
    | some q => q.1
    | none => 0
  hardFault .glb (plainRec code 4 .glb 0 first.1 first.2.1 (stepNo s) detail) (emit (.streamReport rows) s)

/-- STEP_WATCHDOG: `ELAPSED` has reached `LIMIT` (R69); it stands still while `UPDATE_BEGIN` waits on pass 0x7F02 (R67).
DEDUCED: log entry 30. -/
def execStepWatchdog (s : State) : Host.Outcome State Fault Refusal :=
  .next
    (if s.step.active && !updateHeld s then
      raiseStall (stallRows s) (setF s Reg.watchdog 63 32 (getF s Reg.watchdog 31 0))
     else s)

/-- WAIT_LIMIT_EXPIRY: an entry has waited `WAIT_LIMIT` µs without release, on its own wait or, an `UPDATE_BEGIN`, on its system
pass; the record names it first (R70). DEDUCED: log entry 29. -/
def execWaitLimitExpiry (st : Nat) (s : State) : Host.Outcome State Fault Refusal :=
  .next
    (match streamAt s st with
     | some x =>
       match x.next? with
       | some e =>
         if stepRuns s && s.step.setOpen && decide (0 < e.waitLimit) && (blockedOn s x).isSome then
           raiseStall ((st, x.pos, blockedOn s x) :: (stallRows s).filter fun (r : StallRow) => r.1 != st) s
         else s
       | none => s
     | none => s)

/-! ## The commit gate (06 R142 to R144) -/

/-- The stream has reached `UPDATE_BEGIN` or `STEP_END`. DEDUCED: log entry 24. -/
def atGate (x : Stream) : Bool := x.atEnd || x.nextOp == 3 || x.nextOp == 4

/-- Rings on which an entry of the job carries the gate. -/
def gateRings (s : State) : List Nat :=
  (s.streams.filter fun x => x.kind == 3 && x.entries.any isGate).map (·.unit)

/-- The flags that decide: those of the last gate word, or the device's own where no ring carries the gate.
DEDUCED: log entry 33. -/
def gateFlags (s : State) : Bool × Bool :=
  if gateRings s = [] then (s.step.nonfinite, s.step.taint) else s.step.gateWord.getD (false, false)

/-- Show the decision in `RCL_GATE` (06 Table 06-13); `GATE` is raised (20 Table 20-9). -/
def showGate (nf taint : Bool) (s : State) : State :=
  (List.range 4).foldl (fun s d =>
    let a := Reg.rclGate d
    setInt .rcl d 9 (setF (setB (setB (setB (setB s a 63 true) a 62 (!(nf || taint))) a 61 nf) a 60 taint) a 31 0 (stepNo s))) s

/-- GATE_DECISION: every stream has reached the gate and every gate-carrying entry has completed (R144). -/
def execGateDecision (s : State) : Host.Outcome State Fault Refusal :=
  .next
    (if stepRuns s && s.step.setOpen && !s.step.decided && s.streams.all atGate &&
        (gateRings s).all (s.step.gateDone.contains ·) then
      let f := gateFlags s
      let s := showGate f.1 f.2 s
      postSys 0x7F01 { s with step := { s.step with
        decided := true, gateOpen := !(f.1 || f.2), gateWord := some f } }
     else s)

/-! ## The Bell (R64 to R66) -/

/-- A Bell marker (12 Table 12-7). -/
def bellFlit (s : State) (p : Nat) : Flit :=
  let tree := portRole s p == 1 || portRole s p == 2
  let pos := if tree then 2 ^ 12 else ringPos s (p / 2)
  { typ := 6, payload := pad240 (leBytes 4 (stepNo s) ++ leBytes 2 pos ++ leBytes 1 p) }

/-- Step traffic that a port still has to send. -/
def portSends (s : State) (p : Nat) : Bool :=
  (ringAt s (p / 2)).sendq.any fun t => t.port == p && t.first.cls != 2

/-- The peer of a port in the ring role has started the running step, so that its flits may go (13 R291). -/
def peerReady (s : State) (p : Nat) : Bool := !inRingRole s (p / 2) || readyFor s p (stepNo s)

/-- BELL_START: the last stream is at `STEP_END` and nothing is in flight; each up port sends its marker behind its last flit
of the step, and once the peer is ready for it (R64 events 1 to 3, 13 R291). DEDUCED: log entry 35. -/
def execBellStart (s : State) : Host.Outcome State Fault Refusal :=
  .next
    (if stepRuns s && s.step.decided && s.streams.all (fun x => x.atEnd && x.inflight.isEmpty) &&
        !((List.range 6).any fun p => bellPort s p && (portSends s p || !crossingRoom (port s p) 1 || !peerReady s p)) then
      let s := (List.range 6).foldl (fun s p =>
        if bellPort s p then sendInto p [bellFlit s p] s else s) s
      { s with step := { s.step with bell := .markersSent } }
     else s)

/-- No step flit is in flight on a port, and its REQ and RSP credits stand at their initial values (R65). -/
def portClean (s : State) (p : Nat) : Bool :=
  let x := port s p
  let none := fun (q : List Flit) => !(q.any fun f => f.cls != 2)
  none x.txq && none x.rxq && none x.retry &&
    credits x 0 == get3 x.credInit 0 % 2 ^ 16 && credits x 1 == get3 x.credInit 1 % 2 ^ 16

/-- The Bell need not wait for a port: nothing of the step moves on it, or it takes no part (R64, R65). -/
def portQuiet (s : State) (p : Nat) : Bool := !bellPort s p || (portClean s p && !portSends s p)

/-- A port that took no part in the Bell, its Underpass closed or its link down, discards the link state in which flits or
credits of the step stand, as a full training would (R65, 12 R265). DEDUCED: log entry 35. -/
def cleanPort (s : State) (p : Nat) : State := if portClean s p then s else dropLinkState p s

/-- BELL_DRAIN: with every marker received and every port quiet, accumulators, scratchpads and passes clear, and the census
takes its snapshot and computes the next scales (R64 events 4 to 8). -/
def execBellDrain (s : State) : Host.Outcome State Fault Refusal :=
  .next
    (if s.step.active ∧ s.step.bell = .markersSent ∧ markersMissing s = [] ∧ (List.range 6).all (portQuiet s) then
      let s := (List.range 6).foldl cleanPort ((List.range 136).foldl (fun s k => wakePairs k s) s)
      silentBell { s with
        acc := [], ksteps := [], sp := [], spFix := [], passes := [], waiters := []
        census := censusBell s.census
        step := { s.step with bell := .drained, sysPasses := [] } }
     else s)

/-- `STATUS` of a step that reached its Bell (01 R18). -/
def bellStatus (s : State) : Nat :=
  match s.step.gateWord with
  | some (nf, t) => if t then 2 else if nf then 1 else 0
  | none => 0

/-- Ring engines at the end of a step: no entry in flight and no step traffic waiting. -/
def restRing (r : Ring) : Ring := { r with colls := [], sendq := r.sendq.filter fun t => t.first.cls == 2 }

/-- Values that take force at Bell drain complete: `RCL_CFG` (06 R147), the stash configuration and quota (05 R114).
DEDUCED: log entry 37. -/
def latchBell (s : State) : State :=
  { s with
    census := { s.census with cfg := rget s (Reg.rclCfg 0) }
    job := { s.job with stashCfg := rget s Reg.stashCfg, stashQuota := rget s Reg.stashQuota } }

/-- The device stands empty (R55, R65; 05 R118; 14 R315). -/
def restStep (s : State) : State :=
  let s := rset (rset s Reg.slotVoid 0) Reg.slotMixed 0
  let s := endReady s
  freeStash { s with
    streams := s.streams.map restStream, rings := s.rings.map restRing, step := { ws := s.step.ws } }

/-- BELL_DRAIN_COMPLETE (R65): `GLB_UPDATE_COUNT` advances after an open gate (06 R136), the step's card is formed, the
device is empty, and the estimator and the securing interval act (14 R325, R334); a requested halt follows (R72). -/
def execBellDrainComplete (us : Nat) (s : State) : Host.Outcome State Fault Refusal :=
  .next
    (if s.step.active ∧ s.step.bell = .drained then
      let s := setF s Reg.watchdog 63 32 us
      let s := if s.step.gateOpen then rset s Reg.updateCount (rget s Reg.updateCount + 1) else s
      let s := queueCard { body := cardBody s (bellStatus s) 0 (firstConfined s) s.census.snapTotals,
                           annex := some (annexBytes s), frees := false } s
      let s := bellSecuring (latchBell (restStep s))
      if s.job.haltWanted then
        haltNow (discardPending s)
      else s
     else s)

end Sys2Proof.Machine
end

