-- ==== Sys2Proof/Machine/Check.lean ====
section
/-! DEFINITION. The checking of Worksheets and Timetables (03 R48, R63): a check runs on the state, reads HBM under 11
R465, and stops at the first failure. -/

namespace Sys2Proof.Machine

/-- A failed check: its error code; the micro-batch (03 R63); the stream table index, entry, descriptor id and check of
Table 09-4 (03 R48, 09 R203). A failure that names none leaves 0, and 0xFF for the micro-batch. -/
structure Bad where
  code : Nat
  mb : Nat := 0xFF
  stream : Nat := 0
  entry : Nat := 0
  desc : Nat := 0
  num : Nat := 0
deriving DecidableEq, Repr

/-- A check: it may read memory, and it may fail. -/
abbrev Check (α : Type) := ExceptT Bad (StateM State) α

/-- Fail with `e` unless `b`. -/
def need (b : Bool) (e : Bad) : Check Unit := if b then pure () else throw e

/-- Run a check on each member in order. -/
def each {α : Type} (f : α → Check Unit) : List α → Check Unit
  | [] => pure ()
  | a :: l => do
    f a
    each f l

/-- Read `n` bytes at `a` for a structure whose failure would be `e`: a line beyond correction, or that the die reports,
ends the validation there with its own code (11 R465). -/
def readFor (ph : List Phys) (a n : Nat) (e : Bad) : Check (List Byte) := do
  let s ← get
  let x := hbmReadUntilBad s ph Reader.validation a n
  set (settleTraffic x.evs x.s)
  if x.bad then
    throw { e with code := ((x.evs.find? fun v => v.code == 0x0B03 || v.code == 0x0B04).map (·.code)).getD 0x0B03 }
  else pure x.data

/-- Bytes `lo` up to `hi` are 0. -/
def zeroSpan (bs : List Byte) (lo hi : Nat) : Bool := ((bs.drop lo).take (hi - lo)).all (· == 0)

/-- WGT, SCR or ITK (03 Table 03-16 checks 10 and 11). -/
def listClass (c : Nat) : Bool := c == 0 || c == 3 || c == 5

end Sys2Proof.Machine
end

