-- ==== Sys2Proof/Machine/Descs.lean ====
section
/-! DEFINITION. The checks of tensor descriptors at job validation (09 R199 to R203, Table 09-4). -/

namespace Sys2Proof.Machine

/-- How an entry uses a descriptor: `update`: the entry lies after its stream's `UPDATE_BEGIN`; `any`: `UNIT` 0xFFF is allowed
(a core entry, or a multicast `FILL`'s destination); `stash`: the tensor of a stash entry (09 Tables 09-3, 09-4). -/
structure Use where
  reads : Bool := true
  writes : Bool := false
  update : Bool := false
  any : Bool := false
  stash : Bool := false
deriving DecidableEq, Repr

/-- What a job's checks know besides the state. -/
structure Plan where
  ph : List Phys
  h : Header
  /-- Active logical cores. -/
  active : Nat
  /-- `COUNT` of the derivative tables. -/
  curves : Nat
  /-- Device addresses of the job's own structures: first, and first beyond (check 8). -/
  protect : List (Nat × Nat)
  /-- `TENSOR_ID` and `MB_SLOT` of every `STASH_WRITE` of the job (05 R111). -/
  stashed : List (Nat × Nat)
  /-- Rings that the job uses in the ring role (13 R285). -/
  rings : List Nat

/-- The entry under check: its stream's kind and logical unit, its stream table index and entry index, its segment's
`MB_SLOT`, and whether it follows `UPDATE_BEGIN`. -/
structure Here where
  kind : Nat
  unit : Nat
  st : Nat
  idx : Nat
  e : Entry
  slot : Option Nat
  update : Bool

/-- A failure of the entry. -/
def Here.bad (x : Here) (code : Nat) : Bad := { code := code, stream := x.st, entry := x.idx }

/-- A failure of check `n` of descriptor `id` that the entry names. -/
def Here.descBad (x : Here) (code id n : Nat) : Bad :=
  { code := code, stream := x.st, entry := x.idx, desc := id, num := n }

/-! ## Table 09-4 -/

/-- Check 1. -/
def descCheck1 (d : Desc) (reserved : Bool) : Bool :=
  reserved && decide (d.fmt ≤ 0xC ∧ d.layout ≤ 2 ∧ 1 ≤ d.rank ∧ d.rank ≤ 6)

/-- Check 2. -/
def descCheck2 (d : Desc) : Bool :=
  (List.range 6).all fun i =>
    if i < d.rank then decide (1 ≤ nth d.extent i) && (nth d.extent i != 1 || nth d.stride i == 0)
    else nth d.extent i == 0 && nth d.stride i == 0

/-- The scale tensor of an MX tensor has the form that R199 gives. -/
def scaleFits (d x : Desc) : Bool :=
  decide (x.fmt = 9 ∧ x.place = d.place ∧ x.unit = d.unit ∧ x.aux = noDesc ∧ x.layout = d.layout ∧
    x.dim 0 = (if d.layout = 1 then d.dim 0 else d.dim 0 / 32)) &&
    ([1, 2, 3, 4, 5].all fun i => nth x.extent i == nth d.extent i)

/-- An MX tensor that has a scale tensor: in a compressed stream the codes alone lie (07 R164). -/
def hasScales (d : Desc) : Bool := isMx d.fmt && d.layout != 2

/-- Check 3 (R198 to R200); `scale`: what `AUX` names. -/
def descCheck3 (d : Desc) (scale : Option Desc) : Bool :=
  decide (d.offset % 64 = 0) && (!isMx d.fmt || d.dim 0 % 32 == 0) &&
    (if hasScales d then (match scale with
      | some x => scaleFits d x
      | none => false) else d.aux == noDesc) &&
    (if d.layout = 1 then
      decide ((d.fmt ≤ 6 ∨ d.fmt = 9) ∧ d.rank = 3 ∧ d.dim 1 ≤ 128 ∧ d.dim 2 ≤ 4 ∧ nth d.stride 1 = 0 ∧
        (1 < d.dim 2 → d.product ≤ nth d.stride 2 * 64))
     else if d.layout = 2 then decide (d.rank = 1 ∧ d.dim 0 % 4160 = 0 ∧ d.fmt ≤ 6)
     else true)

/-- Check 4. -/
def descCheck4 (d : Desc) : Bool := decide (d.indexBase + d.count ≤ 2 ^ 40)

/-- Span of one index of dimension `i`, plain layout. -/
def spanBelow (d : Desc) (i : Nat) : Nat :=
  d.rowBytes + (List.range i).foldl (fun a k => a + (if k = 0 then 0 else (d.dim k - 1) * nth d.stride k * 64)) 0

/-- Check 5. -/
def descCheck5 (d : Desc) (writes : Bool) : Bool :=
  !(writes && d.layout == 0) ||
    ([1, 2, 3, 4, 5].all fun i => d.dim i == 1 || decide (spanBelow d i ≤ nth d.stride i * 64))

/-- Check 6. -/
def descCheck6 (s : State) (active : Nat) (u : Use) (d : Desc) : Bool :=
  if d.place = 0 then (match region? s d.unit with
    | some r => decide (d.spanEnd ≤ r.size)
    | none => false)
  else if d.place = 1 then decide ((d.unit < active ∨ (d.unit = 0xFFF ∧ u.any = true)) ∧ d.spanEnd ≤ 524288)
  else if d.place = 2 then true
  else decide (d.unit ≤ 63) && getB s (Reg.hwtW0 d.unit) 63 && decide (d.spanEnd ≤ hwtSize s d.unit)

/-- Table 09-3. -/
def classUse (u : Use) (cls : Nat) : Bool :=
  if cls = 0 ∨ cls = 1 then !u.writes || u.update
  else if cls = 2 then u.stash
  else if cls = 5 then !u.writes
  else cls != 6

/-- Check 7. -/
def descCheck7 (s : State) (u : Use) (d : Desc) : Bool :=
  if d.place = 0 then classUse u (regionRaw s d.unit).cls
  else if d.place = 3 then
    (!u.reads || getB s (Reg.hwtW0 d.unit) 62) && (!u.writes || getB s (Reg.hwtW0 d.unit) 61)
  else true

/-- Check 8. -/
def descCheck8 (s : State) (protect : List (Nat × Nat)) (u : Use) (d : Desc) : Bool :=
  !(u.writes && d.place == 0) ||
    (let b := (regionRaw s d.unit).base
     protect.all fun (p : Nat × Nat) => decide (b + d.spanEnd ≤ p.1 ∨ p.2 ≤ b + d.offset))

/-! ## Reading and checking -/

/-- Device address of descriptor `id` (R195). -/
def descAddr (h : Header) (id : Nat) : Nat := h.descTable + 64 * id

/-- A descriptor as memory holds it. -/
def descMem (s : State) (h : Header) (id : Nat) : Desc := descOf (memRead s.hbm (descAddr h id) 64)

/-- The descriptor's copy, read if the job has none yet, with the state of its reserved bits (R204). -/
def fetchDesc (p : Plan) (x : Here) (id : Nat) : Check (Desc × Bool) := do
  match descAt (← get) id with
  | some d => pure (d, true)
  | none => do
    let bs ← readFor p.ph (descAddr p.h id) 64 (x.descBad 0x0108 id 1)
    pure (descOf bs, descReservedOk bs)

/-- The scale tensor that an MX descriptor names, not yet checked itself. -/
def fetchScale (p : Plan) (x : Here) (d : Desc) : Check (Option Desc) :=
  if hasScales d && decide (d.aux ≠ noDesc ∧ d.aux < p.h.descCount) then do
    let y ← fetchDesc p x d.aux
    pure (some y.1)
  else pure none

/-- Check one descriptor for one use, and keep its copy (R203, R204). DEDUCED: log entry 87. -/
def checkDesc (p : Plan) (x : Here) (id : Nat) (u : Use) : Check Unit := do
  let f ← fetchDesc p x id
  let d := f.1
  need (descCheck1 d f.2) (x.descBad 0x0108 id 1)
  need (descCheck2 d) (x.descBad 0x0108 id 2)
  let scale ← fetchScale p x d
  need (descCheck3 d scale) (x.descBad 0x0108 id 3)
  need (descCheck4 d) (x.descBad 0x0108 id 4)
  need (descCheck5 d u.writes) (x.descBad 0x0108 id 5)
  let s ← get
  need (descCheck6 s p.active u d) (x.descBad 0x0109 id 6)
  need (descCheck7 s u d) (x.descBad 0x010A id 7)
  need (descCheck8 s p.protect u d) (x.descBad 0x010A id 8)
  if (descAt s id).isNone then set { s with job := { s.job with descs := s.job.descs ++ [(id, d)] } }

/-- Check the named descriptors, then the derived ones: those at id + 1, then the scale tensors (R203). -/
def checkDescs (p : Plan) (x : Here) (named derived : List (Nat × Use)) : Check Unit := do
  each (fun (n : Nat × Use) => checkDesc p x n.1 n.2) (named ++ derived)
  let s ← get
  let aux := (named ++ derived).filterMap fun (n : Nat × Use) =>
    let d := descOr s n.1
    if hasScales d then some (d.aux, n.2) else none
  each (fun (n : Nat × Use) => checkDesc p x n.1 n.2) aux

/-! ## Comparing tensors -/

/-- Equal extents, a dimension that one lacks counting as 1. -/
def sameShape (a b : Desc) : Bool := (List.range 6).all fun i => a.dim i == b.dim i

/-- The destination of a conversion under a tensor id carries that id's scale (R201). -/
def scaleIdOk (d : Desc) (tid : Nat) : Bool := tid == 0xFFFF || !isScaled d.fmt || d.scaleId == tid

/-- Region class of a tensor in HBM. -/
def clsOf (s : State) (d : Desc) : Option Nat := if d.place = 0 then some (regionRaw s d.unit).cls else none

/-- In a scratchpad, or in a region of a listed class. -/
def liesIn (s : State) (d : Desc) (cls : List Nat) : Bool :=
  d.place == 1 || (match clsOf s d with
    | some c => cls.contains c
    | none => false)

/-- Runs of bytes of a tensor: first, and first beyond. -/
def runsOf (d : Desc) : List (Nat × Nat) :=
  if d.layout = 1 then
    (List.range (d.dim 2)).map fun b =>
      let o := d.offset + b * nth d.stride 2 * 64
      (o, o + d.product)
  else if d.layout = 2 then [(d.offset, d.spanEnd)]
  else (List.range d.rows).map fun i => (d.rowOff i, d.rowOff i + d.rowBytes)

/-- Two tensors share a byte. -/
def sharesByte (a b : Desc) : Bool :=
  a.place == b.place && a.unit == b.unit && decide (a.offset < b.spanEnd ∧ b.offset < a.spanEnd) &&
    (runsOf a).any fun (x : Nat × Nat) => (runsOf b).any fun (y : Nat × Nat) => decide (x.1 < y.2 ∧ y.1 < x.2)

/-- A tensor with its scale tensor. -/
def withScales (s : State) (d : Desc) : List Desc := d :: (scaleDesc s d).toList

/-- The operand written shares no byte with another operand. -/
def apart (s : State) (w : Desc) (others : List Desc) : Bool :=
  others.all fun o => (withScales s w).all fun a => (withScales s o).all fun b => !sharesByte a b

end Sys2Proof.Machine
end

