-- ==== Sys2Proof/Machine/EntryRules.lean ====
section
/-! DEFINITION. The rules that job validation applies to each entry: its layout and the structural rules (03 Tables 03-7 to
03-11), and the table of its opcode (04 Table 04-4, 05 R104, R108, R111, 06 R131, R132, 07 Table 07-4, 08 Table 08-7,
09 Tables 09-5 and 09-6, 13 Tables 13-6 and 13-7). -/

namespace Sys2Proof.Machine

/-! ## Layout (03 R49) -/

/-- Reserved bits of W3 by opcode class are 0 (03 Table 03-10). -/
def w3Ok (e : Entry) : Bool :=
  let z := fun (hi lo : Nat) => fld e.w3 hi lo == 0
  if e.op = 2 then z 63 44 && z 15 10
  else if e.op = 0x10 then z 63 48 && z 19 13
  else if e.op = 0x20 ∨ e.op = 0x21 then z 63 12 && z 9 8
  else if 0x30 ≤ e.op ∧ e.op ≤ 0x35 then z 63 27
  else if 0x40 ≤ e.op ∧ e.op ≤ 0x49 then z 63 50
  else if 0x50 ≤ e.op ∧ e.op ≤ 0x55 then z 63 20 && z 3 3
  else z 63 0

/-- Reserved bits of W0 to W2 are 0 (03 Tables 03-7, 03-8). -/
def wordsOk (e : Entry) : Bool :=
  fld e.w0 63 63 == 0 && fld e.w0 31 31 == 0 && fld e.w0 15 14 == 0 && fld e.w1 23 22 == 0 && fld e.w2 63 60 == 0

/-- The opcode is listed and matches the stream's kind (03 Tables 03-9, 03-11). -/
def opOk (kind op : Nat) : Bool :=
  decide (op ≤ 4) || (kind == 0 && [0x10, 0x20, 0x21].contains op) || (kind == 1 && decide (0x40 ≤ op ∧ op ≤ 0x49)) ||
    (kind == 2 && decide (0x30 ≤ op ∧ op ≤ 0x35)) || (kind == 3 && decide (0x50 ≤ op ∧ op ≤ 0x55))

/-- A descriptor id is absent or below `DESC_COUNT`. -/
def idOk (p : Plan) (id : Nat) : Bool := id == noDesc || decide (id < p.h.descCount)

/-- A descriptor id names a descriptor: 0xF_FFFF names none, whatever `DESC_COUNT` (05 R108). -/
def named (p : Plan) (id : Nat) : Bool := decide (id ≠ noDesc ∧ id < p.h.descCount)

/-- What the walk over the streams has met: the passes set, the byte size of each slot tag (05 R111); and of the stream: the
leading run of `PASS_SET`, `UPDATE_BEGIN`, gate-carrying entries. -/
structure Walk where
  sets : List Nat := []
  sizes : List (Nat × Nat) := []
  leading : Bool := true
  update : Bool := false
  gates : Nat := 0

/-- Wait and post fields (03 Tables 03-7, 03-8, 03-11). -/
def passesOk (w : Walk) (e : Entry) : Bool :=
  (if e.waitEn then decide (1 ≤ e.waitCount ∧ e.waitPass < 0x7F00) else decide (e.waitCount = 0 ∧ e.waitPass = 0)) &&
    (if e.op = 1 then w.leading && decide (e.postPass < 0x7F00) && !w.sets.contains e.postPass
     else !e.postEn || decide (1 ≤ e.postCount ∧ e.postPass + e.postSpan < 0x7F00))

/-- `SEGMENT` (03 Tables 03-10, 03-11): `later` holds the entries after it. -/
def segmentOk (p : Plan) (x : Here) (later : List Entry) : Bool :=
  x.slot.isNone && decide (1 ≤ x.e.skipLen ∧ x.e.skipLen < later.length ∧ x.e.bucket < p.h.buckets ∧ x.e.mbSlot < p.h.mbMax) &&
    (later.take x.e.skipLen).all fun e => e.op != 3 && e.op != 4

/-- The layout and structural rules of one entry. -/
def structureOk (p : Plan) (x : Here) (w : Walk) (later : List Entry) : Bool :=
  let e := x.e
  wordsOk e && w3Ok e && opOk x.kind e.op && (decide (4 < e.op) || e.subop == 0) && passesOk w e &&
    (e.op == 0x10 || (!e.longSum && !e.keepDest)) && (!e.tagged || x.slot.isSome) &&
    idOk p e.descA && idOk p e.descB && idOk p e.descC &&
    (e.op != 2 || segmentOk p x later) && (e.op != 3 || !w.update) && ((e.op == 4) == later.isEmpty)

/-! ## The rules of an opcode -/

/-- The rules of an entry in the order in which they apply: its fields, the descriptors that it names and derives (09 R203),
the rules over its descriptors, and the tables that it names. -/
structure Rules where
  fields : Bool := true
  named : List (Nat × Use) := []
  derived : List (Nat × Use) := []
  table : State → Bool := fun _ => true
  more : Check Unit := pure ()

/-- Read uses, and write uses, of a mover, Junction or ring entry. -/
def rd : Use := {}
def wr (x : Here) (reads : Bool) : Use := { reads := reads, writes := true, update := x.update }

/-- An optional descriptor. -/
def opt (id : Nat) (u : Use) : List (Nat × Use) := if id = noDesc then [] else [(id, u)]

/-! ### MATMUL, VECTOR, OPTIM -/

/-- Uses of a core entry. -/
def coreRd : Use := { any := true }
def coreWr (x : Here) (reads : Bool) : Use := { reads := reads, writes := true, update := x.update, any := true }

/-- The scratchpad of the core that runs the entry (04 R467). -/
def ownPad (x : Here) (d : Desc) : Bool := decide (d.place = 1 ∧ (d.unit = 0xFFF ∨ d.unit = x.unit))

/-- A program of kind 0 to 2 (05 R103, R104). -/
def progOk (curves prog : Nat) : Bool :=
  decide (bits prog 5 4 = 0 ∧ progKind prog ≤ 2 ∧ progFn prog ≤ curves ∧ (progKind prog ≠ 0 → 1 ≤ progFn prog))

/-- Rows, columns and batch of a gang mode's tile (04 Table 04-2). -/
def tileRows (gang : Nat) : Nat := if gang = 0 then 64 else 128
def tileCols (gang : Nat) : Nat := if gang = 2 then 128 else 64
def tileBatch (gang : Nat) : Nat := if gang = 0 then 4 else if gang = 1 then 2 else 1

/-- 04 Table 04-4 and R467; 05 R104. -/
def matmulRules (p : Plan) (x : Here) : Rules :=
  let e := x.e
  let add := e.subBit 1
  let side := decide (progKind e.drainProg = 1 ∨ progKind e.drainProg = 2)
  { fields :=
      decide (e.aFmt ≤ 6 ∧ e.bFmt ≤ 6 ∧ e.gang ≤ 2 ∧ e.subop < 4 ∧ widthOf e.aFmt = widthOf e.bFmt) &&
        named p e.descA && named p e.descB && idOk p e.maskDesc &&
        (if e.drain then named p e.descC && progOk p.curves e.drainProg
         else e.descC == noDesc && e.drainProg == 0 && !add && !e.keepDest) &&
        (!add || !e.keepDest) && (!e.longSum || e.tensorId != 0xFFFF) &&
        (!side || (named p (e.descC + 1) && !add && !e.keepDest && decide (e.tensorId ≤ 0xFFFD)))
    named := [(e.descA, coreRd), (e.descB, coreRd)] ++ opt e.descC (coreWr x (add || e.keepDest)) ++ opt e.maskDesc coreRd
    derived := if side then [(e.descC + 1, if progKind e.drainProg = 1 then coreWr x false else coreRd)] else []
    table := fun s =>
      let a := descOr s e.descA
      let b := descOr s e.descB
      let c := descOr s e.descC
      let m := descOr s e.maskDesc
      let y := descOr s (e.descC + 1)
      ownPad x a && ownPad x b &&
        decide (a.layout = 1 ∧ b.layout = 1 ∧ a.fmt = e.aFmt ∧ b.fmt = e.bFmt ∧ a.dim 2 ≤ tileBatch e.gang ∧
          b.dim 2 = a.dim 2 ∧ a.dim 1 ≤ tileRows e.gang ∧ b.dim 1 ≤ tileCols e.gang ∧ a.dim 0 ≤ 65536 ∧ b.dim 0 = a.dim 0) &&
        (e.maskDesc == noDesc ||
          (ownPad x m && decide (m.fmt = 8 ∧ m.layout = 0 ∧ m.dim 0 = a.dim 1 ∧ m.rows = 1))) &&
        (!e.drain ||
          (ownPad x c && isValueFmt c.fmt && scaleIdOk c e.tensorId &&
            decide (c.layout ≠ 2 ∧ c.dim 0 = b.dim 1 ∧ c.dim 1 = a.dim 1 ∧ c.dim 2 = a.dim 2 ∧ c.count = b.dim 1 * a.dim 1 * a.dim 2) &&
            (!add || c.fmt == 7))) &&
        (!side ||
          (ownPad x y && isValueFmt y.fmt && sameShape y c && y.layout != 2 &&
            (progKind e.drainProg != 1 || scaleIdOk y (e.tensorId + 1)))) }

/-- A scratchpad tensor of values, not a compressed stream. -/
def padValue (d : Desc) : Bool := d.place == 1 && isValueFmt d.fmt && d.layout != 2

/-- One value per row of `a`. -/
def rowShape (d a : Desc) : Bool := d.dim 0 == 1 && ([1, 2, 3, 4, 5].all fun i => d.dim i == a.dim i)

/-- 05 R108, R110; a side operand that is named holds values, whether or not the program reads it (09 R462). -/
def vectorRules (p : Plan) (x : Here) : Rules :=
  let e := x.e
  let k := progKind e.prog
  let uses := k == 1 || readsSide e.prog
  { fields :=
      decide (e.updateMode = 0 ∧ e.subop = 0) && (if k = 3 then decide (0xC0 ≤ e.prog ∧ e.prog ≤ 0xC5) else progOk p.curves e.prog) &&
        named p e.descA && named p e.descC && (!uses || named p e.descB) && (k != 1 || decide (e.tensorId ≤ 0xFFFD))
    named := [(e.descA, coreRd)] ++ opt e.descB (if k = 1 then coreWr x false else coreRd) ++ [(e.descC, coreWr x false)]
    table := fun s =>
      let a := descOr s e.descA
      let b := descOr s e.descB
      let c := descOr s e.descC
      padValue a && padValue c && (e.descB == noDesc || (b.place == 1 && isValueFmt b.fmt)) &&
        (if e.prog = 0xC2 ∨ e.prog = 0xC3 then rowShape c a else sameShape c a) &&
        (!uses || (padValue b && (if e.prog = 0xC4 ∨ e.prog = 0xC5 then rowShape b a else sameShape b a))) &&
        scaleIdOk c e.tensorId && (k != 1 || scaleIdOk b (e.tensorId + 1)) }

/-- FP32 encodings: not a NaN; 0 or more; below 1. -/
def notNan (n : Nat) : Bool := decide (n % 2 ^ 31 ≤ 0x7F800000)
def notNeg (n : Nat) : Bool := decide (n ≤ 0x7F800000 ∨ n = 0x80000000)
def belowOne (n : Nat) : Bool := decide (n < 0x3F800000 ∨ n = 0x80000000)

/-- A hyperparameter record is well formed (06 Table 06-7, R132). -/
def hyperOk (curves : Nat) (b : List Byte) : Bool :=
  let w := fun (o : Nat) => leAt b o 4
  belowOne (w 0) && belowOne (w 4) && decide (1 ≤ w 8 ∧ w 8 ≤ 0x7F800000) && notNeg (w 0xC) &&
    decide (w 0x10 % 2 ^ 31 ≠ 0 ∧ w 0x10 % 2 ^ 31 < 0x7F800000) && notNeg (w 0x14) &&
    decide (leAt b 0x18 1 ≤ curves ∧ leAt b 0x19 1 ≤ 1) && zeroSpan b 0x1A 0x40

/-- The record as data. -/
def hyperFrom (b : List Byte) : Hyper :=
  let w := fun (o : Nat) => (BitVec.ofNat 32 (leAt b o 4) : F32)
  { beta1 := w 0, beta2 := w 4, eps := w 8, decay := w 0xC, gscale := w 0x10, lr := w 0x14, curve := leAt b 0x18 1
    biasCorr := leAt b 0x19 1 == 1 }

/-- Read the rows of a plain tensor that lies in a region. -/
def readRows (p : Plan) (d : Desc) (e : Bad) : Nat → Check (List Byte)
  | 0 => pure []
  | n + 1 => do
    let l ← readRows p d e n
    let s ← get
    let r ← readFor p.ph ((regionRaw s d.unit).base + d.rowOff n) d.rowBytes e
    pure (l ++ r)

/-- Check and copy the hyperparameter record at id `id` (06 R132). -/
def checkHyper (p : Plan) (x : Here) (id : Nat) : Check Unit := do
  let b ← readRows p (descOr (← get) id) (x.bad 0x0106) (descOr (← get) id).rows
  need (hyperOk p.curves b) (x.bad 0x0106)
  modify fun s => { s with job := { s.job with hypers := (id, hyperFrom b) :: s.job.hypers } }

/-- 06 R131, Tables 06-5 and 06-6. -/
def optimRules (p : Plan) (x : Here) : Rules :=
  let e := x.e
  let adam := e.prog == 2
  let ext := e.updateMode == 2
  { fields :=
      x.update && decide (1 ≤ e.updateMode ∧ e.updateMode ≤ 2 ∧ 1 ≤ e.prog ∧ e.prog ≤ 2 ∧ e.subop = 0 ∧ e.tensorId ≤ 0xFFFD) &&
        named p e.descA && named p e.descB && named p e.descC && named p (e.descA + 1) &&
        (!adam || named p (e.descB + 1)) && (!ext || named p (e.descC + 1))
    named := [(e.descA, coreRd), (e.descB, coreWr x true), (e.descC, coreWr x true)]
    derived := [(e.descA + 1, coreRd)] ++ (if adam then [(e.descB + 1, coreWr x true)] else []) ++
      (if ext then [(e.descC + 1, coreWr x true)] else [])
    table := fun s =>
      let w := descOr s e.descC
      let h := descOr s (e.descA + 1)
      let ok := fun (id f : Nat) =>
        let d := descOr s id
        d.place == 1 && d.fmt == f && d.layout != 2 && sameShape d w
      ok e.descA 7 && ok e.descB 7 && ok e.descC 3 && (!adam || ok (e.descB + 1) 7) && (!ext || ok (e.descC + 1) 9) &&
        decide (h.layout = 0 ∧ h.fmt = 7 ∧ h.count = 16) && clsOf s h == some 0
    more := checkHyper p x (e.descA + 1) }

/-! ### Movers -/

/-- `PERM` is a permutation of the dimensions below `rank`, and 0 above (09 Table 09-6). -/
def permOk (e : Entry) (rank : Nat) : Bool :=
  (List.range 6).all fun d =>
    if d < rank then decide (e.perm d < rank) && ((List.range d).all fun k => e.perm k != e.perm d) else e.perm d == 0

/-- An operation that moves dimension 0. -/
def movesDim0 (e : Entry) : Bool := e.op == 0x31 || (e.op == 0x32 && e.perm 0 != 0)

/-- Source dimension of destination dimension `d` of a `TRANSPOSE`. -/
def swap01 (d : Nat) : Nat := if d = 0 then 1 else if d = 1 then 0 else d

/-- Extents of source and destination (09 Table 09-6, first three rules). -/
def moveShape (e : Entry) (a d : Desc) : Bool :=
  if e.op = 0x31 then (List.range 6).all fun i => d.dim i == a.dim (swap01 i)
  else if e.op = 0x32 then
    d.rank == a.rank && permOk e a.rank && ((List.range a.rank).all fun i => d.dim i == a.dim (e.perm i))
  else if d.layout = 1 then a.layout == 0 && decide (a.rank = 2 ∨ a.rank = 3) && sameShape a d
  else a.rank == d.rank && sameShape a d

/-- A core group table passes R211 but for its entries. -/
def groupTable (s : State) (d : Desc) : Bool :=
  decide (d.fmt = 9 ∧ d.rank = 1 ∧ d.dim 0 = 4096 ∧ d.layout = 0) && clsOf s d == some 0

/-- A group has 2 to 64 members, all active (R211). -/
def groupOk (active : Nat) (bs : List Byte) : Bool :=
  let m := groupMembers bs
  decide (2 ≤ m.length ∧ m.length ≤ 64) && m.all fun c => decide (c < active)

/-- Source and destination spans do not meet (Table 09-6, last rule). -/
def spansApart (a d : Desc) : Bool :=
  !(a.place == d.place && a.unit == d.unit) || decide (a.spanEnd ≤ d.offset ∨ d.spanEnd ≤ a.offset)

/-- The core group of a multicast `FILL` (R211). -/
def checkGroup (p : Plan) (x : Here) : Check Unit := do
  let s ← get
  let t := descOr s x.e.descB
  need (groupTable s t) (x.bad 0x010C)
  let a := (regionRaw s t.unit).base + t.offset
  let z ← readFor p.ph a 16 (x.bad 0x010C)
  let g ← readFor p.ph (a + 16 * x.e.coreGroup) 16 (x.bad 0x010C)
  need (z.all (· == 0) && groupOk p.active g) (x.bad 0x010C)

/-- 09 Tables 09-5 and 09-6, R201. -/
def moverRules (p : Plan) (x : Here) : Rules :=
  let e := x.e
  let fill := e.op == 0x33
  let cast := fill && decide (0 < e.coreGroup)
  let inPlace := e.op == 0x31 && e.inPlace
  { fields :=
      e.subop == 0 && named p e.descA && (if cast then named p e.descB else e.descB == noDesc) &&
        (if inPlace then e.descC == noDesc else named p e.descC) &&
        (e.op == 0x31 || !e.inPlace) && (e.op == 0x32 || fld e.w3 25 8 == 0) && (fill || e.coreGroup == 0)
    named := [(e.descA, if inPlace then wr x true else rd)] ++ opt e.descB rd ++
      opt e.descC { wr x false with any := cast }
    table := fun s =>
      let a := descOr s e.descA
      let d := if inPlace then a else descOr s e.descC
      (!fill || (decide (a.place ≠ 1) && d.place == 1 && (if cast then d.unit == 0xFFF else decide (d.unit < p.active)))) &&
        (e.op != 0x31 || decide (2 ≤ a.rank)) && moveShape e a d &&
        (a.fmt == d.fmt || (isValueFmt a.fmt && isValueFmt d.fmt)) &&
        (codesKept a d || scaleIdOk d e.tensorId) &&
        (if a.layout = 2 ∨ d.layout = 2 then
          decide (e.op = 0x30 ∧ a.layout = 2 ∧ d.layout = 2 ∧ a.dim 0 = d.dim 0 ∧ a.fmt = d.fmt) else true) &&
        decide (a.layout ≠ 1) && (!movesDim0 e || !([a.fmt, d.fmt].any fun f => f == 8 || f == 0xC)) &&
        (!inPlace || decide (a.layout = 0 ∧ (a.fmt = 0 ∨ a.fmt = 1 ∨ a.fmt = 9) ∧ (a.rank = 2 ∨ a.rank = 3) ∧
          a.dim 0 = a.dim 1 ∧ a.dim 0 % 64 = 0 ∧ nth a.stride 1 * 64 = a.dim 0))
    more := do
      if cast then checkGroup p x
      let s ← get
      need (inPlace || spansApart (descOr s e.descA) (descOr s e.descC)) (x.bad 0x010B) }

/-- The slot tag of an entry in a segment (05 R112). -/
def tagHere (x : Here) : Nat := slotTag x.e x.slot

/-- 05 R111, Table 05-7. -/
def stashRules (p : Plan) (x : Here) (w : Walk) : Rules :=
  let e := x.e
  let write := e.op == 0x34
  let own := if write then e.descA else e.descC
  { fields :=
      e.tagged && fld e.w3 63 0 == 0 && e.tensorId != 0xFFFF && e.descB == noDesc &&
        (if write then e.descC else e.descA) == noDesc && named p own && decide (e.subop ≤ (if write then 0 else 1)) &&
        (write || p.stashed.contains (e.tensorId, x.slot.getD 0))
    named := [(own, { reads := write, writes := !write, update := x.update, stash := true })]
    table := fun s =>
      let d := descOr s own
      liesIn s d [2, 3] && (match w.sizes.find? fun z => z.1 == tagHere x with
        | some z => z.2 == stashSize d
        | none => true) }

/-! ### Junction engines -/

/-- An index tensor of the entry (07 R152, Table 07-4). -/
def indexOk (s : State) (e : Entry) (d : Desc) : Bool :=
  d.fmt == (if e.subBit 0 then 0xA else 0xB) && liesIn s d [0, 3, 5]

/-- A row of a `GATHER` or `SCATTER_ADD` operand (Table 07-4). -/
def rowOk (d : Desc) : Bool := decide (64 ≤ d.rowBytes ∧ d.rowBytes ≤ 65536)

/-- `CAPACITY`, `EXPERTS` and `TOPK` are 0. -/
def noRouting (e : Entry) : Bool := fld e.w3 29 0 == 0

/-- No operand of these is a compressed stream, or lies in an ACT or LCK region. -/
def dense (s : State) (ds : List Desc) : Bool :=
  ds.all fun d => d.layout != 2 && clsOf s d != some 2 && clsOf s d != some 6

/-- GATHER. -/
def gatherRules (p : Plan) (x : Here) : Rules :=
  let e := x.e
  { fields := decide (e.subop ≤ 1) && noRouting e && named p e.descA && named p e.descB && named p e.descC && e.descD == noDesc
    named := [(e.descA, rd), (e.descB, rd), (e.descC, wr x false)]
    table := fun s =>
      let t := descOr s e.descA
      let i := descOr s e.descB
      let o := descOr s e.descC
      dense s [t, i, o] && indexOk s e i && (liesIn s t [0, 1, 3, 5] || t.place == 2) && liesIn s o [3] &&
        decide (t.fmt = o.fmt ∧ t.dim 0 = o.dim 0 ∧ o.rows = i.count) && rowOk t && rowOk o && apart s o [t, i] }

/-- SCATTER_ADD. -/
def scatterRules (p : Plan) (x : Here) : Rules :=
  let e := x.e
  { fields := decide (e.subop ≤ 3) && noRouting e && named p e.descA && named p e.descB && named p e.descC && e.descD == noDesc
    named := [(e.descA, rd), (e.descB, rd), (e.descC, wr x (!e.subBit 1))]
    table := fun s =>
      let a := descOr s e.descA
      let i := descOr s e.descB
      let d := descOr s e.descC
      dense s [a, i, d] && indexOk s e i && isValueFmt a.fmt && liesIn s d [3] &&
        decide (d.fmt = 7 ∧ a.dim 0 = d.dim 0 ∧ d.dim 0 ≤ 16384 ∧ a.rows = i.count) && rowOk a && rowOk d && apart s d [a, i] }

/-- The output of a `MERGE` has the shape of one partial: its `RANK`, 1 at least, and its extents (07 R162). -/
def partialShape (a c : Desc) : Bool :=
  c.rank == max 1 (a.rank - 1) && (List.range 6).all fun i => c.dim i == (if i + 1 < a.rank then a.dim i else 1)

/-- MERGE. -/
def mergeRules (p : Plan) (x : Here) : Rules :=
  let e := x.e
  { fields := decide (e.subop ≤ 1) && noRouting e && named p e.descA && idOk p e.descB && named p e.descC && e.descD == noDesc
    named := [(e.descA, rd)] ++ opt e.descB rd ++ [(e.descC, wr x (e.subBit 0))]
    table := fun s =>
      let a := descOr s e.descA
      let m := descOr s e.descB
      let c := descOr s e.descC
      let n := a.dim (a.rank - 1)
      let ms := if e.descB = noDesc then [] else [m]
      dense s ([a, c] ++ ms) && decide (1 ≤ n ∧ n ≤ 256) && partialShape a c && isValueFmt a.fmt && isValueFmt c.fmt &&
        (ms.all fun m => decide (m.fmt = 8 ∧ m.count = n * c.rows)) && scaleIdOk c e.tensorId && apart s c ([a] ++ ms) }

/-- Tiles of a dense tensor (07 R164). -/
def tilesOf (d : Desc) : Nat := ceilDiv (plainBytes d) 4096

/-- COMPRESS and DECOMPRESS: `c` the stream, `d` the dense tensor. A source has a format of 0x0 to 0x6 (Table 07-4), a
destination any format of values (09 R462). -/
def compressRules (p : Plan) (x : Here) : Rules :=
  let e := x.e
  { fields := e.subop == 0 && noRouting e && named p e.descA && e.descB == noDesc && named p e.descC && e.descD == noDesc &&
      e.tensorId == 0xFFFF
    named := [(e.descA, rd), (e.descC, wr x false)]
    table := fun s =>
      let a := descOr s e.descA
      let o := descOr s e.descC
      let c := if e.op = 0x46 then o else a
      let d := if e.op = 0x46 then a else o
      dense s [d] && clsOf s c != some 2 && clsOf s c != some 6 &&
        decide (c.layout = 2 ∧ d.fmt ≤ (if e.op = 0x46 then 6 else 7) ∧ 4160 * tilesOf d ≤ c.dim 0) && apart s o [a] }

/-- HISTOGRAM. -/
def histogramRules (p : Plan) (x : Here) : Rules :=
  let e := x.e
  { fields := decide (e.subop ≤ 3) && noRouting e && named p e.descA && e.descB == noDesc && named p e.descC && idOk p e.descD &&
      e.tensorId == 0xFFFF
    named := [(e.descA, rd), (e.descC, wr x (e.subBit 1))] ++ opt e.descD (wr x false)
    table := fun s =>
      let i := descOr s e.descA
      let c := descOr s e.descC
      let rs := if e.descD = noDesc then [] else [descOr s e.descD]
      dense s ([i, c] ++ rs) && indexOk s e i && c.fmt == 0xB &&
        (rs.all fun r => decide (r.fmt = 0xB ∧ r.count = i.count) && apart s r [i, c]) && apart s c [i] }

/-! ### Routing -/

/-- `CAPACITY` and `TOPK` of `ROUTE`, `DISPATCH` and the merge form (08 Table 08-7). -/
def routeFields (e : Entry) : Bool := decide (1 ≤ e.capacity ∧ 1 ≤ e.topk ∧ e.topk ≤ 8 ∧ e.topk ≤ e.experts)

/-- A group tensor of T tokens, and a route table of T rows. -/
def groupTensor (d : Desc) (t : Nat) : Bool := decide (widthOf d.fmt = 16 ∧ d.count = t)
def routeTable (d : Desc) (t : Nat) : Bool := decide (d.rowBytes = 64 ∧ d.rows = t)

/-- The four descriptors of a routing entry. -/
def fourOf (s : State) (e : Entry) : Desc × Desc × Desc × Desc :=
  (descOr s e.descA, descOr s e.descB, descOr s e.descC, descOr s e.descD)

/-- All four are named. -/
def allFour (p : Plan) (e : Entry) : Bool := named p e.descA && named p e.descB && named p e.descC && named p e.descD

/-- ROUTE (08 Table 08-1). -/
def routeRules (p : Plan) (x : Here) : Rules :=
  let e := x.e
  { fields := decide (e.subop ≤ 1) && routeFields e && e.tensorId == 0xFFFF && e.tagged && allFour p e
    named := [(e.descA, rd), (e.descB, rd), (e.descC, wr x false), (e.descD, wr x false)]
    table := fun s =>
      let (a, g, r, l) := fourOf s e
      dense s [a, g, r, l] && decide (a.fmt = 3 ∨ a.fmt = 7) && liesIn s a [3] && a.dim 0 == e.experts &&
        groupTensor g a.rows && routeTable r a.rows && decide (widthOf l.fmt = 64 ∧ l.count = e.experts) &&
        apart s r [a, g, l] && apart s l [a, g] }

/-- One placement entry (08 Tables 08-4, 08-7). -/
def placementOk (bs : List Byte) : Bool :=
  let n := leNat bs
  decide (bits n 15 12 = 0 ∧ bits n 31 26 = 0 ∧ bits n 47 44 = 0 ∧ bits n 63 60 = 0 ∧ bits n 127 96 = 0 ∧
    bits n 43 32 ≤ bits n 59 48)

/-- DISPATCH (08 R182); its token rows hold values (09 R462). -/
def dispatchRules (p : Plan) (x : Here) : Rules :=
  let e := x.e
  { fields := e.subop == 0 && routeFields e && e.tensorId == 0xFFFF && e.tagged && allFour p e
    named := [(e.descA, rd), (e.descB, rd), (e.descC, rd), (e.descD, rd)]
    table := fun s =>
      let (a, r, g, t) := fourOf s e
      dense s [a, r, g, t] && isValueFmt a.fmt && liesIn s a [3] && routeTable r a.rows && groupTensor g a.rows && clsOf s t == some 0 &&
        decide (t.layout = 0 ∧ plainBytes t = 16 * e.experts)
    more := do
      let t := descOr (← get) e.descD
      let bs ← readRows p t (x.bad 0x0102) t.rows
      need ((List.range e.experts).all fun i => placementOk ((bs.drop (16 * i)).take 16)) (x.bad 0x0102) }

/-- COMBINE with `RETURN` (08 Table 08-6); the expert outputs hold values (09 R462). -/
def returnRules (p : Plan) (x : Here) : Rules :=
  let e := x.e
  { fields := e.subop == 1 && e.topk == 0 && e.tensorId == 0xFFFF && !e.tagged && named p e.descA && named p e.descB &&
      e.descC == noDesc && named p e.descD
    named := [(e.descA, rd), (e.descB, rd), (e.descD, rd)]
    table := fun s =>
      let (a, h, _, t) := fourOf s e
      dense s [a, h, t] && isValueFmt a.fmt && clsOf s t == some 0 && decide (t.layout = 0 ∧ plainBytes t % 8 = 0)
    more := do
      let t := descOr (← get) e.descD
      let bs ← readRows p t (x.bad 0x0102) t.rows
      need ((List.range (bs.length / 8)).all fun i => bits (leAt bs (8 * i) 8) 63 12 == 0) (x.bad 0x0102) }

/-- COMBINE without `RETURN` (08 Table 08-6). -/
def combineRules (p : Plan) (x : Here) : Rules :=
  let e := x.e
  { fields := decide (e.subop = 0 ∨ e.subop = 2) && routeFields e && e.tagged && allFour p e
    named := [(e.descA, rd), (e.descB, rd), (e.descC, wr x (e.subBit 1)), (e.descD, rd)]
    table := fun s =>
      let (a, r, c, g) := fourOf s e
      dense s [a, r, c, g] && isValueFmt a.fmt && isValueFmt c.fmt && a.rows == e.experts * e.capacity &&
        routeTable r c.rows && groupTensor g c.rows && scaleIdOk c e.tensorId && apart s c [a, r, g] }

/-- GROUPED (08 R192, Table 08-9). -/
def groupedRules (p : Plan) (x : Here) : Rules :=
  let e := x.e
  let form := e.subop % 8
  let moves := decide (form ≤ 1)
  { fields := decide (form ≤ 4 ∧ e.subop < 16) && noRouting e && e.tagged && (moves || e.tensorId == 0xFFFF) &&
      (if moves then named p e.descA else e.descA == noDesc) && e.descB == noDesc && named p e.descC &&
      (if form = 0 then idOk p e.descD else e.descD == noDesc)
    named := opt e.descA rd ++ [(e.descC, wr x false)] ++ opt e.descD (wr x false)
    table := fun s =>
      let a := descOr s e.descA
      let c := descOr s e.descC
      let as := if moves then [a] else []
      let ms := if e.descD = noDesc then [] else [descOr s e.descD]
      dense s ([c] ++ as ++ ms) && (([c] ++ as ++ ms).all fun d => liesIn s d [3]) &&
        (as.all fun a => decide (a.fmt = c.fmt ∧ a.dim 0 = c.dim 0)) &&
        (decide (form ≠ 2 ∧ form ≠ 3) || widthOf c.fmt == 16) && apart s c (as ++ ms) && (ms.all fun m => apart s m as) }

/-! ### Ring engines -/

/-- Element formats of a ring entry (13 Table 13-7). -/
def ringFmt (f : Nat) : Bool := decide (f ≤ 3 ∨ f = 7 ∨ (8 ≤ f ∧ f ≤ 0xC))
def sumFmt (f : Nat) : Bool := decide (f ≤ 3 ∨ f = 7)

/-- Elements of the full tensor, and of a shard, as a collective's operands give them. -/
def fullCount (op : Nat) (a c : Desc) : Nat := if op = 0x51 then c.count else a.count
def shardOk (op n : Nat) (a c : Desc) : Bool :=
  if op = 0x50 then c.count * n == a.count else if op = 0x51 then a.count * n == c.count else a.count == c.count

/-- A chunk half is a multiple of 64 bytes. -/
def halfOk (n h f : Nat) : Bool := n / h * widthOf f % 512 == 0

/-- 13 Tables 13-6 and 13-7. -/
def ringRules (p : Plan) (x : Here) (w : Walk) : Rules :=
  let e := x.e
  let windowOp := decide (0x54 ≤ e.op)
  let coll := decide (e.op ≤ 0x52)
  let reduces := e.op == 0x50 || e.op == 0x52
  let gate := coll && e.subBit 0
  let spanLog := bits e.subop 6 3
  { fields :=
      if windowOp then
        e.descA == noDesc && e.descB == noDesc && e.descC == noDesc && e.transit == 0 && !e.divide && e.subop == 0 &&
          decide (e.ring ≤ 2)
      else
        e.ring == x.unit && p.rings.contains e.ring && e.window == 0 && e.descB == noDesc && named p e.descA && named p e.descC &&
          (if coll then decide (e.subop < 4) else decide (bits e.subop 1 0 = 0 ∧ bits e.subop 7 7 = 0) && e.tagged) &&
          (if reduces then decide (e.transit = 3 ∨ e.transit = 7) else e.transit == 0 && !e.divide) &&
          (!gate || (!x.update && w.gates == 0))
    named := if windowOp then [] else [(e.descA, rd), (e.descC, wr x false)]
    table := fun s =>
      let a := descOr s e.descA
      let c := descOr s e.descC
      let n := ringLen s e.ring
      let parts := if e.subBit 1 then 2 * n else n
      windowOp ||
        (decide (a.place ≤ 1 ∧ c.place ≤ 1 ∧ a.layout ≠ 2 ∧ c.layout ≠ 2) && ringFmt a.fmt && ringFmt c.fmt &&
          (if reduces then sumFmt a.fmt && sumFmt c.fmt && scaleIdOk c e.tensorId else a.fmt == c.fmt) &&
          (if coll then
            let n' := fullCount e.op a c
            n' % parts == 0 && shardOk e.op n a c && halfOk n' parts a.fmt && halfOk n' parts c.fmt &&
              (!reduces || halfOk n' parts e.transit)
           else (spanLog == 0 || n % 2 ^ spanLog == 0) && a.count * widthOf a.fmt == c.count * widthOf c.fmt)) }

/-! ## One entry -/

/-- A control entry has no rules beyond the structural ones; a descriptor that it names is checked like any other, and holds
values (09 R203, R462). -/
def controlRules (x : Here) : Rules :=
  let u : Use := { reads := false }
  let ids := [x.e.descA, x.e.descB, x.e.descC].filter (· != noDesc)
  { named := opt x.e.descA u ++ opt x.e.descB u ++ opt x.e.descC u
    table := fun s => ids.all fun id => isValueFmt (descOr s id).fmt }

/-- The rules of an entry's opcode. -/
def rulesOf (p : Plan) (x : Here) (w : Walk) : Rules :=
  let op := x.e.op
  if op = 0x10 then matmulRules p x
  else if op = 0x20 then vectorRules p x
  else if op = 0x21 then optimRules p x
  else if op = 0x34 ∨ op = 0x35 then stashRules p x w
  else if 0x30 ≤ op ∧ op ≤ 0x33 then moverRules p x
  else if op = 0x40 then gatherRules p x
  else if op = 0x41 then scatterRules p x
  else if op = 0x42 then mergeRules p x
  else if op = 0x43 then routeRules p x
  else if op = 0x44 then dispatchRules p x
  else if op = 0x45 then (if x.e.subBit 0 then returnRules p x else combineRules p x)
  else if op = 0x46 ∨ op = 0x47 then compressRules p x
  else if op = 0x48 then histogramRules p x
  else if op = 0x49 then groupedRules p x
  else if 0x50 ≤ op ∧ op ≤ 0x55 then ringRules p x w
  else controlRules x

/-- What the walk keeps of an entry. -/
def walkPast (x : Here) (size : Nat) (w : Walk) : Walk :=
  let e := x.e
  let w := { w with leading := w.leading && e.op == 1, update := w.update || e.op == 3 }
  if e.op = 1 then { w with sets := e.postPass :: w.sets }
  else if e.op = 0x34 ∨ e.op = 0x35 then
    (if w.sizes.any fun z => z.1 == tagHere x then w else { w with sizes := (tagHere x, size) :: w.sizes })
  else if 0x50 ≤ e.op ∧ e.op ≤ 0x52 ∧ e.subBit 0 = true then { w with gates := w.gates + 1 }
  else w

/-- The ring of the stream lacks its gate-carrying entry (06 R144, 13 Table 13-7); found at the stream's last entry. -/
def gateMissing (p : Plan) (x : Here) (w : Walk) : Bool := x.kind == 3 && p.rings.contains x.unit && w.gates == 0

/-- Check one entry; `later` holds the entries after it (03 R48). DEDUCED: log entry 85. -/
def checkEntry (p : Plan) (x : Here) (later : List Entry) (w : Walk) : Check Walk := do
  let bad := x.bad 0x0102
  need (structureOk p x w later) bad
  let r := rulesOf p x w
  need r.fields bad
  checkDescs p x r.named r.derived
  let s ← get
  need (r.table s) bad
  r.more
  need (!(later.isEmpty && gateMissing p x w)) bad
  pure (walkPast x (stashSize (descOr s (if x.e.op = 0x34 then x.e.descA else x.e.descC))) w)

/-- `MB_SLOT` of the segment of an entry: `left` entries of the segment `slot` remain. -/
def nextSeg (e : Entry) (left slot : Nat) : Nat × Nat :=
  if 0 < left then (left - 1, slot) else if e.op = 2 then (e.skipLen, e.mbSlot) else (0, 0)

/-- Check the entries of one stream from entry `idx` on. -/
def checkEntries (p : Plan) (kind unit st : Nat) : Nat → Nat → Nat → List Entry → Walk → Check Walk
  | _, _, _, [], w => pure w
  | idx, left, slot, e :: l, w => do
    let x : Here := { kind := kind, unit := unit, st := st, idx := idx, e := e
                      slot := if 0 < left then some slot else none, update := w.update }
    let w ← checkEntry p x l w
    checkEntries p kind unit st (idx + 1) (nextSeg e left slot).1 (nextSeg e left slot).2 l w

/-- Check every stream in stream-table order. -/
def checkStreams (p : Plan) : Nat → List Stream → Walk → Check Unit
  | _, [], _ => pure ()
  | st, x :: l, w => do
    let w ← checkEntries p x.kind x.unit st 0 0 0 x.entries { w with leading := true, update := false, gates := 0 }
    checkStreams p (st + 1) l w

/-- `TENSOR_ID` and `MB_SLOT` of the `STASH_WRITE` entries of a stream. -/
def stashWrites : Nat → Nat → List Entry → List (Nat × Nat)
  | _, _, [] => []
  | left, slot, e :: l =>
    (if 0 < left ∧ e.op = 0x34 then [(e.tensorId, slot)] else []) ++
      stashWrites (nextSeg e left slot).1 (nextSeg e left slot).2 l

end Sys2Proof.Machine
end

