-- ==== Sys2Proof/Machine/Validate.lean ====
section
/-! DEFINITION. Job validation (03 R45 to R49, 05 R105, 06 R126, 11 R234, 13 R285, R292, 14 R335, 20 R431). -/

namespace Sys2Proof.Machine

/-! ## Images (03 R45) -/

/-- A range lies wholly in valid regions of a class, in at most `k` of them. -/
def coveredBy (s : State) (cls : Nat) : Nat → Nat → Nat → Bool
  | 0, _, n => n == 0
  | k + 1, a, n =>
    n == 0 || (match regionOf s a with
      | some r => r.cls == cls && coveredBy s cls k (r.base + r.size) (n - (r.base + r.size - a))
      | none => false)

/-- Part of a Timetable image: wholly in regions of class WGT. -/
def inImage (s : State) (a n : Nat) : Bool := coveredBy s 0 256 a n

/-- The header from its 256 bytes (03 Table 03-1). -/
def headerFrom (b : List Byte) : Header :=
  { profileCore := leAt b 6 1, profileHbm := leAt b 7 1, floor := leAt b 8 2, mbMax := leAt b 0xA 1, buckets := leAt b 0xB 1
    deadline := leAt b 0xC 4, streamTable := leAt b 0x10 8, streams := leAt b 0x18 2, descTable := leAt b 0x20 8
    descCount := leAt b 0x28 4, derivTable := leAt b 0x30 8, hashMap := leAt b 0x38 8
    bucketLimit := (List.range 16).map fun i => leAt b (0x40 + 4 * i) 4 }

/-- A failure that names no stream. -/
def jobBad (code : Nat) : Bad := { code := code }

/-- The header's bytes, under their `CHECK` (R45, R48). -/
def readHeader (ph : List Phys) : Check (List Byte) := do
  let s ← get
  need (inImage s s.job.ttBase 256) (jobBad 0x0101)
  let b ← readFor ph s.job.ttBase 256 (jobBad 0x0101)
  need (crc32 (b.take 0xF8) == leAt b 0xF8 4) (jobBad 0x0101)
  pure b

/-! ## Profile and maps (01 R21, 20 R431) -/

/-- Active cores of a compute profile (01 Table 01-6). -/
def profileCores (k : Nat) : Nat := 4 * coresPer k

/-- The enabled and mapped instances map logical units 0 to n − 1 once each. -/
def mapsOnce (s : State) (t : Blk) (n : Nat) : Bool :=
  let ls := ((List.range (built t)).filter fun i => getB s (Reg.blkCtrl t i) 63 && getB s (Reg.blkCtrl t i) 40).map fun i =>
    getF s (Reg.blkCtrl t i) 39 32
  ls.length == n && (List.range n).all fun l => ls.contains l

/-- The device runs in the header's profile. -/
def profileOk (s : State) (h : Header) : Bool :=
  let n := profileCores h.profileCore
  mapsOnce s .core n && mapsOnce s .jnc (n / 4) && mapsOnce s .hpb 32 && h.profileHbm == hbmProfile s

/-! ## Header fields in header order (03 R48, Table 03-1) -/

/-- Fields at 0x00A to 0x02F: limits, deadline, the stream table with one entry for each unit (R46), the descriptor table. -/
def tablesOk (s : State) (b : List Byte) : Bool :=
  let h := headerFrom b
  let n := profileCores h.profileCore
  let n := n + n / 4 + 11
  decide (1 ≤ h.mbMax ∧ h.mbMax ≤ 64 ∧ 1 ≤ h.buckets ∧ h.buckets ≤ 16 ∧ 1 ≤ h.deadline ∧ h.deadline ≤ 0x80000000 ∧
      h.streamTable % 64 = 0 ∧ h.streams = n ∧ h.descTable % 64 = 0 ∧ 1 ≤ h.descCount ∧ h.descCount ≤ 2 ^ 20) &&
    inImage s h.streamTable (16 * n) && zeroSpan b 0x1A 0x20 && inImage s h.descTable (64 * h.descCount) && zeroSpan b 0x2C 0x30

/-- Fields from 0x040 on. -/
def limitsOk (b : List Byte) : Bool :=
  let h := headerFrom b
  (h.bucketLimit.drop h.buckets).all (· == 0) && zeroSpan b 0x80 0xF8 && zeroSpan b 0xFC 0x100

/-- The header's fields up to the derivative tables, in the order of their offsets (R48): `MAGIC` and `VERSION`; the profile;
the floor; limits and tables. DEDUCED: log entry 84. -/
def checkFields (b : List Byte) : Check Header := do
  let s ← get
  let h := headerFrom b
  let bad := jobBad 0x0102
  need (decide (leAt b 0 4 = 0x4B545401 ∧ leAt b 4 2 = 1)) bad
  need (decide (h.profileCore ≤ 3 ∧ h.profileHbm ≤ 4)) bad
  need (profileOk s h) (jobBad 0x0103)
  need (decide (1400 ≤ h.floor ∧ h.floor ≤ 2500)) bad
  need (decide (h.floor ≤ policyFloor s)) (jobBad 0x0104)
  need (tablesOk s b) bad
  pure h

/-! ## Derivative tables (05 R105) -/

/-- A curve from its 3,136 bytes (05 Table 05-4). -/
def curveFrom (b : List Byte) : Curve :=
  let w := fun (o : Nat) => (BitVec.ofNat 32 (leAt b o 4) : F32)
  { lo := w 0, exp := signed 8 (leAt b 4 1), l0 := w 8, l1 := w 0xC, h0 := w 0x10, h1 := w 0x14
    seg := (List.range 256).map fun i => (w (0x40 + 12 * i), w (0x44 + 12 * i), w (0x48 + 12 * i)) }

/-- Reserved bytes, `EXP` and the FP32 fields of a curve. -/
def curveOk (b : List Byte) : Bool :=
  let x := signed 8 (leAt b 4 1)
  zeroSpan b 5 8 && zeroSpan b 0x18 0x40 && decide (-24 ≤ x ∧ x ≤ 8) &&
    ([0, 8, 0xC, 0x10, 0x14].all fun o => notNan (leAt b o 4)) && (List.range 768).all fun i => notNan (leAt b (0x40 + 4 * i) 4)

/-- The curves F and D of each function record. -/
def checkDeriv (ph : List Phys) (a : Nat) : Check (List (Curve × Curve)) :=
  if a = 0 then pure []
  else do
    let bad := jobBad 0x0105
    let s ← get
    need (inImage s a 0x40) bad
    let h ← readFor ph a 0x40 bad
    let n := leAt h 6 1
    need (decide (leAt h 0 4 = 0x4B544401 ∧ leAt h 4 2 = 1 ∧ n ≤ 15) && zeroSpan h 7 8 && zeroSpan h 0xC 0x40 &&
      inImage s (a + 0x40) (n * 6272)) bad
    let b ← readFor ph (a + 0x40) (n * 6272) bad
    need (crc32 b == leAt h 8 4) bad
    let curve := fun (j o : Nat) => (b.drop (6272 * j + o)).take 3136
    need ((List.range n).all fun j => curveOk (curve j 0) && curveOk (curve j 3136)) bad
    pure ((List.range n).map fun j => (curveFrom (curve j 0), curveFrom (curve j 3136)))

/-! ## Hash record (11 R234), scale table (06 R126), secured regions (14 R335) -/

/-- The hash record's content. -/
def hashOk (s : State) (b : List Byte) : Bool :=
  decide (leAt b 0 4 = 0x4B544801 ∧ leAt b 4 2 = 1 ∧ leAt b 6 2 = hbmN s ∧ leAt b 8 8 = 0x9E3779B97F4A7C15) &&
    zeroSpan b 0x10 0x3C && crc32 (b.take 0x3C) == leAt b 0x3C 4

/-- The hash record. DESIGN CHOICE: log entry 162. -/
def checkHash (ph : List Phys) (a : Nat) : Check Unit := do
  let s ← get
  need (inImage s a 64) (jobBad 0x010D)
  let b ← readFor ph a 64 (jobBad 0x010D)
  need (hashOk s b) (jobBad 0x010D)

/-- Base of the scale table. -/
def scaleBase (s : State) : Nat := getF s Reg.scaleTable 47 8 * 256

/-- The scale table's records, each checked. -/
def checkScales (ph : List Phys) : Check (Cells ScaleRec) := do
  let s ← get
  need (inRegion s (scaleBase s) 0x80000 (· == 1)) (jobBad 0x0107)
  let b ← readFor ph (scaleBase s) 0x80000 (jobBad 0x0107)
  let rs := (chunks 128 b).map parseScale
  need (rs.all (·.isSome)) (jobBad 0x0107)
  pure (rs.zipIdx.foldl (fun m (r : Option ScaleRec × Nat) => cellSet noScale m r.2 (r.1.getD {})) [])

/-- A marked region is of class WGT or STA. -/
def securedOk (s : State) : Bool :=
  (List.range 256).all fun k =>
    !getB s (Reg.secureMap (k / 64)) (k % 64) || (match region? s k with
      | some r => decide (r.cls ≤ 1)
      | none => true)

/-! ## Window table (13 R292) -/

/-- A window table entry from its 32 bytes (13 Table 13-3). -/
def winFrom (b : List Byte) : WinEntry :=
  let f := leAt b 2 1
  { kind := leAt b 0 1, ring := leAt b 1 1, stash := bit f 0, noWrite := bit f 1, noRead := bit f 2, noticeAbs := bit f 3
    region := leAt b 3 1, pos := leAt b 4 2, target := leAt b 6 2, offset := leAt b 8 8, size := leAt b 0x10 8
    arrivalPass := bits (leAt b 0x18 2) 14 0, arrivalEn := bit (leAt b 0x18 2) 15 }

/-- An `OWNED` entry (R292). -/
def ownedOk (s : State) (e : WinEntry) : Bool :=
  let unit := if e.stash then 65536 else 64
  (match region? s e.region with
    | some r => r.cls == (if e.stash then 2 else 4) && decide (e.offset + e.size ≤ r.size)
    | none => false) &&
    decide (e.size ≠ 0 ∧ e.offset % unit = 0 ∧ e.size % unit = 0 ∧ e.target ≤ 4096) &&
    (!e.arrivalEn || decide (e.arrivalPass < 0x7F00))

/-- A `REMOTE` or `REMOTE_REL` entry (R292). -/
def remoteOk (s : State) (e : WinEntry) : Bool :=
  !e.noWrite && !e.noRead && !e.noticeAbs && e.region == 0 && decide (e.target < 4096 ∧ e.offset = 0 ∧ e.size = 0) &&
    e.arrivalPass == 0 && !e.arrivalEn &&
    (if e.kind = 3 then inRingRole s e.ring
     else if inTreeRole s e.ring then decide (e.pos ≤ 1)
     else !inRingRole s e.ring || decide (e.pos < ringLen s e.ring)) &&
    (!e.stash || (inRingRole s 0 && decide (e.ring = 0 ∧ 2 ≤ ringLen s 0) &&
      (winOwner s e == posUp s 0 || winOwner s e == posDown s 0)))

/-- One entry: its reserved bits and encodings, and the rules of its kind. -/
def windowOk (s : State) (b : List Byte) : Bool :=
  let e := winFrom b
  zeroSpan b 0x1A 0x20 && decide (e.ring ≤ 2 ∧ leAt b 2 1 < 16 ∧ e.pos < 4096) &&
    (if e.kind = 0 then b.all (· == 0)
     else if e.kind = 1 then ownedOk s e
     else decide (e.kind ≤ 3) && remoteOk s e)

/-- The window table as copied; every entry is `UNUSED` without one. -/
def checkWindows (ph : List Phys) : Check (Cells WinEntry) := do
  let s ← get
  if !getB s Reg.windowTable 0 then pure []
  else do
    let bad := jobBad 0x010E
    let a := getF s Reg.windowTable 47 6 * 64
    need (inRegion s a 0x20000 (· == 0)) bad
    let b ← readFor ph a 0x20000 bad
    let es := chunks 32 b
    let ws := es.map winFrom
    need (es.all (windowOk s) && decide ((ws.filter fun w => decide (2 ≤ w.kind) && w.stash).length ≤ 1)) bad
    pure (ws.zipIdx.foldl (fun m (w : WinEntry × Nat) => cellSet noWin m w.2 w.1) [])

/-! ## Stream table (03 R46, Table 03-2) -/

/-- Logical units of a kind in a profile of `active` cores. -/
def unitsOf (active kind : Nat) : Nat :=
  if kind = 0 then active else if kind = 1 then active / 4 else if kind = 2 then 8 else if kind = 3 then 3 else 0

/-- Read the streams from the stream table's entries; `seen` holds the units met. -/
def readStreams (ph : List Phys) (active : Nat) :
    Nat → List (Nat × Nat) → List (List Byte) → Check (List (Stream × Nat))
  | _, _, [] => pure []
  | i, seen, b :: l => do
    let base := leAt b 0 8
    let n := leAt b 8 4
    let kind := leAt b 12 1
    let unit := leAt b 13 1
    let bad : Bad := { code := 0x0102, stream := i }
    let s ← get
    need (decide (unit < unitsOf active kind ∧ base % 32 = 0 ∧ 1 ≤ n ∧ n ≤ 0x10000000) && !seen.contains (kind, unit) &&
      zeroSpan b 14 16 && inImage s base (32 * n)) bad
    let raw ← readFor ph base (32 * n) bad
    let x : Stream := { kind := kind, unit := unit, entries := (chunks 32 raw).map entryOf }
    let rest ← readStreams ph active (i + 1) ((kind, unit) :: seen) l
    pure ((x, base) :: rest)

/-- The stream table and its streams, each with its address. -/
def checkTable2 (ph : List Phys) (h : Header) (active : Nat) : Check (List (Stream × Nat)) := do
  let b ← readFor ph h.streamTable (16 * h.streams) (jobBad 0x0102)
  readStreams ph active 0 [] (chunks 16 b)

/-! ## Rings (13 R285) -/

/-- The rings that a job uses. -/
def ringsUsed (xs : List Stream) (ws : Cells WinEntry) : List Nat :=
  (List.range 3).filter fun r =>
    (xs.any fun x => x.entries.any fun e => decide (0x50 ≤ e.op ∧ e.op ≤ 0x55) && e.ring == r) || (ws.any fun w => w.2.ring == r && w.2.kind != 0)

/-- The ring's position lies below its length, and no port of its pair is DISABLED. DEDUCED: log entry 89. -/
def ringConfigOk (s : State) (r : Nat) : Bool :=
  decide (ringPos s r < ringLen s r ∧ portRole s (2 * r) ≠ 3 ∧ portRole s (2 * r + 1) ≠ 3)

/-! ## The whole job (03 R48) -/

/-- Where descriptor `id` lies in a region, as memory holds it: device addresses, or nothing. -/
def regionSpan (s : State) (h : Header) (id : Nat) : List (Nat × Nat) :=
  let d := descMem s h id
  if id < h.descCount ∧ descCheck1 d true = true ∧ d.place = 0 then
    match region? s d.unit with
    | some r => [(r.base + d.offset, r.base + d.spanEnd)]
    | none => []
  else []

/-- Structures that an entry names and that no destination may overlap (Table 09-4 check 8): hyperparameter records and core
group tables. -/
def entryTables (s : State) (h : Header) (e : Entry) : List (Nat × Nat) :=
  if e.op = 0x21 then regionSpan s h (e.descA + 1)
  else if e.op = 0x33 ∧ 0 < e.coreGroup then regionSpan s h e.descB
  else []

/-- Everything that check 8 protects. DEDUCED: log entry 88. -/
def protectedSpans (s : State) (h : Header) (curves : Nat) (xs : List (Stream × Nat)) : List (Nat × Nat) :=
  let span := fun (a n : Nat) => (a, a + n)
  [span s.job.ttBase 256, span h.streamTable (16 * xs.length), span h.descTable (64 * h.descCount), span h.hashMap 64,
   span (scaleBase s) 0x80000] ++
  (if h.derivTable = 0 then [] else [span h.derivTable (0x40 + curves * 6272)]) ++
  xs.map (fun (x : Stream × Nat) => span x.2 (32 * x.1.entries.length)) ++
  (xs.map fun (x : Stream × Nat) => (x.1.entries.map (entryTables s h)).flatten).flatten

/-- What a valid job leaves to be copied. -/
structure Checked where
  h : Header
  curves : List (Curve × Curve)
  scales : Cells ScaleRec
  windows : Cells WinEntry
  streams : List Stream

/-- Every check of job validation in order: the header by offset, the structures that no header field names, the streams
(R48). DEDUCED: log entry 84. -/
def checkJob (ph : List Phys) : Check Checked := do
  let b ← readHeader ph
  let h ← checkFields b
  let curves ← checkDeriv ph h.derivTable
  checkHash ph h.hashMap
  need (limitsOk b) (jobBad 0x0102)
  let s ← get
  let scales ← checkScales ph
  let windows ← checkWindows ph
  need (securedOk s) (jobBad 0x0110)
  let active := profileCores h.profileCore
  let xs ← checkTable2 ph h active
  let streams := xs.map fun (x : Stream × Nat) => x.1
  let used := ringsUsed streams windows
  let s ← get
  need (used.all (ringConfigOk s)) (jobBad 0x010F)
  let plan : Plan :=
    { ph := ph, h := h, active := active, curves := curves.length, protect := protectedSpans s h curves.length xs
      stashed := (streams.map fun x => stashWrites 0 0 x.entries).flatten, rings := used.filter (inRingRole s) }
  checkStreams plan 0 streams {}
  pure { h := h, curves := curves, scales := scales, windows := windows, streams := streams }

/-- The job is valid: its structures are copied, and `STATE` becomes READY, or HALTED if that was asked for meanwhile
(R48, R72, 13 R293). DEDUCED: log entry 114. -/
def acceptJob (c : Checked) (s : State) : State :=
  let s := { s with
    job := { s.job with header := c.h, curves := c.curves, windows := c.windows, lastAccepted := none }
    streams := c.streams, owned := [], views := []
    census := { s.census with scale := c.scales } }
  let s := setJobState 2 (setF s Reg.watchdog 31 0 (c.h.deadline * 3 / 2))
  if s.job.haltWanted then haltNow s else setInt .glb 0 8 s

/-- The job is rejected: `ERROR` and the error log tell what failed (R48, 09 R203, 11 R465, 20 R434).
DEDUCED: log entry 86. DEDUCED: log entry 90. -/
def rejectJob (e : Bad) (s : State) : State :=
  let log := fun (s : State) (i v : Nat) => rset s (Reg.errLog .glb 0 i) (BitVec.ofNat 64 v)
  let s := setF s Reg.jobStatus 47 32 e.code
  let s := log (log (log (log s 0 e.stream) 1 e.entry) 2 (e.desc + e.num * 2 ^ 56)) 3 e.code
  setInt .glb 0 8 (setJobState 5 { s with job := { s.job with haltWanted := false } })

/-- JOB_VALIDATION: the checks complete for the job that START latched (R48). -/
def execJobValidation (ph : List Phys) (s : State) : Host.Outcome State Fault Refusal :=
  .next
    (if jobState s = 1 ∧ s.job.startHeld = false then
       match (checkJob ph).run (trafficPhys none ph s) with
       | (.ok c, s) => acceptJob c s
       | (.error e, s) => rejectJob e s
     else s)

end Sys2Proof.Machine
end

