-- ==== Sys2Proof/Machine/Worksheet.lean ====
section
/-! DEFINITION. Worksheet validation (03 R61 to R63, 08 R191, 15 R348). -/

namespace Sys2Proof.Machine

/-- Micro-batch entry `i` (03 Table 03-15). -/
def microEntry (ws : List Byte) (i : Nat) : Micro :=
  let o := 0x40 + 16 * i
  { length := leAt ws o 4, bucket := leAt ws (o + 4) 1, groups := leAt ws (o + 6) 2, firstGroup := leAt ws (o + 8) 2 }

/-- Grouped-operation table entry (08 Table 08-8). -/
def rangeOf (bs : List Byte) : GroupRange :=
  { group := leAt bs 0 2, mb := leAt bs 2 1, rows := leAt bs 4 4, srcRow := leAt bs 8 4, dstRow := leAt bs 12 4 }

/-- The ranges of an empty table (08 R191). -/
def defaultRanges (mbs : List Micro) : List GroupRange :=
  mbs.zipIdx.map fun (m : Micro × Nat) => { group := m.1.firstGroup, mb := m.2, rows := m.1.length, srcRow := 0, dstRow := 0 }

/-- Fields of check 3 that belong to no micro-batch. -/
def sheetOk (word : W64) (ws : List Byte) : Bool :=
  decide (fld word 31 1 = 0 ∧ leAt ws 0 2 = 1 ∧ leAt ws 0x18 4 ≤ 4096 ∧ leAt ws 0x1C 4 ≤ 65536) &&
    zeroSpan ws 0x002 0x004 && zeroSpan ws 0x011 0x018 && zeroSpan ws 0x030 0x040 && zeroSpan ws 0xA40 0xFFC

/-- Fields of check 3 of micro-batch entry `i`. -/
def microOk (ws : List Byte) (n i : Nat) : Bool :=
  let o := 0x40 + 16 * i
  if i < n then
    zeroSpan ws (o + 5) (o + 6) && zeroSpan ws (o + 10) (o + 16) &&
      decide ((microEntry ws i).length ≠ 0 ∧ (microEntry ws i).groups ≠ 0)
  else zeroSpan ws o (o + 16)

/-- Check 9 for micro-batch `i`. -/
def groupsOk (mbs : List Micro) (a : Mask) (i : Nat) (m : Micro) : Bool :=
  decide (m.firstGroup + m.groups ≤ 4096) &&
    mbs.zipIdx.all (fun (o : Micro × Nat) => o.2 == i ||
      decide (o.1.firstGroup + o.1.groups ≤ m.firstGroup ∨ m.firstGroup + m.groups ≤ o.1.firstGroup)) &&
    decide (a &&& maskRange m.firstGroup m.groups = maskRange m.firstGroup m.groups)

/-- An intake reference is complete (15 R348). -/
def refDone (s : State) (r : Nat) : Bool :=
  let ring := bits r 3 0
  let d := (ringDone s ring + 2 ^ 32 - bits r 63 32) % 2 ^ 32
  decide (bits r 31 4 = 0 ∧ 1 ≤ d ∧ d ≤ 2 ^ ringLog s ring)

/-- Failure of check 11. -/
def tableBad (mb : Nat) : Bad := { code := 0x020B, mb := mb }

/-- The ranges of one micro-batch: `src` is the next `SRC_ROW`, `dst` the end of the last `DST_ROW` range (08 R191). -/
def rangesOk (m : Micro) (limit : Nat) : Nat → Nat → List GroupRange → Bool
  | src, _, [] => src == m.length
  | src, dst, r :: l =>
    decide (1 ≤ r.rows ∧ m.firstGroup ≤ r.group ∧ r.group < m.firstGroup + m.groups ∧ r.srcRow = src ∧ dst ≤ r.dstRow ∧
      r.dstRow + r.rows ≤ limit) && rangesOk m limit (src + r.rows) (r.dstRow + r.rows) l

/-- The first entry whose `MB` falls, or is not below `MB_COUNT`: the micro-batch that it names, 0xFF for none. -/
def mbFalls (n : Nat) : Nat → List GroupRange → Option Nat
  | _, [] => none
  | prev, r :: l => if n ≤ r.mb then some 0xFF else if r.mb < prev then some r.mb else mbFalls n r.mb l

/-- Check 11 (08 R191). -/
def checkTable (ph : List Phys) (limits : List Nat) (mbs : List Micro) (ws : List Byte) : Check (List GroupRange) := do
  let n := leAt ws 0x1C 4
  let a := leAt ws 0x28 8
  if n = 0 then pure (defaultRanges mbs)
  else do
    need (inRegion (← get) a (16 * n) listClass) (tableBad 0xFF)
    let raw ← readFor ph a (16 * n) (tableBad 0xFF)
    let es := (List.range n).map fun i => (raw.drop (16 * i)).take 16
    let rs := es.map rangeOf
    need (es.all (zeroSpan · 3 4)) (tableBad 0xFF)
    need (mbFalls mbs.length 0 rs).isNone (tableBad ((mbFalls mbs.length 0 rs).getD 0xFF))
    each (fun (m : Micro × Nat) =>
      need (rangesOk m.1 (nth limits m.1.bucket) 0 0 (rs.filter (·.mb == m.2))) (tableBad m.2)) mbs.zipIdx
    pure rs

/-- Check 10 (03 R63, 15 R348). -/
def checkIntake (ph : List Phys) (ws : List Byte) : Check Unit := do
  let n := leAt ws 0x18 4
  let a := leAt ws 0x20 8
  let bad : Bad := { code := 0x020A }
  if n = 0 then pure ()
  else do
    need (inRegion (← get) a (8 * n) listClass) bad
    let raw ← readFor ph a (8 * n) bad
    let s ← get
    need ((List.range n).all fun i => refDone s (leAt raw (8 * i) 8)) bad

/-- The checks of Table 03-16 for a doorbell word (03 R63). DEDUCED: log entry 91. -/
def checkSheet (ph : List Phys) (word : W64) : Check Worksheet := do
  let s ← get
  need (jobState s == 2 || jobState s == 3) { code := 0x0201 }
  let slot := fld word 0 0
  let a := s.job.wsBase + slot * 0x1000
  need (inRegion s a 0x1000 (· == 5)) { code := 0x0202 }
  let ws ← readFor ph a 0x1000 { code := 0x0202 }
  need (crc32 (ws.take 0xFFC) == leAt ws 0xFFC 4) { code := 0x0202 }
  let count := leAt ws 0x10 1
  need (sheetOk word ws) { code := 0x0203 }
  each (fun (i : Nat) => need (microOk ws count i) { code := 0x0203, mb := i }) (List.range 64)
  let job := s.job
  let want := match job.lastAccepted with
    | some p => (p + 1) % 2 ^ 32
    | none => job.startStep
  need (decide (leAt ws 4 4 = want ∧ fld word 63 32 = want)) { code := 0x0204 }
  need (leAt ws 8 8 == job.seed.toNat) { code := 0x0205 }
  need (decide (1 ≤ count ∧ count ≤ job.header.mbMax)) { code := 0x0206 }
  let mbs := (List.range count).map (microEntry ws)
  let ex := fun (o : Nat) => (BitVec.ofNat 4096 (leAt ws o 512) : Mask)
  each (fun (m : Micro × Nat) => need (decide (m.1.bucket < job.header.buckets)) { code := 0x0207, mb := m.2 }) mbs.zipIdx
  each (fun (m : Micro × Nat) =>
    need (decide (m.1.length ≤ nth job.header.bucketLimit m.1.bucket)) { code := 0x0208, mb := m.2 }) mbs.zipIdx
  each (fun (m : Micro × Nat) => need (groupsOk mbs (ex 0x440) m.2 m.1) { code := 0x0209, mb := m.2 }) mbs.zipIdx
  checkIntake ph ws
  let rs ← checkTable ph job.header.bucketLimit mbs ws
  pure { step := want, slot := slot, mbs := mbs, ranges := rs, expectA := ex 0x440, expectB := ex 0x640, expectC := ex 0x840 }

/-- Accept the pending step: it waits, or becomes the running step at once (16 R371). -/
def acceptStep (p : PendingStep) (ws : Worksheet) (s : State) : State :=
  promote { s with slot := some { p with ws := some ws }, job := { s.job with lastAccepted := some ws.step } }

/-- Reject the pending step: its `REJECTED` card is queued, and its issue frees the slot (01 R12, 16 R371). -/
def rejectStep (p : PendingStep) (e : Bad) (s : State) : State :=
  queueCard { body := rejectedBody p.word e.code e.mb, annex := none, frees := true }
    { s with slot := some { p with rejected := true } }

/-- The checks of Table 03-16 have ended: the step is accepted or rejected, unless a hard fault met meanwhile has discarded it
(03 R72). -/
def settleSheet (p : PendingStep) : Except Bad Worksheet × State → State
  | (.ok ws, s) => if s.slot = some p then acceptStep p ws s else s
  | (.error e, s) => if s.slot = some p then rejectStep p e s else s

/-- WORKSHEET_VALIDATION: the checks of Table 03-16 complete for the pending doorbell (03 R63, 01 R12). -/
def execWorksheetValidation (ph : List Phys) (s : State) : Host.Outcome State Fault Refusal :=
  .next
    (match s.slot with
     | some p =>
       if p.ws.isSome || p.rejected then s
       else settleSheet p ((checkSheet ph p.word).run (trafficPhys none ph s))
     | none => s)

end Sys2Proof.Machine
end

