-- ==== Sys2Proof/Machine/Dispatch.lean ====
section
/-! DEFINITION. One arm per command: the command's meaning. -/

namespace Sys2Proof.Machine

def exec (i : Instr) (s : State) : Host.Outcome State Fault Refusal :=
  match i with
  | .dbStep m v ok => Sys2Proof.Machine.execDbStep m v ok s
  | .worksheetValidation ph => Sys2Proof.Machine.execWorksheetValidation ph s
  | .stepStart => Sys2Proof.Machine.execStepStart s
  | .setPhaseComplete => Sys2Proof.Machine.execSetPhaseComplete s
  | .start m v => Sys2Proof.Machine.execStart m v s
  | .jobValidation ph => Sys2Proof.Machine.execJobValidation ph s
  | .halt m v => Sys2Proof.Machine.execHalt m v s
  | .nop st ph => Sys2Proof.Machine.execNop st ph s
  | .passSet st => Sys2Proof.Machine.execPassSet st s
  | .segment st => Sys2Proof.Machine.execSegment st s
  | .updateBegin st => Sys2Proof.Machine.execUpdateBegin st s
  | .stepEnd st => Sys2Proof.Machine.execStepEnd st s
  | .passWaitRelease st ph => Sys2Proof.Machine.execPassWaitRelease st ph s
  | .entryComplete st ph => Sys2Proof.Machine.execEntryComplete st ph s
  | .waitLimitExpiry st => Sys2Proof.Machine.execWaitLimitExpiry st s
  | .stepWatchdog => Sys2Proof.Machine.execStepWatchdog s
  | .matmul st ph => Sys2Proof.Machine.execMatmul st ph s
  | .vector st ph => Sys2Proof.Machine.execVector st ph s
  | .optim st ph => Sys2Proof.Machine.execOptim st ph s
  | .copy st ph => Sys2Proof.Machine.execCopy st ph s
  | .transpose st ph => Sys2Proof.Machine.execTranspose st ph s
  | .permute st ph => Sys2Proof.Machine.execPermute st ph s
  | .fill st ph => Sys2Proof.Machine.execFill st ph s
  | .stashWrite st ph => Sys2Proof.Machine.execStashWrite st ph s
  | .stashRead st ph => Sys2Proof.Machine.execStashRead st ph s
  | .gather st ph => Sys2Proof.Machine.execGather st ph s
  | .scatterAdd st ph => Sys2Proof.Machine.execScatterAdd st ph s
  | .merge st ph => Sys2Proof.Machine.execMerge st ph s
  | .histogram st ph => Sys2Proof.Machine.execHistogram st ph s
  | .compress st ph => Sys2Proof.Machine.execCompress st ph s
  | .decompress st ph => Sys2Proof.Machine.execDecompress st ph s
  | .route st ph => Sys2Proof.Machine.execRoute st ph s
  | .dispatch st ph => Sys2Proof.Machine.execDispatch st ph s
  | .combineReturn st ph => Sys2Proof.Machine.execCombineReturn st ph s
  | .combineMerge st ph => Sys2Proof.Machine.execCombineMerge st ph s
  | .pack st ph => Sys2Proof.Machine.execPack st ph s
  | .unpack st ph => Sys2Proof.Machine.execUnpack st ph s
  | .ids st ph => Sys2Proof.Machine.execIds st ph s
  | .idsPadded st ph => Sys2Proof.Machine.execIdsPadded st ph s
  | .lenmask st ph => Sys2Proof.Machine.execLenmask st ph s
  | .reduceScatter st ph => Sys2Proof.Machine.execReduceScatter st ph s
  | .allGather st ph => Sys2Proof.Machine.execAllGather st ph s
  | .allReduce st ph => Sys2Proof.Machine.execAllReduce st ph s
  | .rotate st ph => Sys2Proof.Machine.execRotate st ph s
  | .windowOpen st => Sys2Proof.Machine.execWindowOpen st s
  | .windowClose st => Sys2Proof.Machine.execWindowClose st s
  | .attach st => Sys2Proof.Machine.execAttach st s
  | .detach st => Sys2Proof.Machine.execDetach st s
  | .controlWordReceive ring => Sys2Proof.Machine.execControlWordReceive ring s
  | .gateDecision => Sys2Proof.Machine.execGateDecision s
  | .bellStart => Sys2Proof.Machine.execBellStart s
  | .bellDrain => Sys2Proof.Machine.execBellDrain s
  | .bellDrainComplete elapsedUs => Sys2Proof.Machine.execBellDrainComplete elapsedUs s
  | .securingReadComplete => Sys2Proof.Machine.execSecuringReadComplete s
  | .securingPassComplete => Sys2Proof.Machine.execSecuringPassComplete s
  | .reportCardWrite => Sys2Proof.Machine.execReportCardWrite s
  | .force m v => Sys2Proof.Machine.execForce m v s
  | .abort m v => Sys2Proof.Machine.execAbort m v s
  | .substitutionComplete engines => Sys2Proof.Machine.execSubstitutionComplete engines s
  | .restart m v => Sys2Proof.Machine.execRestart m v s
  | .lockerReturned => Sys2Proof.Machine.execLockerReturned s
  | .refilled => Sys2Proof.Machine.execRefilled s
  | .lockerWriteArrival => Sys2Proof.Machine.execLockerWriteArrival s
  | .lockerReadArrival ph => Sys2Proof.Machine.execLockerReadArrival ph s
  | .lowRearm m inst v => Sys2Proof.Machine.execLowRearm m inst v s
  | .paceWindow inst waves => Sys2Proof.Machine.execPaceWindow inst waves s
  | .glbRegionW0 m k v => Sys2Proof.Machine.execGlbRegionW0 m k v s
  | .glbRegionW1 m k v => Sys2Proof.Machine.execGlbRegionW1 m k v s
  | .regionInitStart m v => Sys2Proof.Machine.execRegionInitStart m v s
  | .regionFillDone => Sys2Proof.Machine.execRegionFillDone s
  | .scrubRead stack addr ph => Sys2Proof.Machine.execScrubRead stack addr ph s
  | .rearm m inst v => Sys2Proof.Machine.execRearm m inst v s
  | .spEccWriteback core => Sys2Proof.Machine.execSpEccWriteback core s
  | .retainEntry core pair => Sys2Proof.Machine.execRetainEntry core pair s
  | .clockRunning ty inst => Sys2Proof.Machine.execClockRunning ty inst s
  | .hifHwtW0 m k v => Sys2Proof.Machine.execHifHwtW0 m k v s
  | .hifHwtW1 m k v => Sys2Proof.Machine.execHifHwtW1 m k v s
  | .hifCardCfg m v => Sys2Proof.Machine.execHifCardCfg m v s
  | .apertureRead off len ph => Sys2Proof.Machine.execApertureRead off len ph s
  | .apertureWrite off data ph => Sys2Proof.Machine.execApertureWrite off data ph s
  | .atomicOp off => Sys2Proof.Machine.execAtomicOp off s
  | .poisonedWrite bar off => Sys2Proof.Machine.execPoisonedWrite bar off s
  | .completionTimeout r => Sys2Proof.Machine.execCompletionTimeout r s
  | .tail m ring v => Sys2Proof.Machine.execTail m ring v s
  | .itkEn m ring v => Sys2Proof.Machine.execItkEn m ring v s
  | .itkErrClear m ring v => Sys2Proof.Machine.execItkErrClear m ring v s
  | .intakeEntryRead ring c => Sys2Proof.Machine.execIntakeEntryRead ring c s
  | .intakeEntryComplete ring c => Sys2Proof.Machine.execIntakeEntryComplete ring c s
  | .mbTx m ch v ok => Sys2Proof.Machine.execMbTx m ch v ok s
  | .mbRx m ch ok => Sys2Proof.Machine.execMbRx m ch ok s
  | .wqTx m ch v ok => Sys2Proof.Machine.execWqTx m ch v ok s
  | .wqRx m ch ok => Sys2Proof.Machine.execWqRx m ch ok s
  | .mbxBind m ch v => Sys2Proof.Machine.execMbxBind m ch v s
  | .blkLock m ty inst v => Sys2Proof.Machine.execBlkLock m ty inst v s
  | .registerWrite m bar2 addr size v => Sys2Proof.Machine.execRegisterWrite m bar2 addr size v s
  | .rcRead m bar2 addr size => Sys2Proof.Machine.execRcRead m bar2 addr size s
  | .aliasWrite m addr v => Sys2Proof.Machine.execAliasWrite m addr v s
  | .aliasRead m addr => Sys2Proof.Machine.execAliasRead m addr s
  | .enable m ty inst v => Sys2Proof.Machine.execEnable m ty inst v s
  | .drain m ty inst v => Sys2Proof.Machine.execDrain m ty inst v s
  | .drained ty inst => Sys2Proof.Machine.execDrained ty inst s
  | .blockGo m v => Sys2Proof.Machine.execBlockGo m v s
  | .blockResetDone => Sys2Proof.Machine.execBlockResetDone s
  | .device m v => Sys2Proof.Machine.execDevice m v s
  | .porN => Sys2Proof.Machine.execPorN s
  | .rstN => Sys2Proof.Machine.execRstN s
  | .hostReset cause => Sys2Proof.Machine.execHostReset cause s
  | .pgFall x => Sys2Proof.Machine.execPgFall x s
  | .boot => Sys2Proof.Machine.execBoot s
  | .hbmTrained t => Sys2Proof.Machine.execHbmTrained t s
  | .ready us => Sys2Proof.Machine.execReady us s
  | .takeover m v => Sys2Proof.Machine.execTakeover m v s
  | .sramUncorrectable word => Sys2Proof.Machine.execSramUncorrectable word s
  | .kick m v => Sys2Proof.Machine.execKick m v s
  | .mgtWatchdogExpiry => Sys2Proof.Machine.execMgtWatchdogExpiry s
  | .takeoverComplete => Sys2Proof.Machine.execTakeoverComplete s
  | .svnAdvance m v => Sys2Proof.Machine.execSvnAdvance m v s
  | .flashProgram m v => Sys2Proof.Machine.execFlashProgram m v s
  | .flashErase m v => Sys2Proof.Machine.execFlashErase m v s
  | .flashRead m v => Sys2Proof.Machine.execFlashRead m v s
  | .flashDone => Sys2Proof.Machine.execFlashDone s
  | .i2cWrite port off data => Sys2Proof.Machine.execI2cWrite port off data s
  | .i2cRead port off => Sys2Proof.Machine.execI2cRead port off s
  | .i2cAddressMatch addr => Sys2Proof.Machine.execI2cAddressMatch addr s
  | .sensorSample die stack => Sys2Proof.Machine.execSensorSample die stack s
  | .sleepRequest m v => Sys2Proof.Machine.execSleepRequest m v s
  | .standbyRequest m v => Sys2Proof.Machine.execStandbyRequest m v s
  | .wakeRequest src => Sys2Proof.Machine.execWakeRequest src s
  | .nolocActivity p => Sys2Proof.Machine.execNolocActivity p s
  | .lomraWakePattern p => Sys2Proof.Machine.execLomraWakePattern p s
  | .pcieD0 => Sys2Proof.Machine.execPcieD0 s
  | .entrySequenceComplete => Sys2Proof.Machine.execEntrySequenceComplete s
  | .restoreComplete => Sys2Proof.Machine.execRestoreComplete s
  | .idleEntry => Sys2Proof.Machine.execIdleEntry s
  | .railFail => Sys2Proof.Machine.execRailFail s
  | .voltageLoopPeriod => Sys2Proof.Machine.execVoltageLoopPeriod s
  | .avsResponse rail ack => Sys2Proof.Machine.execAvsResponse rail ack s
  | .vdonePoll rail vdone expired => Sys2Proof.Machine.execVdonePoll rail vdone expired s
  | .avsLost => Sys2Proof.Machine.execAvsLost s
  | .currentSample avg100us avg1ms estimate => Sys2Proof.Machine.execCurrentSample avg100us avg1ms estimate s
  | .powerLimit1ms => Sys2Proof.Machine.execPowerLimit1ms s
  | .floorRate m v => Sys2Proof.Machine.execFloorRate m v s
  | .mgtVset m v => Sys2Proof.Machine.execMgtVset m v s
  | .retrain m p v => Sys2Proof.Machine.execRetrain m p v s
  | .fastRetrain m p v => Sys2Proof.Machine.execFastRetrain m p v s
  | .fastRetrainTimeout p => Sys2Proof.Machine.execFastRetrainTimeout p s
  | .lossOfSignal p => Sys2Proof.Machine.execLossOfSignal p s
  | .lanesLocked p txSpare rxSpare => Sys2Proof.Machine.execLanesLocked p txSpare rxSpare s
  | .identityExchange p peer => Sys2Proof.Machine.execIdentityExchange p peer s
  | .identityRetry p peer => Sys2Proof.Machine.execIdentityRetry p peer s
  | .trainingTimeout p => Sys2Proof.Machine.execTrainingTimeout p s
  | .trainingRetry p => Sys2Proof.Machine.execTrainingRetry p s
  | .laneWindow p => Sys2Proof.Machine.execLaneWindow p s
  | .flitTransmit p cls => Sys2Proof.Machine.execFlitTransmit p cls s
  | .flitReceive p bytes => Sys2Proof.Machine.execFlitReceive p bytes s
  | .retryReq p => Sys2Proof.Machine.execRetryReq p s
  | .ackTimeout p => Sys2Proof.Machine.execAckTimeout p s
  | .retryLimit p => Sys2Proof.Machine.execRetryLimit p s
  | .lost p => Sys2Proof.Machine.execLost p s
  | .lctl p => Sys2Proof.Machine.execLctl p s
  | .lctlTimer p => Sys2Proof.Machine.execLctlTimer p s
  | .bell p => Sys2Proof.Machine.execBell p s
  | .underpassClose m p v => Sys2Proof.Machine.execUnderpassClose m p v s
  | .underpassOpen m p v => Sys2Proof.Machine.execUnderpassOpen m p v s
  | .underpassOpenTimeout pair => Sys2Proof.Machine.execUnderpassOpenTimeout pair s
  | .stepReady p => Sys2Proof.Machine.execStepReady p s
  | .transferForward p => Sys2Proof.Machine.execTransferForward p s
  | .transferSend ring => Sys2Proof.Machine.execTransferSend ring s
  | .remoteWriteArrival p => Sys2Proof.Machine.execRemoteWriteArrival p s
  | .remoteReadArrival p ph => Sys2Proof.Machine.execRemoteReadArrival p ph s
  | .resp p ph => Sys2Proof.Machine.execResp p ph s
  | .openCloseMarker p => Sys2Proof.Machine.execOpenCloseMarker p s
  | .blockEnd p => Sys2Proof.Machine.execBlockEnd p s
  | .ringTransferReceive p ph => Sys2Proof.Machine.execRingTransferReceive p ph s
  | .dbgMemRead m v => Sys2Proof.Machine.execDbgMemRead m v s
  | .dbgMemWrite m v => Sys2Proof.Machine.execDbgMemWrite m v s
  | .dbgMemDone => Sys2Proof.Machine.execDbgMemDone s
  | .dbgFifoData m => Sys2Proof.Machine.execDbgFifoData m s
  | .resetRelease land straps => Sys2Proof.Machine.execResetRelease land straps s
  | .powerGoodRise x => Sys2Proof.Machine.execPowerGoodRise x s
  | .avsStatusAlert rail vdone => Sys2Proof.Machine.execAvsStatusAlert rail vdone s
  | .avsBusyRetry rail => Sys2Proof.Machine.execAvsBusyRetry rail s
  | .laneLockLost p lane => Sys2Proof.Machine.execLaneLockLost p lane s
  | .hbmLaneFault inst => Sys2Proof.Machine.execHbmLaneFault inst s
  | .rebuildComplete inst => Sys2Proof.Machine.execRebuildComplete inst s
  | .holderReport gen => Sys2Proof.Machine.execHolderReport gen s
  | .fuseBurnDone => Sys2Proof.Machine.execFuseBurnDone s

end Sys2Proof.Machine
end

