-- ==== Sys2Proof/Safety.lean ====
section
/-! DEFINITION. What holds in every state of a safe run: the memories, the register file and the hall passes stand in their
canonical form, and a step stops nowhere. -/

namespace Sys2Proof

open Machine

/-- The form that every step keeps: byte memories, register file and hall-pass counts in canonical form, so that equal
contents are equal data; every pass count in 16 bits (03 R57); six ports and three ring engines (20 R425). -/
def Inv (s : State) : Prop :=
  memWf s.hbm = true ∧ memWf s.chk = true ∧ memWf s.sp = true ∧ memWf s.host = true ∧ memWf s.mgt.sram = true ∧
    memWf s.mgt.flash = true ∧ cellWf regReset s.regs = true ∧ cellWf noNat s.passes = true ∧
    (∀ p, passCount s p ≤ 65535) ∧ s.ports.length = 6 ∧ s.rings.length = 3

/-- A step answers a next state. -/
def Safe (s : State) : Prop := ∃ t, step s = .next t

end Sys2Proof
end

