-- ==== Sys2Proof/Certificates/Slice0/Obligations.lean ====
section
/-! DEFINITION. The statements for the provers. What several of them share stands first, in `Sys2Proof.Stmt`. -/

open Sys2Proof Sys2Proof.Machine

namespace Sys2Proof.Stmt

/-- Every register but those at the listed addresses reads as before. -/
def RegsBut (l : List Nat) (s t : State) : Prop := ∀ a, a ∉ l → rget t a = rget s a

/-- A register access of master `m` meets instance `i` of a page: the master is not refused (17 R376), the instance is built
(20 R425) and its domain is on (18 R396). -/
abbrev Reaches (m : Master) (t : Blk) (i : Nat) (s : State) : Prop :=
  refusedMaster s m = false ∧ i < built t ∧ domainOff s t = false

/-- Stream `st` is `x`, stands at entry `e`, and may issue it now (03 R50, R53). -/
abbrev Stands (st : Nat) (x : Stream) (e : Entry) (s : State) : Prop :=
  streamAt s st = some x ∧ x.next? = some e ∧ stepRuns s = true ∧ s.step.setOpen = true ∧ mayIssue x e = true

/-- Every entry in flight of the stream has run, so that an entry that issues runs at once (07 R150, 09 R213). -/
abbrev InTurn (x : Stream) : Prop := x.turn x.pos = true

/-- Every crossing's clock runs (02 R40). -/
def ClocksRun (s : State) : Prop := ∀ k, (cellGet runningCrossing s.crossings k).clockOn = true

/-- The crossings are as before, but that one whose clock is stopped may have its wake request raised (02 R40). -/
def OnlyWakes (s t : State) : Prop :=
  (ClocksRun s → t.crossings = s.crossings) ∧
  ∀ k, cellGet runningCrossing t.crossings k = cellGet runningCrossing s.crossings k ∨
    ((cellGet runningCrossing s.crossings k).clockOn = false ∧
      cellGet runningCrossing t.crossings k = { clockOn := false, wake := true })

/-- The ranges of HBM that a command reaches in accesses of its own, as address and length: those of no entry, no transfer and no
host access (02 R40). -/
def reach (s : State) : Instr → List (Nat × Nat)
  | .regionFillDone => s.fill.toList
  | .rebuildComplete i => if s.unbuilt.contains i then rebuildReach i s else []
  | .scrubRead stack a _ =>
    if getB s (Reg.scrub stack) 63 = true ∧ (locate s (a / 64 * 64)).inst / 64 = stack ∧
        ((regionOf s (a / 64 * 64)).any fun r => scrubs r.cls) = true then [(a / 64 * 64, 64)] else []
  | .dbgMemDone => if getB s Reg.dbgCtrl 62 then debugReach s else []
  | .intakeEntryComplete r (.data _) =>
    match inTransfer s r with
    | e :: _ => if ringErr s r then [] else sampleReach e.raw s
    | [] => []
  | .securingReadComplete => if passActive s && !s.locker.readDone then regionSpans (securedRegions s) else []
  | .refilled => if phase s = 6 ∧ secOpen s = false ∧ imageCheck s = 0 then regionSpans (imageRegions s) else []
  | .lockerWriteArrival =>
    match frontMine s 0 2 2 with
    | some (f, ds, _) => if leAt f.payload 6 1 = 0 then lockerReach s f (joinData f ds).length else []
    | none => []
  | .lockerReadArrival ph =>
    match frontMine s 0 2 2 with
    | some (f, _, _) =>
      if leAt f.payload 6 1 = 1 ∧ poisoned ph .nlp 0 false = false then lockerReach s f (leAt f.payload 0x10 4) else []
    | none => []
  | .remoteWriteArrival p =>
    match frontMine s p 0 2 with
    | some (f, _, _) => if leAt f.payload 6 1 = 0 then ownerReach s p f true else []
    | none => []
  | .remoteReadArrival p ph =>
    match frontMine s p 0 2 with
    | some (f, _, _) => if leAt f.payload 6 1 = 1 ∧ poisoned ph .nlp p false = false then ownerReach s p f false else []
    | none => []
  | _ => []

/-- A line of one of the ranges lies behind a crossing whose clock is stopped. -/
def Stopped (rs : List (Nat × Nat)) (s : State) : Prop := ∃ r ∈ rs, linesStopped r.1 r.2 s = true

/-- The wake requests of the stopped crossings on the way to the ranges are raised, and no other crossing changes (02 R40). -/
def WakesFor (rs : List (Nat × Nat)) (s t : State) : Prop :=
  ∀ k,
    ((∃ r ∈ rs, ∃ l ∈ linesOf r.1 r.2, crossingKey .hbc (locate s (l * 64)).inst = k) →
      (cellGet runningCrossing s.crossings k).clockOn = false →
      cellGet runningCrossing t.crossings k = { clockOn := false, wake := true }) ∧
    ((∀ r ∈ rs, ∀ l ∈ linesOf r.1 r.2, crossingKey .hbc (locate s (l * 64)).inst ≠ k) ∨
      (cellGet runningCrossing s.crossings k).clockOn = true →
      cellGet runningCrossing t.crossings k = cellGet runningCrossing s.crossings k)

/-- Stream `y` is stream `x` of state `s` after its next entry has issued: the entry is in flight, with the slot of its segment
and whether that slot was void, and the next entry is evaluated. -/
def Launched (s : State) (x y : Stream) : Prop :=
  y.pos = x.pos + 1 ∧ y.released = false ∧ y.blocked = false ∧ y.entries = x.entries ∧ y.kind = x.kind ∧ y.unit = x.unit ∧
    y.atEnd = x.atEnd ∧ y.inflight.length = x.inflight.length + 1 ∧
    ∃ f ∈ y.inflight, f.idx = x.pos ∧ f.slot = x.slotNow ∧ f.voided = slotVoid s x.slotNow

/-- The commands of the data entries that are not window entries, with what their entry is. -/
def dataEntries (st : Nat) (ph : List Phys) : List (Instr × (Entry → Bool)) :=
  [(.matmul st ph, fun e => e.op == 0x10), (.vector st ph, fun e => e.op == 0x20), (.optim st ph, fun e => e.op == 0x21),
   (.copy st ph, fun e => e.op == 0x30), (.transpose st ph, fun e => e.op == 0x31), (.permute st ph, fun e => e.op == 0x32),
   (.fill st ph, fun e => e.op == 0x33), (.stashWrite st ph, fun e => e.op == 0x34),
   (.stashRead st ph, fun e => e.op == 0x35), (.gather st ph, fun e => e.op == 0x40),
   (.scatterAdd st ph, fun e => e.op == 0x41), (.merge st ph, fun e => e.op == 0x42), (.route st ph, fun e => e.op == 0x43),
   (.combineMerge st ph, fun e => e.op == 0x45 && !e.subBit 0), (.compress st ph, fun e => e.op == 0x46),
   (.decompress st ph, fun e => e.op == 0x47), (.histogram st ph, fun e => e.op == 0x48),
   (.pack st ph, fun e => e.op == 0x49 && e.subop % 8 == 0), (.unpack st ph, fun e => e.op == 0x49 && e.subop % 8 == 1),
   (.ids st ph, fun e => e.op == 0x49 && e.subop % 8 == 2), (.idsPadded st ph, fun e => e.op == 0x49 && e.subop % 8 == 3),
   (.lenmask st ph, fun e => e.op == 0x49 && e.subop % 8 == 4)]

/-- Those that post arrival passes, and those of the ring engines. -/
def markerEntries (st : Nat) (ph : List Phys) : List (Instr × (Entry → Bool)) :=
  [(.dispatch st ph, fun e => e.op == 0x44), (.combineReturn st ph, fun e => e.op == 0x45 && e.subBit 0)]
def ringEntries (st : Nat) (ph : List Phys) : List (Instr × (Entry → Bool)) :=
  [(.reduceScatter st ph, fun e => e.op == 0x50), (.allGather st ph, fun e => e.op == 0x51),
   (.allReduce st ph, fun e => e.op == 0x52), (.rotate st ph, fun e => e.op == 0x53)]

/-- What no data entry changes; the Locker state stays where no restart is under way (14 R332). -/
def EntryFrame (st : Nat) (s t : State) : Prop :=
  (∀ i, i ≠ st → streamAt t i = streamAt s i) ∧ t.waiters = s.waiters ∧ t.ports = s.ports ∧ t.owned = s.owned ∧
    t.notices = s.notices ∧ t.words = s.words ∧ t.intake = s.intake ∧ t.mgt = s.mgt ∧ t.power = s.power ∧
    (phase s = 0 → t.locker = s.locker) ∧ t.job.windows = s.job.windows ∧ t.job.descs = s.job.descs ∧ t.job.seed = s.job.seed ∧
    t.drains = s.drains ∧ t.drainHeld = s.drainHeld ∧ t.unbuilt = s.unbuilt ∧ t.scrubbed = s.scrubbed ∧ t.fill = s.fill ∧ t.pending = s.pending

/-- A plain tensor of a scratchpad, in a format without block scales (09 Table 09-1, R196). -/
abbrev PlainSp (d : Desc) : Prop := d.place = 1 ∧ d.layout = 0 ∧ isMx d.fmt = false

/-- Byte `a` of device memory lies outside the scale table (06 R126). -/
def OffScales (s : State) (a : Nat) : Prop :=
  a < getF s Reg.scaleTable 47 8 * 256 ∨ getF s Reg.scaleTable 47 8 * 256 + 524288 ≤ a

/-- Byte `a` of the scratchpads lies in a row of `d`, whose core is `core`. -/
def InRows (core : Nat) (d : Desc) (a : Nat) : Prop :=
  ∃ i, i < d.rows ∧ core * 524288 + d.rowOff i ≤ a ∧ a < core * 524288 + d.rowOff i + d.rowBytes

/-! What the data entries write: for an entry of unit `own`, over operands that the scratchpads, HBM or owned windows hold. -/

/-- The physical core of a scratchpad tensor (09 Table 09-1). -/
def coreIn (s : State) (own : Nat) (d : Desc) : Nat := if d.unit = 0xFFF then own else (physOf s .core d.unit).getD 0

/-- The memory that holds a tensor, and the address there of the first byte of row `i` (09 R196, 13 R295). -/
def placeMem (d : Desc) (s : State) : Mem := if d.place = 1 then s.sp else s.hbm
def rowAddr (s : State) (own : Nat) (d : Desc) (i : Nat) : Nat :=
  if d.place = 1 then coreIn s own d * 524288 + d.rowOff i
  else if d.place = 0 then (regionRaw s d.unit).base + d.rowOff i
  else ownedAddr s (winOf s d.unit) (d.rowOff i)

/-- Row `i` of a plain tensor: its bytes, its codes, its values (09 R196, 06 R123). -/
def bytesIn (s : State) (own : Nat) (d : Desc) (i : Nat) : List Byte := memRead (placeMem d s) (rowAddr s own d i) d.rowBytes
def codesIn (s : State) (own : Nat) (d : Desc) (i : Nat) : List Nat := unpackCodes (widthOf d.fmt) (d.dim 0) (bytesIn s own d i)
def valsIn (s : State) (own : Nat) (d : Desc) (i : Nat) : List Val := rowVals d.fmt (scaleExp s d) [] (codesIn s own d i)

/-- All of them in order: codes of every row, elements in linear order, bytes in linear order. -/
def allCodes (s : State) (own : Nat) (d : Desc) : List (List Nat) := (List.range d.rows).map (codesIn s own d)
def allVals (s : State) (own : Nat) (d : Desc) : List (List Val) := (List.range d.rows).map (valsIn s own d)
def flatCodes (s : State) (own : Nat) (d : Desc) : List Nat := (allCodes s own d).flatten
def allBytes (s : State) (own : Nat) (d : Desc) : List Byte := ((List.range d.rows).map (bytesIn s own d)).flatten

/-- What an entry does: byte runs written to the scratchpads, each with its address, and counts reported under tensor ids. -/
structure Result where
  writes : List (Nat × List Byte)
  told : List (Nat × Counts) := []

/-- The writes of numbered rows of a tensor of core `core`, of all its rows, and of a table from its bytes. -/
def rowWrites (core : Nat) (d : Desc) (rows : List (Nat × List Nat)) : List (Nat × List Byte) :=
  rows.map fun x => (core * 524288 + d.rowOff x.1, packCodes (widthOf d.fmt) x.2)
def allWrites (core : Nat) (d : Desc) (rows : List (List Nat)) : List (Nat × List Byte) :=
  rowWrites core d (rows.zipIdx.map fun x => (x.2, x.1))
def tableWrites (core : Nat) (d : Desc) (bs : List Byte) : List (Nat × List Byte) :=
  allWrites core d ((List.range d.rows).map fun i =>
    unpackCodes (widthOf d.fmt) (d.dim 0) ((bs.drop (i * d.rowBytes)).take d.rowBytes))

/-! A stash record as lines (05 R111 to R115): its bytes, completed with 0x00 to whole lines; where line `i` lies on the device;
and the rows of a tensor that its bytes fill. -/
def recordLine (bs : List Byte) (i : Nat) : List Byte :=
  (bs.drop (64 * i)).take 64 ++ List.replicate (64 - ((bs.drop (64 * i)).take 64).length) 0
def lineAt (s : State) (blocks : List (Nat × Nat)) (i : Nat) : Nat := localAddr s (lineBlock blocks i).2 (i % 1024)
def recordWrites (core : Nat) (d : Desc) (bs : List Byte) : List (Nat × List Byte) :=
  (List.range d.rows).map fun i => (core * 524288 + d.rowOff i, (bs.drop (i * d.rowBytes)).take d.rowBytes)

/-- The blocks lie at the local level, the first `n` lines in ACT regions (05 R113, 11 R245). -/
def AtHome (s : State) (blocks : List (Nat × Nat)) (n : Nat) : Prop :=
  (∀ b ∈ blocks, b.1 = 0) ∧ ∀ i, i < n → ∃ g, regionOf s (lineAt s blocks i) = some g ∧ g.cls = 2

/-- Every byte run lies in the scratchpads of `t`, and every other scratchpad byte is as in `s`. -/
def Puts (ws : List (Nat × List Byte)) (s t : State) : Prop :=
  (∀ w ∈ ws, memRead t.sp w.1 w.2.length = w.2) ∧
  ∀ k, (∀ w ∈ ws, k < w.1 ∨ w.1 + w.2.length ≤ k) → memGet t.sp k = memGet s.sp k

/-- The counts of rows as reported (06 R138). -/
def tally (rows : List OutRow) : Counts := rows.foldl (fun n x => x.reports.foldl countOne n) {}

/-- Numbered rows, and all rows, of a tensor written and reported under an id. -/
def someResult (s : State) (own : Nat) (d : Desc) (id : Nat) (rows : List (Nat × OutRow)) : Result :=
  { writes := rowWrites (coreIn s own d) d (rows.map fun x => (x.1, x.2.codes)), told := [(id, tally (rows.map (·.2)))] }
def rowsResult (s : State) (own : Nat) (d : Desc) (id : Nat) (rows : List OutRow) : Result :=
  { writes := allWrites (coreIn s own d) d (rows.map (·.codes)), told := [(id, tally rows)] }

/-- The rows of a mover's destination (09 R206, R208). -/
def movedIn (s : State) (own : Nat) (a d : Desc) (perm : List Nat) : List OutRow :=
  if codesKept a d then
    (if nth perm 0 == 0 then permuteWhole a d perm (allCodes s own a) else permuteRows 0 a d perm (allCodes s own a)).map
      (copyRow d.fmt (scaleExp s d) [])
  else
    (if nth perm 0 == 0 then permuteWhole a d perm (allVals s own a) else permuteRows Val.zero a d perm (allVals s own a)).map
      (encodeRow d.fmt (scaleExp s d))

/-- The rows of a program over tensors (05 R108 to R110). -/
def programIn (s : State) (own p : Nat) (a side d : Desc) : List OutRow :=
  (List.range a.rows).map fun i => encodeRow d.fmt (scaleExp s d)
    (vectorRow s p (valsIn s own a i) (if readsSide p ∧ i < side.rows then valsIn s own side i else []))

/-- The elements of an update, each before it and, where its values are finite, after it (06 R134). -/
def updatesIn (s : State) (own : Nat) (e : Entry) : List (List (OptElem × Option (OptElem × F32))) :=
  let adam := e.prog == 2
  let ext := e.updateMode == 2
  let h := hyperOf s (e.descA + 1)
  let dw := descOr s e.descC
  let at_ := fun (on : Bool) (d : Desc) i j => if on ∧ i < d.rows then nth (codesIn s own d i) j else 0
  (List.range (descOr s e.descA).rows).map fun i => (valsIn s own (descOr s e.descA) i).mapIdx fun j g =>
    let x : OptElem := { m := at_ true (descOr s e.descB) i j, v := at_ adam (descOr s (e.descB + 1)) i j,
                         w := at_ true dw i j, rho := at_ ext (descOr s (e.descC + 1)) i j }
    (x, optElem h (optConst s h ((rget s Reg.updateCount).toNat + 1)) adam ext
      (mixer64 s.job.seed.toNat (stepNo s) e.tensorId ((dw.indexBase + i * dw.dim 0 + j) % 2 ^ 64)) g x)

/-- An `OPTIM`: an element whose new values are finite takes them, another keeps its own (06 R134, R135). -/
def optimIn (s : State) (own : Nat) (e : Entry) : Result :=
  let u := updatesIn s own e
  let new := fun (part : OptElem → Nat) => u.map fun r => r.map fun x => part (x.2.elim x.1 (·.1))
  let done := u.flatten.filterMap (·.2)
  let kept := (u.flatten.filter (·.2.isNone)).length
  let put := fun (id : Nat) part => allWrites (coreIn s own (descOr s id)) (descOr s id) (new part)
  let bits32 := fun (n : Nat) => (BitVec.ofNat 32 n, n)
  { writes := put e.descB OptElem.m ++ (if e.prog = 2 then put (e.descB + 1) OptElem.v else []) ++ put e.descC OptElem.w ++
      (if e.updateMode = 2 then put (e.descC + 1) OptElem.rho else [])
    told := [(e.tensorId, tally [optReports 3 (done.map fun x => (x.2, x.1.w))]),
             (e.tensorId + 1, tally [optReports 7 (done.map fun x => bits32 x.1.m)])] ++
      (if e.prog = 2 then [(e.tensorId + 2, tally [optReports 7 (done.map fun x => bits32 x.1.v)])] else []) ++
      (if kept = 0 then [] else [(e.tensorId, { nonfinite := min kept (2 ^ 32 - 1) })]) }

/-- The cores that a `FILL` writes (09 R210). -/
def fillCores (s : State) (own : Nat) (e : Entry) (d : Desc) : List Nat :=
  let t := descOr s e.descB
  let us := if e.coreGroup = 0 then [d.unit]
    else groupMembers (memRead s.sp (coreIn s own t * 524288 + (t.offset + 16 * e.coreGroup)) 16)
  us.map fun u => (physOf s .core (if d.unit = 0xFFF then u else d.unit)).getD 0

/-- The classes of an index tensor's elements against `n` rows (07 R152, R153). -/
def classesIn (s : State) (own : Nat) (d : Desc) (n : Nat) : List IndexClass :=
  (flatCodes s own d).map fun k => classify n (signed (widthOf d.fmt) k)

/-- A `SCATTER_ADD`: each contribution is added into its row in position order (07 R159, R160). -/
def scatterIn (s : State) (own : Nat) (e : Entry) : Result :=
  let d := descOr s e.descC
  let named := (classesIn s own (descOr s e.descB) d.rows).zipIdx.filterMap fun y => y.1.row?.map fun i => (i, y.2)
  let start := if e.subBit 1 then (List.range d.rows).map fun i => (i, List.replicate (d.dim 0) Val.zero)
    else ((List.range d.rows).filter fun i => named.any fun y => y.1 == i).map fun i => (i, valsIn s own d i)
  someResult s own d e.tensorId
    ((scatterLoop start (named.map fun n => (n.1, valsIn s own (descOr s e.descA) n.2))).map fun o => (o.1, encodeRow d.fmt 0 o.2))

/-- A `MERGE`: the present partials of each row summed in their order (07 R162). -/
def mergeIn (s : State) (own : Nat) (e : Entry) : Result :=
  let a := descOr s e.descA
  let d := descOr s e.descC
  let n := mergeRows a
  let here := fun i => (List.range (mergeParts a)).filter fun p =>
    e.descB == noDesc || nth (flatCodes s own (descOr s e.descB)) (p * n + i) == 1
  let write := (List.range n).filter fun i => !e.subBit 0 || !(here i).isEmpty
  someResult s own d e.tensorId (write.map fun i =>
    (i, encodeRow d.fmt (scaleExp s d) ((mergeRow (if e.subBit 0 then some (valsIn s own d i) else none)
      ((here i).map fun p => partRow a (allVals s own a) p i)).getD (List.replicate (d.dim 0) Val.zero))))

/-- A `HISTOGRAM`: the counts of the bins, and the rank of each element (07 R163). -/
def histIn (s : State) (own : Nat) (e : Entry) : Result :=
  let d := descOr s e.descC
  let k := descOr s e.descD
  let out := (classesIn s own (descOr s e.descA) d.count).foldl histStep
    (if e.subBit 1 then flatCodes s own d else List.replicate d.count 0, [])
  { writes := allWrites (coreIn s own d) d (rowsOf (d.dim 0) out.1) ++
      (if e.descD = noDesc then [] else allWrites (coreIn s own k) k (rowsOf (k.dim 0) out.2)) }

/-- A `COMPRESS`: each tile's header and payload at its slot of the stream (07 R164 to R167). -/
def compressIn (s : State) (own : Nat) (e : Entry) : Result :=
  let a := descOr s e.descA
  let d := descOr s e.descC
  { writes := (chunks 4096 (allBytes s own a)).zipIdx.map fun x =>
      (coreIn s own d * 524288 + (d.offset + 4160 * x.2),
       (compressTile a.fmt x.2 (x.1 ++ List.replicate (4096 - x.1.length) 0)).2) }

/-- The bytes of tile `k` of a compressed stream of codes `f`, zero codes where the tile fails a check (07 R169). -/
def tileIn (s : State) (own : Nat) (a : Desc) (f k : Nat) : List Byte :=
  let o := coreIn s own a * 524288 + (a.offset + 4160 * k)
  let h := leAt (memRead s.sp o 64) 0 8
  let codes := if tileHeaderOk f k h then decodeTile f h ((memRead s.sp o (64 * bits h 38 32)).drop 8) else none
  codes.elim (List.replicate 4096 0) (packCodes (widthOf f))

/-- A `ROUTE`: the route table and the loads (08 R176, R177). -/
def routeIn (s : State) (own : Nat) (e : Entry) : Result :=
  let y := routeAll e.capacity e.topk (e.subBit 0) (allVals s own (descOr s e.descA)) (flatCodes s own (descOr s e.descB))
    e.experts
  { writes := tableWrites (coreIn s own (descOr s e.descC)) (descOr s e.descC) y.2 ++
      tableWrites (coreIn s own (descOr s e.descD)) (descOr s e.descD) (y.1.map fun l => leBytes 4 l.1 ++ leBytes 4 l.2).flatten }

/-- A `COMBINE` without `RETURN`: of each token the weighted sum of its answers (08 R188). -/
def combineIn (s : State) (own : Nat) (e : Entry) : Result :=
  let d := descOr s e.descC
  let tbl := allBytes s own (descOr s e.descB)
  rowsResult s own d e.tensorId ((flatCodes s own (descOr s e.descD)).mapIdx fun p g => encodeRow d.fmt (scaleExp s d)
    ((mergeChoices s tbl e.topk e.capacity g p).foldl
      (fun acc x => addRow acc ((valsIn s own (descOr s e.descA) x.2).map (rMul (f32 x.1))))
      (if e.subBit 1 then (if p < d.rows then valsIn s own d p else []) else List.replicate (d.dim 0) Val.zero)))

/-- The rows of a packed or padded tensor from the other layout (08 R192). -/
def rangesIn (s : State) (c : Ctx) (padded : Bool) : List OutRow :=
  let a := descOr s c.e.descA
  let d := descOr s c.e.descC
  (List.range d.rows).map fun row => match coverOf (rangesOf c s) padded row with
    | some g => copyRow d.fmt (scaleExp s d) [] (codesIn s c.inst a (rangeAt (!padded) g + (row - rangeAt padded g)))
    | none => zeroRow d.fmt (d.dim 0)

/-- The five forms of `GROUPED` (08 R192). -/
def groupedIn (s : State) (c : Ctx) : Result :=
  let e := c.e
  let d := descOr s e.descC
  let m := descOr s e.descD
  let core := coreIn s c.inst d
  if e.subop % 8 = 0 then
    let r := rowsResult s c.inst d e.tensorId (rangesIn s c true)
    if e.descD = noDesc then r
    else { r with writes := r.writes ++ tableWrites (coreIn s c.inst m) m (maskBytesOf (maskRows e) (maskLines m) fun row =>
      decide (row < d.rows) && (coverOf (rangesOf c s) true row).isSome) }
  else if e.subop % 8 = 1 then rowsResult s c.inst d e.tensorId (rangesIn s c false)
  else if e.subop % 8 = 4 then
    { writes := tableWrites core d (maskBytesOf (maskRows e) (maskLines d) fun row => decide (row < (microOf c s).length)) }
  else { writes := allWrites core d (rowsOf (d.dim 0) ((List.range d.count).map fun row =>
      (coverOf (rangesOf c s) (e.subop % 8 == 3) row).elim 0xFFFF (·.group))) }

/-- What the entry of context `c` writes and reports, from the state before it. -/
def resultOf (s : State) (c : Ctx) : Result :=
  let e := c.e
  let own := c.inst
  let a := descOr s e.descA
  let side := descOr s e.descB
  let d := descOr s e.descC
  if e.op = 0x20 then
    let main := rowsResult s own d e.tensorId (programIn s own e.prog a side d)
    if progKind e.prog = 1 then
      let kept := rowsResult s own side (e.tensorId + 1) ((allVals s own a).map (encodeRow side.fmt (scaleExp s side)))
      { writes := kept.writes ++ main.writes, told := kept.told ++ main.told }
    else main
  else if e.op = 0x21 then optimIn s own e
  else if e.op = 0x33 then
    let rows := movedIn s own a d (List.range 6)
    { writes := ((fillCores s own e d).map fun k => allWrites k d (rows.map (·.codes))).flatten,
      told := [(e.tensorId, tally rows)] }
  else if 0x30 ≤ e.op ∧ e.op ≤ 0x32 then
    let d := moverDest s e
    rowsResult s own d e.tensorId (movedIn s own a d (permList e a.rank))
  else if e.op = 0x40 then
    rowsResult s own d e.tensorId ((classesIn s own side a.rows).map fun k =>
      k.row?.elim (absentRow d) fun i => copyRow d.fmt (scaleExp s d) [] (codesIn s own a i))
  else if e.op = 0x41 then scatterIn s own e
  else if e.op = 0x42 then mergeIn s own e
  else if e.op = 0x43 then routeIn s own e
  else if e.op = 0x45 then combineIn s own e
  else if e.op = 0x46 then compressIn s own e
  else if e.op = 0x47 then
    { writes := tableWrites (coreIn s own d) d
        ((List.range (ceilDiv (plainBytes d) 4096)).map (tileIn s own a d.fmt)).flatten }
  else if e.op = 0x48 then histIn s own e
  else groupedIn s c

/-- The descriptors that such an entry reads or writes, the compressed streams apart. -/
def operandsOf (s : State) (e : Entry) : List Desc :=
  let opt := fun (on : Bool) (id : Nat) => if on then [descOr s id] else []
  let a := descOr s e.descA
  let b := descOr s e.descB
  let d := descOr s e.descC
  if e.op = 0x20 then [a, d] ++ opt (progKind e.prog == 1 || readsSide e.prog) e.descB
  else if e.op = 0x21 then [a, b, d] ++ opt (e.prog == 2) (e.descB + 1) ++ opt (e.updateMode == 2) (e.descC + 1)
  else if e.op = 0x33 then [a, d] ++ opt (e.coreGroup != 0) e.descB
  else if 0x30 ≤ e.op ∧ e.op ≤ 0x32 then [a, moverDest s e]
  else if e.op = 0x40 ∨ e.op = 0x41 then [a, b, d]
  else if e.op = 0x42 then [a, d] ++ opt (e.descB != noDesc) e.descB
  else if e.op = 0x43 ∨ e.op = 0x44 ∨ e.op = 0x45 then
    [a, b, d, descOr s e.descD]
  else if e.op = 0x46 then [a]
  else if e.op = 0x47 then [d]
  else if e.op = 0x48 then [a, d] ++ opt (e.descD != noDesc) e.descD
  else if e.subop % 8 = 0 then [a, d] ++ opt (e.descD != noDesc) e.descD
  else if e.subop % 8 = 1 then [a, d]
  else [d]

/-- Byte runs that share no byte, unless they are one and the same. -/
def Disjoint (ws : List (Nat × List Byte)) : Prop :=
  ws.Pairwise fun x y => x = y ∨ x.1 + x.2.length ≤ y.1 ∨ y.1 + y.2.length ≤ x.1

/-- State `t` is the scratchpads and the census of state `s` after a result: every byte run is there, no other scratchpad byte
has changed, the counts are merged into those of their tensor ids, and a count of nonfinite elements sets the step's flag (06
R138, R139, R142). -/
def Gives (r : Result) (s t : State) : Prop :=
  (∀ w ∈ r.writes, memRead t.sp w.1 w.2.length = w.2) ∧
  (∀ k, (∀ w ∈ r.writes, k < w.1 ∨ w.1 + w.2.length ≤ k) → memGet t.sp k = memGet s.sp k) ∧
  (∀ i, i < 0x1000 → cellGet noCounts t.census.counts i =
    (r.told.filter fun x => x.1 == i && x.2 != {}).foldl (fun n x => mergeCounts n x.2) (cellGet noCounts s.census.counts i)) ∧
  t.step.nonfinite = (s.step.nonfinite || r.told.any fun x => x.1 != 0xFFFF && decide (0 < x.2.nonfinite))

/-- The last 8 bytes of an intake entry with `STATUS` (15 Table 15-3). -/
def statusWord (status : Nat) (raw : List Byte) : List Byte := (raw.drop 0x18).take 4 ++ leBytes 2 status ++ [0, 0]

/-- Host memory holds bytes at an address, if there is one, and every other host byte is as in `s`. -/
def HostHas (a : Option Nat) (bs : List Byte) (s t : State) : Prop :=
  match a with
  | some a => memRead t.host a bs.length = bs ∧ ∀ k, k < a ∨ a + bs.length ≤ k → memGet t.host k = memGet s.host k
  | none => t.host = s.host

/-! `MATMUL` (04 R77 to R95). -/

/-- Codes of every row of every product of a feed operand in core `core`, and the values that the arrays take of them, block
scales applied (04 R78, R86; 09 R199). -/
def feedCodes (s : State) (core : Nat) (d : Desc) : List (List Nat) :=
  ((List.range (d.dim 2)).map fun b => (List.range (d.dim 1)).map fun i =>
    feedRow d i (memRead s.sp (core * 524288 + (d.offset + b * nth d.stride 2 * 64)) d.product)).flatten
def feedIn (s : State) (core : Nat) (d : Desc) : List (List Val) :=
  (feedCodes s core d).mapIdx fun i row => feedVals d.fmt (((scaleDesc s d).elim [] (feedCodes s core)).getD i []) row

/-- An operand's scale tensor, if it has one, lies in feed layout in the same scratchpad. -/
def ScalesBeside (s : State) (core : Nat) (d : Desc) : Prop :=
  ∀ x, scaleDesc s d = some x → x.place = 1 ∧ x.layout = 1 ∧ coreIn s core x = core

/-- The live rows of the entry's tile (04 R89). -/
def liveIn (s : State) (core : Nat) (e : Entry) : List Nat :=
  liveRows ((descOr s e.descA).dim 1)
    (if e.maskDesc = noDesc then none else some (codesIn s core (descOr s e.maskDesc) 0))

/-- The tile fits the arrays of its gang mode (04 Table 04-2). -/
def GangFits (s : State) (core : Nat) (e : Entry) : Prop :=
  let batch := (descOr s e.descA).dim 2
  let rows := (liveIn s core e).length
  let cols := (descOr s e.descB).dim 1
  (e.gang = 0 ∧ batch ≤ 4 ∧ rows ≤ 64 ∧ cols ≤ 64) ∨ (e.gang = 1 ∧ batch ≤ 2 ∧ rows ≤ 128 ∧ cols ≤ 64) ∨
    (e.gang = 2 ∧ batch ≤ 1 ∧ rows ≤ 128 ∧ cols ≤ 128)

/-- What the cell of product `q`, packed row `p` (row `i` of the tile) and column `j` holds after the entry's K-steps: it goes
on from what it held, or from +0 and K-step 0 under `ACC_INIT` (04 R77 to R80). -/
def sumIn (s : State) (core : Nat) (e : Entry) (q p i j : Nat) : F32 :=
  let a := descOr s e.descA
  let b := descOr s e.descB
  let cell := cellOf e.gang q p j
  cellRun s.job.seed.toNat (stepNo s) e.tensorId
    (if e.accInit then 0 else cellGet noNat s.ksteps (setKey core cell.1 (accSet e))) (q * 16384 + i * 128 + j) (kPer a.fmt)
    e.longSum ((feedIn s core a).getD (q * a.dim 1 + i) []) ((feedIn s core b).getD (q * b.dim 1 + j) [])
    (if e.accInit then 0 else cellGet noF32 s.acc (accKey core (accSet e) cell))

/-- What the drain writes and reports (04 R94 to R97, R89). -/
def drainIn (s : State) (core : Nat) (e : Entry) : Result :=
  let a := descOr s e.descA
  let b := descOr s e.descB
  let d := descOr s e.descC
  let side := descOr s (e.descC + 1)
  let m := a.dim 1
  let live := liveIn s core e
  let all := List.range (a.dim 2 * m)
  let masked := fun (d : Desc) => (all.filter fun i => !live.contains (i % m)).map fun i => (i, quietZero d)
  let ofLive := all.filter fun i => live.contains (i % m)
  let vs := fun i => (List.range (b.dim 1)).map fun j =>
    descale (sumIn s core e (i / m) (live.findIdx (· == i % m)) (i % m) j) (scaleExp s a) (scaleExp s b)
  let ws := fun i => (vs i).mapIdx fun k v =>
    runProg s e.drainProg v ((if progKind e.drainProg = 2 then valsIn s core side i else []).getD k Val.zero)
  let sum := fun i => if drainAdd e then (ws i).mapIdx fun k w => rnd32 (Val.add ((valsIn s core d i).getD k Val.zero) w) else ws i
  let main := someResult s core d e.tensorId ((ofLive.map fun i => (i, encodeRow d.fmt (scaleExp s d) (sum i))) ++
    (if e.keepDest || drainAdd e then [] else masked d))
  if progKind e.drainProg = 1 then
    let kept := someResult s core side (e.tensorId + 1)
      ((ofLive.map fun i => (i, encodeRow side.fmt (scaleExp s side) (vs i))) ++ masked side)
    { writes := kept.writes ++ main.writes, told := kept.told ++ main.told }
  else main

/-- HBM bytes that a read brings unchanged: each line is of a raw region, or a clean line of class 0 or 1 (11 R240, R242). -/
def ReadsClean (s : State) (lo n : Nat) : Prop :=
  ∀ l, lo < 64 * l + 64 → 64 * l < lo + n → ∃ g, regionOf s (64 * l) = some g ∧
    (3 ≤ g.cls ∧ g.cls ≤ 5 ∨ g.cls ≤ 1 ∧ rsLine s [] (64 * l) = some ((lineRaw s [] (64 * l)).take 64, 0))

/-- A tensor on the device from which a read brings the bytes that lie there: in a scratchpad, in HBM, or in an open owned
window that admits the read (13 Table 13-5). -/
def ReadsHome (s : State) (own : Nat) (d : Desc) : Prop :=
  d.place ≤ 2 ∧ (d.place ≠ 1 → ∀ i, i < d.rows → ReadsClean s (rowAddr s own d i) d.rowBytes) ∧
    (d.place = 2 → (winOf s d.unit).kind = 1 ∧
      ∀ i, i < d.rows → ownerCheck s d.unit none false false (d.rowOff i) d.rowBytes d.rowBytes = 0)

/-- A tensor on the device that a write reaches: rows apart, those in HBM whole lines of regions. -/
def WritesHome (s : State) (own : Nat) (d : Desc) : Prop :=
  d.place ≤ 2 ∧
    (∀ i j, i < d.rows → j < d.rows → i ≠ j →
      rowAddr s own d i + d.rowBytes ≤ rowAddr s own d j ∨ rowAddr s own d j + d.rowBytes ≤ rowAddr s own d i) ∧
    (d.place ≠ 1 → d.rowBytes % 64 = 0 ∧ ∀ i, i < d.rows → rowAddr s own d i % 64 = 0 ∧
      ∀ k, k < d.rowBytes → (regionOf s (rowAddr s own d i + k)).isSome = true) ∧
    (d.place = 2 → (winOf s d.unit).kind = 1 ∧
      ∀ i, i < d.rows → ownerCheck s d.unit none true false (d.rowOff i) d.rowBytes d.rowBytes = 0)

/-- Every row of a range that a form reads lies in its source (08 R192). -/
def SourceRows (s : State) (c : Ctx) (padded : Bool) : Prop :=
  ∀ row g, row < (descOr s c.e.descC).rows → coverOf (rangesOf c s) padded row = some g →
    rangeAt (!padded) g + (row - rangeAt padded g) < (descOr s c.e.descA).rows

/-- An open window of another device. -/
def Away (s : State) (w : Nat) : Prop :=
  2 ≤ (winOf s w).kind ∧ (viewOf s w).isOpen = true ∧ (winOf s w).ring < s.rings.length ∧
    (routePort s (winOf s w).ring (winOwner s (winOf s w))).isSome = true

/-- A `DISPATCH`'s placement of expert `k`, the token that chose slot `q` of it, and how many slots satisfy a test (08 R180 to
R182). -/
def placedAt (s : State) (own : Nat) (e : Entry) (k : Nat) : Placement :=
  placementOf (((allBytes s own (descOr s e.descD)).drop (16 * k)).take 16)
def chosenBy (s : State) (own : Nat) (e : Entry) (k q : Nat) : Option Nat :=
  tokenOf (allBytes s own (descOr s e.descB)) (flatCodes s own (descOr s e.descC)).length e.topk k q
def slotsOf (e : Entry) (ok : Nat → Nat → Bool) : Nat :=
  (((List.range e.experts).map fun k => ((List.range e.capacity).filter (ok k)).length)).sum

/-! Reduce and gather phases of a collective: a transfer of bytes `bs` on a half (13 R304 to R306). -/

/-- The codes that the transfer brings, the first one's number in the half's stream, and the element that each is of. -/
def codesOf (x : Shape) (k : Coll) (bs : List Byte) : List Nat :=
  unpackCodes (x.width k.phase) (bs.length * 8 / x.width k.phase) bs
def firstIn (x : Shape) (k : Coll) (half : Nat) : Nat := k.got half * 8 / x.width k.phase
def placeOf (x : Shape) (k : Coll) (half i : Nat) : Nat :=
  x.at (x.chunkAt k.phase half ((firstIn x k half + i) / x.hq)) half ((firstIn x k half + i) % x.hq)

/-- Elements of a half that are passed on, before those of the last chunk that comes. -/
def passedOn (x : Shape) : Nat := (x.n - 2) * x.hq

/-- Each element of the transfer added to the own input (13 R304), and element `j` of the own chunk after it. -/
def summed (s : State) (x : Shape) (k : Coll) (half : Nat) (bs : List Byte) : List Val :=
  (codesOf x k bs).mapIdx fun i y => addSum (ofTransit x y) (inputVal s x k (placeOf x k half i))
def redAfter (s : State) (x : Shape) (k : Coll) (half : Nat) (bs : List Byte) (j : Nat) : Nat :=
  let t := passedOn x + j % x.hq
  if j / x.hq = half ∧ firstIn x k half ≤ t ∧ t < firstIn x k half + (codesOf x k bs).length then
    (toF32 ((summed s x k half bs).getD (t - firstIn x k half) Val.zero)).toNat
  else cellGet noNat k.red j

/-- `dst` is what a collective has gathered after the transfer: its codes, each in its place, and nothing else (13 R306). -/
def Gathers (x : Shape) (k : Coll) (half : Nat) (bs : List Byte) (dst : Cells Nat) : Prop :=
  (∀ i, i < (codesOf x k bs).length → cellGet noNat dst (placeOf x k half i) = nth (codesOf x k bs) i) ∧
  ∀ j, (∀ i, i < (codesOf x k bs).length → j ≠ placeOf x k half i) → cellGet noNat dst j = cellGet noNat k.dst j

/-- Ring engine `r` queues one transfer of bytes `bs` on a half's way, or none, between two states. -/
def SendsOn (r : Nat) (x : Shape) (half : Nat) (bs : List Byte) (s t : State) : Prop :=
  ∃ m, (ringAt t r).sendq = (ringAt s r).sendq ++ [m] ∧ m.port = x.port half ∧ m.data = bs
def SendsNone (r : Nat) (s t : State) : Prop := (ringAt t r).sendq = (ringAt s r).sendq

/-- The row that a gather writes and reports: what has been gathered, the own shard of an `ALL_REDUCE` reported as it was encoded
(13 R306, 06 R137). -/
def gatheredRow (s : State) (x : Shape) (k : Coll) (dst : Cells Nat) : OutRow :=
  let all := copyRow x.d.fmt (scaleExp s x.d) [] ((List.range x.d.count).map fun i => cellGet noNat dst i)
  let own := encodeRow x.d.fmt (scaleExp s x.d) (ownResults x k)
  if x.op = 0x51 then all
  else { all with reports := all.reports.mapIdx fun i y =>
    if x.p * x.q ≤ i ∧ i < (x.p + 1) * x.q then own.reports.getD (i - x.p * x.q) y else y }

/-- One row of codes in linear order, written over the rows of a tensor and reported under an id. -/
def flatResult (s : State) (own : Nat) (d : Desc) (id : Nat) (row : OutRow) : Result :=
  { writes := allWrites (coreIn s own d) d (chunks (d.dim 0) row.codes), told := [(id, tally [row])] }

/-- Scratchpad power states: an access brings the pairs that it touches to ON (10 R226). -/
def spPowers : List Nat := (List.range 136).map Reg.spPower

/-- No uncorrectable word of a scratchpad is met, and no unit word spoils a result. -/
def Clean (ph : List Phys) : Prop :=
  (∀ c o, Phys.spUncorrectable c o ∉ ph) ∧ ∀ u lo n, Phys.unitUncorrectable u lo n ∉ ph

/-- The body bias has cause for a step: a failed VCORE write, or a rate below the floor at the 850 mV at which the set point
stands or to which the loop now takes it (18 R406, R408). `r`: the rate of the period, `v`: the set point before it, `f`: the floor. -/
def WantsBias (s : State) (r v f : Nat) : Prop :=
  s.power.coreFailed = true ∨ r < f ∧ (v = 850 ∨ 845 ≤ v ∧ v < 850 ∧ loopStopped s = false)

/-- Command `c` is a wake request of a source in state `s` (18 R401, Table 18-5): of the port's activity only while its
Underpass is open (12 R282), of the management port at its own address while the sampling clock is stopped (17 R385). -/
def Wakes (c : Instr) (src : WakeSource) (s : State) : Prop :=
  c = .wakeRequest src ∨ (∃ p, c = .nolocActivity p ∧ src = .noloc p ∧ getB s (Reg.underpass p) 0 = true) ∨
    (∃ p, c = .lomraWakePattern p ∧ src = .lomra p) ∨ c = .pcieD0 ∧ src = .pcie ∨
    c = .i2cAddressMatch (0x58 + strapS s) ∧ src = .i2c ∧ s.power.oscillator = false

end Sys2Proof.Stmt

open Sys2Proof.Stmt

/-- For every command c, queue rest and state s: a step of s with c in front of its queue is exec of c on s with the rest of
the queue; with an empty queue a step answers the same state (the idle step is the model's choice, log entry 1). -/
def Obligations.StepRunsFrontCommand : Prop :=
  (∀ (c : Instr) (rest : List Instr) (s : State),
    Machine.step { s with pending := c :: rest } = Machine.exec c { s with pending := rest }) ∧
  (∀ s : State, s.pending = [] → Machine.step s = .next s)

/-- For every command and every state exec answers a next state: no path ends in a fault or a refusal. Every fault of the
manual is an effect on the state (a record, a flag, a card), after which the block goes on.
Model choices it rests on: log entries 4, 5. -/
def Obligations.NoCommandStops : Prop :=
  ∀ (c : Instr) (s : State), ∃ t, Machine.exec c s = .next t

/-- MB_TX: an aligned 64-bit write by a master that the channel's binding names as sender, to a channel that is not full,
stores the notice with the master's identity as stamp and sets FULL, counts SENT modulo 2^24 and raises the arrival event of
the receiver; no other channel and no other register changes, and nothing else but what leaves the device.
MB_RX: such a read by the receiver returns the notice and empties the channel, with the empty event to the sender; of an
empty channel it returns 0 and changes nothing else. -/
def Obligations.NoticeChannelTransfers : Prop :=
  (∀ (m : Master) (ch : Nat) (v : W64) (s : State),
    refusedMaster s m = false → bindValid s ch = true → partyIs (bindSender s ch) m = true → (notice s ch).full = false →
    ∃ t, Machine.exec (.mbTx m ch v true) s = .next t ∧
      notice t ch = { full := true, value := v, stamp := BitVec.ofNat 8 (masterId m) } ∧
      (∀ c, c ≠ ch → notice t c = notice s c) ∧
      getF t (Reg.mbStatus ch) 23 0 = (getF s (Reg.mbStatus ch) 23 0 + 1) % 2 ^ 24 ∧
      (bindReceiver s ch = 0x01 → t.out = s.out ++ [.msix (64 + 2 * ch)]) ∧
      (bindReceiver s ch = 0x10 ∨ bindReceiver s ch = 0x11 → t.out = s.out ++ [.mgtLine (2 * ch)]) ∧
      (bindReceiver s ch = 0x20 → t.out = s.out ++ [.secLine (2 * ch)]) ∧
      RegsBut [Reg.mbStatus ch] s t ∧ t = { s with notices := t.notices, regs := t.regs, out := t.out }) ∧
  (∀ (m : Master) (ch : Nat) (s : State),
    refusedMaster s m = false → bindValid s ch = true → partyIs (bindReceiver s ch) m = true →
    ∃ t, Machine.exec (.mbRx m ch true) s = .next t ∧
      (notice t ch).full = false ∧ (∀ c, c ≠ ch → notice t c = notice s c) ∧
      ((notice s ch).full = true → .read (notice s ch).value ∈ t.out.drop s.out.length ∧ notice t ch = {} ∧
        (bindSender s ch = 0x01 → t.out = s.out ++ [.read (notice s ch).value, .msix (64 + 2 * ch + 1)])) ∧
      ((notice s ch).full = false → t.out = s.out ++ [.read 0] ∧ t.notices = s.notices) ∧
      t = { s with notices := t.notices, out := t.out })

/-- WQ_TX: an aligned 64-bit write by a party of the channel, whose outgoing FIFO holds fewer than 16 words, appends the word
with its stamp to that FIFO and leaves the other FIFO as it is; with 16 words the FIFOs stay, OVERRUN is set, REJECTS counts
and the first rejected word is logged.
WQ_RX: such a read by a party returns and removes the oldest word of its incoming FIFO; of an empty FIFO it returns 0 and
sets EMPTY_READ. No register and nothing but the channel and what leaves the device changes.
Model choices it rests on: log entry 108. -/
def Obligations.WordQueueKeepsOrder : Prop :=
  (∀ (m : Master) (ch : Nat) (v : W64) (a : Bool) (s : State),
    refusedMaster s m = false → wordSide s ch m = some a → ((wordCh s ch).side a).out.length < 16 →
    ∃ t, Machine.exec (.wqTx m ch v true) s = .next t ∧
      ((wordCh t ch).side a).out = ((wordCh s ch).side a).out ++ [(v, BitVec.ofNat 8 (masterId m))] ∧
      (wordCh t ch).side (!a) = (wordCh s ch).side (!a) ∧ (∀ c, c ≠ ch → wordCh t c = wordCh s c) ∧
      (((wordCh s ch).side a).out ≠ [] → t.out = s.out) ∧
      t = { s with words := t.words, out := t.out }) ∧
  (∀ (m : Master) (ch : Nat) (v : W64) (a : Bool) (s : State),
    refusedMaster s m = false → wordSide s ch m = some a → 16 ≤ ((wordCh s ch).side a).out.length →
    ∃ t, Machine.exec (.wqTx m ch v true) s = .next t ∧
      ((wordCh t ch).side a).out = ((wordCh s ch).side a).out ∧ ((wordCh t ch).side a).overrun = true ∧
      ((wordCh t ch).side a).rejects = min (((wordCh s ch).side a).rejects + 1) 65535 ∧
      (((wordCh s ch).side a).overrun = false → ((wordCh t ch).side a).rejLog = v) ∧
      (wordCh t ch).side (!a) = (wordCh s ch).side (!a) ∧ (∀ c, c ≠ ch → wordCh t c = wordCh s c)) ∧
  (∀ (m : Master) (ch : Nat) (a : Bool) (s : State),
    refusedMaster s m = false → wordSide s ch m = some a →
    ∃ t, Machine.exec (.wqRx m ch true) s = .next t ∧
      (∀ (v : W64) (b : Byte) (rest : List (W64 × Byte)), ((wordCh s ch).side (!a)).out = (v, b) :: rest →
        ((wordCh t ch).side (!a)).out = rest ∧ (wordCh t ch).side a = (wordCh s ch).side a ∧
        .read v ∈ t.out.drop s.out.length ∧ (rest ≠ [] → t.out = s.out ++ [.read v])) ∧
      (((wordCh s ch).side (!a)).out = [] → (wordCh t ch).side (!a) = (wordCh s ch).side (!a) ∧
        ((wordCh t ch).side a).emptyRead = true ∧ ((wordCh t ch).side a).out = ((wordCh s ch).side a).out ∧
        t.out = s.out ++ [.read 0]) ∧
      (∀ c, c ≠ ch → wordCh t c = wordCh s c) ∧ t = { s with words := t.words, out := t.out })

/-- DB_STEP: a single aligned 64-bit write by the host with the pending slot free puts the word in the slot, not yet validated,
sets PENDING of DB_STATUS and shows the word's SLOT and STEP there. Nothing else of the state changes.
Model choices it rests on: log entries 32, 90. -/
def Obligations.DoorbellFillsSlot : Prop :=
  ∀ (v : W64) (s : State), s.slot = none →
    ∃ t, Machine.exec (.dbStep .host v true) s = .next t ∧
      t.slot = some { word := v, ws := none, rejected := false } ∧
      getB t Reg.dbStatus 63 = true ∧ getF t Reg.dbStatus 48 48 = fld v 0 0 ∧ getF t Reg.dbStatus 31 0 = fld v 63 32 ∧
      RegsBut [Reg.dbStatus] s t ∧ t = { s with slot := t.slot, regs := t.regs }

/-- DB_STEP while the pending slot is occupied: REJECTS of DB_STATUS counts one more, saturating; the pending step stays as it
is, no Report card is queued, and the write is answered as R367 gives for a full channel: MAILBOX_FULL is raised, its
interrupt bit is set in the MBX page, and the host's write is reported by AER as a Completer Abort. -/
def Obligations.DoorbellAtFullSlot : Prop :=
  ∀ (v : W64) (p : PendingStep) (s : State), s.slot = some p →
    ∃ t, Machine.exec (.dbStep .host v true) s = .next t ∧ t.slot = some p ∧ t.cards = s.cards ∧
      getF t Reg.dbStatus 47 32 = min (getF s Reg.dbStatus 47 32 + 1) 65535 ∧
      getF t Reg.dbStatus 31 0 = getF s Reg.dbStatus 31 0 ∧ getF t Reg.dbStatus 48 48 = getF s Reg.dbStatus 48 48 ∧
      getB t Reg.dbStatus 62 = true ∧ getB t (Reg.intStatus .mbx 0) 8 = true ∧
      (∃ tail, t.out = s.out ++ tail ∧ .alert 0x1001 ∈ tail ∧ .aer 0 ∈ tail) ∧
      RegsBut [Reg.dbStatus, Reg.intStatus .mbx 0] s t ∧ t = { s with regs := t.regs, out := t.out }

/-- DB_STEP, MB_TX, MB_RX, WQ_TX and WQ_RX that are no single aligned 64-bit access (`ok` false), of a master that is not
refused: a write is dropped, a read returns 0, MALFORMED of MBX_STATUS counts one more, saturating, with its alert, and
nothing else changes. -/
def Obligations.MalformedMailAccess : Prop :=
  ∀ (m : Master) (ch : Nat) (v : W64) (s : State), refusedMaster s m = false →
    (∀ c ∈ [Instr.dbStep m v false, .mbTx m ch v false, .wqTx m ch v false],
      ∃ t, Machine.exec c s = .next t ∧ getF t Reg.mbxStatus 31 16 = min (getF s Reg.mbxStatus 31 16 + 1) 65535 ∧
        RegsBut [Reg.mbxStatus] s t ∧ t = { s with regs := t.regs, out := s.out ++ [.alert 0x1003] }) ∧
    (∀ c ∈ [Instr.mbRx m ch false, .wqRx m ch false],
      ∃ t, Machine.exec c s = .next t ∧ getF t Reg.mbxStatus 31 16 = min (getF s Reg.mbxStatus 31 16 + 1) 65535 ∧
        RegsBut [Reg.mbxStatus] s t ∧ t = { s with regs := t.regs, out := s.out ++ [.alert 0x1003, .read 0] })

/-- START: a write of GLB_JOB_CTRL with START set that reaches the GLB page and is acted on (no job active, the device in
service, its core domain on or coming back) sets STATE to VALIDATING, latches the Timetable address, the seed, the Worksheet
base, the step written in the same word and the stash configuration and quota, and takes a HALT in the same word as a halt
asked for; the streams, the running step, the accumulators, scratchpads and hall passes are empty and PHASE is NONE; device
memory, host memory, the pending slot, the waiting cards, the stash records, the owned windows and the mailboxes stay. While
a job is active a START without HALT changes nothing at all.
Model choices it rests on: log entries 20, 146. -/
def Obligations.StartLatchesJob : Prop :=
  (∀ (m : Master) (v : W64) (s : State), Reaches m .glb 0 s → startIgnored s = false →
    ∃ t, Machine.exec (.start m v) s = .next t ∧ jobState t = 1 ∧
      t.job.ttBase = getF s Reg.jobTtBase 47 8 * 256 ∧ t.job.seed = rget s Reg.jobSeed ∧
      t.job.wsBase = getF s Reg.wsBase 47 13 * 8192 ∧ t.job.startStep = fld v 31 0 ∧
      t.job.stashCfg = rget s Reg.stashCfg ∧ t.job.stashQuota = rget s Reg.stashQuota ∧
      t.job.haltWanted = (fld v 62 62 == 1) ∧ getF t Reg.jobCtrl 31 0 = fld v 31 0 ∧
      t.streams = [] ∧ t.step = {} ∧ t.next = none ∧ t.acc = [] ∧ t.ksteps = [] ∧ t.sp = [] ∧ t.spFix = [] ∧
      t.passes = [] ∧ t.waiters = [] ∧ phase t = 0 ∧ t.slot = s.slot ∧ t.cards = s.cards ∧ t.hbm = s.hbm ∧
      t.chk = s.chk ∧ t.host = s.host ∧ t.stash = s.stash ∧ t.owned = s.owned ∧ t.notices = s.notices ∧
      t.words = s.words) ∧
  (∀ (m : Master) (v : W64) (s : State), Reaches m .glb 0 s → jobActive s = true → fld v 62 62 = 0 →
    Machine.exec (.start m v) s = .next s)

/-- HALT: a write of GLB_JOB_CTRL with HALT set and START clear. While the job validates, or while a step runs, the request
is noted and nothing else changes. In READY or RUNNING with no step running STATE becomes HALTED, the JOB_EVENT bit of the
GLB page is set, the pending step is discarded with a card that frees its slot when issued, the validated step that has not
started is discarded, and outside the 524,288 bytes of the scale table no HBM byte changes; streams, scratchpads, passes and
stash records stay. With no job active only the START_STEP field takes the written value.
Model choices it rests on: log entries 19, 39. -/
def Obligations.HaltEndsJob : Prop :=
  (∀ (m : Master) (v : W64) (s : State), Reaches m .glb 0 s → fld v 63 63 = 0 →
    (jobState s = 1 ∨ ((jobState s = 2 ∨ jobState s = 3) ∧ s.step.active = true)) →
    Machine.exec (.halt m v) s = .next { s with job := { s.job with haltWanted := true } }) ∧
  (∀ (m : Master) (v : W64) (s : State), Reaches m .glb 0 s → fld v 63 63 = 0 →
    jobState s = 2 ∨ jobState s = 3 → s.step.active = false →
    ∃ t, Machine.exec (.halt m v) s = .next t ∧ jobState t = 4 ∧ getB t (Reg.intStatus .glb 0) 8 = true ∧
      getF t Reg.watchdog 31 0 = 0 ∧ t.next = none ∧
      t.slot = s.slot.map (fun p => if p.rejected then p else { p with rejected := true, ws := none }) ∧
      (∀ p, s.slot = some p → p.rejected = false → ∃ l, t.cards =
        s.cards ++ l ++ [{ body := rejectedBody p.word 0x020C 0xFF, annex := none, frees := true }]) ∧
      (s.slot = none → s.next = none → t.cards = s.cards) ∧
      (∀ a, a < getF s Reg.scaleTable 47 8 * 256 ∨ getF s Reg.scaleTable 47 8 * 256 + 524288 ≤ a →
        memGet t.hbm a = memGet s.hbm a) ∧
      t.streams = s.streams ∧ t.step = s.step ∧ t.sp = s.sp ∧ t.acc = s.acc ∧ t.passes = s.passes ∧ t.stash = s.stash ∧
      t.job = s.job ∧ t.host = s.host) ∧
  (∀ (m : Master) (v : W64) (s : State), Reaches m .glb 0 s → fld v 63 63 = 0 → jobActive s = false →
    ∃ t, Machine.exec (.halt m v) s = .next t ∧ getF t Reg.jobCtrl 31 0 = fld v 31 0 ∧ RegsBut [Reg.jobCtrl] s t ∧
      t = { s with regs := t.regs })

/-- ABORT: a write of GLB_RESTART_CTRL with ABORT set while a job is active. STATE becomes HALTED and PHASE ABORTED;
LIVE_CLEAN tells whether no update entry of the step has written; every stream stands at its first entry with nothing in
flight; accumulators, scratchpads, hall passes and the stash are empty, no step runs, no transfer waits and no securing pass
is active; a pending step is discarded; ERROR names JOB_ABORTED unless a fault of the device's own stands there. HBM
outside the scale table, host memory, owned windows and mailboxes stay. With no job active and a restart under way PHASE
becomes ABORTED and what the refill had received is gone; with no job and no restart an ABORT that carries no GEN_STEP
change does nothing.
Model choices it rests on: log entry 21. -/
def Obligations.AbortStopsJob : Prop :=
  (∀ (m : Master) (v : W64) (s : State), Reaches m .glb 0 s → jobActive s = true →
    ∃ t, Machine.exec (.abort m v) s = .next t ∧ jobState t = 4 ∧ phase t = 1 ∧
      getB t Reg.restartStatus 59 = (!s.step.updateWrote) ∧ t.streams = s.streams.map restStream ∧
      t.acc = [] ∧ t.ksteps = [] ∧ t.sp = [] ∧ t.spFix = [] ∧ t.passes = [] ∧ t.waiters = [] ∧ t.stash = [] ∧
      t.step.active = false ∧ (∀ r ∈ t.rings, r.sendq = [] ∧ r.xfers = [] ∧ r.colls = []) ∧ passActive t = false ∧
      t.next = none ∧ (∀ p, t.slot = some p → p.rejected = true) ∧
      (s.step.aborted = false → s.job.faulted = false → getF t Reg.jobStatus 47 32 = 0x0E07) ∧
      (s.step.active = true → ∃ (b : State) (k : Counts), b.step.ws = s.step.ws ∧
        k = (if s.step.bell = .drained then s.census.snapTotals else s.census.totals) ∧
        { body := cardBody b 3 0x0E07 (List.replicate 32 0) k, annex := some (annexBytes b), frees := false }
          ∈ t.cards) ∧
      (∀ a, a < getF s Reg.scaleTable 47 8 * 256 ∨ getF s Reg.scaleTable 47 8 * 256 + 524288 ≤ a →
        memGet t.hbm a = memGet s.hbm a) ∧
      t.host = s.host ∧ t.owned = s.owned ∧ t.notices = s.notices ∧ t.words = s.words ∧ t.intake = s.intake) ∧
  (∀ (m : Master) (v : W64) (s : State), Reaches m .glb 0 s → jobActive s = false → phase s ≠ 0 →
    ∃ t, Machine.exec (.abort m v) s = .next t ∧ phase t = 1 ∧ t.locker.image = [] ∧ secOpen t = false ∧
      t.streams = s.streams ∧ t.step = s.step ∧ t.hbm = s.hbm ∧ t.chk = s.chk ∧ t.slot = s.slot) ∧
  (∀ (m : Master) (v : W64) (s : State), Reaches m .glb 0 s → jobActive s = false → phase s = 0 →
    ∃ t, Machine.exec (.abort m v) s = .next t ∧ RegsBut [Reg.restartCtrl] s t ∧ t = { s with regs := t.regs })

/-- JOB_VALIDATION while STATE is VALIDATING and no restore holds the job back. If the checks of R48 succeed on the state, once
the crossing events of the command are counted and raised, the
job's header, window table, streams and scale records are those that the checks returned, all windows are closed, LIMIT is
one and a half times the deadline, and STATE is READY with JOB_EVENT set (no halt being asked for). If a check fails, STATE is
REJECTED with JOB_EVENT set, ERROR holds the failed check's code, and the four words of the GLB page's error log hold the
stream, the entry, the descriptor with the number of the check, and the code; streams and windows stay. In any other STATE the
command changes nothing.
Model choices it rests on: log entries 4, 84, 85, 86, 87, 88, 114, 134. -/
def Obligations.JobValidationDecides : Prop :=
  (∀ (ph : List Phys) (s : State), jobState s = 1 → s.job.startHeld = false →
    ∃ t, Machine.exec (.jobValidation ph) s = .next t ∧
      (match (checkJob ph).run (trafficPhys none ph s) with
       | (.ok c, u) => u.job.haltWanted = false →
         jobState t = 2 ∧ getB t (Reg.intStatus .glb 0) 8 = true ∧ getF t Reg.watchdog 31 0 = c.h.deadline * 3 / 2 % 2 ^ 32 ∧
           t.job.header = c.h ∧ t.job.curves = c.curves ∧ t.job.windows = c.windows ∧ t.streams = c.streams ∧
           t.census.scale = c.scales ∧ t.owned = [] ∧ t.views = [] ∧ t.hbm = u.hbm ∧ t.step = u.step ∧ t.slot = u.slot
       | (.error e, u) =>
         jobState t = 5 ∧ getB t (Reg.intStatus .glb 0) 8 = true ∧ getF t Reg.jobStatus 47 32 = e.code % 2 ^ 16 ∧
           rget t (Reg.errLog .glb 0 0) = BitVec.ofNat 64 e.stream ∧
           rget t (Reg.errLog .glb 0 1) = BitVec.ofNat 64 e.entry ∧
           rget t (Reg.errLog .glb 0 2) = BitVec.ofNat 64 (e.desc + e.num * 2 ^ 56) ∧
           rget t (Reg.errLog .glb 0 3) = BitVec.ofNat 64 e.code ∧ t.streams = u.streams ∧ t.owned = u.owned ∧
           t.hbm = u.hbm ∧ t.slot = u.slot)) ∧
  (∀ (ph : List Phys) (s : State), jobState s ≠ 1 → Machine.exec (.jobValidation ph) s = .next s)

/-- WORKSHEET_VALIDATION with a pending step that is not yet judged. If the checks of Table 03-16 succeed, the step counts as
the last accepted one, unless a hard fault met in the command has discarded it; it stays in the slot as validated or, when nothing runs and no card waits, leaves the slot as the
next step. If a check fails, a REJECTED card with the check's code and micro-batch is queued, the slot stays occupied by the
rejected step, and the last accepted step stays. An empty slot, or one already judged, changes nothing.
Model choices it rests on: log entries 4, 91, 134. -/
def Obligations.WorksheetValidationDecides : Prop :=
  (∀ (ph : List Phys) (s : State) (p : PendingStep), s.slot = some p → p.ws = none → p.rejected = false →
    ∃ t, Machine.exec (.worksheetValidation ph) s = .next t ∧
      (match (checkSheet ph p.word).run (trafficPhys none ph s) with
       | (.ok ws, u) => (u.slot ≠ some p → t = u) ∧ (u.slot = some p → t.job.lastAccepted = some ws.step ∧ t.cards = u.cards ∧
         ((u.next = none ∧ u.step.active = false ∧ u.cards = [] ∧ (jobState u = 2 ∨ jobState u = 3) ∧
             t.next = some ws ∧ t.slot = none ∧ getB t Reg.dbStatus 63 = false) ∨
           (¬(u.next = none ∧ u.step.active = false ∧ u.cards = [] ∧ (jobState u = 2 ∨ jobState u = 3)) ∧
             t.next = u.next ∧ t.slot = some { p with ws := some ws } ∧ t.regs = u.regs)))
       | (.error e, u) => t = if u.slot = some p then { u with
           slot := some { p with rejected := true },
           cards := u.cards ++ [{ body := rejectedBody p.word e.code e.mb, annex := none, frees := true }] } else u)) ∧
  (∀ (ph : List Phys) (s : State), (∀ p, s.slot = some p → p.ws.isSome = true ∨ p.rejected = true) →
    Machine.exec (.worksheetValidation ph) s = .next s)

/-- STEP_START with a validated step waiting, no step running, no card waiting and the job READY or RUNNING: STATE becomes
RUNNING, STEP of GLB_JOB_STATUS the Worksheet's, the step runs with the Worksheet's expected masks as contributor masks, no
slot void or mixed, ELAPSED 0 and every stream at its first entry; the set phase is open, and a stream whose first entry is no
PASS_SET has finished it.
PASS_SET in the set phase gives the pass that the entry names its count, moves the stream on, and ends the stream's set phase
when the next entry is no PASS_SET; no other pass, stream or register changes.
SET_PHASE_COMPLETE when every stream has finished its set phase opens the barrier and posts pass 0x7F00.
Model choices it rests on: log entries 28, 32, 34, 36. -/
def Obligations.StepStartOpensStep : Prop :=
  (∀ (s : State) (ws : Worksheet), s.next = some ws → s.step.active = false → s.cards = [] →
    jobState s = 2 ∨ jobState s = 3 →
    ∃ t, Machine.exec .stepStart s = .next t ∧ jobState t = 3 ∧ getF t Reg.jobStatus 31 0 = ws.step % 2 ^ 32 ∧
      t.next = none ∧ t.step.active = true ∧ t.step.ws = ws ∧ t.step.maskA = ws.expectA ∧ t.step.maskB = ws.expectB ∧
      t.step.maskC = ws.expectC ∧ t.step.setOpen = false ∧ t.step.departed = 0 ∧ t.step.dropped = 0 ∧
      rget t Reg.slotVoid = 0 ∧ rget t Reg.slotMixed = 0 ∧ getF t Reg.watchdog 63 32 = 0 ∧
      t.streams = s.streams.map openStream ∧ t.passes = s.passes ∧ t.hbm = s.hbm ∧ t.sp = s.sp ∧ t.slot = s.slot ∧
      t.cards = [] ∧ t.stash = s.stash) ∧
  (∀ (st : Nat) (x : Stream) (e : Entry) (s : State), streamAt s st = some x → x.next? = some e → e.op = 1 →
    stepRuns s = true → s.step.setOpen = false →
    ∃ t y, Machine.exec (.passSet st) s = .next t ∧ streamAt t st = some y ∧ y.pos = x.pos + 1 ∧
      y.setDone = (y.nextOp != 1) ∧ y.entries = x.entries ∧ y.inflight = x.inflight ∧
      passCount t e.postPass = e.postCount ∧ (∀ p, p ≠ e.postPass → passCount t p = passCount s p) ∧
      (∀ i, i ≠ st → streamAt t i = streamAt s i) ∧ t = { s with streams := t.streams, passes := t.passes }) ∧
  (∀ s : State, stepRuns s = true → s.step.setOpen = false → (∀ x ∈ s.streams, x.setDone = true) →
    ∃ t, Machine.exec .setPhaseComplete s = .next t ∧ t.step.setOpen = true ∧ 0x7F00 ∈ t.step.sysPasses ∧
      t.streams = s.streams ∧ t.passes = s.passes ∧ t.regs = s.regs ∧ t = { s with step := t.step })

/-- NOP that may issue, with every earlier entry in flight run, is launched and done at once and changes nothing but its
stream. SEGMENT of a selected micro-batch and
bucket issues and opens its segment, which covers the next SKIP_LEN entries; an unselected one skips them, with no wait and no
post. UPDATE_BEGIN before the gate decision or before the securing release changes nothing; then an open gate issues it and
the stream goes on past it, and a closed gate sends the stream to its last entry; pass 0x7F02 is posted. STEP_END stops the
stream. No hall pass, register or memory changes.
Model choices it rests on: log entries 25, 26, 34. -/
def Obligations.ControlEntriesMoveTheirStream : Prop :=
  (∀ (st : Nat) (ph : List Phys) (x : Stream) (e : Entry) (s : State), Stands st x e s → InTurn x → e.op = 0 →
    ∃ t y, Machine.exec (.nop st ph) s = .next t ∧ streamAt t st = some y ∧ Launched s x y ∧ y.seg = x.seg ∧
      (∃ f ∈ y.inflight, f.idx = x.pos ∧ f.done = true) ∧ (∀ i, i ≠ st → streamAt t i = streamAt s i) ∧
      t = { s with streams := t.streams }) ∧
  (∀ (st : Nat) (x : Stream) (e : Entry) (s : State), Stands st x e s → e.op = 2 → selected s.step.ws e = true →
    ∃ t y, Machine.exec (.segment st) s = .next t ∧ streamAt t st = some y ∧ Launched s x y ∧
      y.seg = some (e.mbSlot, x.pos + 1 + e.skipLen) ∧ (∀ i, i ≠ st → streamAt t i = streamAt s i) ∧
      t = { s with streams := t.streams }) ∧
  (∀ (st : Nat) (x : Stream) (e : Entry) (s : State), streamAt s st = some x → x.next? = some e → e.op = 2 →
    stepRuns s = true → s.step.setOpen = true → selected s.step.ws e = false →
    ∃ t y, Machine.exec (.segment st) s = .next t ∧ streamAt t st = some y ∧ y.pos = x.pos + 1 + e.skipLen ∧
      y.inflight = x.inflight ∧ y.entries = x.entries ∧ y.seg = x.seg ∧ y.released = false ∧ y.blocked = false ∧
      (∀ i, i ≠ st → streamAt t i = streamAt s i) ∧ t = { s with streams := t.streams }) ∧
  (∀ (st : Nat) (s : State), s.step.decided = false ∨ secReleased s = false →
    Machine.exec (.updateBegin st) s = .next s) ∧
  (∀ (st : Nat) (x : Stream) (e : Entry) (s : State), Stands st x e s → e.op = 3 → s.step.decided = true →
    secReleased s = true → s.step.gateOpen = true →
    ∃ t y, Machine.exec (.updateBegin st) s = .next t ∧ streamAt t st = some y ∧ Launched s x y ∧ y.afterUpdate = true ∧
      0x7F02 ∈ t.step.sysPasses ∧ (∀ i, i ≠ st → streamAt t i = streamAt s i) ∧
      t = { s with streams := t.streams, step := t.step }) ∧
  (∀ (st : Nat) (x : Stream) (e : Entry) (s : State), streamAt s st = some x → x.next? = some e → e.op = 3 →
    stepRuns s = true → s.step.setOpen = true → s.step.decided = true → secReleased s = true → s.step.gateOpen = false →
    ∃ t y, Machine.exec (.updateBegin st) s = .next t ∧ streamAt t st = some y ∧ y.pos = x.entries.length - 1 ∧
      y.inflight = x.inflight ∧ y.entries = x.entries ∧ y.afterUpdate = x.afterUpdate ∧ 0x7F02 ∈ t.step.sysPasses ∧
      (∀ i, i ≠ st → streamAt t i = streamAt s i) ∧ t = { s with streams := t.streams, step := t.step }) ∧
  (∀ (st : Nat) (x : Stream) (e : Entry) (s : State), streamAt s st = some x → x.next? = some e → e.op = 4 →
    stepRuns s = true → s.step.setOpen = true →
    ∃ t, Machine.exec (.stepEnd st) s = .next t ∧ streamAt t st = some { x with atEnd := true } ∧
      (∀ i, i ≠ st → streamAt t i = streamAt s i) ∧ t = { s with streams := t.streams })

/-- PASS_WAIT_RELEASE for a stream whose next entry stands at its wait. With the pass waited on by no other stream and no
uncorrectable count word, a count of at least WAIT_COUNT is lowered by it and the wait is released, and a smaller count leaves
the pass as it is and the stream blocked; the stream becomes the pass's waiter, no other pass or waiter changes, and of the
registers only error counts of hall-pass banks. A pass whose first waiter is another stream raises PASS_CONTENDED, and an
uncorrectable word of the pass raises PASS_ECC: the step ends and no pass changes.
Model choices it rests on: log entries 27, 31. -/
def Obligations.PassWaitTestsAndSubtracts : Prop :=
  (∀ (st : Nat) (ph : List Phys) (x : Stream) (e : Entry) (s : State), streamAt s st = some x → x.next? = some e →
    atWait s x e = true → (∀ q, Phys.passUncorrectable q ∉ ph) →
    (cellGet noWaiter s.waiters e.waitPass = 0xFFFF ∨ cellGet noWaiter s.waiters e.waitPass = st) →
    ∃ t y, Machine.exec (.passWaitRelease st ph) s = .next t ∧ streamAt t st = some y ∧
      y.pos = x.pos ∧ y.inflight = x.inflight ∧ y.entries = x.entries ∧
      (e.waitCount ≤ passCount s e.waitPass → y.released = true ∧ y.blocked = false ∧
        passCount t e.waitPass = passCount s e.waitPass - e.waitCount) ∧
      (passCount s e.waitPass < e.waitCount → y.released = x.released ∧ y.blocked = true ∧
        passCount t e.waitPass = passCount s e.waitPass) ∧
      cellGet noWaiter t.waiters e.waitPass = st ∧
      (∀ p, p ≠ e.waitPass → passCount t p = passCount s p ∧ cellGet noWaiter t.waiters p = cellGet noWaiter s.waiters p) ∧
      (∀ i, i ≠ st → streamAt t i = streamAt s i) ∧ RegsBut ((List.range 33).map (Reg.errCount .hpb)) s t ∧
      t = { s with streams := t.streams, passes := t.passes, waiters := t.waiters, regs := t.regs, step := t.step }) ∧
  (∀ (st : Nat) (x : Stream) (e : Entry) (s : State), streamAt s st = some x → x.next? = some e →
    atWait s x e = true → cellGet noWaiter s.waiters e.waitPass ≠ 0xFFFF → cellGet noWaiter s.waiters e.waitPass ≠ st →
    ∃ t, Machine.exec (.passWaitRelease st []) s = .next t ∧ t.step.active = false ∧
      getF t Reg.jobStatus 47 32 = 0x0304 ∧ getF t (Reg.faultRec 0) 15 0 = 0x0304 ∧ t.passes = s.passes ∧
      t.waiters = s.waiters ∧ t.streams = s.streams) ∧
  (∀ (st : Nat) (ph : List Phys) (x : Stream) (e : Entry) (s : State), streamAt s st = some x → x.next? = some e →
    atWait s x e = true → Phys.passUncorrectable e.waitPass ∈ ph →
    ∃ t, Machine.exec (.passWaitRelease st ph) s = .next t ∧ t.step.active = false ∧
      getF t Reg.jobStatus 47 32 = 0x1401 ∧ getF t (Reg.faultRec 0) 15 0 = 0x1401 ∧ t.passes = s.passes ∧
      t.waiters = s.waiters ∧ t.streams = s.streams)

/-- ENTRY_COMPLETE when the oldest entry in flight of a stream is done and the step runs. The entry leaves the stream. Each
slot that one of its confined events names is void, and the groups that the event drops are in no contributor mask. Without confined events and with no bad count word, an entry that posts,
its own hard fault or none notwithstanding, adds POST_COUNT to each of its POST_SPAN + 1 passes if none of them would exceed 65,535 and leaves every other pass; an entry
that does not post leaves every pass; a STASH_READ without KEEP frees the record that it read, not one that has replaced it, and every other entry leaves the stash; a
gate-carrying collective of a ring stream marks its ring as done. A hard fault of the entry that lets it complete and post
first then ends the step with its code and record. A post that would exceed 65,535 raises PASS_OVERFLOW and
leaves the pass. An entry in flight that is not done stays: nothing changes.
Model choices it rests on: log entries 4, 18, 23. -/
def Obligations.EntryCompleteRetiresOldest : Prop :=
  (∀ (st : Nat) (ph : List Phys) (x : Stream) (f : Flight) (rest : List Flight) (e : Entry) (s : State),
    streamAt s st = some x → x.inflight = f :: rest → x.entry? f.idx = some e → f.done = true → s.step.active = true →
    ∃ t y, Machine.exec (.entryComplete st ph) s = .next t ∧ streamAt t st = some y ∧ y.inflight = rest ∧
      y.pos = x.pos ∧ y.entries = x.entries ∧ (∀ i, i ≠ st → streamAt t i = streamAt s i) ∧
      (∀ r ∈ f.raised, r.mbSlot < 64 → isVoid t r.mbSlot = true) ∧
      (∀ r ∈ f.raised, ∀ g, g < 4096 → maskHas (recMask r s) g = true → maskHas t.step.maskA g = false ∧
        maskHas t.step.maskB g = false ∧ maskHas t.step.maskC g = false)) ∧
  (∀ (st : Nat) (ph : List Phys) (x : Stream) (f : Flight) (rest : List Flight) (e : Entry) (s : State),
    streamAt s st = some x → x.inflight = f :: rest → x.entry? f.idx = some e → f.done = true → s.step.active = true →
    f.raised = [] → (∀ q, Phys.passUncorrectable q ∉ ph) →
    (∀ k, k ≤ e.postSpan → passCount s (e.postPass + k) + e.postCount ≤ 65535) →
    ∃ t, Machine.exec (.entryComplete st ph) s = .next t ∧
      (∀ p, passCount t p = passCount s p +
        (if e.postEn = true ∧ e.postPass ≤ p ∧ p ≤ e.postPass + e.postSpan then e.postCount else 0)) ∧
      (∀ r, f.hard = [r] → r.code < 65536 → t.step.active = false ∧ t.step.aborted = true ∧
        getF t Reg.jobStatus 47 32 = r.code ∧ getF t (Reg.faultRec 0) 15 0 = r.code) ∧
      (e.op = 0x35 → e.subBit 0 = false → t.stash = s.stash.filter fun r =>
        !(r.tag == slotTag e f.slot && f.record == some r.id)) ∧
      (e.op ≠ 0x35 → t.stash = s.stash) ∧
      (x.kind = 3 → 0x50 ≤ e.op → e.op ≤ 0x52 → e.subBit 0 = true → t.step.gateDone = s.step.gateDone ++ [x.unit]) ∧
      t.sp = s.sp ∧ t.acc = s.acc ∧ (f.hard = [] → t.step.active = true ∧ t.hbm = s.hbm)) ∧
  (∀ (st : Nat) (x : Stream) (f : Flight) (rest : List Flight) (e : Entry) (s : State),
    streamAt s st = some x → x.inflight = f :: rest → x.entry? f.idx = some e → f.done = true → s.step.active = true →
    f.raised = [] → f.hard = [] → e.postEn = true → e.postSpan = 0 → 65535 < passCount s e.postPass + e.postCount →
    ∃ t, Machine.exec (.entryComplete st []) s = .next t ∧ t.passes = s.passes ∧ t.step.active = false ∧
      getF t Reg.jobStatus 47 32 = 0x0303 ∧ getF t (Reg.faultRec 0) 15 0 = 0x0303) ∧
  (∀ (st : Nat) (ph : List Phys) (x : Stream) (f : Flight) (rest : List Flight) (s : State),
    streamAt s st = some x → x.inflight = f :: rest → f.done = false →
    Machine.exec (.entryComplete st ph) s = .next s)

/-- STEP_WATCHDOG in a running step in which no UPDATE_BEGIN waits on pass 0x7F02: ELAPSED shows LIMIT, the report of the streams that are not at their end leaves the
device, and the step ends with its card; ERROR is PASS_STALL if some row of the report names a pass on which it is blocked,
and ENTRY_STALL otherwise. WAIT_LIMIT_EXPIRY for a stream at a wait with a limit and too small a count ends the step with
PASS_STALL, and the fault record names that stream and entry; so does one for an UPDATE_BEGIN with a limit that waits on pass
0x7F01 or 0x7F02. Streams, passes and memories stay where no halt was asked for; with no step running, or while an
UPDATE_BEGIN waits on pass 0x7F02, the watchdog does nothing.
Model choices it rests on: log entries 18, 29, 30. -/
def Obligations.WatchdogsEndTheStep : Prop :=
  (∀ s : State, s.step.active = true → updateHeld s = false →
    ∃ t, Machine.exec .stepWatchdog s = .next t ∧ t.step.active = false ∧ t.step.aborted = true ∧
      getF t Reg.jobStatus 47 32 = (if ∃ r ∈ stallRows s, r.2.2.isSome then 0x0301 else 0x0302) ∧
      getF t (Reg.faultRec 0) 15 0 = getF t Reg.jobStatus 47 32 ∧ .streamReport (stallRows s) ∈ t.out ∧
      (s.job.haltWanted = false → getF t Reg.watchdog 63 32 = getF s Reg.watchdog 31 0 ∧ t.hbm = s.hbm ∧
        jobState t = jobState s) ∧
      (∃ c l, t.cards = s.cards ++ c :: l ∧ c.annex.isSome = true ∧ c.frees = false) ∧ t.streams = s.streams ∧ t.passes = s.passes ∧
      t.sp = s.sp ∧ t.acc = s.acc ∧ t.stash = s.stash) ∧
  (∀ s : State, s.step.active = false ∨ updateHeld s = true → Machine.exec .stepWatchdog s = .next s) ∧
  (∀ (st : Nat) (x : Stream) (e : Entry) (s : State), st < 65536 → streamAt s st = some x → x.next? = some e →
    stepRuns s = true → s.step.setOpen = true → e.op = 3 → 0 < e.waitLimit →
    (s.step.decided = false ∨ secReleased s = false) →
    ∃ t, Machine.exec (.waitLimitExpiry st) s = .next t ∧ t.step.active = false ∧ getF t Reg.jobStatus 47 32 = 0x0301 ∧
      getF t (Reg.faultRec 0) 63 48 = st ∧ getF t (Reg.faultRec 1) 27 0 = x.pos % 2 ^ 28 ∧
      getF t (Reg.faultRec 2) 63 32 = (if s.step.decided then 0x7F02 else 0x7F01) ∧ t.streams = s.streams ∧
      t.passes = s.passes ∧ t.sp = s.sp) ∧
  (∀ (st : Nat) (x : Stream) (e : Entry) (s : State), st < 65536 → streamAt s st = some x → x.next? = some e →
    atWait s x e = true → 0 < e.waitLimit → passCount s e.waitPass < e.waitCount →
    ∃ t, Machine.exec (.waitLimitExpiry st) s = .next t ∧ t.step.active = false ∧ getF t Reg.jobStatus 47 32 = 0x0301 ∧
      getF t (Reg.faultRec 0) 15 0 = 0x0301 ∧ getF t (Reg.faultRec 0) 63 48 = st ∧
      getF t (Reg.faultRec 1) 27 0 = x.pos % 2 ^ 28 ∧ t.streams = s.streams ∧ t.passes = s.passes ∧ t.sp = s.sp)

/-- For each data entry (MATMUL, VECTOR, OPTIM, the movers, the stash, the Junction operations, routing, the grouped forms, the
collectives and ROTATE) that its stream stands at and that may issue, whatever the physical world does meanwhile: the entry is
in flight with its segment's slot and whether that slot was void, the stream evaluates its next entry, and every other stream,
the waiters, ports, owned windows, mailboxes, intake, management and power state stay, and the Locker state where no restart
is under way. No hall pass changes, but for DISPATCH and COMBINE with RETURN, whose block ends may post an arrival pass on the
device itself. Where every earlier entry in flight has run, every crossing's clock runs and no window of the job is remote,
the entry's effect has run, and it is done unless it is a ring entry. Behind an entry in flight that has not run it waits for
its turn, and of everything but its stream only the mixed slots may change, and a gate-carrying entry has taken the snapshot.
In turn and not void, with their operands plain scratchpad tensors without block scales and what they write apart: MERGE,
HISTOGRAM, COMPRESS, DECOMPRESS, ROUTE, COMBINE without RETURN and the five forms of GROUPED leave in the scratchpads the bytes
that their rules give, and no other change there, and merge their counts into those of their tensor id (resultOf). DISPATCH
into remote windows queues each chosen row of a live group as a WRITE with its bytes and offset under the group's tag, and
counts the rows sent and withheld.
Model choices it rests on: log entries 25, 26, 61, 141, 142. -/
def Obligations.DataEntriesLaunch : Prop :=
  ∀ (st : Nat) (ph : List Phys) (x : Stream) (e : Entry) (s : State), Stands st x e s →
    (∀ p ∈ dataEntries st ph, p.2 e = true →
      ∃ t y, Machine.exec p.1 s = .next t ∧ streamAt t st = some y ∧ Launched s x y ∧ EntryFrame st s t ∧
        t.passes = s.passes ∧
        (InTurn x → ClocksRun s → (∀ w, (winOf s w).kind < 2) → ∃ f ∈ y.inflight, f.idx = x.pos ∧ f.ran = true ∧ f.done = true)) ∧
    (∀ p ∈ ringEntries st ph, p.2 e = true →
      ∃ t y, Machine.exec p.1 s = .next t ∧ streamAt t st = some y ∧ Launched s x y ∧ EntryFrame st s t ∧
        t.passes = s.passes ∧
        (InTurn x → ClocksRun s → (∀ w, (winOf s w).kind < 2) → ∃ f ∈ y.inflight, f.idx = x.pos ∧ f.ran = true)) ∧
    (∀ p ∈ markerEntries st ph, p.2 e = true →
      ∃ t y, Machine.exec p.1 s = .next t ∧ streamAt t st = some y ∧ Launched s x y ∧ EntryFrame st s t ∧
        (InTurn x → ClocksRun s → (∀ w, (winOf s w).kind < 2) → ∃ f ∈ y.inflight, f.idx = x.pos ∧ f.ran = true ∧ f.done = true)) ∧
    (∀ p ∈ dataEntries st ph ++ ringEntries st ph ++ markerEntries st ph, p.2 e = true → ¬ InTurn x →
      ∃ t y, Machine.exec p.1 s = .next t ∧ streamAt t st = some y ∧ Launched s x y ∧
        (∃ f ∈ y.inflight, f.idx = x.pos ∧ f.ran = false ∧ f.done = false) ∧ RegsBut [Reg.slotMixed] s t ∧
        t = { s with streams := t.streams, regs := t.regs,
                     step := if isGate e then { s.step with snapshot := true } else s.step }) ∧
    (InTurn x → slotVoid s x.slotNow = false → e.op ∈ [0x42, 0x43, 0x45, 0x46, 0x47, 0x48, 0x49] →
      (∀ d ∈ operandsOf s e, PlainSp d) → (e.op = 0x46 → (descOr s e.descC).place = 1) →
      (e.op = 0x47 → (descOr s e.descA).place = 1) →
      (e.op = 0x49 → e.subop % 8 ≤ 1 → SourceRows s (ctxOf s st x x.pos e x.slotNow false []) (e.subop % 8 == 0)) →
      Disjoint (resultOf s (ctxOf s st x x.pos e x.slotNow false [])).writes →
      ∀ p ∈ dataEntries st [], p.2 e = true →
        ∃ t y, Machine.exec p.1 s = .next t ∧ streamAt t st = some y ∧
          (∃ f ∈ y.inflight, f.idx = x.pos ∧ f.ran = true ∧ f.done = true) ∧
          Gives (resultOf s (ctxOf s st x x.pos e x.slotNow false [])) s t) ∧
    (InTurn x → slotVoid s x.slotNow = false → e.op = 0x44 → (∀ d ∈ operandsOf s e, PlainSp d) →
      (∀ k, k < e.experts → Away s (placedAt s (streamInst s x) e k).window) →
      0 < (descOr s e.descA).rowBytes → (descOr s e.descA).rowBytes ≤ 15360 →
      ∃ t, Machine.exec (.dispatch st []) s = .next t ∧
        (∀ k q p g pl, k < e.experts → q < e.capacity → chosenBy s (streamInst s x) e k q = some p →
          g = nth (flatCodes s (streamInst s x) (descOr s e.descC)) p → maskHas s.step.maskA g = true →
          pl = placedAt s (streamInst s x) e k →
          ∃ m ∈ (ringAt t (winOf s pl.window).ring).sendq, m.data = pad16 (bytesIn s (streamInst s x) (descOr s e.descA) p) ∧
            m.first.typ = 2 ∧ leAt m.first.payload 6 1 = 0 ∧ m.first.gv = true ∧ m.first.tag = epochTag s g ∧
            m.first.group = g ∧ leAt m.first.payload 8 2 = (winOf s pl.window).target % 2 ^ 16 ∧
            leAt m.first.payload 0x18 8 = (((pl.local_ * pl.sources + pl.source) * e.capacity + q) *
              (descOr s e.descA).rowBytes) % 2 ^ 64 ∧ maskHas t.step.departed g = true) ∧
        getF t (Reg.dispatchRows (streamInst s x)) 47 0 = (getF s (Reg.dispatchRows (streamInst s x)) 47 0 +
          (slotsOf e fun k q => ((chosenBy s (streamInst s x) e k q).any fun p =>
            maskHas s.step.maskA (nth (flatCodes s (streamInst s x) (descOr s e.descC)) p)))) % 2 ^ 48 ∧
        getF t (Reg.dispatchSkipped (streamInst s x)) 47 0 = (getF s (Reg.dispatchSkipped (streamInst s x)) 47 0 +
          (slotsOf e fun k q => ((chosenBy s (streamInst s x) e k q).any fun p =>
            !maskHas s.step.maskA (nth (flatCodes s (streamInst s x) (descOr s e.descC)) p)))) % 2 ^ 48 ∧
        t.sp = s.sp ∧ t.hbm = s.hbm)

/-- WINDOW_OPEN of a closed owned window, and WINDOW_CLOSE of an open one, launch the entry, set the window OPEN or CLOSED and
advance its epoch by one modulo 65,536; no other owned window changes, and HBM and scratchpads stay. Opening an open window and
closing a closed one leave every owned window. A close remembers the epoch before it for the accesses that had arrived.
ATTACH of a view with an unconsumed open takes it, and the entry is done; with none the entry waits for one. DETACH ends the
attachment; with transfers to the window unanswered the entry waits for them, and with none it is done and a BLOCK_END marker to
the owner is queued.
Model choices it rests on: log entry 65. -/
def Obligations.WindowEntriesOpenAndClose : Prop :=
  (∀ (st : Nat) (x : Stream) (e : Entry) (s : State), Stands st x e s → InTurn x → e.op = 0x54 → (winOf s e.window).kind = 1 →
    ∃ t y, Machine.exec (.windowOpen st) s = .next t ∧ streamAt t st = some y ∧ y.pos = x.pos + 1 ∧
      y.entries = x.entries ∧ y.inflight.length = x.inflight.length + 1 ∧ (ownedOf t e.window).isOpen = true ∧
      (ownedOf t e.window).epoch = (if (ownedOf s e.window).isOpen then (ownedOf s e.window).epoch
        else ((ownedOf s e.window).epoch + 1) % 2 ^ 16) ∧
      (∀ w, w ≠ e.window → ownedOf t w = ownedOf s w) ∧ t.hbm = s.hbm ∧ t.sp = s.sp ∧ t.ports = s.ports ∧
      t.passes = s.passes) ∧
  (∀ (st : Nat) (x : Stream) (e : Entry) (s : State), Stands st x e s → InTurn x → e.op = 0x55 → (winOf s e.window).kind = 1 →
    ∃ t y, Machine.exec (.windowClose st) s = .next t ∧ streamAt t st = some y ∧ y.pos = x.pos + 1 ∧
      y.entries = x.entries ∧ y.inflight.length = x.inflight.length + 1 ∧ (ownedOf t e.window).isOpen = false ∧
      (ownedOf t e.window).epoch = (if (ownedOf s e.window).isOpen then ((ownedOf s e.window).epoch + 1) % 2 ^ 16
        else (ownedOf s e.window).epoch) ∧
      ((ownedOf s e.window).isOpen = true → (ownedOf t e.window).was = (ownedOf s e.window).epoch) ∧
      (∀ w, w ≠ e.window → ownedOf t w = ownedOf s w) ∧ t.hbm = s.hbm ∧ t.sp = s.sp ∧ t.ports = s.ports ∧
      t.passes = s.passes) ∧
  (∀ (st : Nat) (x : Stream) (e : Entry) (s : State), Stands st x e s → InTurn x → e.op = 0x54 →
    (winOf s e.window).kind = 2 ∨ (winOf s e.window).kind = 3 →
    ∃ t y, Machine.exec (.attach st) s = .next t ∧ streamAt t st = some y ∧ Launched s x y ∧
      (0 < (viewOf s e.window).opens → (viewOf t e.window).opens = (viewOf s e.window).opens - 1 ∧
        (viewOf t e.window).attached = true ∧ ∃ f ∈ y.inflight, f.idx = x.pos ∧ f.done = true) ∧
      ((viewOf s e.window).opens = 0 → t.views = s.views ∧ ∃ f ∈ y.inflight, f.idx = x.pos ∧ f.done = false ∧
        f.waiting = 1) ∧
      (∀ w, w ≠ e.window → viewOf t w = viewOf s w) ∧ (∀ i, i ≠ st → streamAt t i = streamAt s i) ∧
      t = { s with streams := t.streams, views := t.views }) ∧
  (∀ (st : Nat) (x : Stream) (e : Entry) (s : State), Stands st x e s → InTurn x → e.op = 0x55 →
    (winOf s e.window).kind = 2 ∨ (winOf s e.window).kind = 3 → 0 < (viewOf s e.window).unanswered →
    ∃ t y, Machine.exec (.detach st) s = .next t ∧ streamAt t st = some y ∧ Launched s x y ∧
      viewOf t e.window = { viewOf s e.window with attached := false } ∧
      (∃ f ∈ y.inflight, f.idx = x.pos ∧ f.done = false ∧ f.waiting = 1) ∧
      (∀ w, w ≠ e.window → viewOf t w = viewOf s w) ∧ (∀ i, i ≠ st → streamAt t i = streamAt s i) ∧
      t = { s with streams := t.streams, views := t.views }) ∧
  (∀ (st : Nat) (x : Stream) (e : Entry) (s : State) (p : Nat), Stands st x e s → InTurn x → e.op = 0x55 →
    (winOf s e.window).kind = 2 ∨ (winOf s e.window).kind = 3 → (viewOf s e.window).unanswered = 0 →
    (winOf s e.window).ring < s.rings.length → routePort s (winOf s e.window).ring (winOwner s (winOf s e.window)) = some p →
    ∃ t y, Machine.exec (.detach st) s = .next t ∧ streamAt t st = some y ∧ Launched s x y ∧
      viewOf t e.window = { viewOf s e.window with attached := false } ∧
      (∃ m, (ringAt t (winOf s e.window).ring).sendq = (ringAt s (winOf s e.window).ring).sendq ++ [m] ∧ m.port = p ∧
        m.first.typ = 5 ∧ markerKind m.first = 0 ∧ m.entry = none) ∧
      (∃ f ∈ y.inflight, f.idx = x.pos ∧ f.done = true))

/-- MATMUL, not void, in any gang mode whose arrays the tile fits, with or without ACC_INIT, a row mask and block scales
(scale tensors beside the operands in the scratchpad), meeting no uncorrectable scratchpad word. Without drain: for every
product, live row and column the accumulator of the cell that Table 04-2 gives the packed row holds the result of running
every K-step of the row of DESC_A with the row of DESC_B, as the core's scratchpad holds them, from what it held, or from +0
and n = 0 under ACC_INIT, under the job's seed, the step, the tensor id and element number 16,384 b + 128 i + j; every other
accumulator but those of the entry's arrays and set stays, and the scratchpads stay. With drain: each live row of DESC_C gets
the codes of its descaled accumulators through the drain program, with the element of the side tensor (kind 2), the old value
added under DRAIN_ADD, and a saved copy in DESC_C + 1 (kind 1); each masked row zero codes unless KEEP_DEST or DRAIN_ADD;
every other scratchpad byte stays, each live element is counted under its tensor id, and the entry's set is at +0.
Model choices it rests on: log entries 41, 42, 43, 139. -/
def Obligations.MatmulAccumulatesRoundedSums : Prop :=
  ∀ (st : Nat) (ph : List Phys) (x : Stream) (e : Entry) (s : State) (a b : Desc) (core : Nat),
    Stands st x e s → InTurn x → e.op = 0x10 → slotVoid s x.slotNow = false → a = descOr s e.descA → b = descOr s e.descB →
    core = streamInst s x → GangFits s core e → ScalesBeside s core a → ScalesBeside s core b →
    (e.maskDesc ≠ noDesc → PlainSp (descOr s e.maskDesc)) → (∀ c o, Phys.spUncorrectable c o ∉ ph) →
    (e.drain = false →
      ∃ t y, Machine.exec (.matmul st ph) s = .next t ∧ streamAt t st = some y ∧ Launched s x y ∧
        (∀ q p i j, q < a.dim 2 → (liveIn s core e)[p]? = some i → j < b.dim 1 →
          cellGet noF32 t.acc (accKey core (accSet e) (cellOf e.gang q p j)) = sumIn s core e q p i j) ∧
        (∀ k, (∀ r ∈ arraysOf e.gang (a.dim 2), k / 4096 ≠ setKey core r (accSet e)) →
          cellGet noF32 t.acc k = cellGet noF32 s.acc k) ∧
        t.sp = s.sp ∧ t.passes = s.passes ∧ t.stash = s.stash ∧ (∀ i, i ≠ st → streamAt t i = streamAt s i)) ∧
    (e.drain = true → ph = [] → PlainSp (descOr s e.descC) →
      (progKind e.drainProg = 1 ∨ progKind e.drainProg = 2 → PlainSp (descOr s (e.descC + 1))) →
      Disjoint (drainIn s core e).writes →
      ∃ t y, Machine.exec (.matmul st ph) s = .next t ∧ streamAt t st = some y ∧ Launched s x y ∧ Gives (drainIn s core e) s t ∧
        (∀ k, cellGet noF32 t.acc k =
          (if ∃ r ∈ arraysOf e.gang (a.dim 2), k / 4096 = setKey core r (accSet e) then 0 else cellGet noF32 s.acc k)) ∧
        t.passes = s.passes ∧ t.stash = s.stash ∧ (∀ i, i ≠ st → streamAt t i = streamAt s i))

/-- MATMUL whose segment's slot is void, without drain and without a mask, whatever the physical world does: it is launched as
voided, no K-step is fed or skipped (the arrays' counters of every core stay but for what the arbiters count), and every
accumulator stays, but for the entry's own arrays and set at +0 where it says ACC_INIT; the scratchpad stays.
Model choices it rests on: log entries 44, 45, 47. -/
def Obligations.VoidedMatmulFeedsNothing : Prop :=
  ∀ (st : Nat) (ph : List Phys) (x : Stream) (e : Entry) (s : State),
    Stands st x e s → InTurn x → e.op = 0x10 → slotVoid s x.slotNow = true → e.drain = false → e.maskDesc = noDesc →
    ∃ t y, Machine.exec (.matmul st ph) s = .next t ∧ streamAt t st = some y ∧ Launched s x y ∧
      (∃ f ∈ y.inflight, f.idx = x.pos ∧ f.voided = true ∧ f.done = true) ∧
      (∀ c, rget t (Reg.arrayFed c) = rget s (Reg.arrayFed c) ∧ rget t (Reg.arraySkipped c) = rget s (Reg.arraySkipped c)) ∧
      (e.accInit = false → t.acc = s.acc ∧ t.ksteps = s.ksteps) ∧
      (e.accInit = true → ∀ k, cellGet noF32 t.acc k =
        (if ∃ p ∈ arraysOf e.gang (descOr s e.descA |>.dim 2), k / 4096 = setKey (streamInst s x) p (accSet e) then 0
         else cellGet noF32 s.acc k)) ∧
      t.sp = s.sp ∧ t.stash = s.stash ∧ t.census.counts = s.census.counts

/-- COPY between two plain tensors of the same shape in the same format of whole bytes without block scales (and, for a scaled
format, under the same scale), not void, with nothing that the physical world adds. Each of the two lies in a scratchpad, in
HBM or in an open owned window that admits the access; HBM lines read are of raw regions, or clean lines of classes 0 and 1;
HBM rows written are whole lines. Afterwards each destination row holds the bytes that the source row held before, and every
other byte of the scratchpads and HBM, host memory, accumulators, passes and other streams stay; the mover counts the bytes
modulo 2^48; of the registers only the mover's counters, the scratchpad power states and the nonfinite bits of the census gate
change. With a scratchpad source and a destination in a remote window every row of at most 15,360 bytes leaves as one WRITE
transfer with its bytes and its offset in the window, in order, the memories stay, and the entry waits for the answers.
Model choices it rests on: log entries 60, 70. -/
def Obligations.CopyMovesBytes : Prop :=
  ∀ (st : Nat) (x : Stream) (e : Entry) (s : State) (a d : Desc) (own : Nat),
    Stands st x e s → InTurn x → e.op = 0x30 → x.kind = 2 → slotVoid s x.slotNow = false → a = descOr s e.descA →
    d = descOr s e.descC → own = streamInst s x → a.layout = 0 → d.layout = 0 → isMx a.fmt = false →
    codesKept a d = true → sameShape a d = true → widthOf a.fmt % 8 = 0 →
    (ClocksRun s → ReadsHome s own a → WritesHome s own d →
      ∃ t y, Machine.exec (.copy st []) s = .next t ∧ streamAt t st = some y ∧ Launched s x y ∧
        (∀ i, i < d.rows → memRead (placeMem d t) (rowAddr s own d i) d.rowBytes = bytesIn s own a i) ∧
        (∀ k, d.place ≠ 1 ∨ (∀ i, i < d.rows → k < rowAddr s own d i ∨ rowAddr s own d i + d.rowBytes ≤ k) →
          memGet t.sp k = memGet s.sp k) ∧
        (∀ k, d.place = 1 ∨ (∀ i, i < d.rows → k < rowAddr s own d i ∨ rowAddr s own d i + d.rowBytes ≤ k) →
          memGet t.hbm k = memGet s.hbm k) ∧ (d.place = 1 → t.chk = s.chk) ∧
        getF t (Reg.movRead own) 47 0 = (getF s (Reg.movRead own) 47 0 + a.rows * a.rowBytes) % 2 ^ 48 ∧
        getF t (Reg.movWritten own) 47 0 = (getF s (Reg.movWritten own) 47 0 + d.rows * d.rowBytes) % 2 ^ 48 ∧
        RegsBut (spPowers ++ [Reg.movRead own, Reg.movWritten own, Reg.movTiles own, Reg.movMembers own] ++
          (List.range 4).map Reg.rclGate) s t ∧
        t.host = s.host ∧ t.acc = s.acc ∧ t.passes = s.passes ∧ t.stash = s.stash ∧ t.rings = s.rings ∧ t.out = s.out ∧
        (∀ i, i ≠ st → streamAt t i = streamAt s i)) ∧
    (a.place = 1 → d.place = 2 → 2 ≤ (winOf s d.unit).kind → (winOf s d.unit).ring < s.rings.length →
      (viewOf s d.unit).isOpen = true → (routePort s (winOf s d.unit).ring (winOwner s (winOf s d.unit))).isSome = true →
      0 < d.rowBytes → d.rowBytes ≤ 15360 →
      ∃ t y l, Machine.exec (.copy st []) s = .next t ∧ streamAt t st = some y ∧ Launched s x y ∧
        (ringAt t (winOf s d.unit).ring).sendq = (ringAt s (winOf s d.unit).ring).sendq ++ l ∧ l.length = d.rows ∧
        (∀ i m, l[i]? = some m → m.data = pad16 (bytesIn s own a i) ∧ m.first.typ = 2 ∧ leAt m.first.payload 6 1 = 0 ∧
          leAt m.first.payload 8 2 = (winOf s d.unit).target % 2 ^ 16 ∧ leAt m.first.payload 0x18 8 = d.rowOff i % 2 ^ 64) ∧
        (∃ f ∈ y.inflight, f.idx = x.pos ∧ f.waiting = d.rows) ∧
        (viewOf t d.unit).unanswered = (viewOf s d.unit).unanswered + d.rows ∧
        t.sp = s.sp ∧ t.hbm = s.hbm ∧ t.chk = s.chk ∧ t.host = s.host ∧ t.acc = s.acc ∧ t.passes = s.passes)

/-- VECTOR, COPY, TRANSPOSE (not in place), PERMUTE, GATHER, DECOMPRESS, COMBINE without RETURN, UNPACK, IDS, IDS_PADDED and
LENMASK that are GROUP_TAGGED in a void slot, with a plain scratchpad destination, whatever the physical world does: every byte
of every row of the destination reads 0x00 afterwards, and nothing is reported to the census.
Model choices it rests on: log entry 47. -/
def Obligations.VoidedTaggedEntriesWriteZeros : Prop :=
  ∀ (st : Nat) (ph : List Phys) (x : Stream) (e : Entry) (s : State) (d : Desc),
    Stands st x e s → InTurn x → ClocksRun s → e.tagged = true → slotVoid s x.slotNow = true → d = descOr s e.descC → PlainSp d →
    ∀ p ∈ dataEntries st ph, p.2 e = true →
      e.op ∈ [0x20, 0x30, 0x31, 0x32, 0x40, 0x45, 0x47] ∨ (e.op = 0x49 ∧ e.subop % 8 ≠ 0) →
      (e.op = 0x31 → e.inPlace = false) →
      ∃ t, Machine.exec p.1 s = .next t ∧ t.census = s.census ∧
        ∀ i k core, i < d.rows → k < d.rowBytes →
          core = (if d.unit = 0xFFF then streamInst s x else (physOf s .core d.unit).getD 0) →
          memGet t.sp (core * 524288 + d.rowOff i + k) = 0

/-- STASH_WRITE of a tensor that is not in a window, not in a void slot, removes the record of its slot tag; where the blocks for its bytes can be placed, in order at
the first levels that qualify, it adds a record with the tag, the step's next record number, the byte count and those blocks; where not, it adds an exhausted
record without blocks and sets STASH_EXHAUSTED. In a void slot it changes no record. STASH_READ changes no record until it
completes. No other entry's record, no accumulator and no hall pass changes.
The data, with nothing that the physical world adds: of a plain scratchpad source whose blocks lie at the local level each line
of the record holds the source's bytes and the check bytes with the step's, the slot's and the line's tags, and no other HBM byte
changes. STASH_READ in turn of such lines puts their bytes in the rows of a plain scratchpad DESC_C; with no record it puts +0
there and raises STALE_READ in its own entry, and with an exhausted record or in a void slot it puts +0 there and raises nothing.
Model choices it rests on: log entry 58. -/
def Obligations.StashEntriesKeepDirectory : Prop :=
  (∀ (st : Nat) (ph : List Phys) (x : Stream) (e : Entry) (s : State), Stands st x e s → InTurn x → ClocksRun s →
    e.op = 0x34 → slotVoid s x.slotNow = false → (descOr s e.descA).place ≠ 2 →
    ∃ t y, Machine.exec (.stashWrite st ph) s = .next t ∧ streamAt t st = some y ∧ Launched s x y ∧
      (∀ n kept, n = stashSize (descOr s e.descA) →
        kept = s.stash.filter (fun r => r.tag != slotTag e x.slotNow) →
        (∀ bs, recordsHeld { s with stash := kept } < 16384 →
          (placeBlocks s (ceilDiv n 65536) (blocksUsed { s with stash := kept }) [] false).1 = some bs →
          t.stash = kept ++ [{ id := s.step.stashMade, tag := slotTag e x.slotNow, bytes := n,
                                exhausted := false, blocks := bs }]) ∧
        ((recordsHeld { s with stash := kept } < 16384 →
            (placeBlocks s (ceilDiv n 65536) (blocksUsed { s with stash := kept }) [] false).1 = none) →
          t.stash = kept ++ [{ id := s.step.stashMade, tag := slotTag e x.slotNow, bytes := n,
                                exhausted := true, blocks := [] }] ∧
          getB t Reg.stashStatus 62 = true)) ∧
      t.acc = s.acc ∧ t.passes = s.passes) ∧
  (∀ (st : Nat) (ph : List Phys) (x : Stream) (e : Entry) (s : State), Stands st x e s → e.op = 0x34 →
    slotVoid s x.slotNow = true →
    ∃ t y, Machine.exec (.stashWrite st ph) s = .next t ∧ streamAt t st = some y ∧ Launched s x y ∧ t.stash = s.stash) ∧
  (∀ (st : Nat) (ph : List Phys) (x : Stream) (e : Entry) (s : State), Stands st x e s → e.op = 0x35 →
    ∃ t y, Machine.exec (.stashRead st ph) s = .next t ∧ streamAt t st = some y ∧ Launched s x y ∧ t.stash = s.stash ∧
      t.acc = s.acc ∧ t.passes = s.passes) ∧
  (∀ (st : Nat) (x : Stream) (e : Entry) (s : State) (a : Desc) (kept : List StashRec) (bs : List (Nat × Nat)) (src : List Byte),
    Stands st x e s → InTurn x → ClocksRun s → e.op = 0x34 → slotVoid s x.slotNow = false → a = descOr s e.descA → PlainSp a →
    src = allBytes s (streamInst s x) a → kept = s.stash.filter (fun r => r.tag != slotTag e x.slotNow) →
    recordsHeld { s with stash := kept } < 16384 →
    (placeBlocks s (ceilDiv (stashSize a) 65536) (blocksUsed { s with stash := kept }) [] false).1 = some bs →
    AtHome s bs (ceilDiv src.length 64) →
    ∃ t, Machine.exec (.stashWrite st []) s = .next t ∧
      (∀ i, i < ceilDiv src.length 64 → memRead t.hbm (lineAt s bs i) 64 = recordLine src i ∧
        memRead t.chk (lineAt s bs i / 8) 8 =
          actCheck (recordLine src i) (stashTags s e x.slotNow).1 (stashTags s e x.slotNow).2 i) ∧
      (∀ k, (∀ i, i < ceilDiv src.length 64 → k < lineAt s bs i ∨ lineAt s bs i + 64 ≤ k) →
        memGet t.hbm k = memGet s.hbm k) ∧ t.sp = s.sp ∧ t.host = s.host) ∧
  (∀ (st : Nat) (x : Stream) (e : Entry) (s : State) (d : Desc) (z : StashRec) (bs : List Byte),
    Stands st x e s → InTurn x → ClocksRun s → e.op = 0x35 → slotVoid s x.slotNow = false → d = descOr s e.descC → PlainSp d →
    s.stash.find? (fun r => r.tag == slotTag e x.slotNow) = some z → z.exhausted = false →
    AtHome s z.blocks (ceilDiv (stashSize d) 64) →
    (∀ i, i < ceilDiv (stashSize d) 64 → memRead s.chk (lineAt s z.blocks i / 8) 8 =
      actCheck (memRead s.hbm (lineAt s z.blocks i) 64) (stashTags s e x.slotNow).1 (stashTags s e x.slotNow).2 i) →
    bs = ((List.range (ceilDiv (stashSize d) 64)).map fun i => memRead s.hbm (lineAt s z.blocks i) 64).flatten →
    Disjoint (recordWrites (coreIn s (streamInst s x) d) d bs) →
    ∃ t y, Machine.exec (.stashRead st []) s = .next t ∧ streamAt t st = some y ∧ Launched s x y ∧
      (∃ f ∈ y.inflight, f.idx = x.pos ∧ f.ran = true ∧ f.raised = []) ∧
      Puts (recordWrites (coreIn s (streamInst s x) d) d bs) s t ∧ t.hbm = s.hbm ∧ t.chk = s.chk ∧ t.host = s.host) ∧
  (∀ (st : Nat) (x : Stream) (e : Entry) (s : State) (d : Desc), Stands st x e s → InTurn x → e.op = 0x35 →
    d = descOr s e.descC → PlainSp d →
    slotVoid s x.slotNow = true ∨ s.stash.find? (fun r => r.tag == slotTag e x.slotNow) = none ∨
      (∃ z, s.stash.find? (fun r => r.tag == slotTag e x.slotNow) = some z ∧ z.exhausted = true) →
    ∃ t y, Machine.exec (.stashRead st []) s = .next t ∧ streamAt t st = some y ∧ Launched s x y ∧
      Puts (recordWrites (coreIn s (streamInst s x) d) d (List.replicate (stashSize d) 0)) s t ∧ t.hbm = s.hbm ∧ t.host = s.host ∧
      ∃ f ∈ y.inflight, f.idx = x.pos ∧ f.ran = true ∧
        (if slotVoid s x.slotNow = false ∧ s.stash.find? (fun r => r.tag == slotTag e x.slotNow) = none then
          f.raised.map (·.code) = [0x0B01] else f.raised = []))

/-- With every descriptor of the job in scratchpads, plain and without block scales, and with nothing that the physical world
adds: COPY, TRANSPOSE not in place and PERMUTE (with rows of equal length where dimension 0 stays), an element-wise VECTOR
program of kind 0, 2 or a sum or product over tensors of equal shape, GATHER of whole rows by as many indices as the
destination has rows, and SCATTER_ADD leave every scratchpad byte outside the rows of DESC_C, all of HBM and host memory, every
accumulator, stash record, ring, hall pass and output as they were. Of the registers only the unit's counters, the scratchpad
power states, the mixed slots and the nonfinite bits of the census gate change.
In turn and not void, with their operands plain scratchpad tensors without block scales and the rows that they write apart:
VECTOR (every program), OPTIM, COPY, TRANSPOSE, PERMUTE, FILL, GATHER and SCATTER_ADD leave in each row that they write the
codes that their rules give from the operands as the scratchpads held them, leave every other scratchpad byte, merge the counts
of what they wrote into those of its tensor id, and set the step's nonfinite flag exactly when a nonfinite element was counted
(resultOf says the rows and the counts of each opcode).
Model choices it rests on: log entries 25, 61, 141, 145. -/
def Obligations.EntriesWriteOnlyTheirDestination : Prop :=
  (∀ (st : Nat) (x : Stream) (e : Entry) (s : State), Stands st x e s → InTurn x → slotVoid s x.slotNow = false →
    e.op ∈ [0x20, 0x21, 0x30, 0x31, 0x32, 0x33, 0x40, 0x41] → (∀ d ∈ operandsOf s e, PlainSp d) →
    Disjoint (resultOf s (ctxOf s st x x.pos e x.slotNow false [])).writes →
    ∀ p ∈ dataEntries st [], p.2 e = true →
      ∃ t y, Machine.exec p.1 s = .next t ∧ streamAt t st = some y ∧
        (∃ f ∈ y.inflight, f.idx = x.pos ∧ f.ran = true ∧ f.done = true) ∧
        Gives (resultOf s (ctxOf s st x x.pos e x.slotNow false [])) s t) ∧
  ∀ (st : Nat) (x : Stream) (e : Entry) (s : State) (a b d : Desc) (core : Nat),
    Stands st x e s → (∀ p ∈ s.job.descs, PlainSp p.2) → (descAt s e.descA).isSome → (descAt s e.descC).isSome →
    a = descOr s e.descA → b = descOr s e.descB → d = descOr s e.descC →
    core = (if d.unit = 0xFFF then streamInst s x else (physOf s .core d.unit).getD 0) →
    ∀ p ∈ dataEntries st [], p.2 e = true →
      (e.op ∈ [0x30, 0x32] ∧ a.dim 0 = d.dim 0 ∨ e.op = 0x31 ∧ e.inPlace = false ∨
        e.op = 0x20 ∧ (descAt s e.descB).isSome ∧ (progKind e.prog = 0 ∨ progKind e.prog = 2 ∨ e.prog = 0xC0 ∨ e.prog = 0xC1) ∧
          a.dim 0 = d.dim 0 ∧ a.rows = d.rows ∨
        e.op = 0x40 ∧ (descAt s e.descB).isSome ∧ a.dim 0 = d.dim 0 ∧ b.dim 0 * b.rows = d.rows ∨
        e.op = 0x41 ∧ (descAt s e.descB).isSome) →
      ∃ t, Machine.exec p.1 s = .next t ∧ (∀ k, ¬ InRows core d k → memGet t.sp k = memGet s.sp k) ∧
        t.hbm = s.hbm ∧ t.chk = s.chk ∧ t.host = s.host ∧ t.acc = s.acc ∧ t.stash = s.stash ∧ t.rings = s.rings ∧
        t.passes = s.passes ∧ t.out = s.out ∧ t.job = s.job ∧
        RegsBut (spPowers ++ [Reg.slotMixed] ++ (List.range 4).map Reg.rclGate ++
          [Reg.movRead x.unit, Reg.movWritten x.unit, Reg.movTiles x.unit, Reg.movMembers x.unit,
           Reg.movRead (streamInst s x), Reg.movWritten (streamInst s x), Reg.movTiles (streamInst s x),
           Reg.movMembers (streamInst s x), Reg.indexStatus (streamInst s x), Reg.indexAbsent (streamInst s x),
           Reg.indexOob (streamInst s x), Reg.spPower (streamInst s x), Reg.fetches (streamInst s x), Reg.fetchesMerged (streamInst s x)]) s t

/-- GATE_DECISION in a step whose set phase is over, not yet decided, with every stream at UPDATE_BEGIN or STEP_END and every
ring on which an entry carries the gate done: the flags are those of the last gate word, or the device's own where no ring
carries the gate; the gate is open exactly when both are clear; pass 0x7F01 is posted; RCL_GATE of each of the four instances
shows the decision, whether the gate is open, both flags and the step, and its GATE interrupt bit is set. Streams, passes,
scratchpads and HBM stay. While a stream has not reached the gate nothing changes.
Model choices it rests on: log entries 24, 33. -/
def Obligations.GateDecisionFollowsFlags : Prop :=
  (∀ s : State, stepRuns s = true → s.step.setOpen = true → s.step.decided = false → (∀ x ∈ s.streams, atGate x = true) →
    (∀ r ∈ gateRings s, r ∈ s.step.gateDone) →
    ∃ t, Machine.exec .gateDecision s = .next t ∧ t.step.decided = true ∧
      t.step.gateOpen = (!((gateFlags s).1 || (gateFlags s).2)) ∧ t.step.gateWord = some (gateFlags s) ∧
      0x7F01 ∈ t.step.sysPasses ∧
      (∀ d, d < 4 → getB t (Reg.rclGate d) 63 = true ∧ getB t (Reg.rclGate d) 62 = t.step.gateOpen ∧
        getB t (Reg.rclGate d) 61 = (gateFlags s).1 ∧ getB t (Reg.rclGate d) 60 = (gateFlags s).2 ∧
        getF t (Reg.rclGate d) 31 0 = stepNo s % 2 ^ 32 ∧ getB t (Reg.intStatus .rcl d) 9 = true) ∧
      RegsBut ((List.range 4).map Reg.rclGate ++ (List.range 4).map (Reg.intStatus .rcl)) s t ∧
      t = { s with step := t.step, regs := t.regs, out := t.out }) ∧
  (∀ (s : State) (x : Stream), x ∈ s.streams → atGate x = false → Machine.exec .gateDecision s = .next s)

/-- BELL_START in a decided step with every stream at STEP_END, nothing in flight, and no step traffic to send on a port whose
link is up, or retrains and keeps what it held, whose crossing has room and whose peer in the ring role has sent STEP_READY of
the step: every such port gets its Bell marker behind the flits that it already has, a crossing
whose clock is stopped raises its wake request, every other port stays, and the Bell
counts as sent. While some such port still sends, or its peer is not ready, nothing changes. BELL_DRAIN with every marker received and every port quiet: accumulators, scratchpads, hall passes and waiters
are empty, every bank pair that was ON or retained is ON and one that was OFF stays OFF, the step's census counts are the snapshot and count anew from none, and the scale records
are those that the Bell's update gives. Streams, HBM, stash and cards stay. A port that takes part stays as it was, and no flit and no
used credit of the step is left in any port.
Model choices it rests on: log entries 35, 120. -/
def Obligations.BellDrainsTheStep : Prop :=
  (∀ s : State, stepRuns s = true → s.step.decided = true → (∀ x ∈ s.streams, x.atEnd = true ∧ x.inflight = []) →
    (∀ p, p < 6 → bellPort s p = true → portSends s p = false ∧ crossingRoom (port s p) 1 = true ∧ peerReady s p = true) →
    s.ports.length = 6 →
    ∃ t, Machine.exec .bellStart s = .next t ∧ t.step = { s.step with bell := .markersSent } ∧
      (∀ p, p < 6 → bellPort s p = true → (port t p).txq = (port s p).txq ++ [bellFlit s p] ∧
        (port t p).rxq = (port s p).rxq ∧ ((crossingAt s .nlp p).clockOn = false → (crossingAt t .nlp p).wake = true)) ∧
      (∀ p, p < 6 → bellPort s p = false → port t p = port s p ∧ crossingAt t .nlp p = crossingAt s .nlp p) ∧
      t = { s with step := t.step, ports := t.ports, crossings := t.crossings }) ∧
  (∀ (s : State) (p : Nat), p < 6 → bellPort s p = true → portSends s p = true ∨ peerReady s p = false →
    Machine.exec .bellStart s = .next s) ∧
  (∀ s : State, s.step.active = true → s.step.bell = .markersSent → markersMissing s = [] →
    (∀ p, p < 6 → portQuiet s p = true) → s.ports.length = 6 →
    ∃ t, Machine.exec .bellDrain s = .next t ∧ t.step.bell = .drained ∧ t.step.active = true ∧ t.acc = [] ∧ t.ksteps = [] ∧
      t.sp = [] ∧ t.spFix = [] ∧ t.passes = [] ∧ t.waiters = [] ∧ t.step.sysPasses = [] ∧
      (∀ c k, c < 136 → k < 8 → getF t (Reg.spPower c) (2 * k + 33) (2 * k + 32) =
        (if getF s (Reg.spPower c) (2 * k + 33) (2 * k + 32) ≤ 1 then 0 else 2)) ∧ t.census.snap = s.census.counts ∧ t.census.counts = [] ∧
      t.census.snapTotals = s.census.totals ∧ t.census.scale = (censusBell s.census).scale ∧ t.streams = s.streams ∧
      t.hbm = s.hbm ∧ t.stash = s.stash ∧ t.cards = s.cards ∧
      ∀ p, p < 6 → portClean t p = true ∧ (bellPort s p = true ∨ portClean s p = true → port t p = port s p))

/-- BELL_DRAIN_COMPLETE once the Bell has drained, with no halt asked for: ELAPSED shows the given time; GLB_UPDATE_COUNT is one
more after an open gate and stays after a closed one; a card with an annex is queued behind the others, with the step's number
and slot and the status that the gate gives (0 committed, 1 nonfinite, 2 tainted); no step runs; every stream stands at its
first entry, the stash is empty, no slot is void or mixed; RCL_CFG of instance 0 and the stash configuration take force; STATE
and HBM stay. With a halt asked for STATE becomes HALTED and no halt is asked for any more.
Model choices it rests on: log entries 36, 37. -/
def Obligations.BellDrainCompleteEndsStep : Prop :=
  (∀ (us : Nat) (s : State), s.step.active = true → s.step.bell = .drained → s.job.haltWanted = false →
    ∃ t, Machine.exec (.bellDrainComplete us) s = .next t ∧ getF t Reg.watchdog 63 32 = us % 2 ^ 32 ∧
      rget t Reg.updateCount = (if s.step.gateOpen then rget s Reg.updateCount + 1 else rget s Reg.updateCount) ∧
      (∃ c : Card, t.cards = s.cards ++ [c] ∧ c.annex.isSome = true ∧ c.frees = false ∧
        leAt c.body 0 4 = stepNo s % 2 ^ 32 ∧ leAt c.body 4 1 = bellStatus s ∧ leAt c.body 5 1 = s.step.ws.slot % 256) ∧
      t.step.active = false ∧ t.streams = s.streams.map restStream ∧ t.stash = [] ∧ rget t Reg.slotVoid = 0 ∧
      rget t Reg.slotMixed = 0 ∧ t.census.cfg = rget s (Reg.rclCfg 0) ∧ t.job.stashCfg = rget s Reg.stashCfg ∧
      t.job.stashQuota = rget s Reg.stashQuota ∧ jobState t = jobState s ∧ t.hbm = s.hbm ∧ t.sp = s.sp ∧ t.host = s.host ∧
      t.slot = s.slot) ∧
  (∀ (us : Nat) (s : State), s.step.active = true → s.step.bell = .drained → s.job.haltWanted = true →
    ∃ t, Machine.exec (.bellDrainComplete us) s = .next t ∧ jobState t = 4 ∧ t.job.haltWanted = false ∧ t.next = none ∧
      t.step.active = false ∧ (∀ p, t.slot = some p → p.rejected = true) ∧ getB t (Reg.intStatus .glb 0) 8 = true)

/-- REPORT_CARD_WRITE with a card waiting takes the oldest card off and gives SEQ its next value, skipping 0; a card of a
rejected step frees the pending slot. With delivery enabled and both host ranges permitted, the 256 bytes at the card's slot
hold the body (with the ANNEX flag where it has an annex), SEQ and the CRC of what precedes, and vector 0 is raised behind the
writes. With delivery disabled no host byte changes, MISSED is set and counted, and the HIF interrupt bit of a missed card is
set. With no card waiting nothing changes.
Model choices it rests on: log entries 95, 117. -/
def Obligations.ReportCardsAreWritten : Prop :=
  (∀ (s : State) (c : Card) (rest : List Card), s.cards = c :: rest →
    ∃ t, Machine.exec .reportCardWrite s = .next t ∧ t.cards = rest ∧
      getF t Reg.cardSeq 31 0 = nextSeq (getF s Reg.cardSeq 31 0) ∧ (c.frees = true → t.slot = none) ∧
      t.streams = s.streams ∧ t.step = s.step ∧ t.hbm = s.hbm ∧ t.sp = s.sp ∧ t.passes = s.passes) ∧
  (∀ (s : State) (c : Card) (rest : List Card) (ax : List Byte) (k a b : Nat), s.cards = c :: rest →
    getB s Reg.cardCfg 63 = true → c.body.length = 248 → c.annex = some ax → ax.length = 4096 →
    k = nextSeq (getF s Reg.cardSeq 31 0) →
    hwtCheck s (getF s Reg.cardCfg 53 48) (getF s Reg.cardBase 31 0 * 4096 + k % 2 ^ getF s Reg.cardCfg 47 44 * 256) 256 true
      = some a →
    hwtCheck s (getF s Reg.cardCfg 53 48) (getF s Reg.cardBase 63 32 * 4096 + k % 2 ^ getF s Reg.cardCfg 47 44 * 4096) 4096
      true = some b →
    ∃ t, Machine.exec .reportCardWrite s = .next t ∧
      memRead t.host a 256 = withAnnexFlag c.body ++ leBytes 4 k ++ leBytes 4 (crc32 (withAnnexFlag c.body ++ leBytes 4 k)) ∧
      (a + 256 ≤ b ∨ b + 4096 ≤ a → memRead t.host b 4096 = ax) ∧
      (∀ i, (i < a ∨ a + 256 ≤ i) → (i < b ∨ b + 4096 ≤ i) → memGet t.host i = memGet s.host i) ∧
      ∃ l, t.out = s.out ++ l ++ [.msix 0]) ∧
  (∀ (s : State) (c : Card) (rest : List Card), s.cards = c :: rest → getB s Reg.cardCfg 63 = false →
    ∃ t, Machine.exec .reportCardWrite s = .next t ∧ t.host = s.host ∧ getB t Reg.cardSeq 63 = true ∧
      getF t Reg.cardSeq 47 32 = min (getF s Reg.cardSeq 47 32 + 1) 65535 ∧ getB t (Reg.intStatus .hif 0) 10 = true) ∧
  (∀ s : State, s.cards = [] → Machine.exec .reportCardWrite s = .next s)

/-- HIF_HWT_W0 and HIF_HWT_W1 of entry k below 64, by the host: W0 takes its defined fields unless the entry is valid while a
job is active, and a word with VALID is taken only where the size is not 0 and the range ends within 2^57 bytes; W1 takes its
field only while the entry is not valid; a write that is not taken changes nothing at all. A write by another master that
reaches the page is only counted as DENIED. HIF_CARD_CFG in IDLE, HALTED or REJECTED with a listed size takes window and size,
and is enabled exactly if the table permits both ranges, else its error bit is set; in any other STATE only its error bit can
be cleared.
Model choices it rests on: log entry 14. -/
def Obligations.HostTablesTakeWrites : Prop :=
  (∀ (k : Nat) (v : W64) (s : State), k < 64 → Reaches .host .hif 0 s →
    ((getB s (Reg.hwtW0 k) 63 && jobActive s) = false →
      (fld v 63 63 = 1 → 0 < hwtSize s k ∧ fld v 56 12 * 4096 + hwtSize s k ≤ 2 ^ 57) →
      ∃ t, Machine.exec (.hifHwtW0 .host k v) s = .next t ∧
        rget t (Reg.hwtW0 k) = v &&& (fieldMask 63 61 ||| fieldMask 56 12) ∧ RegsBut [Reg.hwtW0 k] s t ∧
        t = { s with regs := t.regs }) ∧
    ((getB s (Reg.hwtW0 k) 63 && jobActive s) = true ∨
        (fld v 63 63 = 1 ∧ ¬ (0 < hwtSize s k ∧ fld v 56 12 * 4096 + hwtSize s k ≤ 2 ^ 57)) →
      Machine.exec (.hifHwtW0 .host k v) s = .next s) ∧
    (getB s (Reg.hwtW0 k) 63 = false →
      ∃ t, Machine.exec (.hifHwtW1 .host k v) s = .next t ∧ rget t (Reg.hwtW1 k) = v &&& fieldMask 39 12 ∧
        RegsBut [Reg.hwtW1 k] s t ∧ t = { s with regs := t.regs }) ∧
    (getB s (Reg.hwtW0 k) 63 = true → Machine.exec (.hifHwtW1 .host k v) s = .next s)) ∧
  (∀ (m : Master) (k : Nat) (v : W64) (s : State), k < 64 → m ≠ .host → Reaches m .hif 0 s →
    ∀ c ∈ [Instr.hifHwtW0 m k v, .hifHwtW1 m k v],
      ∃ t, Machine.exec c s = .next t ∧ getB t Reg.bar0Status 62 = true ∧
        getF t Reg.bar0Status 31 16 = min (getF s Reg.bar0Status 31 16 + 1) 65535 ∧ RegsBut [Reg.bar0Status] s t ∧
        t = { s with regs := t.regs, out := s.out ++ [.alert 0x1402] }) ∧
  (∀ (m : Master) (v : W64) (s : State), Reaches m .hif 0 s → cardCfgOpen s = true → fld v 47 44 ≤ 12 →
    ∃ t, Machine.exec (.hifCardCfg m v) s = .next t ∧ getF t Reg.cardCfg 53 48 = fld v 53 48 ∧
      getF t Reg.cardCfg 47 44 = fld v 47 44 ∧
      (fld v 63 63 = 0 → getB t Reg.cardCfg 63 = false) ∧
      (fld v 63 63 = 1 → getB t Reg.cardCfg 63 =
        ((hwtCheck s (fld v 53 48) (getF s Reg.cardBase 31 0 * 4096) (2 ^ fld v 47 44 * 256) true).isSome &&
          (hwtCheck s (fld v 53 48) (getF s Reg.cardBase 63 32 * 4096) (2 ^ fld v 47 44 * 4096) true).isSome)) ∧
      (fld v 63 63 = 1 → getB t Reg.cardCfg 63 = false → getB t Reg.cardCfg 62 = true) ∧
      RegsBut [Reg.cardCfg] s t ∧ t = { s with regs := t.regs }) ∧
  (∀ (m : Master) (v : W64) (s : State), Reaches m .hif 0 s → cardCfgOpen s = false →
    ∃ t, Machine.exec (.hifCardCfg m v) s = .next t ∧
      getB t Reg.cardCfg 62 = (getB s Reg.cardCfg 62 && fld v 62 62 == 0) ∧
      getF t Reg.cardCfg 53 0 = getF s Reg.cardCfg 53 0 ∧ getB t Reg.cardCfg 63 = getB s Reg.cardCfg 63 ∧
      RegsBut [Reg.cardCfg] s t ∧ t = { s with regs := t.regs })

/-- APERTURE_READ of a range that lies in regions of classes 3, 4 and 5 returns the bytes that device memory holds and changes
nothing else, but that a crossing on the way whose clock is stopped is woken; of a range that lies in no region it returns zeros and counts one miss. APERTURE_WRITE of a range in ITK regions,
or in classes 3 and 4 with no job active, stores the bytes there and leaves every other byte and every register; a range that
lies in no region is dropped and counts one miss; a range in Locker regions is dropped and counts one denial. What the physical
world does to the crossings meanwhile is counted or raised as for any traffic without a group, and a request poisoned in the
PCIe crossing has no other effect. While an access waits, or the clock of a pseudo-channel that it reaches is stopped, an access
that is not poisoned only joins the waiting ones, last, and raises the wake requests on its way. An AtomicOp is
answered with Unsupported Request, and a poisoned write is dropped and reported; nothing else changes.
Model choices it rests on: log entries 49, 100, 134, 164. -/
def Obligations.ApertureReachesRegions : Prop :=
  (∀ (off len : Nat) (s : State), s.heldHost = [] → ¬ Stopped (pieces (apertureAddr s off) len) s →
    (∀ p ∈ pieces (apertureAddr s off) len, ∃ r, regionOf s p.1 = some r ∧ 3 ≤ r.cls ∧ r.cls ≤ 5) →
    ∃ t, Machine.exec (.apertureRead off len []) s = .next t ∧ OnlyWakes s t ∧
      t = { s with out := s.out ++ [.readBytes (memRead s.hbm (apertureAddr s off) len)], crossings := t.crossings }) ∧
  (∀ (off len : Nat) (ph : List Phys) (s : State), 0 < len → s.heldHost = [] → poisoned ph .hif 0 false = false →
    poisoned ph .hif 0 true = false → (∀ p ∈ pieces (apertureAddr s off) len, regionOf s p.1 = none) →
    ∃ t, Machine.exec (.apertureRead off len ph) s = .next (trafficPhys none ph t) ∧ getB t Reg.regionStatus 59 = true ∧
      RegsBut [Reg.regionStatus] s t ∧
      t = { s with regs := t.regs, out := s.out ++ [.readBytes (List.replicate len 0), .alert 0x0B08] }) ∧
  (∀ (off : Nat) (data : List Byte) (s : State), s.heldHost = [] → ¬ Stopped (pieces (apertureAddr s off) data.length) s →
    (∀ p ∈ pieces (apertureAddr s off) data.length, ∃ r, regionOf s p.1 = some r ∧ 3 ≤ r.cls ∧ r.cls ≤ 5 ∧
      (r.cls = 5 ∨ jobActive s = false)) →
    ∃ t, Machine.exec (.apertureWrite off data []) s = .next t ∧
      memRead t.hbm (apertureAddr s off) data.length = data ∧
      (∀ i, i < apertureAddr s off ∨ apertureAddr s off + data.length ≤ i → memGet t.hbm i = memGet s.hbm i) ∧
      OnlyWakes s t ∧ t = { s with hbm := t.hbm, chk := t.chk, crossings := t.crossings }) ∧
  (∀ (off : Nat) (data : List Byte) (ph : List Phys) (s : State), data ≠ [] → s.heldHost = [] → poisoned ph .hif 0 false = false →
    ((∀ p ∈ pieces (apertureAddr s off) data.length, regionOf s p.1 = none) →
      ∃ t, Machine.exec (.apertureWrite off data ph) s = .next (trafficPhys none ph t) ∧ getB t Reg.regionStatus 59 = true ∧
        RegsBut [Reg.regionStatus] s t ∧ t = { s with regs := t.regs, out := s.out ++ [.alert 0x0B08] }) ∧
    ((∀ p ∈ pieces (apertureAddr s off) data.length, ∃ r, regionOf s p.1 = some r ∧ r.cls = 6) →
      ∃ t, Machine.exec (.apertureWrite off data ph) s = .next (trafficPhys none ph t) ∧ getB t Reg.hifStatus 62 = true ∧
        getF t Reg.hifStatus 15 0 = min (getF s Reg.hifStatus 15 0 + 1) 65535 ∧ getB t (Reg.intStatus .hif 0) 9 = true ∧
        t.hbm = s.hbm ∧ t.chk = s.chk ∧ RegsBut [Reg.hifStatus, Reg.intStatus .hif 0] s t ∧
        t = { s with regs := t.regs, out := t.out })) ∧
  (∀ (off len : Nat) (data : List Byte) (ph : List Phys) (s : State), poisoned ph .hif 0 false = true →
    Machine.exec (.apertureRead off len ph) s = .next (trafficPhys none ph s) ∧
    Machine.exec (.apertureWrite off data ph) s = .next (trafficPhys none ph s)) ∧
  (∀ (off len : Nat) (data : List Byte) (ph : List Phys) (x : HostAccess) (c : Instr) (s : State),
    poisoned ph .hif 0 false = false → s.heldHost ≠ [] ∨ Stopped (x.reach s) s →
    c = .apertureRead off len ph ∧ x = { write := false, off := off, len := len, ph := ph } ∨
      c = .apertureWrite off data ph ∧ x = { write := true, off := off, data := data, ph := ph } →
    ∃ t, Machine.exec c s = .next t ∧ WakesFor (x.reach s) s t ∧
      t = { s with heldHost := s.heldHost ++ [x], crossings := t.crossings }) ∧
  (∀ (off bar : Nat) (s : State),
    Machine.exec (.atomicOp off) s = .next { s with out := s.out ++ [.unsupportedRequest] } ∧
    Machine.exec (.poisonedWrite bar off) s = .next { s with out := s.out ++ [.aer 1] })

/-- For an intake ring r below 16 and a write that reaches the ITK page. TAIL takes the written value; if more entries
than its size are now pending, the ring stops with reason 3, its transfers are dropped and its vector
raised; otherwise nothing else changes. EN written to a disabled ring takes window, offset and a listed size, and enabling
loads DONE with TAIL; EN written 0 to an enabled ring disables it and leaves its configuration and transfers. ERR written 1 to
an enabled ring that stays enabled and has no overrun clears ERR and its reason and leaves DONE and TAIL. No host byte and no
other ring changes.
Model choices it rests on: log entries 4, 109. -/
def Obligations.IntakeRingsAreControlled : Prop :=
  ∀ (m : Master) (r : Nat) (v : W64) (s : State), r < 16 → Reaches m .itk 0 s →
    ((fld v 31 0 + 2 ^ 32 - ringDone s r) % 2 ^ 32 ≤ 2 ^ ringLog s r →
      ∃ t, Machine.exec (.tail m r v) s = .next t ∧ ringTail t r = fld v 31 0 ∧ ringDone t r = ringDone s r ∧
        RegsBut [Reg.ringIdx r] s t ∧ t = { s with regs := t.regs }) ∧
    (2 ^ ringLog s r < (fld v 31 0 + 2 ^ 32 - ringDone s r) % 2 ^ 32 →
      ∃ t, Machine.exec (.tail m r v) s = .next t ∧ ringTail t r = fld v 31 0 ∧ ringErr t r = true ∧
        getF t (Reg.ringCfg r) 61 59 = 3 ∧ inTransfer t r = [] ∧ (∀ q, q ≠ r → inTransfer t q = inTransfer s q) ∧
        t.out = s.out ++ [.alert 0x0F03, .msix (16 + r)] ∧ RegsBut [Reg.ringIdx r, Reg.ringCfg r] s t ∧
        t = { s with regs := t.regs, intake := t.intake, out := t.out }) ∧
    (ringEn s r = false → fld v 62 62 = 0 → fld v 47 44 ≤ 12 →
      ∃ t, Machine.exec (.itkEn m r v) s = .next t ∧ ringEn t r = (fld v 63 63 == 1) ∧
        getF t (Reg.ringCfg r) 53 48 = fld v 53 48 ∧ getF t (Reg.ringCfg r) 47 44 = fld v 47 44 ∧
        getF t (Reg.ringCfg r) 43 12 = fld v 43 12 ∧ ringErr t r = ringErr s r ∧ ringTail t r = ringTail s r ∧
        ringDone t r = (if fld v 63 63 = 1 then ringTail s r else ringDone s r) ∧
        RegsBut [Reg.ringIdx r, Reg.ringCfg r] s t ∧ t = { s with regs := t.regs }) ∧
    (ringEn s r = true → fld v 63 63 = 0 → fld v 62 62 = 0 →
      ∃ t, Machine.exec (.itkEn m r v) s = .next t ∧ ringEn t r = false ∧
        getF t (Reg.ringCfg r) 62 0 = getF s (Reg.ringCfg r) 62 0 ∧ RegsBut [Reg.ringCfg r] s t ∧
        t = { s with regs := t.regs }) ∧
    (ringEn s r = true → fld v 63 63 = 1 → ringPending s r ≤ 2 ^ ringLog s r →
      ∃ t, Machine.exec (.itkErrClear m r v) s = .next t ∧ ringErr t r = false ∧ getF t (Reg.ringCfg r) 61 59 = 0 ∧
        ringEn t r = true ∧ ringDone t r = ringDone s r ∧ ringTail t r = ringTail s r ∧ RegsBut [Reg.ringCfg r] s t ∧
        t = { s with regs := t.regs })

/-- INTAKE_ENTRY_READ of an enabled ring that is not stopped, with fewer than 8 entries in transfer, all good, and one more
pending at a place that the window table permits: an entry that passes the checks of R345 joins the transfers with its place,
and nothing else changes; an entry in front that fails them stops the ring with reason 1, nothing of the ring left in transfer,
its vector raised; where the status word is permitted, host memory holds the entry's with STATUS 2 INVALID, else no host byte
changes.
INTAKE_ENTRY_COMPLETE with all entries in transfer good and the status word, at the place of the entry that ends, permitted:
the oldest leaves, DONE and TOTAL are
one more, an entry with INT raises the ring's vector; host memory holds the entry's status word with STATUS 1 COMPLETE and no
other host byte changes; where its region is ITK and its place and length are as R345 asks, the
sample's bytes and zeros up to the next 64-byte boundary lie in the region, and every other HBM byte stays. A next entry that had
failed its checks then stops the ring as above, with its STATUS 2. An erroneous completion stops the ring with reason 2, with
STATUS 3 DMA_ERROR in the entry and every other byte of host memory and HBM as before. COMPLETION_TIMEOUT of an intake read with
an entry in transfer reports AER and does the same; that of a stash
line reports AER; where no entry in flight has read its row group the line is noted, and nothing else changes; where one has, its
own event STALE_READ is raised, and the record's lines of that row group read 0x00 in a plain scratchpad destination.
Model choices it rests on: log entries 4, 109, 180. -/
def Obligations.IntakeDeliversSamples : Prop :=
  (∀ (r n : Nat) (raw : List Byte) (s : State), r < 16 → ringEn s r = true → ringErr s r = false →
    (inTransfer s r).length < 8 → (inTransfer s r).length < ringPending s r → (∀ e ∈ inTransfer s r, e.ok = true) →
    n = (ringDone s r + (inTransfer s r).length) % 2 ^ 32 →
    (hwtCheck s (getF s (Reg.ringCfg r) 53 48) (entryOff s r n) 32 false).isSome = true →
    (entryOk s n raw = true →
      ∃ t, Machine.exec (.intakeEntryRead r (.data raw)) s = .next t ∧
        inTransfer t r = inTransfer s r ++ [{ raw := raw, ok := true, win := getF s (Reg.ringCfg r) 53 48, off := entryOff s r n }] ∧
        (∀ q, q ≠ r → inTransfer t q = inTransfer s q) ∧ t = { s with intake := t.intake }) ∧
    (∀ (w : List Byte) (place : Option Nat), entryOk s n raw = false → inTransfer s r = [] → w = statusWord 2 raw →
      place = hwtCheck s (getF s (Reg.ringCfg r) 53 48) (entryOff s r n + 0x18) w.length true →
      ∃ t, Machine.exec (.intakeEntryRead r (.data raw)) s = .next t ∧ ringErr t r = true ∧
        getF t (Reg.ringCfg r) 61 59 = 1 ∧ inTransfer t r = [] ∧ .msix (16 + r) ∈ t.out.drop s.out.length ∧
        ringDone t r = ringDone s r ∧ t.hbm = s.hbm ∧ HostHas place w s t)) ∧
  (∀ (r : Nat) (bs : List Byte) (e : IntakeEntry) (rest : List IntakeEntry) (a : Nat) (s : State), r < 16 →
    inTransfer s r = e :: rest → ringErr s r = false → (∀ x ∈ rest, x.ok = true) →
    hwtCheck s e.win (e.off + 0x18) (statusWord 1 e.raw).length true = some a →
    ¬ Stopped (reach s (.intakeEntryComplete r (.data bs))) s →
    ∃ t, Machine.exec (.intakeEntryComplete r (.data bs)) s = .next t ∧ inTransfer t r = rest ∧
      ringDone t r = (ringDone s r + 1) % 2 ^ 32 ∧ getF t Reg.itkTotal 47 0 = (getF s Reg.itkTotal 47 0 + 1) % 2 ^ 48 ∧
      (ieField e.raw 0x16 2 % 2 = 1 → .msix (16 + r) ∈ t.out.drop s.out.length) ∧
      (∀ q, q ≠ r → inTransfer t q = inTransfer s q) ∧ HostHas (some a) (statusWord 1 e.raw) s t ∧
      (region? s (ieField e.raw 0x15 1) = none → t.hbm = s.hbm) ∧
      (∀ g, region? s (ieField e.raw 0x15 1) = some g → g.cls = 5 → ieField e.raw 8 8 % 64 = 0 →
        ieField e.raw 8 8 + bs.length ≤ g.size → bs.length ≤ ieField e.raw 0x10 4 →
        memRead t.hbm (g.base + ieField e.raw 8 8) (roundUp bs.length 64) =
          bs ++ List.replicate (roundUp bs.length 64 - bs.length) 0 ∧
        ∀ k, k < g.base + ieField e.raw 8 8 ∨ g.base + ieField e.raw 8 8 + roundUp bs.length 64 ≤ k →
          memGet t.hbm k = memGet s.hbm k)) ∧
  (∀ (r a : Nat) (bs : List Byte) (e e' : IntakeEntry) (rest : List IntakeEntry) (s : State), r < 16 →
    inTransfer s r = e :: e' :: rest → ringErr s r = false → e'.ok = false →
    (hwtCheck s e.win (e.off + 0x18) (statusWord 1 e.raw).length true).isSome = true →
    hwtCheck s e'.win (e'.off + 0x18) (statusWord 2 e'.raw).length true = some a →
    ¬ Stopped (reach s (.intakeEntryComplete r (.data bs))) s →
    ∃ t, Machine.exec (.intakeEntryComplete r (.data bs)) s = .next t ∧ ringErr t r = true ∧
      getF t (Reg.ringCfg r) 61 59 = 1 ∧ inTransfer t r = [] ∧ ringDone t r = (ringDone s r + 1) % 2 ^ 32 ∧
      memRead t.host a (statusWord 2 e'.raw).length = statusWord 2 e'.raw) ∧
  (∀ (r a : Nat) (e : IntakeEntry) (rest : List IntakeEntry) (c : Instr) (s : State), r < 16 →
    c = .intakeEntryComplete r .bad ∨ c = .completionTimeout (.intake r) → inTransfer s r = e :: rest → ringErr s r = false →
    hwtCheck s e.win (e.off + 0x18) (statusWord 3 e.raw).length true = some a →
    ∃ t, Machine.exec c s = .next t ∧ ringErr t r = true ∧ getF t (Reg.ringCfg r) 61 59 = 2 ∧
      inTransfer t r = [] ∧ ringDone t r = ringDone s r ∧ t.hbm = s.hbm ∧ HostHas (some a) (statusWord 3 e.raw) s t ∧
      (c = .completionTimeout (.intake r) → .aer 2 ∈ t.out)) ∧
  (∀ (l : Nat) (s s' : State), s' = { s with out := s.out ++ [.aer 2] } →
    ((∀ st f, f ∈ flightsOf s st → readsGroup l st s' f = false) →
      Machine.exec (.completionTimeout (.stash l)) s = .next { s' with stashTimeouts := l :: s.stashTimeouts }) ∧
    ∀ st f c z, f ∈ flightsOf s st → stashReader st s' f = some (c, z) → groupLines l s' f c z ≠ [] → s.step.active = true →
      ∃ t, Machine.exec (.completionTimeout (.stash l)) s = .next t ∧ t.stashTimeouts = s.stashTimeouts ∧ t.stash = s.stash ∧
        t.host = s.host ∧ .aer 2 ∈ t.out ∧ (∃ g ∈ flightsOf t st, g.idx = f.idx ∧ ∃ x ∈ g.raised, x.code = 0x0B01) ∧
        (PlainSp (descOr s c.e.descC) → ∀ row k, row < (descOr s c.e.descC).rows → k < (descOr s c.e.descC).rowBytes →
          (row * (descOr s c.e.descC).rowBytes + k) / 64 ∈ groupLines l s' f c z →
          memGet t.sp (coreIn s c.inst (descOr s c.e.descC) * 524288 + (descOr s c.e.descC).rowOff row + k) = 0))

/-- REGISTER_WRITE of 8 aligned bytes that reaches an instance: the interrupt status of any page loses exactly the defined bits
written 1 and nothing else of it changes; RNG_POS takes both its fields with no job active, and no register changes while one
is. RC_READ of 8 aligned bytes: GLB_BAR0_STATUS is returned with its counts, which then read 0 while its sticky bits stay; a
register without read-to-clear fields returns its view and nothing else changes, but that ELAPSED of a running step moves on,
never beyond LIMIT, and stands while UPDATE_BEGIN waits on pass 0x7F02. An access whose instance is not built is
dropped or returns 0 and counts as UNMAPPED, one of another size or alignment (outside the HIF page) as MALFORMED, and an access
to a page whose domain is off counts an off access; a write so counted changes nothing else. An aligned write to BAR2 outside
its windows changes nothing.
Model choices it rests on: log entries 14, 15, 132. -/
def Obligations.RegisterAccessesFollowCodes : Prop :=
  (∀ (m : Master) (t : Blk) (i : Nat) (v : W64) (s : State), Reaches m t i s →
    ∃ u, Machine.exec (.registerWrite m false (Reg.intStatus t i) 8 v) s = .next u ∧
      (∀ b, b < 64 → getB u (Reg.intStatus t i) b =
        (getB s (Reg.intStatus t i) b && !((intBits t).contains b && fld v b b == 1))) ∧
      RegsBut [Reg.intStatus t i] s u ∧ u = { s with regs := u.regs, out := u.out }) ∧
  (∀ (m : Master) (r : Nat) (v : W64) (s : State), Reaches m .rng r s →
    (jobActive s = false →
      ∃ u, Machine.exec (.registerWrite m false (Reg.rngPos r) 8 v) s = .next u ∧ getF u (Reg.rngPos r) 27 16 = fld v 27 16 ∧
        getF u (Reg.rngPos r) 11 0 = fld v 11 0 ∧ getF u (Reg.rngPos r) 15 12 = getF s (Reg.rngPos r) 15 12 ∧
        getF u (Reg.rngPos r) 63 28 = getF s (Reg.rngPos r) 63 28 ∧ RegsBut [Reg.rngPos r] s u ∧
        u = { s with regs := u.regs }) ∧
    (jobActive s = true → Machine.exec (.registerWrite m false (Reg.rngPos r) 8 v) s = .next s)) ∧
  (∀ (m : Master) (s : State), Reaches m .glb 0 s →
    ∃ u, Machine.exec (.rcRead m false Reg.bar0Status 8) s = .next u ∧ getF u Reg.bar0Status 47 0 = 0 ∧
      getF u Reg.bar0Status 63 48 = getF s Reg.bar0Status 63 48 ∧ RegsBut [Reg.bar0Status] s u ∧
      u = { s with regs := u.regs, out := s.out ++ [.read (rget s Reg.bar0Status)] }) ∧
  (∀ (m : Master) (t : Blk) (i off : Nat) (s : State), Reaches m t i s → off < 65536 → off % 8 = 0 →
    (∀ f ∈ regFields t off, f.acc ≠ .rc) → ¬ (t = .dbg ∧ off = 0x120) →
    ¬ (t = .glb ∧ off = 0x228 ∧ s.step.active = true) →
    Machine.exec (.rcRead m false (blkCode t * 0x2000000 + i * 0x10000 + off) 8) s =
      .next { s with out := s.out ++ [.read (regView s t i off)] }) ∧
  (∀ (m : Master) (s : State), Reaches m .glb 0 s → s.step.active = true →
    ∃ u, Machine.exec (.rcRead m false Reg.watchdog 8) s = .next u ∧ u.out = s.out ++ [.read (rget u Reg.watchdog)] ∧
      getF u Reg.watchdog 31 0 = getF s Reg.watchdog 31 0 ∧ getF s Reg.watchdog 63 32 ≤ getF u Reg.watchdog 63 32 ∧
      (getF s Reg.watchdog 63 32 ≤ getF s Reg.watchdog 31 0 → getF u Reg.watchdog 63 32 ≤ getF s Reg.watchdog 31 0) ∧
      (updateHeld s = true → s.step.elapsedHeld = true → rget u Reg.watchdog = rget s Reg.watchdog) ∧
      RegsBut [Reg.watchdog] s u ∧
      u = { s with regs := u.regs, out := u.out, free := u.free,
                   step := { s.step with elapsedHeld := u.step.elapsedHeld } }) ∧
  (∀ (m : Master) (addr : Nat) (v : W64) (s : State), refusedMaster s m = false → addr % 8 = 0 → regInst addr < 0x1F0 →
    built (regType addr) ≤ regInst addr →
    ∃ u w, Machine.exec (.registerWrite m false addr 8 v) s = .next u ∧ Machine.exec (.rcRead m false addr 8) s = .next w ∧
      getF u Reg.bar0Status 15 0 = min (getF s Reg.bar0Status 15 0 + 1) 65535 ∧ getB u Reg.bar0Status 61 = true ∧
      RegsBut [Reg.bar0Status] s u ∧ u = { s with regs := u.regs, out := s.out ++ [.alert 0x1403] } ∧
      w = { u with out := u.out ++ [.read 0] }) ∧
  (∀ (m : Master) (addr size : Nat) (v : W64) (s : State), refusedMaster s m = false → accessOk addr size = false →
    ∃ u w, Machine.exec (.registerWrite m false addr size v) s = .next u ∧
      Machine.exec (.rcRead m false addr size) s = .next w ∧
      getF u Reg.bar0Status 47 32 = min (getF s Reg.bar0Status 47 32 + 1) 65535 ∧ getB u Reg.bar0Status 63 = true ∧
      RegsBut [Reg.bar0Status] s u ∧ u = { s with regs := u.regs, out := s.out ++ [.alert 0x1403] } ∧
      w = { u with out := u.out ++ [.read 0] }) ∧
  (∀ (m : Master) (t : Blk) (i off : Nat) (v : W64) (s : State), refusedMaster s m = false → i < built t →
    domainOff s t = true → off < 65536 → off % 8 = 0 →
    ∃ u, Machine.exec (.registerWrite m false (blkCode t * 0x2000000 + i * 0x10000 + off) 8 v) s = .next u ∧
      getF u Reg.pwrStatus 15 0 = min (getF s Reg.pwrStatus 15 0 + 1) 65535 ∧ RegsBut [Reg.pwrStatus] s u ∧
      u = { s with regs := u.regs }) ∧
  (∀ (m : Master) (addr size : Nat) (v : W64) (s : State), refusedMaster s m = false → inWindow addr = false →
    Machine.exec (.registerWrite m true addr size v) s = .next s)

/-- BLK_LOCK sets the lock bit of a GLB, MBX or DBG page when written 1 and never clears it. ENABLE by a management core with no
job active turns an instance of a type without a core's scratchpad on or off, a lost one staying off; while a job is active it
changes nothing; by another master a change is counted as DENIED and the instance keeps its enable. DRAIN notes the drain, of a
port with the packets that its crossing now holds, of a ring engine with its queued transfers, of every instance with what is in
progress there, and clears DRAINED; DRAINED, once the instance is drained, sets it and ends the drain. MBX_BIND by a management core takes the
three fields of a binding that is allowed (one written valid empties its channel and clears the channel's status and log), and by
another master only counts as DENIED. An alias write of RCL_TENSOR_SEL reaches
exactly the members, and an alias read returns the bitwise or of its members' views and changes nothing.
Model choices it rests on: log entries 93, 110. -/
def Obligations.PageControlsTakeEffect : Prop :=
  (∀ (m : Master) (t : Blk) (i : Nat) (v : W64) (s : State), Reaches m t i s →
    ∃ u, Machine.exec (.blkLock m t i v) s = .next u ∧
      getB u (Reg.lock t i) 0 =
        (getB s (Reg.lock t i) 0 || ((t == .glb || t == .mbx || t == .dbg) && fld v 0 0 == 1)) ∧
      RegsBut [Reg.lock t i] s u ∧ u = { s with regs := u.regs }) ∧
  (∀ (m : Master) (t : Blk) (i : Nat) (v : W64) (s : State), Reaches m t i s → isMgt m = true → fld v 62 62 = 0 →
    t ∈ [Blk.jnc, .mov, .hbc, .rng, .hpb] →
    (jobActive s = false →
      ∃ u, Machine.exec (.enable m t i v) s = .next u ∧
        getB u (Reg.blkCtrl t i) 63 =
          (fld v 63 63 == 1 && (getB s (Reg.blkCtrl t i) 63 || !getB s (Reg.blkStatus t i) 63)) ∧
        RegsBut [Reg.blkCtrl t i] s u ∧ u = { s with regs := u.regs }) ∧
    (jobActive s = true → Machine.exec (.enable m t i v) s = .next s)) ∧
  (∀ (m : Master) (t : Blk) (i : Nat) (v : W64) (s : State), Reaches m t i s → isMgt m = false → fld v 62 62 = 0 →
    t ∈ [Blk.mov, .hbc, .rng] → fld v 63 63 ≠ getF s (Reg.blkCtrl t i) 63 63 →
    ∃ u, Machine.exec (.enable m t i v) s = .next u ∧ getB u Reg.bar0Status 62 = true ∧
      RegsBut [Reg.bar0Status] s u ∧ u = { s with regs := u.regs, out := s.out ++ [.alert 0x1402] }) ∧
  (∀ (m : Master) (t : Blk) (i : Nat) (v : W64) (s : State), Reaches m t i s →
    ∃ u, Machine.exec (.drain m t i v) s = .next u ∧ cellGet noDrain u.drains (drainKey t i) = true ∧
      getB u (Reg.blkStatus t i) 60 = false ∧
      (∀ k, k ≠ drainKey t i → cellGet noDrain u.drains k = cellGet noDrain s.drains k) ∧
      (t ≠ .core → RegsBut [Reg.blkStatus t i, Reg.blkCtrl t i, Reg.bar0Status] s u ∧
        u = { s with drains := u.drains, drainHeld := u.drainHeld, regs := u.regs, out := u.out, ports := u.ports,
                     rings := u.rings } ∧
        (∀ h, h ∈ u.drainHeld ↔ (h ∈ s.drainHeld ∧ h.1 ≠ drainKey t i) ∨ h ∈ inProgress s t i)) ∧
      (t ≠ .rng → u.rings = s.rings) ∧
      (t = .rng → i < s.rings.length → u.rings = s.rings.modify i fun x => { x with drainq := x.sendq }) ∧
      (t ≠ .nlp → u.ports = s.ports) ∧
      (t = .nlp → s.ports.length = 6 → port u i = { port s i with
        drainTx := classCounts (port s i).txq, drainRx := classCounts (port s i).rxq } ∧
        ∀ q, q ≠ i → port u q = port s q)) ∧
  (∀ (t : Blk) (i : Nat) (s : State), cellGet noDrain s.drains (drainKey t i) = true → drainedNow s t i = true →
    ∃ u, Machine.exec (.drained t i) s = .next u ∧ getB u (Reg.blkStatus t i) 60 = true ∧
      cellGet noDrain u.drains (drainKey t i) = false ∧
      (∀ k, k ≠ drainKey t i → cellGet noDrain u.drains k = cellGet noDrain s.drains k) ∧
      RegsBut [Reg.blkStatus t i] s u ∧ u = { s with drains := u.drains, regs := u.regs }) ∧
  (∀ (m : Master) (ch : Nat) (v : W64) (s : State), ch < 64 → Reaches m .mbx 0 s →
    (isMgt m = false →
      ∃ u, Machine.exec (.mbxBind m ch v) s = .next u ∧ getB u Reg.bar0Status 62 = true ∧ RegsBut [Reg.bar0Status] s u ∧
        u = { s with regs := u.regs, out := s.out ++ [.alert 0x1402] }) ∧
    (isMgt m = true → getB s (Reg.lock .mbx 0) 0 = false → fld v 63 63 = 0 →
      ∃ u, Machine.exec (.mbxBind m ch v) s = .next u ∧ bindValid u ch = false ∧
        bindSender u ch = fld v 15 8 ∧ bindReceiver u ch = fld v 7 0 ∧ RegsBut [Reg.bind ch] s u ∧
        u = { s with regs := u.regs }) ∧
    (isMgt m = true → getB s (Reg.lock .mbx 0) 0 = false → fld v 63 63 = 1 → partyOk ch (fld v 15 8) = true →
      partyOk ch (fld v 7 0) = true → fld v 15 8 ≠ fld v 7 0 →
      ∃ u, Machine.exec (.mbxBind m ch v) s = .next u ∧ bindValid u ch = true ∧
        bindSender u ch = fld v 15 8 ∧ bindReceiver u ch = fld v 7 0 ∧ notice u ch = {} ∧ wordCh u ch = {} ∧
        (∀ c, c ≠ ch → notice u c = notice s c ∧ wordCh u c = wordCh s c) ∧
        RegsBut [Reg.bind ch, Reg.mbStatus ch, Reg.mbRejLog ch] s u ∧
        u = { s with regs := u.regs, notices := u.notices, words := u.words })) ∧
  (∀ (m : Master) (al : Nat) (v : W64) (s : State), refusedMaster s m = false → 0x1F0 ≤ al → al < 0x200 →
    ∃ u, Machine.exec (.aliasWrite m (blkCode .rcl * 0x2000000 + al * 0x10000 + 0x110) v) s = .next u ∧
      (∀ d, d ∈ aliasMembers s .rcl al → getF u (Reg.rclSel d) 11 0 = fld v 11 0) ∧
      RegsBut ((aliasMembers s .rcl al).map Reg.rclSel) s u ∧ u = { s with regs := u.regs }) ∧
  (∀ (m : Master) (t : Blk) (al off : Nat) (s : State), refusedMaster s m = false → 0x1F0 ≤ al → al < 0x200 →
    off < 65536 → off % 8 = 0 → 8 < off → t ≠ .dbg → ¬ (t = .glb ∧ off = 0x228 ∧ s.step.active = true) →
    ∃ w : W64, Machine.exec (.aliasRead m (blkCode t * 0x2000000 + al * 0x10000 + off)) s =
        .next { s with out := s.out ++ [.read w] } ∧
      ∀ b, w.getLsbD b = (aliasMembers s t al).any fun i => (regView s t i off).getLsbD b)

/-- PACE_WINDOW of district d counts the window's waves, shows them as RATE_NOW limited to 65,535, lowers RATE_LOW and the
lowest rates noted, notes a floor that safety does not let be held at that rate, and changes nothing else. LOW_REARM loads RATE_LOW with RATE_NOW. REARM clears the corrections since the
last re-arming and takes the limit written. SP_ECC_WRITEBACK takes the oldest waiting word of the core off the list and changes
no byte. RETAIN_ENTRY puts an idle ON pair of a core with AUTO_RETAIN in RETAIN and changes no other pair. CLOCK_RUNNING of a
crossing with a held wake request starts its clock and drops the request; where no entry in flight has still to run and no host
access waits, nothing else changes; one host access that waits and meets no stopped clock any more then takes its effect. Without
a wake request nothing changes at all. A command that would reach HBM of its own behind a stopped clock (a fill, a rebuild, a scrub
read, a debug access, a sample, a securing read, a refill, a window or Locker access that arrives) raises exactly the wake requests
on its way and changes nothing else.
Model choices it rests on: log entries 92, 98, 164. -/
def Obligations.SmallUnitsChangeAlone : Prop :=
  (∀ (d waves : Nat) (s : State), d < 4 →
    ∃ t, Machine.exec (.paceWindow d waves) s = .next t ∧
      getF t (Reg.paceCount d) 31 0 = (getF s (Reg.paceCount d) 31 0 + min waves 65535) % 2 ^ 32 ∧
      getF t (Reg.paceRate d) 15 0 = min waves 65535 ∧
      getF t (Reg.paceRate d) 47 32 = min (min waves 65535) (getF s (Reg.paceRate d) 47 32) ∧
      RegsBut [Reg.paceCount d, Reg.paceRate d] s t ∧
      t = { s with
        regs := t.regs, power := { s.power with rateLow := min s.power.rateLow (min waves 65535) },
        step := if s.step.active then { s.step with
          rateMin := min s.step.rateMin (min waves 65535),
          floorBreach := s.step.floorBreach || safetyHolds s (min waves 65535) (coreTarget s) } else s.step }) ∧
  (∀ (m : Master) (d : Nat) (v : W64) (s : State), Reaches m .dst d s →
    ∃ t, Machine.exec (.lowRearm m d v) s = .next t ∧ getF t (Reg.paceRate d) 47 32 = getF s (Reg.paceRate d) 15 0 ∧
      getF t (Reg.paceRate d) 31 0 = getF s (Reg.paceRate d) 31 0 ∧ RegsBut [Reg.paceRate d] s t ∧
      t = { s with regs := t.regs }) ∧
  (∀ (m : Master) (i : Nat) (v : W64) (s : State), Reaches m .hbc i s →
    ∃ t, Machine.exec (.rearm m i v) s = .next t ∧ getF t (Reg.hbcCeLimit i) 62 32 = 0 ∧
      getF t (Reg.hbcCeLimit i) 31 0 = fld v 31 0 ∧ RegsBut [Reg.hbcCeLimit i] s t ∧ t = { s with regs := t.regs }) ∧
  (∀ (core a : Nat) (pre post : List Nat) (s : State), s.spFix = pre ++ a :: post → a / 524288 = core →
    (∀ x ∈ pre, x / 524288 ≠ core) →
    Machine.exec (.spEccWriteback core) s = .next { s with spFix := pre ++ post }) ∧
  (∀ (core k : Nat) (s : State), k < 8 → getB s (Reg.spPower core) 16 = true →
    getF s (Reg.spPower core) (2 * k + 33) (2 * k + 32) = 0 →
    ∃ t, Machine.exec (.retainEntry core k) s = .next t ∧ getF t (Reg.spPower core) (2 * k + 33) (2 * k + 32) = 1 ∧
      (∀ j, j < 8 → j ≠ k → getF t (Reg.spPower core) (2 * j + 33) (2 * j + 32) =
        getF s (Reg.spPower core) (2 * j + 33) (2 * j + 32)) ∧
      RegsBut [Reg.spPower core] s t ∧ t = { s with regs := t.regs }) ∧
  (∀ (ty : Blk) (i : Nat) (s : State), (cellGet runningCrossing s.crossings (blkCode ty * 512 + i)).wake = true →
    ∃ t, Machine.exec (.clockRunning ty i) s = .next t ∧
      cellGet runningCrossing t.crossings (blkCode ty * 512 + i) = { clockOn := true, wake := false } ∧
      ((∀ x ∈ s.streams, ∀ f ∈ x.inflight, f.ran = true ∨ f.waiting ≠ 0) → s.heldHost = [] →
        (∀ k, k ≠ blkCode ty * 512 + i → cellGet runningCrossing t.crossings k = cellGet runningCrossing s.crossings k) ∧
        t = { s with crossings := t.crossings })) ∧
  (∀ (ty : Blk) (i : Nat) (x : HostAccess) (s u : State), (crossingAt s ty i).wake = true →
    (∀ y ∈ s.streams, ∀ f ∈ y.inflight, f.ran = true ∨ f.waiting ≠ 0) → s.heldHost = [x] →
    u = { s with crossings := cellSet runningCrossing s.crossings (crossingKey ty i) { clockOn := true, wake := false } } →
    ¬ Stopped (x.reach u) u → Machine.exec (.clockRunning ty i) s = .next { x.run u with heldHost := [] }) ∧
  (∀ (ty : Blk) (i : Nat) (s : State), (cellGet runningCrossing s.crossings (blkCode ty * 512 + i)).wake = false →
    Machine.exec (.clockRunning ty i) s = .next s) ∧
  (∀ (c : Instr) (s : State), Stopped (reach s c) s →
    ∃ t, Machine.exec c s = .next t ∧ WakesFor (reach s c) s t ∧ t = { s with crossings := t.crossings })

/-- GLB_REGION_W0 with VALID set commits the three fields exactly where no reason of R237 forbids it and no reserved bit is 1, and
else only sets the refusal with its entry and its reason, which a reserved bit leaves free; one without VALID of an entry that no active job holds takes its fields, but a CLASS that is
not listed. GLB_REGION_W1 takes the size of an entry that is not valid. REGION_INIT_START of a valid
region with no job active and no fill running starts the fill of that region, and REGION_FILL_DONE zeroes exactly the data and
check bytes of the region that was started, so that no line of it waits for a rebuild any more, and sets DONE. SCRUB_READ of a line in a class that is not scrubbed changes nothing. HBM_LANE_FAULT of a pseudo-channel
that is neither lost nor mapped marks it lost and nothing else; REBUILD_COMPLETE of a substitute that waits changes no byte
outside the Locker regions and, with no Locker region, nothing but the lists of what waits; the substitute leaves the list
where every line on it could be restored, with no register changed but those of HBM pages and the step's counts of what was
corrected, else it stays there and a generation is reported damaged.
Model choices it rests on: log entries 4, 149, 150, 164. -/
def Obligations.HbmControlActsOnItsLines : Prop :=
  (∀ (m : Master) (k : Nat) (v : W64) (s : State), k < 256 → Reaches m .glb 0 s → fld v 63 63 = 1 →
    (regionReason s k v = none → v &&& regionBits = v →
      ∃ t, Machine.exec (.glbRegionW0 m k v) s = .next t ∧
        rget t (Reg.regionW0 k) = v ∧
        RegsBut [Reg.regionW0 k] s t ∧ t = { s with regs := t.regs }) ∧
    (∀ n, regionReason s k v = some n → n = 5 ∨ v &&& regionBits = v →
      ∃ t, Machine.exec (.glbRegionW0 m k v) s = .next t ∧ getB t Reg.regionStatus 63 = true ∧
        getF t Reg.regionStatus 62 60 = n ∧ getF t Reg.regionStatus 7 0 = k ∧ RegsBut [Reg.regionStatus] s t ∧
        t = { s with regs := t.regs }) ∧
    (v &&& regionBits ≠ v → regionReason s k v ≠ some 5 →
      ∃ t, Machine.exec (.glbRegionW0 m k v) s = .next t ∧ getB t Reg.regionStatus 63 = true ∧
        getF t Reg.regionStatus 7 0 = k ∧ RegsBut [Reg.regionStatus] s t ∧ t = { s with regs := t.regs, free := t.free })) ∧
  (∀ (m : Master) (k : Nat) (v : W64) (s : State), k < 256 → Reaches m .glb 0 s → fld v 63 63 = 0 →
    (jobActive s && getB s (Reg.regionW0 k) 63) = false →
    ∃ t, Machine.exec (.glbRegionW0 m k v) s = .next t ∧ getB t (Reg.regionW0 k) 63 = false ∧
      getF t (Reg.regionW0 k) 59 56 = (if fld v 59 56 ≤ 6 then fld v 59 56 else getF s (Reg.regionW0 k) 59 56) ∧
      getF t (Reg.regionW0 k) 39 20 = fld v 39 20 ∧ RegsBut [Reg.regionW0 k] s t ∧ t = { s with regs := t.regs }) ∧
  (∀ (m : Master) (k : Nat) (v : W64) (s : State), k < 256 → Reaches m .glb 0 s →
    (getB s (Reg.regionW0 k) 63 = false →
      ∃ t, Machine.exec (.glbRegionW1 m k v) s = .next t ∧ rget t (Reg.regionW1 k) = v &&& fieldMask 39 20 ∧
        RegsBut [Reg.regionW1 k] s t ∧ t = { s with regs := t.regs }) ∧
    (getB s (Reg.regionW0 k) 63 = true → jobActive s = false → Machine.exec (.glbRegionW1 m k v) s = .next s)) ∧
  (∀ (m : Master) (v : W64) (s : State) (r : Region), Reaches m .glb 0 s → jobActive s = false →
    getB s Reg.regionInit 62 = false → region? s (fld v 7 0) = some r →
    ∃ t, Machine.exec (.regionInitStart m v) s = .next t ∧ getB t Reg.regionInit 62 = true ∧
      getF t Reg.regionInit 7 0 = fld v 7 0 ∧ RegsBut [Reg.regionInit] s t ∧
      t = { s with regs := t.regs, fill := some (r.base, r.size) }) ∧
  (∀ (s : State) (b n : Nat), s.fill = some (b, n) → ¬ Stopped [(b, n)] s →
    ∃ t, Machine.exec .regionFillDone s = .next t ∧ getB t Reg.regionInit 62 = false ∧ getB t Reg.regionInit 61 = true ∧
      (∀ a, memGet t.hbm a = if b ≤ a ∧ a < b + n then 0 else memGet s.hbm a) ∧
      (∀ a, memGet t.chk a = if b / 8 ≤ a ∧ a < b / 8 + n / 8 then 0 else memGet s.chk a) ∧
      RegsBut [Reg.regionInit] s t ∧ (s.unbuilt = [] → t.mended = s.mended) ∧ (∀ l ∈ s.mended, l ∈ t.mended) ∧
      (∀ i, i < n / 64 → isUnbuilt t (b + 64 * i) = false) ∧
      t = { s with hbm := t.hbm, chk := t.chk, regs := t.regs, fill := none, mended := t.mended }) ∧
  (∀ s : State, s.fill = none → Machine.exec .regionFillDone s = .next s) ∧
  (∀ (stack addr : Nat) (ph : List Phys) (s : State),
    (∀ r, regionOf s (addr / 64 * 64) = some r → r.cls ≠ 0 ∧ r.cls ≠ 1 ∧ r.cls ≠ 6) →
    Machine.exec (.scrubRead stack addr ph) s = .next s) ∧
  (∀ (i : Nat) (s : State), getB s (Reg.hbcState i) 62 = false → getB s (Reg.hbcState i) 63 = false →
    ∃ t, Machine.exec (.hbmLaneFault i) s = .next t ∧ getB t (Reg.hbcState i) 62 = true ∧
      getB t (Reg.blkStatus .hbc i) 63 = true ∧ RegsBut [Reg.hbcState i, Reg.blkStatus .hbc i] s t ∧
      t = { s with regs := t.regs }) ∧
  (∀ (i : Nat) (s : State), s.unbuilt.contains i = true → (∀ r ∈ regions s, r.cls ≠ 6) →
    Machine.exec (.rebuildComplete i) s = .next { s with
      unbuilt := s.unbuilt.filter (· != i), mended := s.mended.filter fun l => (locate s l).inst != i }) ∧
  (∀ (i : Nat) (s : State), s.unbuilt.contains i = true → ¬ Stopped (reach s (.rebuildComplete i)) s →
    ∃ t, Machine.exec (.rebuildComplete i) s = .next t ∧
      (∀ a, (∀ r ∈ regions s, r.cls = 6 → a < r.base ∨ r.base + r.size ≤ a) → memGet t.hbm a = memGet s.hbm a) ∧
      ((rebuildAll i s).2 = [] → t.unbuilt = s.unbuilt.filter (· != i) ∧ OnlyWakes s t ∧
        (∀ a, 0x20000000 ≤ a ∨ regType a ≠ .hbc → rget t a = rget s a) ∧
        t = { s with hbm := t.hbm, chk := t.chk, unbuilt := t.unbuilt, mended := t.mended, crossings := t.crossings,
                     regs := t.regs, step := { s.step with corrected := t.step.corrected }, out := t.out }) ∧
      ((rebuildAll i s).2 ≠ [] → t.unbuilt = s.unbuilt ∧ (∃ g, .damaged g ∈ t.out.drop s.out.length) ∧
        t.sp = s.sp ∧ t.streams = s.streams ∧ t.host = s.host ∧ t.ports = s.ports))

/-- SCRUB_READ of a line in a WGT, STA or Locker region of a stack whose scrub is on, whose 72 stored bytes are a line as a write
stores it with some bytes changed by the physical world, so few that the line's code corrects them: afterwards the line's data
and check bytes are those that the decoder gives, every other HBM byte is as before, and the correction is counted in the
pseudo-channel's page. A line without an error keeps its bytes. The clock of the line's crossing runs. Either counts as read in the stack's scrub pass, and what the
physical world does to the crossings is counted or raised as for any traffic without a group.
Model choices it rests on: log entries 134, 164. -/
def Obligations.ScrubCorrectsLines : Prop :=
  ∀ (stack addr : Nat) (ph : List Phys) (s : State) (r : Region) (d : List Byte) (n line : Nat), line = addr / 64 * 64 →
    getB s (Reg.scrub stack) 63 = true → (locate s line).inst / 64 = stack → regionOf s line = some r →
    (r.cls = 0 ∨ r.cls = 1 ∨ r.cls = 6) → rsLine s ph line = some (d, n) → dieFixed ph line = false → dieBad ph line = false →
    ¬ Stopped [(line, 64)] s →
    (n = 0 → ∃ t, Machine.exec (.scrubRead stack addr ph) s = .next (trafficPhys none ph t) ∧ RegsBut [Reg.scrub stack] s t ∧
      t = { s with regs := t.regs, scrubbed := t.scrubbed }) ∧
    (0 < n → ∃ t, Machine.exec (.scrubRead stack addr ph) s = .next (trafficPhys none ph t) ∧
      (d.length = 64 → memRead t.hbm line 64 = d ∧ memRead t.chk (line / 8) 8 = rsLineCheck d ∧
        (∀ a, a < line ∨ line + 64 ≤ a → memGet t.hbm a = memGet s.hbm a)) ∧
      getF t (Reg.hbcCe (locate s line).inst) 47 0 = (getF s (Reg.hbcCe (locate s line).inst) 47 0 + 1) % 2 ^ 48 ∧
      t.sp = s.sp ∧ t.streams = s.streams ∧ t.host = s.host)

/-- DBG_MEM_READ and DBG_MEM_WRITE by a master with rights to the page, not locked and with no access running, start the access
with OP 0 or 1; on a locked page they start none and set the refusal bit. DBG_MEM_DONE of a running access to a region of class 3, 4 or 5
that the aperture's rules admit: a read puts the 8 bytes in the data register and changes no memory, a write stores the data
register's 8 bytes there and changes no other byte; DONE is set and BUSY clear, where the clock on the way runs. DBG_FIFO_DATA
takes nothing from a crossing: it returns the selected lane of a flit at the head of a port's crossing that is no packet's; before a
committed packet a word that no rule lays out, as of a pseudo-channel's crossing whose clock is asked for; of an empty crossing, or
where the packet is not committed, 0, with EMPTY_READ in the port's page.
Model choices it rests on: log entries 92, 164. -/
def Obligations.DebugPageAccessesMemory : Prop :=
  (∀ (m : Master) (v : W64) (s : State), Reaches m .dbg 0 s → m = .host ∨ isMgt m = true ∨ m = .dbg →
    (getB s (Reg.lock .dbg 0) 0 = false → getB s Reg.dbgCtrl 62 = false →
      (∃ t, Machine.exec (.dbgMemRead m v) s = .next t ∧ getB t Reg.dbgCtrl 62 = true ∧ getB t Reg.dbgCtrl 59 = false ∧
        RegsBut [Reg.dbgCtrl] s t ∧ t = { s with regs := t.regs }) ∧
      ∃ t, Machine.exec (.dbgMemWrite m v) s = .next t ∧ getB t Reg.dbgCtrl 62 = true ∧ getB t Reg.dbgCtrl 59 = true ∧
        RegsBut [Reg.dbgCtrl] s t ∧ t = { s with regs := t.regs }) ∧
    (getB s (Reg.lock .dbg 0) 0 = true → ∀ c ∈ [Instr.dbgMemRead m v, .dbgMemWrite m v],
      ∃ t, Machine.exec c s = .next t ∧ getB t Reg.dbgCtrl 60 = true ∧ getB t Reg.dbgCtrl 62 = getB s Reg.dbgCtrl 62 ∧
        RegsBut [Reg.dbgCtrl] s t ∧ t = { s with regs := t.regs })) ∧
  (∀ (s : State) (r : Region) (a : Nat), getB s Reg.dbgCtrl 62 = true → a = getF s Reg.dbgAddr 47 3 * 8 →
    regionOf s a = some r → 3 ≤ r.cls → r.cls ≤ 5 → ¬ Stopped [(a, 8)] s →
    (getB s Reg.dbgCtrl 59 = false →
      ∃ t, Machine.exec .dbgMemDone s = .next t ∧ rget t Reg.dbgData = BitVec.ofNat 64 (memNat s.hbm a 8) ∧
        getB t Reg.dbgCtrl 62 = false ∧ getB t Reg.dbgCtrl 61 = true ∧ RegsBut [Reg.dbgCtrl, Reg.dbgData] s t ∧
        t = { s with regs := t.regs }) ∧
    (getB s Reg.dbgCtrl 59 = true → r.cls = 5 ∨ jobActive s = false →
      ∃ t, Machine.exec .dbgMemDone s = .next t ∧ memNat t.hbm a 8 = (rget s Reg.dbgData).toNat ∧
        (∀ i, i < a ∨ a + 8 ≤ i → memGet t.hbm i = memGet s.hbm i) ∧ getB t Reg.dbgCtrl 62 = false ∧
        getB t Reg.dbgCtrl 61 = true ∧ RegsBut [Reg.dbgCtrl] s t ∧
        t = { s with hbm := t.hbm, chk := t.chk, regs := t.regs })) ∧
  (∀ (m : Master) (p : Nat) (s : State), Reaches m .dbg 0 s → p < 6 → getF s Reg.dbgSel 4 0 < fifoLanes 7 →
    getF s Reg.dbgSel 35 32 = 7 → getF s Reg.dbgSel 24 16 = p → getB s Reg.dbgSel 8 = true →
    (∀ f rest, (port s p).rxq = f :: rest →
      (f.typ = 3 ∨ f.typ = 7 → Machine.exec (.dbgFifoData m) s =
        .next { s with out := s.out ++ [.read (BitVec.ofNat 64 (leAt (flitWire f) (8 * getF s Reg.dbgSel 4 0) 8))] }) ∧
      (f.typ ≠ 3 → f.typ ≠ 7 → headCommitted (port s p) true f = true →
        ∃ w, Machine.exec (.dbgFifoData m) s = .next { s with out := s.out ++ [.read w], free := s.free + 1 })) ∧
    ((port s p).rxq = [] ∨ (∃ f rest, (port s p).rxq = f :: rest ∧ f.typ ≠ 3 ∧ f.typ ≠ 7 ∧
        headCommitted (port s p) true f = false) →
      ∃ t, Machine.exec (.dbgFifoData m) s = .next t ∧ .read 0 ∈ t.out.drop s.out.length ∧
        getB t (Reg.intStatus .nlp p) 1 = true ∧ RegsBut [Reg.intStatus .nlp p] s t ∧
        t = { s with regs := t.regs, out := t.out })) ∧
  (∀ (m : Master) (i : Nat) (s : State), Reaches m .dbg 0 s → i < 384 → getF s Reg.dbgSel 4 0 < fifoLanes 6 →
    getF s Reg.dbgSel 35 32 = 6 → getF s Reg.dbgSel 24 16 = i → getB s Reg.dbgSel 8 = false → (crossingAt s .hbc i).wake = true →
    ∃ w, Machine.exec (.dbgFifoData m) s = .next { s with out := s.out ++ [.read w], free := s.free + 1 })

/-- FORCE that reaches the GLB page makes a forced pass pending, clears at most the two W1C bits written 1, and changes nothing
else. HOLDER_REPORT of generation 0 or 1 marks that generation incomplete, keeps the other's mark, makes a forced pass pending
and sets the LOCKER interrupt bit. SECURING_READ_COMPLETE of a running pass that has not yet read all its state queues, behind
what ring 0 already sends, SEC transfers by port 1 of whole stripes of 1,280 bytes, at most 15,360 bytes each: the generation
from the stripe in which its header ends, completed to whole stripes, and then the four stripes that begin it, the last with
the complete header; pass 0x7F02 is posted while a step runs. SECURING_PASS_COMPLETE with every SEC access answered marks the
pass's generation complete with the step that the pass began with, keeps its directory, ends the pass and sets the LOCKER
interrupt bit; the other generation stays.
Model choices it rests on: log entries 34, 76, 77, 116, 147, 164. -/
def Obligations.SecuringPassesKeepGenerations : Prop :=
  (∀ (m : Master) (v : W64) (s : State), Reaches m .glb 0 s →
    ∃ t, Machine.exec (.force m v) s = .next t ∧ getF t Reg.lockerState 63 59 = getF s Reg.lockerState 63 59 ∧
      getF t Reg.lockerState 56 0 = getF s Reg.lockerState 56 0 ∧
      getB t Reg.lockerState 58 = (getB s Reg.lockerState 58 && fld v 58 58 == 0) ∧
      getB t Reg.lockerState 57 = (getB s Reg.lockerState 57 && fld v 57 57 == 0) ∧ RegsBut [Reg.lockerState] s t ∧
      t = { s with regs := t.regs, locker := { s.locker with forced := true } }) ∧
  (∀ (g : Nat) (s : State), g < 2 →
    ∃ t, Machine.exec (.holderReport g) s = .next t ∧ getB t Reg.lockerState 58 = true ∧ genComplete t g = false ∧
      genComplete t (1 - g) = genComplete s (1 - g) ∧ getF t Reg.lockerState 57 0 = getF s Reg.lockerState 57 0 ∧
      getB t (Reg.intStatus .glb 0) 10 = true ∧ RegsBut [Reg.lockerState, Reg.intStatus .glb 0] s t ∧
      t = { s with regs := t.regs, out := t.out, locker := { s.locker with forced := true } }) ∧
  (∀ s : State, passActive s = true → s.locker.readDone = false → s.rings.length = 3 → phase s = 0 →
    ¬ Stopped (reach s .securingReadComplete) s →
    (∀ i, i < 4096 → (scaleBytes (cellGet noScale s.census.scale i)).length = 128) →
    ∃ t more, Machine.exec .securingReadComplete s = .next t ∧ t.locker.readDone = true ∧
      (ringAt t 0).sendq = (ringAt s 0).sendq ++ more ∧ (more.map fun x => x.data.length).sum = ceilDiv (genBytes s - 3840) 1280 * 1280 + 5120 ∧
      (∀ x ∈ more, x.port = 1 ∧ x.first.cls = 2 ∧ x.data.length ≤ 15360 ∧ x.data.length % 1280 = 0) ∧
      (∃ x, more.getLast? = some x ∧ x.data.take 4096 = genHeader s (passGen s) 1) ∧
      (t.step.active = true → 0x7F02 ∈ t.step.sysPasses) ∧ t.streams = s.streams ∧ t.sp = s.sp ∧ t.notices = s.notices ∧
      t.words = s.words ∧ t.ports = s.ports) ∧
  (∀ s : State, passActive s = true → s.locker.readDone = true → secOpen s = false →
    ∃ t, Machine.exec .securingPassComplete s = .next t ∧ genComplete t (passGen s) = true ∧
      genStep t (passGen s) = s.locker.passStep % 2 ^ 32 ∧ genComplete t (1 - passGen s) = genComplete s (1 - passGen s) ∧
      genStep t (1 - passGen s) = genStep s (1 - passGen s) ∧ passActive t = false ∧
      getF t Reg.lockerState 31 0 = s.locker.passStep % 2 ^ 32 ∧ getB t (Reg.intStatus .glb 0) 10 = true ∧
      RegsBut [Reg.lockerState, Reg.lockerSteps, Reg.intStatus .glb 0] s t ∧
      t.locker.dir0 = (if passGen s = 0 then dirNow s else s.locker.dir0) ∧
      t.locker.dir1 = (if passGen s = 0 then s.locker.dir1 else dirNow s) ∧
      t = { s with regs := t.regs, out := t.out,
                   locker := { s.locker with readDone := false, dir0 := t.locker.dir0, dir1 := t.locker.dir1 } })

/-- LOCKER_WRITE_ARRIVAL with a whole SEC write of the down neighbour at the front of port 0, whose header fits the ring, into
the held region: every byte of the write is at its striped place, every other Locker byte of the region and every byte outside
the region is as before, the transfer leaves the crossing and one answer with status 0, its XFER and its sender's position as
destination, is queued on port 0. A range that is not held is answered with status 3 and no memory changes. LOCKER_READ_ARRIVAL
of a range whose lines are clean answers with status 0 and exactly the stored Locker bytes, and changes no memory; one that is
not held is answered with status 3; one poisoned in the crossing is taken and not answered.
Model choices it rests on: log entries 49, 134, 164. -/
def Obligations.HolderServesItsLocker : Prop :=
  (∀ (s : State) (f : Flit) (ds rest : List Flit) (r : Region) (bs : List Byte) (off : Nat),
    frontMine s 0 2 2 = some (f, ds, rest) → leAt f.payload 6 1 = 0 → ringHdrOk s 0 f = true → s.rings.length = 3 →
    bs = joinData f ds → off = leAt f.payload 0x18 8 → heldRange s off bs.length = some r →
    ¬ Stopped (reach s .lockerWriteArrival) s →
    ∃ t x, Machine.exec .lockerWriteArrival s = .next t ∧ (port t 0).rxq = rest ∧
      (∀ i, i < bs.length → memGet t.hbm (lckAddr r.base (off + i)) = bs.getD i 0) ∧
      (∀ o, o < lckCapacity r → o < off ∨ off + bs.length ≤ o →
        memGet t.hbm (lckAddr r.base o) = memGet s.hbm (lckAddr r.base o)) ∧
      (r.size % 3145728 = 0 → ∀ a, a < r.base ∨ r.base + r.size ≤ a → memGet t.hbm a = memGet s.hbm a) ∧
      (ringAt t 0).sendq = (ringAt s 0).sendq ++ [x] ∧ x.port = 0 ∧ x.data = [] ∧ x.first.typ = 4 ∧ x.first.cls = 2 ∧
      leAt x.first.payload 6 1 = 0 ∧ leAt x.first.payload 0xC 2 = leAt f.payload 0xC 2 ∧
      plDst x.first.payload = plSrc f.payload ∧ t.regs = s.regs ∧ t.sp = s.sp ∧ t.streams = s.streams ∧
      t.locker = s.locker ∧ t.host = s.host) ∧
  (∀ (s : State) (f : Flit) (ds rest : List Flit) (n : Nat) (c : Instr),
    frontMine s 0 2 2 = some (f, ds, rest) → ringHdrOk s 0 f = true → s.rings.length = 3 →
    (leAt f.payload 6 1 = 0 ∧ c = .lockerWriteArrival ∧ n = (joinData f ds).length ∨
      leAt f.payload 6 1 = 1 ∧ c = .lockerReadArrival [] ∧ n = leAt f.payload 0x10 4) →
    heldRange s (leAt f.payload 0x18 8) n = none →
    ∃ t x, Machine.exec c s = .next t ∧ (port t 0).rxq = rest ∧ (ringAt t 0).sendq = (ringAt s 0).sendq ++ [x] ∧
      x.port = 0 ∧ x.data = [] ∧ leAt x.first.payload 6 1 = 3 ∧ t = { s with ports := t.ports, rings := t.rings }) ∧
  (∀ (s : State) (f : Flit) (ds rest : List Flit) (r : Region) (off len : Nat),
    frontMine s 0 2 2 = some (f, ds, rest) → leAt f.payload 6 1 = 1 → ringHdrOk s 0 f = true → s.rings.length = 3 →
    off = leAt f.payload 0x18 8 → len = leAt f.payload 0x10 4 → heldRange s off len = some r →
    (∀ i line, i < len → line = lckAddr r.base (off + i) / 64 * 64 →
      regionOf s line = some r ∧ rsLine s [] line = some (memRead s.hbm line 64, 0)) →
    ¬ Stopped (reach s (.lockerReadArrival [])) s →
    ∃ t x, Machine.exec (.lockerReadArrival []) s = .next t ∧ (port t 0).rxq = rest ∧
      (ringAt t 0).sendq = (ringAt s 0).sendq ++ [x] ∧ x.port = 0 ∧ x.first.typ = 4 ∧ x.first.cls = 2 ∧
      leAt x.first.payload 6 1 = 0 ∧ x.data.length = len ∧
      (∀ i, i < len → x.data.getD i 0 = memGet s.hbm (lckAddr r.base (off + i))) ∧ OnlyWakes s t ∧
      t = { s with ports := t.ports, rings := t.rings, crossings := t.crossings }) ∧
  (∀ (s : State) (f : Flit) (ds rest : List Flit) (ph : List Phys), frontMine s 0 2 2 = some (f, ds, rest) →
    leAt f.payload 6 1 = 1 → poisoned ph .nlp 0 false = true →
    ∃ u, Machine.exec (.lockerReadArrival ph) s = .next (trafficPhys none ph u) ∧ (port u 0).rxq = rest ∧
      u = { s with ports := u.ports })

/-- RESTART that reaches the GLB page, without ABORT, in PHASE READY: after two restarts that ended with one watchdog-class
record it fails with 0x0305; from the live state it goes to phase 7, or to 4 where the channel profile is to change; from a
complete generation of the step given, whose directory matches the region table, it goes to phase 4 and asks the holder for
the whole generation, or, where the channel profile is to change, to phase 4 or to its failure for want of a common generation;
with another directory it fails with 0x0110, and without such a generation with 0x0E02. An accepted restart counts
in RESTARTS, adds its share to the failure rate and clears the run counters. In phase 5 it goes on to phase 6, or 7 from the
live state, under the same conditions on the generation; in any other phase it fails. LOCKER_RETURNED ends phase 4 in phase
6, or, when the channel profile steps, in phase 5 with the new profile and count in force. REFILLED with all reads answered
ends phase 6 in phase 7 with the update count, the seed and, outside the scale table, which takes the restored records, for an
image of one region exactly the region's bytes of the image; with an image that fails its check in phase 8 with the check's code and memory as before.
Model choices it rests on: log entries 76, 78, 126, 127, 128, 129, 131, 164, 166. -/
def Obligations.RestartFollowsItsPhases : Prop :=
  (∀ (m : Master) (v : W64) (s : State) (w : Option Nat), Reaches m .glb 0 s → fld v 63 63 = 0 →
    w = [0, 1].find? (fun g => genComplete s g && genStep s g == fld v 31 0) →
    ∃ t, Machine.exec (.restart m v) s = .next t ∧ getF t Reg.restartCtrl 31 0 = fld v 31 0 ∧
      getF t Reg.restartCtrl 61 61 = fld v 61 61 ∧ t.hbm = s.hbm ∧ t.sp = s.sp ∧ t.streams = s.streams ∧ t.job = s.job ∧
      (phase s = 3 → stalledTwice s = true → phase t = 8 ∧ getF t Reg.restartStatus 47 32 = 0x0305 ∧
        getF t Reg.jobStatus 47 32 = 0x0305) ∧
      (phase s = 3 → stalledTwice s = false → fld v 61 61 = 1 → s.locker.stepTo = none → phase t = 7) ∧
      (phase s = 3 → stalledTwice s = false → fld v 61 61 = 1 → s.locker.stepTo ≠ none → phase t = 4) ∧
      (∀ g, phase s = 3 → stalledTwice s = false → fld v 61 61 = 0 → w = some g → dirMatches s g = true →
        phase t = 4 ∨ (s.locker.stepTo ≠ none ∧ phase t = 8 ∧ getF t Reg.restartStatus 47 32 = 0x0E02)) ∧
      (∀ g, phase s = 3 → stalledTwice s = false → fld v 61 61 = 0 → w = some g → dirMatches s g = false →
        phase t = 8 ∧ getF t Reg.restartStatus 47 32 = 0x0110) ∧
      (∀ g, phase s = 3 → stalledTwice s = false → fld v 61 61 = 0 → w = some g → dirMatches s g = true →
        s.locker.stepTo = none → s.rings.length = 3 → t.locker.image = [] ∧ t.locker.broken = false ∧
        ∃ more, (ringAt t 0).xfers = (ringAt s 0).xfers ++ more ∧ (more.map (·.length)).sum = genSize (genDir s g) ∧
          ∀ x ∈ more, x.op = 1 ∧ x.window = secView) ∧
      (phase s = 3 → stalledTwice s = false → fld v 61 61 = 0 → w = none →
        phase t = 8 ∧ getF t Reg.restartStatus 47 32 = 0x0E02) ∧
      (phase s = 3 → stalledTwice s = false → (fld v 61 61 = 1 ∨ ∃ g, w = some g ∧ dirMatches s g = true) →
        getF t Reg.restartStatus 31 16 = min (getF s Reg.restartStatus 31 16 + 1) 65535 ∧
        rget t Reg.frate = rget s Reg.frate + BitVec.ofNat 64 (2 ^ 32 / 2 ^ getF s Reg.securePolicy 23 16) ∧
        t.census.runs = [] ∧ t.census.alerted = []) ∧
      (phase s = 5 → fld v 61 61 = 1 → phase t = 7) ∧
      (∀ g, phase s = 5 → fld v 61 61 = 0 → w = some g → dirMatches s g = true → phase t = 6) ∧
      (∀ g, phase s = 5 → fld v 61 61 = 0 → w = some g → dirMatches s g = false →
        phase t = 8 ∧ getF t Reg.restartStatus 47 32 = 0x0110) ∧
      (phase s = 5 → fld v 61 61 = 0 → w = none → phase t = 8 ∧ getF t Reg.restartStatus 47 32 = 0x0E02) ∧
      (phase s ≠ 3 → phase s ≠ 5 → phase t = 8 ∧
        (phase s ≠ 0 ∨ pwrState s = 0 ∧ s.power.seq = .none →
          RegsBut [Reg.restartCtrl, Reg.restartStatus, Reg.intStatus .glb 0] s t ∧
          t = { s with regs := t.regs, out := t.out, free := t.free }))) ∧
  (∀ s : State, phase s = 4 →
    (s.locker.stepTo = none →
      ∃ t, Machine.exec .lockerReturned s = .next t ∧ phase t = 6 ∧ getB t (Reg.intStatus .glb 0) 9 = true ∧
        RegsBut [Reg.restartStatus, Reg.intStatus .glb 0] s t ∧ t = { s with regs := t.regs, out := t.out }) ∧
    (∀ q, q ≤ 4 → s.locker.stepTo = some q →
      ∃ t, Machine.exec .lockerReturned s = .next t ∧ phase t = 5 ∧ t.locker.stepTo = none ∧ hbmProfile t = q ∧
        hbmN t = 360 - 6 * q ∧ t.sp = s.sp ∧ t.streams = s.streams ∧ t.rings = s.rings)) ∧
  (∀ s : State, phase s = 6 → secOpen s = false →
    (imageCheck s = 0 → ¬ Stopped (reach s .refilled) s →
      ∃ t, Machine.exec .refilled s = .next t ∧ phase t = 7 ∧ t.locker.image = [] ∧
        rget t Reg.updateCount = BitVec.ofNat 64 (memNat s.locker.image 0x18 8) ∧
        rget t Reg.jobSeed = BitVec.ofNat 64 (memNat s.locker.image 0x20 8) ∧ t.sp = s.sp ∧ t.streams = s.streams ∧
        (imageRegions s = [] → ∀ a, OffScales s a → memGet t.hbm a = memGet s.hbm a) ∧
        ∀ r, imageRegions s = [r] →
          (∀ i, i < r.size → OffScales s (r.base + i) → memGet t.hbm (r.base + i) = memGet s.locker.image (0x81000 + i)) ∧
          ∀ a, a < r.base ∨ r.base + r.size ≤ a → OffScales s a → memGet t.hbm a = memGet s.hbm a) ∧
    (imageCheck s ≠ 0 →
      ∃ t, Machine.exec .refilled s = .next t ∧ phase t = 8 ∧ getF t Reg.restartStatus 47 32 = imageCheck s ∧
        RegsBut [Reg.restartStatus, Reg.intStatus .glb 0] s t ∧ t = { s with regs := t.regs, out := t.out }))

/-- SUBSTITUTION_COMPLETE with STATE HALTED in phase 1 ends in phase 3 unless the device goes out of service. With nothing
condemned and no mapped pseudo-channel lost only the phase, its interrupt bit, the condemned units on record and the list of
repaired rows change, which takes every row that has logged an uncorrectable error. A cell of a dense array that has raised two faults of its own, where the
array's spare row is not in use, gets the spare row for its row, which the repair records note, and its faults are struck off. A
condemned, mapped Junction
engine becomes lost and unmapped, goes on record, and the first live, unmapped engine of its district takes its logical number. In any other
state or phase nothing changes.
Model choices it rests on: log entries 74, 75, 135. -/
def Obligations.SubstitutionMapsSpares : Prop :=
  (∀ (engines : List Nat) (s : State), jobState s = 4 → phase s = 1 →
    ∃ t, Machine.exec (.substitutionComplete engines) s = .next t ∧ (getB t Reg.bringup 62 = false → phase t = 3) ∧
      t.mgt.rowRepairs = (s.ueGroups ++ s.mgt.rowRepairs).eraseDups ∧ t.notices = s.notices) ∧
  (∀ s : State, jobState s = 4 → phase s = 1 →
    (∀ c, c < 384 → getB s (Reg.hbcState c) 62 = true → getB s (Reg.hbcState c) 63 = false) →
    (s.unitFaults = [] →
      ∃ t, Machine.exec (.substitutionComplete []) s = .next t ∧ RegsBut [Reg.restartStatus, Reg.intStatus .glb 0] s t ∧
        t = { s with regs := t.regs, out := t.out,
                     mgt := { s.mgt with rowRepairs := (s.ueGroups ++ s.mgt.rowRepairs).eraseDups,
                                         records := condemnedUnits s } }) ∧
    (∀ core sub, core < 136 → sub < 16384 → s.unitFaults = [(2, core, sub), (2, core, sub)] →
      getB s (Reg.arraySub core) (16 * (sub / 4096) + 15) = false →
      ∃ t, Machine.exec (.substitutionComplete []) s = .next t ∧ t.unitFaults = [] ∧
        getB t (Reg.arraySub core) (16 * (sub / 4096) + 15) = true ∧
        getF t (Reg.arraySub core) (16 * (sub / 4096) + 13) (16 * (sub / 4096) + 8) = sub % 4096 / 64 ∧
        (s.mgt.repairs = [] → cellGet regReset t.mgt.repairs (Reg.arraySub core) = rget t (Reg.arraySub core)) ∧
        RegsBut [Reg.arraySub core, Reg.restartStatus, Reg.intStatus .glb 0] s t) ∧
    (∀ i j, i < 36 → j < 36 → j ≠ i → j / 9 = i / 9 → s.unitFaults = [] → getB s (Reg.blkCtrl .jnc i) 63 = true →
      getB s (Reg.blkCtrl .jnc i) 40 = true → getB s (Reg.blkCtrl .jnc j) 40 = false → unitLost s .jnc j = false →
      (∀ k, k < j → k / 9 = i / 9 → k ≠ i → getB s (Reg.blkCtrl .jnc k) 40 = true ∨ unitLost s .jnc k = true) →
      ∃ t, Machine.exec (.substitutionComplete [i]) s = .next t ∧ getB t (Reg.blkStatus .jnc i) 63 = true ∧
        getB t (Reg.blkCtrl .jnc i) 63 = false ∧ getB t (Reg.blkCtrl .jnc i) 40 = false ∧
        getB t (Reg.blkCtrl .jnc j) 63 = true ∧ getB t (Reg.blkCtrl .jnc j) 40 = true ∧
        getF t (Reg.blkCtrl .jnc j) 39 32 = getF s (Reg.blkCtrl .jnc i) 39 32 ∧ (blkCode .jnc, i) ∈ t.mgt.records ∧
        RegsBut [Reg.blkStatus .jnc i, Reg.blkCtrl .jnc i, Reg.blkCtrl .jnc j, Reg.restartStatus, Reg.intStatus .glb 0] s t)) ∧
  (∀ (engines : List Nat) (s : State), jobState s ≠ 4 ∨ phase s ≠ 1 →
    Machine.exec (.substitutionComplete engines) s = .next s)

/-- POR_N, a fall of VAON and a fall of an enabled rail: every register reads its reset value, every rail enable is low, the repair
records stay, HBM, scratchpads, streams, job, step, slot, cards, channels and power are those of reset, and
flash, fuses, the rows under repair, the host's memory and the waiting commands stay. RST_N and a DEVICE
write that nothing holds do the same but keep the cores' fault bits and the trip bit, and show their cause; while a power
sequence, a flash change or a fuse burn holds them they are only noted, and while POR_N is low they are discarded. A fall of a
rail that is not enabled changes nothing. HOST_RESET and a fall of VPCIE: no step waits, no card and no intake entry is left,
no host access waits, the host-facing registers read their reset values, the host's channels are empty and the others stay; a READY or RUNNING job
ends HALTED in phase 1, otherwise job, HBM and scratchpads stay; while POR_N or RST_N is low they are discarded. A reset land
that goes high is released; POR_N going high takes the straps, of which S is the two-bit number, and no other release does.
Model choices it rests on: log entries 21, 75, 112, 153, 181. -/
def Obligations.ResetsKeepTheirRecords : Prop :=
  (∀ (c : Instr) (s : State),
    c = .porN ∨ c = .pgFall .vaon ∨ (∃ x, c = .pgFall x ∧ x ≠ .vpcie ∧ s.power.en.contains x = true) →
    ∃ t, Machine.exec c s = .next t ∧ (∀ a, rget t a = regReset a) ∧
      (∀ x, landHigh t (.enable x) = false) ∧ t.heldHost = [] ∧ t.mgt.repairs = s.mgt.repairs ∧ t.hbm = [] ∧ t.chk = [] ∧ t.sp = [] ∧ t.streams = [] ∧ t.job = {} ∧
      t.step = {} ∧ t.slot = none ∧ t.next = none ∧ t.cards = [] ∧ t.notices = [] ∧ t.words = [] ∧ t.power = {} ∧
      t.stash = [] ∧ t.passes = [] ∧ t.host = s.host ∧ t.pending = s.pending ∧ t.mgt.flash = s.mgt.flash ∧
      t.mgt.fuses = s.mgt.fuses ∧ t.mgt.records = s.mgt.records ∧ t.mgt.rowRepairs = s.mgt.rowRepairs ∧ t.unbuilt = [] ∧
      t.mended = [] ∧ t.scrubbed = [] ∧ t.fill = State.reset.fill) ∧
  (∀ (x : Supply) (s : State), x ≠ .vaon → x ≠ .vpcie → s.power.en.contains x = false →
    Machine.exec (.pgFall x) s = .next s) ∧
  (∀ (c : Instr) (m : Master) (v : W64) (n : Nat) (s : State),
    c = .rstN ∧ n = 1 ∨ c = .device m v ∧ n = 2 ∧ Reaches m .mgt 0 s ∧ (m = .host ∨ isMgt m = true) →
    (mustHold s = false → s.mgt.porLow = false →
      ∃ t, Machine.exec c s = .next t ∧ getF t Reg.bringup 59 58 = n ∧
        (∀ a, a ∉ [Reg.bringup, Reg.thermal, Reg.coreStatus] → rget t a = regReset a) ∧
        (∀ x, landHigh t (.enable x) = false) ∧ t.heldHost = [] ∧ t.mgt.repairs = s.mgt.repairs ∧
        t.mgt.records = s.mgt.records ∧ t.mgt.rowRepairs = s.mgt.rowRepairs ∧ getB t Reg.thermal 62 = getB s Reg.thermal 62 ∧
        getF t Reg.coreStatus 62 61 = getF s Reg.coreStatus 62 61 ∧ getB t Reg.coreStatus 63 = false ∧ t.hbm = [] ∧
        t.chk = [] ∧ t.sp = [] ∧ t.streams = [] ∧ t.job = {} ∧ t.step = {} ∧ t.slot = none ∧ t.cards = [] ∧ t.notices = [] ∧
        t.words = [] ∧ t.power = {} ∧ t.host = s.host ∧ t.pending = s.pending ∧ t.mgt.flash = s.mgt.flash ∧
        t.mgt.fuses = s.mgt.fuses ∧ t.mgt.heldReset = none) ∧
    (s.mgt.porLow = true →
      ∃ t, Machine.exec c s = .next t ∧ RegsBut [Reg.resetCtrl, Reg.bar0Status] s t ∧
        t = { s with regs := t.regs, out := t.out, mgt := { s.mgt with rstLow := t.mgt.rstLow } }) ∧
    (mustHold s = true → s.mgt.porLow = false →
      ∃ t, Machine.exec c s = .next t ∧ t.mgt.heldReset.isSome = true ∧ t.mgt.flashOp = s.mgt.flashOp ∧
        t.mgt.burning = s.mgt.burning ∧ RegsBut [Reg.resetCtrl, Reg.bar0Status] s t ∧
        t = { s with regs := t.regs, out := t.out, mgt := t.mgt })) ∧
  (∀ (c : Instr) (s : State), (∃ k, c = .hostReset k) ∨ c = .pgFall .vpcie → s.mgt.porLow = true ∨ s.mgt.rstLow = true →
    ∃ t, Machine.exec c s = .next t ∧ t = { s with mgt := { s.mgt with perstLow := t.mgt.perstLow } }) ∧
  (∀ (c : Instr) (s : State), (∃ k, c = .hostReset k) ∨ c = .pgFall .vpcie → s.mgt.porLow = false → s.mgt.rstLow = false →
    ∃ t, Machine.exec c s = .next t ∧ t.slot = none ∧ t.next = none ∧ t.cards = [] ∧ t.intake = [] ∧
      t.heldHost = [] ∧
      (∀ a, hostFacing a = true → rget t a = regReset a) ∧
      getF t Reg.bringup 47 32 = min (getF s Reg.bringup 47 32 + 1) 65535 ∧
      (∀ ch, ch < 64 →
        if bindValid s ch = true ∧ (bindSender s ch = 0x01 ∨ bindReceiver s ch = 0x01) then
          notice t ch = {} ∧ wordCh t ch = {} ∧ rget t (Reg.mbStatus ch) = 0
        else notice t ch = notice s ch ∧ wordCh t ch = wordCh s ch) ∧
      (jobState s = 2 ∨ jobState s = 3 → jobState t = 4 ∧ phase t = 1 ∧ t.step.active = false) ∧
      (jobState s ≠ 2 → jobState s ≠ 3 → phase s = 0 →
        jobState t = jobState s ∧ t.hbm = s.hbm ∧ t.sp = s.sp ∧ t.streams = s.streams ∧ t.step = s.step ∧ t.job = s.job) ∧
      t.pending = s.pending ∧ t.mgt.flash = s.mgt.flash) ∧
  (∀ (l : ResetLand) (straps : Nat) (s : State),
    ∃ t, Machine.exec (.resetRelease l straps) s = .next t ∧
      t.mgt.porLow = (s.mgt.porLow && l != .por) ∧ t.mgt.rstLow = (s.mgt.rstLow && l != .rst) ∧
      t.mgt.perstLow = (s.mgt.perstLow && l != .perst) ∧
      t.mgt.strap = (if l = .por ∧ s.mgt.porLow = true then straps % 4 else s.mgt.strap) ∧
      strapS t = (if l = .por ∧ s.mgt.porLow = true then straps % 4 else strapS s) ∧ t = { s with mgt := t.mgt })

/-- BLOCK_GO by a management core, without DEVICE, with no job active and the named block resettable, built and disabled: its
page's registers read their reset values but for the recorded ones, its maps and its LOST bit; a core's scratchpad is zero, and
of HBM an HBS reset clears that stack alone; for every type but HBS every other page's registers stay; the reset counts as
running. Otherwise it only sets the refusal with its alert, and by another master it counts as DENIED and resets nothing.
BLOCK_RESET_DONE ends a running reset. The VPHY rail's VDONE_POLL that ends the rails of bring-up applies the repair records,
ungates the districts and, with no unit lost, maps 32 cores and 8 Junction engines of each district and 32 banks and enables
movers and ring engines. HBM_TRAINED after a
good boot, before training, with PHY and HBM power good, no lost pseudo-channel and every stack trained gives each stack a map
of 60 pseudo-channels, that of its channel map registers where they hold 60 different ones, else the first 60 in order, and
enables exactly these; with a stack untrained the device goes out of service. Behind an HBS reset it
shows the lanes that the stack repaired, or goes out of service if the stack does not train. READY once training,
the bindings' lock and power stand shows READY and the time and opens the first pair, the others waiting in order; in IDLE the
districts gate and VCORE goes to 650 mV, or with a job that waits or a restart under way the restore into RUN begins.
Model choices it rests on: log entries 75, 111, 123, 133, 152. -/
def Obligations.BlockResetsAndBringUp : Prop :=
  (∀ (m : Master) (v : W64) (ty : Blk) (i : Nat) (s : State), Reaches m .mgt 0 s → isMgt m = true → fld v 63 63 = 0 →
    ty = blkOf (fld v 27 24) → i = fld v 15 0 →
    (resettable ty = true → i < built ty → blockDisabled s ty i = true → jobActive s = false →
      ∃ t, Machine.exec (.blockGo m v) s = .next t ∧ getB t Reg.resetStatus 62 = true ∧
        getF t Reg.resetStatus 15 0 = min (getF s Reg.resetStatus 15 0 + 1) 65535 ∧
        (∀ a, a < 0x20000000 → regType a = ty → regInst a = i → recorded a = false →
          a ∉ [Reg.blkStatus ty i, Reg.blkCtrl ty i] → rget t a = regReset a) ∧
        getB t (Reg.blkStatus ty i) 63 = getB s (Reg.blkStatus ty i) 63 ∧
        (ty = .core ∨ ty = .jnc ∨ ty = .hpb → getF t (Reg.blkCtrl ty i) 40 32 = getF s (Reg.blkCtrl ty i) 40 32) ∧
        (ty ≠ .hbs → (∀ a, 0x20000000 ≤ a ∨ regType a ≠ ty ∨ regInst a ≠ i ∨ recorded a = true →
          a ∉ [Reg.resetStatus, Reg.resetCtrl] → rget t a = rget s a) ∧ t.hbm = s.hbm) ∧
        (∀ a, memGet t.hbm a = if ty = .hbs ∧ stackOf s a = i then 0 else memGet s.hbm a) ∧
        (∀ a, memGet t.sp a = if ty = .core ∧ a / 524288 = i then 0 else memGet s.sp a)) ∧
    (resettable ty = false ∨ built ty ≤ i ∨ blockDisabled s ty i = false ∨ jobActive s = true →
      ∃ t, Machine.exec (.blockGo m v) s = .next t ∧ getB t Reg.resetStatus 63 = true ∧
        RegsBut [Reg.resetStatus, Reg.resetCtrl] s t ∧ t = { s with regs := t.regs, out := s.out ++ [.alert 0x1301] })) ∧
  (∀ (m : Master) (v : W64) (s : State), Reaches m .mgt 0 s → isMgt m = false → fld v 63 63 = 0 →
    ∃ t, Machine.exec (.blockGo m v) s = .next t ∧ getB t Reg.bar0Status 62 = true ∧
      RegsBut [Reg.resetCtrl, Reg.bar0Status] s t ∧ t = { s with regs := t.regs, out := s.out ++ [.alert 0x1402] }) ∧
  (∀ s : State, getB s Reg.resetStatus 62 = true →
    ∃ t, Machine.exec .blockResetDone s = .next t ∧ getB t Reg.resetStatus 62 = false ∧ getB t Reg.resetStatus 61 = true ∧
      RegsBut [Reg.resetStatus] s t ∧ t = { s with regs := t.regs }) ∧
  (∀ (tr : HbmTraining) (s : State), bootState s = 1 → s.mgt.tripped = false → s.power.seq = .none →
    getB s Reg.bringup 61 = false → s.power.pg.contains .vphy = true → s.power.pg.contains .vhbm = true →
    (∀ l ∈ tr.lanesRepaired, l.1 < 384) →
    (tr.untrained = [] → tr.lost = [] → (∀ r ∈ s.mgt.records, r.1 ≠ 6) →
      (∀ c, c < 384 → getB s (Reg.hbcState c) 62 = false) →
      ∃ t, Machine.exec (.hbmTrained tr) s = .next t ∧ getB t Reg.bringup 61 = true ∧ hbmN t = 360 ∧ hbmProfile t = 0 ∧
        (∀ st m, st < 6 → m = (keptMap s st 60).getD (List.range 60) →
          (∀ e, e < 60 → chmapEntry t st e = m.getD e 0) ∧
          ∀ c, c < 64 → getB t (Reg.blkCtrl .hbc (64 * st + c)) 63 = m.contains c) ∧ t.sp = s.sp ∧
        t.streams = s.streams ∧ t.job = s.job) ∧
    (tr.untrained ≠ [] → ∃ t, Machine.exec (.hbmTrained tr) s = .next t ∧ getB t Reg.bringup 61 = true ∧
      getB t Reg.bringup 62 = true)) ∧
  (∀ (tr : HbmTraining) (s : State) (i : Nat), i = getF s Reg.resetCtrl 15 0 → retrains s = true →
    ((∀ k ∈ tr.lost, k / 64 ≠ i) → tr.untrained.contains i = false →
      ∃ t, Machine.exec (.hbmTrained tr) s = .next t ∧ t = { s with regs := t.regs } ∧
        RegsBut ((tr.lanesRepaired.filter fun l => l.1 / 64 == i).map fun l => Reg.hbcState l.1) s t) ∧
    (tr.untrained.contains i = true → ∃ t, Machine.exec (.hbmTrained tr) s = .next t ∧ getB t Reg.bringup 62 = true)) ∧
  (∀ (us : Nat) (s : State), getB s Reg.bringup 63 = false → getB s Reg.bringup 61 = true → getB s (Reg.lock .mbx 0) 0 = true →
    s.power.seq = .none →
    ∃ t, Machine.exec (.ready us) s = .next t ∧ getB t Reg.bringup 63 = true ∧ getF t Reg.bringup 31 0 = us % 2 ^ 32 ∧
      (s.mgt.tripped = false → pwrState s = 1 → t.power.districts = List.replicate 4 false ∧ pwrState t = 1 ∧
        (if runNeeded s = true then t.power.seq = .restoreRun
         else t.power.seq = .none ∧ (getB s Reg.voltStatus 58 = false → coreTarget t = 650))) ∧
      (s.mgt.tripped = true ∨ pwrState s ≠ 1 → t.power = s.power) ∧
      (getB s Reg.bringup 62 = true → t.mgt.opening = [] ∧ ∀ p, getB t (Reg.underpass p) 0 = getB s (Reg.underpass p) 0) ∧
      (getB s Reg.bringup 62 = false → closeTrigger s = false → jobState s = 0 → pairReady s 0 = true →
        (∀ k, k < 3 → getB s (Reg.underpass (2 * k)) 0 = false ∧ getB s (Reg.underpass (2 * k)) 1 = false) →
        (∀ p, p < 6 → getF s (Reg.linkCtrl p) 1 0 ≠ 3) →
        getB t (Reg.underpass 0) 0 = true ∧ linkState t 0 = 2 ∧ linkState t 1 = 2 ∧ t.mgt.opening = [1, 2] ∧
          getB t (Reg.underpass 2) 0 = false ∧ getB t (Reg.underpass 4) 0 = false) ∧
      RegsBut ([Reg.bringup, Reg.pwrStatus] ++
        ((List.range 6).map fun p => [Reg.underpass p, Reg.linkStatus p, Reg.intStatus .nlp p]).flatten) s t ∧
      t = { s with regs := t.regs, power := t.power, ports := t.ports, out := t.out,
                   mgt := { s.mgt with opening := t.mgt.opening } }) ∧
  (∀ (e : Bool) (w : AvsWrite) (s : State), s.power.seq = .bringUp → avsOf s .vphy = some w → w.acked = true →
    (∀ x ∈ [Supply.vsram, .vcore, .vphy], s.power.en.contains x = true ∧ s.power.pg.contains x = true) →
    s.power.vdone.contains .vsram = true → s.power.vdone.contains .vcore = true →
    (∀ c ∈ s.mgt.repairs, recorded c.1 = true) → (s.mgt.repairs.map (·.1)).Nodup →
    (∀ ty i, ty ∈ [Blk.core, .jnc, .hpb] → i < built ty → unitLost s ty i = false) →
    ∃ t, Machine.exec (.vdonePoll .vphy true e) s = .next t ∧ t.power.seq = .none ∧
      t.power.districts = List.replicate 4 true ∧ (∀ c ∈ s.mgt.repairs, rget t c.1 = c.2) ∧
      (∀ d c, d < 4 → c < 34 → getB t (Reg.blkCtrl .core (34 * d + c)) 63 = decide (c < 32) ∧
        getB t (Reg.blkCtrl .core (34 * d + c)) 40 = decide (c < 32) ∧
        (c < 32 → getF t (Reg.blkCtrl .core (34 * d + c)) 39 32 = 32 * d + c)) ∧
      (∀ d j, d < 4 → j < 8 → getB t (Reg.blkCtrl .jnc (9 * d + j)) 63 = true ∧
        getF t (Reg.blkCtrl .jnc (9 * d + j)) 39 32 = 8 * d + j) ∧
      (∀ i, i < 32 → getB t (Reg.blkCtrl .hpb i) 63 = true ∧ getF t (Reg.blkCtrl .hpb i) 39 32 = i) ∧
      (∀ i, i < 8 → getB t (Reg.blkCtrl .mov i) 63 = true) ∧ (∀ i, i < 3 → getB t (Reg.blkCtrl .rng i) 63 = true) ∧
      t = { s with regs := t.regs, sp := t.sp, spFix := t.spFix, acc := t.acc, ksteps := t.ksteps, power := t.power,
                   ports := t.ports, out := t.out })

/-- BOOT with the lands high and the boot still to be verified shows each slot's first failed check; with no valid slot it
reports BOOT_FAILED and changes nothing else; with a slot to load and a good core, the slot's header and body stand at the
start of the SRAM, its version is shown, the lowest good core is active and released, and from all rails off, with no trip,
VSRAM comes up at 775 mV. SRAM_UNCORRECTABLE, MGT_WATCHDOG_EXPIRY with the watchdog and its clock on, and TAKEOVER by the active core, while it runs: the
active core is marked with the cause and held, any running step ends, and either the takeover runs, or, with both cores
faulted, the device is out of service. While no core runs an SRAM error changes nothing. TAKEOVER_COMPLETE zeroes the data
region, makes the other core active and releases it. KICK by the active core sets the watchdog's time; by another master it is
counted as DENIED.
Model choices it rests on: log entries 10, 79. -/
def Obligations.CoresBootAndTakeOver : Prop :=
  (∀ (s : State) (fa fb : Nat), s.mgt.porLow = false → s.mgt.rstLow = false → bootState s = 0 → fa = slotFail s 0 →
    fb = slotFail s 1 →
    ∃ t, Machine.exec .boot s = .next t ∧ getF t Reg.bootStatus 31 28 = fa ∧ getF t Reg.bootStatus 27 24 = fb ∧
      getB t Reg.bootStatus 58 = (fa == 0) ∧ getB t Reg.bootStatus 57 = (fb == 0) ∧ t.mgt.flash = s.mgt.flash ∧
      (bootSlot s fa fb = none → bootState t = 2 ∧ RegsBut [Reg.bootStatus] s t ∧
        t = { s with regs := t.regs, out := s.out ++ [.alert 0x1104] }) ∧
      ∀ k, bootSlot s fa fb = some k → (coreBad s 0 = true → coreBad s 1 = false) →
        bootState t = 1 ∧ t.hbm = s.hbm ∧ getF t Reg.bootStatus 59 59 = k ∧ getF t Reg.bootStatus 37 32 = leAt (slotHeader s k) 8 4 ∧
        (∀ i, i < 512 + leAt (slotHeader s k) 0xC 4 → memGet t.mgt.sram i = memGet s.mgt.flash (k * 0x200000 + i)) ∧
        (∀ i, 0x100000 ≤ i → memGet t.mgt.sram i = memGet s.mgt.sram i) ∧ activeCore t = b2n (coreBad s 0) ∧
        (if coreBad s 0 = true then t.mgt.held1 = false else t.mgt.held0 = false) ∧ t.mgt.watchdogOn = true ∧
        (s.power.en = [] → s.mgt.tripped = false → t.power.seq = .bringUp ∧ t.power.en = [.vsram] ∧ avsOf t .vsram = some { mv := 775 })) ∧
  (∀ (c : Instr) (cause k : Nat) (m : Master) (v : W64) (w : Nat) (s : State), coreRuns s = true → k = activeCore s →
    c = .sramUncorrectable w ∧ cause = 1 ∨ c = .mgtWatchdogExpiry ∧ cause = 2 ∧ s.mgt.watchdogOn = true ∧ s.power.oscillator = true ∨
      c = .takeover m v ∧ cause = 3 ∧ isActiveMgt s m = true ∧ Reaches m .mgt 0 s →
    ∃ t, Machine.exec c s = .next t ∧ getF t Reg.coreStatus 60 58 = cause ∧ coreBad t k = true ∧
      coreBad t (1 - k) = coreBad s (1 - k) ∧ activeCore t = k ∧
      (if k = 0 then t.mgt.held0 = true else t.mgt.held1 = true) ∧ t.mgt.watchdogOn = false ∧ t.step.active = false ∧
      (coreBad s (1 - k) = false → t.mgt.takeoverRunning = true ∧ getF t Reg.jobStatus 47 32 = 0x0E05) ∧
      (coreBad s (1 - k) = true → getB t Reg.bringup 62 = true ∧ getF t Reg.jobStatus 47 32 = 0x0E06) ∧ t.sp = s.sp ∧
      t.streams = s.streams) ∧
  (∀ (w : Nat) (s : State), coreRuns s = false → Machine.exec (.sramUncorrectable w) s = .next s) ∧
  (∀ s : State, s.mgt.watchdogOn = false ∨ s.power.oscillator = false → Machine.exec .mgtWatchdogExpiry s = .next s) ∧
  (∀ s : State, s.mgt.takeoverRunning = true →
    ∃ t, Machine.exec .takeoverComplete s = .next t ∧ activeCore t = 1 - activeCore s ∧
      (if activeCore s = 0 then t.mgt.held1 = false else t.mgt.held0 = false) ∧ t.mgt.takeoverRunning = false ∧
      t.mgt.watchdogOn = true ∧
      (∀ i, memGet t.mgt.sram i = if 0x100000 ≤ i ∧ i < 0x200000 then 0 else memGet s.mgt.sram i) ∧
      RegsBut [Reg.coreStatus] s t ∧ t = { s with regs := t.regs, mgt := t.mgt }) ∧
  (∀ (m : Master) (v : W64) (s : State), Reaches m .mgt 0 s →
    (isActiveMgt s m = true →
      ∃ t, Machine.exec (.kick m v) s = .next t ∧ getF t Reg.wdt 15 0 = fld v 15 0 ∧
        getF t Reg.wdt 63 16 = getF s Reg.wdt 63 16 ∧ RegsBut [Reg.wdt] s t ∧ t = { s with regs := t.regs }) ∧
    (isActiveMgt s m = false →
      ∃ t, Machine.exec (.kick m v) s = .next t ∧ getB t Reg.bar0Status 62 = true ∧ RegsBut [Reg.bar0Status] s t ∧
        t = { s with regs := t.regs, out := s.out ++ [.alert 0x1402] }))

/-- SVN_ADVANCE while an image runs whose version is above the fused one starts the burn, and else starts none;
FUSE_BURN_DONE leaves the fused version at the larger of both. FLASH_PROGRAM, FLASH_ERASE and FLASH_READ with no operation
running start the operation at their aligned address; a program or erase of the running slot starts nothing and sets the
refusal; while an operation runs they only write their register. FLASH_DONE with no reset held: a program stores exactly the 8
bytes and an erase zeroes exactly its 4,096 bytes, a read puts the 8 bytes in the data register and changes no flash; a program
or read advances ADDR by 8; DONE is set and BUSY clear. A program or erase of the data area alone changes the repair records, to
what that area then says.
Model choices it rests on: log entries 8, 75. -/
def Obligations.FlashAndFusesAct : Prop :=
  (∀ (m : Master) (v : W64) (s : State) (n : Nat), Reaches m .mgt 0 s → n = getF s Reg.bootStatus 37 32 →
    Machine.exec (.svnAdvance m v) s = .next
      (if bootState s = 1 ∧ s.mgt.fuses.svn < n ∧ s.mgt.burning = none then
        { s with mgt := { s.mgt with burning := some n } } else s)) ∧
  (∀ (s : State) (n : Nat), s.mgt.burning = some n → s.mgt.heldReset = none →
    Machine.exec .fuseBurnDone s = .next
      { s with mgt := { s.mgt with burning := none, fuses := { s.mgt.fuses with svn := max s.mgt.fuses.svn n } } }) ∧
  (∀ (m : Master) (v : W64) (c : Instr) (op a : Nat) (s : State), Reaches m .mgt 0 s →
    (c, op) ∈ [(Instr.flashProgram m v, 0), (Instr.flashErase m v, 1), (Instr.flashRead m v, 2)] →
    a = (if op = 1 then fld v 22 0 / 4096 * 4096 else fld v 22 0 / 8 * 8) →
    (s.mgt.flashOp = none → (op = 2 ∨ inRunningSlot s a = false) →
      ∃ t, Machine.exec c s = .next t ∧ t.mgt = { s.mgt with flashOp := some (op, a, rget s Reg.flashData) } ∧
        getB t Reg.flashCtrl 62 = true ∧ getF t Reg.flashCtrl 22 0 = fld v 22 0 ∧ RegsBut [Reg.flashCtrl] s t ∧
        t = { s with regs := t.regs, mgt := t.mgt }) ∧
    (s.mgt.flashOp = none → op ≠ 2 → inRunningSlot s a = true →
      ∃ t, Machine.exec c s = .next t ∧ getB t Reg.flashCtrl 60 = true ∧ RegsBut [Reg.flashCtrl] s t ∧
        t = { s with regs := t.regs, out := s.out ++ [.alert 0x1105] }) ∧
    (s.mgt.flashOp ≠ none →
      ∃ t, Machine.exec c s = .next t ∧ RegsBut [Reg.flashCtrl] s t ∧ t = { s with regs := t.regs })) ∧
  (∀ (s : State) (op a : Nat) (d : W64), s.mgt.flashOp = some (op, a, d) → s.mgt.heldReset = none →
    ∃ t, Machine.exec .flashDone s = .next t ∧ t.mgt.flashOp = none ∧ getB t Reg.flashCtrl 62 = false ∧
      getB t Reg.flashCtrl 61 = true ∧
      (op = 0 → memNat t.mgt.flash a 8 = d.toNat ∧
        ∀ i, i < a ∨ a + 8 ≤ i → memGet t.mgt.flash i = memGet s.mgt.flash i) ∧
      (op = 1 → ∀ i, memGet t.mgt.flash i = if a ≤ i ∧ i < a + 4096 then 0 else memGet s.mgt.flash i) ∧
      (op = 2 → rget t Reg.flashData = BitVec.ofNat 64 (memNat s.mgt.flash a 8) ∧ t.mgt.flash = s.mgt.flash) ∧
      getF t Reg.flashCtrl 22 0 =
        (if op = 1 then getF s Reg.flashCtrl 22 0 else (getF s Reg.flashCtrl 22 0 + 8) % 2 ^ 23) ∧
      RegsBut [Reg.flashCtrl, Reg.flashData] s t ∧
      (op = 2 ∨ a < 0x401000 →
        t = { s with regs := t.regs, mgt := { s.mgt with flash := t.mgt.flash, flashOp := none } }) ∧
      (op ≤ 1 → 0x401000 ≤ a → t.mgt.records = Config.condemnedIn (dataArea t.mgt.flash) ∧
        t.mgt.rowRepairs = Config.rowRepairsIn (dataArea t.mgt.flash)) ∧
      t = { s with regs := t.regs, mgt := { s.mgt with flash := t.mgt.flash, flashOp := none, records := t.mgt.records,
                                                       rowRepairs := t.mgt.rowRepairs, repairs := t.mgt.repairs } })

/-- I2C_WRITE while the port answers (the debug port in SLEEP too): an offset that is no register is not acknowledged; 8 bytes for MGT_BMC_REQ store both
its fields, set NEW and the BMC interrupt bit; an offset that the management port may not write is acknowledged and changes
nothing; the debug port's write is a register write of the debug page. I2C_READ of the management port returns the register, or
zeros where it may not read; of the debug port the debug page's register. I2C_ADDRESS_MATCH acknowledges 0x60 while the MGMT
domain is on, and no address but that and the management port's own, which with the sampling clock running changes nothing.
SENSOR_SAMPLE while sampled: each die and stack register shows its temperature
within 0 to 255 and HOT above 85; the warning shows a rise through its level; a level reached in two samples running trips the
device at stage 2, which ends the step, empties HBM and scratchpads and drops the rails, and holds at stage 1 while a sensor
reads at least five degrees below it, and lowers VCORE from where the rail goes or stands, to no less than 650 mV.
Model choices it rests on: log entries 80, 118. -/
def Obligations.ManagementPortsAndSensors : Prop :=
  (∀ (p : I2cPort) (off : Nat) (data : List Byte) (s : State), i2cReady s p = true → off % 8 ≠ 0 →
    Machine.exec (.i2cWrite p off data) s = .next { s with out := s.out ++ [.i2cAck false] } ∧
    Machine.exec (.i2cRead p off) s = .next { s with out := s.out ++ [.i2cAck false] }) ∧
  (∀ (off : Nat) (data : List Byte) (s : State), off % 8 = 0 → data.length = 8 →
    (i2cReady s .management = true → off = 0x130 →
      ∃ t, Machine.exec (.i2cWrite .management off data) s = .next t ∧ getB t Reg.bmcReq 63 = true ∧
        getF t Reg.bmcReq 47 32 = leAt data 4 2 ∧ getF t Reg.bmcReq 31 0 = leAt data 0 4 ∧
        getB t (Reg.intStatus .mgt 0) 8 = true ∧ RegsBut [Reg.bmcReq, Reg.intStatus .mgt 0] s t ∧
        t = { s with regs := t.regs, out := t.out }) ∧
    (i2cReady s .management = true → i2cWrites s off = false →
      Machine.exec (.i2cWrite .management off data) s = .next { s with out := s.out ++ [.i2cAck true] }) ∧
    (i2cReady s .debug = true → Machine.exec (.i2cWrite .debug off data) s =
      Machine.exec (.registerWrite .dbg false (blkCode .dbg * 0x2000000 + off) 8 (BitVec.ofNat 64 (leNat data)))
        { s with out := s.out ++ [.i2cAck true] })) ∧
  (∀ (off : Nat) (s : State), off % 8 = 0 →
    (i2cReady s .management = true → i2cReads s off = true → off ≠ 0x100 → Machine.exec (.i2cRead .management off) s =
      .next { s with out := s.out ++ [.readBytes (leBytes 8 (regView s .mgt 0 off).toNat)] }) ∧
    (i2cReady s .management = true → i2cReads s off = false → Machine.exec (.i2cRead .management off) s =
      .next { s with out := s.out ++ [.readBytes (List.replicate 8 0)] }) ∧
    (i2cReady s .debug = true → off ≠ 0x120 → off < 65536 → Machine.exec (.i2cRead .debug off) s =
      .next { s with out := s.out ++ [.readBytes (leBytes 8 (regView s .dbg 0 off).toNat)] })) ∧
  (∀ (a : Nat) (s : State), a ≠ 0x58 + strapS s →
    Machine.exec (.i2cAddressMatch a) s =
      .next { s with out := s.out ++ [.i2cAck (decide (a = 0x60 ∧ pwrState s ≠ 3))] }) ∧
  (∀ s : State, s.power.oscillator = true →
    Machine.exec (.i2cAddressMatch (0x58 + strapS s)) s = .next { s with out := s.out ++ [.i2cAck true] }) ∧
  (∀ (die stack : List Int) (s : State) (hot st1 st2 : Bool), die.length = 16 → s.power.oscillator = true →
    pwrState s ≠ 3 →
    hot = die.any (fun x => decide (min (getF s Reg.thermal 47 40) s.mgt.fuses.stage1 ≤ tempOf x)) →
    st1 = (atLevel s.mgt.fuses.stage1 die).any s.mgt.hot1.contains →
    st2 = ((atLevel s.mgt.fuses.stage2 die).any s.mgt.hot2.contains || (atLevel 105 stack).any s.mgt.hotStacks.contains) →
    ∃ t, Machine.exec (.sensorSample die stack) s = .next t ∧
      (∀ i, i < 16 → getF t (Reg.dieTemp (i / 4)) (16 * (i % 4) + 7) (16 * (i % 4)) = tempOf (die.getD i 0)) ∧
      (∀ i, i < 6 → getF t (Reg.hbsTemp i) 7 0 = tempOf (stack.getD i 0) ∧
        getB t (Reg.hbsTemp i) 8 = decide (85 < tempOf (stack.getD i 0))) ∧
      (hot = true → s.mgt.warned = false → getB t (Reg.intStatus .mgt 0) 9 = true) ∧ t.mgt.warned = hot ∧
      t.mgt.flash = s.mgt.flash ∧ t.streams = s.streams ∧
      (s.mgt.tripped = false → st2 = true → t.mgt.tripped = true ∧ t.mgt.tripLand = true ∧ getB t Reg.thermal 62 = true ∧
        t.hbm = [] ∧ t.sp = [] ∧ t.step.active = false ∧
        (∀ x ∈ [Supply.vcore, .vsram, .vphy, .vhbm], t.power.en.contains x = false) ∧
        .land "THERM_TRIP_N" false ∈ t.out.drop s.out.length) ∧
      (s.mgt.tripped = false → st2 = false → t.mgt.tripped = false ∧ t.hbm = s.hbm ∧ t.sp = s.sp ∧ t.step = s.step ∧
        getB t Reg.thermal 63 = ((st1 || getB s Reg.thermal 63) &&
          die.any fun x => decide (s.mgt.fuses.stage1 ≤ tempOf x + 5)) ∧
        (getB t Reg.thermal 63 = true → 650 < heldCore s → s.power.en.contains .vcore = true →
          getB s Reg.voltStatus 58 = false → 650 ≤ heldCore t ∧ heldCore t < heldCore s)))

/-- SLEEP_REQUEST and STANDBY_REQUEST in IDLE, with no job, no restart, no trip and no sequence, close every Underpass, with
CAUSE 0, end the opens of bring-up and start the entry; otherwise without a sequence they are refused; in a restore they are held.
ENTRY_SEQUENCE_COMPLETE with nothing held: SLEEP with the three core and PHY rails, gates, the sampling clock and the clocks of the
HBM, Noloc and management crossings off, no link up,
the scratchpads lost and HBM kept; or STANDBY with HBM and the SRAM lost too and both cores held. With a wake held the restore
begins at once, out of STANDBY by a reset. RESTORE_COMPLETE with every rail up and nothing held: IDLE, scratchpads zeroed,
the crossings' clocks running, VCORE asked to 650 mV; or, for a job that waits or runs or a restart under way, on to the restore into RUN, whose end reaches
RUN once its set point has settled; before that it changes nothing. IDLE_ENTRY in RUN with no job and no restart enters IDLE and
asks for VCORE 650 mV, and does nothing otherwise. RAIL_FAIL in a restore whose rails are not up, or whose set point has not
settled, drops the rails, the sequence and what is held, with its bit, and leaves the device in SLEEP.
Model choices it rests on: log entries 83, 105, 133, 164. -/
def Obligations.PowerStatesFollowRequests : Prop :=
  (∀ (m : Master) (v : W64) (c : Instr) (q : Seq) (h : HeldReq) (s : State), Reaches m .mgt 0 s →
    c = .sleepRequest m v ∧ q = .enterSleep ∧ h = .sleep ∨ c = .standbyRequest m v ∧ q = .enterStandby ∧ h = .standby →
    (s.power.seq = .none → pwrState s = 1 → jobActive s = false → phase s = 0 → s.mgt.tripped = false →
      ∃ t, Machine.exec c s = .next t ∧ t.power.seq = q ∧ getF t Reg.pwrStatus 59 58 = 1 ∧ pwrState t = 1 ∧
        (∀ k, k < 3 → getB t (Reg.underpass (2 * k)) 0 = false ∧ getB t (Reg.underpass (2 * k)) 1 = false ∧
          getF t (Reg.underpass (2 * k)) 3 2 = 0) ∧
        t.hbm = s.hbm ∧ t.sp = s.sp ∧ t.mgt = { s.mgt with opening := [] }) ∧
    (s.power.seq = .none → (pwrState s ≠ 1 ∨ jobActive s = true ∨ phase s ≠ 0 ∨ s.mgt.tripped = true) →
      ∃ t, Machine.exec c s = .next t ∧ getB t Reg.pwrStatus 56 = true ∧ RegsBut [Reg.pwrStatus, Reg.pwrCtrl] s t ∧
        t = { s with regs := t.regs, out := s.out ++ [.alert 0x1206] }) ∧
    (s.power.seq = .restore ∨ s.power.seq = .restoreRun →
      ∃ t, Machine.exec c s = .next t ∧ t.power = { s.power with held := some h } ∧ getB t Reg.pwrStatus 57 = true ∧
        RegsBut [Reg.pwrStatus, Reg.pwrCtrl] s t ∧ t = { s with regs := t.regs, power := t.power })) ∧
  (∀ s : State, s.mgt.heldReset = none → s.power.held = none → s.ports.length = 6 →
    (s.power.seq = .enterSleep →
      ∃ t, Machine.exec .entrySequenceComplete s = .next t ∧ pwrState t = 2 ∧ t.hbm = s.hbm ∧ t.mgt = s.mgt ∧
        t.power.seq = .none ∧ t.power.oscillator = false ∧ t.power.districts = List.replicate 4 false ∧
        (∀ i, i < 384 → (crossingAt t .hbc i).clockOn = false) ∧ (∀ p, p < 6 → (crossingAt t .nlp p).clockOn = false) ∧
        (crossingAt t .mgt 0).clockOn = false ∧ t.power.stackPhys = List.replicate 6 false ∧ t.sp = [] ∧ t.acc = [] ∧ (∀ p, p < 6 → linkState t p = 5) ∧
        (∀ x ∈ [Supply.vcore, .vsram, .vphy], t.power.en.contains x = false) ∧
        t.power.en.contains .vhbm = s.power.en.contains .vhbm ∧ t.streams = s.streams ∧ t.job = s.job) ∧
    (s.power.seq = .enterStandby →
      ∃ t, Machine.exec .entrySequenceComplete s = .next t ∧ pwrState t = 3 ∧ t.hbm = [] ∧ t.chk = [] ∧ t.mgt.sram = [] ∧
        t.mgt.held0 = true ∧ t.mgt.held1 = true ∧ t.power.seq = .none ∧ t.sp = [] ∧
        (∀ x ∈ [Supply.vcore, .vsram, .vphy, .vhbm], t.power.en.contains x = false) ∧ t.mgt.flash = s.mgt.flash)) ∧
  (∀ (s : State) (src : WakeSource), s.mgt.heldReset = none → s.power.held = some (.wake src) →
    (s.power.seq = .enterSleep →
      ∃ t, Machine.exec .entrySequenceComplete s = .next t ∧ pwrState t = 2 ∧ t.power.seq = .restore ∧ t.power.held = none ∧
        t.power.oscillator = true ∧ avsOf t .vsram = some { mv := 775 } ∧ getF t Reg.pwrStatus 54 52 = wakeCode src ∧
        getF t Reg.pwrStatus 31 16 = min (getF s Reg.pwrStatus 31 16 + 1) 65535 ∧ t.hbm = s.hbm ∧ t.sp = []) ∧
    (s.power.seq = .enterStandby → s.mgt.porLow = false → s.mgt.flashOp = none → s.mgt.burning = none →
      ∃ t, Machine.exec .entrySequenceComplete s = .next t ∧ getF t Reg.bringup 59 58 = 3 ∧
        getF t Reg.pwrStatus 54 52 = wakeCode src ∧ pwrState t = 1 ∧ t.hbm = [] ∧ t.sp = [] ∧ t.streams = [])) ∧
  (∀ s : State, s.mgt.heldReset = none → s.power.held = none →
    (s.power.seq = .restore → railsUp s = true → runNeeded s = false → s.mgt.tripped = false → s.heldHost = [] →
      ∃ t, Machine.exec .restoreComplete s = .next t ∧ pwrState t = 1 ∧ t.power.seq = .none ∧ t.sp = [] ∧ t.hbm = s.hbm ∧
        (getB s Reg.voltStatus 58 = false → coreTarget t = 650) ∧ t.power.districts = List.replicate 4 false ∧ (∀ c, c < 136 → getF t (Reg.spPower c) 47 32 = 0) ∧
        (∀ i, i < 384 → (crossingAt t .hbc i).clockOn = true) ∧ (∀ p, p < 6 → (crossingAt t .nlp p).clockOn = true) ∧
        (∀ p, p < 6 → (port s p).role ≠ 3 → getB t (Reg.linkStatus p) 59 = true) ∧ t.streams = s.streams ∧ t.job = s.job) ∧
    (s.power.seq = .restore → railsUp s = true → runNeeded s = true → s.heldHost = [] →
      ∃ t, Machine.exec .restoreComplete s = .next t ∧ pwrState t = 1 ∧ t.power.seq = .restoreRun ∧
        getF t Reg.pwrStatus 54 52 = 5 ∧ t.sp = [] ∧ t.hbm = s.hbm) ∧
    (s.power.seq = .restoreRun → railSet s = true →
      ∃ t, Machine.exec .restoreComplete s = .next t ∧ pwrState t = 0 ∧ t.power.seq = .none ∧ t.job.startHeld = false ∧
        t.power.districts = List.replicate 4 true ∧
        t.sp = [] ∧ t.hbm = s.hbm ∧ t.streams = s.streams) ∧
    (s.power.seq = .restore ∧ railsUp s = false ∨ s.power.seq = .restoreRun ∧ railSet s = false ∨
        s.power.seq ≠ .restore ∧ s.power.seq ≠ .restoreRun → Machine.exec .restoreComplete s = .next s)) ∧
  (∀ s : State,
    (pwrState s = 0 → s.power.seq = .none → jobActive s = false → phase s = 0 → s.mgt.tripped = false →
      ∃ t, Machine.exec .idleEntry s = .next t ∧ pwrState t = 1 ∧ (getB s Reg.voltStatus 58 = false → coreTarget t = 650) ∧ t.power.districts = List.replicate 4 false ∧
        RegsBut [Reg.pwrStatus] s t ∧ t = { s with regs := t.regs, power := t.power, out := t.out }) ∧
    (pwrState s ≠ 0 ∨ s.power.seq ≠ .none ∨ jobActive s = true ∨ phase s ≠ 0 ∨ s.mgt.tripped = true →
      Machine.exec .idleEntry s = .next s)) ∧
  (∀ s : State, s.mgt.heldReset = none →
    (s.power.seq = .restore ∧ railsUp s = false ∨ s.power.seq = .restoreRun ∧ railSet s = false →
      ∃ t, Machine.exec .railFail s = .next t ∧ getB t Reg.pwrStatus 55 = true ∧ pwrState t = 2 ∧
        t.power.seq = .none ∧ t.power.held = none ∧ getB t Reg.pwrStatus 57 = false ∧
        (∀ x ∈ [Supply.vcore, .vsram, .vphy], t.power.en.contains x = false) ∧ avsOf t .vcore = none ∧
        avsOf t .vsram = none ∧ avsOf t .vphy = none ∧ t.power.oscillator = false ∧ getB t (Reg.intStatus .mgt 0) 10 = true ∧
        (∀ p, p < 6 → linkState t p = 5 ∧ getB t (Reg.underpass p) 0 = false) ∧
        RegsBut ([Reg.pwrStatus, Reg.intStatus .mgt 0] ++
          ((List.range 6).map fun p => [Reg.underpass p, Reg.linkStatus p, Reg.intStatus .nlp p]).flatten) s t ∧
        t.hbm = s.hbm ∧ t.job = s.job) ∧
    (¬ (s.power.seq = .restore ∧ railsUp s = false) → ¬ (s.power.seq = .restoreRun ∧ railSet s = false) →
      Machine.exec .railFail s = .next s))

/-- WAKE_REQUEST, NOLOC_ACTIVITY of a port whose Underpass is open, LOMRA_WAKE_PATTERN, PCIE_D0 and a match of the management
port's address while the sampling clock is stopped, of an enabled source: in SLEEP without a sequence a source that wakes from
SLEEP begins the restore with its code in LAST_WAKE; in IDLE a source that wakes from IDLE begins the restore into RUN, in which
stage 1 and the limiter keep VCORE from rising; in a restore, and in an entry from or into a state that the source wakes from,
the request is held; in STANDBY a source that wakes from it leaves by a reset with the cause STANDBY, while no flash change or
fuse burn runs. From any other state no power state or sequence
and nothing of memory, job or registers changes. Activity of a port whose Underpass is closed changes nothing.
Model choices it rests on: log entries 105, 164. -/
def Obligations.WakeSourcesWake : Prop :=
  (∀ (c : Instr) (src : WakeSource) (s : State), Wakes c src s → wakeEnabled s src = true →
    (s.power.seq = .none → s.mgt.tripped = false → pwrState s = 2 → wakesFrom 2 src = true →
      ∃ t, Machine.exec c s = .next t ∧ t.power.seq = .restore ∧ t.power.oscillator = true ∧ pwrState t = 2 ∧
        getF t Reg.pwrStatus 59 58 = 2 ∧ getF t Reg.pwrStatus 54 52 = wakeCode src ∧ RegsBut [Reg.pwrStatus] s t ∧
        crossingAt t .mgt 0 = { clockOn := true, wake := false } ∧
        (∀ k, k ≠ crossingKey .mgt 0 → cellGet runningCrossing t.crossings k = cellGet runningCrossing s.crossings k) ∧
        t = { s with regs := t.regs, power := t.power, out := t.out, crossings := t.crossings }) ∧
    (s.power.seq = .none → s.mgt.tripped = false → pwrState s = 1 → wakesFrom 1 src = true →
      ∃ t, Machine.exec c s = .next t ∧ t.power.seq = .restoreRun ∧ pwrState t = 1 ∧
        (getB s Reg.voltStatus 58 = false → coreTarget t =
          (if stage1On s = true ∨ s.power.limiting = true then min (s.power.runSet.getD 750) (coreTarget s)
            else s.power.runSet.getD 750)) ∧
        getF t Reg.pwrStatus 59 58 = 2 ∧ getF t Reg.pwrStatus 54 52 = wakeCode src ∧ RegsBut [Reg.pwrStatus] s t ∧
        t = { s with regs := t.regs, power := t.power, out := t.out }) ∧
    (s.power.seq = .restore ∨ s.power.seq = .restoreRun ∨
        s.power.seq = .enterSleep ∧ (wakesFrom 2 src = true ∨ wakesFrom 1 src = true) ∨
        s.power.seq = .enterStandby ∧ (wakesFrom 3 src = true ∨ wakesFrom 1 src = true) → s.mgt.tripped = false →
      ∃ t, Machine.exec c s = .next t ∧ t.power = { s.power with held := some (.wake src) } ∧
        getB t Reg.pwrStatus 57 = true ∧ RegsBut [Reg.pwrStatus] s t ∧
        t = { s with regs := t.regs, power := t.power, out := t.out }) ∧
    (s.power.seq = .none → pwrState s = 3 → wakesFrom 3 src = true → s.mgt.porLow = false → s.mgt.flashOp = none →
        s.mgt.burning = none →
      ∃ t, Machine.exec c s = .next t ∧ getF t Reg.bringup 59 58 = 3 ∧ getF t Reg.pwrStatus 54 52 = wakeCode src ∧
        pwrState t = 1 ∧ t.hbm = [] ∧ t.sp = [] ∧ t.streams = [] ∧ t.job = {} ∧ t.mgt.flash = s.mgt.flash ∧
        t.mgt.fuses = s.mgt.fuses) ∧
    (s.power.seq = .none → wakesFrom (pwrState s) src = false →
      ∃ t, Machine.exec c s = .next t ∧ t = { s with out := t.out })) ∧
  (∀ (p : Nat) (s : State), getB s (Reg.underpass p) 0 = false → Machine.exec (.nolocActivity p) s = .next s)

/-- AVS_RESPONSE to a write that is neither taken nor held back: taken, the set point shows and the write waits for VDone;
busy, the write is held back, with eight busy answers before it has failed; a bad CRC sends it again, the fourth fails; invalid
fails. Each shows in LAST_ACK and LAST_RAIL. A failed VCORE write is counted, raises POWER, marks the rail and drops the set
point that waits, and VSRAM returns to what it keeps beside the VCORE that stands. Without such a write nothing changes.
AVS_BUSY_RETRY sends a held write again. VDONE_POLL of a taken write reads the status; VDone ends the write and, with no
sequence and nothing waiting, changes nothing else but that the rail counts as settled; an expired one fails. AVS_STATUS_ALERT
reads the status, and with VDone ends a taken write; a status read shows as acknowledged and ends AVS_LOST. AVS_LOST sets its bit once. POWER_GOOD_RISE of an enabled rail shows it; of VSRAM in a restore, once its
voltage has settled, it brings VCORE up at 750 mV.
Model choices it rests on: log entries 81, 106, 167. -/
def Obligations.AvsAnswersDriveTheRails : Prop :=
  (∀ (r : Rail) (w : AvsWrite) (s : State), avsOf s r = some w → w.acked = false → w.hold = false → w.mv < 4096 →
    (∃ t, Machine.exec (.avsResponse r .taken) s = .next t ∧ avsOf t r = some { w with acked := true } ∧
      (r = .vcore → vcore t = w.mv) ∧ (r = .vsram → vsram t = w.mv) ∧ (r = .vphy → t.power.vphy = w.mv) ∧
      getF t Reg.avsStatus 5 4 = 0 ∧ getF t Reg.avsStatus 3 2 = railCode r ∧ getB t Reg.voltStatus 58 = false ∧
      (∀ q, q ≠ r → avsOf t q = avsOf s q) ∧ RegsBut [Reg.avsStatus, Reg.voltStatus] s t ∧
      t = { s with regs := t.regs, power := t.power }) ∧
    (w.busy < 8 → ∃ t, Machine.exec (.avsResponse r .busy) s = .next t ∧ avsOf t r = some { w with hold := true } ∧
      getF t Reg.avsStatus 5 4 = 1 ∧ getF t Reg.avsStatus 3 2 = railCode r ∧ (∀ q, q ≠ r → avsOf t q = avsOf s q) ∧ RegsBut [Reg.avsStatus] s t ∧
      t = { s with regs := t.regs, power := t.power }) ∧
    (w.crc < 3 → ∃ t, Machine.exec (.avsResponse r .badCrc) s = .next t ∧ avsOf t r = some { w with crc := w.crc + 1 } ∧
      getF t Reg.avsStatus 5 4 = 2 ∧ getF t Reg.avsStatus 3 2 = railCode r ∧ getF t Reg.avsStatus 31 16 = min (getF s Reg.avsStatus 31 16 + 1) 65535 ∧
      (∀ q, q ≠ r → avsOf t q = avsOf s q) ∧ RegsBut [Reg.avsStatus] s t ∧
      t = { s with regs := t.regs, power := t.power, out := s.out ++ [.avs r w.mv] }) ∧
    (∀ a, a = .busy ∧ 8 ≤ w.busy ∨ a = .badCrc ∧ 3 ≤ w.crc ∨ a = .invalid →
      ∃ t, Machine.exec (.avsResponse r a) s = .next t ∧
        getF t Reg.avsStatus 47 32 = min (getF s Reg.avsStatus 47 32 + 1) 65535 ∧
        getB t (Reg.intStatus .mgt 0) 10 = true ∧
        getF t Reg.avsStatus 3 2 = railCode r ∧
        (r = .vcore → s.power.seq = .none → avsOf t .vcore = none ∧ t.power.coreFailed = true ∧ t.power.wantCore = none ∧
          (s.power.wsram = none → t.power.wantSram = none ∧ avsOf t .vsram =
            if sramGoal s (vcore s) = vsram s ∨ (vsram s < sramGoal s (vcore s) ∧ s.power.sramFailed = true) then none
            else some { mv := sramGoal s (vcore s) })) ∧
        (s.power.seq ≠ .bringUp → t.hbm = s.hbm ∧ t.sp = s.sp ∧ t.job = s.job))) ∧
  (∀ (r : Rail) (a : SlaveAck) (s : State), (∀ w, avsOf s r = some w → w.acked = true ∨ w.hold = true) →
    Machine.exec (.avsResponse r a) s = .next s) ∧
  (∀ (r : Rail) (w : AvsWrite) (s : State), avsOf s r = some w → w.hold = true →
    ∃ t, Machine.exec (.avsBusyRetry r) s = .next t ∧ avsOf t r = some { w with busy := w.busy + 1, hold := false } ∧
      getF t Reg.avsStatus 31 16 = min (getF s Reg.avsStatus 31 16 + 1) 65535 ∧ (∀ q, q ≠ r → avsOf t q = avsOf s q) ∧
      RegsBut [Reg.avsStatus] s t ∧ t = { s with regs := t.regs, power := t.power, out := s.out ++ [.avs r w.mv] }) ∧
  (∀ (r : Rail) (w : AvsWrite) (s : State), avsOf s r = some w → w.acked = true →
    (s.power.seq = .none → s.power.wantCore = none → s.power.wantSram = none →
      ∀ c ∈ [Instr.vdonePoll r true false, .avsStatusAlert r true],
        ∃ t, Machine.exec c s = .next t ∧ avsOf t r = none ∧ t.power.vdone.contains r = true ∧
          (∀ q, q ≠ r → avsOf t q = avsOf s q) ∧ getB t Reg.voltStatus 58 = false ∧ getF t Reg.avsStatus 5 4 = 0 ∧
          getF t Reg.avsStatus 3 2 = railCode r ∧ RegsBut [Reg.voltStatus, Reg.avsStatus] s t ∧
          t = { s with regs := t.regs, power := t.power, out := s.out ++ [.avsStatusRead r] }) ∧
    (∃ t, Machine.exec (.vdonePoll r false false) s = .next t ∧ avsOf t r = some w ∧ getB t Reg.voltStatus 58 = false ∧
      getF t Reg.avsStatus 5 4 = 0 ∧ getF t Reg.avsStatus 3 2 = railCode r ∧ RegsBut [Reg.voltStatus, Reg.avsStatus] s t ∧
      t = { s with regs := t.regs, out := s.out ++ [.avsStatusRead r] }) ∧
    ∃ t, Machine.exec (.vdonePoll r false true) s = .next t ∧
      getF t Reg.avsStatus 47 32 = min (getF s Reg.avsStatus 47 32 + 1) 65535) ∧
  (∀ (r : Rail) (s : State),
    ∃ t, Machine.exec (.avsStatusAlert r false) s = .next t ∧ getB t Reg.voltStatus 58 = false ∧
      getF t Reg.avsStatus 5 4 = 0 ∧ getF t Reg.avsStatus 3 2 = railCode r ∧ RegsBut [Reg.voltStatus, Reg.avsStatus] s t ∧
      t = { s with regs := t.regs, out := s.out ++ [.avsStatusRead r] }) ∧
  (∀ s : State, getB s Reg.voltStatus 58 = false →
    ∃ t, Machine.exec .avsLost s = .next t ∧ getB t Reg.voltStatus 58 = true ∧ getB t (Reg.intStatus .mgt 0) 10 = true ∧
      RegsBut [Reg.voltStatus, Reg.intStatus .mgt 0] s t ∧ t = { s with regs := t.regs, out := t.out }) ∧
  (∀ (x : Supply) (s : State), s.power.en.contains x = true → s.power.pg.contains x = false →
    ∃ t, Machine.exec (.powerGoodRise x) s = .next t ∧ t.power.pg.contains x = true ∧
      (∀ y, s.power.pg.contains y = true → t.power.pg.contains y = true) ∧
      (s.power.seq = .restore ∨ s.power.seq = .bringUp → x = .vsram → s.power.en.contains .vcore = false →
        s.power.vdone.contains .vsram = true → avsOf t .vcore = some { mv := 750 } ∧ t.power.en.contains .vcore = true) ∧
      (s.power.seq ≠ .bringUp ∨ s.power.vdone.contains .vphy = false →
        t.hbm = s.hbm ∧ t.sp = s.sp ∧ t.mgt = s.mgt ∧ t.job = s.job)) ∧
  (∀ (x : Supply) (s : State), s.power.en.contains x = false → Machine.exec (.powerGoodRise x) s = .next s)

/-- VOLTAGE_LOOP_PERIOD in RUN, automatic, with no limit: below the floor VCORE rises 5 mV
while under 850, to at most 850, with FLOOR_FORCED past VMAX or PCAP; with 2 percent above the floor and power or VCORE above
its bound it falls 5 mV, to at least 650; below the target it rises 5 mV if VCORE and power have room and is else pinned; 2
percent above the target it falls 5 mV while above 650. Under MANUAL, a
lost AVSBus, stage 1 or the limiter the set point stays; outside RUN, in a sequence or after a trip nothing changes. In each
period with a failed VCORE write, or below the floor with 850 mV reached, body bias takes one step more, to at most four, which
BIAS and BIAS_MAX show, but none while stage 1 or the limiter holds; in each other period, once ten together have been 2 percent
above the floor, it takes one step less. FLOOR_RATE
takes its fields; a floor below 1,400 or below an active job's floor is refused, and MANUAL stays while a job is active. MANUAL
cleared with no job: VSRAM goes back to what it keeps beside the VCORE that stands, and nothing else of the rails changes.
MGT_VSET with no job takes its fields and under MANUAL, with VCORE on, asks for it within 650 to 850 and, at stage 1 or the
limiter, no higher, and for VSRAM as VSRAM_SET says, not below what it keeps beside VCORE. CURRENT_SAMPLE reads the rails, shows
the averages and throttles above the ceiling until 25 W below it, or by the estimate while AVSBus is lost. POWER_LIMIT_1MS
lowers VCORE by 10 mV from where the rail goes or stands, not below 650, while the average is too high, and no rise that waits
goes on.
Model choices it rests on: log entries 81, 82, 107, 119, 151, 167. -/
def Obligations.VoltageLoopAndLimits : Prop :=
  (∀ (s : State) (r p v f : Nat), pwrState s = 0 → s.power.seq = .none → s.mgt.tripped = false → r = loopRate s → p = getF s Reg.power 15 0 →
    v = coreTarget s → f = policyFloor s →
    ∃ t, Machine.exec .voltageLoopPeriod s = .next t ∧ getF t Reg.voltStatus 15 0 = r % 65536 ∧ t.power.rateLow = 0xFFFF ∧
      t.hbm = s.hbm ∧ t.sp = s.sp ∧ t.job = s.job ∧ RegsBut [Reg.voltStatus, Reg.intStatus .mgt 0] s t ∧
      (getB s Reg.voltPolicy 63 = true ∨ getB s Reg.voltStatus 58 = true ∨ stage1On s = true ∨ s.power.limiting = true →
        coreTarget t = v) ∧
      (∀ n, n = (if f * 51 ≤ r * 50 then min 10 (s.power.goodPeriods + 1) else 0) → t.power.goodPeriods = n ∧
        (WantsBias s r v f → stage1On s = false → s.power.limiting = false → t.power.bias = min (max 4 s.power.bias) (s.power.bias + 1)) ∧
        (WantsBias s r v f → stage1On s = true ∨ s.power.limiting = true → t.power.bias = s.power.bias) ∧
        (¬ WantsBias s r v f → t.power.bias = if n = 10 then s.power.bias - 1 else s.power.bias) ∧
        (t.power.bias ≠ s.power.bias → getF t Reg.voltStatus 57 56 = min t.power.bias 3 ∧
          getB t Reg.voltStatus 55 = (t.power.bias == 4)) ∧
        (t.power.bias = s.power.bias → getF t Reg.voltStatus 57 55 = getF s Reg.voltStatus 57 55)) ∧
      (getB s Reg.voltPolicy 63 = false → getB s Reg.voltStatus 58 = false → stage1On s = false →
        s.power.limiting = false →
        (r < f → v < 850 → coreTarget t = min 850 (v + 5) ∧
          (vmax s < min 850 (v + 5) ∨ pcap s < p → getB t Reg.voltStatus 62 = true)) ∧
        (r < f → 850 ≤ v → coreTarget t = v) ∧
        (f ≤ r → (pcap s < p ∨ vmax s < v) → f * 51 ≤ r * 50 → coreTarget t = max 650 (v - 5)) ∧
        (f ≤ r → ¬((pcap s < p ∨ vmax s < v) ∧ f * 51 ≤ r * 50) → r < targetRate s →
          if v + 5 ≤ vmax s ∧ p + 10 ≤ pcap s then coreTarget t = v + 5
          else coreTarget t = v ∧ getB t Reg.voltStatus 63 = true ∧ getB t (Reg.intStatus .mgt 0) 11 = true) ∧
        (targetRate s ≤ r → ¬((pcap s < p ∨ vmax s < v) ∧ f * 51 ≤ r * 50) →
          coreTarget t = if targetRate s * 51 < r * 50 ∧ 650 < v then max 650 (v - 5) else v))) ∧
  (∀ s : State, pwrState s ≠ 0 ∨ s.power.seq ≠ .none ∨ s.mgt.tripped = true → Machine.exec .voltageLoopPeriod s = .next s) ∧
  (∀ (m : Master) (v : W64) (s : State), Reaches m .mgt 0 s →
    ∃ t, Machine.exec (.floorRate m v) s = .next t ∧ getF t Reg.voltPolicy 59 48 = fld v 59 48 ∧
      getF t Reg.voltPolicy 43 32 = fld v 43 32 ∧ getF t Reg.voltPolicy 31 16 = fld v 31 16 ∧
      getB t Reg.voltPolicy 63 = (if jobActive s then getB s Reg.voltPolicy 63 else fld v 63 63 == 1) ∧
      (if fld v 15 0 < 1400 ∨ jobActive s = true ∧ fld v 15 0 < jobFloor s then
        policyFloor t = policyFloor s ∧ getB t Reg.voltStatus 61 = true ∧ RegsBut [Reg.voltPolicy, Reg.voltStatus] s t ∧
          .alert 0x1201 ∈ t.out.drop s.out.length
      else policyFloor t = fld v 15 0 ∧ RegsBut [Reg.voltPolicy] s t) ∧
      (∀ w, w = (if fld v 15 0 < 1400 ∨ jobActive s = true ∧ fld v 15 0 < jobFloor s then [Out.alert 0x1201] else []) →
        jobActive s = true ∨ fld v 63 63 = 1 ∨ getB s Reg.voltPolicy 63 = false →
        t = { s with regs := t.regs, out := s.out ++ w }) ∧
      (jobActive s = false → fld v 63 63 = 0 → getB s Reg.voltPolicy 63 = true → t.power.manualSram = none ∧
        coreTarget t = coreTarget s ∧
        (s.power.en.contains .vcore = true → s.mgt.tripped = false → s.power.wcore = none → s.power.wsram = none →
          s.power.wantCore = none → vsram s ≠ sramFor (vcore s) → avsOf t .vsram = some { mv := sramFor (vcore s) }) ∧
        t = { s with regs := t.regs, power := t.power, out := t.out })) ∧
  (∀ (m : Master) (v : W64) (s : State), Reaches m .mgt 0 s →
    (jobActive s = true → Machine.exec (.mgtVset m v) s = .next s) ∧
    (jobActive s = false →
      ∃ t, Machine.exec (.mgtVset m v) s = .next t ∧ getF t Reg.vset 11 0 = fld v 11 0 ∧
        getF t Reg.vset 27 16 = fld v 27 16 ∧ RegsBut [Reg.vset] s t ∧
        (getB s Reg.voltPolicy 63 = true → s.power.en.contains .vcore = true → s.mgt.tripped = false →
            getB s Reg.voltStatus 58 = false → coreTarget t =
          if stage1On s = true ∨ s.power.limiting = true then min (max 650 (min 850 (fld v 11 0))) (coreTarget s)
          else max 650 (min 850 (fld v 11 0))) ∧
        (getB s Reg.voltPolicy 63 = true → s.power.en.contains .vcore = true → s.mgt.tripped = false →
          s.power.wcore = none → s.power.wsram = none → stage1On s = false → s.power.limiting = false →
          max 650 (min 850 (fld v 11 0)) = vcore s → vsram s ≠ max (sramFor (vcore s)) (min 875 (fld v 27 16)) →
          avsOf t .vsram = some { mv := max (sramFor (vcore s)) (min 875 (fld v 27 16)) }) ∧
        (getB s Reg.voltPolicy 63 = false ∨ s.power.en.contains .vcore = false ∨ s.mgt.tripped = true →
          t.power = s.power) ∧
        t = { s with regs := t.regs, power := t.power, out := t.out })) ∧
  (∀ (a b e : Nat) (s : State),
    ∃ t, Machine.exec (.currentSample a b e) s = .next t ∧ getF t Reg.power 15 0 = min b 65535 ∧
      getF t Reg.power 31 16 = max (getF s Reg.power 31 16) (min a 65535) ∧
      t.power = { s.power with avg100 := a, avg1 := b, estimate := e } ∧
      (getB s Reg.voltStatus 58 = false → getB t Reg.voltStatus 58 = false) ∧
      (s.power.oscillator = false → getB t Reg.voltStatus 58 = getB s Reg.voltStatus 58) ∧
      (s.power.oscillator = true → ∀ r, .avsRead .current r ∈ t.out.drop s.out.length) ∧
      (getB t Reg.voltStatus 58 = false → getB t Reg.voltStatus 60 =
        if getB s Reg.voltStatus 60 then decide (s.mgt.fuses.ceil - 25 ≤ a) else decide (s.mgt.fuses.ceil < a)) ∧
      (getB t Reg.voltStatus 58 = true → getB s Reg.voltStatus 60 = false →
        getB t Reg.voltStatus 60 = decide (1250 < e)) ∧
      t.step = (if getB t Reg.voltStatus 60 && s.step.active then { s.step with floorBreach := true } else s.step) ∧
      RegsBut [Reg.voltStatus, Reg.power, Reg.avsStatus, Reg.intStatus .mgt 0] s t ∧
      t = { s with regs := t.regs, power := t.power, step := t.step, out := t.out, free := t.free }) ∧
  (∀ s : State,
    ∃ t x, Machine.exec .powerLimit1ms s = .next t ∧
      x = (if getB t Reg.voltStatus 58 then s.power.estimate else s.power.avg1) ∧
      (getB s Reg.voltStatus 58 = false → getB t Reg.voltStatus 58 = false) ∧
      t.power.limiting = (if s.power.limiting then decide (s.mgt.fuses.ceil - 25 ≤ x) else decide (s.mgt.fuses.ceil < x)) ∧
      (s.mgt.tripped = false → getB s Reg.voltStatus 58 = false →
        heldCore t = (if t.power.limiting = true ∧ 650 < heldCore s then max 650 (heldCore s - 10) else heldCore s) ∧
        (t.power.limiting = true → coreTarget t ≤ max 650 (heldCore s))) ∧
      RegsBut [Reg.voltStatus, Reg.avsStatus, Reg.intStatus .mgt 0] s t ∧
      t = { s with regs := t.regs, power := t.power, out := t.out, free := t.free })

/-- RETRAIN that reaches the port, in RUN or IDLE, takes its register's fields and starts a full training in the written role,
or under an active job in the role of the register, behind a closed Underpass in the loop inside the package; LOSS_OF_SIGNAL in training, UP or a fast retrain, TRAINING_RETRY of a port that is DOWN and FAST_RETRAIN_TIMEOUT in a fast
retrain do so too, and do nothing in another state. FAST_RETRAIN of a port that is UP starts a fast retrain, and of another
only writes its register. TRAINING_TIMEOUT of a training port makes it DOWN, or, under a READY or RUNNING job, LOST, which ends
the step. LANES_LOCKED while training shows the spares found; in loopback the port is ready. IDENTITY_EXCHANGE, and
IDENTITY_RETRY of a mismatched port, with the lanes locked: an incompatible peer sets ROLE_MISMATCH; a compatible one brings
the link UP, with the kept link state where both ends resume the same link, else with fresh state and the peer's credits, which
under a READY or RUNNING job is a loss of the device. In another state the exchange does nothing. No other port changes, unless
the event lets the next pair of bring-up open.
Model choices it rests on: log entries 102, 103. -/
def Obligations.LinkTrains : Prop :=
  (∀ (m : Master) (p : Nat) (v : W64) (s : State), p < 6 → s.ports.length = 6 → Reaches m .nlp p s → pwrState s ≤ 1 →
    (∀ r, r = (if jobActive s then getF s (Reg.linkCtrl p) 1 0 else fld v 1 0) →
      ∃ t, Machine.exec (.retrain m p v) s = .next t ∧ getF t (Reg.linkCtrl p) 1 0 = r ∧
      linkState t p = (if r = 3 then 5 else if getB s (Reg.underpass p) 0 then 2 else 1) ∧
      port t p = { port s p with role := r, event := 1, fast := false, retried := [],
                                 loopback := !getB s (Reg.underpass p) 0 } ∧
      (∀ q, q ≠ p → port t q = port s q) ∧ RegsBut [Reg.linkCtrl p, Reg.linkStatus p, Reg.intStatus .nlp p] s t ∧
      t = { s with regs := t.regs, ports := t.ports, out := t.out }) ∧
    (fld v 63 63 = 0 → ∃ t, Machine.exec (.fastRetrain m p v) s = .next t ∧
      (linkState s p = 3 → linkState t p = 4 ∧ port t p = { port s p with event := 4, fast := true } ∧
        (∀ q, q ≠ p → port t q = port s q) ∧ RegsBut [Reg.linkCtrl p, Reg.linkStatus p, Reg.intStatus .nlp p] s t ∧
        t = { s with regs := t.regs, ports := t.ports, out := t.out }) ∧
      (linkState s p ≠ 3 → RegsBut [Reg.linkCtrl p] s t ∧ t = { s with regs := t.regs }))) ∧
  (∀ (p : Nat) (c : Instr) (from_ : List Nat) (s : State), p < 6 → s.ports.length = 6 →
    (c, from_) ∈ [(Instr.lossOfSignal p, [2, 3, 4]), (.trainingRetry p, [0]), (.fastRetrainTimeout p, [4])] →
    (linkState s p ∈ from_ → ∃ t, Machine.exec c s = .next t ∧
      linkState t p = (if getF s (Reg.linkCtrl p) 1 0 = 3 then 5 else if getB s (Reg.underpass p) 0 then 2 else 1) ∧
      port t p = { port s p with role := getF s (Reg.linkCtrl p) 1 0, event := 1, fast := false, retried := [],
                                 loopback := !getB s (Reg.underpass p) 0 } ∧
      (∀ q, q ≠ p → port t q = port s q) ∧ RegsBut [Reg.linkStatus p, Reg.intStatus .nlp p] s t ∧
      t = { s with regs := t.regs, ports := t.ports, out := t.out }) ∧
    (linkState s p ∉ from_ → Machine.exec c s = .next s)) ∧
  (∀ (p : Nat) (s : State), p < 6 →
    (linkState s p = 2 → jobRuns s = false → ∃ t, Machine.exec (.trainingTimeout p) s = .next t ∧ linkState t p = 0 ∧
      RegsBut [Reg.linkStatus p, Reg.intStatus .nlp p] s t ∧ t = { s with regs := t.regs, out := t.out }) ∧
    (linkState s p = 2 → jobRuns s = true → ∃ t, Machine.exec (.trainingTimeout p) s = .next t ∧
      getB t (Reg.linkStatus p) 56 = true ∧ getF t Reg.jobStatus 47 32 = 0x0C05 ∧ t.step.active = false) ∧
    (linkState s p ≠ 2 → Machine.exec (.trainingTimeout p) s = .next s)) ∧
  (∀ (p : Nat) (a b : Option Nat) (s : State), p < 6 → s.ports.length = 6 → (∀ l, a = some l ∨ b = some l → l < 16) →
    (linkState s p = 1 ∧ s.mgt.opening = [] ∨ linkState s p = 2 → ∃ t, Machine.exec (.lanesLocked p a b) s = .next t ∧
      getB t (Reg.lane p) 63 = a.isSome ∧ getF t (Reg.lane p) 59 56 = a.getD 0 ∧ getB t (Reg.lane p) 55 = b.isSome ∧
      getF t (Reg.lane p) 51 48 = b.getD 0 ∧ port t p = { port s p with event := 4, retried := [] } ∧
      (linkState s p = 1 → getB t (Reg.linkStatus p) 59 = true) ∧ linkState t p = linkState s p ∧
      (∀ q, q ≠ p → port t q = port s q) ∧ RegsBut [Reg.lane p, Reg.linkStatus p] s t ∧
      t = { s with regs := t.regs, ports := t.ports }) ∧
    (linkState s p ≠ 1 → linkState s p ≠ 2 → Machine.exec (.lanesLocked p a b) s = .next s)) ∧
  (∀ (p : Nat) (q : PeerIdentity) (c : Instr) (same : Bool) (s : State), p < 6 → s.ports.length = 6 →
    c = .identityExchange p q ∨ c = .identityRetry p q ∧ getB s (Reg.linkStatus p) 58 = true →
    same = ((port s p).peer.any fun o => (port s p).resume && q.resume && o.identity == q.identity) →
    (exchanging s p = true → rolesMatch s p q = false → ∃ t, Machine.exec c s = .next t ∧
      getB t (Reg.linkStatus p) 58 = true ∧ linkState t p = linkState s p ∧ rget t (Reg.peerId p) = q.identity ∧
      port t p = { port s p with event := 5 } ∧ (∀ k, k ≠ p → port t k = port s k) ∧
      RegsBut [Reg.linkStatus p, Reg.peerId p] s t ∧ t = { s with regs := t.regs, ports := t.ports, out := t.out }) ∧
    (exchanging s p = true → rolesMatch s p q = true → getB s (Reg.underpass p) 1 = false ∨ s.mgt.opening = [] →
      ∃ t, Machine.exec c s = .next t ∧ linkState t p = 3 ∧
      getB t (Reg.linkStatus p) 58 = false ∧ rget t (Reg.peerId p) = q.identity ∧ (port t p).peer = some q ∧
      (same = true → port t p = { port s p with event := 6, fast := false, resume := true, peer := some q }) ∧
      (same = false → (port t p).txSeq = 0 ∧ (port t p).rxSeq = 0 ∧ (port t p).retry = [] ∧ (port t p).rxq = [] ∧
        (port t p).credInit = (q.reqBuf, q.rspBuf, q.secBuf) ∧ (port t p).sent = (0, 0, 0) ∧
        (jobRuns s = true → getF t Reg.jobStatus 47 32 = 0x0C04 ∧ t.step.active = false)) ∧
      (∀ k, k ≠ p → port t k = port s k) ∧ t.streams = s.streams ∧ t.sp = s.sp) ∧
    (exchanging s p = false → Machine.exec c s = .next s))

/-- LANE_WINDOW shows a lane with the most corrected bytes and its count, and counts anew; with no lane over the limit nothing
else changes. LANE_LOCK_LOST of an UP port: the first faulty lane becomes the spare's, is named to the peer in SPARE_REQ and
counted as corrected, and the link retrains; a second fault retrains once, and a repeated one loses the port. UNDERPASS_CLOSE by a management core closes
an open or opening Underpass with cause WRITE: both ports are in loopback with an event in both pages; a closed one stays so.
UNDERPASS_OPEN by a management core of a closed pair whose ports are ready, with no close trigger, in service and with no active
job, opens it: both ports leave loopback and train; else it is refused. By another master each counts as DENIED and opens and closes nothing.
UNDERPASS_OPEN_TIMEOUT of an opening pair closes all three and sets OPEN_FAILED there; otherwise nothing changes. While pairs of
bring-up wait to open, the last LANES_LOCKED of the next one opens it, and so does the end of the open before it.
Model choices it rests on: log entries 104, 152. -/
def Obligations.LanesAndUnderpasses : Prop :=
  (∀ (p : Nat) (s : State) (lim : Nat), p < 6 → s.ports.length = 6 → lim = getF s (Reg.linkCtrl p) 15 8 * 1024 →
    ∃ t, Machine.exec (.laneWindow p) s = .next t ∧ (port t p).lanes = [] ∧ (∀ q, q ≠ p → port t q = port s q) ∧
      getF t (Reg.lane p) 31 0 = min (laneCount (port s p) (getF t (Reg.lane p) 35 32)) (2 ^ 32 - 1) ∧
      (∀ l, l < 16 → laneCount (port s p) l ≤ laneCount (port s p) (getF t (Reg.lane p) 35 32)) ∧
      (lim = 0 ∨ (∀ l, l < 16 → laneCount (port s p) l ≤ lim) →
        port t p = { port s p with lanes := [] } ∧ RegsBut [Reg.lane p] s t ∧ t = { s with regs := t.regs, ports := t.ports })) ∧
  (∀ (p l : Nat) (s : State), p < 6 → l < 16 → s.ports.length = 6 →
    (linkState s p = 3 → getB s (Reg.lane p) 55 = false → ∃ t w, Machine.exec (.laneLockLost p l) s = .next t ∧
      getB t (Reg.lane p) 55 = true ∧ getF t (Reg.lane p) 51 48 = l ∧ linkState t p = 4 ∧
      .flit p w ∈ t.out.drop s.out.length ∧ leAt w 6 1 = 128 + l ∧ (∀ q, q ≠ p → port t q = port s q) ∧
      RegsBut [Reg.lane p, Reg.linkStatus p, Reg.intStatus .nlp p] s t ∧ t.step = (countCorrected 1 s).step ∧
      t = { s with regs := t.regs, ports := t.ports, out := t.out, step := t.step }) ∧
    (linkState s p = 3 → getB s (Reg.lane p) 55 = true → l ∉ (port s p).retried →
      ∃ t, Machine.exec (.laneLockLost p l) s = .next t ∧ linkState t p = 4 ∧ (port t p).retried = l :: (port s p).retried ∧
        RegsBut [Reg.linkStatus p, Reg.intStatus .nlp p] s t ∧ t = { s with regs := t.regs, ports := t.ports, out := t.out }) ∧
    (linkState s p = 3 → getB s (Reg.lane p) 55 = true → l ∈ (port s p).retried →
      ∃ t, Machine.exec (.laneLockLost p l) s = .next t ∧ getB t (Reg.linkStatus p) 56 = true ∧
        getF t Reg.jobStatus 47 32 = 0x0C05 ∧ t.step.active = false) ∧
    (linkState s p ≠ 3 → Machine.exec (.laneLockLost p l) s = .next s)) ∧
  (∀ (m : Master) (p k : Nat) (v : W64) (s : State), p < 6 → k = p / 2 → s.ports.length = 6 → Reaches m .nlp p s →
    (isMgt m = true → fld v 63 63 = 0 → s.mgt.opening = [] →
      ∃ t, Machine.exec (.underpassClose m p v) s = .next t ∧ getB t (Reg.underpass p) 0 = false ∧
        getB t (Reg.underpass p) 1 = false ∧ (∀ q, q < 6 → q / 2 ≠ k → port t q = port s q) ∧
        (getB s (Reg.underpass p) 0 = true ∨ getB s (Reg.underpass p) 1 = true → getF t (Reg.underpass p) 3 2 = 2 ∧
          ∀ q, q = 2 * k ∨ q = 2 * k + 1 → (port t q).loopback = true ∧ linkState t q = 1 ∧
            getB t (Reg.intStatus .nlp q) 9 = true) ∧
        (getB s (Reg.underpass p) 0 = false → getB s (Reg.underpass p) 1 = false →
          RegsBut [Reg.underpass p] s t ∧ t = { s with regs := t.regs }) ∧ t.streams = s.streams ∧ t.job = s.job) ∧
    (isMgt m = true → fld v 62 62 = 0 → getB s (Reg.underpass p) 0 = false → getB s (Reg.underpass p) 1 = false →
      ∃ t, Machine.exec (.underpassOpen m p v) s = .next t ∧
        (if getB s (Reg.linkStatus (2 * k)) 59 = true ∧ getB s (Reg.linkStatus (2 * k + 1)) 59 = true ∧
            closeTrigger s = false ∧ getB s Reg.bringup 62 = false ∧ (jobState s = 0 ∨ jobState s = 4 ∨ jobState s = 5) then
          getB t (Reg.underpass p) 0 = true ∧ getB t (Reg.underpass p) 1 = true ∧
            ∀ q, q = 2 * k ∨ q = 2 * k + 1 → (port t q).loopback = false ∧ (port t q).event = 1 ∧
              linkState t q = (if getF s (Reg.linkCtrl q) 1 0 = 3 then 5 else 2)
        else getB t (Reg.underpass p) 0 = false ∧ getB t (Reg.underpass p) 5 = true ∧ t.ports = s.ports) ∧
        (∀ q, q = 2 * k ∨ q = 2 * k + 1 → getB t (Reg.intStatus .nlp q) 9 = true) ∧
        t = { s with regs := t.regs, ports := t.ports, out := t.out }) ∧
    (isMgt m = false → ∀ c ∈ [Instr.underpassClose m p v, .underpassOpen m p v],
      ∃ t, Machine.exec c s = .next t ∧ getB t Reg.bar0Status 62 = true ∧
        getF t (Reg.underpass p) 3 0 = getF s (Reg.underpass p) 3 0 ∧ RegsBut [Reg.bar0Status, Reg.underpass p] s t ∧
        t = { s with regs := t.regs, out := s.out ++ [.alert 0x1402] })) ∧
  (∀ (k : Nat) (s : State), k < 3 →
    (getB s (Reg.underpass (2 * k)) 1 = true → s.mgt.opening = [] → ∃ t, Machine.exec (.underpassOpenTimeout k) s = .next t ∧
      (∀ j, j < 3 → getB t (Reg.underpass (2 * j)) 0 = false ∧ getB t (Reg.underpass (2 * j)) 1 = false) ∧
      getB t (Reg.underpass (2 * k)) 4 = true ∧ getF t (Reg.underpass (2 * k)) 3 2 = 3) ∧
    (getB s (Reg.underpass (2 * k)) 1 = false → Machine.exec (.underpassOpenTimeout k) s = .next s)) ∧
  (∀ (c : Instr) (j k : Nat) (rest : List Nat) (s : State), j < 3 → k < 3 → s.ports.length = 6 →
    s.mgt.opening = k :: rest → closeTrigger s = false → getB s Reg.bringup 62 = false → jobState s = 0 →
    getB s (Reg.underpass (2 * k)) 0 = false → (∀ i, i < 3 → i ≠ j → getB s (Reg.underpass (2 * i)) 1 = false) →
    getF s (Reg.linkCtrl (2 * k)) 1 0 ≠ 3 → getF s (Reg.linkCtrl (2 * k + 1)) 1 0 ≠ 3 →
    (k = j ∧ getB s (Reg.underpass (2 * j)) 1 = false ∧ (∃ p a b, p / 2 = j ∧ linkState s p = 1 ∧
        getB s (Reg.linkStatus (4 * j + 1 - p)) 59 = true ∧ c = .lanesLocked p a b) ∨
      k ≠ j ∧ pairReady s k = true ∧ getB s (Reg.underpass (2 * j)) 1 = true ∧
        ((∃ m v, c = .underpassClose m (2 * j) v ∧ Reaches m .nlp (2 * j) s ∧ isMgt m = true ∧ fld v 63 63 = 0) ∨
          c = .underpassOpenTimeout j ∨
          ∃ p q, p / 2 = j ∧ exchanging s p = true ∧ rolesMatch s p q = true ∧ linkState s (4 * j + 1 - p) = 3 ∧
            c = .identityExchange p q)) →
    ∃ t, Machine.exec c s = .next t ∧ getB t (Reg.underpass (2 * k)) 0 = true ∧ getB t (Reg.underpass (2 * k)) 1 = true ∧
      linkState t (2 * k) = 2 ∧ linkState t (2 * k + 1) = 2 ∧ t.mgt.opening.length ≤ rest.length)

/-- FLIT_TRANSMIT on an UP port whose crossing's clock runs, with no replay due, in the class's turn, sends the oldest waiting
flit of the class under the next SEQ, keeps it for retry and counts a credit as used; with a replay due it sends the next kept
flit again; with no credit, or not UP, it does nothing. Out of turn it does nothing: REQ and RSP where SEC is ready and 15 flits
have gone without it or UPDATE_BEGIN waits on pass 0x7F02, and SEC otherwise where REQ or RSP is ready. FLIT_RECEIVE of a valid
flit with the expected SEQ drops the kept flits before its ACK, delivers a sequenced flit to the end of the crossing and expects
the next, and sets an unsequenced one aside; a valid flit with another SEQ delivers nothing and asks once for a replay; an
invalid one delivers nothing and is a hard fault; bytes beyond FEC or CRC deliver nothing and count in CRC_FAIL. RETRY_REQ takes
its ACK and sends again from the oldest, with a failed send counted; ACK_TIMEOUT sends again and counts one. RETRY_LIMIT
reached: first a fast retrain, a second time the oldest flit becomes LOST. LCTL takes the credits, and its SPARE_REQ moves the
transmit lane. LCTL_TIMER sends an LCTL with the freed counts. Each that lacks its cause does nothing.
Model choices it rests on: log entries 72, 92, 122. -/
def Obligations.FlitsFlowInSequence : Prop :=
  (∀ (p c : Nat) (s : State), p < 6 → s.ports.length = 6 → linkState s p = 3 →
    (∀ (f g : Flit) (pre post : List Flit), (port s p).resend = 0 → (port s p).txq = pre ++ f :: post → f.cls = c →
      (∀ h ∈ pre, h.cls ≠ c) → credits (port s p) c ≠ 0 → (port s p).retry.length < 1024 →
      classTurn s (port s p) c = true → (crossingAt s .nlp p).clockOn = true →
      g = { f with seq := (port s p).txSeq, ack := (port s p).rxSeq } →
      ∃ t, Machine.exec (.flitTransmit p c) s = .next t ∧ .flit p (flitWire g) ∈ t.out.drop s.out.length ∧
        (port t p).txq = pre ++ post ∧ (port t p).retry = (port s p).retry ++ [g] ∧
        (port t p).txSeq = ((port s p).txSeq + 1) % 4096 ∧ get3 (port t p).sent c = (get3 (port s p).sent c + 1) % 2 ^ 16 ∧
        (port t p).secGap = (if c ≠ 2 ∧ (∃ h ∈ (port s p).txq, h.cls = 2) then (port s p).secGap + 1 else 0) ∧
        (port t p).rxq = (port s p).rxq ∧ getF t (Reg.flitsTx p) 47 0 = (getF s (Reg.flitsTx p) 47 0 + 1) % 2 ^ 48 ∧
        (∀ q, q ≠ p → port t q = port s q) ∧ RegsBut [Reg.flitsTx p] s t ∧
        t = { s with regs := t.regs, ports := t.ports, out := t.out }) ∧
    (∀ (g : Flit) (pre post : List Flit), (port s p).retry = pre ++ g :: post → (port s p).resend = post.length + 1 →
      ∃ t, Machine.exec (.flitTransmit p c) s = .next t ∧ .flit p (flitWire g) ∈ t.out.drop s.out.length ∧
        (port t p).resend = post.length ∧ (port t p).retry = (port s p).retry ∧ (port t p).txq = (port s p).txq ∧
        getF t (Reg.replays p) 47 0 = (getF s (Reg.replays p) 47 0 + 1) % 2 ^ 48 ∧ RegsBut [Reg.replays p] s t ∧
        (∀ q, q ≠ p → port t q = port s q) ∧ t.step = (countCorrected 1 s).step ∧
        t = { s with regs := t.regs, ports := t.ports, out := t.out, step := t.step }) ∧
    ((port s p).resend = 0 → c ≠ 2 → classReady (port s p) 2 = true → updateHeld s = true ∨ 15 ≤ (port s p).secGap →
      Machine.exec (.flitTransmit p c) s = .next s) ∧
    ((port s p).resend = 0 → c = 2 → classReady (port s p) 0 = true ∨ classReady (port s p) 1 = true →
      updateHeld s = false → (port s p).secGap < 15 → Machine.exec (.flitTransmit p c) s = .next s) ∧
    ((port s p).resend = 0 → credits (port s p) c = 0 → Machine.exec (.flitTransmit p c) s = .next s)) ∧
  (∀ (p : Nat) (c : Instr) (s : State), linkState s p ≠ 3 →
    (∃ k, c = .flitTransmit p k) ∨ (∃ bs, c = .flitReceive p bs) ∨ c = .ackTimeout p ∨ c = .lctlTimer p →
    Machine.exec c s = .next s) ∧
  (∀ (p n : Nat) (f : Flit) (s : State), p < 6 → s.ports.length = 6 → linkState s p = 3 → f.typ < 16 → f.seq < 4096 →
    f.ack < 4096 → f.cls < 4 → f.tag < 65536 → f.group < 4096 → f.len < 16 → f.payload.length = 240 →
    n = seqDiff f.ack (((port s p).txSeq + 4096 - (port s p).retry.length) % 4096) →
    ∃ t, Machine.exec (.flitReceive p (flitWire f)) s = .next t ∧ (∀ q, q ≠ p → port t q = port s q) ∧
      (f.seq = (port s p).rxSeq → flitOk f false = true →
        (2 ≤ f.typ → ¬ (f.typ = 3 ∧ f.cls ∈ (port s p).discarding) →
          (port t p).rxq = (port s p).rxq ++ [f] ∧ (port t p).rxSeq = ((port s p).rxSeq + 1) % 4096 ∧
          getF t (Reg.flitsRx p) 47 0 = (getF s (Reg.flitsRx p) 47 0 + 1) % 2 ^ 48) ∧
        (f.typ < 2 → (port t p).ctl = (port s p).ctl ++ [f] ∧ (port t p).rxq = (port s p).rxq ∧
          (port t p).rxSeq = (port s p).rxSeq) ∧
        (port t p).retry = (if n ≤ (port s p).retry.length then (port s p).retry.drop n else (port s p).retry) ∧
        (port t p).txq = (port s p).txq ∧ RegsBut [Reg.flitsRx p, Reg.lostCount p] s t ∧
        t = { s with regs := t.regs, ports := t.ports }) ∧
      (f.seq ≠ (port s p).rxSeq → flitOk f false = true → port t p = { port s p with awaiting := true } ∧
        t.out = s.out ++ (if (port s p).awaiting then [] else
          [.flit p (flitWire { typ := 1, seq := nextFlitSeq (port s p), ack := (port s p).rxSeq, payload := [] })]) ∧
        t = { s with regs := t.regs, ports := t.ports, out := t.out } ∧ RegsBut [] s t) ∧
      (flitOk f false = false → (port t p).rxq = (port s p).rxq ∧ (port t p).ctl = (port s p).ctl ∧
        (port t p).retry = (port s p).retry ∧ getF t Reg.jobStatus 47 32 = 0x0C02 ∧ t.step.active = false)) ∧
  (∀ (p : Nat) (bs : List Byte) (s : State), p < 6 → s.ports.length = 6 → linkState s p = 3 →
    (fecDecode bs).ok = false ∨ crc32 ((fecDecode bs).bytes.take 248) ≠ leAt (fecDecode bs).bytes 0xF8 4 →
    ∃ t, Machine.exec (.flitReceive p bs) s = .next t ∧ (port t p).rxq = (port s p).rxq ∧
      (port t p).rxSeq = (port s p).rxSeq ∧ (port t p).ctl = (port s p).ctl ∧
      getF t (Reg.crcFail p) 47 0 = (getF s (Reg.crcFail p) 47 0 + 1) % 2 ^ 48 ∧
      RegsBut [Reg.crcFail p, Reg.fecCorrected p] s t ∧ t.step = (countCorrected (fecDecode bs).fixed.length s).step ∧
      t = { s with regs := t.regs, ports := t.ports, out := t.out, step := t.step }) ∧
  (∀ (p : Nat) (s : State), p < 6 → s.ports.length = 6 →
    (∀ f n, (port s p).ctl.find? (fun f => f.typ == 1) = some f →
      n = seqDiff f.ack (((port s p).txSeq + 4096 - (port s p).retry.length) % 4096) →
      ∃ t, Machine.exec (.retryReq p) s = .next t ∧
      (port t p).retry = (if n ≤ (port s p).retry.length then (port s p).retry.drop n else (port s p).retry) ∧
      (port t p).resend = (port t p).retry.length ∧
      (port t p).fails = (if 0 < n ∧ n ≤ (port s p).retry.length then 0 else (port s p).fails) +
        (if (port t p).retry = [] then 0 else 1) ∧ (∀ q, q ≠ p → port t q = port s q) ∧
      (port t p).ctl = (port s p).ctl.erase f ∧ (port t p).txq = (port s p).txq ∧ t = { s with ports := t.ports }) ∧
    ((∀ f ∈ (port s p).ctl, f.typ ≠ 1) → Machine.exec (.retryReq p) s = .next s) ∧
    (linkState s p = 3 → (port s p).retry ≠ [] → ∃ t, Machine.exec (.ackTimeout p) s = .next t ∧
      port t p = { port s p with resend := (port s p).retry.length, fails := (port s p).fails + 1 } ∧
      (∀ q, q ≠ p → port t q = port s q) ∧ t = { s with ports := t.ports }) ∧
    ((port s p).fails < Machine.retryLimit s p → Machine.exec (.retryLimit p) s = .next s) ∧
    (Machine.retryLimit s p ≤ (port s p).fails → (port s p).failRuns = 0 → linkState s p = 3 →
      ∃ t, Machine.exec (.retryLimit p) s = .next t ∧ linkState t p = 4 ∧
        port t p = { port s p with fails := 0, failRuns := 1, event := 4, fast := true } ∧
        (∀ q, q ≠ p → port t q = port s q) ∧ RegsBut [Reg.linkStatus p, Reg.intStatus .nlp p] s t ∧
        t = { s with regs := t.regs, ports := t.ports, out := t.out }) ∧
    (∀ f r, Machine.retryLimit s p ≤ (port s p).fails → (port s p).failRuns ≠ 0 → (port s p).retry = f :: r →
      ∃ t, Machine.exec (.retryLimit p) s = .next t ∧ (port t p).retry = lostFor f :: r ∧
        (port t p).resend = r.length + 1 ∧ (port t p).fails = 0 ∧ (port t p).failRuns = 0 ∧
        getF t (Reg.lostCount p) 47 0 = (getF s (Reg.lostCount p) 47 0 + 1) % 2 ^ 48 ∧ RegsBut [Reg.lostCount p] s t ∧
        t = { s with regs := t.regs, ports := t.ports }) ∧
    (∀ f, (port s p).ctl.find? (fun f => f.typ == 0) = some f → ∃ t, Machine.exec (.lctl p) s = .next t ∧
      (port t p).credBack = (leAt f.payload 0 2, leAt f.payload 2 2, leAt f.payload 4 2) ∧
      (port t p).ctl = (port s p).ctl.erase f ∧
      (bit (leAt f.payload 6 1) 7 = false → t = { s with ports := t.ports }) ∧
      (bit (leAt f.payload 6 1) 7 = true → getB s (Reg.lane p) 63 = false → getB t (Reg.lane p) 63 = true ∧
        getF t (Reg.lane p) 59 56 = bits (leAt f.payload 6 1) 3 0 ∧ (linkState s p = 3 → linkState t p = 4)) ∧
      (bit (leAt f.payload 6 1) 7 = true → getB s (Reg.lane p) 63 = true → rget t (Reg.lane p) = rget s (Reg.lane p) ∧
        (linkState s p = 3 → linkState t p = 4)) ∧
      (∀ q, q ≠ p → port t q = port s q) ∧ RegsBut [Reg.lane p, Reg.linkStatus p, Reg.intStatus .nlp p] s t ∧
      t = { s with regs := t.regs, ports := t.ports, out := t.out, step := t.step }) ∧
    ((∀ f ∈ (port s p).ctl, f.typ ≠ 0) → Machine.exec (.lctl p) s = .next s) ∧
    (linkState s p = 3 → ∃ t w, Machine.exec (.lctlTimer p) s = .next t ∧ t.out = s.out ++ [.flit p w] ∧
      leAt w 0 2 = (port s p).freed.1 % 65536 ∧ leAt w 2 2 = (port s p).freed.2.1 % 65536 ∧
      leAt w 4 2 = (port s p).freed.2.2 % 65536 ∧ (port t p).reported = (port s p).freed ∧ (port t p).sinceLctl = 0 ∧
      (∀ q, q ≠ p → port t q = port s q) ∧ t = { s with ports := t.ports, out := t.out }))

/-- For every flit whose header fields fit their widths and whose payload has 240 bytes: its 256 bytes on the wire are a word
of both codewords of the FEC, so that the receiver corrects nothing; the CRC over the first 248 bytes is the one that the flit
carries; reserved header bit 33 is 0; and the flit read from the bytes is the flit sent, field by field. -/
def Obligations.FlitsRoundTrip : Prop :=
  ∀ f : Flit, f.typ < 16 → f.seq < 4096 → f.ack < 4096 → f.cls < 4 → f.tag < 65536 → f.group < 4096 → f.len < 16 →
    f.payload.length = 240 →
    (flitWire f).length = 256 ∧ (fecDecode (flitWire f)).ok = true ∧ (fecDecode (flitWire f)).fixed = [] ∧
      (fecDecode (flitWire f)).bytes = flitWire f ∧ crc32 ((flitWire f).take 248) = leAt (flitWire f) 0xF8 4 ∧
      bit (leAt (flitWire f) 0xF0 8) 33 = false ∧ flitOf (flitWire f) = f

/-- TRANSFER_SEND: the first queued transfer, if it may start, enters its port's crossing as its flits and leaves the queue,
and a stopped clock of the crossing is woken; if none may start nothing changes. TRANSFER_FORWARD moves a whole transfer for another position, unchanged, from one port's
crossing to the next port's, and counts its flits. REMOTE_WRITE_ARRIVAL of an accepted, untagged write of whole HBM lines
stores exactly its bytes and queues an answer with status 0 to the sender, on a tree pair by the port of the request; a refused one stores nothing, counts as refused and
is answered with its status. REMOTE_READ_ARRIVAL of an accepted read of a raw region is answered with exactly the stored bytes.
RESP takes the transfer it answers, and no other, off the list; the answer to a write of an entry that has run, with every other of its stream, leaves one less
of the window's transfers unanswered and of the entry's waits, and the last makes the entry done; an answer to nothing is only
taken out. LOST of a lost first flit alone takes it out and raises FLIT_LOST: hard without a group, and with one the
group is dropped.
Model choices it rests on: log entries 68, 69, 71, 92, 164. -/
def Obligations.TransfersCrossTheRing : Prop :=
  (∀ (r : Nat) (x : Transfer) (rest : List Transfer) (s : State), r < 3 → s.rings.length = 3 → s.ports.length = 6 →
    x.port < 6 → (ringAt s r).sendq = x :: rest → maySend s r x = true →
    ∃ t, Machine.exec (.transferSend r) s = .next t ∧ (ringAt t r).sendq = rest ∧
      (port t x.port).txq = (port s x.port).txq ++ transferFlits x.first x.data ∧ (port t x.port).rxq = (port s x.port).rxq ∧
      (∀ q, q ≠ x.port → port t q = port s q) ∧ (∀ k, k ≠ r → ringAt t k = ringAt s k) ∧
      t = { s with ports := t.ports, rings := t.rings, streams := t.streams, crossings := t.crossings } ∧
      (if (crossingAt s .nlp x.port).clockOn = true then t.crossings = s.crossings
        else (crossingAt t .nlp x.port).wake = true) ∧
      (x.entry = none ∨ x.xfer ≠ none → t.streams = s.streams)) ∧
  (∀ (r : Nat) (s : State), (∀ x ∈ (ringAt s r).sendq, maySend s r x = false) →
    Machine.exec (.transferSend r) s = .next s) ∧
  (∀ (p c q : Nat) (f : Flit) (ds rest : List Flit) (s : State), p < 6 → q < 6 → s.ports.length = 6 →
    wholeTransfer (port s p) c = some (f, ds, rest) → isMine s (p / 2) f = false →
    forwardAny s p = some (c, q, f :: ds, rest) →
    ∃ t, Machine.exec (.transferForward p) s = .next t ∧ (port t q).txq = (port s q).txq ++ f :: ds ∧ (port t p).rxq = rest ∧
      getF t (Reg.rngForwarded (p / 2)) 47 0 = (getF s (Reg.rngForwarded (p / 2)) 47 0 + ds.length + 1) % 2 ^ 48 ∧
      (∀ k, k ≠ p → k ≠ q → port t k = port s k) ∧ RegsBut [Reg.rngForwarded (p / 2)] s t ∧
      (if (crossingAt s .nlp q).clockOn = true then t.crossings = s.crossings else (crossingAt t .nlp q).wake = true) ∧
      t = { s with ports := t.ports, regs := t.regs, crossings := t.crossings }) ∧
  (∀ (p : Nat) (s : State), forwardAny s p = none → Machine.exec (.transferForward p) s = .next s) ∧
  (∀ (p r w off len a q st : Nat) (f : Flit) (ds rest : List Flit) (s : State), p < 6 → r = p / 2 → s.rings.length = 3 →
    frontMine s p 0 2 = some (f, ds, rest) → ringHdrOk s r f = true → f.gv = false → leAt f.payload 7 1 = 0 →
    w = leAt f.payload 8 2 → off = leAt f.payload 0x18 8 → len = leAt f.payload 0x10 4 → a = ownedAddr s (winOf s w) off →
    (ownedOf s w).before = [] → (if inTreeRole s r then some p else routePort s r (plSrc f.payload)) = some q →
    st = ownerCheck s w (some (leAt f.payload 0xA 2)) (leAt f.payload 6 1 == 0) false off len len →
    (leAt f.payload 6 1 = 0 → st = 0 → a % 64 = 0 → len % 64 = 0 → (joinData f ds).length = len →
      (∀ i, i < len → (regionOf s (a + i)).isSome = true) → ¬ Stopped (reach s (.remoteWriteArrival p)) s →
      ∃ t x, Machine.exec (.remoteWriteArrival p) s = .next t ∧ memRead t.hbm a len = joinData f ds ∧
        (∀ i, i < a ∨ a + len ≤ i → memGet t.hbm i = memGet s.hbm i) ∧ (ringAt t r).sendq = (ringAt s r).sendq ++ [x] ∧
        x.port = q ∧ x.first.typ = 4 ∧ x.first.cls = 1 ∧ leAt x.first.payload 6 1 = 0 ∧ x.data = [] ∧
        leAt x.first.payload 0xC 2 = leAt f.payload 0xC 2 ∧ (port t p).rxq = rest ∧ t.regs = s.regs ∧ t.sp = s.sp ∧
        t.streams = s.streams ∧ t.owned = s.owned) ∧
    (leAt f.payload 6 1 ≤ 1 → st ≠ 0 →
      ∃ t x, Machine.exec (if leAt f.payload 6 1 = 0 then .remoteWriteArrival p else .remoteReadArrival p []) s = .next t ∧
        t.hbm = s.hbm ∧ t.chk = s.chk ∧ (ringAt t r).sendq = (ringAt s r).sendq ++ [x] ∧ x.port = q ∧ x.first.typ = 4 ∧
        leAt x.first.payload 6 1 = st ∧ x.data = [] ∧ (port t p).rxq = rest ∧
        getF t (Reg.rngRefused r) 47 0 = (getF s (Reg.rngRefused r) 47 0 + 1) % 2 ^ 48 ∧ RegsBut [Reg.rngRefused r] s t ∧
        t = { s with ports := t.ports, rings := t.rings, regs := t.regs }) ∧
    (leAt f.payload 6 1 = 1 → st = 0 →
      (∀ i g, i < len → regionOf s ((a + i) / 64 * 64) = some g → 3 ≤ g.cls ∧ g.cls ≤ 5) →
      (∀ i, i < len → (regionOf s ((a + i) / 64 * 64)).isSome = true) → ¬ Stopped (reach s (.remoteReadArrival p [])) s →
      ∃ t x, Machine.exec (.remoteReadArrival p []) s = .next t ∧ (ringAt t r).sendq = (ringAt s r).sendq ++ [x] ∧
        x.port = q ∧ x.first.typ = 4 ∧ leAt x.first.payload 6 1 = 0 ∧ x.data = memRead s.hbm a len ∧
        (port t p).rxq = rest ∧ OnlyWakes s t ∧
        t = { s with ports := t.ports, rings := t.rings, crossings := t.crossings })) ∧
  (∀ (p r : Nat) (f : Flit) (ds rest : List Flit) (s : State), p < 6 → r = p / 2 → s.rings.length = 3 →
    frontMine s p 1 4 = some (f, ds, rest) → ringHdrOk s r f = true →
    (∀ x, xferOf (ringAt s r) (leAt f.payload 0xC 2) = some x → x.window ≠ secView →
      ∃ t, Machine.exec (.resp p []) s = .next t ∧ (port t p).rxq = rest ∧
        (∀ y ∈ (ringAt s r).xfers, y.id ≠ x.id → y.window ≠ secView → y ∈ (ringAt t r).xfers)) ∧
    (∀ x y, xferOf (ringAt s r) (leAt f.payload 0xC 2) = some x → x.window ≠ secView → x.op = 0 →
      leAt f.payload 6 1 = 0 → streamAt s x.stream = some y → (∀ g ∈ y.inflight, g.ran = true) →
      windowFlights s 0x55 x.window = [] →
      ∃ t, Machine.exec (.resp p []) s = .next t ∧
        (ringAt t r).xfers = (ringAt s r).xfers.filter (fun y => y.id != x.id) ∧
        viewOf t x.window = { viewOf s x.window with unanswered := (viewOf s x.window).unanswered - 1 } ∧
        streamAt t x.stream = some { y with inflight := y.inflight.map fun g =>
          if g.idx = x.idx then { g with waiting := g.waiting - 1, done := g.done || decide (g.waiting ≤ 1) } else g } ∧
        t = { s with ports := t.ports, rings := t.rings, views := t.views, streams := t.streams }) ∧
    (xferOf (ringAt s r) (leAt f.payload 0xC 2) = none →
      ∃ t, Machine.exec (.resp p []) s = .next t ∧ (port t p).rxq = rest ∧ t = { s with ports := t.ports })) ∧
  (∀ (p : Nat) (f : Flit) (s : State), p < 6 → s.ports.length = 6 → (port s p).rxq = [f] → f.typ = 7 → f.cls < 3 →
    f.group < 4096 →
    ∃ t, Machine.exec (.lost p) s = .next t ∧ (port t p).rxq = [] ∧ f.cls ∈ (port t p).discarding ∧
      getB t (Reg.nlpFaultLog p) 63 = true ∧
      (f.gv = false → getF t Reg.jobStatus 47 32 = 0x0C01 ∧ t.step.active = false) ∧
      (f.gv = true → s.step.active = true → maskHas t.step.maskA f.group = false ∧ maskHas t.step.maskB f.group = false ∧
        maskHas t.step.maskC f.group = false ∧ t.step.confinedCount = s.step.confinedCount + 1))

/-- OPEN_CLOSE_MARKER: every view that resolves to the sender's window takes the marker's state and epoch, an OPEN its size
too; no other view changes; a marker without a view is counted. BLOCK_END posts the arrival pass of its owned window once, or
is counted. STEP_READY from the neighbour notes the step on its side, and RNG_STATUS reads it as ready while that step runs. BELL of the running step from the neighbour posts the
port's Bell pass and sends an LCTL; of another step it is a hard fault. CONTROL_WORD_RECEIVE at a middle position in the first
lap sends up the flags and departures joined by or and the masks by and; at position 0 the ring-wide word is adopted: no group
stays that the word lacks, and a nonfinite flag is kept. RING_TRANSFER_RECEIVE of a part of a ROTATE block stores its bytes at
their place, and nothing leaves or is written. Of a reduce transfer each element is added to the own input; a sum of the last
chunk is kept, the others are passed on rounded to the transit format. With the last of them REDUCE_SCATTER writes and reports
the own chunk, divided where it is asked to, and ALL_REDUCE sends it as its shard. Of a gather transfer each code is kept at its
element and passed on but for the last chunk's; with the last of them DESC_C is written and reported.
Model choices it rests on: log entries 62, 63, 64, 66, 67, 142. -/
def Obligations.MarkersAndRingWordsAct : Prop :=
  (∀ (p r src w : Nat) (f : Flit) (ds rest : List Flit) (vs : List Nat) (s : State), p < 6 → r = p / 2 →
    frontMine s p 0 5 = some (f, ds, rest) → markerKind f = 1 ∨ markerKind f = 2 → ringHdrOk s r f = true →
    src = (if inRingRole s r then plSrc f.payload else p % 2) → w = leAt f.payload 8 2 → vs = viewsOf s r src w →
    ∃ t, Machine.exec (.openCloseMarker p) s = .next t ∧ (port t p).rxq = rest ∧
      (∀ v ∈ vs, (viewOf t v).isOpen = (markerKind f == 1) ∧ (viewOf t v).epoch = leAt f.payload 0xA 2 ∧
        (markerKind f = 1 → (viewOf t v).size = leAt f.payload 0x10 8)) ∧
      (∀ v, v ∉ vs → viewOf t v = viewOf s v) ∧
      (vs ≠ [] → t = { s with ports := t.ports, views := t.views, streams := t.streams }) ∧
      (markerKind f = 2 → t.streams = s.streams) ∧
      (vs = [] → getF t (Reg.rngUnmatched r) 47 0 = (getF s (Reg.rngUnmatched r) 47 0 + 1) % 2 ^ 48 ∧
        RegsBut [Reg.rngUnmatched r] s t ∧ t = { s with ports := t.ports, regs := t.regs })) ∧
  (∀ (p r : Nat) (f : Flit) (ds rest : List Flit) (e : WinEntry) (s : State), p < 6 → r = p / 2 →
    frontMine s p 0 5 = some (f, ds, rest) → markerKind f = 0 → ringHdrOk s r f = true → e = winOf s (leAt f.payload 8 2) →
    (e.kind = 1 → e.arrivalEn = true → passCount s e.arrivalPass < 65535 →
      ∃ t, Machine.exec (.blockEnd p) s = .next t ∧ (port t p).rxq = rest ∧
        passCount t e.arrivalPass = passCount s e.arrivalPass + 1 ∧
        (∀ k, k ≠ e.arrivalPass → passCount t k = passCount s k) ∧ t = { s with ports := t.ports, passes := t.passes }) ∧
    (e.kind ≠ 1 ∨ e.arrivalEn = false →
      ∃ t, Machine.exec (.blockEnd p) s = .next t ∧
        getF t (Reg.rngUnmatched r) 47 0 = (getF s (Reg.rngUnmatched r) 47 0 + 1) % 2 ^ 48 ∧
        RegsBut [Reg.rngUnmatched r] s t ∧ t = { s with ports := t.ports, regs := t.regs })) ∧
  (∀ (p r : Nat) (f : Flit) (ds rest : List Flit) (s : State), p < 6 → r = p / 2 → s.rings.length = 3 →
    frontMine s p 0 5 = some (f, ds, rest) → markerKind f = 3 → ringHdrOk s r f = true →
    fromNeighbour s p (plSrc f.payload) = true →
    ∃ t, Machine.exec (.stepReady p) s = .next t ∧ (port t p).rxq = rest ∧ leAt f.payload 0xC 4 ∈ readyOn t p ∧
      (∀ m, m ≠ leAt f.payload 0xC 4 → (m ∈ readyOn t p ↔ m ∈ readyOn s p)) ∧
      (∀ q, q ≠ p → readyOn t q = readyOn s q) ∧
      fld (regView t .rng r 0x108) (58 + p % 2) (58 + p % 2) = b2n (s.step.active && (readyOn t p).contains (stepNo s)) ∧
      t = { s with ports := t.ports, rings := t.rings }) ∧
  (∀ (p : Nat) (f : Flit) (rest : List Flit) (s : State), p < 6 → s.ports.length = 6 → frontBell (port s p) = some (f, rest) →
    (s.step.active = true → leAt f.payload 0 4 = stepNo s → bit (leAt f.payload 4 2) 12 = true ∨
        fromNeighbour s p (bits (leAt f.payload 4 2) 11 0) = true →
      ∃ t w, Machine.exec (.bell p) s = .next t ∧ (port t p).rxq = rest ∧ 0x7F10 + p ∈ t.step.sysPasses ∧
        (∀ k, k ∈ s.step.sysPasses → k ∈ t.step.sysPasses) ∧ t.out = s.out ++ [.flit p w] ∧
        t = { s with ports := t.ports, step := t.step, out := t.out }) ∧
    (s.step.active = true → leAt f.payload 0 4 ≠ stepNo s →
      ∃ t, Machine.exec (.bell p) s = .next t ∧ getF t Reg.jobStatus 47 32 = 0x0C03 ∧ t.step.active = false)) ∧
  (∀ (r : Nat) (f : Flit) (ds rest : List Flit) (c : Ctx) (k : Coll) (s : State), r < 3 → s.rings.length = 3 →
    frontMine s (2 * r) 0 2 = some (f, ds, rest) → leAt f.payload 6 1 = 2 → bits (leAt f.payload 0x20 4) 31 28 = 0 →
    ringHdrOk s r f = true → ringTake s (2 * r) f (joinData f ds) [] = .feed c k → s.step.active = true → f.gv = false →
    (ringPos s r ≠ 0 → k.lap = 0 →  ringPos s r ≠ ringLen s r - 1 →
      ∃ t m, Machine.exec (.controlWordReceive r) s = .next t ∧ (port t (2 * r)).rxq = rest ∧
        (ringAt t r).sendq = (ringAt s r).sendq ++ [m] ∧ m.port = 2 * r + 1 ∧
        m.data = ctlBytes (stepNo s) c.idx ((ctlOf (joinData f ds)).join k.word) ∧
        { k with lap := 1 } ∈ (ringAt t r).colls ∧ t.step = s.step ∧ t.sp = s.sp ∧ t.hbm = s.hbm ∧
        t = { s with ports := t.ports, rings := t.rings, streams := t.streams }) ∧
    (ringPos s r = 0 →
      ∃ t, Machine.exec (.controlWordReceive r) s = .next t ∧ (port t (2 * r)).rxq = rest ∧
        (∀ g, maskHas (maskOf t r) g = true → maskHas (maskOf s r) g = true ∧ maskHas (ctlOf (joinData f ds)).mask g = true) ∧
        ((ctlOf (joinData f ds)).nf = true → t.step.nonfinite = true) ∧
        (s.step.nonfinite = true → t.step.nonfinite = true))) ∧
  (∀ (p r : Nat) (f : Flit) (ds rest : List Flit) (bs : List Byte) (c : Ctx) (k : Coll) (s : State), p < 6 → r = p / 2 →
    s.rings.length = 3 → p % 2 = 1 ∨ bits (leAt f.payload 0x20 4) 31 28 ≠ 0 → frontMine s p 0 2 = some (f, ds, rest) →
    leAt f.payload 6 1 = 2 → ringHdrOk s r f = true → bs = joinData f ds → ringTake s p f bs [] = .feed c k →
    s.step.active = true → f.gv = false → k.phase = 3 →
    k.got0 + bs.length < (descOr s c.e.descC).rows * (descOr s c.e.descC).rowBytes →
    ∃ t k', Machine.exec (.ringTransferReceive p []) s = .next t ∧ (port t p).rxq = rest ∧ k' ∈ (ringAt t r).colls ∧
      k'.idx = k.idx ∧ k'.got0 = k.got0 + bs.length ∧
      (∀ i, i < bs.length → cellGet noNat k'.dst (k.got0 + i) = (bs.getD i 0).toNat) ∧
      (∀ i, i < k.got0 ∨ k.got0 + bs.length ≤ i → cellGet noNat k'.dst i = cellGet noNat k.dst i) ∧
      (ringAt t r).sendq = (ringAt s r).sendq ∧ t.sp = s.sp ∧ t.hbm = s.hbm ∧ t.step = s.step ∧
      t = { s with ports := t.ports, rings := t.rings, streams := t.streams }) ∧
  (∀ (p r half : Nat) (f : Flit) (ds rest : List Flit) (bs : List Byte) (c : Ctx) (k : Coll) (x : Shape) (s : State),
    p < 6 → r = p / 2 → half = p % 2 → s.rings.length = 3 → p % 2 = 1 ∨ bits (leAt f.payload 0x20 4) 31 28 ≠ 0 →
    frontMine s p 0 2 = some (f, ds, rest) → leAt f.payload 6 1 = 2 → ringHdrOk s r f = true → bs = joinData f ds →
    ringTake s p f bs [] = .feed c k → s.step.active = true → f.gv = false → c.voided = false → x = shapeOf c s →
    codesOf x k bs ≠ [] → x.hq * x.width k.phase % 8 = 0 →
    (k.phase = 1 → phaseDone x 1 (k.addGot half bs.length) = false →
      ∃ t k', Machine.exec (.ringTransferReceive p []) s = .next t ∧ (port t p).rxq = rest ∧ k' ∈ (ringAt t r).colls ∧
        k'.idx = k.idx ∧ k'.phase = 1 ∧ k'.got half = k.got half + bs.length ∧
        (∀ j, cellGet noNat k'.red j = redAfter s x k half bs j) ∧
        (firstIn x k half + (codesOf x k bs).length ≤ passedOn x →
          SendsOn r x half (packCodes (x.width 1) ((summed s x k half bs).map (toTransit x))) s t) ∧
        (passedOn x ≤ firstIn x k half → SendsNone r s t) ∧
        t = { s with ports := t.ports, rings := t.rings, streams := t.streams }) ∧
    (k.phase = 1 → phaseDone x 1 (k.addGot half bs.length) = true →
      ∃ t red, Machine.exec (.ringTransferReceive p []) s = .next t ∧ (port t p).rxq = rest ∧
        (∀ j, cellGet noNat red j = redAfter s x k half bs j) ∧
        (x.op = 0x50 → PlainSp x.d → Disjoint (flatResult s c.inst x.d c.e.tensorId
            (encodeRow x.d.fmt (scaleExp s x.d) (ownResults x { k with red := red }))).writes →
          Gives (flatResult s c.inst x.d c.e.tensorId
            (encodeRow x.d.fmt (scaleExp s x.d) (ownResults x { k with red := red }))) s t ∧
          SendsNone r s t ∧ (∀ y ∈ (ringAt t r).colls, y.idx ≠ k.idx) ∧ t.hbm = s.hbm) ∧
        (x.op = 0x52 → ∃ k' more own, k' ∈ (ringAt t r).colls ∧ k'.idx = k.idx ∧ k'.phase = 2 ∧ k'.got0 = 0 ∧ k'.got1 = 0 ∧
          own = (encodeRow x.d.fmt (scaleExp s x.d) (ownResults x { k with red := red })).codes ∧
          (∀ i, i < x.q → cellGet noNat k'.dst (x.at x.p 0 i) = nth own i) ∧
          (ringAt t r).sendq = (ringAt s r).sendq ++ more ∧
          (∀ h, h < x.halves → ((more.filter fun m => m.port == x.port h).map (·.data)).flatten =
            packCodes (x.width 2) ((own.drop (h * x.hq)).take x.hq)) ∧
          t = { s with ports := t.ports, rings := t.rings, streams := t.streams })) ∧
    (k.phase = 2 → phaseDone x 2 (k.addGot half bs.length) = false →
      ∃ t k', Machine.exec (.ringTransferReceive p []) s = .next t ∧ (port t p).rxq = rest ∧ k' ∈ (ringAt t r).colls ∧
        k'.idx = k.idx ∧ k'.phase = 2 ∧ k'.got half = k.got half + bs.length ∧ Gathers x k half bs k'.dst ∧
        (firstIn x k half + (codesOf x k bs).length ≤ passedOn x →
          SendsOn r x half (packCodes (x.width 2) (codesOf x k bs)) s t) ∧
        (passedOn x ≤ firstIn x k half → SendsNone r s t) ∧
        t = { s with ports := t.ports, rings := t.rings, streams := t.streams }) ∧
    (k.phase = 2 → phaseDone x 2 (k.addGot half bs.length) = true → PlainSp x.d →
      ∃ t dst, Machine.exec (.ringTransferReceive p []) s = .next t ∧ (port t p).rxq = rest ∧ Gathers x k half bs dst ∧
        (Disjoint (flatResult s c.inst x.d c.e.tensorId (gatheredRow s x k dst)).writes →
          Gives (flatResult s c.inst x.d c.e.tensorId (gatheredRow s x k dst)) s t) ∧
        SendsNone r s t ∧ (∀ y ∈ (ringAt t r).colls, y.idx ≠ k.idx) ∧ t.hbm = s.hbm))

/-- The state after reset holds every memory in canonical form, six ports and three ring engines; every register reads its
reset value, every byte of HBM and of the scratchpads reads 0x00 (for HBM the model's choice), no command waits, no step runs and no ring or port holds traffic.
Model choices it rests on: log entries 6, 7. -/
def Obligations.ResetMeetsInvariant : Prop :=
  Inv State.reset ∧ (∀ a, rget State.reset a = regReset a) ∧ (∀ a, memGet State.reset.hbm a = 0) ∧
  (∀ a, memGet State.reset.sp a = 0) ∧ State.reset.pending = [] ∧ State.reset.step.active = false ∧
  (∀ p, (port State.reset p).txq = [] ∧ (port State.reset p).rxq = [] ∧ (port State.reset p).retry = []) ∧
  (∀ r, (ringAt State.reset r).sendq = [] ∧ (ringAt State.reset r).colls = [])

/-- From every state, reached or not, whose HBM bytes, check bytes, scratchpads, host memory, management SRAM and flash,
register file and hall-pass counts stand in canonical form (keys strictly rising, none equal to what an unlisted key reads
as), whose pass counts are at most 65,535 (R57) and that holds six ports and three ring engines, every step answers a next
state of the same kind, whatever command stands at the front of the queue and whatever its operands. -/
def Obligations.EveryStepKeepsInvariant : Prop :=
  ∀ s : State, Inv s → ∃ t, step s = .next t ∧ Inv t
end

