-- ==== Sys2Proof/Laws/Cells.lean ====
section
/-! SUPPORT. Sparse maps: a read after a write, and that every operation keeps the canonical form. -/

namespace Sys2Proof.Machine

variable {β : Type} [DecidableEq β] (d : Nat → β)

/-! ## Reads after writes -/

omit [DecidableEq β] in
theorem cellGet_erase (m : Cells β) (k j : Nat) :
    cellGet d (cellErase k m) j = if j = k then d j else cellGet d m j := by
  induction m with
  | nil => simp [cellErase, cellGet]
  | cons x t ih =>
    obtain ⟨a, w⟩ := x
    by_cases h : a = k <;> by_cases g : a = j <;> simp_all [cellErase, cellGet]

omit [DecidableEq β] in
theorem cellGet_insert (m : Cells β) (k j : Nat) (v : β) (hk : ∀ x ∈ m, x.1 ≠ k) :
    cellGet d (cellInsert k v m) j = if j = k then v else cellGet d m j := by
  induction m with
  | nil => simp [cellInsert, cellGet, eq_comm]
  | cons x t ih =>
    obtain ⟨a, w⟩ := x
    have ha : a ≠ k := hk (a, w) (by simp)
    have ht : ∀ x ∈ t, x.1 ≠ k := fun x hx => hk x (by simp [hx])
    by_cases c : k < a
    · simp only [cellInsert, c, if_true, cellGet]
      by_cases e : j = k
      · simp [e]
      · simp [e, Ne.symm e]
    · simp only [cellInsert, c, if_false, cellGet, ih ht]
      by_cases e : a = j
      · subst e; simp [ha]
      · simp [e]

omit [DecidableEq β] in
theorem cellErase_ne (m : Cells β) (k : Nat) : ∀ x ∈ cellErase k m, x.1 ≠ k := by
  induction m with
  | nil => simp [cellErase]
  | cons x t ih =>
    obtain ⟨a, w⟩ := x
    by_cases h : a = k
    · simpa [cellErase, h] using ih
    · simp only [cellErase, h, if_false, List.mem_cons]
      rintro y (rfl | hy)
      · exact h
      · exact ih y hy

/-- A read after a write: the value at the written key, what stood there at any other. -/
theorem cellGet_set (m : Cells β) (k j : Nat) (v : β) :
    cellGet d (cellSet d m k v) j = if j = k then v else cellGet d m j := by
  unfold cellSet
  split
  · next h => rw [cellGet_erase]; split <;> simp_all
  · rw [cellGet_insert d _ k j v (cellErase_ne m k), cellGet_erase]
    split <;> simp_all

@[simp] theorem cellGet_set_same (m : Cells β) (k : Nat) (v : β) : cellGet d (cellSet d m k v) k = v := by
  simp [cellGet_set]

theorem cellGet_set_ne (m : Cells β) {k j : Nat} (v : β) (h : j ≠ k) :
    cellGet d (cellSet d m k v) j = cellGet d m j := by
  simp [cellGet_set, h]

omit [DecidableEq β] in
/-- A read after a range is cleared. -/
theorem cellGet_clear (m : Cells β) (lo n j : Nat) :
    cellGet d (cellClear lo n m) j = if lo ≤ j ∧ j < lo + n then d j else cellGet d m j := by
  induction m with
  | nil => simp [cellClear, cellGet]
  | cons x t ih =>
    obtain ⟨a, w⟩ := x
    by_cases g : a = j
    · subst g
      by_cases h : lo ≤ a ∧ a < lo + n
      · simp only [cellClear, h, and_self, if_true, ih]
      · simp only [cellClear, h, if_false, cellGet, if_true]
    · by_cases h : lo ≤ a ∧ a < lo + n
      · simp only [cellClear, h, and_self, if_true, ih, cellGet, g, if_false]
      · simp only [cellClear, h, if_false, ih, cellGet, g]

/-! ## The canonical form -/

/-- The canonical form said of a head and a tail: the head is no default and lies below every later key. -/
theorem cellWf_cons (a : Nat) (v : β) (t : Cells β) :
    cellWf d ((a, v) :: t) = true ↔ v ≠ d a ∧ (∀ x ∈ t, a < x.1) ∧ cellWf d t = true := by
  induction t generalizing a v with
  | nil => simp [cellWf]
  | cons y t ih =>
    obtain ⟨b, w⟩ := y
    have e : cellWf d ((a, v) :: (b, w) :: t) = (decide (v ≠ d a) && decide (a < b) && cellWf d ((b, w) :: t)) := rfl
    rw [e, Bool.and_eq_true, Bool.and_eq_true, decide_eq_true_iff, decide_eq_true_iff]
    constructor
    · rintro ⟨⟨h1, h2⟩, h3⟩
      refine ⟨h1, ?_, h3⟩
      rintro x hx
      rcases List.mem_cons.1 hx with rfl | hx
      · exact h2
      · exact lt_trans h2 (((ih b w).1 h3).2.1 x hx)
    · rintro ⟨h1, h2, h3⟩
      exact ⟨⟨h1, h2 (b, w) (by simp)⟩, h3⟩

omit [DecidableEq β] in
theorem mem_cellErase {m : Cells β} {k : Nat} {x : Nat × β} (h : x ∈ cellErase k m) : x ∈ m := by
  induction m with
  | nil => simp [cellErase] at h
  | cons y t ih =>
    obtain ⟨a, w⟩ := y
    by_cases e : a = k
    · simp only [cellErase, e, if_true] at h; exact List.mem_cons_of_mem _ (ih h)
    · simp only [cellErase, e, if_false, List.mem_cons] at h
      rcases h with rfl | h
      · simp
      · exact List.mem_cons_of_mem _ (ih h)

omit [DecidableEq β] in
theorem mem_cellInsert {m : Cells β} {k : Nat} {v : β} {x : Nat × β} (h : x ∈ cellInsert k v m) :
    x = (k, v) ∨ x ∈ m := by
  induction m with
  | nil => simpa [cellInsert] using h
  | cons y t ih =>
    obtain ⟨a, w⟩ := y
    by_cases c : k < a
    · simpa [cellInsert, c] using h
    · simp only [cellInsert, c, if_false, List.mem_cons] at h
      rcases h with rfl | h
      · simp
      · rcases ih h with h | h <;> simp [h]

omit [DecidableEq β] in
theorem mem_cellClear {m : Cells β} {lo n : Nat} {x : Nat × β} (h : x ∈ cellClear lo n m) : x ∈ m := by
  induction m with
  | nil => simp [cellClear] at h
  | cons y t ih =>
    obtain ⟨a, w⟩ := y
    by_cases e : lo ≤ a ∧ a < lo + n
    · simp only [cellClear, e, and_self, if_true] at h; exact List.mem_cons_of_mem _ (ih h)
    · simp only [cellClear, e, if_false, List.mem_cons] at h
      rcases h with rfl | h
      · simp
      · exact List.mem_cons_of_mem _ (ih h)

theorem cellWf_erase {m : Cells β} (h : cellWf d m = true) (k : Nat) : cellWf d (cellErase k m) = true := by
  induction m with
  | nil => simp [cellErase, cellWf]
  | cons x t ih =>
    obtain ⟨a, w⟩ := x
    obtain ⟨h1, h2, h3⟩ := (cellWf_cons d a w t).1 h
    by_cases c : a = k
    · simpa [cellErase, c] using ih h3
    · simp only [cellErase, c, if_false]
      exact (cellWf_cons d a w _).2 ⟨h1, fun x hx => h2 x (mem_cellErase hx), ih h3⟩

theorem cellWf_clear {m : Cells β} (h : cellWf d m = true) (lo n : Nat) : cellWf d (cellClear lo n m) = true := by
  induction m with
  | nil => simp [cellClear, cellWf]
  | cons x t ih =>
    obtain ⟨a, w⟩ := x
    obtain ⟨h1, h2, h3⟩ := (cellWf_cons d a w t).1 h
    by_cases c : lo ≤ a ∧ a < lo + n
    · simpa [cellClear, c] using ih h3
    · simp only [cellClear, c, if_false]
      exact (cellWf_cons d a w _).2 ⟨h1, fun x hx => h2 x (mem_cellClear hx), ih h3⟩

theorem cellWf_insert {m : Cells β} (h : cellWf d m = true) {k : Nat} {v : β} (hv : v ≠ d k) (hk : ∀ x ∈ m, x.1 ≠ k) :
    cellWf d (cellInsert k v m) = true := by
  induction m with
  | nil => simp [cellInsert, cellWf, hv]
  | cons x t ih =>
    obtain ⟨a, w⟩ := x
    obtain ⟨h1, h2, h3⟩ := (cellWf_cons d a w t).1 h
    have ha : a ≠ k := hk (a, w) (by simp)
    by_cases c : k < a
    · simp only [cellInsert, c, if_true]
      refine (cellWf_cons d k v _).2 ⟨hv, ?_, h⟩
      intro x hx
      rcases List.mem_cons.1 hx with rfl | hx
      · exact c
      · exact lt_trans c (h2 x hx)
    · simp only [cellInsert, c, if_false]
      refine (cellWf_cons d a w _).2 ⟨h1, ?_, ih h3 (fun x hx => hk x (by simp [hx]))⟩
      intro x hx
      rcases mem_cellInsert hx with rfl | hx
      · show a < k; omega
      · exact h2 x hx

/-- A write keeps the canonical form. -/
theorem cellWf_set {m : Cells β} (h : cellWf d m = true) (k : Nat) (v : β) : cellWf d (cellSet d m k v) = true := by
  unfold cellSet
  split
  · exact cellWf_erase d h k
  · next hv => exact cellWf_insert d (cellWf_erase d h k) hv (cellErase_ne m k)

/-! ## Byte memories -/

@[simp] theorem memGet_set (m : Mem) (a b : Nat) (v : Byte) :
    memGet (memSet m a v) b = if b = a then v else memGet m b := cellGet_set _ m a b v

theorem memWf_set {m : Mem} (h : memWf m = true) (a : Nat) (v : Byte) : memWf (memSet m a v) = true :=
  cellWf_set _ h a v

/-- A byte run stands where it was written and nowhere else. -/
theorem memGet_write (m : Mem) (a j : Nat) (bs : List Byte) :
    memGet (memWrite m a bs) j = if a ≤ j ∧ j < a + bs.length then bs.getD (j - a) 0 else memGet m j := by
  induction bs generalizing m a with
  | nil => simp only [memWrite, List.length_nil]; rw [if_neg (by omega)]
  | cons b t ih =>
    simp only [memWrite, ih, memGet_set, List.length_cons]
    by_cases c : j = a
    · subst c; simp
    · by_cases e : a + 1 ≤ j ∧ j < a + 1 + t.length
      · have : j - a = (j - (a + 1)) + 1 := by omega
        rw [if_pos e, if_pos (by omega), this]; simp
      · rw [if_neg e, if_neg c, if_neg (by omega)]

theorem memWf_write {m : Mem} (h : memWf m = true) (a : Nat) (bs : List Byte) : memWf (memWrite m a bs) = true := by
  induction bs generalizing m a with
  | nil => exact h
  | cons b t ih => exact ih (memWf_set h a b) (a + 1)

/-- A read of two runs in a row. -/
theorem memRead_append (m : Mem) (a n k : Nat) : memRead m a (n + k) = memRead m a n ++ memRead m (a + n) k := by
  induction n generalizing a with
  | zero => simp [memRead]
  | succ n ih => rw [show n + 1 + k = n + k + 1 by omega, memRead, memRead, ih, List.cons_append,
      show a + (n + 1) = a + 1 + n by omega]

/-- A read behind a write run, up to its end. -/
theorem memRead_write_drop (m : Mem) (a : Nat) (bs : List Byte) (n i : Nat) (h : i + n = bs.length) :
    memRead (memWrite m a bs) (a + i) n = bs.drop i := by
  induction n generalizing i with
  | zero => rw [memRead, List.drop_eq_nil_of_le (by omega)]
  | succ n ih =>
    have hi : i < bs.length := by omega
    rw [memRead, memGet_write, if_pos (by omega), show a + i + 1 = a + (i + 1) by omega, ih (i + 1) (by omega),
      show a + i - a = i by omega, List.drop_eq_getElem_cons hi]
    simp [List.getD, hi]

/-- What is written reads back. -/
theorem memRead_write (m : Mem) (a : Nat) (bs : List Byte) : memRead (memWrite m a bs) a bs.length = bs := by
  have := memRead_write_drop m a bs bs.length 0 (by omega)
  simpa using this

/-- A read beyond a write run reads what stood there. -/
theorem memRead_write_after (m : Mem) (a : Nat) (bs : List Byte) (b n : Nat) (h : a + bs.length ≤ b) :
    memRead (memWrite m a bs) b n = memRead m b n := by
  induction n generalizing b with
  | zero => rfl
  | succ n ih => rw [memRead, memRead, memGet_write, if_neg (by omega), ih (b + 1) (by omega)]

theorem memRead_nil (a n : Nat) : memRead [] a n = List.replicate n 0 := by
  induction n generalizing a with
  | zero => rfl
  | succ n ih => rw [memRead, ih, List.replicate_succ]; rfl

theorem memGet_zero (m : Mem) (lo n j : Nat) :
    memGet (memZero m lo n) j = if lo ≤ j ∧ j < lo + n then 0 else memGet m j := cellGet_clear _ m lo n j

theorem memWf_zero {m : Mem} (h : memWf m = true) (lo n : Nat) : memWf (memZero m lo n) = true := cellWf_clear _ h lo n

end Sys2Proof.Machine
end

