-- ==== Sys2Proof/Laws/Inv.lean ====
section
/-! SUPPORT. The shared operations keep the invariant: one lemma each. -/

namespace Sys2Proof

open Machine

variable {s : State}

/-! ## Registers, outputs, memories -/

theorem Inv.rset (h : Inv s) (a : Nat) (v : W64) : Inv (rset s a v) := by
  obtain ⟨h1, h2, h3, h4, h5, h6, h7, h8⟩ := h
  exact ⟨h1, h2, h3, h4, h5, h6, cellWf_set _ h7 _ _, h8⟩

theorem Inv.setF (h : Inv s) (a hi lo v : Nat) : Inv (setF s a hi lo v) := h.rset _ _
theorem Inv.setB (h : Inv s) (a b : Nat) (v : Bool) : Inv (setB s a b v) := h.rset _ _
theorem Inv.incSat (h : Inv s) (a hi lo n : Nat) : Inv (incSat s a hi lo n) := h.rset _ _
theorem Inv.incMod (h : Inv s) (a hi lo n : Nat) : Inv (incMod s a hi lo n) := h.rset _ _
theorem Inv.emit (h : Inv s) (o : Out) : Inv (emit o s) := h
theorem Inv.alert (h : Inv s) (n : Nat) : Inv (alert n s) := h
theorem Inv.errCount (h : Inv s) (t : Blk) (i n : Nat) : Inv (errCount t i n s) := h.incSat _ _ _ _

theorem Inv.irqEdge {s' : State} (h : Inv s') (t : Blk) (i : Nat) : Inv (irqEdge s s' t i) := by
  unfold Machine.irqEdge; split <;> exact h

theorem Inv.setInt (h : Inv s) (t : Blk) (i b : Nat) : Inv (setInt t i b s) := (h.setB _ _ _).irqEdge t i

theorem Inv.countCorrected (h : Inv s) (n : Nat) : Inv (countCorrected n s) := by
  unfold Machine.countCorrected; split <;> exact h

theorem Inv.setPhase (h : Inv s) (p : Nat) : Inv (setPhase p s) := by
  unfold Machine.setPhase; split
  · exact h
  · exact (h.setF _ _ _ _).setInt _ _ _

theorem Inv.failRestart (h : Inv s) (c : Nat) : Inv (failRestart c s) := (h.setF _ _ _ _).setPhase _

/-- Writing host memory keeps the form. -/
theorem Inv.hostMem (h : Inv s) (a : Nat) (bs : List Byte) : Inv { s with host := memWrite s.host a bs } := by
  obtain ⟨h1, h2, h3, h4, h5⟩ := h
  exact ⟨h1, h2, h3, memWf_write h4 _ _, h5⟩

/-- Writing a line's data and check bytes keeps the form. -/
theorem Inv.linePut (h : Inv s) (l a : Nat) (d c : List Byte) :
    Inv { s with hbm := memWrite s.hbm l d, chk := memWrite s.chk a c } := by
  obtain ⟨h1, h2, h3⟩ := h
  exact ⟨memWf_write h1 _ _, memWf_write h2 _ _, h3⟩

/-! ## Folds -/

theorem Inv.foldl {β : Type} (f : State → β → State) (l : List β) (h : Inv s) (hf : ∀ t b, Inv t → Inv (f t b)) :
    Inv (l.foldl f s) := by
  induction l generalizing s with
  | nil => exact h
  | cons b l ih => exact ih (hf s b h)

theorem Inv.postHost (h : Inv s) (a : Nat) (bs : List Byte) : Inv (postHost a bs s) :=
  Inv.foldl _ _ (h.hostMem a bs) fun _ _ ht => ht.emit _

theorem Inv.takeFree (h : Inv s) : Inv (takeFree s).2 := h

/-! ## HBM -/

theorem Inv.touchCrossing (h : Inv s) (t : Blk) (i : Nat) : Inv (touchCrossing t i s) := by
  unfold Machine.touchCrossing; split <;> exact h

theorem Inv.touchLine (h : Inv s) (l : Nat) : Inv (touchLine l s) := by
  unfold Machine.touchLine; split
  · exact h
  · exact h.touchCrossing _ _

@[simp] theorem touchLine_mem (l : Nat) (s : State) : (touchLine l s).hbm = s.hbm ∧ (touchLine l s).chk = s.chk := by
  unfold Machine.touchLine Machine.touchCrossing
  repeat' split
  all_goals exact ⟨rfl, rfl⟩

theorem Inv.putLine (h : Inv s) (l : Nat) (d c : List Byte) : Inv (putLine s l d c) := by
  have k := (h.touchLine l).linePut l (l / 8) d c
  rw [(touchLine_mem l s).1, (touchLine_mem l s).2] at k
  exact k

theorem Inv.freeBytes (n : Nat) (h : Inv s) : Inv (freeBytes n s).2 := by
  induction n generalizing s with
  | zero => exact h
  | succ n ih => exact ih h.takeFree

theorem Inv.hbcCorrection (h : Inv s) (i : Nat) : Inv (hbcCorrection i s) := by
  have k : Inv (Machine.countCorrected 1 (Machine.incSat (Machine.incMod s (Reg.hbcCe i) 47 0 1) (Reg.hbcCeLimit i) 62 32 1)) :=
    ((h.incMod _ _ _ _).incSat _ _ _ _).countCorrected 1
  unfold Machine.hbcCorrection
  dsimp only
  split
  · exact (k.setInt _ _ _).alert _
  · exact k

theorem Inv.hbcLog (h : Inv s) (p : Place) (k c g : Nat) (w : Reader) : Inv (hbcLog p k c g w s) := by
  unfold Machine.hbcLog; split
  · exact h
  · exact (h.rset _ _).rset _ _

theorem Inv.loseChannel (h : Inv s) (i : Nat) : Inv (loseChannel i s).1 := by
  unfold Machine.loseChannel; split
  · exact h
  · exact (h.setB _ _ _).setB _ _ _

theorem Inv.hbcUncorrectable (h : Inv s) (p : Place) (k c g : Nat) (w : Reader) : Inv (hbcUncorrectable p k c g w s).1 := by
  have q := ((h.incMod (Reg.hbcUe p.inst) 47 0 1).errCount .hbc p.inst 1).hbcLog p k c g w
  have z : ∀ {t : State} (g : List (Nat × Nat)), Inv t → Inv { t with ueGroups := g } := fun _ ht => ht
  unfold Machine.hbcUncorrectable
  dsimp only
  repeat' split
  all_goals first
    | exact q
    | exact q.loseChannel _
    | exact (z _ q).loseChannel _

theorem Inv.dieReports (h : Inv s) (ph : List Phys) (l : Nat) : Inv (dieReports ph l s) := by
  unfold Machine.dieReports
  dsimp only
  split
  · refine Inv.errCount (Inv.incMod ?_ _ _ _ _) _ _ _
    split
    · exact h.incMod _ _ _ _
    · exact h
  · split
    · exact h.incMod _ _ _ _
    · exact h

theorem Inv.keepPeer (h : Inv s) (ph : List Phys) (x : Nat × Option (List Byte × Nat)) : Inv (keepPeer ph s x) := by
  have k := (h.dieReports ph x.1).touchLine x.1
  unfold Machine.keepPeer
  dsimp only
  split
  · split
    · exact k
    · exact (k.putLine _ _ _).hbcCorrection _
  · exact k

/-- The state of a line's answer is the state it was built with. -/
theorem Inv.out (h : Inv s) {d : List Byte} {e : List Evt} {b : Bool} : Inv (LineOut.mk s d e b).s := h

theorem Inv.counted (h : Inv s) (b : Bool) (i : Nat) :
    Inv (if b then Machine.errCount .hbc i 1 (Machine.incMod s (Reg.hbcUe i) 47 0 1) else s) := by
  split
  · exact (h.incMod _ _ _ _).errCount _ _ _
  · exact h

theorem Inv.fixedDie (h : Inv s) (b : Bool) (i : Nat) : Inv (if b then Machine.incMod s (Reg.hbcOde i) 47 0 1 else s) := by
  split
  · exact h.incMod _ _ _ _
  · exact h

theorem Inv.readLine (h : Inv s) (ph : List Phys) (w : Reader) (a : Option (Nat × Nat × Nat)) (l : Nat) :
    Inv (readLine s ph w a l).s := by
  cases hr : Machine.regionOf s l with
  | none => simp only [Machine.readLine, hr]; exact h
  | some r =>
    have k := (h.fixedDie (dieFixed ph l) (Machine.locate s l).inst).touchLine l
    simp only [Machine.readLine, hr]
    generalize Machine.touchLine l (if dieFixed ph l = true then Machine.incMod s (Reg.hbcOde (locate s l).inst) 47 0 1 else s)
      = t at k ⊢
    generalize dieBad ph l = die
    have b := k.counted die (Machine.locate s l).inst
    generalize Machine.lineRaw t ph l = raw
    generalize Machine.locate s l = p at *
    split
    · split
      · exact b
      · exact Inv.counted ((k.putLine _ _ _).hbcCorrection _) _ _
      · split
        · have q := Inv.foldl (Machine.keepPeer ph)
            ((stripePeers r l).zip ((stripePeers r l).map (Machine.rsLine t ph))) k fun _ x ht => ht.keepPeer ph x
          generalize ((stripePeers r l).zip ((stripePeers r l).map (Machine.rsLine t ph))).foldl (Machine.keepPeer ph) t = u at q ⊢
          split
          · exact Inv.counted ((q.putLine _ _ _).hbcCorrection _) _ _
          · exact (q.hbcUncorrectable p 4 r.cls r.idx w).out
        · exact (k.hbcUncorrectable p 0 r.cls r.idx w).out
    · split
      · split
        · exact b
        · split
          · exact ((k.incMod _ _ _ _).errCount _ _ _).hbcLog _ _ _ _ _
          · split
            · exact ((k.incMod _ _ _ _).errCount _ _ _).hbcLog _ _ _ _ _
            · exact b
      · split
        · exact (k.hbcUncorrectable p 1 r.cls r.idx w).out
        · exact k

theorem Inv.fetchLine (h : Inv s) (ph : List Phys) (w : Reader) (a : Option (Nat × Nat × Nat)) (l : Nat) :
    Inv (fetchLine s ph w a l).s := by
  have k := h.readLine ph w a l
  unfold Machine.fetchLine
  generalize Machine.readLine s ph w a l = x at k ⊢
  dsimp only
  split
  · have f := h.freeBytes 64
    generalize Machine.freeBytes 64 s = y at f ⊢
    exact f
  · split
    · have f := k.freeBytes 64
      generalize Machine.freeBytes 64 x.s = y at f ⊢
      exact f
    · exact k

theorem Inv.readLines (h : Inv s) (ph : List Phys) (w : Reader) (a : Nat → Option (Nat × Nat × Nat)) (n l : Nat) :
    Inv (readLines ph w a n l s).s := by
  induction n generalizing s l with
  | zero => exact h
  | succ n ih => exact ih (h.fetchLine ph w (a l) l) _

theorem Inv.hbmRead (h : Inv s) (ph : List Phys) (w : Reader) (a n : Nat) : Inv (hbmRead s ph w a n).s := h.readLines ph w _ _ _

theorem Inv.writeLine (h : Inv s) (ph : List Phys) (w : Reader) (tg : Nat × Nat × Nat) (l o : Nat) (bs : List Byte) :
    Inv (writeLine s ph w tg l o bs).s := by
  unfold Machine.writeLine
  split
  · exact h
  · split
    · exact h
    · split
      · exact h.putLine _ _ _
      · exact (h.readLine ph w none l).putLine _ _ _

theorem Inv.writeLines (h : Inv s) (ph : List Phys) (w : Reader) (tg : Nat → Nat × Nat × Nat) (n l o : Nat) (bs : List Byte) :
    Inv (writeLines ph w tg n l o bs s).s := by
  induction n generalizing s l o bs with
  | zero => exact h
  | succ n ih => exact ih (h.writeLine ph w (tg l) l o _) _ _ _

theorem Inv.hbmWrite (h : Inv s) (ph : List Phys) (w : Reader) (a : Nat) (bs : List Byte) : Inv (hbmWrite s ph w a bs).s :=
  h.writeLines ph w _ _ _ _ _

theorem Inv.lckSeal (h : Inv s) (a : Nat) : Inv (lckSeal s a) := by
  unfold Machine.lckSeal
  refine Inv.foldl _ _ (Inv.foldl _ _ h ?_) ?_
  · intro t u ht
    exact Inv.foldl _ _ ht fun t l ht => ht.putLine _ _ _
  · intro t l ht
    exact ht.putLine _ _ _

theorem memWf_foldSet {β : Type} (f : β → Nat) (g : β → Byte) (l : List β) {m : Mem} (h : memWf m = true) :
    memWf (l.foldl (fun m b => memSet m (f b) (g b)) m) = true := by
  induction l generalizing m with
  | nil => exact h
  | cons b l ih => exact ih (memWf_set h _ _)

theorem Inv.lckWrite (h : Inv s) (b o : Nat) (bs : List Byte) : Inv (lckWrite s b o bs) := by
  have k : Inv { s with
      hbm := (List.range bs.length).foldl (fun m i => memSet m (lckAddr b (o + i)) (bs.getD i 0)) s.hbm } := by
    obtain ⟨h1, h2⟩ := h
    exact ⟨memWf_foldSet (fun i => lckAddr b (o + i)) (fun i => bs.getD i 0) _ h1, h2⟩
  unfold Machine.lckWrite
  dsimp only
  split
  · exact k
  · exact Inv.foldl _ _ k fun t i ht => ht.lckSeal _

theorem Inv.lckFetch (h : Inv s) (b o : Nat) : Inv (lckFetch s b o) :=
  Inv.foldl _ _ h fun _ _ ht => ht.readLine _ _ _ _

theorem Inv.damageLocker (h : Inv s) (a : Nat) : Inv (damageLocker a s) := by
  unfold Machine.damageLocker; split
  · exact ((((h.lckFetch _ _).lckWrite _ _ _).alert _).emit _)
  · exact h

theorem Inv.scaleWriteback (h : Inv s) : Inv (scaleWriteback s) := by
  unfold Machine.scaleWriteback
  exact Inv.foldl _ _ h fun t i ht => ht.hbmWrite _ _ _ _

theorem Inv.report (h : Inv s) (d i : Nat) (c : Counts) : Inv (report d i c s) := by
  unfold Machine.report; split
  · exact h
  · dsimp only
    split
    · exact Inv.setB (s := { s with census := _, step := _ }) h _ _ _
    · exact h

/-! ## Faults, steps and jobs -/

theorem Inv.pageRecord (h : Inv s) (t : Blk) (r : FaultRec) : Inv (pageRecord t r s) := by
  unfold Machine.pageRecord
  dsimp only
  refine Inv.setInt ?_ _ _ _
  have k : Inv (if t = .glb then s
      else (List.range 4).foldl (fun s i => Machine.rset s (Reg.errLog t r.inst i) (recWord r i)) s) := by
    split
    · exact h
    · exact Inv.foldl _ _ h fun u i hu => hu.rset _ _
  split
  · exact k.errCount _ _ _
  · exact k

theorem Inv.queueCard (h : Inv s) (c : Card) : Inv (queueCard c s) := h
theorem Inv.freeSlot (h : Inv s) : Inv (freeSlot s) := Inv.setB (s := { s with slot := none }) h _ _ _

theorem Inv.discardPending (h : Inv s) : Inv (discardPending s) := by
  unfold Machine.discardPending
  dsimp only
  repeat' split
  all_goals exact h

theorem Inv.promote (h : Inv s) : Inv (promote s) := by
  unfold Machine.promote
  split
  · split
    · exact Inv.freeSlot (s := { s with next := _ }) h
    · exact h
  · exact h

theorem Inv.setJobState (h : Inv s) (v : Nat) : Inv (setJobState v s) := by
  unfold Machine.setJobState
  dsimp only
  split
  · exact h.setF _ _ _ _
  · exact (h.setF _ _ _ _).setF _ _ _ _

theorem Inv.toHalted (h : Inv s) : Inv (toHalted s) := by
  exact (h.scaleWriteback.setJobState _).setInt _ _ _

theorem Inv.haltNow (h : Inv s) : Inv (haltNow s) := by
  unfold Machine.haltNow; split
  · exact Inv.toHalted (s := { s with job := _ }) h
  · exact h

theorem Inv.withStep (h : Inv s) (x : StepSt) : Inv { s with step := x } := h

/-- A change of every ring engine. -/
theorem Inv.mapRings (h : Inv s) (f : Ring → Ring) : Inv { s with rings := s.rings.map f } := by
  obtain ⟨h1, h2, h3, h4, h5, h6, h7, h8, h9, h10, h11⟩ := h
  exact ⟨h1, h2, h3, h4, h5, h6, h7, h8, h9, h10, by simpa using h11⟩

theorem Inv.endReady (h : Inv s) : Inv (endReady s) := h.mapRings _
theorem Inv.dropReady (h : Inv s) : Inv (dropReady s) := h.mapRings _

theorem Inv.showElapsed (h : Inv s) : Inv (showElapsed s) := by
  unfold Machine.showElapsed
  split
  · exact h
  · exact (h.takeFree.setF _ _ _ _).withStep _

theorem Inv.setPort (h : Inv s) (p : Nat) (x : Port) : Inv (setPort p x s) := by
  obtain ⟨h1, h2, h3, h4, h5, h6, h7, h8, h9, h10, h11⟩ := h
  exact ⟨h1, h2, h3, h4, h5, h6, h7, h8, h9, by simpa [Machine.setPort] using h10, h11⟩

theorem Inv.setRing (h : Inv s) (r : Nat) (x : Ring) : Inv (setRing r x s) := by
  obtain ⟨h1, h2, h3, h4, h5, h6, h7, h8, h9, h10, h11⟩ := h
  exact ⟨h1, h2, h3, h4, h5, h6, h7, h8, h9, h10, by simpa [Machine.setRing] using h11⟩

theorem Inv.secDrop (h : Inv s) : Inv (secDrop s) := h.setRing _ _
theorem Inv.dropRefill (h : Inv s) : Inv (dropRefill s) := Inv.secDrop (s := { s with locker := _ }) h

theorem Inv.stopRestart (h : Inv s) (c : Nat) : Inv (stopRestart c s) := by
  unfold Machine.stopRestart; split
  · exact h.dropRefill.failRestart _
  · exact h

theorem Inv.abortStep (h : Inv s) (c : Nat) (f : List Byte) : Inv (abortStep c f s) := by
  unfold Machine.abortStep; split
  · have k := h.showElapsed
    generalize Machine.showElapsed s = u at k ⊢
    dsimp only
    refine Inv.haltNow (Inv.discardPending (Inv.queueCard ?_ _))
    exact Inv.endReady (k.withStep _)
  · exact h

theorem Inv.noteUnitFault (h : Inv s) (t i n : Nat) : Inv (noteUnitFault t i n s) := h

theorem Inv.withJob (h : Inv s) (j : Job) : Inv { s with job := j } := h

theorem Inv.glbRecord (h : Inv s) (r : FaultRec) : Inv (glbRecord r s) :=
  ((Inv.foldl (fun s i => Machine.rset s (Reg.faultRec i) (recWord r i)) (List.range 4) h
    fun _ _ hu => hu.rset _ _).withJob _).setF _ _ _ _

/-- The part of a hard fault between `ERROR` and the end of the step. -/
theorem Inv.hardTail (k : Inv s) (c d : Prop) [Decidable c] [Decidable d] (f : State → Job) (a b e : Nat) :
    Inv (if d then Machine.noteUnitFault a b e (if c then { s with job := f s } else s)
      else (if c then { s with job := f s } else s)) := by
  by_cases hc : c
  · by_cases hd : d
    · rw [if_pos hd, if_pos hc]; exact (k.withJob _).noteUnitFault _ _ _
    · rw [if_neg hd, if_pos hc]; exact k.withJob _
  · by_cases hd : d
    · rw [if_pos hd, if_neg hc]; exact k.noteUnitFault _ _ _
    · rw [if_neg hd, if_neg hc]; exact k

theorem Inv.hardEnd (h : Inv s) (t : Blk) (r : FaultRec) : Inv (hardEnd t r s) := by
  have k := (h.glbRecord r).stopRestart r.code
  exact (k.hardTail ((Machine.stopRestart r.code (Machine.glbRecord r s)).step.active = true) (t = .mov ∨ t = .rng ∨ t = .rcl) (fun u => { u.job with stallNow := _ }) _ _ _).abortStep _ _

theorem Inv.hardFault (h : Inv s) (t : Blk) (r : FaultRec) : Inv (hardFault t r s) := (h.pageRecord t r).hardEnd t r

theorem Inv.raiseHard (h : Inv s) (c : Nat) (t : Blk) (i d : Nat) : Inv (raiseHard c t i d s) := h.hardFault _ _
theorem Inv.deviceLoss (h : Inv s) (c : Nat) (t : Blk) (i d : Nat) : Inv (deviceLoss c t i d s) := h.hardFault _ _

theorem Inv.setLink (h : Inv s) (p v : Nat) : Inv (setLink p v s) := by
  unfold Machine.setLink; split
  · exact h
  · exact (h.setF _ _ _ _).setInt _ _ _

theorem Inv.enterLoopback (h : Inv s) (p : Nat) : Inv (enterLoopback p s) := ((h.setPort _ _).setB _ _ _).setLink _ _

theorem Inv.closePair (h : Inv s) (k c : Nat) : Inv (closePair k c s) := by
  unfold Machine.closePair
  dsimp only
  split
  · refine Inv.enterLoopback (Inv.enterLoopback (Inv.setInt (Inv.setInt ?_ _ _ _) _ _ _) _) _
    have q := ((h.setB (Reg.underpass (2 * k)) 0 false).setB (Reg.underpass (2 * k)) 1 false).setF (Reg.underpass (2 * k)) 3 2 c
    split
    · exact q.setB _ _ _
    · exact q
  · exact h

theorem Inv.closeAll (h : Inv s) (c : Nat) : Inv (closeAll c s) := Inv.foldl _ _ h fun _ k ht => ht.closePair k c

theorem Inv.outOfService (h : Inv s) : Inv (outOfService s) := ((h.setB _ _ _).closeAll _).deviceLoss _ _ _ _

theorem Inv.lateDrop (h : Inv s) (r : FaultRec) : Inv (lateDrop r s) := h.hardFault _ _

theorem Inv.voidSlot (h : Inv s) (r : FaultRec) : Inv (voidSlot r s) := by
  have k := h.setB Reg.slotVoid r.mbSlot true
  unfold Machine.voidSlot
  dsimp only
  repeat' split
  all_goals first
    | exact h
    | exact k
    | exact k.withStep _
    | exact k.lateDrop _

theorem Inv.addConfined (h : Inv s) (r : FaultRec) : Inv (addConfined r s) := h
theorem Inv.dropMask (h : Inv s) (m : Mask) : Inv (dropMask m s) := h

theorem Inv.taintDeparted (h : Inv s) (m : Mask) : Inv (taintDeparted m s) := by
  unfold Machine.taintDeparted; split
  · exact h.withStep _
  · exact h

theorem Inv.dropNow (h : Inv s) (c : Confined) (a b : Nat) (i : Option Nat) : Inv (dropNow c a b i s) :=
  (h.pageRecord _ _).addConfined _

theorem Inv.markRecord (h : Inv s) (r : FaultRec) : Inv (markRecord r s) := by
  unfold Machine.markRecord
  dsimp only
  split
  · exact Inv.rset (s := { s with step := _ }) h _ _
  · exact h

theorem Inv.voidNow (h : Inv s) (r : FaultRec) : Inv (voidNow r s) := by
  have k := (h.taintDeparted (Machine.recMask r s)).dropMask (Machine.recMask r s)
  unfold Machine.voidNow
  dsimp only
  split
  · exact k
  · refine Inv.voidSlot ?_ _
    split
    · exact k.markRecord r
    · exact k

theorem Inv.confinedIdle (h : Inv s) (c : Confined) (a b : Nat) : Inv (confinedIdle c a b s) := by
  unfold Machine.confinedIdle
  dsimp only
  split
  · exact h.pageRecord _ _
  · exact (h.errCount _ _ _).pageRecord _ _

theorem Inv.confined (h : Inv s) (c : Confined) : Inv (confined c s) := by
  unfold Machine.confined; split
  · exact (h.dropNow _ _ _ _).voidNow _
  · exact h.confinedIdle _ _ _

theorem Inv.crossingLoss (h : Inv s) (e : Evt) : Inv (crossingLoss e s) := by
  unfold Machine.crossingLoss; split
  · exact Inv.foldl _ _ (h.loseChannel _) fun _ _ ht => ht.raiseHard _ _ _ _
  · exact h

theorem Inv.raiseFree (h : Inv s) (e : Evt) : Inv (raiseFree e s) := by
  unfold Machine.raiseFree
  repeat' split
  all_goals first
    | exact h.confined _
    | exact h.raiseHard _ _ _ _
    | exact (h.raiseHard _ _ _ _).crossingLoss _

theorem Inv.settleTraffic (h : Inv s) (l : List Evt) : Inv (settleTraffic l s) := by
  refine Inv.foldl _ _ h fun t e ht => ?_
  repeat' split
  all_goals first
    | exact ht.raiseFree _
    | exact ht.damageLocker _
    | exact ht

theorem Inv.trafficPhys (h : Inv s) (g : Option Nat) (ph : List Phys) : Inv (trafficPhys g ph s) := by
  refine Inv.foldl _ _ h fun t p ht => ?_
  split
  · exact (ht.errCount _ _ _).countCorrected _
  · exact ht.raiseFree _
  · exact ht.incSat _ _ _ _
  · exact ht

theorem Inv.clearDataPath (h : Inv s) : Inv (clearDataPath s) := by
  obtain ⟨h1, h2, h3, h4, h5, h6, h7, h8, h9, h10, h11⟩ := h
  exact ⟨h1, h2, rfl, h4, h5, h6, h7, rfl, fun _ => Nat.zero_le _, h10, by simpa [Machine.clearDataPath] using h11⟩

/-- A change of every port. -/
theorem Inv.mapPorts (h : Inv s) (f : Port → Port) : Inv { s with ports := s.ports.map f } := by
  obtain ⟨h1, h2, h3, h4, h5, h6, h7, h8, h9, h10, h11⟩ := h
  exact ⟨h1, h2, h3, h4, h5, h6, h7, h8, h9, by simpa using h10, h11⟩

/-- `LOCKER` where a pass ends. -/
theorem Inv.lockerEnd (h : Inv s) : Inv (if getB s Reg.lockerState 61 then Machine.setInt .glb 0 10 s else s) := by
  split
  · exact h.setInt _ _ _
  · exact h

theorem Inv.abortJob (h : Inv s) (c : Bool) : Inv (abortJob c s) := by
  unfold Machine.abortJob
  dsimp only
  refine (Inv.setB (Inv.lockerEnd ?_) _ _ _).toHalted
  have k : Inv (if s.step.active then (if c then Machine.abortStep 0x0E07 (List.replicate 32 0) s
      else { s with step := { s.step with active := false, aborted := true } }) else s) := by
    repeat' split
    all_goals first
      | exact h.abortStep _ _
      | exact h
  generalize (if s.step.active then (if c then Machine.abortStep 0x0E07 (List.replicate 32 0) s
      else { s with step := { s.step with active := false, aborted := true } }) else s) = u at k ⊢
  have q : Inv (if (s.step.aborted || s.job.faulted) = true then u else Machine.setF u Reg.jobStatus 47 32 0x0E07) := by
    split
    · exact k
    · exact k.setF _ _ _ _
  exact q.discardPending.clearDataPath.dropReady.mapPorts _

/-! ## Sequencers and hall passes -/

theorem Inv.setStream (h : Inv s) (i : Nat) (x : Stream) : Inv (setStream i x s) := h

theorem Inv.modStream (h : Inv s) (i : Nat) (f : Stream → Stream) : Inv (modStream i f s) := by
  unfold Machine.modStream; split <;> exact h

theorem Inv.postSys (h : Inv s) (p : Nat) : Inv (postSys p s) := by
  unfold Machine.postSys; split <;> exact h

/-- A pass takes any 16-bit count. -/
theorem Inv.setPass (h : Inv s) (p : Nat) {n : Nat} (hn : n ≤ 65535) : Inv (setPass p n s) := by
  obtain ⟨h1, h2, h3, h4, h5, h6, h7, h8, h9, h10⟩ := h
  refine ⟨h1, h2, h3, h4, h5, h6, h7, cellWf_set _ h8 _ _, fun q => ?_, h10⟩
  show cellGet noNat (cellSet noNat s.passes p n) q ≤ 65535
  rw [cellGet_set]
  split
  · exact hn
  · exact h9 q

theorem Inv.bankFault (h : Inv s) (a b c d e f : Nat) : Inv (bankFault a b c d e f s) := by
  unfold Machine.bankFault
  refine Inv.hardFault ?_ _ _
  unfold Machine.hpbLog
  split
  · exact h
  · exact h.rset _ _

theorem Inv.postPass (h : Inv s) (p n a b : Nat) : Inv (postPass p n a b s) := by
  unfold Machine.postPass; split
  · exact h.bankFault _ _ _ _ _ _
  · exact h.setPass _ (by omega)

theorem Inv.postEntry (h : Inv s) (e : Entry) (a b : Nat) : Inv (postEntry e a b s) := by
  unfold Machine.postEntry; split
  · exact Inv.foldl _ _ h fun t k ht => ht.postPass _ _ _ _
  · exact h

theorem Inv.noteWaiter (h : Inv s) (p a b : Nat) : Inv (noteWaiter p a b s).1 := by
  unfold Machine.noteWaiter
  dsimp only
  repeat' split
  all_goals first
    | exact h
    | exact h.bankFault _ _ _ _ _ _

end Sys2Proof
end

