-- ==== Sys2Proof/Laws/State.lean ====
section
/-! SUPPORT. What the smallest operations on the state leave alone: one lemma for each field and operation, true by
unfolding, so that no later proof unfolds a record update. -/

namespace Sys2Proof.Machine

variable (s : State)

/-! ### `rset` -/

@[simp] theorem rset_pending (a : Nat) (v : W64) : (rset s a v).pending = s.pending := id rfl
@[simp] theorem rset_hbm (a : Nat) (v : W64) : (rset s a v).hbm = s.hbm := id rfl
@[simp] theorem rset_chk (a : Nat) (v : W64) : (rset s a v).chk = s.chk := id rfl
@[simp] theorem rset_sp (a : Nat) (v : W64) : (rset s a v).sp = s.sp := id rfl
@[simp] theorem rset_spFix (a : Nat) (v : W64) : (rset s a v).spFix = s.spFix := id rfl
@[simp] theorem rset_acc (a : Nat) (v : W64) : (rset s a v).acc = s.acc := id rfl
@[simp] theorem rset_ksteps (a : Nat) (v : W64) : (rset s a v).ksteps = s.ksteps := id rfl
@[simp] theorem rset_passes (a : Nat) (v : W64) : (rset s a v).passes = s.passes := id rfl
@[simp] theorem rset_waiters (a : Nat) (v : W64) : (rset s a v).waiters = s.waiters := id rfl
@[simp] theorem rset_job (a : Nat) (v : W64) : (rset s a v).job = s.job := id rfl
@[simp] theorem rset_streams (a : Nat) (v : W64) : (rset s a v).streams = s.streams := id rfl
@[simp] theorem rset_step (a : Nat) (v : W64) : (rset s a v).step = s.step := id rfl
@[simp] theorem rset_slot (a : Nat) (v : W64) : (rset s a v).slot = s.slot := id rfl
@[simp] theorem rset_next (a : Nat) (v : W64) : (rset s a v).next = s.next := id rfl
@[simp] theorem rset_cards (a : Nat) (v : W64) : (rset s a v).cards = s.cards := id rfl
@[simp] theorem rset_census (a : Nat) (v : W64) : (rset s a v).census = s.census := id rfl
@[simp] theorem rset_stash (a : Nat) (v : W64) : (rset s a v).stash = s.stash := id rfl
@[simp] theorem rset_stashTimeouts (a : Nat) (v : W64) : (rset s a v).stashTimeouts = s.stashTimeouts := id rfl
@[simp] theorem rset_ports (a : Nat) (v : W64) : (rset s a v).ports = s.ports := id rfl
@[simp] theorem rset_rings (a : Nat) (v : W64) : (rset s a v).rings = s.rings := id rfl
@[simp] theorem rset_owned (a : Nat) (v : W64) : (rset s a v).owned = s.owned := id rfl
@[simp] theorem rset_views (a : Nat) (v : W64) : (rset s a v).views = s.views := id rfl
@[simp] theorem rset_locker (a : Nat) (v : W64) : (rset s a v).locker = s.locker := id rfl
@[simp] theorem rset_notices (a : Nat) (v : W64) : (rset s a v).notices = s.notices := id rfl
@[simp] theorem rset_words (a : Nat) (v : W64) : (rset s a v).words = s.words := id rfl
@[simp] theorem rset_intake (a : Nat) (v : W64) : (rset s a v).intake = s.intake := id rfl
@[simp] theorem rset_host (a : Nat) (v : W64) : (rset s a v).host = s.host := id rfl
@[simp] theorem rset_crossings (a : Nat) (v : W64) : (rset s a v).crossings = s.crossings := id rfl
@[simp] theorem rset_heldHost (a : Nat) (v : W64) : (rset s a v).heldHost = s.heldHost := id rfl
@[simp] theorem rset_drains (a : Nat) (v : W64) : (rset s a v).drains = s.drains := id rfl
@[simp] theorem rset_drainHeld (a : Nat) (v : W64) : (rset s a v).drainHeld = s.drainHeld := id rfl
@[simp] theorem rset_ueGroups (a : Nat) (v : W64) : (rset s a v).ueGroups = s.ueGroups := id rfl
@[simp] theorem rset_unbuilt (a : Nat) (v : W64) : (rset s a v).unbuilt = s.unbuilt := id rfl
@[simp] theorem rset_mended (a : Nat) (v : W64) : (rset s a v).mended = s.mended := id rfl
@[simp] theorem rset_scrubbed (a : Nat) (v : W64) : (rset s a v).scrubbed = s.scrubbed := id rfl
@[simp] theorem rset_fill (a : Nat) (v : W64) : (rset s a v).fill = s.fill := id rfl
@[simp] theorem rset_unitFaults (a : Nat) (v : W64) : (rset s a v).unitFaults = s.unitFaults := id rfl
@[simp] theorem rset_mgt (a : Nat) (v : W64) : (rset s a v).mgt = s.mgt := id rfl
@[simp] theorem rset_power (a : Nat) (v : W64) : (rset s a v).power = s.power := id rfl
@[simp] theorem rset_out (a : Nat) (v : W64) : (rset s a v).out = s.out := id rfl
@[simp] theorem rset_free (a : Nat) (v : W64) : (rset s a v).free = s.free := id rfl

/-! ### `setF` -/

@[simp] theorem setF_pending (a hi lo v : Nat) : (setF s a hi lo v).pending = s.pending := id rfl
@[simp] theorem setF_hbm (a hi lo v : Nat) : (setF s a hi lo v).hbm = s.hbm := id rfl
@[simp] theorem setF_chk (a hi lo v : Nat) : (setF s a hi lo v).chk = s.chk := id rfl
@[simp] theorem setF_sp (a hi lo v : Nat) : (setF s a hi lo v).sp = s.sp := id rfl
@[simp] theorem setF_spFix (a hi lo v : Nat) : (setF s a hi lo v).spFix = s.spFix := id rfl
@[simp] theorem setF_acc (a hi lo v : Nat) : (setF s a hi lo v).acc = s.acc := id rfl
@[simp] theorem setF_ksteps (a hi lo v : Nat) : (setF s a hi lo v).ksteps = s.ksteps := id rfl
@[simp] theorem setF_passes (a hi lo v : Nat) : (setF s a hi lo v).passes = s.passes := id rfl
@[simp] theorem setF_waiters (a hi lo v : Nat) : (setF s a hi lo v).waiters = s.waiters := id rfl
@[simp] theorem setF_job (a hi lo v : Nat) : (setF s a hi lo v).job = s.job := id rfl
@[simp] theorem setF_streams (a hi lo v : Nat) : (setF s a hi lo v).streams = s.streams := id rfl
@[simp] theorem setF_step (a hi lo v : Nat) : (setF s a hi lo v).step = s.step := id rfl
@[simp] theorem setF_slot (a hi lo v : Nat) : (setF s a hi lo v).slot = s.slot := id rfl
@[simp] theorem setF_next (a hi lo v : Nat) : (setF s a hi lo v).next = s.next := id rfl
@[simp] theorem setF_cards (a hi lo v : Nat) : (setF s a hi lo v).cards = s.cards := id rfl
@[simp] theorem setF_census (a hi lo v : Nat) : (setF s a hi lo v).census = s.census := id rfl
@[simp] theorem setF_stash (a hi lo v : Nat) : (setF s a hi lo v).stash = s.stash := id rfl
@[simp] theorem setF_stashTimeouts (a hi lo v : Nat) : (setF s a hi lo v).stashTimeouts = s.stashTimeouts := id rfl
@[simp] theorem setF_ports (a hi lo v : Nat) : (setF s a hi lo v).ports = s.ports := id rfl
@[simp] theorem setF_rings (a hi lo v : Nat) : (setF s a hi lo v).rings = s.rings := id rfl
@[simp] theorem setF_owned (a hi lo v : Nat) : (setF s a hi lo v).owned = s.owned := id rfl
@[simp] theorem setF_views (a hi lo v : Nat) : (setF s a hi lo v).views = s.views := id rfl
@[simp] theorem setF_locker (a hi lo v : Nat) : (setF s a hi lo v).locker = s.locker := id rfl
@[simp] theorem setF_notices (a hi lo v : Nat) : (setF s a hi lo v).notices = s.notices := id rfl
@[simp] theorem setF_words (a hi lo v : Nat) : (setF s a hi lo v).words = s.words := id rfl
@[simp] theorem setF_intake (a hi lo v : Nat) : (setF s a hi lo v).intake = s.intake := id rfl
@[simp] theorem setF_host (a hi lo v : Nat) : (setF s a hi lo v).host = s.host := id rfl
@[simp] theorem setF_crossings (a hi lo v : Nat) : (setF s a hi lo v).crossings = s.crossings := id rfl
@[simp] theorem setF_heldHost (a hi lo v : Nat) : (setF s a hi lo v).heldHost = s.heldHost := id rfl
@[simp] theorem setF_drains (a hi lo v : Nat) : (setF s a hi lo v).drains = s.drains := id rfl
@[simp] theorem setF_drainHeld (a hi lo v : Nat) : (setF s a hi lo v).drainHeld = s.drainHeld := id rfl
@[simp] theorem setF_ueGroups (a hi lo v : Nat) : (setF s a hi lo v).ueGroups = s.ueGroups := id rfl
@[simp] theorem setF_unbuilt (a hi lo v : Nat) : (setF s a hi lo v).unbuilt = s.unbuilt := id rfl
@[simp] theorem setF_mended (a hi lo v : Nat) : (setF s a hi lo v).mended = s.mended := id rfl
@[simp] theorem setF_scrubbed (a hi lo v : Nat) : (setF s a hi lo v).scrubbed = s.scrubbed := id rfl
@[simp] theorem setF_fill (a hi lo v : Nat) : (setF s a hi lo v).fill = s.fill := id rfl
@[simp] theorem setF_unitFaults (a hi lo v : Nat) : (setF s a hi lo v).unitFaults = s.unitFaults := id rfl
@[simp] theorem setF_mgt (a hi lo v : Nat) : (setF s a hi lo v).mgt = s.mgt := id rfl
@[simp] theorem setF_power (a hi lo v : Nat) : (setF s a hi lo v).power = s.power := id rfl
@[simp] theorem setF_out (a hi lo v : Nat) : (setF s a hi lo v).out = s.out := id rfl
@[simp] theorem setF_free (a hi lo v : Nat) : (setF s a hi lo v).free = s.free := id rfl

/-! ### `setB` -/

@[simp] theorem setB_pending (a b : Nat) (v : Bool) : (setB s a b v).pending = s.pending := id rfl
@[simp] theorem setB_hbm (a b : Nat) (v : Bool) : (setB s a b v).hbm = s.hbm := id rfl
@[simp] theorem setB_chk (a b : Nat) (v : Bool) : (setB s a b v).chk = s.chk := id rfl
@[simp] theorem setB_sp (a b : Nat) (v : Bool) : (setB s a b v).sp = s.sp := id rfl
@[simp] theorem setB_spFix (a b : Nat) (v : Bool) : (setB s a b v).spFix = s.spFix := id rfl
@[simp] theorem setB_acc (a b : Nat) (v : Bool) : (setB s a b v).acc = s.acc := id rfl
@[simp] theorem setB_ksteps (a b : Nat) (v : Bool) : (setB s a b v).ksteps = s.ksteps := id rfl
@[simp] theorem setB_passes (a b : Nat) (v : Bool) : (setB s a b v).passes = s.passes := id rfl
@[simp] theorem setB_waiters (a b : Nat) (v : Bool) : (setB s a b v).waiters = s.waiters := id rfl
@[simp] theorem setB_job (a b : Nat) (v : Bool) : (setB s a b v).job = s.job := id rfl
@[simp] theorem setB_streams (a b : Nat) (v : Bool) : (setB s a b v).streams = s.streams := id rfl
@[simp] theorem setB_step (a b : Nat) (v : Bool) : (setB s a b v).step = s.step := id rfl
@[simp] theorem setB_slot (a b : Nat) (v : Bool) : (setB s a b v).slot = s.slot := id rfl
@[simp] theorem setB_next (a b : Nat) (v : Bool) : (setB s a b v).next = s.next := id rfl
@[simp] theorem setB_cards (a b : Nat) (v : Bool) : (setB s a b v).cards = s.cards := id rfl
@[simp] theorem setB_census (a b : Nat) (v : Bool) : (setB s a b v).census = s.census := id rfl
@[simp] theorem setB_stash (a b : Nat) (v : Bool) : (setB s a b v).stash = s.stash := id rfl
@[simp] theorem setB_stashTimeouts (a b : Nat) (v : Bool) : (setB s a b v).stashTimeouts = s.stashTimeouts := id rfl
@[simp] theorem setB_ports (a b : Nat) (v : Bool) : (setB s a b v).ports = s.ports := id rfl
@[simp] theorem setB_rings (a b : Nat) (v : Bool) : (setB s a b v).rings = s.rings := id rfl
@[simp] theorem setB_owned (a b : Nat) (v : Bool) : (setB s a b v).owned = s.owned := id rfl
@[simp] theorem setB_views (a b : Nat) (v : Bool) : (setB s a b v).views = s.views := id rfl
@[simp] theorem setB_locker (a b : Nat) (v : Bool) : (setB s a b v).locker = s.locker := id rfl
@[simp] theorem setB_notices (a b : Nat) (v : Bool) : (setB s a b v).notices = s.notices := id rfl
@[simp] theorem setB_words (a b : Nat) (v : Bool) : (setB s a b v).words = s.words := id rfl
@[simp] theorem setB_intake (a b : Nat) (v : Bool) : (setB s a b v).intake = s.intake := id rfl
@[simp] theorem setB_host (a b : Nat) (v : Bool) : (setB s a b v).host = s.host := id rfl
@[simp] theorem setB_crossings (a b : Nat) (v : Bool) : (setB s a b v).crossings = s.crossings := id rfl
@[simp] theorem setB_heldHost (a b : Nat) (v : Bool) : (setB s a b v).heldHost = s.heldHost := id rfl
@[simp] theorem setB_drains (a b : Nat) (v : Bool) : (setB s a b v).drains = s.drains := id rfl
@[simp] theorem setB_drainHeld (a b : Nat) (v : Bool) : (setB s a b v).drainHeld = s.drainHeld := id rfl
@[simp] theorem setB_ueGroups (a b : Nat) (v : Bool) : (setB s a b v).ueGroups = s.ueGroups := id rfl
@[simp] theorem setB_unbuilt (a b : Nat) (v : Bool) : (setB s a b v).unbuilt = s.unbuilt := id rfl
@[simp] theorem setB_mended (a b : Nat) (v : Bool) : (setB s a b v).mended = s.mended := id rfl
@[simp] theorem setB_scrubbed (a b : Nat) (v : Bool) : (setB s a b v).scrubbed = s.scrubbed := id rfl
@[simp] theorem setB_fill (a b : Nat) (v : Bool) : (setB s a b v).fill = s.fill := id rfl
@[simp] theorem setB_unitFaults (a b : Nat) (v : Bool) : (setB s a b v).unitFaults = s.unitFaults := id rfl
@[simp] theorem setB_mgt (a b : Nat) (v : Bool) : (setB s a b v).mgt = s.mgt := id rfl
@[simp] theorem setB_power (a b : Nat) (v : Bool) : (setB s a b v).power = s.power := id rfl
@[simp] theorem setB_out (a b : Nat) (v : Bool) : (setB s a b v).out = s.out := id rfl
@[simp] theorem setB_free (a b : Nat) (v : Bool) : (setB s a b v).free = s.free := id rfl

/-! ### `incSat` -/

@[simp] theorem incSat_pending (a hi lo n : Nat) : (incSat s a hi lo n).pending = s.pending := id rfl
@[simp] theorem incSat_hbm (a hi lo n : Nat) : (incSat s a hi lo n).hbm = s.hbm := id rfl
@[simp] theorem incSat_chk (a hi lo n : Nat) : (incSat s a hi lo n).chk = s.chk := id rfl
@[simp] theorem incSat_sp (a hi lo n : Nat) : (incSat s a hi lo n).sp = s.sp := id rfl
@[simp] theorem incSat_spFix (a hi lo n : Nat) : (incSat s a hi lo n).spFix = s.spFix := id rfl
@[simp] theorem incSat_acc (a hi lo n : Nat) : (incSat s a hi lo n).acc = s.acc := id rfl
@[simp] theorem incSat_ksteps (a hi lo n : Nat) : (incSat s a hi lo n).ksteps = s.ksteps := id rfl
@[simp] theorem incSat_passes (a hi lo n : Nat) : (incSat s a hi lo n).passes = s.passes := id rfl
@[simp] theorem incSat_waiters (a hi lo n : Nat) : (incSat s a hi lo n).waiters = s.waiters := id rfl
@[simp] theorem incSat_job (a hi lo n : Nat) : (incSat s a hi lo n).job = s.job := id rfl
@[simp] theorem incSat_streams (a hi lo n : Nat) : (incSat s a hi lo n).streams = s.streams := id rfl
@[simp] theorem incSat_step (a hi lo n : Nat) : (incSat s a hi lo n).step = s.step := id rfl
@[simp] theorem incSat_slot (a hi lo n : Nat) : (incSat s a hi lo n).slot = s.slot := id rfl
@[simp] theorem incSat_next (a hi lo n : Nat) : (incSat s a hi lo n).next = s.next := id rfl
@[simp] theorem incSat_cards (a hi lo n : Nat) : (incSat s a hi lo n).cards = s.cards := id rfl
@[simp] theorem incSat_census (a hi lo n : Nat) : (incSat s a hi lo n).census = s.census := id rfl
@[simp] theorem incSat_stash (a hi lo n : Nat) : (incSat s a hi lo n).stash = s.stash := id rfl
@[simp] theorem incSat_stashTimeouts (a hi lo n : Nat) : (incSat s a hi lo n).stashTimeouts = s.stashTimeouts := id rfl
@[simp] theorem incSat_ports (a hi lo n : Nat) : (incSat s a hi lo n).ports = s.ports := id rfl
@[simp] theorem incSat_rings (a hi lo n : Nat) : (incSat s a hi lo n).rings = s.rings := id rfl
@[simp] theorem incSat_owned (a hi lo n : Nat) : (incSat s a hi lo n).owned = s.owned := id rfl
@[simp] theorem incSat_views (a hi lo n : Nat) : (incSat s a hi lo n).views = s.views := id rfl
@[simp] theorem incSat_locker (a hi lo n : Nat) : (incSat s a hi lo n).locker = s.locker := id rfl
@[simp] theorem incSat_notices (a hi lo n : Nat) : (incSat s a hi lo n).notices = s.notices := id rfl
@[simp] theorem incSat_words (a hi lo n : Nat) : (incSat s a hi lo n).words = s.words := id rfl
@[simp] theorem incSat_intake (a hi lo n : Nat) : (incSat s a hi lo n).intake = s.intake := id rfl
@[simp] theorem incSat_host (a hi lo n : Nat) : (incSat s a hi lo n).host = s.host := id rfl
@[simp] theorem incSat_crossings (a hi lo n : Nat) : (incSat s a hi lo n).crossings = s.crossings := id rfl
@[simp] theorem incSat_heldHost (a hi lo n : Nat) : (incSat s a hi lo n).heldHost = s.heldHost := id rfl
@[simp] theorem incSat_drains (a hi lo n : Nat) : (incSat s a hi lo n).drains = s.drains := id rfl
@[simp] theorem incSat_drainHeld (a hi lo n : Nat) : (incSat s a hi lo n).drainHeld = s.drainHeld := id rfl
@[simp] theorem incSat_ueGroups (a hi lo n : Nat) : (incSat s a hi lo n).ueGroups = s.ueGroups := id rfl
@[simp] theorem incSat_unbuilt (a hi lo n : Nat) : (incSat s a hi lo n).unbuilt = s.unbuilt := id rfl
@[simp] theorem incSat_mended (a hi lo n : Nat) : (incSat s a hi lo n).mended = s.mended := id rfl
@[simp] theorem incSat_scrubbed (a hi lo n : Nat) : (incSat s a hi lo n).scrubbed = s.scrubbed := id rfl
@[simp] theorem incSat_fill (a hi lo n : Nat) : (incSat s a hi lo n).fill = s.fill := id rfl
@[simp] theorem incSat_unitFaults (a hi lo n : Nat) : (incSat s a hi lo n).unitFaults = s.unitFaults := id rfl
@[simp] theorem incSat_mgt (a hi lo n : Nat) : (incSat s a hi lo n).mgt = s.mgt := id rfl
@[simp] theorem incSat_power (a hi lo n : Nat) : (incSat s a hi lo n).power = s.power := id rfl
@[simp] theorem incSat_out (a hi lo n : Nat) : (incSat s a hi lo n).out = s.out := id rfl
@[simp] theorem incSat_free (a hi lo n : Nat) : (incSat s a hi lo n).free = s.free := id rfl

/-! ### `incMod` -/

@[simp] theorem incMod_pending (a hi lo n : Nat) : (incMod s a hi lo n).pending = s.pending := id rfl
@[simp] theorem incMod_hbm (a hi lo n : Nat) : (incMod s a hi lo n).hbm = s.hbm := id rfl
@[simp] theorem incMod_chk (a hi lo n : Nat) : (incMod s a hi lo n).chk = s.chk := id rfl
@[simp] theorem incMod_sp (a hi lo n : Nat) : (incMod s a hi lo n).sp = s.sp := id rfl
@[simp] theorem incMod_spFix (a hi lo n : Nat) : (incMod s a hi lo n).spFix = s.spFix := id rfl
@[simp] theorem incMod_acc (a hi lo n : Nat) : (incMod s a hi lo n).acc = s.acc := id rfl
@[simp] theorem incMod_ksteps (a hi lo n : Nat) : (incMod s a hi lo n).ksteps = s.ksteps := id rfl
@[simp] theorem incMod_passes (a hi lo n : Nat) : (incMod s a hi lo n).passes = s.passes := id rfl
@[simp] theorem incMod_waiters (a hi lo n : Nat) : (incMod s a hi lo n).waiters = s.waiters := id rfl
@[simp] theorem incMod_job (a hi lo n : Nat) : (incMod s a hi lo n).job = s.job := id rfl
@[simp] theorem incMod_streams (a hi lo n : Nat) : (incMod s a hi lo n).streams = s.streams := id rfl
@[simp] theorem incMod_step (a hi lo n : Nat) : (incMod s a hi lo n).step = s.step := id rfl
@[simp] theorem incMod_slot (a hi lo n : Nat) : (incMod s a hi lo n).slot = s.slot := id rfl
@[simp] theorem incMod_next (a hi lo n : Nat) : (incMod s a hi lo n).next = s.next := id rfl
@[simp] theorem incMod_cards (a hi lo n : Nat) : (incMod s a hi lo n).cards = s.cards := id rfl
@[simp] theorem incMod_census (a hi lo n : Nat) : (incMod s a hi lo n).census = s.census := id rfl
@[simp] theorem incMod_stash (a hi lo n : Nat) : (incMod s a hi lo n).stash = s.stash := id rfl
@[simp] theorem incMod_stashTimeouts (a hi lo n : Nat) : (incMod s a hi lo n).stashTimeouts = s.stashTimeouts := id rfl
@[simp] theorem incMod_ports (a hi lo n : Nat) : (incMod s a hi lo n).ports = s.ports := id rfl
@[simp] theorem incMod_rings (a hi lo n : Nat) : (incMod s a hi lo n).rings = s.rings := id rfl
@[simp] theorem incMod_owned (a hi lo n : Nat) : (incMod s a hi lo n).owned = s.owned := id rfl
@[simp] theorem incMod_views (a hi lo n : Nat) : (incMod s a hi lo n).views = s.views := id rfl
@[simp] theorem incMod_locker (a hi lo n : Nat) : (incMod s a hi lo n).locker = s.locker := id rfl
@[simp] theorem incMod_notices (a hi lo n : Nat) : (incMod s a hi lo n).notices = s.notices := id rfl
@[simp] theorem incMod_words (a hi lo n : Nat) : (incMod s a hi lo n).words = s.words := id rfl
@[simp] theorem incMod_intake (a hi lo n : Nat) : (incMod s a hi lo n).intake = s.intake := id rfl
@[simp] theorem incMod_host (a hi lo n : Nat) : (incMod s a hi lo n).host = s.host := id rfl
@[simp] theorem incMod_crossings (a hi lo n : Nat) : (incMod s a hi lo n).crossings = s.crossings := id rfl
@[simp] theorem incMod_heldHost (a hi lo n : Nat) : (incMod s a hi lo n).heldHost = s.heldHost := id rfl
@[simp] theorem incMod_drains (a hi lo n : Nat) : (incMod s a hi lo n).drains = s.drains := id rfl
@[simp] theorem incMod_drainHeld (a hi lo n : Nat) : (incMod s a hi lo n).drainHeld = s.drainHeld := id rfl
@[simp] theorem incMod_ueGroups (a hi lo n : Nat) : (incMod s a hi lo n).ueGroups = s.ueGroups := id rfl
@[simp] theorem incMod_unbuilt (a hi lo n : Nat) : (incMod s a hi lo n).unbuilt = s.unbuilt := id rfl
@[simp] theorem incMod_mended (a hi lo n : Nat) : (incMod s a hi lo n).mended = s.mended := id rfl
@[simp] theorem incMod_scrubbed (a hi lo n : Nat) : (incMod s a hi lo n).scrubbed = s.scrubbed := id rfl
@[simp] theorem incMod_fill (a hi lo n : Nat) : (incMod s a hi lo n).fill = s.fill := id rfl
@[simp] theorem incMod_unitFaults (a hi lo n : Nat) : (incMod s a hi lo n).unitFaults = s.unitFaults := id rfl
@[simp] theorem incMod_mgt (a hi lo n : Nat) : (incMod s a hi lo n).mgt = s.mgt := id rfl
@[simp] theorem incMod_power (a hi lo n : Nat) : (incMod s a hi lo n).power = s.power := id rfl
@[simp] theorem incMod_out (a hi lo n : Nat) : (incMod s a hi lo n).out = s.out := id rfl
@[simp] theorem incMod_free (a hi lo n : Nat) : (incMod s a hi lo n).free = s.free := id rfl

/-! ### `emit` -/

@[simp] theorem emit_pending (o : Out) : (emit o s).pending = s.pending := id rfl
@[simp] theorem emit_regs (o : Out) : (emit o s).regs = s.regs := id rfl
@[simp] theorem emit_hbm (o : Out) : (emit o s).hbm = s.hbm := id rfl
@[simp] theorem emit_chk (o : Out) : (emit o s).chk = s.chk := id rfl
@[simp] theorem emit_sp (o : Out) : (emit o s).sp = s.sp := id rfl
@[simp] theorem emit_spFix (o : Out) : (emit o s).spFix = s.spFix := id rfl
@[simp] theorem emit_acc (o : Out) : (emit o s).acc = s.acc := id rfl
@[simp] theorem emit_ksteps (o : Out) : (emit o s).ksteps = s.ksteps := id rfl
@[simp] theorem emit_passes (o : Out) : (emit o s).passes = s.passes := id rfl
@[simp] theorem emit_waiters (o : Out) : (emit o s).waiters = s.waiters := id rfl
@[simp] theorem emit_job (o : Out) : (emit o s).job = s.job := id rfl
@[simp] theorem emit_streams (o : Out) : (emit o s).streams = s.streams := id rfl
@[simp] theorem emit_step (o : Out) : (emit o s).step = s.step := id rfl
@[simp] theorem emit_slot (o : Out) : (emit o s).slot = s.slot := id rfl
@[simp] theorem emit_next (o : Out) : (emit o s).next = s.next := id rfl
@[simp] theorem emit_cards (o : Out) : (emit o s).cards = s.cards := id rfl
@[simp] theorem emit_census (o : Out) : (emit o s).census = s.census := id rfl
@[simp] theorem emit_stash (o : Out) : (emit o s).stash = s.stash := id rfl
@[simp] theorem emit_stashTimeouts (o : Out) : (emit o s).stashTimeouts = s.stashTimeouts := id rfl
@[simp] theorem emit_ports (o : Out) : (emit o s).ports = s.ports := id rfl
@[simp] theorem emit_rings (o : Out) : (emit o s).rings = s.rings := id rfl
@[simp] theorem emit_owned (o : Out) : (emit o s).owned = s.owned := id rfl
@[simp] theorem emit_views (o : Out) : (emit o s).views = s.views := id rfl
@[simp] theorem emit_locker (o : Out) : (emit o s).locker = s.locker := id rfl
@[simp] theorem emit_notices (o : Out) : (emit o s).notices = s.notices := id rfl
@[simp] theorem emit_words (o : Out) : (emit o s).words = s.words := id rfl
@[simp] theorem emit_intake (o : Out) : (emit o s).intake = s.intake := id rfl
@[simp] theorem emit_host (o : Out) : (emit o s).host = s.host := id rfl
@[simp] theorem emit_crossings (o : Out) : (emit o s).crossings = s.crossings := id rfl
@[simp] theorem emit_heldHost (o : Out) : (emit o s).heldHost = s.heldHost := id rfl
@[simp] theorem emit_drains (o : Out) : (emit o s).drains = s.drains := id rfl
@[simp] theorem emit_drainHeld (o : Out) : (emit o s).drainHeld = s.drainHeld := id rfl
@[simp] theorem emit_ueGroups (o : Out) : (emit o s).ueGroups = s.ueGroups := id rfl
@[simp] theorem emit_unbuilt (o : Out) : (emit o s).unbuilt = s.unbuilt := id rfl
@[simp] theorem emit_mended (o : Out) : (emit o s).mended = s.mended := id rfl
@[simp] theorem emit_scrubbed (o : Out) : (emit o s).scrubbed = s.scrubbed := id rfl
@[simp] theorem emit_fill (o : Out) : (emit o s).fill = s.fill := id rfl
@[simp] theorem emit_unitFaults (o : Out) : (emit o s).unitFaults = s.unitFaults := id rfl
@[simp] theorem emit_mgt (o : Out) : (emit o s).mgt = s.mgt := id rfl
@[simp] theorem emit_power (o : Out) : (emit o s).power = s.power := id rfl
@[simp] theorem emit_free (o : Out) : (emit o s).free = s.free := id rfl

/-! ### `alert` -/

@[simp] theorem alert_pending (n : Nat) : (alert n s).pending = s.pending := id rfl
@[simp] theorem alert_regs (n : Nat) : (alert n s).regs = s.regs := id rfl
@[simp] theorem alert_hbm (n : Nat) : (alert n s).hbm = s.hbm := id rfl
@[simp] theorem alert_chk (n : Nat) : (alert n s).chk = s.chk := id rfl
@[simp] theorem alert_sp (n : Nat) : (alert n s).sp = s.sp := id rfl
@[simp] theorem alert_spFix (n : Nat) : (alert n s).spFix = s.spFix := id rfl
@[simp] theorem alert_acc (n : Nat) : (alert n s).acc = s.acc := id rfl
@[simp] theorem alert_ksteps (n : Nat) : (alert n s).ksteps = s.ksteps := id rfl
@[simp] theorem alert_passes (n : Nat) : (alert n s).passes = s.passes := id rfl
@[simp] theorem alert_waiters (n : Nat) : (alert n s).waiters = s.waiters := id rfl
@[simp] theorem alert_job (n : Nat) : (alert n s).job = s.job := id rfl
@[simp] theorem alert_streams (n : Nat) : (alert n s).streams = s.streams := id rfl
@[simp] theorem alert_step (n : Nat) : (alert n s).step = s.step := id rfl
@[simp] theorem alert_slot (n : Nat) : (alert n s).slot = s.slot := id rfl
@[simp] theorem alert_next (n : Nat) : (alert n s).next = s.next := id rfl
@[simp] theorem alert_cards (n : Nat) : (alert n s).cards = s.cards := id rfl
@[simp] theorem alert_census (n : Nat) : (alert n s).census = s.census := id rfl
@[simp] theorem alert_stash (n : Nat) : (alert n s).stash = s.stash := id rfl
@[simp] theorem alert_stashTimeouts (n : Nat) : (alert n s).stashTimeouts = s.stashTimeouts := id rfl
@[simp] theorem alert_ports (n : Nat) : (alert n s).ports = s.ports := id rfl
@[simp] theorem alert_rings (n : Nat) : (alert n s).rings = s.rings := id rfl
@[simp] theorem alert_owned (n : Nat) : (alert n s).owned = s.owned := id rfl
@[simp] theorem alert_views (n : Nat) : (alert n s).views = s.views := id rfl
@[simp] theorem alert_locker (n : Nat) : (alert n s).locker = s.locker := id rfl
@[simp] theorem alert_notices (n : Nat) : (alert n s).notices = s.notices := id rfl
@[simp] theorem alert_words (n : Nat) : (alert n s).words = s.words := id rfl
@[simp] theorem alert_intake (n : Nat) : (alert n s).intake = s.intake := id rfl
@[simp] theorem alert_host (n : Nat) : (alert n s).host = s.host := id rfl
@[simp] theorem alert_crossings (n : Nat) : (alert n s).crossings = s.crossings := id rfl
@[simp] theorem alert_heldHost (n : Nat) : (alert n s).heldHost = s.heldHost := id rfl
@[simp] theorem alert_drains (n : Nat) : (alert n s).drains = s.drains := id rfl
@[simp] theorem alert_drainHeld (n : Nat) : (alert n s).drainHeld = s.drainHeld := id rfl
@[simp] theorem alert_ueGroups (n : Nat) : (alert n s).ueGroups = s.ueGroups := id rfl
@[simp] theorem alert_unbuilt (n : Nat) : (alert n s).unbuilt = s.unbuilt := id rfl
@[simp] theorem alert_mended (n : Nat) : (alert n s).mended = s.mended := id rfl
@[simp] theorem alert_scrubbed (n : Nat) : (alert n s).scrubbed = s.scrubbed := id rfl
@[simp] theorem alert_fill (n : Nat) : (alert n s).fill = s.fill := id rfl
@[simp] theorem alert_unitFaults (n : Nat) : (alert n s).unitFaults = s.unitFaults := id rfl
@[simp] theorem alert_mgt (n : Nat) : (alert n s).mgt = s.mgt := id rfl
@[simp] theorem alert_power (n : Nat) : (alert n s).power = s.power := id rfl
@[simp] theorem alert_free (n : Nat) : (alert n s).free = s.free := id rfl

/-! ### `errCount` -/

@[simp] theorem errCount_pending (t : Blk) (i n : Nat) : (errCount t i n s).pending = s.pending := incSat_pending s _ _ _ _
@[simp] theorem errCount_hbm (t : Blk) (i n : Nat) : (errCount t i n s).hbm = s.hbm := incSat_hbm s _ _ _ _
@[simp] theorem errCount_chk (t : Blk) (i n : Nat) : (errCount t i n s).chk = s.chk := incSat_chk s _ _ _ _
@[simp] theorem errCount_sp (t : Blk) (i n : Nat) : (errCount t i n s).sp = s.sp := incSat_sp s _ _ _ _
@[simp] theorem errCount_spFix (t : Blk) (i n : Nat) : (errCount t i n s).spFix = s.spFix := incSat_spFix s _ _ _ _
@[simp] theorem errCount_acc (t : Blk) (i n : Nat) : (errCount t i n s).acc = s.acc := incSat_acc s _ _ _ _
@[simp] theorem errCount_ksteps (t : Blk) (i n : Nat) : (errCount t i n s).ksteps = s.ksteps := incSat_ksteps s _ _ _ _
@[simp] theorem errCount_passes (t : Blk) (i n : Nat) : (errCount t i n s).passes = s.passes := incSat_passes s _ _ _ _
@[simp] theorem errCount_waiters (t : Blk) (i n : Nat) : (errCount t i n s).waiters = s.waiters := incSat_waiters s _ _ _ _
@[simp] theorem errCount_job (t : Blk) (i n : Nat) : (errCount t i n s).job = s.job := incSat_job s _ _ _ _
@[simp] theorem errCount_streams (t : Blk) (i n : Nat) : (errCount t i n s).streams = s.streams := incSat_streams s _ _ _ _
@[simp] theorem errCount_step (t : Blk) (i n : Nat) : (errCount t i n s).step = s.step := incSat_step s _ _ _ _
@[simp] theorem errCount_slot (t : Blk) (i n : Nat) : (errCount t i n s).slot = s.slot := incSat_slot s _ _ _ _
@[simp] theorem errCount_next (t : Blk) (i n : Nat) : (errCount t i n s).next = s.next := incSat_next s _ _ _ _
@[simp] theorem errCount_cards (t : Blk) (i n : Nat) : (errCount t i n s).cards = s.cards := incSat_cards s _ _ _ _
@[simp] theorem errCount_census (t : Blk) (i n : Nat) : (errCount t i n s).census = s.census := incSat_census s _ _ _ _
@[simp] theorem errCount_stash (t : Blk) (i n : Nat) : (errCount t i n s).stash = s.stash := incSat_stash s _ _ _ _
@[simp] theorem errCount_stashTimeouts (t : Blk) (i n : Nat) : (errCount t i n s).stashTimeouts = s.stashTimeouts := incSat_stashTimeouts s _ _ _ _
@[simp] theorem errCount_ports (t : Blk) (i n : Nat) : (errCount t i n s).ports = s.ports := incSat_ports s _ _ _ _
@[simp] theorem errCount_rings (t : Blk) (i n : Nat) : (errCount t i n s).rings = s.rings := incSat_rings s _ _ _ _
@[simp] theorem errCount_owned (t : Blk) (i n : Nat) : (errCount t i n s).owned = s.owned := incSat_owned s _ _ _ _
@[simp] theorem errCount_views (t : Blk) (i n : Nat) : (errCount t i n s).views = s.views := incSat_views s _ _ _ _
@[simp] theorem errCount_locker (t : Blk) (i n : Nat) : (errCount t i n s).locker = s.locker := incSat_locker s _ _ _ _
@[simp] theorem errCount_notices (t : Blk) (i n : Nat) : (errCount t i n s).notices = s.notices := incSat_notices s _ _ _ _
@[simp] theorem errCount_words (t : Blk) (i n : Nat) : (errCount t i n s).words = s.words := incSat_words s _ _ _ _
@[simp] theorem errCount_intake (t : Blk) (i n : Nat) : (errCount t i n s).intake = s.intake := incSat_intake s _ _ _ _
@[simp] theorem errCount_host (t : Blk) (i n : Nat) : (errCount t i n s).host = s.host := incSat_host s _ _ _ _
@[simp] theorem errCount_crossings (t : Blk) (i n : Nat) : (errCount t i n s).crossings = s.crossings := incSat_crossings s _ _ _ _
@[simp] theorem errCount_heldHost (t : Blk) (i n : Nat) : (errCount t i n s).heldHost = s.heldHost := incSat_heldHost s _ _ _ _
@[simp] theorem errCount_drains (t : Blk) (i n : Nat) : (errCount t i n s).drains = s.drains := incSat_drains s _ _ _ _
@[simp] theorem errCount_drainHeld (t : Blk) (i n : Nat) : (errCount t i n s).drainHeld = s.drainHeld := incSat_drainHeld s _ _ _ _
@[simp] theorem errCount_ueGroups (t : Blk) (i n : Nat) : (errCount t i n s).ueGroups = s.ueGroups := incSat_ueGroups s _ _ _ _
@[simp] theorem errCount_unbuilt (t : Blk) (i n : Nat) : (errCount t i n s).unbuilt = s.unbuilt := incSat_unbuilt s _ _ _ _
@[simp] theorem errCount_mended (t : Blk) (i n : Nat) : (errCount t i n s).mended = s.mended := incSat_mended s _ _ _ _
@[simp] theorem errCount_scrubbed (t : Blk) (i n : Nat) : (errCount t i n s).scrubbed = s.scrubbed := incSat_scrubbed s _ _ _ _
@[simp] theorem errCount_fill (t : Blk) (i n : Nat) : (errCount t i n s).fill = s.fill := incSat_fill s _ _ _ _
@[simp] theorem errCount_unitFaults (t : Blk) (i n : Nat) : (errCount t i n s).unitFaults = s.unitFaults := incSat_unitFaults s _ _ _ _
@[simp] theorem errCount_mgt (t : Blk) (i n : Nat) : (errCount t i n s).mgt = s.mgt := incSat_mgt s _ _ _ _
@[simp] theorem errCount_power (t : Blk) (i n : Nat) : (errCount t i n s).power = s.power := incSat_power s _ _ _ _
@[simp] theorem errCount_out (t : Blk) (i n : Nat) : (errCount t i n s).out = s.out := incSat_out s _ _ _ _
@[simp] theorem errCount_free (t : Blk) (i n : Nat) : (errCount t i n s).free = s.free := incSat_free s _ _ _ _

theorem irqEdge_eq (s' : State) (t : Blk) (i : Nat) :
    irqEdge s s' t i = { s' with out := (irqEdge s s' t i).out } := by
  unfold irqEdge; split <;> rfl

theorem set_regs_out (a b : Nat) (v : Bool) (o : List Out) :
    { setB s a b v with out := o } = { s with regs := (setB s a b v).regs, out := o } := id rfl

theorem setInt_eq (t : Blk) (i b : Nat) :
    setInt t i b s = { s with regs := (setB s (Reg.intStatus t i) b true).regs, out := (setInt t i b s).out } :=
  (irqEdge_eq s _ t i).trans (set_regs_out s (Reg.intStatus t i) b true (setInt t i b s).out)

/-- Raising an interrupt bit sets that bit of the page's status register. -/
@[simp] theorem setInt_regs (t : Blk) (i b : Nat) : (setInt t i b s).regs = (setB s (Reg.intStatus t i) b true).regs := by
  rw [setInt_eq]

/-! ### `setInt` -/

@[simp] theorem setInt_pending (t : Blk) (i b : Nat) : (setInt t i b s).pending = s.pending := by rw [setInt_eq]
@[simp] theorem setInt_hbm (t : Blk) (i b : Nat) : (setInt t i b s).hbm = s.hbm := by rw [setInt_eq]
@[simp] theorem setInt_chk (t : Blk) (i b : Nat) : (setInt t i b s).chk = s.chk := by rw [setInt_eq]
@[simp] theorem setInt_sp (t : Blk) (i b : Nat) : (setInt t i b s).sp = s.sp := by rw [setInt_eq]
@[simp] theorem setInt_spFix (t : Blk) (i b : Nat) : (setInt t i b s).spFix = s.spFix := by rw [setInt_eq]
@[simp] theorem setInt_acc (t : Blk) (i b : Nat) : (setInt t i b s).acc = s.acc := by rw [setInt_eq]
@[simp] theorem setInt_ksteps (t : Blk) (i b : Nat) : (setInt t i b s).ksteps = s.ksteps := by rw [setInt_eq]
@[simp] theorem setInt_passes (t : Blk) (i b : Nat) : (setInt t i b s).passes = s.passes := by rw [setInt_eq]
@[simp] theorem setInt_waiters (t : Blk) (i b : Nat) : (setInt t i b s).waiters = s.waiters := by rw [setInt_eq]
@[simp] theorem setInt_job (t : Blk) (i b : Nat) : (setInt t i b s).job = s.job := by rw [setInt_eq]
@[simp] theorem setInt_streams (t : Blk) (i b : Nat) : (setInt t i b s).streams = s.streams := by rw [setInt_eq]
@[simp] theorem setInt_step (t : Blk) (i b : Nat) : (setInt t i b s).step = s.step := by rw [setInt_eq]
@[simp] theorem setInt_slot (t : Blk) (i b : Nat) : (setInt t i b s).slot = s.slot := by rw [setInt_eq]
@[simp] theorem setInt_next (t : Blk) (i b : Nat) : (setInt t i b s).next = s.next := by rw [setInt_eq]
@[simp] theorem setInt_cards (t : Blk) (i b : Nat) : (setInt t i b s).cards = s.cards := by rw [setInt_eq]
@[simp] theorem setInt_census (t : Blk) (i b : Nat) : (setInt t i b s).census = s.census := by rw [setInt_eq]
@[simp] theorem setInt_stash (t : Blk) (i b : Nat) : (setInt t i b s).stash = s.stash := by rw [setInt_eq]
@[simp] theorem setInt_stashTimeouts (t : Blk) (i b : Nat) : (setInt t i b s).stashTimeouts = s.stashTimeouts := by rw [setInt_eq]
@[simp] theorem setInt_ports (t : Blk) (i b : Nat) : (setInt t i b s).ports = s.ports := by rw [setInt_eq]
@[simp] theorem setInt_rings (t : Blk) (i b : Nat) : (setInt t i b s).rings = s.rings := by rw [setInt_eq]
@[simp] theorem setInt_owned (t : Blk) (i b : Nat) : (setInt t i b s).owned = s.owned := by rw [setInt_eq]
@[simp] theorem setInt_views (t : Blk) (i b : Nat) : (setInt t i b s).views = s.views := by rw [setInt_eq]
@[simp] theorem setInt_locker (t : Blk) (i b : Nat) : (setInt t i b s).locker = s.locker := by rw [setInt_eq]
@[simp] theorem setInt_notices (t : Blk) (i b : Nat) : (setInt t i b s).notices = s.notices := by rw [setInt_eq]
@[simp] theorem setInt_words (t : Blk) (i b : Nat) : (setInt t i b s).words = s.words := by rw [setInt_eq]
@[simp] theorem setInt_intake (t : Blk) (i b : Nat) : (setInt t i b s).intake = s.intake := by rw [setInt_eq]
@[simp] theorem setInt_host (t : Blk) (i b : Nat) : (setInt t i b s).host = s.host := by rw [setInt_eq]
@[simp] theorem setInt_crossings (t : Blk) (i b : Nat) : (setInt t i b s).crossings = s.crossings := by rw [setInt_eq]
@[simp] theorem setInt_heldHost (t : Blk) (i b : Nat) : (setInt t i b s).heldHost = s.heldHost := by rw [setInt_eq]
@[simp] theorem setInt_drains (t : Blk) (i b : Nat) : (setInt t i b s).drains = s.drains := by rw [setInt_eq]
@[simp] theorem setInt_drainHeld (t : Blk) (i b : Nat) : (setInt t i b s).drainHeld = s.drainHeld := by rw [setInt_eq]
@[simp] theorem setInt_ueGroups (t : Blk) (i b : Nat) : (setInt t i b s).ueGroups = s.ueGroups := by rw [setInt_eq]
@[simp] theorem setInt_unbuilt (t : Blk) (i b : Nat) : (setInt t i b s).unbuilt = s.unbuilt := by rw [setInt_eq]
@[simp] theorem setInt_mended (t : Blk) (i b : Nat) : (setInt t i b s).mended = s.mended := by rw [setInt_eq]
@[simp] theorem setInt_scrubbed (t : Blk) (i b : Nat) : (setInt t i b s).scrubbed = s.scrubbed := by rw [setInt_eq]
@[simp] theorem setInt_fill (t : Blk) (i b : Nat) : (setInt t i b s).fill = s.fill := by rw [setInt_eq]
@[simp] theorem setInt_unitFaults (t : Blk) (i b : Nat) : (setInt t i b s).unitFaults = s.unitFaults := by rw [setInt_eq]
@[simp] theorem setInt_mgt (t : Blk) (i b : Nat) : (setInt t i b s).mgt = s.mgt := by rw [setInt_eq]
@[simp] theorem setInt_power (t : Blk) (i b : Nat) : (setInt t i b s).power = s.power := by rw [setInt_eq]
@[simp] theorem setInt_free (t : Blk) (i b : Nat) : (setInt t i b s).free = s.free := by rw [setInt_eq]

end Sys2Proof.Machine
end

