-- ==== Sys2Proof/Laws/Regs.lean ====
section
/-! SUPPORT. Fields of words and registers: a field read after a field write, at the same place and at another. -/

namespace Sys2Proof.Machine

/-! ## Words -/

theorem fieldMask_bit (hi lo i : Nat) (h : hi < 64) (hl : lo ≤ hi) :
    (fieldMask hi lo).getLsbD i = decide (lo ≤ i ∧ i ≤ hi) := by
  unfold fieldMask
  rw [BitVec.getLsbD_ofNat]
  have e : 2 ^ (hi + 1) - 2 ^ lo = 2 ^ lo * (2 ^ (hi + 1 - lo) - 1) := by
    rw [Nat.mul_sub, ← Nat.pow_add, Nat.mul_one]
    congr 2; omega
  rw [e, Nat.testBit_two_pow_mul, Nat.testBit_two_pow_sub_one]
  by_cases a : lo ≤ i <;> by_cases b : i ≤ hi <;> simp [a, b] <;> omega

/-- The bits of a word after a field write. -/
theorem setFld_bit (w : W64) (hi lo v i : Nat) (h : hi < 64) (hl : lo ≤ hi) :
    (setFld w hi lo v).getLsbD i = if lo ≤ i ∧ i ≤ hi then v.testBit (i - lo) else w.getLsbD i := by
  unfold setFld
  simp only [BitVec.getLsbD_or, BitVec.getLsbD_and, BitVec.getLsbD_not, fieldMask_bit _ _ _ h hl, BitVec.getLsbD_ofNat]
  by_cases a : lo ≤ i ∧ i ≤ hi
  · have : i < 64 := by omega
    simp only [a, this, Nat.mul_comm v, Nat.testBit_two_pow_mul]
    simp
  · by_cases c : i < 64
    · simp [a, c]
    · have : w.getLsbD i = false := BitVec.getLsbD_of_ge _ _ (by omega)
      simp [a, this]

theorem fld_testBit (w : W64) (hi lo i : Nat) :
    (fld w hi lo).testBit i = (decide (i < hi + 1 - lo) && w.getLsbD (lo + i)) := by
  unfold fld bits
  rw [Nat.testBit_mod_two_pow, Nat.testBit_div_two_pow, BitVec.testBit_toNat, Nat.add_comm i lo]

theorem fld_lt (w : W64) (hi lo : Nat) : fld w hi lo < 2 ^ (hi + 1 - lo) := Nat.mod_lt _ (by positivity)

/-- The field that was written reads as what was written, cut to its width. -/
theorem fld_setFld_same (w : W64) (hi lo v : Nat) (h : hi < 64) (hl : lo ≤ hi) :
    fld (setFld w hi lo v) hi lo = v % 2 ^ (hi + 1 - lo) := by
  apply Nat.eq_of_testBit_eq
  intro i
  rw [fld_testBit, setFld_bit _ _ _ _ _ h hl, Nat.testBit_mod_two_pow]
  by_cases c : i < hi + 1 - lo
  · simp only [c, decide_true, Bool.true_and]
    rw [if_pos (by omega)]; congr 1; omega
  · simp [c]

/-- A field that lies apart from the one written reads as before. -/
theorem fld_setFld_other (w : W64) (hi lo v hi' lo' : Nat) (h : hi < 64) (hl : lo ≤ hi) (ap : hi < lo' ∨ hi' < lo) :
    fld (setFld w hi lo v) hi' lo' = fld w hi' lo' := by
  apply Nat.eq_of_testBit_eq
  intro i
  rw [fld_testBit, fld_testBit, setFld_bit _ _ _ _ _ h hl]
  by_cases c : i < hi' + 1 - lo'
  · simp only [c, decide_true, Bool.true_and]
    rw [if_neg (by omega)]
  · simp [c]

/-! ## Registers -/

theorem rget_rset (s : State) (a b : Nat) (v : W64) : rget (rset s a v) b = if b = a then v else rget s b :=
  cellGet_set _ _ _ _ _

@[simp] theorem rget_rset_same (s : State) (a : Nat) (v : W64) : rget (rset s a v) a = v := by simp [rget_rset]

theorem rget_rset_ne (s : State) {a b : Nat} (v : W64) (h : b ≠ a) : rget (rset s a v) b = rget s b := by
  simp [rget_rset, h]

/-- States with one register file read the same registers. -/
theorem rget_congr {s t : State} (h : t.regs = s.regs) (a : Nat) : rget t a = rget s a := by simp [rget, h]

theorem getF_congr {s t : State} (h : t.regs = s.regs) (a hi lo : Nat) : getF t a hi lo = getF s a hi lo := by
  simp only [getF, rget_congr h]

theorem getB_congr {s t : State} (h : t.regs = s.regs) (a k : Nat) : getB t a k = getB s a k := by
  simp only [getB, getF_congr h]

theorem rget_setF (s : State) (a b hi lo v : Nat) :
    rget (setF s a hi lo v) b = if b = a then setFld (rget s a) hi lo v else rget s b := rget_rset _ _ _ _

theorem rget_setB (s : State) (a b k : Nat) (v : Bool) :
    rget (setB s a k v) b = if b = a then setFld (rget s a) k k (b2n v) else rget s b := rget_rset _ _ _ _

theorem rget_setB_ne (s : State) {a b : Nat} (k : Nat) (v : Bool) (h : b ≠ a) : rget (setB s a k v) b = rget s b := by
  simp [rget_setB, h]

theorem rget_setF_ne (s : State) {a b : Nat} (hi lo v : Nat) (h : b ≠ a) : rget (setF s a hi lo v) b = rget s b := by
  simp [rget_setF, h]

theorem getF_setF_same (s : State) (a hi lo v : Nat) (h : hi < 64) (hl : lo ≤ hi) :
    getF (setF s a hi lo v) a hi lo = v % 2 ^ (hi + 1 - lo) := by
  simp [getF, rget_setF, fld_setFld_same _ _ _ _ h hl]

theorem getF_setF_other (s : State) (a hi lo v hi' lo' : Nat) (h : hi < 64) (hl : lo ≤ hi) (ap : hi < lo' ∨ hi' < lo) :
    getF (setF s a hi lo v) a hi' lo' = getF s a hi' lo' := by
  simp [getF, rget_setF, fld_setFld_other _ _ _ _ _ _ h hl ap]

theorem getF_setF_ne (s : State) {a b : Nat} (hi lo v hi' lo' : Nat) (h : b ≠ a) :
    getF (setF s a hi lo v) b hi' lo' = getF s b hi' lo' := by
  simp [getF, rget_setF, h]

theorem getF_rset_ne (s : State) {a b : Nat} (v : W64) (hi lo : Nat) (h : b ≠ a) :
    getF (rset s a v) b hi lo = getF s b hi lo := by
  simp [getF, rget_rset, h]

/-- A modular counter after it counts. -/
theorem getF_incMod (s : State) (a hi lo n : Nat) (h : hi < 64) (hl : lo ≤ hi) :
    getF (incMod s a hi lo n) a hi lo = (getF s a hi lo + n) % 2 ^ (hi + 1 - lo) := by
  unfold incMod
  rw [getF_setF_same _ _ _ _ _ h hl, Nat.mod_mod]

/-- A saturating counter after it counts. -/
theorem getF_incSat (s : State) (a hi lo n : Nat) (h : hi < 64) (hl : lo ≤ hi) :
    getF (incSat s a hi lo n) a hi lo = min (getF s a hi lo + n) (2 ^ (hi + 1 - lo) - 1) := by
  unfold incSat
  rw [getF_setF_same _ _ _ _ _ h hl, satAdd]
  have : 0 < 2 ^ (hi + 1 - lo) := by positivity
  exact Nat.mod_eq_of_lt (by omega)

theorem rget_incMod_ne (s : State) {a b : Nat} (hi lo n : Nat) (h : b ≠ a) :
    rget (incMod s a hi lo n) b = rget s b := rget_setF_ne _ _ _ _ h

theorem rget_incSat_ne (s : State) {a b : Nat} (hi lo n : Nat) (h : b ≠ a) :
    rget (incSat s a hi lo n) b = rget s b := rget_setF_ne _ _ _ _ h

theorem b2n_mod (v : Bool) : b2n v % 2 = b2n v := by cases v <;> rfl

theorem getB_setB_same (s : State) (a k : Nat) (v : Bool) (h : k < 64) : getB (setB s a k v) a k = v := by
  unfold getB setB
  rw [getF_setF_same _ _ _ _ _ h (le_refl _)]
  cases v <;> simp [b2n]

theorem getB_setB_other (s : State) (a k k' : Nat) (v : Bool) (h : k < 64) (ap : k ≠ k') :
    getB (setB s a k v) a k' = getB s a k' := by
  unfold getB setB
  rw [getF_setF_other _ _ _ _ _ _ _ h (le_refl _) (by omega)]

theorem getB_setB_ne (s : State) {a b : Nat} (k k' : Nat) (v : Bool) (h : b ≠ a) :
    getB (setB s a k v) b k' = getB s b k' := by
  unfold getB setB
  rw [getF_setF_ne _ _ _ _ _ _ h]

/-- Raising an interrupt bit touches no register but the page's status. -/
theorem rget_setInt (s : State) (t : Blk) (i b a : Nat) :
    rget (setInt t i b s) a = rget (setB s (Reg.intStatus t i) b true) a := rget_congr (setInt_regs s t i b) a

theorem rget_emit (s : State) (o : Out) (a : Nat) : rget (emit o s) a = rget s a := rfl

theorem rget_alert (s : State) (n a : Nat) : rget (alert n s) a = rget s a := rfl

theorem cellWf_rset {s : State} (h : cellWf regReset s.regs = true) (a : Nat) (v : W64) :
    cellWf regReset (rset s a v).regs = true := cellWf_set _ h a v

end Sys2Proof.Machine
end

