-- ==== Sys2Proof/WellFormed.lean ====
section
/-! DEFINITION. When a command's operands are ones that the hardware can carry: stream, port, ring and instance numbers in
range, and byte strings of the lengths that the carrying transaction has. -/

namespace Sys2Proof

/-- Instances built of a block (20 Table 20-1). -/
def Blk.count : Blk → Nat
  | .glb => 1 | .dst => 4 | .core => 136 | .jnc => 36 | .mov => 8 | .hbs => 6 | .hbc => 384 | .nlp => 6
  | .rng => 3 | .hpb => 33 | .hif => 1 | .mbx => 1 | .mgt => 1 | .rcl => 4 | .itk => 1 | .dbg => 1

/-- A stream table index: at most 171 streams (03 R46). -/
def stOk (st : Nat) : Bool := decide (st < 171)

/-- A Noloc port (12 R259). -/
def portOk (p : Nat) : Bool := decide (p < 6)

/-- A built instance of a block. -/
def instOk (t : Blk) (i : Nat) : Bool := decide (i < t.count)

/-- A master identity is one value: `other` carries none of the named ones (16 Table 16-2). -/
def Master.wf : Master → Bool
  | .other i => decide (i ≠ 0x01 ∧ i ≠ 0x10 ∧ i ≠ 0x11 ∧ i ≠ 0x20 ∧ i ≠ 0x7F)
  | _ => true

/-- Byte positions of a line's 72 raw bytes. -/
def Phys.wf : Phys → Bool
  | .hbmFlip _ fs => fs.all fun f => decide (f.1 < 72)
  | .residue a r c => decide (a < 4 ∧ r < 64 ∧ c < 64)
  | .gridWaits k _ _ => decide (k < 136)
  | _ => true

/-- What the peer of an identity exchange can send (12 R260). -/
def PeerIdentity.wf (p : PeerIdentity) : Bool :=
  decide (p.role < 4 ∧ p.pair < 3 ∧ p.port < 6 ∧ p.reqBuf < 65536 ∧ p.rspBuf < 65536 ∧ p.secBuf < 65536 ∧ p.loss < 256)

/-- The wake source names a port (18 Table 18-5). -/
def WakeSource.wf : WakeSource → Bool
  | .noloc p => portOk p
  | .lomra p => portOk p
  | _ => true

/-- A well-formed command. -/
def Instr.wf : Instr → Bool
  | .dbStep m _ _ => m.wf
  | .worksheetValidation ph => ph.all Phys.wf
  | .stepStart => true
  | .setPhaseComplete => true
  | .start m _ => m.wf
  | .jobValidation ph => ph.all Phys.wf
  | .halt m _ => m.wf
  | .nop st ph | .matmul st ph | .vector st ph | .optim st ph | .copy st ph | .transpose st ph | .permute st ph
  | .fill st ph | .stashWrite st ph | .stashRead st ph | .gather st ph | .scatterAdd st ph | .merge st ph
  | .histogram st ph | .compress st ph | .decompress st ph | .route st ph | .dispatch st ph | .combineReturn st ph
  | .combineMerge st ph | .pack st ph | .unpack st ph | .ids st ph | .idsPadded st ph | .lenmask st ph
  | .reduceScatter st ph | .allGather st ph | .allReduce st ph | .rotate st ph
  | .passWaitRelease st ph | .entryComplete st ph => stOk st && ph.all Phys.wf
  | .passSet st | .segment st | .updateBegin st | .stepEnd st | .waitLimitExpiry st
  | .windowOpen st | .windowClose st | .attach st | .detach st => stOk st
  | .stepWatchdog => true
  | .controlWordReceive r => decide (r < 3)
  | .gateDecision | .bellStart | .bellDrain | .securingReadComplete | .securingPassComplete | .reportCardWrite => true
  | .bellDrainComplete us => decide (us < 2 ^ 32)
  | .force m _ | .abort m _ | .restart m _ => m.wf
  | .substitutionComplete js => js.all (instOk .jnc)
  | .lockerReturned | .refilled | .lockerWriteArrival => true
  | .lockerReadArrival ph => ph.all Phys.wf
  | .lowRearm m i _ => m.wf && instOk .dst i
  | .paceWindow i _ => instOk .dst i
  | .glbRegionW0 m k _ | .glbRegionW1 m k _ => m.wf && decide (k < 256)
  | .regionInitStart m _ => m.wf
  | .regionFillDone => true
  | .scrubRead st _ ph => instOk .hbs st && ph.all Phys.wf
  | .rearm m i _ => m.wf && instOk .hbc i
  | .spEccWriteback c => instOk .core c
  | .retainEntry c k => instOk .core c && decide (k < 8)
  | .clockRunning t i => instOk t i
  | .hifHwtW0 m k _ | .hifHwtW1 m k _ => m.wf && decide (k < 64)
  | .hifCardCfg m _ => m.wf
  | .apertureRead _ _ ph => ph.all Phys.wf
  | .apertureWrite _ d ph => decide (d.length ≤ 512) && ph.all Phys.wf
  | .atomicOp _ => true
  | .poisonedWrite bar _ => decide (bar = 0 ∨ bar = 2 ∨ bar = 4)
  | .completionTimeout (.intake r) => decide (r < 16)
  | .completionTimeout (.stash _) => true
  | .tail m r _ | .itkEn m r _ | .itkErrClear m r _ => m.wf && decide (r < 16)
  | .intakeEntryRead r c => decide (r < 16) && (match c with
      | .data bs => decide (bs.length = 32)
      | .bad => true)
  | .intakeEntryComplete r _ => decide (r < 16)
  | .mbTx m c _ _ | .mbRx m c _ => m.wf && decide (c < 56)
  | .wqTx m c _ _ | .wqRx m c _ => m.wf && decide (56 ≤ c ∧ c < 64)
  | .mbxBind m c _ => m.wf && decide (c < 64)
  | .blkLock m t i _ | .enable m t i _ | .drain m t i _ => m.wf && instOk t i
  | .registerWrite m bar2 a sz _ | .rcRead m bar2 a sz =>
    m.wf && decide (a < (if bar2 then 2 ^ 22 else 2 ^ 29)) && decide (sz = 1 ∨ sz = 2 ∨ sz = 4 ∨ sz = 8)
  | .aliasWrite m a _ | .aliasRead m a => m.wf && decide (a < 2 ^ 29)
  | .drained t i => instOk t i
  | .blockGo m _ | .device m _ => m.wf
  | .blockResetDone | .porN | .rstN | .hostReset _ | .pgFall _ | .boot => true
  | .hbmTrained t =>
    t.lost.all (fun i => decide (i < 384)) && t.lanesRepaired.all (fun l => decide (l.1 < 384 ∧ l.2 < 256)) &&
      t.untrained.all fun s => decide (s < 6)
  | .ready us => decide (us < 2 ^ 32)
  | .takeover m _ | .kick m _ | .svnAdvance m _ | .flashProgram m _ | .flashErase m _ | .flashRead m _ => m.wf
  | .sramUncorrectable _ => true
  | .mgtWatchdogExpiry | .takeoverComplete | .flashDone => true
  | .i2cWrite _ off d => decide (off < 65536 ∧ d.length ≤ 8)
  | .i2cRead _ off => decide (off < 65536)
  | .i2cAddressMatch a => decide (a < 128)
  | .sensorSample d s => decide (d.length = 16 ∧ s.length = 6)
  | .sleepRequest m _ | .standbyRequest m _ => m.wf
  | .wakeRequest w => w.wf
  | .nolocActivity p | .lomraWakePattern p => portOk p
  | .pcieD0 | .entrySequenceComplete | .restoreComplete | .idleEntry | .railFail | .voltageLoopPeriod => true
  | .avsResponse _ _ | .vdonePoll _ _ _ | .avsLost | .currentSample _ _ _ | .powerLimit1ms => true
  | .floorRate m _ | .mgtVset m _ => m.wf
  | .retrain m p _ | .fastRetrain m p _ | .underpassClose m p _ | .underpassOpen m p _ => m.wf && portOk p
  | .fastRetrainTimeout p | .lossOfSignal p | .trainingTimeout p | .trainingRetry p | .laneWindow p | .retryReq p
  | .ackTimeout p | .retryLimit p | .lost p | .lctl p | .lctlTimer p | .bell p | .stepReady p | .transferForward p
  | .remoteWriteArrival p | .openCloseMarker p | .blockEnd p => portOk p
  | .lanesLocked p a b =>
    portOk p && (match a with
      | some l => decide (l < 16)
      | none => true) && (match b with
      | some l => decide (l < 16)
      | none => true)
  | .identityExchange p q | .identityRetry p q => portOk p && q.wf
  | .flitTransmit p c => portOk p && decide (c < 3)
  | .flitReceive p bs => portOk p && decide (bs.length = 256)
  | .underpassOpenTimeout k => decide (k < 3)
  | .transferSend r => decide (r < 3)
  | .remoteReadArrival p ph | .resp p ph | .ringTransferReceive p ph => portOk p && ph.all Phys.wf
  | .dbgMemRead m _ | .dbgMemWrite m _ | .dbgFifoData m => m.wf
  | .dbgMemDone | .fuseBurnDone => true
  | .resetRelease _ straps => decide (straps < 4)
  | .powerGoodRise _ => true
  | .avsStatusAlert _ _ | .avsBusyRetry _ => true
  | .laneLockLost p l => portOk p && decide (l < 16)
  | .hbmLaneFault i | .rebuildComplete i => instOk .hbc i
  | .holderReport g => decide (g < 2)

end Sys2Proof
end

