-- ==== Sys2Proof/Tests/Slice0.lean ====
section
/-! SUPPORT. Tests: ill-formed commands are refused by `Instr.wf`, states and operands that meet the hypotheses of each
statement, and small one-step tests. Expected values come from the spec's own tables and rules. -/

namespace Sys2Proof.Tests

set_option Elab.async false

open Sys2Proof Sys2Proof.Machine Sys2Proof.Stmt

/-! ## States -/

/-- After bring-up, in power state RUN. -/
def run : State := setF State.reset Reg.pwrStatus 63 60 0

/-- A job READY. -/
def job : State := setF run Reg.jobStatus 63 60 2

/-- A running step 7 of streams `xs`, its set phase over: one micro-batch of length 4, bucket 0, groups 3 and 4. -/
def stepOf (xs : List Stream) : State :=
  { setF run Reg.jobStatus 63 60 3 with
    streams := xs
    step := { active := true, setOpen := true
              ws := { step := 7, mbs := [{ length := 4, bucket := 0, groups := 2, firstGroup := 3 }] } } }

/-- An entry of opcode `op` with further bits in its words. -/
def entry (op : Nat) (w0 w1 w2 w3 : Nat) : Entry :=
  { w0 := BitVec.ofNat 64 (op + w0), w1 := BitVec.ofNat 64 w1, w2 := BitVec.ofNat 64 w2, w3 := BitVec.ofNat 64 w3 }

/-- A stream of core 0 with entries `es`. -/
def core0 (es : List Entry) : Stream := { kind := 0, unit := 0, entries := es }

/-- The answer of a command where it is a next state. -/
def after (o : Host.Outcome State Fault Refusal) : State :=
  match o with
  | .next t => t
  | _ => State.reset

/-! ## Ill-formed commands -/

theorem test_wf_master : (Instr.force (.other 0x01) 0).wf = false := by decide
theorem test_wf_stream : (Instr.copy 171 []).wf = false ∧ (Instr.copy 170 []).wf = true := by decide
theorem test_wf_phys_line : (Instr.copy 0 [.hbmFlip 0 [(72, 1)]]).wf = false := by decide
theorem test_wf_phys_cell : (Instr.matmul 0 [.residue 4 0 0]).wf = false := by decide
theorem test_wf_ring : (Instr.controlWordReceive 3).wf = false ∧ (Instr.transferSend 3).wf = false := by decide
theorem test_wf_elapsed : (Instr.bellDrainComplete (2 ^ 32)).wf = false ∧ (Instr.ready (2 ^ 32)).wf = false := by decide
theorem test_wf_engines : (Instr.substitutionComplete [36]).wf = false := by decide
theorem test_wf_district : (Instr.lowRearm .host 4 0).wf = false ∧ (Instr.paceWindow 4 1).wf = false := by decide
theorem test_wf_region : (Instr.glbRegionW0 .host 256 0).wf = false ∧ (Instr.glbRegionW1 .host 256 0).wf = false := by decide
theorem test_wf_stack : (Instr.scrubRead 6 0 []).wf = false := by decide
theorem test_wf_channel_controller : (Instr.rearm .host 384 0).wf = false ∧ (Instr.hbmLaneFault 384).wf = false := by decide
theorem test_wf_core : (Instr.spEccWriteback 136).wf = false ∧ (Instr.retainEntry 0 8).wf = false := by decide
theorem test_wf_instance : (Instr.clockRunning .rng 3).wf = false ∧ (Instr.drained .hpb 33).wf = false := by decide
theorem test_wf_host_window : (Instr.hifHwtW0 .host 64 0).wf = false ∧ (Instr.hifHwtW1 .host 64 0).wf = false := by decide
theorem test_wf_aperture : (Instr.apertureWrite 0 (List.replicate 513 0) []).wf = false := by decide +kernel
theorem test_wf_bar : (Instr.poisonedWrite 1 0).wf = false := by decide
theorem test_wf_timeout : (Instr.completionTimeout (.intake 16)).wf = false := by decide
theorem test_wf_intake : (Instr.tail .host 16 0).wf = false ∧ (Instr.intakeEntryRead 0 (.data [0])).wf = false := by decide
theorem test_wf_notice : (Instr.mbTx .host 56 0 true).wf = false ∧ (Instr.mbRx .host 56 true).wf = false := by decide
theorem test_wf_words : (Instr.wqTx .host 55 0 true).wf = false ∧ (Instr.wqRx .host 64 true).wf = false := by decide
theorem test_wf_binding : (Instr.mbxBind .host 64 0).wf = false := by decide
theorem test_wf_page : (Instr.blkLock .host .glb 1 0).wf = false ∧ (Instr.enable .host .nlp 6 0).wf = false := by decide
theorem test_wf_access : (Instr.registerWrite .host true (2 ^ 22) 8 0).wf = false ∧ (Instr.rcRead .host false 0 3).wf = false := by
  decide
theorem test_wf_alias : (Instr.aliasWrite .host (2 ^ 29) 0).wf = false := by decide
theorem test_wf_training : (Instr.hbmTrained { lost := [384], lanesRepaired := [], untrained := [] }).wf = false ∧
    (Instr.hbmTrained { lost := [], lanesRepaired := [(0, 256)], untrained := [] }).wf = false ∧
    (Instr.hbmTrained { lost := [], lanesRepaired := [], untrained := [6] }).wf = false := by decide
theorem test_wf_i2c : (Instr.i2cWrite .debug 0 (List.replicate 9 0)).wf = false ∧ (Instr.i2cRead .debug 65536).wf = false ∧
    (Instr.i2cAddressMatch 128).wf = false := by decide
theorem test_wf_sample : (Instr.sensorSample [] []).wf = false := by decide
theorem test_wf_wake : (Instr.wakeRequest (.noloc 6)).wf = false := by decide
theorem test_wf_port : (Instr.retrain .host 6 0).wf = false ∧ (Instr.bell 6).wf = false := by decide
theorem test_wf_lane : (Instr.lanesLocked 0 (some 16) none).wf = false ∧ (Instr.laneLockLost 0 16).wf = false := by decide
/-- What a peer may send. -/
def peer : PeerIdentity :=
  { role := 1, pair := 0, port := 0, identity := 5, resume := false, reqBuf := 100, rspBuf := 100, secBuf := 100, loss := 40 }
theorem test_wf_peer : (Instr.identityExchange 0 { peer with role := 4 }).wf = false := by decide
theorem test_wf_flit : (Instr.flitReceive 0 []).wf = false ∧ (Instr.flitTransmit 0 3).wf = false := by decide
theorem test_wf_pair : (Instr.underpassOpenTimeout 3).wf = false := by decide
theorem test_wf_straps : (Instr.resetRelease .por 4).wf = false := by decide
theorem test_wf_generation : (Instr.holderReport 2).wf = false := by decide

/-! ## Hypotheses of the statements -/

/-- Where every crossing's clock runs no access waits. -/
theorem not_stopped {s : State} (h : s.crossings = []) (rs : List (Nat × Nat)) : ¬ Stopped rs s := by
  rintro ⟨r, _, e⟩
  simp [linesStopped, h] at e
/-- The clock of pseudo-channel 0 is stopped, its wake request raised if `w`. -/
def shut (w : Bool) (s : State) : State := { s with crossings := [(blkCode .hbc * 512, { clockOn := false, wake := w })] }

theorem test_StepRunsFrontCommand : run.pending = [] ∧ after (step { run with pending := [.flashDone, .boot] }) =
    after (exec .flashDone { run with pending := [.boot] }) := by decide +kernel

/-- Channel 3 bound from the host to the first management core; word channel 60 between the same. -/
def mail : State :=
  setF (setF (setF (setB (setB run (Reg.bind 3) 63 true) (Reg.bind 60) 63 true) (Reg.bind 3) 15 0 0x0110)
    (Reg.bind 60) 15 0 0x0110) (Reg.mbStatus 3) 23 0 (2 ^ 24 - 1)

theorem test_NoticeChannelTransfers : refusedMaster mail .host = false ∧ bindValid mail 3 = true ∧
    partyIs (bindSender mail 3) .host = true ∧ (notice mail 3).full = false ∧ bindReceiver mail 3 = 0x10 ∧
    refusedMaster mail .mgt0 = false ∧ partyIs (bindReceiver mail 3) .mgt0 = true := by decide +kernel
/-- R365: the notice is stored with its stamp, and the last SENT count wraps. -/
theorem test_mb_tx : notice (after (exec (.mbTx .host 3 9 true) mail)) 3 = { full := true, value := 9, stamp := 1 } ∧
    getF (after (exec (.mbTx .host 3 9 true) mail)) (Reg.mbStatus 3) 23 0 = 0 := by decide +kernel

/-- Party A's FIFO of channel 60 holds `n` words. -/
def words (n : Nat) : State :=
  { mail with words := [(60, { a := { out := (List.range n).map fun i => (BitVec.ofNat 64 i, 1) } })] }

theorem test_WordQueueKeepsOrder : wordSide (words 15) 60 .host = some true ∧ ((wordCh (words 15) 60).side true).out.length < 16 ∧
    wordSide (words 16) 60 .host = some true ∧ 16 ≤ ((wordCh (words 16) 60).side true).out.length ∧
    wordSide (words 2) 60 .mgt0 = some false ∧ ((wordCh (words 2) 60).side (!false)).out = (0, 1) :: [(1, 1)] ∧
    ((wordCh (words 0) 60).side (!false)).out = [] := by decide +kernel
/-- R366: the oldest word leaves first. -/
theorem test_wq_rx : (after (exec (.wqRx .mgt0 60 true) (words 2))).out = [.read 0] ∧
    ((wordCh (after (exec (.wqRx .mgt0 60 true) (words 2))) 60).side true).out = [(1, 1)] := by decide +kernel

theorem test_DoorbellFillsSlot : run.slot = none := by decide +kernel
theorem test_DoorbellAtFullSlot : ({ run with slot := some { word := 1, ws := none } } : State).slot =
    some { word := 1, ws := none } := by decide +kernel
theorem test_MalformedMailAccess : refusedMaster run .sec = false := by decide +kernel

/-! Job control -/

/-- A validated step 5 that waits. -/
def ready : State := { job with next := some { step := 5 } }

theorem test_StartLatchesJob : Reaches .host .glb 0 run ∧ startIgnored run = false ∧ Reaches .host .glb 0 job ∧
    jobActive job = true ∧ fld 0x8000000000000000 62 62 = 0 := by decide +kernel
theorem test_HaltEndsJob : Reaches .host .glb 0 (setF run Reg.jobStatus 63 60 1) ∧
    fld 0x4000000000000000 63 63 = 0 ∧ jobState (setF run Reg.jobStatus 63 60 1) = 1 ∧
    Reaches .mgt0 .glb 0 (stepOf []) ∧ jobState (stepOf []) = 3 ∧ (stepOf []).step.active = true ∧
    Reaches .host .glb 0 job ∧ jobState job = 2 ∧ job.step.active = false ∧ Reaches .host .glb 0 run ∧
    jobActive run = false := by decide +kernel
theorem test_AbortStopsJob : Reaches .host .glb 0 (stepOf []) ∧ jobActive (stepOf []) = true ∧
    (stepOf []).step.aborted = false ∧ (stepOf []).job.faulted = false ∧ (stepOf []).step.active = true ∧
    Reaches .host .glb 0 (setF run Reg.restartStatus 63 60 3) ∧ jobActive (setF run Reg.restartStatus 63 60 3) = false ∧
    phase (setF run Reg.restartStatus 63 60 3) ≠ 0 ∧ Reaches .host .glb 0 run ∧ jobActive run = false ∧ phase run = 0 := by
  decide +kernel
theorem test_JobValidationDecides : jobState (setF run Reg.jobStatus 63 60 1) = 1 ∧
    (setF run Reg.jobStatus 63 60 1).job.startHeld = false ∧ jobState run ≠ 1 := by decide +kernel
/-- R45: a header outside every region of class WGT raises TT_CHECK. -/
theorem test_job_rejected : getF (after (exec (.jobValidation []) (setF run Reg.jobStatus 63 60 1))) Reg.jobStatus 47 32 = 0x0101 ∧
    jobState (after (exec (.jobValidation []) (setF run Reg.jobStatus 63 60 1))) = 5 := by decide +kernel
theorem test_WorksheetValidationDecides : ({ job with slot := some { word := 1, ws := none } } : State).slot =
    some { word := 1, ws := none } ∧ ∀ p, job.slot = some p → p.ws.isSome = true ∨ p.rejected = true :=
  ⟨by decide +kernel, fun p h => absurd h (by simp [show job.slot = none from rfl])⟩
/-- Table 03-16 check 1: with no job READY or RUNNING the doorbell is rejected with 0x0201. -/
theorem test_sheet_rejected : ((after (exec (.worksheetValidation []) { run with slot := some { word := 1, ws := none } })).cards.map
    (·.body)) = [rejectedBody 1 0x0201 0xFF] := by decide +kernel
/-- A PASS_SET entry: pass 9, count 65,535. -/
def passSetEntry : Entry := entry 1 (9 * 2 ^ 48) 65535 0 0
theorem test_StepStartOpensStep : ready.next = some { step := 5 } ∧ ready.step.active = false ∧ ready.cards = [] ∧ jobState ready = 2 ∧
    (stepOf [core0 [passSetEntry]]).streams.length = 1 ∧
    streamAt { stepOf [core0 [passSetEntry]] with step := { active := true } } 0 = some (core0 [passSetEntry]) ∧
    (core0 [passSetEntry]).next? = some passSetEntry ∧ passSetEntry.op = 1 ∧
    stepRuns { stepOf [core0 [passSetEntry]] with step := { active := true } } = true ∧
    (∀ x ∈ [{ core0 [] with setDone := true }], x.setDone = true) := by decide +kernel
/-! Entries -/

/-- An entry with descriptors. -/
def entryOn (op a b c w3 : Nat) : Entry := entry op 0 0 (a + b * 2 ^ 20 + c * 2 ^ 40) w3

/-- Stream 0 of a running step stands at `e`. -/
def at0 (e : Entry) : State := stepOf [core0 [e]]

/-- A SEGMENT of micro-batch 0 over 1 entry; of bucket `b`. -/
def segmentEntry (b : Nat) : Entry := entry 2 0 0 0 (2 ^ 16 + b * 2 ^ 6)

/-- The gate is decided, as `v`. -/
def decidedStep (v : Bool) : State := { at0 (entry 3 0 0 0 0) with step := { (at0 (entry 3 0 0 0 0)).step with decided := true, gateOpen := v } }

theorem test_ControlEntriesMoveTheirStream : Stands 0 (core0 [entry 0 0 0 0 0]) (entry 0 0 0 0 0) (at0 (entry 0 0 0 0 0)) ∧
    InTurn (core0 [entry 0 0 0 0 0]) ∧
    (entry 0 0 0 0 0).op = 0 ∧ Stands 0 (core0 [segmentEntry 0]) (segmentEntry 0) (at0 (segmentEntry 0)) ∧ (segmentEntry 0).op = 2 ∧
    selected (at0 (segmentEntry 0)).step.ws (segmentEntry 0) = true ∧ selected (at0 (segmentEntry 1)).step.ws (segmentEntry 1) = false ∧
    streamAt (at0 (segmentEntry 1)) 0 = some (core0 [segmentEntry 1]) ∧ run.step.decided = false ∧
    Stands 0 (core0 [entry 3 0 0 0 0]) (entry 3 0 0 0 0) (decidedStep true) ∧ (decidedStep true).step.decided = true ∧
    secReleased (decidedStep true) = true ∧ (decidedStep true).step.gateOpen = true ∧
    stepRuns (decidedStep false) = true ∧ (decidedStep false).step.setOpen = true ∧ secReleased (decidedStep false) = true ∧
    (decidedStep false).step.gateOpen = false ∧ streamAt (decidedStep false) 0 = some (core0 [entry 3 0 0 0 0]) ∧
    (core0 [entry 4 0 0 0 0]).next? = some (entry 4 0 0 0 0) ∧ stepRuns (at0 (entry 4 0 0 0 0)) = true := by decide +kernel
/-- R52: SKIP_LEN 1 of an unselected SEGMENT passes one entry. -/
theorem test_segment_skips : (streamAt (after (exec (.segment 0) (at0 (segmentEntry 1)))) 0).map (·.pos) = some 2 ∧
    (streamAt (after (exec (.segment 0) (at0 (segmentEntry 0)))) 0).map (·.seg) = some (some (0, 2)) := by decide +kernel

/-- A NOP that waits on pass 6 for a count of 3, with a limit of 1. -/
def waitEntry : Entry := entry 0 (2 ^ 8 + 6 * 2 ^ 16 + 3 * 2 ^ 32) (2 ^ 24) 0 0
/-- It stands there with `n` posted and first waiter `w`. -/
def waiting (n w : Nat) : State := { at0 waitEntry with passes := [(6, n)], waiters := [(6, w)] }

theorem test_PassWaitTestsAndSubtracts : streamAt (waiting 3 0) 0 = some (core0 [waitEntry]) ∧
    (core0 [waitEntry]).next? = some waitEntry ∧ atWait (waiting 3 0) (core0 [waitEntry]) waitEntry = true ∧
    cellGet noWaiter (waiting 3 0).waiters waitEntry.waitPass = 0 ∧ waitEntry.waitCount ≤ passCount (waiting 3 0) 6 ∧
    passCount (waiting 2 0) 6 < waitEntry.waitCount ∧ atWait (waiting 3 1) (core0 [waitEntry]) waitEntry = true ∧
    cellGet noWaiter (waiting 3 1).waiters waitEntry.waitPass ≠ 0xFFFF ∧
    cellGet noWaiter (waiting 3 1).waiters waitEntry.waitPass ≠ 0 ∧ waitEntry.waitPass = 6 := by decide +kernel
/-- R57: a wait takes its count as soon as the pass holds it, and not one sooner. -/
theorem test_wait : passCount (after (exec (.passWaitRelease 0 []) (waiting 3 0))) 6 = 0 ∧
    passCount (after (exec (.passWaitRelease 0 []) (waiting 2 0))) 6 = 2 := by decide +kernel

/-- An entry in flight. -/
def flying (done : Bool) (raised : List FaultRec) : Flight :=
  { idx := 0, done := done, voided := false, slot := none, raised := raised, waiting := 0, ran := true, stage := [], asked := [],
    ph := [] }
/-- Stream 0 has entry `e` in flight, pass 6 holds `n`. -/
def inFlight (e : Entry) (done : Bool) (n : Nat) : State :=
  { stepOf [{ core0 [e] with pos := 1, inflight := [flying done []] }] with passes := [(6, n)] }
/-- A NOP that posts 1 to pass 6. -/
def postEntry6 : Entry := entry 0 (2 ^ 9 + 6 * 2 ^ 48) 1 0 0

/-- A confined event of code 0x0501 in slot 0. -/
def confinedRec : FaultRec :=
  { code := 0x0501, cls := 2, block := 1, inst := 0, stream := 0, entry := 0, step := 7, group := 0xFFFF, mbSlot := 0,
    mixed := false, departed := false, again := false, detail := 0 }
/-- The entry raised it, or ends the step with a hard fault once it has posted. -/
def raisedFlight : State := { stepOf [{ core0 [postEntry6] with pos := 1, inflight := [flying true [confinedRec]] }] with passes := [] }
def hardFlight : State :=
  { stepOf [{ core0 [postEntry6] with pos := 1, inflight := [{ flying true [] with hard := [{ confinedRec with cls := 3, code := 0x0701 }] }] }] with
    passes := [(6, 3)] }
theorem test_EntryCompleteVoids : (streamAt raisedFlight 0).map (·.inflight) = some [flying true [confinedRec]] ∧
    raisedFlight.step.active = true ∧ confinedRec.mbSlot < 64 ∧ maskHas (recMask confinedRec raisedFlight) 4 = true ∧
    isVoid (after (exec (.entryComplete 0 []) raisedFlight)) 0 = true ∧
    maskHas (after (exec (.entryComplete 0 []) raisedFlight)).step.maskA 4 = false := by decide +kernel
/-- R99: an entry with a hard fault completes and posts before the step ends. -/
theorem test_EntryCompleteHard : passCount (after (exec (.entryComplete 0 []) hardFlight)) 6 = 4 ∧
    (after (exec (.entryComplete 0 []) hardFlight)).step.active = false ∧
    getF (after (exec (.entryComplete 0 []) hardFlight)) Reg.jobStatus 47 32 = 0x0701 := by decide +kernel

/-- A STASH_READ of record 3 ends, which a later write has replaced (`r` false), or not. -/
def readingStash (r : Bool) : State :=
  { stepOf [{ core0 [entry 0x35 0 0 0 0] with pos := 1, inflight := [{ flying true [] with record := some 3 }] }] with
    stash := [{ id := if r then 3 else 4, tag := slotTag (entry 0x35 0 0 0 0) none, bytes := 5, exhausted := false, blocks := [] }] }
/-- 05 R113: the read's own record is freed, a newer one of its tag stays. -/
theorem test_stash_read_ends : (after (exec (.entryComplete 0 []) (readingStash true))).stash = [] ∧
    (after (exec (.entryComplete 0 []) (readingStash false))).stash = (readingStash false).stash := by decide +kernel

theorem test_EntryCompleteRetiresOldest : ((streamAt (inFlight postEntry6 true 65534) 0).map (·.inflight)) = some [flying true []] ∧
    (core0 [postEntry6]).entry? 0 = some postEntry6 ∧ (inFlight postEntry6 true 65534).step.active = true ∧
    (∀ k, k ≤ postEntry6.postSpan → passCount (inFlight postEntry6 true 65534) (postEntry6.postPass + k) + postEntry6.postCount ≤ 65535) ∧
    65535 < passCount (inFlight postEntry6 true 65535) postEntry6.postPass + postEntry6.postCount ∧ postEntry6.postEn = true ∧
    postEntry6.postSpan = 0 ∧ (flying false []).done = false ∧ (entry 0x35 0 0 0 0).op = 0x35 ∧ (entry 0x35 0 0 0 0).subBit 0 = false ∧
    (entry 0x52 0 (2 ^ 56) 0 0).subBit 0 = true := by decide +kernel
/-- R58: a post beyond 65,535 is PASS_OVERFLOW. -/
theorem test_post : passCount (after (exec (.entryComplete 0 []) (inFlight postEntry6 true 65534))) 6 = 65535 ∧
    getF (after (exec (.entryComplete 0 []) (inFlight postEntry6 true 65535))) Reg.jobStatus 47 32 = 0x0303 := by decide +kernel

/-- An UPDATE_BEGIN with a limit, undecided; and decided while a securing pass has not read its state. -/
def limited : Entry := entry 3 0 (2 ^ 24) 0 0
def heldBack : State :=
  setB { at0 limited with step := { (at0 limited).step with decided := true, gateOpen := true } } Reg.lockerState 61 true
theorem test_UpdateBeginStalls : updateHeld heldBack = true ∧ secReleased heldBack = false ∧ stepRuns heldBack = true ∧
    heldBack.step.setOpen = true ∧ heldBack.step.decided = true ∧ streamAt heldBack 0 = some (core0 [limited]) ∧
    (core0 [limited]).next? = some limited ∧ limited.op = 3 ∧ 0 < limited.waitLimit ∧ (at0 limited).step.decided = false ∧
    stepRuns (at0 limited) = true ∧ streamAt (at0 limited) 0 = some (core0 [limited]) := by decide +kernel
/-- R70: the record of such a stall names the system pass. -/
theorem test_update_stall : getF (after (exec (.waitLimitExpiry 0) heldBack)) (Reg.faultRec 2) 63 32 = 0x7F02 ∧
    getF (after (exec (.waitLimitExpiry 0) (at0 limited))) (Reg.faultRec 2) 63 32 = 0x7F01 := by decide +kernel

theorem test_WatchdogsEndTheStep : (at0 waitEntry).step.active = true ∧ run.step.active = false ∧
    updateHeld (at0 waitEntry) = false ∧ (at0 waitEntry).job.haltWanted = false ∧
    streamAt (waiting 2 0) 0 = some (core0 [waitEntry]) ∧ atWait (waiting 2 0) (core0 [waitEntry]) waitEntry = true ∧
    0 < waitEntry.waitLimit ∧ passCount (waiting 2 0) waitEntry.waitPass < waitEntry.waitCount := by decide +kernel

theorem test_DataEntriesLaunch : Stands 0 (core0 [entryOn 0x30 1 0 2 0]) (entryOn 0x30 1 0 2 0) (at0 (entryOn 0x30 1 0 2 0)) ∧
    (∀ op ∈ [0x10, 0x20, 0x21, 0x30, 0x31, 0x32, 0x33, 0x34, 0x35, 0x40, 0x41, 0x42, 0x43, 0x45, 0x46, 0x47, 0x48, 0x49],
      ∃ p ∈ dataEntries 0 [], p.2 (entry op 0 0 0 0) = true) ∧
    (∀ op ∈ [0x50, 0x51, 0x52, 0x53], ∃ p ∈ ringEntries 0 [], p.2 (entry op 0 0 0 0) = true) ∧
    (∃ p ∈ markerEntries 0 [], p.2 (entry 0x44 0 0 0 0) = true) ∧
    (∃ p ∈ markerEntries 0 [], p.2 (entry 0x45 0 (2 ^ 56) 0 0) = true) ∧
    (∀ k ∈ [1, 2, 3, 4], ∃ p ∈ dataEntries 0 [], p.2 (entry 0x49 0 (k * 2 ^ 56) 0 0) = true) := by decide +kernel
theorem test_no_remote_window : ∀ w, (winOf (at0 (entryOn 0x30 1 0 2 0)) w).kind < 2 := fun _ => Nat.zero_lt_two
theorem test_clocks_run : ClocksRun (at0 (entryOn 0x30 1 0 2 0)) := fun _ => rfl
/-- An entry in flight has not run, so the next waits for its turn. -/
def behind (e : Entry) : Stream := { core0 [e, e] with pos := 1, inflight := [{ flying false [] with ran := false, waiting := 1 }] }
theorem test_DataEntriesWait : InTurn (core0 [entryOn 0x30 1 0 2 0]) ∧ ¬ InTurn (behind (entryOn 0x30 1 0 2 0)) ∧
    Stands 0 (behind (entryOn 0x30 1 0 2 0)) (entryOn 0x30 1 0 2 0) (stepOf [behind (entryOn 0x30 1 0 2 0)]) := by decide +kernel

/-- Window 4 of ring 0 as an entry of kind `k`. -/
def windowed (k op : Nat) : State :=
  { stepOf [{ kind := 3, unit := 0, entries := [entry op 0 0 0 (4 * 2 ^ 4)] }] with job := { windows := [(4, { kind := k, pos := 1 })] } }
/-- Its stream. -/
def windowStream (op : Nat) : Stream := { kind := 3, unit := 0, entries := [entry op 0 0 0 (4 * 2 ^ 4)] }
/-- Its view has `o` opens and `u` transfers not answered. -/
def viewed (k op o u : Nat) : State := { windowed k op with views := [(4, { opens := o, unanswered := u, attached := true })] }
/-- Ring 0 is position 0 of two in the ring role. -/
def ringOf2 (s : State) : State := setF (setF s (Reg.rngPos 0) 27 16 1) (Reg.rngPos 0) 11 0 0

theorem test_WindowEntriesOpenAndClose : InTurn (windowStream 0x54) ∧ InTurn (windowStream 0x55) ∧
    Stands 0 (windowStream 0x54) (entry 0x54 0 0 0 64) (windowed 1 0x54) ∧ (entry 0x54 0 0 0 64).op = 0x54 ∧
    (winOf (windowed 1 0x54) (entry 0x54 0 0 0 64).window).kind = 1 ∧
    Stands 0 (windowStream 0x55) (entry 0x55 0 0 0 64) (windowed 1 0x55) ∧
    Stands 0 (windowStream 0x54) (entry 0x54 0 0 0 64) (viewed 2 0x54 1 0) ∧ (winOf (viewed 3 0x54 1 0) 4).kind = 3 ∧
    0 < (viewOf (viewed 2 0x54 1 0) 4).opens ∧ (viewOf (viewed 2 0x54 0 0) 4).opens = 0 ∧
    Stands 0 (windowStream 0x55) (entry 0x55 0 0 0 64) (viewed 2 0x55 0 1) ∧ 0 < (viewOf (viewed 2 0x55 0 1) 4).unanswered ∧
    Stands 0 (windowStream 0x55) (entry 0x55 0 0 0 64) (ringOf2 (viewed 2 0x55 0 0)) ∧
    (viewOf (ringOf2 (viewed 2 0x55 0 0)) 4).unanswered = 0 ∧
    (winOf (ringOf2 (viewed 2 0x55 0 0)) 4).ring < (ringOf2 (viewed 2 0x55 0 0)).rings.length ∧
    (routePort (ringOf2 (viewed 2 0x55 0 0)) 0 (winOwner (ringOf2 (viewed 2 0x55 0 0)) (winOf (ringOf2 (viewed 2 0x55 0 0)) 4))).isSome = true := by
  decide +kernel
/-- R293: an open advances the epoch by one. -/
theorem test_window_open : (ownedOf (after (exec (.windowOpen 0) (windowed 1 0x54))) 4).epoch = 1 ∧
    (ownedOf (after (exec (.windowOpen 0) (windowed 1 0x54))) 4).isOpen = true := by decide +kernel
/-! Data entries -/

/-- A descriptor of place `place`, unit `unit`, offset `off`, format `fmt`, extents `ext` and strides `str`. -/
def desc (place unit off fmt : Nat) (ext str : List Nat) (layout : Nat) : Desc :=
  { offset := off, unit := unit, place := place, indexBase := 0, fmt := fmt, layout := layout, scaleId := 0xFFFF, aux := noDesc,
    rank := ext.length, extent := ext ++ List.replicate (6 - ext.length) 0, stride := str }

/-- MATMUL on descriptors 1 and 2 into set 0 with ACC_INIT, no mask, both operands BF16. -/
def matmulEntry : Entry := entryOn 0x10 1 2 3 (noDesc * 2 ^ 28 + 2 ^ 11 + 3 + 3 * 16)
/-- One product of 64 rows by 64 columns over 2 elements, of scratchpad 0; slot 0 is the segment's. -/
def matmulState (void : Bool) : State :=
  setB { stepOf [{ core0 [matmulEntry] with seg := some (0, 9) }] with
    job := { descs := [(1, desc 1 0xFFF 0 3 [2, 64, 1] [0, 0, 4096, 0, 0, 0] 1), (2, desc 1 0xFFF 8192 3 [2, 64, 1] [0, 0, 4096, 0, 0, 0] 1)] } }
    Reg.slotVoid 0 void
/-- Its stream. -/
def matmulStream : Stream := { core0 [matmulEntry] with seg := some (0, 9) }

theorem test_MatmulAccumulatesRoundedSums : Stands 0 matmulStream matmulEntry (matmulState false) ∧ InTurn matmulStream ∧ matmulEntry.op = 0x10 ∧
    slotVoid (matmulState false) matmulStream.slotNow = false ∧ matmulEntry.gang = 0 ∧ matmulEntry.accInit = true ∧
    matmulEntry.drain = false ∧ matmulEntry.maskDesc = noDesc ∧
    (∀ d ∈ [descOr (matmulState false) 1, descOr (matmulState false) 2], isMx d.fmt = false ∧ d.fmt ≤ 7 ∧ d.dim 0 = 2 ∧ d.dim 1 ≤ 64 ∧
      d.dim 2 ≤ 4) ∧ matmulEntry.descA = 1 ∧ matmulEntry.descB = 2 := by decide +kernel
theorem test_VoidedMatmulFeedsNothing : Stands 0 matmulStream matmulEntry (matmulState true) ∧
    slotVoid (matmulState true) matmulStream.slotNow = true := by decide +kernel

/-- COPY by mover 0 of 20 BF16 elements from core 0 to core 1, between scratchpad offsets 256 and 1,024; `t`: tagged. -/
def copyEntry (t : Bool) : Entry := entry 0x30 (if t then 2 ^ 13 else 0) 0 (1 + 2 * 2 ^ 40) 0
/-- The mover's stream with the entry. -/
def moverOf (e : Entry) : Stream := { kind := 2, unit := 0, entries := [e], seg := some (0, 9) }
/-- Its state, cores 0 and 1 mapped; slot 0 is void as said. -/
def copyState (t void : Bool) : State :=
  let s := { stepOf [moverOf (copyEntry t)] with
    sp := memWrite [] 256 ((List.range 40).map fun i => BitVec.ofNat 8 (i + 1))
    job := { descs := [(1, desc 1 0 256 3 [20] [0, 0, 0, 0, 0, 0] 0), (2, desc 1 1 1024 3 [20] [0, 0, 0, 0, 0, 0] 0)] } }
  setB (rset (rset s (Reg.blkCtrl .core 0) 0x8000010000000000) (Reg.blkCtrl .core 1) 0x8000010100000000) Reg.slotVoid 0 void

theorem test_CopyMovesBytes : Stands 0 (moverOf (copyEntry false)) (copyEntry false) (copyState false false) ∧
    InTurn (moverOf (copyEntry false)) ∧ (moverOf (copyEntry false)).kind = 2 ∧ (descOr (copyState false false) 1).unit < 0xFFF ∧
    (copyEntry false).op = 0x30 ∧ slotVoid (copyState false false) (moverOf (copyEntry false)).slotNow = false ∧
    PlainSp (descOr (copyState false false) 1) ∧ PlainSp (descOr (copyState false false) 2) ∧
    codesKept (descOr (copyState false false) 1) (descOr (copyState false false) 2) = true ∧
    (descOr (copyState false false) 1).rank = 1 ∧ (descOr (copyState false false) 2).rank = 1 ∧
    (descOr (copyState false false) 1).dim 0 = (descOr (copyState false false) 2).dim 0 ∧
    widthOf (descOr (copyState false false) 1).fmt % 8 = 0 ∧ (descOr (copyState false false) 2).unit < 0xFFF := by decide +kernel
/-- R206: the bytes arrive at core 1, offset 1,024. -/
theorem test_copy : memRead (after (exec (.copy 0 []) (copyState false false))).sp (524288 + 1024) 4 = [1, 2, 3, 4] := by
  decide +kernel
theorem test_copy_clocks : ClocksRun (copyState true true) := fun _ => rfl
theorem test_VoidedTaggedEntriesWriteZeros : Stands 0 (moverOf (copyEntry true)) (copyEntry true) (copyState true true) ∧
    InTurn (moverOf (copyEntry true)) ∧ (copyEntry true).op = 0x30 ∧
    (copyEntry true).tagged = true ∧ slotVoid (copyState true true) (moverOf (copyEntry true)).slotNow = true ∧
    PlainSp (descOr (copyState true true) (copyEntry true).descC) ∧ (∃ p ∈ dataEntries 0 [], p.2 (copyEntry true) = true) := by
  decide +kernel

/-- Unit 0 of kind `kind` stands at an entry of opcode `op`, ids 1 to 4, SUBOP `sub`, TENSOR_ID 7, over descriptors `ds`; core 0
is mapped, the scratchpad holds `m`. -/
def dataEntry (op sub w3 : Nat) : Entry := entry op 0 (7 * 2 ^ 40 + sub * 2 ^ 56) (1 + 2 * 2 ^ 20 + 3 * 2 ^ 40) w3
def dataStream (kind : Nat) (e : Entry) : Stream := { kind := kind, unit := 0, entries := [e], seg := some (0, 9) }
def dataState (kind op sub w3 : Nat) (ds : List (Nat × Desc)) (m : List (Nat × List Byte)) : State :=
  setB (setB { stepOf [dataStream kind (dataEntry op sub w3)] with
    sp := m.foldl (fun m f => memWrite m f.1 f.2) [], job := { descs := ds } } (Reg.blkCtrl .core 0) 63 true) (Reg.blkCtrl .core 0) 40 true
/-- A plain tensor of the scratchpad of core 0, rows of one line. -/
def plain (off fmt : Nat) (ext : List Nat) : Desc := desc 1 0 off fmt ext [0, 1, ext.getD 1 1, 0, 0, 0] 0
/-- The entry in front may issue in turn, its slot is not void, its operands are plain, what it writes shares no byte, and a form
that copies rows finds them. -/
def sound (s : State) : Bool :=
  match streamAt s 0 with
  | some x => match x.next? with
    | some e =>
      let c := ctxOf s 0 x x.pos e x.slotNow false []
      decide (Stands 0 x e s) && x.turn x.pos && !slotVoid s x.slotNow && (operandsOf s e).all (fun d => decide (PlainSp d)) &&
        decide ((resultOf s c).writes.Pairwise fun x y => x = y ∨ x.1 + x.2.length ≤ y.1 ∨ y.1 + y.2.length ≤ x.1) &&
        (e.op != 0x49 || decide (1 < e.subop % 8) || (List.range (descOr s e.descC).rows).all fun row => (coverOf (rangesOf c s) (e.subop % 8 == 0) row).all fun g =>
          rangeAt (e.subop % 8 != 0) g + (row - rangeAt (e.subop % 8 == 0) g) < (descOr s e.descA).rows)
    | none => false
  | none => false
/-- The BF16 codes of 1, 2, 3 and 4, twice. -/
def ones : List Byte := (([0x3F80, 0x4000, 0x4040, 0x4080, 0x3F80, 0x4000, 0x4040, 0x4080].map (leBytes 2)) : List (List Byte)).flatten
/-- Unsigned words of 32 and 16 bits. -/
def u32s (l : List Nat) : List Byte := ((l.map (leBytes 4)) : List (List Byte)).flatten
def u16s (l : List Nat) : List Byte := ((l.map (leBytes 2)) : List (List Byte)).flatten
/-- ADD, FILL, GATHER of rows 1 and -1, MERGE of two partials, HISTOGRAM with ranks, COMPRESS and PACK. -/
def adds : State := dataState 0 0x20 0 0xC0 [(1, plain 0 3 [4]), (2, plain 64 3 [4]), (3, plain 128 3 [4])] [(0, ones), (64, ones)]
def fills : State := dataState 2 0x33 0 0 [(1, plain 0 3 [4]), (3, plain 128 3 [4])] [(0, ones)]
def gathers : State :=
  dataState 1 0x40 0 0 [(1, plain 0 3 [2, 2]), (2, plain 128 11 [2]), (3, plain 256 3 [2, 2])] [(0, ones), (64, ones.drop 4), (128, u32s [1, 2 ^ 32 - 1])]
def scatters : State :=
  dataState 1 0x41 2 0 [(1, plain 0 3 [2, 2]), (2, plain 128 11 [2]), (3, plain 256 7 [2, 2])] [(0, ones), (64, ones.drop 4), (128, u32s [1, 1])]
def merges : State :=
  let s := dataState 1 0x42 0 0 [(1, plain 0 3 [2, 2]), (3, plain 256 3 [2])] [(0, ones), (64, ones.drop 4)]
  { s with streams := [dataStream 1 (entry 0x42 0 (7 * 2 ^ 40) (1 + noDesc * 2 ^ 20 + 3 * 2 ^ 40) 0)] }
def counts : State :=
  dataState 1 0x48 0 (4 * 2 ^ 30) [(1, plain 0 11 [3]), (3, plain 64 11 [2]), (4, plain 128 11 [3])] [(0, u32s [1, 0, 1])]
def packsTile : State :=
  dataState 1 0x46 0 0 [(1, plain 0 3 [4]), (3, { plain 4096 3 [4] with layout := 2 })] [(0, ones)]
def opens : State :=
  dataState 1 0x47 0 0 [(1, { plain 4096 3 [4] with layout := 2 }), (3, plain 0 3 [4])] []
def routes : State :=
  dataState 1 0x43 0 (4 * 2 ^ 30 + 2 * 2 ^ 14 + 1 * 2 ^ 4 + 1)
    [(1, plain 0 7 [2]), (2, plain 64 10 [1]), (3, plain 128 11 [16]), (4, plain 192 11 [2, 2])] [(0, u32s [0x3F800000, 0x40000000]), (64, u16s [3])]
def combines : State :=
  dataState 1 0x45 0 (4 * 2 ^ 30 + 1 * 2 ^ 14 + 1 * 2 ^ 4 + 1)
    [(1, plain 256 3 [2, 2]), (2, plain 128 11 [16]), (3, plain 512 3 [2]), (4, plain 64 10 [1])]
    [(256, ones), (320, ones), (64, u16s [3]), (128, u32s [1, 0x3F800000] ++ (List.range 7).flatMap fun _ => u32s [0xFFFFFFFF, 0])]
def groups (form : Nat) : State :=
  dataState 1 0x49 form (noDesc * 2 ^ 30) [(1, plain 0 3 [1, 4]), (3, if form ≤ 1 then plain 256 3 [1, 4] else plain 256 (if form = 4 then 8 else 10) [8])]
    [(0, ones)]
theorem test_DataEntriesGive : ∀ s ∈ [adds, fills, gathers, scatters, merges, counts, packsTile, opens, routes, groups 0, groups 1,
    groups 2, groups 3, groups 4], sound s = true := by decide +kernel
theorem test_CombinesGive : sound combines = true ∧ sound (copyState false false) = true := by decide +kernel
/-- Tables 05-6, 07-3 and 08-9, R162, R163: 1 + 1, 2 + 2, ...; rows by index; sums of partials and of rows; counts and ranks. -/
theorem test_results : memRead (after (exec (.vector 0 []) adds)).sp 128 8 = u16s [0x4000, 0x4080, 0x40C0, 0x4100] ∧
    memRead (after (exec (.gather 0 []) gathers)).sp 256 4 = u16s [0x4040, 0x4080] ∧
    memRead (after (exec (.gather 0 []) gathers)).sp 320 4 = [0, 0, 0, 0] ∧
    memRead (after (exec (.scatterAdd 0 []) scatters)).sp 320 8 = u32s [0x40800000, 0x40C00000] ∧
    memRead (after (exec (.merge 0 []) merges)).sp 256 4 = u16s [0x4080, 0x40C0] ∧
    memRead (after (exec (.histogram 0 []) counts)).sp 64 8 = u32s [1, 2] ∧
    memRead (after (exec (.histogram 0 []) counts)).sp 128 12 = u32s [0, 0, 1] ∧
    memRead (after (exec (.ids 0 []) (groups 2))).sp 256 16 = u16s [3, 3, 3, 3, 0xFFFF, 0xFFFF, 0xFFFF, 0xFFFF] := by decide +kernel

def dispatchEntry : Entry := dataEntry 0x44 0 (4 * 2 ^ 30 + 1 * 2 ^ 14 + 1)
/-- Expert 0 is at window 9, which another device has opened; one token of live group 3 has chosen slot 0 of it. -/
def dispatching : State :=
  let s := dataState 1 0x44 0 (4 * 2 ^ 30 + 1 * 2 ^ 14 + 1)
    [(1, plain 0 3 [4, 1]), (2, plain 128 11 [16, 1]), (3, plain 64 10 [1]), (4, plain 192 14 [2])]
    [(0, ones), (64, u16s [3]), (128, u32s [0, 0x3F800000] ++ (List.range 7).flatMap fun _ => u32s [0xFFFFFFFF, 0]), (192, leBytes 16 9)]
  let t := { ringOf2 s with step := { s.step with maskA := 0x18 } }
  { t with job := { t.job with windows := [(9, { kind := 2, pos := 1 })] }, views := [(9, { isOpen := true, opens := 0, attached := true })] }
theorem test_DispatchSends : Stands 0 (dataStream 1 dispatchEntry) dispatchEntry dispatching ∧ dispatchEntry.op = 0x44 ∧
    InTurn (dataStream 1 dispatchEntry) ∧ slotVoid dispatching (dataStream 1 dispatchEntry).slotNow = false ∧
    (∀ d ∈ operandsOf dispatching dispatchEntry, PlainSp d) ∧ (placedAt dispatching 0 dispatchEntry 0).window = 9 ∧
    dispatchEntry.experts = 1 ∧ (descOr dispatching 1).rowBytes = 8 ∧ chosenBy dispatching 0 dispatchEntry 0 0 = some 0 ∧
    ((ringAt (after (exec (.dispatch 0 []) dispatching)) 0).sendq.map fun m => (m.first.typ, m.data.length)) =
      [(2, 16), (2, 1088), (5, 0)] := by decide +kernel
theorem test_away : Away dispatching 9 := by unfold Away; decide +kernel

/-- MATMUL with ACC_INIT, a drain of one row of two and MXFP8 operands, whose scale tensors 5 and 6 lie beside them. -/
def drainEntry : Entry := dataEntry 0x10 0 (4 + 4 * 16 + 2 ^ 11 + 2 ^ 12 + 9 * 2 ^ 28)
def drainState : State :=
  let d := fun (o f x : Nat) => { desc 1 0xFFF o f [2, 2, 1] [0, 0, 4096, 0, 0, 0] 1 with aux := x }
  let s := dataState 0 0x10 0 0 [(1, d 0 4 5), (2, d 4096 4 6), (3, plain 8192 3 [2, 2]), (5, d 12288 9 noDesc), (6, d 16384 9 noDesc),
    (9, plain 20480 8 [2])] [(20480, [2])]
  { s with streams := [dataStream 0 drainEntry] }
theorem test_MatmulDrains : Stands 0 (dataStream 0 drainEntry) drainEntry drainState ∧ drainEntry.op = 0x10 ∧ drainEntry.drain = true ∧
    slotVoid drainState (dataStream 0 drainEntry).slotNow = false ∧ InTurn (dataStream 0 drainEntry) ∧ PlainSp (descOr drainState 3) ∧
    drainEntry.maskDesc = 9 ∧ PlainSp (descOr drainState 9) ∧ progKind drainEntry.drainProg = 0 ∧ liveIn drainState 0 drainEntry = [1] ∧
    (drainIn drainState 0 drainEntry).writes.map (·.1) = [8192 + 64, 8192] ∧
    (drainIn drainState 0 drainEntry).writes.map (·.2.length) = [4, 4] := by decide +kernel
theorem test_MatmulFits : GangFits drainState 0 drainEntry ∧ GangFits (matmulState false) 0 matmulEntry := by
  unfold GangFits; decide +kernel
theorem test_ScalesBeside : ScalesBeside drainState 0 (descOr drainState 1) ∧ ScalesBeside (matmulState false) 0 (descOr (matmulState false) 1) := by
  constructor <;> intro x h
  · have e : (scaleDesc drainState (descOr drainState 1)).all (fun x => x.place == 1 && x.layout == 1 && coreIn drainState 0 x == 0) = true := by
      decide +kernel
    rw [h] at e
    simpa [Bool.and_eq_true, and_assoc] using e
  · have e : scaleDesc (matmulState false) (descOr (matmulState false) 1) = none := by decide +kernel
    rw [e] at h; cases h

/-- COPY of two rows of 32 BF16 elements from HBM, region 0 of class 3, into an open window of the device there (`w`), or from
the scratchpad into a window of another device. -/
def copyHome (w : Bool) : State :=
  let a := desc (if w then 0 else 1) 0 0 3 [32, 2] [0, 1, 0, 0, 0, 0] 0
  let s := setB (setF (setF (stepOf [moverOf (copyEntry false)]) (Reg.regionW1 0) 39 20 1) (Reg.regionW0 0) 59 56 3) (Reg.regionW0 0) 63 true
  { ringOf2 s with
    job := { descs := [(1, a), (2, desc 2 9 1024 3 [32, 2] [0, 1, 0, 0, 0, 0] 0)],
             windows := [(9, { kind := if w then 1 else 2, pos := 1, size := 4096 })] }
    owned := [(9, { isOpen := w })], views := [(9, { isOpen := true, opens := 0, attached := true })] }
theorem test_CopyWindows : (∀ w, Stands 0 (moverOf (copyEntry false)) (copyEntry false) (copyHome w)) ∧
    codesKept (descOr (copyHome true) 1) (descOr (copyHome true) 2) = true ∧ sameShape (descOr (copyHome true) 1) (descOr (copyHome true) 2) = true ∧
    (descOr (copyHome false) 1).place = 1 ∧ (descOr (copyHome false) 2).place = 2 ∧ (winOf (copyHome false) 9).kind = 2 ∧
    (winOf (copyHome false) 9).ring < (copyHome false).rings.length ∧ (viewOf (copyHome false) 9).isOpen = true ∧
    (routePort (copyHome false) 0 (winOwner (copyHome false) (winOf (copyHome false) 9))).isSome = true ∧
    (descOr (copyHome false) 2).rowBytes = 64 := by decide +kernel
theorem test_CopyReads : ReadsHome (copyHome true) 0 (descOr (copyHome true) 1) := by
  have r : (descOr (copyHome true) 1).rows = 2 ∧ (descOr (copyHome true) 1).rowBytes = 64 ∧ (descOr (copyHome true) 1).place = 0 := by
    decide +kernel
  have a : ∀ i, i < 2 → rowAddr (copyHome true) 0 (descOr (copyHome true) 1) i = 64 * i := by decide +kernel
  have g : ∀ i, i < 2 → regionOf (copyHome true) (64 * i) = some { idx := 0, cls := 3, base := 0, size := 0x100000 } := by decide +kernel
  refine ⟨by omega, fun _ i hi l h1 h2 => ?_, fun h => by omega⟩
  rw [r.1] at hi
  rw [a i hi] at h1 h2
  rw [r.2.1] at h2
  have e : l = i := by omega
  exact ⟨_, e ▸ g i hi, .inl ⟨Nat.le_refl _, by decide⟩⟩
theorem test_CopyWrites : WritesHome (copyHome true) 0 (descOr (copyHome true) 2) := by
  have r : (descOr (copyHome true) 2).rows = 2 ∧ (descOr (copyHome true) 2).rowBytes = 64 ∧ (descOr (copyHome true) 2).place = 2 ∧
      (descOr (copyHome true) 2).unit = 9 ∧ (winOf (copyHome true) 9).kind = 1 := by decide +kernel
  have a : ∀ i, i < 2 → rowAddr (copyHome true) 0 (descOr (copyHome true) 2) i = 1024 + 64 * i := by decide +kernel
  have g : ∀ i, i < 2 → ∀ k, k < 64 → (regionOf (copyHome true) (1024 + 64 * i + k)).isSome = true := by decide +kernel
  have o : ∀ i, i < 2 → ownerCheck (copyHome true) 9 none true false ((descOr (copyHome true) 2).rowOff i) 64 64 = 0 := by decide +kernel
  obtain ⟨h1, h2, h3, h4, h5⟩ := r
  refine ⟨by omega, fun i j hi hj hn => ?_, fun _ => ⟨by omega, fun i hi => ⟨?_, fun k hk => ?_⟩⟩, fun _ => ⟨by rw [h4, h5], fun i hi => ?_⟩⟩
  · rw [h1] at hi hj; rw [a i hi, a j hj, h2]; omega
  · rw [h1] at hi; rw [a i hi]; omega
  · rw [h1] at hi; rw [h2] at hk; rw [a i hi]; exact g i hi k hk
  · rw [h1] at hi; rw [h2, h4]; exact o i hi
/-- R206: the bytes of HBM stand in the window's region; a row for another device leaves as a write of 64 bytes. -/
theorem test_copy_windows : memRead (after (exec (.copy 0 []) { copyHome true with hbm := memWrite [] 64 ones })).hbm 1088 16 = ones ∧
    ((ringAt (after (exec (.copy 0 []) (copyHome false))) 0).sendq.map (·.data.length)) = [64, 64] := by decide +kernel

/-- STASH_WRITE of descriptor 1; `q` blocks of quota at the local level. -/
def stashState (op q : Nat) (void : Bool) : State :=
  let s := { stepOf [moverOf (entryOn op 1 0 1 0)] with
    job := { descs := [(1, desc 1 0 256 3 [20] [0, 0, 0, 0, 0, 0] 0)], stashCfg := 0, stashQuota := BitVec.ofNat 64 q } }
  setB s Reg.slotVoid 0 void
/-- The local level has a stash region of 16 blocks and a quota of 1. -/
def placing : State :=
  let s := setB (setF (setF (stashState 0x34 1 false) (Reg.regionW1 0) 39 20 1) (Reg.regionW0 0) 59 56 2) (Reg.regionW0 0) 63 true
  { s with job := { s.job with stashCfg := 0x100 } }
theorem test_stash_clocks : ClocksRun placing := fun _ => rfl
theorem test_StashEntriesPlace : Stands 0 (moverOf (entryOn 0x34 1 0 1 0)) (entryOn 0x34 1 0 1 0) placing ∧
    (placeBlocks placing (ceilDiv (stashSize (descOr placing 1)) 65536) (blocksUsed placing) [] false).1 = some [(0, 0)] ∧
    slotVoid placing (moverOf (entryOn 0x34 1 0 1 0)).slotNow = false ∧ (descOr placing 1).place ≠ 2 := by decide +kernel
theorem test_StashEntriesKeepDirectory : InTurn (moverOf (entryOn 0x34 1 0 1 0)) ∧
    recordsHeld (stashState 0x34 0 false) < 16384 ∧
    Stands 0 (moverOf (entryOn 0x34 1 0 1 0)) (entryOn 0x34 1 0 1 0) (stashState 0x34 0 false) ∧
    slotVoid (stashState 0x34 0 false) (moverOf (entryOn 0x34 1 0 1 0)).slotNow = false ∧
    (descOr (stashState 0x34 0 false) 1).place ≠ 2 ∧
    (placeBlocks (stashState 0x34 0 false) (ceilDiv (stashSize (descOr (stashState 0x34 0 false) 1)) 65536) (blocksUsed (stashState 0x34 0 false)) []
      false).1 = none ∧
    Stands 0 (moverOf (entryOn 0x34 1 0 1 0)) (entryOn 0x34 1 0 1 0) (stashState 0x34 0 true) ∧
    slotVoid (stashState 0x34 0 true) (moverOf (entryOn 0x34 1 0 1 0)).slotNow = true ∧
    Stands 0 (moverOf (entryOn 0x35 1 0 1 0)) (entryOn 0x35 1 0 1 0) (stashState 0x35 0 false) := by decide +kernel

/-- The source holds the bytes 1 to 40. -/
def stashing : State := { placing with sp := memWrite [] 256 ((List.range 40).map fun i => BitVec.ofNat 8 (i + 1)) }
/-- A record of one line lies in block 0 of the local level. -/
def kept (ex : Bool) : List StashRec := [{ id := 0, tag := 0, bytes := 40, exhausted := ex, blocks := if ex then [] else [(0, 0)] }]
def recordData : List Byte := (List.range 64).map fun i => BitVec.ofNat 8 (i + 1)
def reading : State :=
  { placing with
    streams := [moverOf (entryOn 0x35 1 0 1 0)], stash := kept false, hbm := memWrite [] 0 recordData
    chk := memWrite [] 0 (actCheck recordData 7 0 0) }
theorem test_StashData : Stands 0 (moverOf (entryOn 0x34 1 0 1 0)) (entryOn 0x34 1 0 1 0) stashing ∧
    (entryOn 0x34 1 0 1 0).op = 0x34 ∧ slotVoid stashing (moverOf (entryOn 0x34 1 0 1 0)).slotNow = false ∧
    PlainSp (descOr stashing (entryOn 0x34 1 0 1 0).descA) ∧ recordsHeld stashing < 16384 ∧
    (placeBlocks stashing (ceilDiv (stashSize (descOr stashing 1)) 65536) (blocksUsed stashing) [] false).1 = some [(0, 0)] ∧
    ceilDiv (allBytes stashing 0 (descOr stashing 1)).length 64 = 1 ∧ (∀ b ∈ [(0, 0)], b.1 = 0) ∧
    ((regionOf stashing (lineAt stashing [(0, 0)] 0)).map (·.cls)) = some 2 := by decide +kernel
theorem test_StashReads : Stands 0 (moverOf (entryOn 0x35 1 0 1 0)) (entryOn 0x35 1 0 1 0) reading ∧
    (entryOn 0x35 1 0 1 0).op = 0x35 ∧ slotVoid reading (moverOf (entryOn 0x35 1 0 1 0)).slotNow = false ∧
    PlainSp (descOr reading (entryOn 0x35 1 0 1 0).descC) ∧
    ((reading.stash.find? fun r => r.tag == slotTag (entryOn 0x35 1 0 1 0) (some 0)).map (·.exhausted)) = some false ∧
    ceilDiv (stashSize (descOr reading 1)) 64 = 1 ∧ ((regionOf reading (lineAt reading [(0, 0)] 0)).map (·.cls)) = some 2 ∧
    memRead reading.chk 0 8 = actCheck (memRead reading.hbm 0 64) (stashTags reading (entryOn 0x35 1 0 1 0) (some 0)).1
      (stashTags reading (entryOn 0x35 1 0 1 0) (some 0)).2 0 ∧
    ((stashState 0x35 0 false).stash.find? fun r => r.tag == slotTag (entryOn 0x35 1 0 1 0) (some 0)) = none ∧
    slotVoid (stashState 0x35 0 true) (some 0) = true ∧
    ((({ reading with stash := kept true } : State).stash.find? fun r => r.tag == slotTag (entryOn 0x35 1 0 1 0) (some 0)).map (·.exhausted)) =
      some true := by decide +kernel
theorem test_record_rows : Disjoint (recordWrites (coreIn reading 0 (descOr reading 1)) (descOr reading 1) recordData) := by
  unfold Stmt.Disjoint; decide +kernel
theorem test_stash_clocks_read : ClocksRun stashing ∧ ClocksRun reading := ⟨fun _ => rfl, fun _ => rfl⟩
/-- R112: the lines come back, and a missing record raises STALE_READ. -/
theorem test_stash_data : memRead (after (exec (.stashWrite 0 []) stashing)).hbm 36 6 = [37, 38, 39, 40, 0, 0] ∧
    memRead (after (exec (.stashRead 0 []) reading)).sp 256 3 = [1, 2, 3] ∧
    memRead (after (exec (.stashRead 0 []) { reading with chk := [] })).sp 256 3 = [0, 0, 0] ∧
    ((flightsOf (after (exec (.stashRead 0 []) (stashState 0x35 0 false))) 0).map fun f => f.raised.map (·.code)) = [[0x0B01]] ∧
    ((flightsOf (after (exec (.stashRead 0 []) { reading with stash := kept true })) 0).map fun f => f.raised.map (·.code)) = [[]] := by
  decide +kernel

theorem test_EntriesWriteOnlyTheirDestination : (∀ p ∈ (copyState false false).job.descs, PlainSp p.2) ∧
    (descAt (copyState false false) (copyEntry false).descA).isSome ∧ (descAt (copyState false false) (copyEntry false).descC).isSome ∧
    (∃ p ∈ dataEntries 0 [], p.2 (copyEntry false) = true) := by decide +kernel

/-! The step boundary -/

/-- A step whose streams stand at STEP_END. -/
def ending : State := stepOf [{ core0 [entry 4 0 0 0 0] with atEnd := true }]
/-- Its gate is decided. -/
def decided : State := { ending with step := { ending.step with decided := true, gateOpen := true } }
/-- The Bell has come to `b`. -/
def bellAt (b : BellPhase) : State := { decided with step := { decided.step with bell := b } }

theorem test_GateDecisionFollowsFlags : stepRuns ending = true ∧ ending.step.setOpen = true ∧ ending.step.decided = false ∧
    (∀ x ∈ ending.streams, atGate x = true) ∧ (∀ r ∈ gateRings ending, r ∈ ending.step.gateDone) ∧
    core0 [entry 0 0 0 0 0] ∈ (at0 (entry 0 0 0 0 0)).streams ∧ atGate (core0 [entry 0 0 0 0 0]) = false := by decide +kernel
/-- R144: a taint closes the gate. -/
theorem test_gate : (after (exec .gateDecision ending)).step.gateOpen = true ∧
    (after (exec .gateDecision { ending with step := { ending.step with taint := true } })).step.gateOpen = false := by decide +kernel
theorem test_BellDrainsTheStep : stepRuns decided = true ∧ decided.step.decided = true ∧
    (∀ x ∈ decided.streams, x.atEnd = true ∧ x.inflight = []) ∧ (∀ p, p < 6 → bellPort decided p = true →
      portSends decided p = false ∧ crossingRoom (port decided p) 1 = true ∧ peerReady decided p = true) ∧
    decided.ports.length = 6 ∧ (bellAt .markersSent).step.active = true ∧ (bellAt .markersSent).step.bell = .markersSent ∧
    markersMissing (bellAt .markersSent) = [] ∧ (∀ p, p < 6 → portQuiet (bellAt .markersSent) p = true) := by decide +kernel
theorem test_BellDrainCompleteEndsStep : (bellAt .drained).step.active = true ∧ (bellAt .drained).step.bell = .drained ∧
    (bellAt .drained).job.haltWanted = false ∧
    ({ bellAt .drained with job := { haltWanted := true } } : State).job.haltWanted = true := by decide +kernel
/-- R65: an open gate advances the update count. -/
theorem test_bell_drain_complete : rget (after (exec (.bellDrainComplete 9) (bellAt .drained))) Reg.updateCount = 1 ∧
    getF (after (exec (.bellDrainComplete 9) (bellAt .drained))) Reg.watchdog 63 32 = 9 := by decide +kernel

/-- The link of port 0 is up for the Bell. -/
def belling : State :=
  let s := setF decided (Reg.linkStatus 0) 63 60 3
  setRing 0 { (ringAt s 0) with readyDown := [8, 7] } s
/-- Its peer has not sent `STEP_READY` of step 7. -/
def bellHeld : State := setRing 0 { (ringAt belling 0) with readyDown := [6] } belling
theorem test_BellPorts : bellPort belling 0 = true ∧ portSends belling 0 = false ∧ crossingRoom (port belling 0) 1 = true ∧
    bellPort belling 1 = false ∧ stepRuns belling = true ∧
    (∀ p, p < 6 → bellPort belling p = true →
      portSends belling p = false ∧ crossingRoom (port belling p) 1 = true ∧ peerReady belling p = true) ∧
    bellPort bellHeld 0 = true ∧ peerReady bellHeld 0 = false ∧
    (port (after (exec .bellStart belling)) 0).txq.length = 1 := by decide +kernel

/-- Port 1's Underpass has closed with a flit of the step in its crossing. -/
def leftover : State := setPort 1 { (port (bellAt .markersSent) 1) with txq := [{ typ := 2 }] } (bellAt .markersSent)
theorem test_BellCleans : leftover.step.active = true ∧ leftover.step.bell = .markersSent ∧ markersMissing leftover = [] ∧
    (∀ p, p < 6 → portQuiet leftover p = true) ∧ leftover.ports.length = 6 ∧ portClean leftover 1 = false ∧
    portClean (after (exec .bellDrain leftover)) 1 = true := by decide +kernel

/-- A card with an annex. -/
def card : Card := { body := List.replicate 248 0, annex := some (List.replicate 4096 0), frees := false }
/-- Host window 0 covers host addresses 0 to 2^20 - 1, permitted; cards at 0, annexes at 0x10000, delivery enabled or not. -/
def delivery (en : Bool) : State :=
  setB (setF (rset (rset { run with cards := [card] } (Reg.hwtW0 0) 0xE000000000000000) (Reg.hwtW1 0) 0x0000000000FFFFFF)
    Reg.cardBase 63 32 16) Reg.cardCfg 63 en
theorem test_ReportCardsAreWritten : (delivery true).cards = [card] ∧ getB (delivery true) Reg.cardCfg 63 = true ∧
    card.body.length = 248 ∧
    (hwtCheck (delivery true) (getF (delivery true) Reg.cardCfg 53 48) (getF (delivery true) Reg.cardBase 31 0 * 4096 +
      nextSeq (getF (delivery true) Reg.cardSeq 31 0) % 2 ^ getF (delivery true) Reg.cardCfg 47 44 * 256) 256 true).isSome = true ∧
    (hwtCheck (delivery true) (getF (delivery true) Reg.cardCfg 53 48) (getF (delivery true) Reg.cardBase 63 32 * 4096 +
      nextSeq (getF (delivery true) Reg.cardSeq 31 0) % 2 ^ getF (delivery true) Reg.cardCfg 47 44 * 4096) 4096 true).isSome = true ∧
    getB (delivery false) Reg.cardCfg 63 = false ∧ run.cards = [] := by decide +kernel
theorem test_annex_length : (List.replicate 4096 (0 : Byte)).length = 4096 := List.length_replicate
/-! The host interface -/

/-- Host window 0 maps host addresses from 0 for 4 KiB, valid and permitted if `v`. -/
def hostWindow (v : Bool) : State := setF (setF run (Reg.hwtW1 0) 39 12 1) (Reg.hwtW0 0) 63 61 (if v then 7 else 0)

theorem test_HostTablesTakeWrites : Reaches .host .hif 0 (hostWindow false) ∧
    (getB (hostWindow false) (Reg.hwtW0 0) 63 && jobActive (hostWindow false)) = false ∧ 0 < hwtSize (hostWindow false) 0 ∧
    fld 0xE000000000000000 63 63 = 1 ∧ fld 0xE000000000000000 56 12 * 4096 + hwtSize (hostWindow false) 0 ≤ 2 ^ 57 ∧
    ¬ (0 < hwtSize run 0) ∧ getB (hostWindow true) (Reg.hwtW0 0) 63 = true ∧ Reaches .host .hif 0 (hostWindow true) ∧
    Reaches .sec .hif 0 (hostWindow true) ∧ cardCfgOpen run = true ∧ fld 0 47 44 ≤ 12 ∧ cardCfgOpen job = false ∧
    Reaches .host .hif 0 job := by decide +kernel

/-- Region 0 of class `c`: the first MiB of HBM. -/
def region (c : Nat) : State := setB (setF (setF run (Reg.regionW1 0) 39 20 1) (Reg.regionW0 0) 59 56 c) (Reg.regionW0 0) 63 true

theorem test_ApertureReachesRegions :
    (∀ p ∈ pieces (apertureAddr (region 3) (0x100000 - 64)) 64, ((regionOf (region 3) p.1).map fun r => (r.cls, r.size)) = some (3, 0x100000)) ∧
    (∀ p ∈ pieces (apertureAddr (region 5) 0) 1, ((regionOf (region 5) p.1).map (·.cls)) = some 5) ∧
    poisoned [.crossingUncorrectable .hif 0 false] .hif 0 false = true ∧ poisoned [] .hif 0 false = false ∧
    poisoned [] .hif 0 true = false ∧
    (∀ p ∈ pieces (apertureAddr (region 5) 0) 128, ((regionOf (region 5) p.1).map (·.cls)) = some 5) ∧
    (∀ p ∈ pieces (apertureAddr (region 6) 0) 1, ((regionOf (region 6) p.1).map (·.cls)) = some 6) ∧
    (∀ p ∈ pieces (apertureAddr (region 3) 0x100000) 64, regionOf (region 3) p.1 = none) ∧ jobActive (region 3) = false := by
  decide +kernel
/-- R340: a write and a read of the last line of the region. -/
theorem test_aperture : memRead (after (exec (.apertureWrite (0x100000 - 2) [7, 8] []) (region 5))).hbm (0x100000 - 2) 2 = [7, 8] ∧
    (after (exec (.apertureRead 0x100000 1 []) (region 5))).out = [.readBytes [0], .alert 0x0B08] := by decide +kernel

theorem test_aperture_runs : (region 3).heldHost = [] ∧ (region 5).heldHost = [] ∧ (region 6).heldHost = [] ∧
    (∀ rs, ¬ Stopped rs (region 3)) ∧ ∀ rs, ¬ Stopped rs (region 5) :=
  ⟨rfl, rfl, rfl, fun rs => not_stopped rfl rs, fun rs => not_stopped rfl rs⟩
/-- A read of the first line of region 0. -/
def lineRead : HostAccess := { write := false, off := 0, len := 64, ph := [] }
/-- R40: a read of a line behind a stopped clock waits, and the next one behind it. -/
theorem test_aperture_waits : Stopped (lineRead.reach (shut false (region 5))) (shut false (region 5)) ∧
    (after (exec (.apertureRead 0 64 []) (shut false (region 5)))).heldHost = [lineRead] ∧
    (crossingAt (after (exec (.apertureRead 0 64 []) (shut false (region 5)))) .hbc 0).wake = true ∧
    ({ region 5 with heldHost := [lineRead] } : State).heldHost ≠ [] := by
  refine ⟨⟨(0, 64), ?_⟩, ?_⟩ <;> decide +kernel

/-- Intake ring 0, enabled if `en`, of 16 entries, DONE 0 and TAIL `t`; host window 0 permitted. -/
def intake (en : Bool) (t : Nat) : State :=
  setF (setF (setB (hostWindow true) (Reg.ringCfg 0) 63 en) (Reg.ringCfg 0) 47 44 4) (Reg.ringIdx 0) 31 0 t
theorem test_IntakeRingsAreControlled : Reaches .host .itk 0 (intake true 0) ∧ ringEn (intake false 0) 0 = false ∧
    ringEn (intake true 0) 0 = true ∧ ringErr (intake true 0) 0 = false ∧
    (fld 16 31 0 + 2 ^ 32 - ringDone (intake true 0) 0) % 2 ^ 32 ≤ 2 ^ ringLog (intake true 0) 0 ∧
    2 ^ ringLog (intake true 0) 0 < (fld 17 31 0 + 2 ^ 32 - ringDone (intake true 0) 0) % 2 ^ 32 ∧ fld 0 62 62 = 0 ∧ fld 0 47 44 ≤ 12 ∧
    ringPending (intake true 16) 0 ≤ 2 ^ ringLog (intake true 16) 0 ∧ fld 0xC000000000000000 63 63 = 1 := by decide +kernel
/-- R344: sixteen pending entries stand, a seventeenth stops the ring with reason 3. -/
theorem test_overrun : ringErr (after (exec (.tail .host 0 16) (intake true 0))) 0 = false ∧
    getF (after (exec (.tail .host 0 17) (intake true 0))) (Reg.ringCfg 0) 62 59 = 11 := by decide +kernel

/-- An intake entry of a 64-byte sample from host window 0 to region 0. -/
def goodEntry : List Byte := List.replicate 16 0 ++ [64] ++ List.replicate 15 0
/-- It in transfer from its place, with STATUS `v` in it before. -/
def goodPlaced : IntakeEntry := { raw := goodEntry, ok := true, win := 0, off := 0 }
def statusEntry (v : Nat) : List Byte := goodEntry.take 0x1C ++ leBytes 2 v ++ [0, 0]
/-- Ring 0 with an ITK region 0 and `l` in transfer. -/
def taking (l : List IntakeEntry) : State :=
  { setB (setF (setF (intake true 2) (Reg.regionW1 0) 39 20 1) (Reg.regionW0 0) 59 56 5) (Reg.regionW0 0) 63 true with
    intake := if l = [] then [] else [(0, l)] }
theorem test_IntakeDeliversSamples : ringEn (taking []) 0 = true ∧ ringErr (taking []) 0 = false ∧ (inTransfer (taking []) 0).length < 8 ∧
    (inTransfer (taking []) 0).length < ringPending (taking []) 0 ∧ (∀ e ∈ inTransfer (taking [goodPlaced]) 0, e.ok = true) ∧
    (inTransfer (taking [goodPlaced]) 0).length < ringPending (taking [goodPlaced]) 0 ∧
    (hwtCheck (taking []) (getF (taking []) (Reg.ringCfg 0) 53 48) (entryOff (taking []) 0 0) 32 false).isSome = true ∧
    entryOk (taking []) 0 goodEntry = true ∧ entryOk (taking []) 0 (List.replicate 32 0) = false ∧
    entryOk (taking []) 0 (statusEntry 3) = true ∧ entryOk (taking []) 0 (statusEntry 4) = false ∧
    inTransfer (taking [goodPlaced]) 0 = [goodPlaced] ∧ ringErr (taking [goodPlaced]) 0 = false ∧
    (∀ k ∈ [1, 3], (hwtCheck (taking [goodPlaced]) goodPlaced.win (goodPlaced.off + 0x18)
      (((goodPlaced.raw.drop 0x18).take 4 ++ leBytes 2 k ++ [0, 0] : List Byte).length) true).isSome = true) ∧
    ((region? (taking []) (ieField goodEntry 0x15 1)).map fun g => (g.cls, g.size)) = some (5, 0x100000) ∧
    ieField goodEntry 8 8 % 64 = 0 ∧ ieField goodEntry 0x10 4 = 64 := by decide +kernel

theorem test_IntakeStatus : hwtCheck (taking [goodPlaced]) goodPlaced.win (goodPlaced.off + 0x18) (statusWord 1 goodEntry).length true = some 24 ∧
    hwtCheck (taking []) (getF (taking []) (Reg.ringCfg 0) 53 48) (entryOff (taking []) 0 0 + 0x18) (statusWord 2 goodEntry).length true =
      some 24 ∧
    inTransfer (taking [goodPlaced, { goodPlaced with ok := false, off := 32 }]) 0 = [goodPlaced, { goodPlaced with ok := false, off := 32 }] ∧
    hwtCheck (taking [goodPlaced]) 0 56 (statusWord 2 goodEntry).length true = some 56 ∧
    (statusWord 3 goodEntry).length = 8 := by decide +kernel
theorem test_intake_runs (l : List IntakeEntry) (rs : List (Nat × Nat)) : ¬ Stopped rs (taking l) := not_stopped rfl rs
/-- R345, R346: STATUS in the entry in host memory. -/
theorem test_intake_status : memRead (after (exec (.intakeEntryComplete 0 (.data [9])) (taking [goodPlaced]))).host 24 8 = [0, 0, 0, 0, 1, 0, 0, 0] ∧
    memRead (after (exec (.intakeEntryComplete 0 .bad) (taking [goodPlaced]))).host 24 8 = [0, 0, 0, 0, 3, 0, 0, 0] ∧
    memRead (after (exec (.intakeEntryRead 0 (.data (List.replicate 32 0))) (taking []))).host 24 8 = [0, 0, 0, 0, 2, 0, 0, 0] ∧
    memRead (after (exec (.intakeEntryComplete 0 (.data [9])) (taking [goodPlaced, { goodPlaced with ok := false, off := 32 }]))).host 56 8 =
      [0, 0, 0, 0, 2, 0, 0, 0] := by decide +kernel
/-- A STASH_READ in flight has read record 0, whose block lies at the host level, in host window 0 from address 0. -/
def hostReading : State :=
  let s := setF (setF (reading) (Reg.hwtW1 0) 39 12 18) (Reg.hwtW0 0) 63 61 7
  { s with
    streams := [{ moverOf (entryOn 0x35 1 0 1 0) with pos := 1, inflight := [{ flying true [] with record := some 0, slot := some 0 }] }]
    stash := [{ id := 0, tag := 0, bytes := 40, exhausted := false, blocks := [(2, 0)] }]
    sp := memWrite [] 256 recordData }
theorem test_StashTimeouts : (flightsOf hostReading 0).length = 1 ∧ hostReading.step.active = true ∧
    ((flightsOf hostReading 0).all fun f => readsGroup 0 0 { hostReading with out := hostReading.out ++ [.aer 2] } f) = true ∧
    PlainSp (descOr hostReading 1) ∧
    memRead (after (exec (.completionTimeout (.stash 0)) hostReading)).sp 256 2 = [0, 0] ∧
    ((flightsOf (after (exec (.completionTimeout (.stash 0)) hostReading)) 0).map fun f => f.raised.map (·.code)) = [[0x0B01]] ∧
    (after (exec (.completionTimeout (.stash 576)) hostReading)).stashTimeouts = [576] := by decide +kernel

/-! Register pages -/

/-- A job runs nowhere and the device sleeps. -/
def asleep : State := setF run Reg.pwrStatus 63 60 2

theorem test_RegisterAccessesFollowCodes : Reaches .host .hpb 32 run ∧ Reaches .host .rng 2 run ∧ jobActive run = false ∧
    Reaches .host .rng 2 job ∧ jobActive job = true ∧ (∀ f ∈ regFields .rng 0x100, f.acc ≠ .rc) ∧ refusedMaster run .host = false ∧
    regInst 0x10000 < 0x1F0 ∧ built (regType 0x10000) ≤ regInst 0x10000 ∧ accessOk 4 8 = false ∧ accessOk 8 4 = false ∧
    refusedMaster asleep .host = false ∧ domainOff asleep .hpb = true ∧ inWindow 0x3FFFF8 = false := by decide +kernel
/-- ELAPSED of a running step, below LIMIT; and while UPDATE_BEGIN waits. -/
def ticking : State := setF (setF (stepOf []) Reg.watchdog 63 32 5) Reg.watchdog 31 0 9
theorem test_RegisterAccessesElapsed : Reaches .host .glb 0 ticking ∧ ticking.step.active = true ∧
    getF ticking Reg.watchdog 63 32 ≤ getF ticking Reg.watchdog 31 0 ∧ Reaches .host .glb 0 heldBack ∧ updateHeld heldBack = true ∧
    ({ heldBack with step := { heldBack.step with elapsedHeld := true } } : State).step.elapsedHeld = true ∧
    updateHeld { heldBack with step := { heldBack.step with elapsedHeld := true } } = true := by decide +kernel
/-- R428: a write of 1 clears, a write of 0 leaves. -/
theorem test_w1c : getB (after (exec (.registerWrite .host false (Reg.intStatus .glb 0) 8 0x100) (setF run (Reg.intStatus .glb 0) 9 8 3)))
    (Reg.intStatus .glb 0) 8 = false ∧
    getB (after (exec (.registerWrite .host false (Reg.intStatus .glb 0) 8 0x100) (setF run (Reg.intStatus .glb 0) 9 8 3)))
      (Reg.intStatus .glb 0) 9 = true := by decide +kernel

/-- Mover 3 drains. -/
def draining : State := { run with drains := [(drainKey .mov 3, true)] }
/-- A drain of a port whose crossing holds a flit waits for it. -/
def portDraining : State := setPort 5 { (port run 5) with rxq := [{ typ := 5 }], drainRx := (1, 0, 0) } { run with drains := [(drainKey .nlp 5, true)] }
theorem test_PortDrains : drainedNow portDraining .nlp 5 = false ∧ portDraining.ports.length = 6 ∧ Reaches .mgt0 .nlp 5 portDraining ∧
    (port (after (exec (.drain .mgt0 .nlp 5 (2 ^ 62)) portDraining)) 5).drainRx = (1, 0, 0) := by decide +kernel
theorem test_PageControlsTakeEffect : Reaches .host .dbg 0 run ∧ Reaches .mgt0 .mov 3 run ∧ isMgt .mgt0 = true ∧
    fld 0x8000000000000000 62 62 = 0 ∧ jobActive run = false ∧ Reaches .mgt0 .mov 3 job ∧ jobActive job = true ∧ isMgt .host = false ∧
    Reaches .host .mov 3 run ∧ fld 0x8000000000000000 63 63 ≠ getF run (Reg.blkCtrl .mov 3) 63 63 ∧
    cellGet noDrain draining.drains (drainKey .mov 3) = true ∧ drainedNow draining .mov 3 = true ∧
    Reaches .host .mbx 0 run ∧ Reaches .mgt0 .mbx 0 run ∧ getB run (Reg.lock .mbx 0) 0 = false ∧ fld 0x0110 63 63 = 0 ∧
    fld 0x8000000000000110 63 63 = 1 ∧ partyOk 63 (fld 0x8000000000000110 15 8) = true ∧ partyOk 63 (fld 0x8000000000000110 7 0) = true ∧
    fld 0x8000000000000110 15 8 ≠ fld 0x8000000000000110 7 0 := by decide +kernel

/-- A unit of each kind ready for its command. -/
def small : State :=
  { setB run (Reg.spPower 135) 16 true with spFix := [7, 524288, 9], crossings := [(blkCode .nlp * 512 + 5, { clockOn := false, wake := true })] }
theorem test_SmallUnits_more : (∀ x ∈ small.streams, ∀ f ∈ x.inflight, f.ran = true ∨ f.waiting ≠ 0) ∧
    (cellGet runningCrossing run.crossings (blkCode .nlp * 512 + 5)).wake = false ∧ (stepOf []).step.active = true := by decide +kernel
/-- One host access waits for the clock of pseudo-channel 0. -/
def hostWaits : State := { shut true (region 5) with heldHost := [lineRead] }
theorem test_HostGoesOn : (crossingAt hostWaits .hbc 0).wake = true ∧ (∀ y ∈ hostWaits.streams, ∀ f ∈ y.inflight, f.ran = true) ∧
    (cellSet runningCrossing hostWaits.crossings (crossingKey .hbc 0) { clockOn := true, wake := false }) = [] ∧
    (after (exec (.clockRunning .hbc 0) hostWaits)).out = [.readBytes (List.replicate 64 0)] ∧
    (after (exec (.clockRunning .hbc 0) hostWaits)).heldHost = [] ∧ small.heldHost = [] := by decide +kernel
/-- R73: a window under the floor while the throttle holds is a breach. -/
theorem test_pace_breach : (after (exec (.paceWindow 0 3) (setB (stepOf []) Reg.voltStatus 60 true))).step.floorBreach = true ∧
    (after (exec (.paceWindow 0 3) (stepOf []))).step.floorBreach = false := by decide +kernel
theorem test_SmallUnitsChangeAlone : Reaches .host .dst 3 small ∧ Reaches .host .hbc 383 small ∧ small.spFix = [7] ++ 524288 :: [9] ∧
    524288 / 524288 = 1 ∧ (∀ x ∈ [7], x / 524288 ≠ 1) ∧ getB small (Reg.spPower 135) 16 = true ∧
    getF small (Reg.spPower 135) (2 * 7 + 33) (2 * 7 + 32) = 0 ∧
    (cellGet runningCrossing small.crossings (blkCode .nlp * 512 + 5)).wake = true := by decide +kernel
/-- Table 10-10: the pair's state becomes RETAIN, that of the others stays. -/
theorem test_retain : getF (after (exec (.retainEntry 135 7) small)) (Reg.spPower 135) 47 32 = 0x4000 := by decide +kernel

theorem test_HbmControlActsOnItsLines : Reaches .mgt0 .glb 0 run ∧ fld 0x8000000000000000 63 63 = 1 ∧
    (regionReason run 255 0x8000000000000000).isSome = true ∧
    getB run (Reg.regionW0 255) 63 = false ∧ getB (region 1) (Reg.regionW0 0) 63 = true ∧ Reaches .mgt0 .glb 0 (region 1) ∧
    jobActive (region 1) = false ∧ getB (region 1) Reg.regionInit 62 = false ∧ (region? (region 1) (fld 0 7 0)).isSome = true ∧
    ({ region 1 with fill := some (0, 0x100000) } : State).fill = some (0, 0x100000) ∧ run.fill = none ∧ regionOf run 0 = none ∧
    fld 0x0700000000000000 63 63 = 0 ∧ (jobActive run && getB run (Reg.regionW0 255) 63) = false ∧
    getB run (Reg.hbcState 383) 62 = false ∧ getB run (Reg.hbcState 383) 63 = false ∧
    ({ run with unbuilt := [5] } : State).unbuilt.contains 5 = true ∧ (∀ r ∈ regions run, r.cls ≠ 6) := by decide +kernel

/-- A commit without a reserved bit that no reason forbids, and one with a reserved bit. -/
theorem test_region_commit : regionReason (setF run (Reg.regionW1 255) 39 20 1) 255 0x8300000000000000 = none ∧
    (0x8300000000000000 : W64) &&& regionBits = 0x8300000000000000 ∧ (0x9300000000000000 : W64) &&& regionBits ≠ 0x9300000000000000 ∧
    regionReason (setF run (Reg.regionW1 255) 39 20 1) 255 0x9300000000000000 ≠ some 5 ∧
    (rebuildAll 5 { run with unbuilt := [5] }).2 = [] := by decide +kernel
theorem rebuildLine_grows (inst : Nat) (r : Region) (x : State × List Nat) (a : Nat) :
    x.2.length ≤ (rebuildLine inst r x a).2.length := by
  unfold rebuildLine
  split
  · dsimp only; split <;> simp
  · exact Nat.le_refl _
theorem rebuildLines_grow (inst b : Nat) (r : Region) (l : List Nat) (x : State × List Nat) :
    x.2.length ≤ (l.foldl (fun x i => rebuildLine inst r x (b + 64 * i)) x).2.length := by
  induction l generalizing x with
  | nil => exact Nat.le_refl _
  | cons i l ih => exact Nat.le_trans (rebuildLine_grows inst r x _) (ih _)
/-- A Locker of 1 MiB of which two units of each stripe wait for their rebuild. -/
def twoUnbuilt : State := { region 6 with unbuilt := [0, 64] }
theorem test_two_unbuilt : regions twoUnbuilt = [{ idx := 0, cls := 6, base := 0, size := 0x100000 }] ∧
    (rebuildLine 0 { idx := 0, cls := 6, base := 0, size := 0x100000 } (twoUnbuilt, []) 0).2.length = 1 ∧
    twoUnbuilt.unbuilt.contains 0 = true := by decide +kernel
theorem rebuildAll_grows (inst n : Nat) (r : Region) (s : State) (h : regions s = [r]) (hc : r.cls = 6) (hn : r.size / 64 = n + 1) :
    (rebuildLine inst r (s, []) r.base).2.length ≤ (rebuildAll inst s).2.length := by
  have e := rebuildLines_grow inst r.base r ((List.range n).map Nat.succ) (rebuildLine inst r (s, []) (r.base + 64 * 0))
  simpa only [rebuildAll, h, List.foldl_cons, List.foldl_nil, hc, if_true, hn, List.range_succ_eq_map, Nat.mul_zero, Nat.add_zero]
    using e
/-- So lines stay that cannot be restored. -/
theorem test_rebuild_fails : (rebuildAll 0 twoUnbuilt).2 ≠ [] := by
  intro n
  have h := rebuildAll_grows 0 16383 _ twoUnbuilt test_two_unbuilt.1 rfl rfl
  rw [n, test_two_unbuilt.2.1] at h
  exact absurd h (by decide)

/-- A fill of 128 bytes of a Locker whose first line waits for its rebuild. -/
def filling : State := { twoUnbuilt with fill := some (0, 128) }
theorem test_FillMends : isUnbuilt filling 0 = true ∧ isUnbuilt (after (exec .regionFillDone filling)) 0 = false := by decide +kernel
theorem test_hbm_runs (rs : List (Nat × Nat)) : ¬ Stopped rs filling ∧ ¬ Stopped rs twoUnbuilt ∧ ¬ Stopped rs run :=
  ⟨not_stopped rfl rs, not_stopped rfl rs, not_stopped rfl rs⟩

/-- Table 11-4: a class that is not listed is not taken. -/
theorem test_region_class : getF (after (exec (.glbRegionW0 .mgt0 255 0x0700000000000000) run)) (Reg.regionW0 255) 59 56 = 0 ∧
    getF (after (exec (.glbRegionW0 .mgt0 255 0x0600000000000000) run)) (Reg.regionW0 255) 59 56 = 6 := by decide +kernel

/-- Region 0 of class STA; scrub is on in the stack of line 0. -/
def scrubbed : State := setB (region 1) (Reg.scrub 0) 63 true
/-- The line's byte 70 comes back changed. -/
def oneFlip : List Phys := [.hbmFlip 0 [(70, 5)]]
theorem test_ScrubCorrectsLines : getB scrubbed (Reg.scrub 0) 63 = true ∧ (locate scrubbed 0).inst / 64 = 0 ∧
    ((regionOf scrubbed 0).map (·.cls)) = some 1 ∧ rsLine scrubbed oneFlip 0 = some (List.replicate 64 0, 1) ∧
    rsLine scrubbed [] 0 = some (List.replicate 64 0, 0) ∧ dieFixed oneFlip 0 = false ∧ dieBad oneFlip 0 = false := by decide +kernel

theorem test_scrub_runs (rs : List (Nat × Nat)) : ¬ Stopped rs scrubbed := not_stopped rfl rs

/-- The debug page reads (or writes) the first 8 bytes of region 0. -/
def debugging (w : Bool) : State := setB (setB (region 5) Reg.dbgCtrl 62 true) Reg.dbgCtrl 59 w
/-- The debug page looks at lane 0 of port 5's flits from the link. -/
def peeking : State :=
  setPort 5 { (port run 5) with rxq := [{ typ := 5 }] } (setB (setF (setF run Reg.dbgSel 35 32 7) Reg.dbgSel 24 16 5) Reg.dbgSel 8 true)
theorem test_DebugPageAccessesMemory : Reaches .dbg .dbg 0 run ∧ getB run (Reg.lock .dbg 0) 0 = false ∧ getB run Reg.dbgCtrl 62 = false ∧
    getB (setB run (Reg.lock .dbg 0) 0 true) (Reg.lock .dbg 0) 0 = true ∧ Reaches .host .dbg 0 (setB run (Reg.lock .dbg 0) 0 true) ∧
    getB (debugging false) Reg.dbgCtrl 62 = true ∧ getF (debugging false) Reg.dbgAddr 47 3 * 8 = 0 ∧
    ((regionOf (debugging false) 0).map (·.cls)) = some 5 ∧ getB (debugging false) Reg.dbgCtrl 59 = false ∧
    getB (debugging true) Reg.dbgCtrl 59 = true ∧ Reaches .host .dbg 0 peeking ∧ getF peeking Reg.dbgSel 35 32 = 7 ∧
    getF peeking Reg.dbgSel 24 16 = 5 ∧ getB peeking Reg.dbgSel 8 = true ∧ (port peeking 5).rxq = [{ typ := 5 }] := by decide +kernel
/-- The same with other flits in the crossing; and at a pseudo-channel's, whose clock is asked for. -/
def peekingAt (l : List Flit) : State := setPort 5 { (port run 5) with rxq := l } peeking
def peekingHbc : State := shut true (setB (setF (setF run Reg.dbgSel 35 32 6) Reg.dbgSel 24 16 0) Reg.dbgSel 8 false)
theorem test_DebugFifos : getF peeking Reg.dbgSel 4 0 < fifoLanes 7 ∧ headCommitted (port peeking 5) true { typ := 5 } = true ∧
    (port (peekingAt [{ typ := 3 }]) 5).rxq = [{ typ := 3 }] ∧ (port (peekingAt []) 5).rxq = [] ∧
    headCommitted (port (peekingAt [{ typ := 2, payload := leBytes 240 (2 ^ 140) }]) 5) true { typ := 2, payload := leBytes 240 (2 ^ 140) } = false ∧
    Reaches .host .dbg 0 peekingHbc ∧ getF peekingHbc Reg.dbgSel 4 0 < fifoLanes 6 ∧ getF peekingHbc Reg.dbgSel 35 32 = 6 ∧
    (crossingAt peekingHbc .hbc 0).wake = true ∧ getB peekingHbc Reg.dbgSel 8 = false := by decide +kernel
/-- R443: an empty FIFO reads 0 with EMPTY_READ. R40: a debug access behind a stopped clock waits. -/
theorem test_debug_waits : getB (after (exec (.dbgFifoData .host) (peekingAt []))) (Reg.intStatus .nlp 5) 1 = true ∧
    getB (after (exec (.dbgFifoData .host) (peekingAt [{ typ := 3 }]))) (Reg.intStatus .nlp 5) 1 = false ∧
    Stopped (reach (shut false (debugging true)) .dbgMemDone) (shut false (debugging true)) ∧
    (crossingAt (after (exec .dbgMemDone (shut false (debugging true)))) .hbc 0).wake = true ∧
    getB (after (exec .dbgMemDone (shut false (debugging true)))) Reg.dbgCtrl 62 = true := by
  refine ⟨?_, ?_, ⟨(0, 8), ?_⟩, ?_⟩ <;> decide +kernel
theorem test_debug_runs (rs : List (Nat × Nat)) : ¬ Stopped rs (debugging true) ∧ ¬ Stopped rs (debugging false) :=
  ⟨not_stopped rfl rs, not_stopped rfl rs⟩

/-! Lockers and restarts -/

/-- Little-endian bytes `f` put at offset `o` of a payload. -/
def put (o n v : Nat) (p : List Byte) : List Byte := p.take o ++ leBytes n v ++ p.drop (o + n)

/-- A SEC HEAD at the front of port 0: OP `op`, LENGTH `len`, 64 bytes of data behind a write. -/
def secHead (op len : Nat) : Flit :=
  { typ := 2, cls := 2, payload := put 0x10 4 len (put 6 1 op (List.replicate 240 0)) }
/-- The data of the write. -/
def secData : Flit := { typ := 3, cls := 2, len := 0, payload := List.replicate 240 3 }
/-- The device holds a Locker in region 0, 3 MiB of class LCK, if `h`; a write (op 0) or read (op 1) of 64 bytes has arrived. -/
def holder (h : Bool) (op : Nat) : State :=
  let s := setB (setF (setF run (Reg.regionW1 0) 39 20 3) (Reg.regionW0 0) 59 56 6) (Reg.regionW0 0) 63 true
  setPort 0 { (port run 0) with rxq := secHead op 64 :: (if op = 0 then [secData] else []) } (setB s Reg.lockerCfg 62 h)

theorem test_HolderServesItsLocker :
    frontMine (holder true 0) 0 2 2 = some (secHead 0 64, [secData], []) ∧ leAt (secHead 0 64).payload 6 1 = 0 ∧
    ringHdrOk (holder true 0) 0 (secHead 0 64) = true ∧ (holder true 0).rings.length = 3 ∧
    joinData (secHead 0 64) [secData] = List.replicate 64 3 ∧ leAt (secHead 0 64).payload 0x18 8 = 0 ∧
    ((heldRange (holder true 0) 0 64).map (·.size)) = some 3145728 ∧ heldRange (holder false 0) 0 64 = none ∧
    frontMine (holder false 1) 0 2 2 = some (secHead 1 64, [], []) ∧ leAt (secHead 1 64).payload 6 1 = 1 ∧
    frontMine (holder true 1) 0 2 2 = some (secHead 1 64, [], []) ∧ leAt (secHead 1 64).payload 0x10 4 = 64 ∧
    ((heldRange (holder true 1) 0 64).map (·.base)) = some 0 ∧ ((regionOf (holder true 1) 0).map (·.cls)) = some 6 ∧
    rsLine (holder true 1) [] 0 = some (memRead (holder true 1).hbm 0 64, 0) ∧ lckAddr 0 63 / 64 * 64 = 0 ∧
    poisoned [.crossingUncorrectable .nlp 0 false] .nlp 0 false = true := by decide +kernel
theorem test_holder_runs (rs : List (Nat × Nat)) : ¬ Stopped rs (holder true 0) ∧ ¬ Stopped rs (holder true 1) :=
  ⟨not_stopped rfl rs, not_stopped rfl rs⟩
/-- R247: unit 1 of a stripe follows the first 256 bytes; unit 5 is parity, so Locker byte 1,280 starts the next stripe. -/
theorem test_stripe : lckAddr 0 255 = 255 ∧ lckAddr 0 1279 = 1279 ∧ lckAddr 0 1280 = 1536 := by decide

/-- A securing pass of generation 1 runs; `d`: its state is read. -/
def passing (d : Bool) : State :=
  { setF (setB run Reg.lockerState 61 true) Reg.lockerState 60 60 1 with locker := { readDone := d } }
theorem test_SecuringPassesKeepGenerations : Reaches .mgt0 .glb 0 run ∧ passActive (passing false) = true ∧ phase (passing false) = 0 ∧
    (passing false).locker.readDone = false ∧ (passing false).rings.length = 3 ∧ (scaleBytes {}).length = 128 ∧
    passActive (passing true) = true ∧ (passing true).locker.readDone = true ∧ secOpen (passing true) = false := by decide +kernel
theorem test_pass_runs (rs : List (Nat × Nat)) : ¬ Stopped rs (passing false) := not_stopped rfl rs
/-- No scale record is stored, so each has the 128 bytes of the record that an unlisted id reads. -/
theorem test_scale_records : ∀ i, i < 4096 → (scaleBytes (cellGet noScale (passing false).census.scale i)).length = 128 :=
  fun _ _ => test_SecuringPassesKeepGenerations.2.2.2.2.2.1
/-- R325: the pass marks its own generation and no other. -/
theorem test_pass_complete : genComplete (after (exec .securingPassComplete (passing true))) 1 = true ∧
    genComplete (after (exec .securingPassComplete (passing true))) 0 = false := by decide +kernel

/-- A halted job in phase `p`. -/
def inPhase (p : Nat) : State := setF (setF run Reg.jobStatus 63 60 4) Reg.restartStatus 63 60 p
/-- Generation 0 is complete for step 9. -/
def secured (p : Nat) : State := setF (setB (inPhase p) Reg.lockerState 63 true) Reg.lockerSteps 31 0 9
/-- Two restarts ended with the same record. -/
def stalled : State := { inPhase 3 with job := { stalls := [(9, 1, 2), (9, 1, 2)] } }
/-- The channel profile is to step to `q`. -/
def stepping (p q : Nat) : State := { inPhase p with locker := { stepTo := some q } }
/-- The 4,096 bytes of an image's header for STEP 0, with one directory entry if `one`; the CRCs are those of IEEE 802.3,
computed outside the model. -/
def imageBytes (one : Bool) : List Byte :=
  [1, 0x4C, 0x54, 0x4B, 1, 0, 1] ++ List.replicate 13 0 ++ [if one then 1 else 0] ++ List.replicate 43 0 ++
    leBytes 8 (if one then 0x10100 else 0) ++ List.replicate 4020 0 ++ leBytes 4 (if one then 0x72D3C998 else 0x5E41D00A)
/-- The image that a refill has received. -/
def refill (m : Mem) : State := { inPhase 6 with locker := { image := m } }

theorem test_RestartFollowsItsPhases : Reaches .host .glb 0 (inPhase 3) ∧ fld 0x2000000000000009 63 63 = 0 ∧ phase (inPhase 3) = 3 ∧
    stalledTwice stalled = true ∧ phase stalled = 3 ∧ stalledTwice (inPhase 3) = false ∧ fld 0x2000000000000009 61 61 = 1 ∧
    (inPhase 3).locker.stepTo = none ∧ (stepping 3 1).locker.stepTo ≠ none ∧ stalledTwice (stepping 3 1) = false ∧ phase (stepping 3 1) = 3 ∧
    fld 9 61 61 = 0 ∧ ([0, 1].find? fun g => genComplete (secured 3) g && genStep (secured 3) g == fld 9 31 0) = some 0 ∧
    ([0, 1].find? fun g => genComplete (inPhase 3) g && genStep (inPhase 3) g == fld 9 31 0) = none ∧ phase (secured 5) = 5 ∧
    (secured 3).rings.length = 3 ∧ phase (inPhase 4) = 4 ∧ (inPhase 4).locker.stepTo = none ∧ (stepping 4 4).locker.stepTo = some 4 ∧
    phase (refill []) = 6 ∧ secOpen (refill []) = false := by decide +kernel
/-- Region 0 is of 1 MiB and class 1; the directory of generation 0 has it with 2 MiB. -/
def regrown (p : Nat) : State :=
  { setF (setF (secured p) (Reg.regionW1 0) 39 20 1) (Reg.regionW0 0) 63 56 0x81 with locker := { dir0 := [0x20100] } }
theorem test_RestartDirectories : dirMatches (secured 3) 0 = true ∧ dirMatches (regrown 3) 0 = false ∧ phase (regrown 3) = 3 ∧
    dirMatches { regrown 3 with locker := { dir0 := [0x10100] } } 0 = true ∧
    phase (regrown 5) = 5 ∧ Reaches .host .glb 0 (regrown 5) ∧ stalledTwice (regrown 3) = false ∧ (secured 3).locker.stepTo = none ∧
    ([0, 1].find? fun g => genComplete (regrown 3) g && genStep (regrown 3) g == fld 9 31 0) = some 0 ∧
    ([0, 1].find? fun g => genComplete (inPhase 5) g && genStep (inPhase 5) g == fld 9 31 0) = none ∧
    phase (inPhase 7) ≠ 3 ∧ phase (inPhase 7) ≠ 5 ∧ getF (inPhase 6) Reg.scaleTable 47 8 * 256 + 524288 ≤ 524288 := by
  decide +kernel
/-- An image of one region. -/
def refillOn (m : Mem) : State := { regrown 6 with locker := { image := m } }
def refillOne : State := refillOn (memWrite [] 0 (imageBytes true))
theorem test_image_refused : imageCheck (refill []) ≠ 0 := by decide +kernel
set_option maxRecDepth 200000 in
theorem test_image_length (one : Bool) : (imageBytes one).length = 4096 := by cases one <;> decide +kernel
set_option maxRecDepth 200000 in
theorem test_image_crc (one : Bool) : crc32 ((imageBytes one).take 0xFFC) = leAt (imageBytes one) 0xFFC 4 := by
  cases one <;> decide +kernel
set_option maxRecDepth 200000 in
theorem test_image_fields (one : Bool) : leAt (imageBytes one) 0 4 = 0x4B544C01 ∧ leAt (imageBytes one) 4 2 = 1 ∧
    leAt (imageBytes one) 6 1 = 1 ∧ leAt (imageBytes one) 8 8 = 0 ∧ leAt (imageBytes one) 0x10 4 = 0 ∧
    leAt (imageBytes one) 0x14 2 = (if one then 1 else 0) ∧ leAt (imageBytes one) 0x40 8 = (if one then 0x10100 else 0) := by
  cases one <;> decide +kernel
/-- The header is whole, whatever else the image holds. -/
theorem image_read (one : Bool) : memRead (memWrite [] 0 (imageBytes one)) 0 4096 = imageBytes one := by
  have h := memRead_write [] 0 (imageBytes one)
  rwa [test_image_length] at h
set_option maxRecDepth 200000 in
theorem test_image_dirs (one : Bool) : memNat (memWrite [] 0 (imageBytes one)) 0x14 2 = (if one then 1 else 0) ∧
    memNat (memWrite [] 0 (imageBytes one)) 0x40 8 = (if one then 0x10100 else 0) := by cases one <;> decide +kernel
theorem test_image_regions : dirRegion refillOne 0x10100 = some { idx := 0, cls := 1, base := 0, size := 0x100000 } ∧
    phase refillOne = 6 ∧ secOpen refillOne = false ∧ (ownIdentity refillOne).toNat = 0 ∧ getF refillOne Reg.restartCtrl 31 0 = 0 := by
  decide +kernel
theorem image_dir (one : Bool) (s : State) (h : s.locker.image = memWrite [] 0 (imageBytes one)) :
    imageDir s = if one then [0x10100] else [] := by
  simp only [imageDir, h, (test_image_dirs one).1]
  cases one
  · rfl
  · exact congrArg (· :: []) (test_image_dirs true).2
/-- What a good header holds. -/
theorem image_good (s : State) (m : Mem) (h : List Byte) (hm : s.locker.image = m) (hh : memRead m 0 4096 = h) (hb : s.locker.broken = false)
    (h0 : leAt h 0 4 = 0x4B544C01) (h4 : leAt h 4 2 = 1) (h6 : leAt h 6 1 = 1) (h8 : leAt h 8 8 = (ownIdentity s).toNat)
    (h10 : leAt h 0x10 4 = getF s Reg.restartCtrl 31 0) (hc : crc32 (h.take 0xFFC) = leAt h 0xFFC 4)
    (hl : (imageDir s).length ≤ 256) (hd : dirFits s (imageDir s) = true) : imageCheck s = 0 := by
  simp only [imageCheck, hm, hh, hb, h0, h4, h6, h8, h10, hc, hd, Nat.not_lt.mpr hl]
  simp
theorem refill_image (m : Mem) : (refill m).locker.image = m ∧ (refill m).locker.broken = false := ⟨rfl, rfl⟩
/-- A refill of a header without regions: what does not depend on the image. -/
theorem refill_fields (m : Mem) : (ownIdentity (refill m)).toNat = 0 ∧ getF (refill m) Reg.restartCtrl 31 0 = 0 :=
  have k : getF (refill m) Reg.restartCtrl 31 0 = getF (refill []) Reg.restartCtrl 31 0 := rfl
  ⟨rfl, k.trans (by decide +kernel)⟩
theorem refillOn_image (m : Mem) : (refillOn m).locker.image = m ∧ (refillOn m).locker.broken = false := ⟨rfl, rfl⟩
theorem test_image_none : imageDir (refill (memWrite [] 0 (imageBytes false))) = [] ∧
    imageRegions (refill (memWrite [] 0 (imageBytes false))) = [] :=
  have h := image_dir false _ (refill_image (memWrite [] 0 (imageBytes false))).1
  ⟨h, by rw [imageRegions, h]; rfl⟩
theorem test_image_one_region : imageDir refillOne = [0x10100] ∧
    imageRegions refillOne = [{ idx := 0, cls := 1, base := 0, size := 0x100000 }] :=
  have h := image_dir true _ (refillOn_image (memWrite [] 0 (imageBytes true))).1
  ⟨h, by rw [imageRegions, refillOne, h]; simp only [if_true, List.filterMap_cons, List.filterMap_nil]; rw [← refillOne, test_image_regions.1]⟩
theorem test_image_accepted : imageCheck (refill (memWrite [] 0 (imageBytes false))) = 0 :=
  let f := test_image_fields false
  let g := refill_fields (memWrite [] 0 (imageBytes false))
  image_good _ _ _ (refill_image _).1 (image_read false) (refill_image _).2 f.1 f.2.1 f.2.2.1 (f.2.2.2.1.trans g.1.symm)
    (f.2.2.2.2.1.trans g.2.symm) (test_image_crc false) (by rw [test_image_none.1]; decide) (by rw [test_image_none.1]; rfl)
theorem test_image_one : imageCheck refillOne = 0 := by
  have f := test_image_fields true
  have d := test_image_one_region.1
  refine image_good _ _ _ (refillOn_image _).1 (image_read true) (refillOn_image _).2 f.1 f.2.1 f.2.2.1
    (f.2.2.2.1.trans test_image_regions.2.2.2.1.symm) (f.2.2.2.2.1.trans test_image_regions.2.2.2.2.symm) (test_image_crc true) ?_ ?_
  · exact Nat.le_trans (Nat.le_of_eq (congrArg List.length d)) (by decide)
  · show dirFits refillOne (imageDir refillOne) = true
    rw [d, dirFits, List.all_cons, List.all_nil, test_image_regions.1]; rfl

theorem test_refill_runs (m : Mem) (rs : List (Nat × Nat)) : ¬ Stopped rs (refill m) ∧ ¬ Stopped rs (refillOn m) :=
  ⟨not_stopped rfl rs, not_stopped rfl rs⟩

/-- Two residue faults of one cell of array 3 of core 135, and nothing else. -/
def cellFault : State := { inPhase 1 with unitFaults := [(2, 135, 16383), (2, 135, 16383)] }
/-- Engine 0 is mapped and enabled. -/
def engineFault : State := setB (setB (inPhase 1) (Reg.blkCtrl .jnc 0) 63 true) (Reg.blkCtrl .jnc 0) 40 true
theorem test_SubstitutionMapsSpares : jobState (inPhase 1) = 4 ∧ phase (inPhase 1) = 1 ∧ (inPhase 1).unitFaults = [] ∧
    cellFault.unitFaults = [(2, 135, 16383), (2, 135, 16383)] ∧ getB cellFault (Reg.arraySub 135) (16 * (16383 / 4096) + 15) = false ∧
    getB engineFault (Reg.blkCtrl .jnc 0) 63 = true ∧ getB engineFault (Reg.blkCtrl .jnc 0) 40 = true ∧
    getB engineFault (Reg.blkCtrl .jnc 1) 40 = false ∧ unitLost engineFault .jnc 1 = false ∧ jobState run ≠ 4 := by decide +kernel
/-- A spare row goes on record. -/
theorem test_records : cellFault.mgt.repairs = [] ∧
    (noteRepairs run (rset run (Reg.arraySub 135) 3)).mgt.repairs = [(Reg.arraySub 135, 3)] := by decide +kernel
theorem test_no_channel_lost : ∀ c, c < 384 → getB (inPhase 1) (Reg.hbcState c) 62 = true → getB (inPhase 1) (Reg.hbcState c) 63 = false := by
  decide +kernel

/-! Resets, bring-up, management -/

/-- A flash erase runs. -/
def erasing : State := { run with mgt := { run.mgt with flashOp := some (1, 0x401000, 0) } }
/-- VCORE is enabled. -/
def powered : State := { run with power := { run.power with en := [.vcore] } }
/-- The reset lands are high. -/
def high (s : State) : State := { s with mgt := { s.mgt with porLow := false } }
/-- Power has just come; the flash keeps a repair record. -/
def repaired (s : State) : State := { s with mgt := { s.mgt with repairs := [(Reg.arraySub 5, 3)] } }
theorem test_ResetLands : mustHold (high run) = false ∧ (high run).mgt.porLow = false ∧ (high run).mgt.rstLow = false ∧
    Reaches .host .mgt 0 (high run) ∧ run.mgt.porLow = true ∧ mustHold (high erasing) = true ∧ (high erasing).mgt.porLow = false ∧
    (high run).mgt.repairs = [] ∧ (repaired (high run)).mgt.repairs ≠ [] ∧ recorded (Reg.arraySub 5) = true ∧
    jobState (high job) = 2 ∧ phase (high run) = 0 ∧ jobState (high run) ≠ 2 ∧ jobState (high run) ≠ 3 := by decide +kernel
theorem test_ResetsKeepTheirRecords : powered.power.en.contains .vcore = true ∧ run.power.en.contains .vphy = false ∧
    Reaches .host .mgt 0 run ∧ mustHold run = false ∧ mustHold erasing = true ∧ Reaches .host .mgt 0 erasing ∧
    recorded (Reg.jobStatus) = false ∧ hostFacing (Reg.cardCfg) = true ∧ jobState job = 2 ∧ jobState run ≠ 2 ∧ jobState run ≠ 3 ∧
    phase run = 0 := by decide +kernel

/-- R455: S of the straps; R416: a device reset keeps the repair records. -/
theorem test_straps : strapS (after (exec (.resetRelease .por 2) run)) = 2 ∧ strapS (after (exec (.resetRelease .rst 2) run)) = 0 ∧
    (after (exec .rstN (repaired (high powered)))).mgt.repairs = [(Reg.arraySub 5, 3)] ∧
    landHigh powered (.enable .vcore) = true ∧ landHigh (after (exec .rstN (repaired (high powered)))) (.enable .vcore) = false := by
  decide +kernel

/-- Training is next: boot done, PHY and HBM power good. -/
def training : State := { setF run Reg.bootStatus 63 60 1 with power := { run.power with pg := [.vphy, .vhbm] } }
/-- READY is next. -/
def nearReady : State := setB (setB run Reg.bringup 61 true) (Reg.lock .mbx 0) 0 true
theorem test_BlockResetsAndBringUp : Reaches .mgt0 .mgt 0 run ∧ fld 0x0000000002000000 63 63 = 0 ∧ blkOf (fld 0x0000000002000000 27 24) = .core ∧
    fld 0x0000000002000000 15 0 = 0 ∧ resettable .core = true ∧ blockDisabled run .core 0 = true ∧ jobActive run = false ∧
    resettable .glb = false ∧ isMgt .host = false ∧ Reaches .host .mgt 0 run ∧
    getB (setB run Reg.resetStatus 62 true) Reg.resetStatus 62 = true ∧ bootState training = 1 ∧ training.mgt.tripped = false ∧
    training.power.seq = .none ∧ getB training Reg.bringup 61 = false ∧ training.power.pg.contains .vphy = true ∧
    training.power.pg.contains .vhbm = true ∧ (∀ r ∈ training.mgt.records, r.1 ≠ 6) ∧
    (∀ c, c < 384 → getB training (Reg.hbcState c) 62 = false) ∧ getB nearReady Reg.bringup 63 = false ∧
    getB nearReady Reg.bringup 61 = true ∧ getB nearReady (Reg.lock .mbx 0) 0 = true ∧ nearReady.power.seq = .none ∧
    getB nearReady Reg.bringup 62 = false ∧ unitLost nearReady .core 135 = false := by decide +kernel
/-- Stack 5 trains again behind its reset. -/
def retraining : State := setF (setF (setB nearReady Reg.resetStatus 62 true) Reg.resetCtrl 27 24 (blkCode .hbs)) Reg.resetCtrl 15 0 5
/-- READY is next in IDLE, with a job that waits or none. -/
def idleReady (h : Bool) : State := { setF nearReady Reg.pwrStatus 63 60 1 with job := { startHeld := h } }
theorem test_BringUpMore : retrains retraining = true ∧ getF retraining Reg.resetCtrl 15 0 = 5 ∧
    (∀ k ∈ [320 - 1], k / 64 ≠ 5) ∧ [5].contains 5 = true ∧ pwrState (idleReady true) = 1 ∧ (idleReady true).mgt.tripped = false ∧
    (idleReady true).job.startHeld = true ∧ (idleReady false).job.startHeld = false ∧ (idleReady true).power.seq = .none ∧
    getB (idleReady false) Reg.bringup 63 = false ∧ getB (idleReady false) Reg.bringup 61 = true ∧
    getB (idleReady false) (Reg.lock .mbx 0) 0 = true ∧ getB (setB (idleReady false) Reg.bringup 62 true) Reg.bringup 62 = true ∧
    pwrState nearReady ≠ 1 := by decide +kernel
/-- Stack 0's first logical channel lies on the spare 63. -/
def remapped : State := setChmap 0 0 63 training
theorem test_KeptMap : ((keptMap remapped 0 60).getD (List.range 60)).getD 0 0 = 63 ∧
    ((keptMap training 0 60).getD (List.range 60)).getD 59 0 = 59 := by decide +kernel
/-- The rails of bring-up wait for VDone of VPHY alone. -/
def railing : State :=
  { repaired run with power := { run.power with
      seq := .bringUp, en := [.vsram, .vcore, .vphy], pg := [.vsram, .vcore, .vphy], vdone := [.vsram, .vcore],
      wphy := some { mv := 800, acked := true } } }
theorem test_RailsOfBringUp : railing.power.seq = .bringUp ∧ avsOf railing .vphy = some { mv := 800, acked := true } ∧
    (∀ x ∈ [Supply.vsram, .vcore, .vphy], railing.power.en.contains x = true ∧ railing.power.pg.contains x = true) ∧
    railing.power.vdone.contains .vsram = true ∧ railing.power.vdone.contains .vcore = true ∧
    (∀ c ∈ railing.mgt.repairs, recorded c.1 = true) ∧ (railing.mgt.repairs.map (·.1)).Nodup ∧
    (∀ ty ∈ [Blk.core, .jnc, .hpb], ∀ i, i < built ty → unitLost railing ty i = false) := by decide +kernel
/-- READY is next, in service; both ports of pair 0 are ready. -/
def paired : State := setB (setB (high nearReady) (Reg.linkStatus 0) 59 true) (Reg.linkStatus 1) 59 true
theorem test_FirstPairOpens : getB paired Reg.bringup 62 = false ∧ closeTrigger paired = false ∧ jobState paired = 0 ∧
    pairReady paired 0 = true ∧ (∀ k, k < 3 → getB paired (Reg.underpass (2 * k)) 0 = false ∧ getB paired (Reg.underpass (2 * k)) 1 = false) ∧
    (∀ p, p < 6 → getF paired (Reg.linkCtrl p) 1 0 ≠ 3) ∧ runNeeded (idleReady true) = true ∧ runNeeded (idleReady false) = false ∧
    (idleReady false).mgt.tripped = false ∧ getB (idleReady false) Reg.voltStatus 58 = false ∧ blockDisabled run .hbs 5 = true ∧
    resettable .hbs = true ∧ 5 < built .hbs := by decide +kernel
/-- Table 18-2: IDLE stands at 0.65 V with the districts gated. -/
theorem test_ready_idle : coreTarget (after (exec (.ready 3) (setB (idleReady false) Reg.bringup 62 true))) = 650 ∧
    (after (exec (.ready 3) (setB (idleReady true) Reg.bringup 62 true))).power.seq = .restoreRun := by decide +kernel
theorem test_no_unit_lost : ∀ ty ∈ [Blk.core, .jnc, .hpb], ∀ i, i < built ty → unitLost nearReady ty i = false := by decide +kernel

/-- The lands are high and the boot is still to be verified. -/
def unbooted : State := { run with mgt := { run.mgt with porLow := false } }
/-- Core 0 runs, core 1 is marked if `b`. -/
def coreRun (b : Bool) : State :=
  { setB (setF run Reg.bootStatus 63 60 1) Reg.coreStatus 61 b with mgt := { run.mgt with held0 := false, watchdogOn := true } }
/-- Slots that fail, and the choice among slots for given failures; a slot that passes stands below. -/
theorem test_CoresBootAndTakeOver : unbooted.mgt.porLow = false ∧ unbooted.mgt.rstLow = false ∧ bootState unbooted = 0 ∧
    bootSlot unbooted 7 7 = none ∧ bootSlot unbooted 0 7 = some 0 ∧ bootSlot unbooted 7 0 = some 1 ∧ coreBad unbooted 0 = false ∧
    coreRuns (coreRun false) = true ∧ activeCore (coreRun false) = 0 ∧ (coreRun false).mgt.watchdogOn = true ∧
    isActiveMgt (coreRun false) .mgt0 = true ∧ Reaches .mgt0 .mgt 0 (coreRun false) ∧ coreBad (coreRun false) 1 = false ∧
    coreBad (coreRun true) 1 = true ∧ coreRuns (coreRun true) = true ∧ coreRuns run = false ∧
    ({ run with mgt := { run.mgt with takeoverRunning := true } } : State).mgt.takeoverRunning = true ∧
    isActiveMgt run .host = false := by decide +kernel
/-- Table 17-5: an empty slot fails with code 7. -/
theorem test_boot_empty : getF (after (exec .boot unbooted)) Reg.bootStatus 31 24 = 0x77 := by decide +kernel

/-! A signed image: header version 5, key 0, a body of 4,096 zeros, under the private key 1 with the nonce 1, hashed and
signed outside the model by FIPS 180-4 and FIPS 186-5. -/

/-- The header up to its signature's end; bytes from 0x120 are 0. -/
def signedHead : List Byte :=
  beBytes 48 0x0146544B01000000050000000010000000000000000000000000000000000000C0E59A3E3FFBD3B5C75428FB36432FAC ++
    beBytes 48 0xABC745944296FF515F737C4FEF4EFC64586809F7A16F56354A1EAECF2AA8D77404AA87CA22BE8B05378EB1C71EF320AD ++
    beBytes 48 0x746E1D3B628BA79B9859F741E082542A385502F25DBF55296C3A545E3872760AB73617DE4A96262C6F5D9E98BF9292DC ++
    beBytes 48 0x29F8F41DBD289A147CE9DA3113B5F0B8C00A60B1CE1D7E819D7A431D7C90EA0E5F000000000000000000000000000000 ++
    beBytes 48 0xAA87CA22BE8B05378EB1C71EF320AD746E1D3B628BA79B9859F741E082542A385502F25DBF55296C3A545E3872760AB7 ++
    beBytes 48 0x4D5414CBCE3460A8EAD48C32AA5C01D96BC4F9512F8CAA3B8593BDCA7F0972CB1F5720B07D3876AB3366B63ED133A578
/-- The fused hash of its key. -/
def signedKey : List Byte := beBytes 48 0x8C4F262412B7F9ED867606705A130DE5212FD048FBAF8C3842F4A240F4B45BA0C90F82194CCDDA3ED89C96B0AFE1D51D
/-- The header stands in slot A; key 0 is fused. -/
def signed : State :=
  { unbooted with mgt := { unbooted.mgt with
      flash := memWrite [] 0 signedHead, fuses := { unbooted.mgt.fuses with keyHashes := [signedKey] } } }
/-- FIPS 180-4, its example of one block: the SHA-384 of "abc". -/
theorem test_sha384 : sha384 [0x61, 0x62, 0x63] =
    beBytes 48 0xCB00753F45A35E8BB5A03D699AC65007272C32AB0EDED1631A8B605A43FF5BED8086072BA1E7CC2358BAECA134C825A7 := by decide +kernel
theorem test_signed_length : signedHead.length = 288 := by decide +kernel
set_option maxRecDepth 100000 in
theorem test_signed_header : slotHeader signed 0 = signedHead ++ List.replicate 224 0 := by
  have h := memRead_append (memWrite [] 0 signedHead) 0 signedHead.length 224
  rw [memRead_write, memRead_write_after [] 0 signedHead _ 224 (Nat.le_refl _), memRead_nil, test_signed_length] at h
  exact h
theorem test_signed_fields : headerOk (signedHead ++ List.replicate 224 0) = true ∧ leAt (signedHead ++ List.replicate 224 0) 0xC 4 = 4096 ∧
    leAt (signedHead ++ List.replicate 224 0) 6 1 = 0 ∧ leAt (signedHead ++ List.replicate 224 0) 8 4 = 5 ∧
    (signedHead ++ List.replicate 224 0).all (· == 0) = false := by decide +kernel
theorem test_signed_key : sha384 (((signedHead ++ List.replicate 224 0).drop 0x50).take 97) = signedKey := by decide +kernel
/-- `n` blocks of zeros taken into a hash. -/
def zeroBlocks (n : Nat) (h : List Nat) : List Nat := (List.range n).foldl (fun h _ => shaBlock h (List.replicate 128 0)) h
/-- The hash after 8, 16, 24 and 32 blocks of zeros. -/
def zeroHash8 : List Nat := [8168833788630359305, 8405723375825730221, 7483245451167098093, 16805762822303547144,
  13195758830063488339, 17787304251965129884, 10929656600875548648, 5217197775581287069]
def zeroHash16 : List Nat := [3223105447389306728, 11641853728325108214, 11690497993543641450, 11365732435300554783,
  16141309680485847321, 4837280138786157302, 1372774326486719135, 8327481800317899097]
def zeroHash24 : List Nat := [13416387673564985584, 16485321701172033372, 507375817896422036, 11405969490859980044,
  12764980462302070936, 17410588021607420033, 9482679685887720087, 13547233382584385141]
def zeroHash32 : List Nat := [8410003165442600901, 9171320326053228035, 15219713035302500215, 6210563559575427195,
  7037265965731333368, 12933010924072702096, 6988293323002788265, 6115828674174540820]
theorem test_zeros8 : zeroBlocks 8 shaInit = zeroHash8 := by decide +kernel
theorem test_zeros16 : zeroBlocks 8 zeroHash8 = zeroHash16 := by decide +kernel
theorem test_zeros24 : zeroBlocks 8 zeroHash16 = zeroHash24 := by decide +kernel
theorem test_zeros32 : zeroBlocks 8 zeroHash24 = zeroHash32 := by decide +kernel
/-- The last block: the padding of 4,096 bytes. -/
theorem test_zeros_end : ((shaBlock zeroHash32 (0x80 :: List.replicate ((239 - 4096 % 128) % 128) 0 ++ beBytes 16 (8 * 4096))).take 6 |>.map (beBytes 8)).flatten =
    ((signedHead ++ List.replicate 224 0).drop 0x20).take 48 := by decide +kernel
theorem zeroBlocks_add (a b : Nat) (h : List Nat) : zeroBlocks (a + b) h = zeroBlocks b (zeroBlocks a h) := by
  simp [zeroBlocks, List.range_add, List.foldl_map]
theorem zeroBlocks_eq (k : Nat) (t : List Byte) (h : List Nat) (n : Nat) (hn : 128 * n ≤ k) :
    (List.range n).foldl (fun h i => shaBlock h (((List.replicate k 0 ++ t).drop (128 * i)).take 128)) h = zeroBlocks n h := by
  induction n with
  | zero => simp only [zeroBlocks, List.range_zero, List.foldl_nil]
  | succ n ih =>
    have e : ((List.replicate k 0 ++ t).drop (128 * n)).take 128 = List.replicate 128 (0 : Byte) := by
      rw [List.drop_append_of_le_length (by rw [List.length_replicate]; omega), List.drop_replicate,
        List.take_append_of_le_length (by rw [List.length_replicate]; omega), List.take_replicate, Nat.min_eq_left (by omega)]
    rw [zeroBlocks, List.range_succ, List.foldl_append, List.foldl_append, ih (by omega), List.foldl_cons, List.foldl_nil, e,
      zeroBlocks, List.foldl_cons, List.foldl_nil]
/-- A message of `n` blocks of zeros, whose padding is one block more. -/
theorem sha384_zeros (k n : Nat) (t : List Byte) (hk : k = 128 * n) (ht : t.length = 128)
    (hp : shaPad (List.replicate k 0) = List.replicate k 0 ++ t) :
    sha384 (List.replicate k 0) = ((shaBlock (zeroBlocks n shaInit) t).take 6 |>.map (beBytes 8)).flatten := by
  have hl : (List.replicate k (0 : Byte) ++ t).length / 128 = n + 1 := by
    rw [List.length_append, List.length_replicate, ht]; omega
  have hd : ((List.replicate k (0 : Byte) ++ t).drop (128 * n)).take 128 = t := by
    rw [List.drop_left' (by rw [List.length_replicate, hk]), List.take_of_length_le (by omega)]
  rw [sha384, hp, hl, List.range_succ, List.foldl_append, zeroBlocks_eq k t _ n (by omega), List.foldl_cons, List.foldl_nil, hd]
theorem shaPad_zeros (k : Nat) : shaPad (List.replicate k 0) =
    List.replicate k 0 ++ (0x80 :: List.replicate ((239 - k % 128) % 128) 0 ++ beBytes 16 (8 * k)) := by
  rw [shaPad, List.length_replicate, List.append_assoc]
theorem test_signed_digest : sha384 (List.replicate 4096 0) = ((signedHead ++ List.replicate 224 0).drop 0x20).take 48 := by
  have h32 : zeroBlocks 32 shaInit = zeroHash32 := by
    rw [zeroBlocks_add 8 24, zeroBlocks_add 8 16, zeroBlocks_add 8 8, test_zeros8, test_zeros16, test_zeros24, test_zeros32]
  rw [sha384_zeros 4096 32 _ (by decide) (by decide +kernel) (shaPad_zeros 4096), h32, test_zeros_end]
theorem test_signature : ecdsaVerify (((signedHead ++ List.replicate 224 0).drop 0x50).take 97) ((signedHead ++ List.replicate 224 0).take 0xC0)
    (((signedHead ++ List.replicate 224 0).drop 0xC0).take 48) (((signedHead ++ List.replicate 224 0).drop 0xF0).take 48) = true := by
  decide +kernel
set_option maxRecDepth 100000 in
/-- R380: the slot passes every check, so the boot loads it. -/
theorem test_signed_slot : slotFail signed 0 = 0 := by
  have hb : memRead signed.mgt.flash (slotBase 0 + 0x200) 4096 = List.replicate 4096 0 :=
    (memRead_write_after [] 0 signedHead 0x200 4096 (by rw [test_signed_length]; decide)).trans (memRead_nil _ _)
  have hk : signed.mgt.fuses.keyHashes.getD 0 [] = signedKey := rfl
  simp only [slotFail, test_signed_header, test_signed_fields.1, test_signed_fields.2.1, test_signed_fields.2.2.1,
    test_signed_fields.2.2.2.1, test_signed_fields.2.2.2.2, test_signed_key, test_signed_digest, test_signature, hb, hk]
  decide
/-- So the boot has a slot to load and a good core for it. -/
theorem test_signed_boot : bootSlot signed (slotFail signed 0) 7 = some 0 ∧ signed.power.en = [] ∧ coreBad signed 0 = false ∧
    bootState signed = 0 ∧ signed.mgt.porLow = false ∧ signed.mgt.rstLow = false ∧ signed.mgt.tripped = false := by
  rw [test_signed_slot]; decide +kernel

/-- The sampling clock is stopped. -/
def stopped (s : State) : State := { s with power := { s.power with oscillator := false } }
theorem test_WatchdogNeedsClock : (coreRun false).power.oscillator = true ∧ (stopped (coreRun false)).power.oscillator = false ∧
    (stopped (coreRun false)).mgt.watchdogOn = true := by decide +kernel

theorem test_FlashAndFusesAct : Reaches .mgt0 .mgt 0 run ∧
    ({ run with mgt := { run.mgt with burning := some 3 } } : State).mgt.burning = some 3 ∧ run.mgt.heldReset = none ∧
    run.mgt.flashOp = none ∧ inRunningSlot run 0x400000 = false ∧
    inRunningSlot (setF run Reg.bootStatus 63 60 1) 0 = true ∧ Reaches .mgt0 .mgt 0 (setF run Reg.bootStatus 63 60 1) ∧
    erasing.mgt.flashOp ≠ none ∧ erasing.mgt.flashOp = some (1, 0x401000, 0) := by decide +kernel

/-- A flash program below the data area ends. -/
def programming : State := { run with mgt := { run.mgt with flashOp := some (0, 0x400000, 5) } }
theorem test_FlashData : programming.mgt.flashOp = some (0, 0x400000, 5) ∧ programming.mgt.heldReset = none ∧
    (after (exec .flashDone programming)).mgt.records = programming.mgt.records := by decide +kernel
theorem test_flash_record : (after (exec .flashDone erasing)).mgt.records = Config.condemnedIn (dataArea (after (exec .flashDone erasing)).mgt.flash) :=
  rfl
theorem test_ManagementPortsAndSensors : i2cReady run .management = true ∧ i2cReady run .debug = true ∧ i2cReady asleep .debug = true ∧ 0x131 % 8 ≠ 0 ∧ 0x130 % 8 = 0 ∧ i2cWrites run 0x130 = true ∧
    i2cWrites run 0x100 = false ∧ i2cReads run 0x110 = true ∧ i2cReads run 0x108 = false ∧ 0x60 ≠ 0x58 + strapS run ∧
    (List.replicate 16 (30 : Int)).length = 16 ∧ run.power.oscillator = true ∧ pwrState run ≠ 3 ∧
    ((atLevel run.mgt.fuses.stage2 (115 :: List.replicate 15 30)).any
      ({ run with mgt := { run.mgt with hot2 := [0] } } : State).mgt.hot2.contains) = true := by decide +kernel
/-- Die 0 has been hot once; VCORE is enabled at 750 mV. -/
def warm : State := setF { run with mgt := { run.mgt with hot1 := [0] }, power := { run.power with en := [.vcore] } } Reg.voltStatus 43 32 750
theorem test_SensorsLowerCore : (atLevel warm.mgt.fuses.stage1 (109 :: List.replicate 15 30)).any warm.mgt.hot1.contains = true ∧
    ((atLevel warm.mgt.fuses.stage2 (109 :: List.replicate 15 30)).any warm.mgt.hot2.contains ||
      (atLevel 105 [30, 30, 30, 30, 30, 30]).any warm.mgt.hotStacks.contains) = false ∧ warm.mgt.tripped = false ∧
    650 < heldCore warm ∧ getB warm Reg.voltStatus 58 = false ∧ warm.power.en.contains .vcore = true ∧ 0x58 + strapS run ≠ 0x60 := by decide +kernel
/-- Table 17-4: stage 1 holds from two samples running. -/
theorem test_stage1 : getB (after (exec (.sensorSample (109 :: List.replicate 15 30) [30, 30, 30, 30, 30, 30])
    { warm with power := run.power })) Reg.thermal 63 = true := by decide +kernel
/-! Power -/

/-- Power state `p`, sequence `q`. -/
def powerOf (p : Nat) (q : Seq) : State := { setF run Reg.pwrStatus 63 60 p with power := { run.power with seq := q } }
/-- Every rail is enabled and good. -/
def railsGood (q : Seq) : State :=
  { powerOf 2 q with
    power := { seq := q, en := [.vsram, .vcore, .vphy], pg := [.vsram, .vcore, .vphy], vdone := [.vsram, .vcore, .vphy] } }

theorem test_PowerStatesFollowRequests : Reaches .mgt0 .mgt 0 (powerOf 1 .none) ∧ (powerOf 1 .none).power.seq = .none ∧
    pwrState (powerOf 1 .none) = 1 ∧ jobActive (powerOf 1 .none) = false ∧ phase (powerOf 1 .none) = 0 ∧ pwrState run ≠ 1 ∧
    Reaches .mgt0 .mgt 0 (powerOf 2 .restore) ∧ (powerOf 2 .restore).power.seq = .restore ∧ run.mgt.heldReset = none ∧
    run.power.held = none ∧ run.ports.length = 6 ∧ (powerOf 1 .enterSleep).power.seq = .enterSleep ∧
    (powerOf 1 .enterStandby).power.seq = .enterStandby ∧ (railsGood .restore).power.seq = .restore ∧ railsUp (railsGood .restore) = true ∧
    (railsGood .restore).job.startHeld = false ∧ (railsGood .restoreRun).power.seq = .restoreRun ∧
    (railsGood .restoreRun).power.wcore = none ∧ (railsGood .restoreRun).power.wsram = none ∧
    (railsGood .restoreRun).power.wantCore = none ∧ pwrState (powerOf 0 .none) = 0 ∧ railsUp (powerOf 2 .restore) = false := by
  decide +kernel
/-- A wake request is held in an entry. -/
def heldWake (q : Seq) (src : WakeSource) : State := { powerOf 1 q with power := { (powerOf 1 q).power with held := some (.wake src) } }
theorem test_PowerStates_held : (heldWake .enterSleep .pcie).power.held = some (.wake .pcie) ∧
    (heldWake .enterSleep .pcie).power.seq = .enterSleep ∧ (heldWake .enterStandby .i2c).power.seq = .enterStandby ∧
    (heldWake .enterStandby .i2c).power.held = some (.wake .i2c) ∧ (heldWake .enterSleep .pcie).mgt.heldReset = none ∧
    (powerOf 1 .none).mgt.tripped = false ∧ run.mgt.tripped = false ∧ run.power.seq = .none ∧ pwrState run = 0 ∧
    ({ run with mgt := { run.mgt with tripped := true } } : State).mgt.tripped = true ∧ (powerOf 2 .restore).mgt.heldReset = none := by
  decide +kernel
/-- R399: the held wake turns the entry round. -/
theorem test_held_wake : (after (exec .entrySequenceComplete (heldWake .enterSleep .pcie))).power.seq = .restore ∧
    pwrState (after (exec .entrySequenceComplete (heldWake .enterSleep .pcie))) = 2 := by decide +kernel
theorem test_start_held : railsUp { railsGood .restore with job := { startHeld := true } } = true ∧
    ({ railsGood .restore with job := { startHeld := true } } : State).job.startHeld = true := by decide +kernel
/-- R394: SLEEP from RUN is refused, from IDLE it starts the entry. -/
theorem test_sleep : (after (exec (.sleepRequest .mgt0 (2 ^ 63)) run)).power.seq = .none ∧
    (after (exec (.sleepRequest .mgt0 (2 ^ 63)) (powerOf 1 .none))).power.seq = .enterSleep := by decide +kernel

/-- A job waits for the end of a restore; a set point has not settled. -/
def held1 (q : Seq) : State := { railsGood q with job := { startHeld := true } }
def unset : State := { railsGood .restoreRun with power := { (railsGood .restoreRun).power with wcore := some { mv := 750 } } }
theorem test_RestoresEnd : (high (heldWake .enterStandby .i2c)).mgt.porLow = false ∧
    (high (heldWake .enterStandby .i2c)).mgt.flashOp = none ∧ (high (heldWake .enterStandby .i2c)).mgt.burning = none ∧
    (high (heldWake .enterStandby .i2c)).power.held = some (.wake .i2c) ∧ (railsGood .restore).power.held = none ∧
    runNeeded (railsGood .restore) = false ∧ runNeeded (held1 .restore) = true ∧ railsUp (held1 .restore) = true ∧
    (railsGood .restore).mgt.tripped = false ∧ railSet (railsGood .restoreRun) = true ∧ railSet unset = false ∧
    unset.power.seq = .restoreRun ∧ unset.mgt.heldReset = none ∧ getB (powerOf 1 .none) Reg.voltStatus 58 = false ∧
    (high (powerOf 3 .none)).mgt.porLow = false ∧ (high (powerOf 3 .none)).mgt.flashOp = none ∧
    (high (powerOf 3 .none)).mgt.burning = none ∧ wakesFrom 3 .i2c = true ∧ pwrState (high (powerOf 3 .none)) = 3 := by decide +kernel
theorem test_restores_run : (railsGood .restore).heldHost = [] ∧ (held1 .restore).heldHost = [] ∧
    (crossingAt (after (exec .entrySequenceComplete (powerOf 1 .enterSleep))) .mgt 0).clockOn = false ∧
    (crossingAt (after (exec .entrySequenceComplete (powerOf 1 .enterSleep))) .hbc 383).clockOn = false := by decide +kernel
/-- Table 18-4 event 12: a job that waits takes the restore on into RUN. 18 R398: a set point that fails fails it. -/
theorem test_restores_end : (after (exec .restoreComplete (held1 .restore))).power.seq = .restoreRun ∧
    pwrState (after (exec .restoreComplete (railsGood .restoreRun))) = 0 ∧
    getB (after (exec .railFail unset)) Reg.pwrStatus 55 = true := by decide +kernel

theorem test_WakeSourcesWake : Wakes .pcieD0 .pcie (powerOf 2 .none) ∧ wakeEnabled (powerOf 2 .none) .pcie = true ∧
    wakesFrom 2 .pcie = true ∧ (powerOf 2 .none).mgt.tripped = false ∧ Wakes (.wakeRequest .start) .start (powerOf 1 .none) ∧
    wakesFrom 1 .start = true ∧ wakesFrom 3 .i2c = true ∧ pwrState (powerOf 3 .none) = 3 ∧ wakesFrom (pwrState run) .start = false ∧
    getB run (Reg.underpass 5) 0 = false := by
  refine ⟨.inr (.inr (.inr (.inl ⟨rfl, rfl⟩))), ?_, ?_, ?_, .inl rfl, ?_⟩ <;> decide +kernel
theorem test_WakeSources_more : Wakes (.i2cAddressMatch (0x58 + strapS run)) .i2c (stopped (powerOf 3 .none)) ∧
    wakeEnabled (stopped (powerOf 3 .none)) .i2c = true ∧ wakesFrom 2 .pcie = true ∧ (powerOf 1 .enterSleep).power.seq = .enterSleep ∧
    (powerOf 1 .enterSleep).mgt.tripped = false ∧ (powerOf 1 .enterStandby).power.seq = .enterStandby := by
  refine ⟨.inr (.inr (.inr (.inr ⟨rfl, rfl, rfl⟩))), ?_⟩ ; decide +kernel
/-- Table 18-5: PCIe leaves SLEEP with code 4 and does not leave IDLE. -/
theorem test_pcie_wake : getF (after (exec .pcieD0 (powerOf 2 .none))) Reg.pwrStatus 54 52 = 4 ∧
    (after (exec .pcieD0 (powerOf 1 .none))).power.seq = .none := by decide +kernel

/-- A write of 700 mV to VCORE stands as `w`. -/
def avsWrite (w : AvsWrite) : State := { run with power := { run.power with wcore := some w, en := [.vcore] } }
theorem test_AvsAnswersDriveTheRails : avsOf (avsWrite { mv := 700, busy := 8, crc := 3 }) .vcore = some { mv := 700, busy := 8, crc := 3 } ∧
    (700 < 4096) ∧ avsOf (avsWrite { mv := 700, busy := 7, crc := 2 }) .vcore = some { mv := 700, busy := 7, crc := 2 } ∧
    avsOf (avsWrite { mv := 700, hold := true }) .vcore = some { mv := 700, hold := true } ∧
    avsOf (avsWrite { mv := 700, acked := true }) .vcore = some { mv := 700, acked := true } ∧ run.power.seq = .none ∧
    run.power.wantCore = none ∧ run.power.wantSram = none ∧ avsOf run .vphy = none ∧ getB run Reg.voltStatus 58 = false ∧
    (avsWrite { mv := 700 }).power.en.contains .vcore = true ∧ (avsWrite { mv := 700 }).power.pg.contains .vcore = false ∧
    run.power.en.contains .vphy = false := by decide +kernel
theorem test_AvsFails : (avsWrite { mv := 700, busy := 8, crc := 3 }).power.seq = .none ∧
    (avsWrite { mv := 700, busy := 8, crc := 3 }).power.wsram = none ∧
    (avsWrite { mv := 700 }).power.seq ≠ .bringUp := by decide +kernel
/-- VSRAM is enabled in a restore and has settled. -/
def settled : State := { powerOf 2 .restore with power := { seq := .restore, en := [.vsram], vdone := [.vsram] } }
theorem test_AvsRise : settled.power.en.contains .vsram = true ∧ settled.power.pg.contains .vsram = false ∧
    settled.power.en.contains .vcore = false ∧ settled.power.vdone.contains .vsram = true ∧
    avsOf (after (exec (.powerGoodRise .vsram) settled)) .vcore = some { mv := 750 } := by decide +kernel
/-- R403: the ninth busy answer fails the write, the eighth holds it back. -/
theorem test_avs_busy : ((avsOf (after (exec (.avsResponse .vcore .busy) (avsWrite { mv := 700, busy := 7 }))) .vcore).map (·.hold)) = some true ∧
    (after (exec (.avsResponse .vcore .busy) (avsWrite { mv := 700, busy := 8 }))).power.coreFailed = true := by decide +kernel

/-- RUN at VCORE 700 mV, lowest rate `r`, floor 1,400, limits wide. -/
def looping (r : Nat) : State :=
  { setF (setF (setF (setF (setF run Reg.voltPolicy 31 16 0) Reg.voltStatus 43 32 700) Reg.voltPolicy 15 0 1400) Reg.voltPolicy 59 48 1350) Reg.voltPolicy 43 32 850 with
    power := { run.power with rateLow := r, wcore := some { mv := 700 } } }
theorem test_VoltageLoopAndLimits : pwrState (looping 1399) = 0 ∧ (looping 1399).power.seq = .none ∧ loopRate (looping 1399) = 1399 ∧
    coreTarget (looping 1399) = 700 ∧ policyFloor (looping 1399) = 1400 ∧ getB (looping 1399) Reg.voltPolicy 63 = false ∧
    getB (looping 1399) Reg.voltStatus 58 = false ∧ stage1On (looping 1399) = false ∧ (looping 1399).power.limiting = false ∧
    (looping 1399).power.bias = 0 ∧ (looping 1399).power.coreFailed = false ∧
    vmax (setF (looping 1428) Reg.voltPolicy 43 32 690) < 700 ∧ 1400 * 51 ≤ 1428 * 50 ∧
    targetRate (setF (looping 1400) Reg.voltPolicy 31 16 1500) = 1500 ∧ targetRate (looping 1429) * 51 < 1429 * 50 ∧
    pwrState (powerOf 1 .none) ≠ 0 ∧ Reaches .mgt0 .mgt 0 run ∧ fld 1399 15 0 < 1400 ∧ ¬ (fld 1400 15 0 < 1400) ∧ jobActive job = true ∧
    Reaches .mgt0 .mgt 0 job := by decide +kernel
/-- MANUAL, with VCORE on. -/
def manual (on : Bool) : State := { setB run Reg.voltPolicy 63 true with power := { run.power with en := if on then [.vcore] else [] } }
theorem test_ManualSetPoint : Reaches .mgt0 .mgt 0 (manual true) ∧ jobActive (manual true) = false ∧
    getB (manual true) Reg.voltPolicy 63 = true ∧ (manual true).power.en.contains .vcore = true ∧
    (manual false).power.en.contains .vcore = false ∧ coreTarget (after (exec (.mgtVset .mgt0 900) (manual true))) = 850 := by decide +kernel
/-- MANUAL with both rails at rest, VCORE at 750 mV. -/
def resting : State := setF (manual true) Reg.voltStatus 43 32 750
theorem test_ManualSram : resting.power.wcore = none ∧ resting.power.wsram = none ∧ stage1On resting = false ∧
    resting.power.limiting = false ∧ resting.mgt.tripped = false ∧ getB resting Reg.voltStatus 58 = false ∧
    resting.power.en.contains .vcore = true ∧ max 650 (min 850 (fld 0x32002EE 11 0)) = vcore resting ∧
    vsram resting ≠ max (sramFor (vcore resting)) (min 875 (fld 0x32002EE 27 16)) ∧ (looping 1399).mgt.tripped = false ∧
    run.power.oscillator = true ∧ (stopped run).power.oscillator = false := by decide +kernel
/-- R412: a write of MGT_VSET commands VSRAM too: 800 mV beside VCORE at 750 mV. -/
theorem test_vsram_set : avsOf (after (exec (.mgtVset .mgt0 0x32002EE) resting)) .vsram = some { mv := 800 } := by decide +kernel
/-- The same with a VCORE write of `v` outstanding. -/
def loopingAt (r v : Nat) : State := { looping r with power := { (looping r).power with wcore := some { mv := v } } }
/-- R406: below the floor the set point rises by 5 mV, past VMAX with FLOOR_FORCED, and to at most 850. -/
theorem test_loop : coreTarget (after (exec .voltageLoopPeriod (setF (looping 1399) Reg.voltPolicy 43 32 700))) = 705 ∧
    getB (after (exec .voltageLoopPeriod (setF (looping 1399) Reg.voltPolicy 43 32 700))) Reg.voltStatus 62 = true ∧
    coreTarget (after (exec .voltageLoopPeriod (loopingAt 1399 848))) = 850 ∧
    coreTarget (after (exec .voltageLoopPeriod (loopingAt 1399 850))) = 850 ∧
    coreTarget (after (exec .voltageLoopPeriod (loopingAt 1429 652))) = 650 := by decide +kernel

/-- Two steps of body bias after `n` good periods. -/
def biasedAt (r n : Nat) : State := { looping r with power := { (looping r).power with bias := 2, goodPeriods := n } }
/-- R408: a step more at 850 mV below the floor or with a failed write, a step less after ten good periods. -/
theorem test_BodyBias : WantsBias (loopingAt 1399 845) 1399 845 1400 ∧
    ¬ WantsBias (biasedAt 1428 9) 1428 700 1400 ∧ WantsBias { biasedAt 1428 9 with power := { (biasedAt 1428 9).power with coreFailed := true } } 1428 700 1400 ∧
    (after (exec .voltageLoopPeriod (loopingAt 1399 845))).power.bias = 1 ∧
    getF (after (exec .voltageLoopPeriod (loopingAt 1399 845))) Reg.voltStatus 57 55 = 2 ∧
    (after (exec .voltageLoopPeriod (loopingAt 1399 844))).power.bias = 0 ∧
    (after (exec .voltageLoopPeriod (biasedAt 1428 9))).power.bias = 1 ∧ (after (exec .voltageLoopPeriod (biasedAt 1428 8))).power.bias = 2 ∧
    (after (exec .voltageLoopPeriod (setB (loopingAt 1399 850) Reg.thermal 63 true))).power.bias = 0 := by
  refine ⟨.inr ⟨by decide, .inr ⟨by decide, by decide, by decide +kernel⟩⟩, ?_, .inl rfl, ?_⟩
  · rintro (h | h)
    · exact absurd h (by decide +kernel)
    · exact absurd h.1 (by decide)
  · decide +kernel
/-- MANUAL with VCORE at 700 mV, beside which VSRAM stands at 775. -/
def restingLow : State := setF (manual true) Reg.voltStatus 43 32 700
/-- R404: MANUAL cleared, VSRAM goes back to 750 mV. -/
theorem test_LeaveManual : Reaches .mgt0 .mgt 0 restingLow ∧ fld 1400 63 63 = 0 ∧ getB restingLow Reg.voltPolicy 63 = true ∧
    restingLow.power.wantCore = none ∧ vsram restingLow ≠ sramFor (vcore restingLow) ∧
    avsOf (after (exec (.floorRate .mgt0 1400) restingLow)) .vsram = some { mv := 750 } ∧
    avsOf (after (exec (.floorRate .mgt0 (2 ^ 63 + 1400)) restingLow)) .vsram = none := by decide +kernel

/-! The link -/

/-- Port 5 in link state `v`, event `e`. -/
def linkOf (v e : Nat) (s : State) : State := setPort 5 { (port s 5) with event := e } (setF s (Reg.linkStatus 5) 63 60 v)
/-- A peer that matches port 5 in the ring role. -/
def ringPeer : PeerIdentity := { peer with role := 0, pair := 2, port := 4 }

theorem test_LinkTrains : Reaches .host .nlp 5 (linkOf 3 6 run) ∧ (linkOf 3 6 run).ports.length = 6 ∧ pwrState (linkOf 3 6 run) ≤ 1 ∧
    linkState (linkOf 3 6 run) 5 = 3 ∧ fld 0x4000000000000000 63 63 = 0 ∧ linkState (linkOf 0 0 run) 5 = 0 ∧ linkState (linkOf 4 4 run) 5 = 4 ∧
    linkState (linkOf 2 1 run) 5 = 2 ∧ jobRuns (linkOf 2 1 run) = false ∧ jobRuns (linkOf 2 1 job) = true ∧ linkState (linkOf 1 1 run) 5 = 1 ∧
    exchanging (linkOf 2 4 run) 5 = true ∧ exchanging (linkOf 2 3 run) 5 = false ∧ rolesMatch (linkOf 2 4 run) 5 ringPeer = true ∧
    rolesMatch (linkOf 2 4 run) 5 peer = false ∧
    getB (setB (linkOf 2 5 run) (Reg.linkStatus 5) 58 true) (Reg.linkStatus 5) 58 = true := by decide +kernel
/-- A link that resumes with the peer it had. -/
theorem test_same_link : ((port (setPort 5 { (port run 5) with resume := true, peer := some ringPeer } run) 5).peer.any fun o =>
    (port (setPort 5 { (port run 5) with resume := true, peer := some ringPeer } run) 5).resume && { ringPeer with resume := true }.resume &&
      o.identity == ringPeer.identity) = true := by decide +kernel
/-- R260: a compatible peer brings the link UP. -/
theorem test_identity : linkState (after (exec (.identityExchange 5 ringPeer) (linkOf 2 4 run))) 5 = 3 ∧
    getB (after (exec (.identityExchange 5 peer) (linkOf 2 4 run))) (Reg.linkStatus 5) 58 = true := by decide +kernel

/-- Port 5's Underpass is open. -/
def outward (s : State) : State := setB s (Reg.underpass 5) 0 true
theorem test_RetrainUnderJob : Reaches .host .nlp 5 (linkOf 3 6 job) ∧ jobActive (linkOf 3 6 job) = true ∧ pwrState (linkOf 3 6 job) ≤ 1 ∧
    linkState (after (exec (.retrain .host 5 3) (outward (linkOf 3 6 job)))) 5 = 2 ∧
    linkState (after (exec (.retrain .host 5 3) (linkOf 3 6 job))) 5 = 1 ∧
    linkState (after (exec (.retrain .host 5 3) (linkOf 3 6 run))) 5 = 5 ∧ (linkOf 1 1 run).mgt.opening = [] ∧
    getB (linkOf 2 4 run) (Reg.underpass 5) 1 = false := by decide +kernel
/-- Port 5's spare lane is in use, its lane 2 has been retrained. -/
def sparedLink : State := setPort 5 { (port (linkOf 3 6 run) 5) with retried := [2] } (setB (linkOf 3 6 run) (Reg.lane 5) 55 true)
/-- The Underpass of pair 2 is open, or opening. -/
def passage (o p : Bool) : State := setB (setB run (Reg.underpass 4) 0 o) (Reg.underpass 4) 1 p
theorem test_LanesAndUnderpasses : (∀ l, l < 16 → laneCount (port run 5) l ≤ getF run (Reg.linkCtrl 5) 15 8 * 1024) ∧
    linkState (linkOf 3 6 run) 5 = 3 ∧ getB (linkOf 3 6 run) (Reg.lane 5) 55 = false ∧ linkState sparedLink 5 = 3 ∧
    getB sparedLink (Reg.lane 5) 55 = true ∧ 1 ∉ (port sparedLink 5).retried ∧ 2 ∈ (port sparedLink 5).retried ∧
    Reaches .mgt0 .nlp 5 run ∧ isMgt .mgt0 = true ∧ fld 0x4000000000000000 63 63 = 0 ∧ fld 0x8000000000000000 62 62 = 0 ∧
    getB (passage true false) (Reg.underpass 5) 0 = true ∧ getB run (Reg.underpass 5) 0 = false ∧ getB run (Reg.underpass 5) 1 = false ∧
    isMgt .host = false ∧ Reaches .host .nlp 5 run ∧ getB (passage true true) (Reg.underpass (2 * 2)) 1 = true ∧
    getB run (Reg.underpass (2 * 2)) 1 = false := by decide +kernel
/-- The pair is ready, nothing closes it and no job is active. -/
def openable : State :=
  { setB (setB run (Reg.linkStatus 4) 59 true) (Reg.linkStatus 5) 59 true with mgt := { run.mgt with porLow := false } }
theorem test_underpass_open : getB openable (Reg.linkStatus 4) 59 = true ∧ getB openable (Reg.linkStatus 5) 59 = true ∧
    closeTrigger openable = false ∧ jobState openable = 0 ∧
    getB (after (exec (.underpassOpen .mgt0 5 (2 ^ 63)) openable)) (Reg.underpass 5) 0 = true := by decide +kernel

/-- The pairs `l` of bring-up wait to open; pair 2's ports are ready (`r`), or in loopback with port 4 ready, pair 1 opens if `o`. -/
def opening (l : List Nat) (r o : Bool) : State :=
  let s := setF (setF (setB (setB run (Reg.linkStatus 4) 59 true) (Reg.linkStatus 5) 59 r) (Reg.linkStatus 5) 63 60 1) (Reg.linkStatus 3) 63 60 3
  { setF (setPort 2 { (port s 2) with event := 4 } (setB s (Reg.underpass 2) 1 o)) (Reg.linkStatus 2) 63 60 2 with
    mgt := { run.mgt with porLow := false, opening := l } }
/-- 19 R419: the next pair opens behind the last lanes that lock, or behind the end of the open before it. -/
theorem test_NextPairOpens : closeTrigger (opening [2] false false) = false ∧ getB (opening [2] false false) Reg.bringup 62 = false ∧
    jobState (opening [2] false false) = 0 ∧ (∀ i, i < 3 → getB (opening [2] false false) (Reg.underpass (2 * i)) 1 = false) ∧
    (∀ p ∈ [4, 5], getF (opening [2] false false) (Reg.linkCtrl p) 1 0 ≠ 3) ∧ linkState (opening [2] false false) 5 = 1 ∧
    getB (opening [2] false false) (Reg.linkStatus 4) 59 = true ∧ pairReady (opening [2] true true) 2 = true ∧
    getB (opening [2] true true) (Reg.underpass 2) 1 = true ∧ getB (opening [2] true true) (Reg.underpass 4) 0 = false ∧
    (∀ i, i < 3 → i ≠ 1 → getB (opening [2] true true) (Reg.underpass (2 * i)) 1 = false) ∧ Reaches .mgt0 .nlp 2 (opening [2] true true) ∧
    exchanging (opening [2] true true) 2 = true ∧ rolesMatch (opening [2] true true) 2 { ringPeer with pair := 1, port := 3 } = true ∧
    linkState (opening [2] true true) 3 = 3 ∧
    getB (after (exec (.underpassOpenTimeout 1) (opening [2] true true))) (Reg.underpass 4) 0 = true := by decide +kernel

/-- A flit of class REQ. -/
def flit (typ seq : Nat) : Flit := { typ := typ, seq := seq, payload := List.replicate 240 0 }
/-- Port 5 is UP with one credit per class; `x` changes it. -/
def upPort (x : Port → Port) : State := setPort 5 (x { (port (linkOf 3 6 run) 5) with credInit := (1, 1, 1) }) (linkOf 3 6 run)
theorem test_FlitsFlowInSequence :
    (port (upPort fun x => { x with txq := [flit 5 0] }) 5).txq = [] ++ flit 5 0 :: [] ∧ (flit 5 0).cls = 0 ∧
    credits (port (upPort fun x => { x with txq := [flit 5 0] }) 5) 0 ≠ 0 ∧ linkState (upPort id) 5 = 3 ∧
    (port (upPort fun x => { x with retry := [flit 5 0, flit 5 1], resend := 1 }) 5).retry = [flit 5 0] ++ flit 5 1 :: [] ∧
    credits (port (upPort fun x => { x with sent := (1, 0, 0) }) 5) 0 = 0 ∧ (port (upPort id) 5).resend = 0 ∧ linkState run 5 ≠ 3 ∧
    (flit 3 0).seq = (port (upPort id) 5).rxSeq ∧ (flit 5 4095).seq ≠ (port (upPort id) 5).rxSeq ∧ (flit 0 0).payload.length = 240 ∧
    flitOk (flit 0 0) false = true ∧ flitOk (flit 7 0) false = true ∧ (upPort id).ports.length = 6 ∧
    ((port (upPort fun x => { x with ctl := [flit 0 0, flit 1 0] }) 5).ctl.find? fun f => f.typ == 1) = some (flit 1 0) ∧
    ((port (upPort fun x => { x with ctl := [flit 0 0, flit 1 0] }) 5).ctl.find? fun f => f.typ == 0) = some (flit 0 0) ∧
    (∀ f ∈ (port (upPort id) 5).ctl, f.typ ≠ 1) ∧ (port (upPort fun x => { x with retry := [flit 5 0] }) 5).retry ≠ [] ∧
    (port (upPort id) 5).fails < Machine.retryLimit (upPort id) 5 ∧
    Machine.retryLimit (upPort fun x => { x with fails := 15 }) 5 ≤ (port (upPort fun x => { x with fails := 15 }) 5).fails ∧
    (port (upPort fun x => { x with fails := 15, failRuns := 1, retry := [flit 5 0] }) 5).failRuns ≠ 0 := by decide +kernel
/-- A SEC flit beside a REQ flit, `g` flits after the last SEC one. -/
def mixed (g : Nat) : State := upPort fun x => { x with txq := [flit 5 0, { flit 2 0 with cls := 2 }], secGap := g }
theorem test_FlitTurns : classTurn (mixed 14) (port (mixed 14) 5) 0 = true ∧ (crossingAt (mixed 14) .nlp 5).clockOn = true ∧
    classReady (port (mixed 15) 5) 2 = true ∧ 15 ≤ (port (mixed 15) 5).secGap ∧ (port (mixed 15) 5).resend = 0 ∧
    classReady (port (mixed 14) 5) 0 = true ∧ updateHeld (mixed 14) = false ∧ (port (mixed 14) 5).secGap < 15 ∧
    classTurn (mixed 15) (port (mixed 15) 5) 2 = true ∧ flitOk (flit 7 4095) false = true ∧ flitOk (flit 9 0) false = false ∧
    (flit 9 0).seq < 4096 ∧ getB (setB (upPort id) (Reg.lane 5) 63 true) (Reg.lane 5) 63 = true ∧ getB (upPort id) (Reg.lane 5) 63 = false ∧
    linkState (setB (upPort id) (Reg.lane 5) 63 true) 5 = 3 := by decide +kernel
/-- R326: one flit in 16 is a SEC flit while SEC flits wait. -/
theorem test_sec_turn : (port (after (exec (.flitTransmit 5 0) (mixed 14))) 5).secGap = 15 ∧
    (port (after (exec (.flitTransmit 5 0) (mixed 15))) 5).txq.length = 2 ∧
    (port (after (exec (.flitTransmit 5 2) (mixed 15))) 5).secGap = 0 := by decide +kernel
theorem test_bad_flit : (fecDecode (List.replicate 256 1)).ok = false ∨
    crc32 ((fecDecode (List.replicate 256 1)).bytes.take 248) ≠ leAt (fecDecode (List.replicate 256 1)).bytes 0xF8 4 := by
  decide +kernel
/-- R271: the first flit leaves under SEQ 0 and uses the only credit. -/
theorem test_transmit : (port (after (exec (.flitTransmit 5 0) (upPort fun x => { x with txq := [flit 5 9, flit 5 9] }))) 5).retry = [flit 5 0] ∧
    (port (after (exec (.flitTransmit 5 0) (after (exec (.flitTransmit 5 0) (upPort fun x => { x with txq := [flit 5 9, flit 5 9] }))))) 5).txq
      = [flit 5 9] := by decide +kernel
theorem test_FlitsRoundTrip : (flit 15 4095).typ < 16 ∧ (flit 15 4095).seq < 4096 ∧ (flit 15 4095).payload.length = 240 := by decide +kernel

/-! Rings -/

/-- Ring 2 is `n` long, the device at position `p`; both its ports are UP with credits. -/
def ringAtPos (n p : Nat) (s : State) : State :=
  let up := fun (q : Nat) (s : State) =>
    setPort q { (port s q) with event := 6, credInit := (1000, 1000, 1000) } (setF s (Reg.linkStatus q) 63 60 3)
  setF (setF (up 4 (up 5 s)) (Reg.rngPos 2) 27 16 (n - 1)) (Reg.rngPos 2) 11 0 p
/-- A payload: destination `dst`, source `src`, ring length `n`, OP or KIND `k`. -/
def payload (dst src n k : Nat) : List Byte := put 6 1 k (put 4 2 (n - 1) (put 2 2 src (put 0 2 dst (List.replicate 240 0))))
/-- Port 4's crossing holds `fs`. -/
def arrived (fs : List Flit) (s : State) : State := setPort 4 { (port s 4) with rxq := fs } s
/-- A marker of kind `k` from the down neighbour of position 1 of 3. -/
def marker (k dst : Nat) (put' : List Byte → List Byte) : Flit := { typ := 5, payload := put' (payload dst 0 3 k) }
/-- A queued transfer. -/
def queued1 : Transfer := { port := 5, first := marker 3 2 id, data := [] }
/-- A read or write HEAD of window 9, 64 bytes, epoch 0. -/
def head (op : Nat) : Flit := { typ := 2, payload := put 0x10 4 64 (put 8 2 9 (payload 1 0 3 op)) }
/-- Its data. -/
def headData : Flit := { typ := 3, payload := List.replicate 240 6 }
/-- The device owns window 9 in region 0 of class `c`, open if `o`. -/
def owner (c : Nat) (o : Bool) (fs : List Flit) : State :=
  { ringAtPos 3 1 (arrived fs (region c)) with
    job := { windows := [(9, { kind := 1, ring := 2, region := 0, size := 64 })] }, owned := [(9, { isOpen := o })] }
/-- An answer to access 0. -/
def answer : Flit := { typ := 4, cls := 1, payload := payload 1 0 3 0 }
/-- One write to window 9 is not answered; `x` waits for it. -/
def asking (ids : List Nat) : State :=
  let s := ringAtPos 3 1 (arrived [answer] (stepOf [{ core0 [entry 0x30 0 0 0 0] with pos := 1, inflight := [{ flying false [] with waiting := 1 }] }]))
  setRing 2 { (ringAt s 2) with xfers := ids.map fun i => { id := i, op := 0, window := 9, key := 0, length := 64, stream := 0, idx := 0 } } s

/-- Port 5's crossing clock is stopped. -/
def dark (s : State) : State := { s with crossings := [(blkCode .nlp * 512 + 5, { clockOn := false })] }
/-- R40: a word for a stopped domain raises its wake request. -/
theorem test_send_wakes : maySend (dark (setRing 2 { (ringAt (ringAtPos 3 1 run) 2) with sendq := [queued1] } (ringAtPos 3 1 run))) 2 queued1 = true ∧
    (crossingAt (after (exec (.transferSend 2) (dark (setRing 2 { (ringAt (ringAtPos 3 1 run) 2) with sendq := [queued1] } (ringAtPos 3 1 run)))))
      .nlp 5).wake = true := by decide +kernel
theorem test_TransfersCrossTheRing :
    (ringAt (setRing 2 { (ringAt (ringAtPos 3 1 run) 2) with sendq := [queued1] } (ringAtPos 3 1 run)) 2).sendq = [queued1] ∧
    maySend (setRing 2 { (ringAt (ringAtPos 3 1 run) 2) with sendq := [queued1] } (ringAtPos 3 1 run)) 2 queued1 = true ∧
    (∀ x ∈ (ringAt run 2).sendq, maySend run 2 x = false) ∧
    wholeTransfer (port (ringAtPos 3 1 (arrived [marker 3 2 id] run)) 4) 0 = some (marker 3 2 id, [], []) ∧
    isMine (ringAtPos 3 1 (arrived [marker 3 2 id] run)) 2 (marker 3 2 id) = false ∧ forwardAny run 4 = none := by decide +kernel
theorem test_TransfersCrossTheRing_owner :
    frontMine (owner 3 true [head 0, headData]) 4 0 2 = some (head 0, [headData], []) ∧
    ringHdrOk (owner 3 true [head 0, headData]) 2 (head 0) = true ∧ (head 0).gv = false ∧ leAt (head 0).payload 7 1 = 0 ∧
    leAt (head 0).payload 8 2 = 9 ∧ leAt (head 0).payload 0x10 4 = 64 ∧ (ownedOf (owner 3 true [head 0, headData]) 9).before = [] ∧
    routePort (owner 3 true [head 0, headData]) 2 (plSrc (head 0).payload) = some 4 ∧
    ownerCheck (owner 3 true [head 0, headData]) 9 (some 0) true false 0 64 64 = 0 ∧
    ownedAddr (owner 3 true [head 0, headData]) (winOf (owner 3 true [head 0, headData]) 9) 0 = 0 ∧
    (joinData (head 0) [headData]).length = 64 ∧ ((regionOf (owner 3 true []) 63).map (·.cls)) = some 3 ∧
    ownerCheck (owner 3 false [head 0, headData]) 9 (some 0) true false 0 64 64 ≠ 0 ∧
    frontMine (owner 3 true [head 1]) 4 0 2 = some (head 1, [], []) ∧ ownerCheck (owner 3 true [head 1]) 9 (some 0) false false 0 64 64 = 0 ∧
    frontMine (asking [0, 1]) 4 1 4 = some (answer, [], []) ∧ ringHdrOk (asking [0, 1]) 2 answer = true ∧
    ((xferOf (ringAt (asking [0, 1]) 2) (leAt answer.payload 0xC 2)).map (·.window)) = some 9 ∧ (9 ≠ secView) ∧
    (streamAt (asking [0, 1]) 0).isSome = true ∧ windowFlights (asking [0, 1]) 0x55 9 = [] ∧
    xferOf (ringAt (asking [1]) 2) (leAt answer.payload 0xC 2) = none ∧
    (port (arrived [{ flit 7 0 with gv := true, group := 3 }] (stepOf [])) 4).rxq = [{ flit 7 0 with gv := true, group := 3 }] := by
  decide +kernel
/-- Ring 2's pair in the tree role: the answer goes back by the port of the request. -/
def treeOwner : State := setF (setF (owner 3 true [head 0, headData]) (Reg.linkCtrl 4) 1 0 1) (Reg.linkCtrl 5) 1 0 1
theorem test_TreeAnswers : inTreeRole (setPort 4 { (port treeOwner 4) with role := 1 } (setPort 5 { (port treeOwner 5) with role := 1 } treeOwner)) 2 = true ∧
    ownerCheck treeOwner 9 (some 0) true false 0 64 64 = 0 := by decide +kernel
/-- Three positions, this one the middle: the marker goes on to the up port. -/
theorem test_forward_any : (forwardAny (ringAtPos 3 1 (arrived [{ marker 1 2 id with payload := put 0xC 4 7 (payload 2 0 3 1) }]
    (setRing 2 { (ringAt run 2) with readyUp := [7] } run))) 4).map (fun x => (x.1, x.2.1)) = some (0, 5) := by decide +kernel
theorem test_owner_runs (c : Nat) (o : Bool) (fs : List Flit) (rs : List (Nat × Nat)) : ¬ Stopped rs (owner c o fs) := not_stopped rfl rs
/-- R40: a write behind a stopped clock stays in the crossing. -/
theorem test_arrival_waits : Stopped (reach (shut false (owner 3 true [head 0, headData])) (.remoteWriteArrival 4)) (shut false (owner 3 true [head 0, headData])) ∧
    (port (after (exec (.remoteWriteArrival 4) (shut false (owner 3 true [head 0, headData])))) 4).rxq = [head 0, headData] := by
  refine ⟨⟨(0, 64), ?_⟩, ?_⟩ <;> decide +kernel
/-- R295: the bytes of an accepted write stand in HBM; a closed window refuses with status 1. -/
theorem test_remote_write : memRead (after (exec (.remoteWriteArrival 4) (owner 3 true [head 0, headData]))).hbm 0 2 = [6, 6] ∧
    ((ringAt (after (exec (.remoteWriteArrival 4) (owner 3 false [head 0, headData]))) 2).sendq.map fun x => leAt x.first.payload 6 1) = [1] := by
  decide +kernel

/-- The word of the down neighbour in the first lap, and the entry's own collective. -/
def wordBytes : List Byte := ctlBytes 7 0 { nf := false, taint := false, dep := 0, mask := 0x18 }
/-- A REDUCE_SCATTER that carries the gate is in flight on ring 2, at position `p` of 3; the word stands in the crossing. -/
def circling (p : Nat) : State :=
  let fs := transferFlits { typ := 2, payload := put 0x10 4 1040 (payload p (p + 2) 3 2) } wordBytes
  let s := ringAtPos 3 p (arrived fs (stepOf
    [{ kind := 3, unit := 2, entries := [entry 0x50 (2 ^ 13) (2 ^ 56) 0 2], pos := 1, inflight := [flying false []] }]))
  setRing 2 { (ringAt s 2) with colls :=
    [{ stream := 0, idx := 0, phase := 0, lap := 0, got0 := 0, got1 := 0, divisor := none, nf := false, taint := false,
       dep := 0, mask := 0x18, src := [], red := [], dst := [] }] } s
/-- The entry takes the front transfer of port 4, in phase `k`. -/
def feeds (s : State) (k : Nat) : Bool :=
  match frontMine s 4 0 2 with
  | some (f, ds, _) => leAt f.payload 6 1 == 2 && ringHdrOk s 2 f && !f.gv && (match ringTake s 4 f (joinData f ds) [] with
      | .feed _ c => c.phase == k && c.lap == 0
      | _ => false)
  | none => false
/-- A ROTATE of 16,384 bytes is in flight; the first 15,360, the most of one transfer (R289), stand at the front. -/
def rotating : State :=
  let fs := ({ typ := 2, payload := put 0x20 4 (3 * 2 ^ 28) (put 0x10 4 15360 (payload 1 0 3 2)) } : Flit) ::
    List.replicate 64 { typ := 3, len := 15, payload := List.replicate 240 9 }
  let s := { ringAtPos 3 1 (arrived fs (stepOf
      [{ kind := 3, unit := 2, entries := [entryOn 0x53 1 0 2 2], pos := 1, inflight := [flying false []] }])) with
    job := { descs := [(1, desc 1 0 256 3 [8192] [0, 0, 0, 0, 0, 0] 0), (2, desc 1 1 32768 3 [8192] [0, 0, 0, 0, 0, 0] 0)] } }
  setRing 2 { (ringAt s 2) with colls :=
    [{ stream := 0, idx := 0, phase := 3, lap := 0, got0 := 0, got1 := 0, divisor := none, nf := false, taint := false,
       dep := 0, mask := 0, src := [], red := [], dst := [] }] } s
/-- A collective `op` over 24 BF16 elements at position 1 of 3 is in phase `ph`; the next 16 bytes behind `got` stand in the
crossing of port 4. Its transit format is BF16. -/
def summing (op ph got : Nat) : State :=
  let d := fun (o n : Nat) => desc 1 0 o 3 [n] [0, 0, 0, 0, 0, 0] 0
  let fs := transferFlits { typ := 2, payload := put 0x20 4 (ph * 2 ^ 28) (put 0x18 8 got (put 0x10 4 16 (payload 1 0 3 2))) }
    (List.replicate 16 0x3F)
  let s := { ringAtPos 3 1 (arrived fs (stepOf
      [{ kind := 3, unit := 2, entries := [entryOn op 1 0 2 (3 * 2 ^ 16 + 2)], pos := 1, inflight := [flying false []] }])) with
    job := { descs := [(1, d 256 24), (2, d 1024 (if op = 0x50 then 8 else 24))] } }
  setRing 2 { (ringAt s 2) with colls :=
    [{ stream := 0, idx := 0, phase := ph, lap := 0, got0 := got, got1 := 0, divisor := none, nf := false, taint := false,
       dep := 0, mask := 0, src := [], red := [], dst := [] }] } s
/-- The entry takes the front transfer of port 4, in phase `ph`, which it ends or not; what it would write shares no byte. -/
def takes (s : State) (ph : Nat) (ends : Bool) : Bool :=
  match frontMine s 4 0 2 with
  | some (f, ds, _) =>
    leAt f.payload 6 1 == 2 && ringHdrOk s 2 f && !f.gv && bits (leAt f.payload 0x20 4) 31 28 != 0 &&
      (match ringTake s 4 f (joinData f ds) [] with
      | .feed c k =>
        let x := shapeOf c s
        k.phase == ph && !c.voided && codesOf x k (joinData f ds) != [] && x.hq * x.width ph % 8 == 0 &&
          phaseDone x ph (k.addGot 0 (joinData f ds).length) == ends && decide (PlainSp x.d) &&
          ((flatResult s c.inst x.d 0 (gatheredRow s x k k.dst)).writes.length == 1) &&
          (if ends then passedOn x ≤ firstIn x k 0 else firstIn x k 0 + (codesOf x k (joinData f ds)).length ≤ passedOn x)
      | _ => false)
  | none => false
theorem test_CollectivesTakeTransfers : takes (summing 0x50 1 0) 1 false = true ∧ takes (summing 0x50 1 16) 1 true = true ∧
    takes (summing 0x52 1 16) 1 true = true ∧ takes (summing 0x51 2 0) 2 false = true ∧ takes (summing 0x51 2 16) 2 true = true := by
  decide +kernel
/-- R304: code 0x3F3F of BF16 is added to the input +0; the next device receives the sum. R306: a gathered code is written. -/
theorem test_collectives : ((ringAt (after (exec (.ringTransferReceive 4 []) (summing 0x50 1 0))) 2).sendq.map (·.data)) =
      [List.replicate 16 0x3F] ∧
    memRead (after (exec (.ringTransferReceive 4 []) (summing 0x51 2 16))).sp 1056 16 = List.replicate 16 0x3F := by decide +kernel
/-- A Bell of step `m` from the neighbour. -/
def bellFrom (m : Nat) : Flit := { typ := 6, payload := put 0 4 m (put 4 2 0 (List.replicate 240 0)) }

theorem test_MarkersAndRingWordsAct :
    frontMine (owner 3 true [marker 1 1 id]) 4 0 5 = some (marker 1 1 id, [], []) ∧ markerKind (marker 1 1 id) = 1 ∧
    markerKind (marker 2 1 id) = 2 ∧ ringHdrOk (owner 3 true [marker 1 1 id]) 2 (marker 1 1 id) = true ∧
    frontMine (ringAtPos 3 1 (arrived [marker 3 1 id] run)) 4 0 5 = some (marker 3 1 id, [], []) ∧
    fromNeighbour (ringAtPos 3 1 (arrived [marker 3 1 id] run)) 4 (plSrc (marker 3 1 id).payload) = true ∧
    frontBell (port (ringAtPos 3 1 (arrived [bellFrom 7] (stepOf []))) 4) = some (bellFrom 7, []) ∧
    leAt (bellFrom 7).payload 0 4 = stepNo (stepOf []) ∧ leAt (bellFrom 8).payload 0 4 ≠ stepNo (stepOf []) ∧
    fromNeighbour (ringAtPos 3 1 (stepOf [])) 4 (bits (leAt (bellFrom 7).payload 4 2) 11 0) = true ∧
    feeds (circling 1) 0 = true ∧ ringPos (circling 1) 2 ≠ 0 ∧ ringPos (circling 1) 2 ≠ ringLen (circling 1) 2 - 1 ∧
    feeds (circling 0) 0 = true ∧ ringPos (circling 0) 2 = 0 ∧ feeds rotating 3 = true ∧
    0 + 15360 < (descOr rotating 2).rows * (descOr rotating 2).rowBytes := by decide +kernel

end Sys2Proof.Tests
end

