-- ==== Sys2Proof/Proofs/WakeRequests.lean ====
section
/-! SUPPORT. Wake requests (02 R40): what a write to crossings with stopped clocks leaves, and the commands that meet a stopped
clock on their way to HBM. -/

namespace Sys2Proof.Machine
open Sys2Proof.Stmt

/-- Crossing `k` is written to: of a stopped clock the wake request rises (02 R40). -/
def raiseWake (c : Cells Crossing) (k : Nat) : Cells Crossing :=
  if (cellGet runningCrossing c k).clockOn then c else cellSet runningCrossing c k { clockOn := false, wake := true }

theorem cellGet_raiseWake (c : Cells Crossing) (k j : Nat) :
    cellGet runningCrossing (raiseWake c k) j =
      if j = k ∧ (cellGet runningCrossing c j).clockOn = false then { clockOn := false, wake := true }
      else cellGet runningCrossing c j := by
  unfold raiseWake
  by_cases e : j = k
  · subst e
    split <;> simp [*]
  · split <;> simp [e, cellGet_set_ne]

theorem cellGet_raiseWakes (l : List Nat) (c : Cells Crossing) (j : Nat) :
    cellGet runningCrossing (l.foldl raiseWake c) j =
      if j ∈ l ∧ (cellGet runningCrossing c j).clockOn = false then { clockOn := false, wake := true }
      else cellGet runningCrossing c j := by
  induction l generalizing c with
  | nil => simp
  | cons k l ih =>
    rw [List.foldl_cons, ih, cellGet_raiseWake]
    by_cases stopped : (cellGet runningCrossing c j).clockOn = false
    · by_cases e : j = k
      · subst e; simp [stopped]
      · simp [e, stopped]
    · simp [stopped]

theorem touchCrossing_eq (ty : Blk) (inst : Nat) (s : State) :
    touchCrossing ty inst s = { s with crossings := raiseWake s.crossings (crossingKey ty inst) } := by
  unfold touchCrossing raiseWake crossingAt
  split <;> rfl

/-- The crossings on the way to a list of ranges. -/
def keysTo (s : State) (rs : List (Nat × Nat)) : List Nat :=
  rs.flatMap fun r => (linesOf r.1 r.2).map fun l => crossingKey .hbc (locate s (l * 64)).inst

theorem foldl_touch_eq (s : State) (ls : List Nat) (c : Cells Crossing) :
    ls.foldl (fun s l => touchCrossing .hbc (locate s (l * 64)).inst s) { s with crossings := c } =
      { s with crossings := (ls.map fun l => crossingKey .hbc (locate s (l * 64)).inst).foldl raiseWake c } := by
  induction ls generalizing c with
  | nil => rfl
  | cons l ls ih =>
    rw [List.foldl_cons, touchCrossing_eq]
    exact ih _

theorem raiseWakes_nil (l : List Nat) : l.foldl raiseWake [] = [] :=
  List.foldl_fixed' (fun _ => rfl) l

theorem wakeLines_eq (a n : Nat) (s : State) :
    wakeLines a n s = { s with crossings := (keysTo s [(a, n)]).foldl raiseWake s.crossings } := by
  have keys : keysTo s [(a, n)] = (linesOf a n).map fun l => crossingKey .hbc (locate s (l * 64)).inst := by simp [keysTo]
  unfold wakeLines
  split
  · next h =>
    rw [List.isEmpty_iff.1 h, raiseWakes_nil, ← List.isEmpty_iff.1 h]
  · rw [keys, ← foldl_touch_eq]

theorem foldl_wakeLines_eq (rs : List (Nat × Nat)) (s : State) :
    rs.foldl (fun s r => wakeLines r.1 r.2 s) s = { s with crossings := (keysTo s rs).foldl raiseWake s.crossings } := by
  induction rs generalizing s with
  | nil => rfl
  | cons r rs ih =>
    rw [List.foldl_cons, ih, wakeLines_eq]
    have keys : keysTo s (r :: rs) = keysTo s [(r.1, r.2)] ++ keysTo s rs := by simp [keysTo]
    rw [keys, List.foldl_append]
    rfl

theorem stopped_iff {rs : List (Nat × Nat)} {s : State} :
    Stopped rs s ↔ (rs.any fun r => linesStopped r.1 r.2 s) = true := by
  simp [Stopped]

/-- A command whose way to the ranges a stopped clock bars raises the wake requests on the way and does nothing else
(02 R40). -/
def OnlyAwaits (rs : List (Nat × Nat)) (s : State) (o : Host.Outcome State Fault Refusal) : Prop :=
  ∃ t, o = .next t ∧ WakesFor rs s t ∧ t = { s with crossings := t.crossings }

theorem awaitClock_onlyAwaits {rs : List (Nat × Nat)} {s : State} (h : Stopped rs s) (go : State) :
    OnlyAwaits rs s (.next (awaitClock rs s go)) := by
  unfold awaitClock
  rw [if_pos (stopped_iff.1 h), foldl_wakeLines_eq]
  refine ⟨_, rfl, fun k => ⟨fun onWay off => ?_, fun other => ?_⟩, rfl⟩
  · have mem : k ∈ keysTo s rs := by simpa [keysTo] using onWay
    simp [cellGet_raiseWakes, mem, off]
  · have out : ¬ (k ∈ keysTo s rs ∧ (cellGet runningCrossing s.crossings k).clockOn = false) := by
      rintro ⟨mem, off⟩
      rcases other with away | on
      · simp only [keysTo, List.mem_flatMap, List.mem_map] at mem
        obtain ⟨r, hr, l, hl, e⟩ := mem
        exact away r hr l hl e
      · simp [on] at off
    simp [cellGet_raiseWakes, out]

theorem not_stopped_nil {s : State} : ¬ Stopped [] s := by simp [Stopped]

theorem of_stopped_ite {p : Prop} [Decidable p] {rs : List (Nat × Nat)} {s : State} (h : Stopped (if p then rs else []) s) :
    p ∧ Stopped rs s := by
  split at h
  · exact ⟨‹p›, h⟩
  · exact absurd h not_stopped_nil

theorem execRegionFillDone_awaits {s : State} (h : Stopped (reach s .regionFillDone) s) :
    OnlyAwaits (reach s .regionFillDone) s (execRegionFillDone s) := by
  rw [reach] at h ⊢
  unfold execRegionFillDone
  cases hf : s.fill with
  | none => rw [hf] at h; exact absurd h not_stopped_nil
  | some p => rw [hf] at h; exact awaitClock_onlyAwaits h _

theorem execRebuildComplete_awaits {i : Nat} {s : State} (h : Stopped (reach s (.rebuildComplete i)) s) :
    OnlyAwaits (reach s (.rebuildComplete i)) s (execRebuildComplete i s) := by
  obtain ⟨waits, h⟩ := of_stopped_ite h
  rw [reach, execRebuildComplete, if_pos waits, if_pos waits]
  exact awaitClock_onlyAwaits h _

theorem execDbgMemDone_awaits {s : State} (h : Stopped (reach s .dbgMemDone) s) :
    OnlyAwaits (reach s .dbgMemDone) s (execDbgMemDone s) := by
  obtain ⟨asked, h⟩ := of_stopped_ite h
  rw [reach, execDbgMemDone, if_pos asked, if_pos asked]
  exact awaitClock_onlyAwaits h _

theorem execSecuringReadComplete_awaits {s : State} (h : Stopped (reach s .securingReadComplete) s) :
    OnlyAwaits (reach s .securingReadComplete) s (execSecuringReadComplete s) := by
  obtain ⟨reads, h⟩ := of_stopped_ite h
  rw [reach, execSecuringReadComplete, if_pos reads, if_pos reads]
  exact awaitClock_onlyAwaits h _

theorem execRefilled_awaits {s : State} (h : Stopped (reach s .refilled) s) :
    OnlyAwaits (reach s .refilled) s (execRefilled s) := by
  obtain ⟨good, h⟩ := of_stopped_ite h
  obtain ⟨refill, answered, checked⟩ := good
  rw [reach, execRefilled, if_pos ⟨refill, answered, checked⟩, if_pos ⟨refill, by simp [answered]⟩]
  dsimp only
  rw [if_pos checked]
  exact awaitClock_onlyAwaits h _

theorem execScrubRead_awaits {stack a : Nat} {ph : List Phys} {s : State} (h : Stopped (reach s (.scrubRead stack a ph)) s) :
    OnlyAwaits (reach s (.scrubRead stack a ph)) s (execScrubRead stack a ph s) := by
  obtain ⟨reads, h⟩ := of_stopped_ite h
  rw [reach, if_pos reads, execScrubRead]
  obtain ⟨enabled, here, scrubbed⟩ := reads
  obtain ⟨r, hr, scrubbed⟩ := (Option.any_eq_true _ _).1 scrubbed
  dsimp only
  rw [if_neg (by simp [enabled, here]), hr]
  dsimp only
  rw [if_pos scrubbed]
  exact awaitClock_onlyAwaits h _

theorem execIntakeEntryComplete_awaits {r : Nat} {c : Completion} {s : State}
    (h : Stopped (reach s (.intakeEntryComplete r c)) s) :
    OnlyAwaits (reach s (.intakeEntryComplete r c)) s (execIntakeEntryComplete r c s) := by
  cases c with
  | bad => exact absurd h not_stopped_nil
  | data bs =>
    rw [reach] at h ⊢
    unfold execIntakeEntryComplete
    cases hq : inTransfer s r with
    | nil => rw [hq] at h; exact absurd h not_stopped_nil
    | cons e q =>
      rw [hq] at h
      dsimp only at h ⊢
      split
      · next stands => rw [if_pos stands] at h; exact absurd h not_stopped_nil
      · next stands => rw [if_neg stands] at h; exact awaitClock_onlyAwaits h _

theorem execLockerWriteArrival_awaits {s : State} (h : Stopped (reach s .lockerWriteArrival) s) :
    OnlyAwaits (reach s .lockerWriteArrival) s (execLockerWriteArrival s) := by
  rw [reach] at h ⊢
  unfold execLockerWriteArrival
  cases hf : frontMine s 0 2 2 with
  | none => rw [hf] at h; exact absurd h not_stopped_nil
  | some x =>
    rw [hf] at h
    obtain ⟨write, h⟩ := of_stopped_ite h
    dsimp only
    rw [if_pos write, if_neg (not_not_intro write)]
    exact awaitClock_onlyAwaits h _

theorem execLockerReadArrival_awaits {ph : List Phys} {s : State} (h : Stopped (reach s (.lockerReadArrival ph)) s) :
    OnlyAwaits (reach s (.lockerReadArrival ph)) s (execLockerReadArrival ph s) := by
  rw [reach] at h ⊢
  unfold execLockerReadArrival
  cases hf : frontMine s 0 2 2 with
  | none => rw [hf] at h; exact absurd h not_stopped_nil
  | some x =>
    rw [hf] at h
    obtain ⟨⟨read, whole⟩, h⟩ := of_stopped_ite h
    dsimp only
    rw [if_pos ⟨read, whole⟩, if_neg (not_not_intro read), whole]
    exact awaitClock_onlyAwaits h _

theorem execRemoteWriteArrival_awaits {p : Nat} {s : State} (h : Stopped (reach s (.remoteWriteArrival p)) s) :
    OnlyAwaits (reach s (.remoteWriteArrival p)) s (execRemoteWriteArrival p s) := by
  rw [reach] at h ⊢
  unfold execRemoteWriteArrival
  cases hf : frontMine s p 0 2 with
  | none => rw [hf] at h; exact absurd h not_stopped_nil
  | some x =>
    rw [hf] at h
    obtain ⟨write, h⟩ := of_stopped_ite h
    dsimp only
    rw [if_pos write, if_neg (not_not_intro write)]
    exact awaitClock_onlyAwaits h _

theorem execRemoteReadArrival_awaits {p : Nat} {ph : List Phys} {s : State} (h : Stopped (reach s (.remoteReadArrival p ph)) s) :
    OnlyAwaits (reach s (.remoteReadArrival p ph)) s (execRemoteReadArrival p ph s) := by
  rw [reach] at h ⊢
  unfold execRemoteReadArrival
  cases hf : frontMine s p 0 2 with
  | none => rw [hf] at h; exact absurd h not_stopped_nil
  | some x =>
    rw [hf] at h
    obtain ⟨⟨read, whole⟩, h⟩ := of_stopped_ite h
    dsimp only
    rw [if_pos ⟨read, whole⟩, if_neg (not_not_intro read), whole]
    exact awaitClock_onlyAwaits h _

/-- A command that would reach HBM of its own behind a stopped clock raises the wake requests on its way and does nothing
else; one that reaches nothing meets no stopped clock (02 R40). -/
theorem exec_onlyAwaits (c : Instr) (s : State) (h : Stopped (reach s c) s) : OnlyAwaits (reach s c) s (exec c s) := by
  cases c with
  | regionFillDone => exact execRegionFillDone_awaits h
  | rebuildComplete i => exact execRebuildComplete_awaits h
  | scrubRead stack a ph => exact execScrubRead_awaits h
  | dbgMemDone => exact execDbgMemDone_awaits h
  | intakeEntryComplete r c => exact execIntakeEntryComplete_awaits h
  | securingReadComplete => exact execSecuringReadComplete_awaits h
  | refilled => exact execRefilled_awaits h
  | lockerWriteArrival => exact execLockerWriteArrival_awaits h
  | lockerReadArrival ph => exact execLockerReadArrival_awaits h
  | remoteWriteArrival p => exact execRemoteWriteArrival_awaits h
  | remoteReadArrival p ph => exact execRemoteReadArrival_awaits h
  | _ => exact absurd h not_stopped_nil

end Sys2Proof.Machine
end

