-- ==== Sys2Proof/Proofs/RunningClocks.lean ====
section
/-! SUPPORT. FRAME. No operation on the state stops a running clock: one lemma per function of the model. A function that leaves
the crossings alone has a lemma `_crossings`; one that may raise wake requests has a lemma `_clocks`. -/

namespace Sys2Proof.Machine

/-- The crossings whose clock runs, as they are; of the others nothing but that their clock is stopped (02 R40). -/
def clocks (c : Cells Crossing) (k : Nat) : Option Crossing :=
  (some (cellGet runningCrossing c k)).filter (·.clockOn)

/-! ## Projections of a conditional, and folds of an operation that keeps the crossings -/

@[simp] theorem ite_crossings (p : Prop) [Decidable p] (s t : State) :
    (if p then s else t).crossings = if p then s.crossings else t.crossings := apply_ite State.crossings p s t

@[simp] theorem ite_run (p : Prop) [Decidable p] (r q : Run) : (if p then r else q).s = if p then r.s else q.s :=
  apply_ite Run.s p r q

@[simp] theorem ite_clocks (p : Prop) [Decidable p] (c d : Cells Crossing) :
    clocks (if p then c else d) = if p then clocks c else clocks d := apply_ite clocks p c d

@[simp] theorem ite_lineOut (p : Prop) [Decidable p] (x y : LineOut) : (if p then x else y).s = if p then x.s else y.s :=
  apply_ite LineOut.s p x y

@[simp] theorem ite_span (p : Prop) [Decidable p] (x y : Span) : (if p then x else y).s = if p then x.s else y.s :=
  apply_ite Span.s p x y

@[simp] theorem ite_snd_state {α : Type} (p : Prop) [Decidable p] (x y : α × State) :
    (if p then x else y).2 = if p then x.2 else y.2 := apply_ite Prod.snd p x y

@[simp] theorem ite_fst_state {α : Type} (p : Prop) [Decidable p] (x y : State × α) :
    (if p then x else y).1 = if p then x.1 else y.1 := apply_ite Prod.fst p x y

@[simp] theorem ite_snd_run {α : Type} (p : Prop) [Decidable p] (x y : α × Run) :
    (if p then x else y).2 = if p then x.2 else y.2 := apply_ite Prod.snd p x y

@[simp] theorem foldl_crossings {β : Type} (f : State → β → State) (hf : ∀ s b, (f s b).crossings = s.crossings)
    (l : List β) (s : State) : (l.foldl f s).crossings = s.crossings := by
  induction l generalizing s with
  | nil => rfl
  | cons b l ih => rw [List.foldl_cons, ih, hf]

/-- A fold whose every step keeps what `g` shows keeps it. -/
theorem foldl_keeps {α β γ : Type} (g : α → γ) (f : α → β → α) (hf : ∀ a b, g (f a b) = g a) (l : List β)
    (a : α) :
    g (l.foldl f a) = g a := by
  induction l generalizing a with
  | nil => rfl
  | cons b l ih => rw [List.foldl_cons, ih, hf]

@[simp] theorem foldl_clocks {β : Type} (f : State → β → State)
    (hf : ∀ s b, clocks (f s b).crossings = clocks s.crossings) (l : List β) (s : State) :
    clocks (l.foldl f s).crossings = clocks s.crossings := foldl_keeps (fun s => clocks s.crossings) f hf l s

@[simp] theorem foldl_run {β : Type} (f : Run → β → Run)
    (hf : ∀ r b, clocks (f r b).s.crossings = clocks r.s.crossings) (l : List β) (r : Run) :
    clocks (l.foldl f r).s.crossings = clocks r.s.crossings := foldl_keeps (fun r => clocks r.s.crossings) f hf l r

@[simp] theorem foldl_runWith {α β : Type} (f : α × Run → β → α × Run)
    (hf : ∀ x b, clocks (f x b).2.s.crossings = clocks x.2.s.crossings)
    (l : List β) (x : α × Run) : clocks (l.foldl f x).2.s.crossings = clocks x.2.s.crossings :=
  foldl_keeps (fun x => clocks x.2.s.crossings) f hf l x

/-- A wake request of a stopped clock leaves the running crossings as they are. -/
@[simp] theorem raiseWake_clocks (c : Cells Crossing) (k : Nat) : clocks (raiseWake c k) = clocks c := by
  funext j
  unfold clocks
  rw [cellGet_raiseWake]
  split
  · next stopped => simp [Option.filter, stopped.2]
  · rfl

@[simp] theorem touchCrossing_clocks (ty : Blk) (inst : Nat) (s : State) :
    clocks (touchCrossing ty inst s).crossings = clocks s.crossings := by
  rw [touchCrossing_eq, raiseWake_clocks]

@[simp] theorem touchLine_clocks (line : Nat) (s : State) : clocks (touchLine line s).crossings = clocks s.crossings := by
  unfold touchLine
  split <;> simp

@[simp] theorem wakeLines_clocks (a n : Nat) (s : State) : clocks (wakeLines a n s).crossings = clocks s.crossings := by
  rw [wakeLines_eq]
  exact foldl_keeps clocks raiseWake raiseWake_clocks _ s.crossings

/-! ## Registers, HBM lines and reports -/

variable (s : State)

@[simp] theorem irqEdge_crossings (s' : State) (t : Blk) (i : Nat) :
    (irqEdge s s' t i).crossings = s'.crossings := by simp [irqEdge]

@[simp] theorem countCorrected_crossings (n : Nat) :
    (countCorrected n s).crossings = s.crossings := by simp [countCorrected]

@[simp] theorem sramFixed_crossings : (sramFixed s).crossings = s.crossings := rfl

@[simp] theorem setPhase_crossings (p : Nat) :
    (setPhase p s).crossings = s.crossings := by simp [setPhase]

@[simp] theorem failRestart_crossings (code : Nat) :
    (failRestart code s).crossings = s.crossings := by simp [failRestart]

@[simp] theorem takeFree_crossings : (takeFree s).2.crossings = s.crossings := rfl

@[simp] theorem freeBytes_crossings (n : Nat) : (freeBytes n s).2.crossings = s.crossings := by
  induction n generalizing s with
  | zero => rfl
  | succ n ih => simp [freeBytes, ih]

@[simp] theorem putLine_clocks (line : Nat) (data chk : List Byte) :
    clocks (putLine s line data chk).crossings = clocks s.crossings := by simp [putLine]

@[simp] theorem hbcCorrection_crossings (inst : Nat) :
    (hbcCorrection inst s).crossings = s.crossings := by simp [hbcCorrection]

@[simp] theorem hbcLog_crossings (p : Place) (kind cls rgn : Nat) (who : Reader) :
    (hbcLog p kind cls rgn who s).crossings = s.crossings := by simp [hbcLog]

@[simp] theorem loseChannel_crossings (inst : Nat) :
    (loseChannel inst s).1.crossings = s.crossings := by simp [loseChannel]

@[simp] theorem hbcUncorrectable_crossings (p : Place) (kind cls rgn : Nat) (who : Reader) :
    (hbcUncorrectable p kind cls rgn who s).1.crossings = s.crossings := by simp [hbcUncorrectable]

@[simp] theorem dieReports_crossings (ph : List Phys) (line : Nat) :
    (dieReports ph line s).crossings = s.crossings := by simp [dieReports]

@[simp] theorem keepPeer_clocks (ph : List Phys) (x : Nat × Option (List Byte × Nat)) :
    clocks (keepPeer ph s x).crossings = clocks s.crossings := by unfold keepPeer; split <;> simp

/-- The state of a line's outcome, held apart from the operations that made it. -/
theorem LineOut.clocks_eq {t : State} {c : Nat → Option Crossing} (h : clocks t.crossings = c) {d : List Byte} {e : List Evt}
    {b : Bool} : clocks (LineOut.mk t d e b).s.crossings = c := h

@[simp] theorem readLine_clocks (ph : List Phys) (who : Reader) (act : Option (Nat × Nat × Nat)) (line : Nat) :
    clocks (readLine s ph who act line).s.crossings = clocks s.crossings := by
  cases hr : regionOf s line with
  | none => simp only [readLine, hr]
  | some r =>
    have touched : clocks (touchLine line (if dieFixed ph line then incMod s (Reg.hbcOde (locate s line).inst) 47 0 1
        else s)).crossings = clocks s.crossings := by simp
    simp only [readLine, hr]
    generalize touchLine line (if dieFixed ph line = true then incMod s (Reg.hbcOde (locate s line).inst) 47 0 1 else s) = t
      at touched ⊢
    rw [← touched]
    generalize locate s line = p
    split
    · split
      · simp
      · simp
      · split
        · generalize (stripePeers r line).map (rsLine t ph) = peers
          split
          · simp
          · exact LineOut.clocks_eq (by simp)
        · exact LineOut.clocks_eq (by simp)
    · split
      · split
        · simp
        · simp
      · split
        · exact LineOut.clocks_eq (by simp)
        · rfl

@[simp] theorem fetchLine_clocks (ph : List Phys) (who : Reader) (act : Option (Nat × Nat × Nat)) (line : Nat) :
    clocks (fetchLine s ph who act line).s.crossings = clocks s.crossings := by
  unfold fetchLine
  split
  · simp
  · dsimp only
    split <;> simp

@[simp] theorem readLines_clocks (ph : List Phys) (who : Reader) (act : Nat → Option (Nat × Nat × Nat)) (n line : Nat) :
    clocks (readLines ph who act n line s).s.crossings = clocks s.crossings := by
  induction n generalizing line s with
  | zero => rfl
  | succ n ih => simp [readLines, ih]

@[simp] theorem hbmRead_clocks (ph : List Phys) (who : Reader) (a n : Nat) :
    clocks (hbmRead s ph who a n).s.crossings = clocks s.crossings := by simp [hbmRead]

@[simp] theorem actLine_clocks (ph : List Phys) (line : Nat) :
    clocks (actLine ph line s).2.crossings = clocks s.crossings := by simp [actLine]

@[simp] theorem getActLines_clocks (ph : List Phys) (a n : Nat) :
    clocks (getActLines ph a n s).2.crossings = clocks s.crossings :=
  foldl_keeps (fun x : List Byte × State => clocks x.2.crossings) _ (fun _ _ => by simp) _ ([], s)

@[simp] theorem putActLines_clocks (ph : List Phys) (a : Nat) (bs : List Byte) :
    clocks (putActLines ph a bs s).crossings = clocks s.crossings := by simp [putActLines]

@[simp] theorem writeLine_clocks (ph : List Phys) (who : Reader) (tags : Nat × Nat × Nat) (line o : Nat) (bs : List Byte) :
    clocks (writeLine s ph who tags line o bs).s.crossings = clocks s.crossings := by
  unfold writeLine
  cases regionOf s line with
  | none => rfl
  | some r => simp

@[simp] theorem writeLines_clocks (ph : List Phys) (who : Reader) (tags : Nat → Nat × Nat × Nat) (n line o : Nat)
    (bs : List Byte) : clocks (writeLines ph who tags n line o bs s).s.crossings = clocks s.crossings := by
  induction n generalizing line o bs s with
  | zero => rfl
  | succ n ih => simp [writeLines, ih]

@[simp] theorem hbmWrite_clocks (ph : List Phys) (who : Reader) (a : Nat) (bs : List Byte) :
    clocks (hbmWrite s ph who a bs).s.crossings = clocks s.crossings := by simp [hbmWrite]

@[simp] theorem lckSeal_clocks (a : Nat) :
    clocks (lckSeal s a).crossings = clocks s.crossings := by simp [lckSeal]

@[simp] theorem lckWrite_clocks (base o : Nat) (bs : List Byte) :
    clocks (lckWrite s base o bs).crossings = clocks s.crossings := by simp [lckWrite]

@[simp] theorem lckFetch_clocks (base o : Nat) :
    clocks (lckFetch s base o).crossings = clocks s.crossings := by simp [lckFetch]

@[simp] theorem damageLocker_clocks (a : Nat) :
    clocks (damageLocker a s).crossings = clocks s.crossings := by unfold damageLocker; split <;> simp

@[simp] theorem report_crossings (d id : Nat) (c : Counts) :
    (report d id c s).crossings = s.crossings := by simp [report]

@[simp] theorem scaleWriteback_clocks : clocks (scaleWriteback s).crossings = clocks s.crossings := by simp [scaleWriteback]

@[simp] theorem pageRecord_crossings (ty : Blk) (r : FaultRec) :
    (pageRecord ty r s).crossings = s.crossings := by simp [pageRecord]

@[simp] theorem showElapsed_crossings : (showElapsed s).crossings = s.crossings := by simp [showElapsed]

@[simp] theorem queueCard_crossings (c : Card) :
    (queueCard c s).crossings = s.crossings := rfl

@[simp] theorem discardPending_crossings : (discardPending s).crossings = s.crossings := by
  cases hn : s.next <;> cases hs : s.slot <;> simp [discardPending, queueCard, hn, hs]

@[simp] theorem setRing_crossings (r : Nat) (x : Ring) :
    (setRing r x s).crossings = s.crossings := rfl

@[simp] theorem secDrop_crossings : (secDrop s).crossings = s.crossings := rfl

@[simp] theorem dropRefill_crossings : (dropRefill s).crossings = s.crossings := rfl

@[simp] theorem stopRestart_crossings (code : Nat) :
    (stopRestart code s).crossings = s.crossings := by simp [stopRestart]

@[simp] theorem endReady_crossings : (endReady s).crossings = s.crossings := rfl

@[simp] theorem setJobState_crossings (v : Nat) :
    (setJobState v s).crossings = s.crossings := by simp [setJobState]

@[simp] theorem toHalted_clocks : clocks (toHalted s).crossings = clocks s.crossings := by simp [toHalted]

@[simp] theorem haltNow_clocks : clocks (haltNow s).crossings = clocks s.crossings := by simp [haltNow]

@[simp] theorem abortStep_clocks (code : Nat) (fault : List Byte) :
    clocks (abortStep code fault s).crossings = clocks s.crossings := by simp [abortStep]

@[simp] theorem noteUnitFault_crossings (ty inst sub : Nat) :
    (noteUnitFault ty inst sub s).crossings = s.crossings := rfl

@[simp] theorem glbRecord_crossings (r : FaultRec) :
    (glbRecord r s).crossings = s.crossings := by simp [glbRecord]

@[simp] theorem hardEnd_clocks (ty : Blk) (r : FaultRec) :
    clocks (hardEnd ty r s).crossings = clocks s.crossings := by simp [hardEnd]

@[simp] theorem hardFault_clocks (ty : Blk) (r : FaultRec) :
    clocks (hardFault ty r s).crossings = clocks s.crossings := by simp [hardFault]

@[simp] theorem raiseHard_clocks (code : Nat) (ty : Blk) (inst detail : Nat) :
    clocks (raiseHard code ty inst detail s).crossings = clocks s.crossings := by simp [raiseHard]

@[simp] theorem dropMask_crossings (m : Mask) :
    (dropMask m s).crossings = s.crossings := rfl

@[simp] theorem lateDrop_clocks (r : FaultRec) :
    clocks (lateDrop r s).crossings = clocks s.crossings := by simp [lateDrop]

@[simp] theorem voidSlot_clocks (r : FaultRec) : clocks (voidSlot r s).crossings = clocks s.crossings := by
  unfold voidSlot
  dsimp only
  split
  · rfl
  · split
    · simp
    · split
      · simp
      · split
        · split <;> simp
        · simp

@[simp] theorem addConfined_crossings (r : FaultRec) :
    (addConfined r s).crossings = s.crossings := rfl

@[simp] theorem dropNow_crossings (c : Confined) (stream entry : Nat) (slot : Option Nat) :
    (dropNow c stream entry slot s).crossings = s.crossings := by
  rw [dropNow, addConfined_crossings, pageRecord_crossings]

@[simp] theorem markRecord_crossings (r : FaultRec) :
    (markRecord r s).crossings = s.crossings := by simp [markRecord]

@[simp] theorem taintDeparted_crossings (m : Mask) :
    (taintDeparted m s).crossings = s.crossings := by unfold taintDeparted; split <;> rfl

@[simp] theorem voidNow_clocks (r : FaultRec) :
    clocks (voidNow r s).crossings = clocks s.crossings := by simp [voidNow]

@[simp] theorem confinedIdle_crossings (c : Confined) (stream entry : Nat) :
    (confinedIdle c stream entry s).crossings = s.crossings := by simp [confinedIdle]

@[simp] theorem confined_clocks (c : Confined) :
    clocks (confined c s).crossings = clocks s.crossings := by simp [confined]

@[simp] theorem crossingLoss_clocks (e : Evt) :
    clocks (crossingLoss e s).crossings = clocks s.crossings := by simp [crossingLoss]

@[simp] theorem raiseFree_clocks (e : Evt) :
    clocks (raiseFree e s).crossings = clocks s.crossings := by unfold raiseFree; split <;> simp

@[simp] theorem settleTraffic_clocks (evs : List Evt) :
    clocks (settleTraffic evs s).crossings = clocks s.crossings := by simp [settleTraffic]

@[simp] theorem trafficPhys_clocks (g : Option Nat) (ph : List Phys) :
    clocks (trafficPhys g ph s).crossings = clocks s.crossings := by
  refine foldl_clocks _ (fun s p => ?_) ph s
  split <;> simp

@[simp] theorem hostBlocked_crossings : (hostBlocked s).crossings = s.crossings := by simp [hostBlocked]

@[simp] theorem postHost_crossings (a : Nat) (bs : List Byte) : (postHost a bs s).crossings = s.crossings := by
  simp [postHost]

@[simp] theorem hostWrite_crossings (k off : Nat) (bs : List Byte) :
    (hostWrite k off bs s).1.crossings = s.crossings := by unfold hostWrite; split <;> simp

@[simp] theorem regionMiss_crossings : (regionMiss s).crossings = s.crossings := rfl

@[simp] theorem apertureDenied_crossings : (apertureDenied s).crossings = s.crossings := by simp [apertureDenied]

@[simp] theorem readPieces_clocks (ph : List Phys) (l : List (Nat × Nat)) :
    clocks (readPieces ph l s).s.crossings = clocks s.crossings := by
  induction l generalizing s with
  | nil => rfl
  | cons p l ih => simp only [readPieces, ih]; split <;> simp

@[simp] theorem writePieces_clocks (ph : List Phys) (bs : List Byte) (a0 : Nat) (l : List (Nat × Nat)) :
    clocks (writePieces ph bs a0 l s).s.crossings = clocks s.crossings := by
  induction l generalizing s with
  | nil => rfl
  | cons p l ih => simp only [writePieces, ih]; split <;> simp

@[simp] theorem countPieces_crossings (write : Bool) (ps : List (Nat × Nat)) (s0 : State) :
    (countPieces write ps s0 s).crossings = s.crossings := by simp [countPieces]

@[simp] theorem apertureRead_clocks (x : HostAccess) :
    clocks (apertureRead x s).crossings = clocks s.crossings := by simp [apertureRead]

@[simp] theorem apertureWrite_clocks (x : HostAccess) :
    clocks (apertureWrite x s).crossings = clocks s.crossings := by simp [apertureWrite]

@[simp] theorem HostAccess_run_clocks (x : HostAccess) :
    clocks (HostAccess.run x s).crossings = clocks s.crossings := by simp [HostAccess.run]

end Sys2Proof.Machine
end

