-- ==== Sys2Proof/Proofs/EntriesKeepClocks.lean ====
section
/-! SUPPORT. FRAME. The same for what an entry in flight does: its reads, writes, sends and its effect. -/

namespace Sys2Proof.Machine

variable (s : State)

/-! ## Streams, windows and markers -/

@[simp] theorem setStream_crossings (i : Nat) (x : Stream) :
    (setStream i x s).crossings = s.crossings := rfl

@[simp] theorem modStream_crossings (i : Nat) (f : Stream → Stream) :
    (modStream i f s).crossings = s.crossings := by unfold modStream; split <;> rfl

@[simp] theorem modFlight_crossings (st idx : Nat) (g : Flight → Flight) :
    (modFlight st idx g s).crossings = s.crossings := by simp [modFlight]

@[simp] theorem hpbLog_crossings (inst kind pass st st2 : Nat) :
    (hpbLog inst kind pass st st2 s).crossings = s.crossings := by simp [hpbLog]

@[simp] theorem bankFault_clocks (code kind pass st entry st2 : Nat) :
    clocks (bankFault code kind pass st entry st2 s).crossings = clocks s.crossings := by simp [bankFault]

@[simp] theorem setPass_crossings (p n : Nat) :
    (setPass p n s).crossings = s.crossings := rfl

@[simp] theorem depart_crossings (m : Mask) :
    (depart m s).crossings = s.crossings := rfl

@[simp] theorem queueTransfer_crossings (r : Nat) (t : Transfer) :
    (queueTransfer r t s).crossings = s.crossings := rfl

@[simp] theorem setOwned_crossings (w : Nat) (x : Owned) :
    (setOwned w x s).crossings = s.crossings := rfl

@[simp] theorem setView_crossings (w : Nat) (x : View) :
    (setView w x s).crossings = s.crossings := rfl

@[simp] theorem sendAccess_crossings (w op : Nat) (act : Bool) (g : GTag) (off len key : Nat) (data : List Byte) (st idx : Nat) :
    (sendAccess w op act g off len key data st idx s).crossings = s.crossings := by simp only [sendAccess]; split <;> simp

@[simp] theorem sendMarker_crossings (r dst kind window epoch size : Nat) (from? : Sender) :
    (sendMarker r dst kind window epoch size from? s).crossings = s.crossings := by unfold sendMarker; split <;> rfl

@[simp] theorem takeOpen_crossings (w : Nat) :
    (takeOpen w s).crossings = s.crossings := rfl

@[simp] theorem wakeAttach_crossings (w : Nat) :
    (wakeAttach w s).crossings = s.crossings := by unfold wakeAttach; split <;> simp

@[simp] theorem applyMarker_crossings (r src kind window epoch size : Nat) :
    (applyMarker r src kind window epoch size s).crossings = s.crossings := by unfold applyMarker; split <;> simp

@[simp] theorem blockEndAt_clocks (r w : Nat) :
    clocks (blockEndAt r w s).crossings = clocks s.crossings := by simp [blockEndAt]

@[simp] theorem selfMarker_clocks (r kind window epoch size : Nat) :
    clocks (selfMarker r kind window epoch size s).crossings = clocks s.crossings := by simp [selfMarker]

@[simp] theorem putMarker_clocks (r dst kind window epoch size : Nat) (from? : Sender) :
    clocks (putMarker r dst kind window epoch size from? s).crossings = clocks s.crossings := by
  unfold putMarker
  split <;> simp

/-! ## Reads and writes of an entry's run -/

@[simp] theorem Run.mod_s (r : Run) (f : State → State) : (r.mod f).s = f r.s := rfl

@[simp] theorem Run.raise_s (r : Run) (e : Evt) : (r.raise e).s = r.s := by
  unfold Run.raise
  split <;> rfl

@[simp] theorem Run.raises_s (r : Run) (es : List Evt) : (r.raises es).s = r.s :=
  foldl_keeps Run.s _ Run.raise_s es r

@[simp] theorem spTouch_crossings (core off n : Nat) :
    (spTouch core off n s).crossings = s.crossings := by simp [spTouch]

@[simp] theorem spFault_clocks (c : Ctx) (core w : Nat) (r : Run) :
    clocks (spFault c core w r).s.crossings = clocks r.s.crossings := by simp [spFault]

@[simp] theorem spRead_clocks (c : Ctx) (core off n : Nat) (r : Run) :
    clocks (spRead c core off n r).2.s.crossings = clocks r.s.crossings := by
  simp [spRead]

@[simp] theorem spWrite_clocks (c : Ctx) (core off : Nat) (bs : List Byte) (r : Run) :
    clocks (spWrite c core off bs r).s.crossings = clocks r.s.crossings := by simp [spWrite]

@[simp] theorem Run_touch_clocks (a n : Nat) (r : Run) :
    clocks (Run.touch a n r).s.crossings = clocks r.s.crossings := by simp [Run.touch]

@[simp] theorem devReadAct_clocks (act : Nat → Option (Nat × Nat × Nat)) (c : Ctx) (a n : Nat) (r : Run) :
    clocks (devReadAct act c a n r).2.s.crossings = clocks r.s.crossings := by simp [devReadAct]

@[simp] theorem devRead_clocks (c : Ctx) (a n : Nat) (r : Run) :
    clocks (devRead c a n r).2.s.crossings = clocks r.s.crossings := by simp [devRead]

@[simp] theorem devWriteLine_clocks (tags : Nat → Nat × Nat × Nat) (c : Ctx) (a : Nat) (bs : List Byte) (l : Nat) (r : Run) :
    clocks (devWriteLine tags c a bs l r).s.crossings = clocks r.s.crossings := by simp [devWriteLine]

@[simp] theorem devWriteAct_clocks (tags : Nat → Nat × Nat × Nat) (c : Ctx) (a : Nat) (bs : List Byte) (r : Run) :
    clocks (devWriteAct tags c a bs r).s.crossings = clocks r.s.crossings := by simp [devWriteAct]

@[simp] theorem devWrite_clocks (c : Ctx) (a : Nat) (bs : List Byte) (r : Run) :
    clocks (devWrite c a bs r).s.crossings = clocks r.s.crossings := by simp [devWrite]

@[simp] theorem refusedAt_crossings (ty : Blk) (inst idx w : Nat) :
    (refusedAt ty inst idx w s).crossings = s.crossings := by simp [refusedAt]

@[simp] theorem Run_refuse_clocks (c : Ctx) (w status : Nat) (r : Run) :
    clocks (Run.refuse c w status r).s.crossings = clocks r.s.crossings := by simp [Run.refuse]

@[simp] theorem Run.lacks_s (x : Nat × Nat) (r : Run) : (r.lacks x).s = r.s := by
  unfold Run.lacks
  split <;> rfl

@[simp] theorem winRead_clocks (c : Ctx) (w off n : Nat) (r : Run) :
    clocks (winRead c w off n r).2.s.crossings = clocks r.s.crossings := by
  unfold winRead
  split
  · rfl
  · split
    · rfl
    · split <;> simp

@[simp] theorem winWrite_clocks (c : Ctx) (g : GTag) (w off : Nat) (bs : List Byte) (r : Run) :
    clocks (winWrite c g w off bs r).s.crossings = clocks r.s.crossings := by
  unfold winWrite
  split
  · rfl
  · split <;> simp

@[simp] theorem askRange_crossings (st idx : Nat) (x : Nat × Nat) :
    (askRange st idx x s).crossings = s.crossings := by simp [askRange]

@[simp] theorem hostRead_clocks (c : Ctx) (k off n : Nat) (r : Run) :
    clocks (hostRead c k off n r).2.s.crossings = clocks r.s.crossings := by unfold hostRead; split <;> simp

@[simp] theorem getBytes_clocks (c : Ctx) (d : Desc) (off n : Nat) (r : Run) :
    clocks (getBytes c d off n r).2.s.crossings = clocks r.s.crossings := by simp [getBytes]

@[simp] theorem putBytes_clocks (c : Ctx) (g : GTag) (d : Desc) (off : Nat) (bs : List Byte) (r : Run) :
    clocks (putBytes c g d off bs r).s.crossings = clocks r.s.crossings := by simp [putBytes]

@[simp] theorem unitLog_crossings (c : Ctx) (unit kind detail : Nat) :
    (unitLog c unit kind detail s).crossings = s.crossings := by simp [unitLog]

@[simp] theorem physEvents_clocks (c : Ctx) (r : Run) : clocks (physEvents c r).s.crossings = clocks r.s.crossings := by
  refine foldl_run _ (fun r p => ?_) c.ph r
  cases p <;> simp

@[simp] theorem tryRow_clocks (c : Ctx) (d : Desc) (i : Nat) (r : Run) :
    clocks (tryRow c d i r).2.s.crossings = clocks r.s.crossings := by simp [tryRow]

@[simp] theorem tryRows_clocks (c : Ctx) (d : Desc) (r : Run) :
    clocks (tryRows c d r).2.s.crossings = clocks r.s.crossings := by simp [tryRows]

@[simp] theorem loadRows_clocks (c : Ctx) (d : Desc) (r : Run) :
    clocks (loadRows c d r).2.s.crossings = clocks r.s.crossings := by simp [loadRows]

@[simp] theorem loadRow_clocks (c : Ctx) (d : Desc) (i : Nat) (r : Run) :
    clocks (loadRow c d i r).2.s.crossings = clocks r.s.crossings := by simp [loadRow]

@[simp] theorem storeRow_clocks (c : Ctx) (g : GTag) (d : Desc) (i : Nat) (codes : List Nat) (r : Run) :
    clocks (storeRow c g d i codes r).s.crossings = clocks r.s.crossings := by simp [storeRow]

@[simp] theorem storeRows_clocks (c : Ctx) (g : GTag) (d : Desc) (rows : List (List Nat)) (r : Run) :
    clocks (storeRows c g d rows r).s.crossings = clocks r.s.crossings := by simp [storeRows]

@[simp] theorem loadScales_clocks (c : Ctx) (d : Desc) (r : Run) :
    clocks (loadScales c d r).2.s.crossings = clocks r.s.crossings := by unfold loadScales; split <;> simp

@[simp] theorem loadPairs_clocks (c : Ctx) (d : Desc) (r : Run) :
    clocks (loadPairs c d r).2.s.crossings = clocks r.s.crossings := by simp only [loadPairs]; split <;> simp

@[simp] theorem loadVals_clocks (c : Ctx) (d : Desc) (r : Run) :
    clocks (loadVals c d r).2.s.crossings = clocks r.s.crossings := by simp [loadVals]

@[simp] theorem reportRows_crossings (c : Ctx) (id : Nat) (rows : List OutRow) :
    (reportRows c id rows s).crossings = s.crossings := by simp [reportRows]

@[simp] theorem departBy_crossings (c : Ctx) (d : Desc) :
    (departBy c d s).crossings = s.crossings := by simp [departBy]

@[simp] theorem departs_clocks (c : Ctx) (ids : List Nat) (r : Run) :
    clocks (departs c ids r).s.crossings = clocks r.s.crossings := by simp [departs]

@[simp] theorem writeRows_clocks (c : Ctx) (g : GTag) (d : Desc) (id : Nat) (rows : List OutRow) (r : Run) :
    clocks (writeRows c g d id rows r).s.crossings = clocks r.s.crossings := by simp only [writeRows]; split <;> simp

@[simp] theorem writeZeros_clocks (c : Ctx) (g : GTag) (d : Desc) (r : Run) :
    clocks (writeZeros c g d r).s.crossings = clocks r.s.crossings := by simp [writeZeros]

@[simp] theorem confineEntry_crossings (st idx : Nat) (c : Confined) :
    (confineEntry st idx s c).crossings = s.crossings := by simp [confineEntry]

@[simp] theorem raiseEntry_clocks (st idx : Nat) (tagged : Bool) (e : Evt) :
    clocks (raiseEntry st idx tagged s e).crossings = clocks s.crossings := by simp [raiseEntry]

@[simp] theorem noteUpdate_crossings (st idx : Nat) (e : Entry) :
    (noteUpdate st idx e s).crossings = s.crossings := by unfold noteUpdate; split <;> simp

@[simp] theorem freeRecord_crossings (tag : Nat) :
    (freeRecord tag s).crossings = s.crossings := rfl

@[simp] theorem storeSome_clocks (c : Ctx) (d : Desc) (rows : List (Nat × List Nat)) (r : Run) :
    clocks (storeSome c d rows r).s.crossings = clocks r.s.crossings := by simp [storeSome]

@[simp] theorem writeSome_clocks (c : Ctx) (d : Desc) (id : Nat) (rows : List (Nat × OutRow)) (r : Run) :
    clocks (writeSome c d id rows r).s.crossings = clocks r.s.crossings := by simp only [writeSome]; split <;> simp

@[simp] theorem tryFeedRows_clocks (c : Ctx) (d : Desc) (rows : List Nat) (r : Run) :
    clocks (tryFeedRows c d rows r).2.s.crossings = clocks r.s.crossings := by simp [tryFeedRows]

@[simp] theorem trySome_clocks (c : Ctx) (d : Desc) (rows : List Nat) (r : Run) :
    clocks (trySome c d rows r).2.s.crossings = clocks r.s.crossings := by simp [trySome]

@[simp] theorem somePairs_clocks (c : Ctx) (d : Desc) (rows : List Nat) (r : Run) :
    clocks (somePairs c d rows r).2.s.crossings = clocks r.s.crossings := by simp only [somePairs]; split <;> simp

@[simp] theorem loadSome_clocks (c : Ctx) (d : Desc) (rows : List Nat) (r : Run) :
    clocks (loadSome c d rows r).2.s.crossings = clocks r.s.crossings := by simp [loadSome]

/-! ## The effects of the entries -/

@[simp] theorem clearSets_crossings (core set : Nat) (arrays : List Nat) :
    (clearSets core set arrays s).crossings = s.crossings := by simp [clearSets]

@[simp] theorem feedFaults_clocks (c : Ctx) (core : Nat) (lines : List Nat) (r : Run) :
    clocks (feedFaults c core lines r).s.crossings = clocks r.s.crossings := by
  refine foldl_run _ (fun r p => ?_) c.ph r
  cases p <;> simp

@[simp] theorem accumulate_crossings (c : Ctx) (core : Nat) (a b : Desc) (live : List Nat) (av bv : List (List Val)) :
    (accumulate c core a b live av bv s).crossings = s.crossings := rfl

@[simp] theorem residueFault_clocks (c : Ctx) (fs : List Feed) (live : List Nat) (r : Run) :
    clocks (residueFault c fs live r).s.crossings = clocks r.s.crossings := by
  refine foldl_run _ (fun r p => ?_) c.ph r
  cases p <;> simp

@[simp] theorem drainTile_clocks (c : Ctx) (core : Nat) (a b : Desc) (live : List Nat) (r : Run) :
    clocks (drainTile c core a b live r).s.crossings = clocks r.s.crossings := by simp [drainTile]

@[simp] theorem matmulEff_clocks (c : Ctx) (r : Run) :
    clocks (matmulEff c r).s.crossings = clocks r.s.crossings := by simp [matmulEff]

@[simp] theorem movedRows_clocks (c : Ctx) (a d : Desc) (perm : List Nat) (r : Run) :
    clocks (movedRows c a d perm r).2.s.crossings = clocks r.s.crossings := by simp [movedRows]

@[simp] theorem countMover_crossings (c : Ctx) (rd wr tiles members : Nat) :
    (countMover c rd wr tiles members s).crossings = s.crossings := rfl

@[simp] theorem copyStream_clocks (c : Ctx) (g : GTag) (a d : Desc) (r : Run) :
    clocks (copyStream c g a d r).s.crossings = clocks r.s.crossings := by simp [copyStream]

@[simp] theorem moveEff_clocks (c : Ctx) (r : Run) :
    clocks (moveEff c r).s.crossings = clocks r.s.crossings := by simp [moveEff]

@[simp] theorem fillMembers_clocks (c : Ctx) (d : Desc) (r : Run) :
    clocks (fillMembers c d r).2.s.crossings = clocks r.s.crossings := by simp [fillMembers]

@[simp] theorem fillOne_clocks (c : Ctx) (d : Desc) (rows : List OutRow) (u : Nat) (r : Run) :
    clocks (fillOne c d rows u r).s.crossings = clocks r.s.crossings := by simp [fillOne]

@[simp] theorem fillEff_clocks (c : Ctx) (r : Run) :
    clocks (fillEff c r).s.crossings = clocks r.s.crossings := by simp [fillEff]

@[simp] theorem vectorEff_clocks (c : Ctx) (r : Run) :
    clocks (vectorEff c r).s.crossings = clocks r.s.crossings := by simp [vectorEff]

@[simp] theorem optimRun_clocks (c : Ctx) (r : Run) :
    clocks (optimRun c r).s.crossings = clocks r.s.crossings := by simp [optimRun]

@[simp] theorem optimEff_clocks (c : Ctx) (r : Run) :
    clocks (optimEff c r).s.crossings = clocks r.s.crossings := by simp [optimEff]

@[simp] theorem loadIndices_clocks (c : Ctx) (d : Desc) (r : Run) :
    clocks (loadIndices c d r).2.s.crossings = clocks r.s.crossings := by simp [loadIndices]

@[simp] theorem countIndices_crossings (c : Ctx) (cs : List IndexClass) :
    (countIndices c cs s).crossings = s.crossings := by simp [countIndices]

@[simp] theorem countFetches_crossings (c : Ctx) (away : Bool) (rows : List (Option Nat)) :
    (countFetches c away rows s).crossings = s.crossings := by simp [countFetches]

@[simp] theorem loadCodeRow_clocks (c : Ctx) (d : Desc) (i : Nat) (r : Run) :
    clocks (loadCodeRow c d i r).2.s.crossings = clocks r.s.crossings := by simp [loadCodeRow]

@[simp] theorem gatherEff_clocks (c : Ctx) (r : Run) : clocks (gatherEff c r).s.crossings = clocks r.s.crossings := by
  simp only [gatherEff, physEvents_clocks]
  split
  · rfl
  · split
    · simp
    · rw [writeRows_clocks]
      refine (foldl_runWith _ (fun x p => ?_) _ _).trans (by simp)
      split <;> simp

@[simp] theorem scatterEff_clocks (c : Ctx) (r : Run) :
    clocks (scatterEff c r).s.crossings = clocks r.s.crossings := by simp [scatterEff]

@[simp] theorem mergeEff_clocks (c : Ctx) (r : Run) :
    clocks (mergeEff c r).s.crossings = clocks r.s.crossings := by simp [mergeEff]

@[simp] theorem histEff_clocks (c : Ctx) (r : Run) :
    clocks (histEff c r).s.crossings = clocks r.s.crossings := by simp [histEff]

@[simp] theorem denseBytes_clocks (c : Ctx) (d : Desc) (r : Run) :
    clocks (denseBytes c d r).2.s.crossings = clocks r.s.crossings := by simp [denseBytes]

@[simp] theorem putDense_clocks (c : Ctx) (d : Desc) (bs : List Byte) (r : Run) :
    clocks (putDense c d bs r).s.crossings = clocks r.s.crossings := by simp [putDense]

@[simp] theorem countTile_crossings (c : Ctx) (form : Nat) :
    (countTile c form s).crossings = s.crossings := by simp [countTile]

@[simp] theorem compressEff_clocks (c : Ctx) (r : Run) :
    clocks (compressEff c r).s.crossings = clocks r.s.crossings := by simp [compressEff]

@[simp] theorem decompressTile_clocks (c : Ctx) (a : Desc) (f k : Nat) (r : Run) :
    clocks (decompressTile c a f k r).2.s.crossings = clocks r.s.crossings := by
  simp only [decompressTile]
  split
  · split <;> simp
  · simp

@[simp] theorem decompressEff_clocks (c : Ctx) (r : Run) :
    clocks (decompressEff c r).s.crossings = clocks r.s.crossings := by simp [decompressEff]

@[simp] theorem answerDropped_crossings : (answerDropped s).crossings = s.crossings := rfl

@[simp] theorem sendRing_clocks (c : Ctx) (g : GTag) (dst port phase off : Nat) (bs : List Byte) (r : Run) :
    clocks (sendRing c g dst port phase off bs r).s.crossings = clocks r.s.crossings := by
  dsimp only [sendRing]
  refine foldl_clocks _ (fun s x => ?_) _ _
  simp

@[simp] theorem sendHalf_clocks (c : Ctx) (x : Shape) (half phase off : Nat) (bs : List Byte) (r : Run) :
    clocks (sendHalf c x half phase off bs r).s.crossings = clocks r.s.crossings := by simp [sendHalf]

@[simp] theorem setMask_crossings (r : Nat) (m : Mask) :
    (setMask r m s).crossings = s.crossings := rfl

@[simp] theorem raiseOnce_crossings (st idx : Nat) (cs : List Confined) :
    (raiseOnce st idx cs s).crossings = s.crossings := by simp [raiseOnce]

@[simp] theorem adopt_crossings (c : Ctx) (w : CtlWord) :
    (adopt c w s).crossings = s.crossings := raiseOnce_crossings _ c.st c.idx _

@[simp] theorem writeFlat_clocks (c : Ctx) (d : Desc) (row : OutRow) (r : Run) :
    clocks (writeFlat c d row r).s.crossings = clocks r.s.crossings := by simp [writeFlat]

@[simp] theorem finishColl_clocks (c : Ctx) (x : Shape) (k : CollRun) :
    clocks (finishColl c x k).2.s.crossings = clocks k.2.s.crossings := by simp [finishColl]

@[simp] theorem startGather_clocks (c : Ctx) (x : Shape) (k : CollRun) :
    clocks (startGather c x k).2.s.crossings = clocks k.2.s.crossings := by simp [startGather]

@[simp] theorem endReduce_clocks (c : Ctx) (x : Shape) (k : CollRun) :
    clocks (endReduce c x k).2.s.crossings = clocks k.2.s.crossings := by simp [endReduce]

@[simp] theorem startReduce_clocks (c : Ctx) (x : Shape) (k : CollRun) :
    clocks (startReduce c x k).2.s.crossings = clocks k.2.s.crossings := by simp [startReduce]

@[simp] theorem afterControl_clocks (c : Ctx) (x : Shape) (w : Option CtlWord) (k : CollRun) :
    clocks (afterControl c x w k).2.s.crossings = clocks k.2.s.crossings := by unfold afterControl; split <;> simp

@[simp] theorem sourceCodes_clocks (c : Ctx) (a : Desc) (r : Run) :
    clocks (sourceCodes c a r).2.s.crossings = clocks r.s.crossings := by simp [sourceCodes]

@[simp] theorem putColl_crossings (r : Nat) (k : Coll) :
    (putColl r k s).crossings = s.crossings := rfl

@[simp] theorem collEff_clocks (c : Ctx) (r : Run) :
    clocks (collEff c r).s.crossings = clocks r.s.crossings := by simp [collEff]

@[simp] theorem putBlock_clocks (c : Ctx) (d : Desc) (bs : List Byte) (r : Run) :
    clocks (putBlock c d bs r).s.crossings = clocks r.s.crossings := by simp [putBlock]

@[simp] theorem rotateEff_clocks (c : Ctx) (r : Run) :
    clocks (rotateEff c r).s.crossings = clocks r.s.crossings := by simp only [rotateEff]; split <;> simp

@[simp] theorem notify_clocks (c : Ctx) (w kind epoch size : Nat) (r : Run) :
    clocks (notify c w kind epoch size r).s.crossings = clocks r.s.crossings := by simp [notify]

@[simp] theorem openEff_clocks (c : Ctx) (r : Run) :
    clocks (openEff c r).s.crossings = clocks r.s.crossings := by simp [openEff]

@[simp] theorem detachMark_clocks (w : Nat) :
    clocks (detachMark w s).crossings = clocks s.crossings := by simp [detachMark]

@[simp] theorem closeEff_clocks (c : Ctx) (r : Run) :
    clocks (closeEff c r).s.crossings = clocks r.s.crossings := by simp [closeEff]

@[simp] theorem putTable_clocks (c : Ctx) (d : Desc) (bs : List Byte) (r : Run) :
    clocks (putTable c d bs r).s.crossings = clocks r.s.crossings := by simp [putTable]

@[simp] theorem loadFlat_clocks (c : Ctx) (d : Desc) (r : Run) :
    clocks (loadFlat c d r).2.s.crossings = clocks r.s.crossings := by simp [loadFlat]

@[simp] theorem routeEff_clocks (c : Ctx) (r : Run) :
    clocks (routeEff c r).s.crossings = clocks r.s.crossings := by simp [routeEff]

@[simp] theorem sendRow_clocks (c : Ctx) (g : GTag) (w off : Nat) (bs : List Byte) (r : Run) :
    clocks (sendRow c g w off bs r).s.crossings = clocks r.s.crossings := by unfold sendRow; split <;> simp

@[simp] theorem sendBlockEnd_clocks (w : Nat) (r : Run) :
    clocks (sendBlockEnd w r).s.crossings = clocks r.s.crossings := by simp [sendBlockEnd]

@[simp] theorem rowRaw_clocks (c : Ctx) (d : Desc) (i : Nat) (r : Run) :
    clocks (rowRaw c d i r).2.s.crossings = clocks r.s.crossings := by simp [rowRaw]

@[simp] theorem dispatchSlot_clocks (c : Ctx) (d : Desc) (tbl : List Byte) (groups : List Nat) (e : Nat)
    (pl : Placement) (b s : Nat) (x : List (Option GTag) × Run) :
    clocks (dispatchSlot c d tbl groups e pl b s x).2.s.crossings = clocks x.2.s.crossings := by
  unfold dispatchSlot
  split <;> simp

@[simp] theorem dispatchBlock_clocks (c : Ctx) (d : Desc) (tbl : List Byte) (groups : List Nat) (e : Nat)
    (pl : Placement) (r : Run) :
    clocks (dispatchBlock c d tbl groups e pl r).s.crossings = clocks r.s.crossings := by simp [dispatchBlock]

@[simp] theorem dispatchEff_clocks (c : Ctx) (r : Run) :
    clocks (dispatchEff c r).s.crossings = clocks r.s.crossings := by simp [dispatchEff]

@[simp] theorem returnSlot_clocks (c : Ctx) (d : Desc) (hdr : List Byte) (w b s : Nat) (r : Run) :
    clocks (returnSlot c d hdr w b s r).s.crossings = clocks r.s.crossings := by simp [returnSlot]

@[simp] theorem returnEff_clocks (c : Ctx) (r : Run) :
    clocks (returnEff c r).s.crossings = clocks r.s.crossings := by simp [returnEff]

@[simp] theorem combineEff_clocks (c : Ctx) (r : Run) :
    clocks (combineEff c r).s.crossings = clocks r.s.crossings := by simp [combineEff]

@[simp] theorem countExcess_crossings (c : Ctx) (padded : Bool) (d : Nat) :
    (countExcess c padded d s).crossings = s.crossings := by simp [countExcess]

@[simp] theorem groupedRow_clocks (c : Ctx) (a d : Desc) (i : Nat) (r : Run) :
    clocks (groupedRow c a d i r).2.s.crossings = clocks r.s.crossings := by simp [groupedRow]

@[simp] theorem copyRanges_clocks (c : Ctx) (a d : Desc) (padded : Bool) (r : Run) :
    clocks (copyRanges c a d padded r).s.crossings = clocks r.s.crossings := by
  simp only [copyRanges, writeRows_clocks]
  refine foldl_runWith _ (fun x row => ?_) _ ([], r)
  split <;> simp

@[simp] theorem packEff_clocks (c : Ctx) (r : Run) :
    clocks (packEff c r).s.crossings = clocks r.s.crossings := by simp [packEff]

@[simp] theorem unpackEff_clocks (c : Ctx) (r : Run) :
    clocks (unpackEff c r).s.crossings = clocks r.s.crossings := by simp [unpackEff]

@[simp] theorem idsEff_clocks (padded : Bool) (c : Ctx) (r : Run) :
    clocks (idsEff padded c r).s.crossings = clocks r.s.crossings := by simp [idsEff]

@[simp] theorem lenmaskEff_clocks (c : Ctx) (r : Run) :
    clocks (lenmaskEff c r).s.crossings = clocks r.s.crossings := by simp [lenmaskEff]

@[simp] theorem stashGet_clocks (c : Ctx) (tags : Nat × Nat) (d : Desc) (off n pos : Nat) (r : Run) :
    clocks (stashGet c tags d off n pos r).2.s.crossings = clocks r.s.crossings := by simp [stashGet]

@[simp] theorem stashPut_clocks (c : Ctx) (tags : Nat × Nat) (d : Desc) (off : Nat) (bs : List Byte) (pos : Nat) (r : Run) :
    clocks (stashPut c tags d off bs pos r).s.crossings = clocks r.s.crossings := by simp [stashPut]

@[simp] theorem recordLines_clocks (c : Ctx) (tags : Nat × Nat) (d : Desc) (r : Run) :
    clocks (recordLines c tags d r).2.s.crossings = clocks r.s.crossings := by simp [recordLines]

@[simp] theorem stashPin_crossings (pin : Bool) :
    (stashPin pin s).crossings = s.crossings := by simp [stashPin]

@[simp] theorem addRecord_crossings (r : StashRec) :
    (addRecord r s).crossings = s.crossings := rfl

@[simp] theorem putRecord_crossings (tag bytes : Nat) (bs : List (Nat × Nat)) :
    (putRecord tag bytes bs s).crossings = s.crossings := rfl

@[simp] theorem putExhausted_crossings (tag bytes : Nat) :
    (putExhausted tag bytes s).crossings = s.crossings := rfl

@[simp] theorem putStashLine_clocks (c : Ctx) (tags : Nat × Nat) (bs : List (Nat × Nat)) (x : Nat × List Byte) (r : Run) :
    clocks (putStashLine c tags bs x r).s.crossings = clocks r.s.crossings := by simp [putStashLine]

@[simp] theorem winWriteAct_clocks (c : Ctx) (w off : Nat) (wire : List Byte) (r : Run) :
    clocks (winWriteAct c w off wire r).s.crossings = clocks r.s.crossings := by unfold winWriteAct; split <;> simp

@[simp] theorem putNbrGroup_clocks (c : Ctx) (tags : Nat × Nat) (w b i0 g : Nat) (ls : List (Nat × List Byte)) (r : Run) :
    clocks (putNbrGroup c tags w b i0 g ls r).s.crossings = clocks r.s.crossings := by simp [putNbrGroup]

@[simp] theorem putNbrLines_clocks (c : Ctx) (tags : Nat × Nat) (bs : List (Nat × Nat))
    (ls : List (Nat × List Byte)) (r : Run) :
    clocks (putNbrLines c tags bs ls r).s.crossings = clocks r.s.crossings := by unfold putNbrLines; split <;> simp

@[simp] theorem countMoved_crossings (c : Ctx) (rd wr : Nat) :
    (countMoved c rd wr s).crossings = s.crossings := rfl

@[simp] theorem stashWriteEff_clocks (c : Ctx) (r : Run) : clocks (stashWriteEff c r).s.crossings = clocks r.s.crossings := by
  simp only [stashWriteEff, physEvents_clocks]
  split
  · rfl
  · split <;> simp

@[simp] theorem checkStashLine_clocks (c : Ctx) (tags : Nat × Nat) (i : Nat) (data chk : List Byte) (late : Bool) (r : Run) :
    clocks (checkStashLine c tags i data chk late r).2.s.crossings = clocks r.s.crossings := by simp [checkStashLine]

@[simp] theorem hostStashLine_clocks (c : Ctx) (tags : Nat × Nat) (b i : Nat) (r : Run) :
    clocks (hostStashLine c tags b i r).2.s.crossings = clocks r.s.crossings := by simp [hostStashLine]

@[simp] theorem nbrStashLines_clocks (c : Ctx) (tags : Nat × Nat) (b i n : Nat) (r : Run) :
    clocks (nbrStashLines c tags b i n r).2.s.crossings = clocks r.s.crossings := by
  unfold nbrStashLines
  split
  · rfl
  · dsimp only
    split
    · simp
    · split <;> simp

@[simp] theorem blockStashLines_clocks (c : Ctx) (tags : Nat × Nat) (bs : List (Nat × Nat)) (i n : Nat) (r : Run) :
    clocks (blockStashLines c tags bs i n r).2.s.crossings = clocks r.s.crossings := by simp [blockStashLines]

@[simp] theorem stashLines_clocks (c : Ctx) (tags : Nat × Nat) (bs : List (Nat × Nat)) (i n : Nat) (r : Run) :
    clocks (stashLines c tags bs i n r).2.s.crossings = clocks r.s.crossings := by simp [stashLines]

@[simp] theorem putRecordBytes_clocks (c : Ctx) (tags : Nat × Nat) (d : Desc) (bs : List Byte) (r : Run) :
    clocks (putRecordBytes c tags d bs r).s.crossings = clocks r.s.crossings := by simp [putRecordBytes]

@[simp] theorem deliverRecord_clocks (c : Ctx) (tags : Nat × Nat) (d : Desc) (bs : List (Nat × Nat)) (r : Run) :
    clocks (deliverRecord c tags d bs r).s.crossings = clocks r.s.crossings := by simp [deliverRecord]

@[simp] theorem clearTimeouts_crossings (gs : List Nat) :
    (clearTimeouts gs s).crossings = s.crossings := rfl

@[simp] theorem noteRecord_crossings (c : Ctx) (tag : Nat) :
    (noteRecord c tag s).crossings = s.crossings := by simp [noteRecord]

@[simp] theorem stashReadEff_clocks (c : Ctx) (r : Run) : clocks (stashReadEff c r).s.crossings = clocks r.s.crossings := by
  simp only [stashReadEff, physEvents_clocks]
  split
  · simp
  · split
    · simp
    · split <;> simp

end Sys2Proof.Machine
end

