-- ==== Sys2Proof/Proofs/ClockRunning.lean ====
section
/-! CLOCK_RUNNING (02 R40): the clock of a crossing starts, and what waited for it takes its effect. -/

namespace Sys2Proof.Machine
open Sys2Proof.Stmt

/-! ## Entries that run again -/

/-- The effect of an entry leaves the running crossings as they are. -/
def KeepsClocks (eff : Ctx → Run → Run) : Prop := ∀ c r, clocks (eff c r).s.crossings = clocks r.s.crossings

theorem KeepsClocks.ite {p : Prop} [Decidable p] {a b : Ctx → Run → Run} (ha : KeepsClocks a) (hb : KeepsClocks b) :
    KeepsClocks (if p then a else b) := by
  split
  · exact ha
  · exact hb

theorem effectOf_keepsClocks (e : Entry) : KeepsClocks (effectOf e) :=
  .ite matmulEff_clocks <| .ite vectorEff_clocks <| .ite optimEff_clocks <| .ite moveEff_clocks <| .ite fillEff_clocks <|
  .ite stashWriteEff_clocks <| .ite stashReadEff_clocks <| .ite gatherEff_clocks <| .ite scatterEff_clocks <|
  .ite mergeEff_clocks <| .ite routeEff_clocks <| .ite dispatchEff_clocks <| .ite (.ite returnEff_clocks combineEff_clocks) <|
  .ite compressEff_clocks <| .ite decompressEff_clocks <| .ite histEff_clocks <|
  .ite (.ite packEff_clocks <| .ite unpackEff_clocks <| .ite lenmaskEff_clocks <| idsEff_clocks _) <|
  .ite collEff_clocks <| .ite rotateEff_clocks <| .ite openEff_clocks <| .ite closeEff_clocks fun _ _ => rfl

/-- However a run is settled, the running crossings are those of its effect or those before it. -/
theorem settleRun_clocks (c : Ctx) (r : Run) (s : State) (h : clocks r.s.crossings = clocks s.crossings) :
    clocks (settleRun c r s).crossings = clocks s.crossings := by
  unfold settleRun
  split
  · exact h
  · split
    · dsimp only
      rw [foldl_clocks _ (fun t e => raiseEntry_clocks t _ _ _ e)]
      simpa using h
    · simp

theorem rerun_clocks (st idx : Nat) (eff : Ctx → Run → Run) (s : State)
    (h : KeepsClocks eff) :
    clocks (rerun st idx eff s).crossings = clocks s.crossings := by
  unfold rerun
  split
  · rfl
  · split
    · split
      · exact settleRun_clocks _ _ _ (h _ _)
      · rfl
    · rfl

@[simp] theorem rerunEntry_clocks (st idx : Nat) (s : State) :
    clocks (rerunEntry st idx s).crossings = clocks s.crossings := by
  unfold rerunEntry
  split
  · split
    · exact rerun_clocks _ _ _ _ (effectOf_keepsClocks _)
    · rfl
  · rfl

@[simp] theorem runReady_clocks (st : Nat) (s : State) : clocks (runReady st s).crossings = clocks s.crossings := by
  unfold runReady
  split <;> simp

@[simp] theorem awaitClock_clocks (rs : List (Nat × Nat)) (s go : State) (h : clocks go.crossings = clocks s.crossings) :
    clocks (awaitClock rs s go).crossings = clocks s.crossings := by
  unfold awaitClock
  split
  · simp
  · exact h

@[simp] theorem releaseHost_clocks (l : List HostAccess) (s : State) :
    clocks (releaseHost l s).crossings = clocks s.crossings := by
  induction l generalizing s with
  | nil => rfl
  | cons x l ih =>
    unfold releaseHost
    split
    · simp
    · simp [ih]

/-! ## Entries in flight that have run or wait -/

/-- No entry in flight of the stream has still to run: each has run or waits for an answer. -/
def AllRan (x : Stream) : Prop := ∀ f ∈ x.inflight, f.ran = true ∨ f.waiting ≠ 0

theorem rerun_of_ran {st idx : Nat} {eff : Ctx → Run → Run} {s : State} {x : Stream} (hx : streamAt s st = some x)
    (h : AllRan x) :
    rerun st idx eff s = s := by
  unfold rerun
  rw [hx]
  dsimp only
  split
  · next f e hf he =>
    have : (!f.ran && f.waiting == 0) = false := by
      rcases h f (List.mem_of_find?_eq_some hf) with h | h <;> simp [h]
    simp [this]
  · rfl

theorem runReady_of_ran {st : Nat} {s : State} (h : ∀ x ∈ s.streams, AllRan x) : runReady st s = s := by
  unfold runReady
  split
  · next x hx =>
    have ran : AllRan x := h x (List.mem_of_getElem? hx)
    have one : ∀ idx, rerunEntry st idx s = s := by
      intro idx
      unfold rerunEntry
      rw [hx]
      dsimp only
      split
      · exact rerun_of_ran hx ran
      · rfl
    exact List.foldl_fixed' (fun f => one f.idx) _
  · rfl

/-! ## CLOCK_RUNNING -/

theorem clocks_eq_running {c : Cells Crossing} {k : Nat} :
    clocks c k = some { clockOn := true, wake := false } ↔
      cellGet runningCrossing c k = { clockOn := true, wake := false } := by
  unfold clocks
  rw [Option.filter_eq_some_iff]
  constructor
  · rintro ⟨h, -⟩; exact Option.some.inj h
  · intro h; simp [h]

/-- The state with crossing `k`'s clock running and its request dropped (02 R40). -/
def startClock (k : Nat) (s : State) : State :=
  { s with crossings := cellSet runningCrossing s.crossings k { clockOn := true, wake := false } }

theorem execClockRunning_of_wake {ty : Blk} {i : Nat} {s : State} (h : (crossingAt s ty i).wake = true) :
    ∃ u, u = (List.range s.streams.length).foldl (fun s st => runReady st s) (startClock (crossingKey ty i) s) ∧
      execClockRunning ty i s = .next (releaseHost u.heldHost u) := by
  simp only [execClockRunning, h, if_true]
  exact ⟨_, rfl, rfl⟩

theorem execClockRunning_keeps {ty : Blk} {i : Nat} {s : State} (h : (crossingAt s ty i).wake = true) :
    ∃ t, execClockRunning ty i s = .next t ∧
      cellGet runningCrossing t.crossings (crossingKey ty i) = { clockOn := true, wake := false } := by
  obtain ⟨u, hu, he⟩ := execClockRunning_of_wake h
  refine ⟨_, he, ?_⟩
  rw [← clocks_eq_running, releaseHost_clocks, hu, foldl_clocks _ (fun s st => runReady_clocks st s), clocks_eq_running]
  simp [startClock]

theorem execClockRunning_of_ran {ty : Blk} {i : Nat} {s : State} (h : (crossingAt s ty i).wake = true)
    (ran : ∀ x ∈ s.streams, AllRan x) :
    execClockRunning ty i s = .next (releaseHost s.heldHost (startClock (crossingKey ty i) s)) := by
  obtain ⟨u, hu, he⟩ := execClockRunning_of_wake h
  have fixed : u = startClock (crossingKey ty i) s := by
    rw [hu]
    exact List.foldl_fixed' (fun st => runReady_of_ran (s := startClock (crossingKey ty i) s) ran) _
  rw [he, fixed]
  rfl

/-- CLOCK_RUNNING of a crossing with a held wake request (02 R40). -/
theorem clockRunning_of_wake {ty : Blk} {i : Nat} {s : State} (h : (crossingAt s ty i).wake = true) :
    ∃ t, exec (.clockRunning ty i) s = .next t ∧
      cellGet runningCrossing t.crossings (crossingKey ty i) = { clockOn := true, wake := false } ∧
      ((∀ x ∈ s.streams, AllRan x) → s.heldHost = [] →
        (∀ k, k ≠ crossingKey ty i → cellGet runningCrossing t.crossings k = cellGet runningCrossing s.crossings k) ∧
        t = { s with crossings := t.crossings }) := by
  obtain ⟨t, ht, started⟩ := execClockRunning_keeps h
  refine ⟨t, ht, started, fun ran none => ?_⟩
  have only : t = { startClock (crossingKey ty i) s with heldHost := [] } := by
    have := ht.symm.trans (execClockRunning_of_ran h ran)
    rw [none] at this
    exact Host.Outcome.next.inj this
  subst only
  refine ⟨fun k other => ?_, ?_⟩
  · exact cellGet_set_ne runningCrossing s.crossings { clockOn := true, wake := false } other
  · rw [← none]
    rfl

/-- The one host access that waits takes its effect when it meets no stopped clock any more (15 R355). -/
theorem clockRunning_releases {ty : Blk} {i : Nat} {x : HostAccess} {s u : State} (h : (crossingAt s ty i).wake = true)
    (ran : ∀ y ∈ s.streams, AllRan y) (held : s.heldHost = [x]) (hu : u = startClock (crossingKey ty i) s)
    (free : ¬ Stopped (x.reach u) u) :
    exec (.clockRunning ty i) s = .next { x.run u with heldHost := [] } := by
  refine (execClockRunning_of_ran h ran).trans ?_
  rw [held, ← hu, releaseHost, if_neg (stopped_iff.not.1 free)]
  rfl

theorem clockRunning_without_wake {ty : Blk} {i : Nat} {s : State} (h : (crossingAt s ty i).wake = false) :
    exec (.clockRunning ty i) s = .next s := by
  simp [exec, execClockRunning, h]

end Sys2Proof.Machine
end

