-- ==== Sys2Proof/Proofs/SmallUnits.lean ====
section
/-! Pace windows, re-arming, write-back and retention, and the statement of O36. -/

namespace Sys2Proof.Machine
open Sys2Proof.Stmt

/-! ## The access path -/

theorem blkOf_blkCode (t : Blk) : blkOf (blkCode t) = t := by cases t <;> rfl

theorem blkCode_lt (t : Blk) : blkCode t < 16 := by cases t <;> decide

theorem built_le (t : Blk) : built t ≤ 384 := by cases t <;> decide

/-- A whole write of a register that the access meets is a write of its page (20 R425 to R427). -/
theorem regWrite_eq_writePage {m : Master} {t : Blk} {i off : Nat} {s : State} (h : Reaches m t i s) (low : off < 0x10000)
    (whole : off % 8 = 0) (v : W64) : regWrite m t i off v s = writePage m t i off v s := by
  obtain ⟨admitted, stands, on⟩ := h
  have hc := blkCode_lt t
  have hb := built_le t
  have ht : regType (blkCode t * 0x2000000 + i * 0x10000 + off) = t := by
    rw [regType, show (blkCode t * 0x2000000 + i * 0x10000 + off) / 0x2000000 % 16 = blkCode t by omega, blkOf_blkCode]
  have hi : regInst (blkCode t * 0x2000000 + i * 0x10000 + off) = i := by unfold regInst; omega
  have ho : regOff (blkCode t * 0x2000000 + i * 0x10000 + off) / 8 * 8 = off := by unfold regOff; omega
  have aligned : (blkCode t * 0x2000000 + i * 0x10000 + off) % 8 = 0 := by omega
  have ok : accessOk (blkCode t * 0x2000000 + i * 0x10000 + off) 8 = true := by simp [accessOk, aligned]
  simp only [regWrite, busWrite, ht, hi, ho, ok, admitted, on, widen]
  have direct : ¬ 0x1F0 ≤ i := by omega
  simp [direct, Nat.not_le.2 stands]

theorem fld_withBit_same (b : Nat) (v : W64) (h : b < 64) : fld (withBit b v) b b = 1 := by
  apply Nat.eq_of_testBit_eq
  intro i
  rw [fld_testBit, withBit, BitVec.getLsbD_or, BitVec.getLsbD_ofNat, Nat.testBit_two_pow]
  cases i with
  | zero => simp [h]
  | succ i => simp [Nat.testBit_succ]

theorem fld_withBit_other (b hi lo : Nat) (v : W64) (h : b < lo ∨ hi < b) : fld (withBit b v) hi lo = fld v hi lo := by
  apply Nat.eq_of_testBit_eq
  intro i
  rw [fld_testBit, fld_testBit, withBit, BitVec.getLsbD_or, BitVec.getLsbD_ofNat, Nat.testBit_two_pow]
  by_cases inside : i < hi + 1 - lo
  · have : b ≠ lo + i := by omega
    simp [this]
  · simp [inside]

theorem writePage_paceRate (m : Master) (d : Nat) (v : W64) (s : State) (on : fld v 63 63 = 1) :
    writePage m .dst d 0x108 v s = lowRearmAct d s := by
  simp [writePage, wholeDenied, carriesDenied, deniedHere, deniedFields, writeActions, writeFields, openFields, regFields,
    ownFields, lookupD, fieldOpen, writeField, fWo, on]

theorem writePage_hbcCeLimit (m : Master) (i : Nat) (v : W64) (s : State) (on : fld v 63 63 = 1) :
    writePage m .hbc i 0x128 v s = rearmAct i (setF s (Reg.hbcCeLimit i) 31 0 (fld v 31 0)) := by
  have fits : fld v 31 0 ≤ 18446744073709551616 := (fld_lt v 31 0).le.trans (by norm_num)
  simp [writePage, wholeDenied, carriesDenied, deniedHere, deniedFields, writeActions, writeFields, openFields, regFields,
    ownFields, lookupD, fieldOpen, writeField, fWo, fRw, on, fits]
  rfl

/-! ## Re-arming (02 R27, 11 R256) -/

theorem setF_regsBut (s : State) (a hi lo v : Nat) : RegsBut [a] s (setF s a hi lo v) := fun b hb =>
  rget_setF_ne s hi lo v (by simpa using hb)

/-- LOW_REARM loads RATE_LOW with RATE_NOW. -/
theorem rateLow_of_execLowRearm {m : Master} {d : Nat} (v : W64) {s : State} (h : Reaches m .dst d s) :
    execLowRearm m d v s = .next (setF s (Reg.paceRate d) 47 32 (getF s (Reg.paceRate d) 15 0)) := by
  rw [execLowRearm, regWrite_eq_writePage h (by decide) (by decide),
    writePage_paceRate _ _ _ _ (fld_withBit_same 63 v (by decide))]
  rfl

/-- REARM takes the limit written and clears the corrections counted since the last one. -/
theorem limit_of_execRearm {m : Master} {i : Nat} (v : W64) {s : State} (h : Reaches m .hbc i s) :
    execRearm m i v s = .next (setF (setF s (Reg.hbcCeLimit i) 31 0 (fld v 31 0)) (Reg.hbcCeLimit i) 62 32 0) := by
  rw [execRearm, regWrite_eq_writePage h (by decide) (by decide),
    writePage_hbcCeLimit _ _ _ _ (fld_withBit_same 63 v (by decide)), fld_withBit_other _ _ _ _ (by decide)]
  rfl

theorem changes_of_lowRearm {m : Master} {d : Nat} (v : W64) {s : State} (h : Reaches m .dst d s) :
    ∃ t, exec (.lowRearm m d v) s = .next t ∧ getF t (Reg.paceRate d) 47 32 = getF s (Reg.paceRate d) 15 0 ∧
      getF t (Reg.paceRate d) 31 0 = getF s (Reg.paceRate d) 31 0 ∧ RegsBut [Reg.paceRate d] s t ∧
      t = { s with regs := t.regs } := by
  refine ⟨_, rateLow_of_execLowRearm v h, ?_, ?_, setF_regsBut _ _ _ _ _, rfl⟩
  · rw [getF_setF_same _ _ _ _ _ (by decide) (by decide)]
    exact Nat.mod_eq_of_lt (fld_lt _ 15 0)
  · exact getF_setF_other _ _ _ _ _ _ _ (by decide) (by decide) (by decide)

theorem changes_of_rearm {m : Master} {i : Nat} (v : W64) {s : State} (h : Reaches m .hbc i s) :
    ∃ t, exec (.rearm m i v) s = .next t ∧ getF t (Reg.hbcCeLimit i) 62 32 = 0 ∧
      getF t (Reg.hbcCeLimit i) 31 0 = fld v 31 0 ∧ RegsBut [Reg.hbcCeLimit i] s t ∧ t = { s with regs := t.regs } := by
  refine ⟨_, limit_of_execRearm v h, ?_, ?_, fun a ha => ?_, rfl⟩
  · rw [getF_setF_same _ _ _ _ _ (by decide) (by decide), Nat.zero_mod]
  · rw [getF_setF_other _ _ _ _ _ _ _ (by decide) (by decide) (by decide), getF_setF_same _ _ _ _ _ (by decide) (by decide)]
    exact Nat.mod_eq_of_lt (fld_lt v 31 0)
  · rw [setF_regsBut _ _ _ _ _ a ha, setF_regsBut _ _ _ _ _ a ha]

/-! ## Scratchpads -/

theorem spEccWriteback_takes_oldest {core a : Nat} {pre post : List Nat} {s : State} (hs : s.spFix = pre ++ a :: post)
    (ha : a / 524288 = core) (older : ∀ x ∈ pre, x / 524288 ≠ core) :
    exec (.spEccWriteback core) s = .next { s with spFix := pre ++ post } := by
  have found : s.spFix.find? (fun x => x / 524288 == core) = some a := by
    rw [hs, List.find?_append, List.find?_eq_none.2 (by simpa using older)]
    simp [ha]
  have taken : s.spFix.erase a = pre ++ post := by
    rw [hs, List.erase_append_right _ (fun mem => older a mem ha), List.erase_cons_head]
  simp only [exec, execSpEccWriteback, found, taken]

theorem retainEntry_changes {core k : Nat} {s : State} (hk : k < 8) (auto : getB s (Reg.spPower core) 16 = true)
    (idle : getF s (Reg.spPower core) (2 * k + 33) (2 * k + 32) = 0) :
    ∃ t, exec (.retainEntry core k) s = .next t ∧ getF t (Reg.spPower core) (2 * k + 33) (2 * k + 32) = 1 ∧
      (∀ j, j < 8 → j ≠ k → getF t (Reg.spPower core) (2 * j + 33) (2 * j + 32) =
        getF s (Reg.spPower core) (2 * j + 33) (2 * j + 32)) ∧
      RegsBut [Reg.spPower core] s t ∧ t = { s with regs := t.regs } := by
  refine ⟨setF s (Reg.spPower core) (2 * k + 33) (2 * k + 32) 1, ?_, ?_, fun j _ other => ?_, setF_regsBut _ _ _ _ _, rfl⟩
  · simp [exec, execRetainEntry, auto, idle]
  · rw [getF_setF_same _ _ _ _ _ (by omega) (by omega), show 2 * k + 33 + 1 - (2 * k + 32) = 2 by omega]
    rfl
  · exact getF_setF_other _ _ _ _ _ _ _ (by omega) (by omega) (by omega)

/-! ## Pace windows (02 R27) -/

theorem noteBreach_of_active {r : Nat} {s : State} (running : s.step.active = true) :
    noteBreach r s =
      { s with step := { s.step with floorBreach := s.step.floorBreach || safetyHolds s r (coreTarget s) } } := by
  unfold noteBreach floorBreach
  cases safetyHolds s r (coreTarget s)
  · rw [Bool.or_false]; rfl
  · rw [Bool.or_true, if_pos rfl, if_pos running]

theorem safetyHolds_congr {s t : State} {n : Nat} (regs : ∀ off, rget t (reg .mgt 0 off) = rget s (reg .mgt 0 off))
    (power : t.power = { s.power with rateLow := n }) (r : Nat) :
    safetyHolds t r (coreTarget t) = safetyHolds s r (coreTarget s) := by
  simp only [safetyHolds, coreTarget, railCore, vcore, stage1On, policyFloor, getB, getF, power, Reg.voltStatus, Reg.voltPolicy,
    Reg.thermal, regs]
  rfl

/-- The registers of district `d` after a window of `w` waves (02 Table 02-3). -/
def paceRegs (d w : Nat) (s : State) : State :=
  let t := setF (incMod s (Reg.paceCount d) 31 0 w) (Reg.paceRate d) 15 0 w
  if w < getF t (Reg.paceRate d) 47 32 then setF t (Reg.paceRate d) 47 32 w else t

theorem paceCount_ne_paceRate (d : Nat) : Reg.paceCount d ≠ Reg.paceRate d := by
  simp [Reg.paceCount, Reg.paceRate, reg]

theorem mgt_ne_pace {d : Nat} (h : d < 4) (off : Nat) : reg .mgt 0 off ∉ [Reg.paceCount d, Reg.paceRate d] := by
  simp [Reg.paceCount, Reg.paceRate, reg, blkCode]
  omega

theorem paceRegs_eq (d w : Nat) (s : State) : paceRegs d w s = { s with regs := (paceRegs d w s).regs } := by
  unfold paceRegs
  dsimp only
  split <;> rfl

theorem paceRegs_regsBut (d w : Nat) (s : State) : RegsBut [Reg.paceCount d, Reg.paceRate d] s (paceRegs d w s) := by
  intro a ha
  obtain ⟨notCount, notRate⟩ : a ≠ Reg.paceCount d ∧ a ≠ Reg.paceRate d := by simpa using ha
  unfold paceRegs
  dsimp only
  split <;> simp [rget_setF_ne, rget_incMod_ne, notCount, notRate]

theorem paceRegs_count (d w : Nat) (s : State) :
    getF (paceRegs d w s) (Reg.paceCount d) 31 0 = (getF s (Reg.paceCount d) 31 0 + w) % 2 ^ 32 := by
  have counted := getF_incMod s (Reg.paceCount d) 31 0 w (by decide) (by decide)
  unfold paceRegs
  dsimp only
  split <;> simpa [getF_setF_ne, paceCount_ne_paceRate] using counted

theorem paceRegs_now (d w : Nat) (s : State) (h : w ≤ 65535) : getF (paceRegs d w s) (Reg.paceRate d) 15 0 = w := by
  have small : w % 2 ^ (15 + 1 - 0) = w := Nat.mod_eq_of_lt (by omega)
  unfold paceRegs
  dsimp only
  split
  · rw [getF_setF_other _ _ _ _ _ _ _ (by decide) (by decide) (by decide), getF_setF_same _ _ _ _ _ (by decide)
      (by decide), small]
  · rw [getF_setF_same _ _ _ _ _ (by decide) (by decide), small]

theorem paceRegs_low (d w : Nat) (s : State) (h : w ≤ 65535) :
    getF (paceRegs d w s) (Reg.paceRate d) 47 32 = min w (getF s (Reg.paceRate d) 47 32) := by
  have before : getF (setF (incMod s (Reg.paceCount d) 31 0 w) (Reg.paceRate d) 15 0 w) (Reg.paceRate d) 47 32 =
      getF s (Reg.paceRate d) 47 32 := by
    rw [getF_setF_other _ _ _ _ _ _ _ (by decide) (by decide) (by decide)]
    exact getF_setF_ne _ _ _ _ _ _ (paceCount_ne_paceRate d).symm
  unfold paceRegs
  dsimp only
  rw [before]
  split
  · rw [getF_setF_same _ _ _ _ _ (by decide) (by decide), Nat.mod_eq_of_lt (by omega)]
    omega
  · rw [before]
    omega

/-- The state after a window of `w` waves, before a breach is noted (02 R27). -/
def paceNoted (d w : Nat) (s : State) : State :=
  { s with
    regs := (paceRegs d w s).regs, power := { s.power with rateLow := min s.power.rateLow w }
    step := if s.step.active then { s.step with rateMin := min s.step.rateMin w } else s.step }

theorem execPaceWindow_eq (d waves : Nat) (s : State) :
    execPaceWindow d waves s = .next (if s.step.active then noteBreach (min waves 65535) (paceNoted d (min waves 65535) s)
      else paceNoted d (min waves 65535) s) := by
  generalize hw : min waves 65535 = w
  have shown : execPaceWindow d waves s = .next
      (let t := { paceRegs d w s with power := { (paceRegs d w s).power with rateLow := min (paceRegs d w s).power.rateLow w } }
       if t.step.active then noteBreach w { t with step := { t.step with rateMin := min t.step.rateMin w } } else t) := by
    subst hw; rfl
  rw [shown, paceRegs_eq]
  cases running : s.step.active <;> simp [paceNoted, running]

theorem execPaceWindow_spec {d : Nat} (waves : Nat) (s : State) (h : d < 4) :
    execPaceWindow d waves s = .next { s with
      regs := (paceRegs d (min waves 65535) s).regs
      power := { s.power with rateLow := min s.power.rateLow (min waves 65535) }
      step := if s.step.active then { s.step with
        rateMin := min s.step.rateMin (min waves 65535)
        floorBreach := s.step.floorBreach || safetyHolds s (min waves 65535) (coreTarget s) } else s.step } := by
  rw [execPaceWindow_eq]
  generalize min waves 65535 = w
  have same : safetyHolds (paceNoted d w s) w (coreTarget (paceNoted d w s)) = safetyHolds s w (coreTarget s) :=
    safetyHolds_congr (t := paceNoted d w s) (fun off => paceRegs_regsBut d w s _ (mgt_ne_pace h off)) rfl w
  cases running : s.step.active with
  | true =>
    rw [if_pos rfl, noteBreach_of_active (by simp [paceNoted, running]), same]
    simp [paceNoted, running]
  | false => simp [paceNoted, running]

theorem paceWindow_changes {d waves : Nat} {s : State} (h : d < 4) :
    ∃ t, exec (.paceWindow d waves) s = .next t ∧
      getF t (Reg.paceCount d) 31 0 = (getF s (Reg.paceCount d) 31 0 + min waves 65535) % 2 ^ 32 ∧
      getF t (Reg.paceRate d) 15 0 = min waves 65535 ∧
      getF t (Reg.paceRate d) 47 32 = min (min waves 65535) (getF s (Reg.paceRate d) 47 32) ∧
      RegsBut [Reg.paceCount d, Reg.paceRate d] s t ∧
      t = { s with
        regs := t.regs, power := { s.power with rateLow := min s.power.rateLow (min waves 65535) },
        step := if s.step.active then { s.step with
          rateMin := min s.step.rateMin (min waves 65535),
          floorBreach := s.step.floorBreach || safetyHolds s (min waves 65535) (coreTarget s) } else s.step } :=
  have small := Nat.min_le_right waves 65535
  ⟨_, execPaceWindow_spec waves s h, paceRegs_count _ _ _, paceRegs_now _ _ _ small, paceRegs_low _ _ _ small,
    paceRegs_regsBut _ _ _, rfl⟩

/-! ## The statement -/

/-- Settles O36, command by command: each changes its own counter or unit. For CLOCK_RUNNING with a wake request the key fact is
that no entry's effect stops a running clock (`effectOf_keepsClocks`). -/
theorem smallUnitsChangeAlone : Obligations.SmallUnitsChangeAlone := by
  unfold Obligations.SmallUnitsChangeAlone
  exact ⟨fun _ _ _ => paceWindow_changes, fun _ _ v _ => changes_of_lowRearm v, fun _ _ v _ => changes_of_rearm v,
    fun _ _ _ _ _ => spEccWriteback_takes_oldest, fun _ _ _ => retainEntry_changes, fun _ _ _ => clockRunning_of_wake,
    fun _ _ _ _ _ => clockRunning_releases, fun _ _ _ => clockRunning_without_wake, exec_onlyAwaits⟩

end Sys2Proof.Machine
end

