-- ==== Sys2Proof/Proofs/GlbRegs.lean ====
section
/-! SUPPORT. Registers behind the shared operations: an interrupt bit, the job's state, and the flags of a page read after each of them.
Side conditions are closed facts about addresses, which `simp (disch := decide)` settles. -/

namespace Sys2Proof.Machine

/-- The GLB page stands at the bottom of BAR0. -/
theorem reg_glb (off : Nat) : reg .glb 0 off = off := by simp [reg, blkCode]

theorem getF_lt (s : State) (a hi lo : Nat) : getF s a hi lo < 2 ^ (hi + 1 - lo) := fld_lt _ _ _

/-! ## Interrupt bits -/

section
variable (s : State) {t : Blk} {i a : Nat} (b : Nat)

theorem rget_setInt_ne (h : a ≠ Reg.intStatus t i) : rget (setInt t i b s) a = rget s a := by
  rw [rget_setInt, rget_setB_ne _ _ _ h]

theorem getF_setInt_ne (hi lo : Nat) (h : a ≠ Reg.intStatus t i) : getF (setInt t i b s) a hi lo = getF s a hi lo := by
  simp only [getF, rget_setInt_ne s b h]

theorem getB_setInt_same (h : b < 64) : getB (setInt t i b s) (Reg.intStatus t i) b = true := by
  rw [getB_congr (setInt_regs s t i b), getB_setB_same _ _ _ _ h]

theorem jobState_setInt (h : Reg.jobStatus ≠ Reg.intStatus t i) : jobState (setInt t i b s) = jobState s :=
  getF_setInt_ne s b _ _ h

end

/-! ## The job's state -/

section
variable (v : Nat) (s : State)

theorem setJobState_eq : setJobState v s = { s with regs := (setJobState v s).regs } := by
  unfold setJobState
  dsimp only
  split <;> rfl

@[simp] theorem setJobState_cards : (setJobState v s).cards = s.cards := by rw [setJobState_eq]
@[simp] theorem setJobState_slot : (setJobState v s).slot = s.slot := by rw [setJobState_eq]
@[simp] theorem setJobState_next : (setJobState v s).next = s.next := by rw [setJobState_eq]
@[simp] theorem setJobState_job : (setJobState v s).job = s.job := by rw [setJobState_eq]
@[simp] theorem setJobState_step : (setJobState v s).step = s.step := by rw [setJobState_eq]
@[simp] theorem setJobState_out : (setJobState v s).out = s.out := by rw [setJobState_eq]
@[simp] theorem setJobState_census : (setJobState v s).census = s.census := by rw [setJobState_eq]

theorem jobState_setJobState (h : v < 16) : jobState (setJobState v s) = v := by
  have written : getF (setF s Reg.jobStatus 63 60 v) Reg.jobStatus 63 60 = v := by
    rw [getF_setF_same _ _ _ _ _ (by decide) (by decide)]
    exact Nat.mod_eq_of_lt h
  unfold jobState setJobState
  dsimp only
  split
  · exact written
  · rw [getF_setF_ne _ _ _ _ _ _ (by decide), written]

theorem getF_setJobState_other (hi lo : Nat) (h : hi < 60) :
    getF (setJobState v s) Reg.jobStatus hi lo = getF s Reg.jobStatus hi lo := by
  have kept : getF (setF s Reg.jobStatus 63 60 v) Reg.jobStatus hi lo = getF s Reg.jobStatus hi lo :=
    getF_setF_other _ _ _ _ _ _ _ (by decide) (by decide) (.inr h)
  unfold setJobState
  dsimp only
  split
  · exact kept
  · rw [getF_setF_ne _ _ _ _ _ _ (by decide), kept]

theorem rget_setJobState_ne {a : Nat} (status : a ≠ Reg.jobStatus) (limit : a ≠ Reg.watchdog) :
    rget (setJobState v s) a = rget s a := by
  unfold setJobState
  dsimp only
  split <;> simp [rget_setF_ne, status, limit]

theorem getF_setJobState_ne {a : Nat} (hi lo : Nat) (status : a ≠ Reg.jobStatus) (limit : a ≠ Reg.watchdog) :
    getF (setJobState v s) a hi lo = getF s a hi lo := by
  simp only [getF, rget_setJobState_ne v s status limit]

/-- A job that is READY or RUNNING keeps its `LIMIT`. -/
theorem rget_setJobState_limit (h : v = 2 ∨ v = 3) : rget (setJobState v s) Reg.watchdog = rget s Reg.watchdog := by
  simp only [setJobState, if_pos h]
  exact rget_setF_ne _ _ _ _ (by decide)

end

end Sys2Proof.Machine
end

