-- ==== Sys2Proof/Proofs/Validation.lean ====
section
/-! The decisions of job and Worksheet validation, and the statements of O11 and O12. -/

namespace Sys2Proof.Machine
open Sys2Proof.Stmt

/-! ## The job (03 R48) -/

/-- What validation writes of the state when it accepts a job, beyond the registers. -/
def acceptedJob (c : Checked) (s : State) : State :=
  { s with
    job := { s.job with header := c.h, curves := c.curves, windows := c.windows, lastAccepted := none }
    streams := c.streams, owned := [], views := []
    census := { s.census with scale := c.scales } }

theorem acceptJob_eq (c : Checked) {s : State} (h : s.job.haltWanted = false) :
    acceptJob c s =
      setInt .glb 0 8 (setJobState 2 (setF (acceptedJob c s) Reg.watchdog 31 0 (c.h.deadline * 3 / 2))) := by
  simp [acceptJob, acceptedJob, setJobState, h]

/-- An accepted job is READY, and holds what its checks returned. -/
theorem acceptJob_spec (c : Checked) {u : State} (h : u.job.haltWanted = false) :
    jobState (acceptJob c u) = 2 ∧ getB (acceptJob c u) (Reg.intStatus .glb 0) 8 = true ∧
      getF (acceptJob c u) Reg.watchdog 31 0 = c.h.deadline * 3 / 2 % 2 ^ 32 ∧
      (acceptJob c u).job.header = c.h ∧ (acceptJob c u).job.curves = c.curves ∧ (acceptJob c u).job.windows = c.windows ∧
      (acceptJob c u).streams = c.streams ∧ (acceptJob c u).census.scale = c.scales ∧ (acceptJob c u).owned = [] ∧
      (acceptJob c u).views = [] ∧ (acceptJob c u).hbm = u.hbm ∧ (acceptJob c u).step = u.step ∧
      (acceptJob c u).slot = u.slot := by
  have limit : getF (setJobState 2 (setF (acceptedJob c u) Reg.watchdog 31 0 (c.h.deadline * 3 / 2))) Reg.watchdog 31 0 =
      c.h.deadline * 3 / 2 % 2 ^ 32 := by
    rw [getF, rget_setJobState_limit _ _ (.inl rfl)]
    exact getF_setF_same _ _ _ _ _ (by decide) (by decide)
  rw [acceptJob_eq c h]
  refine ⟨?_, getB_setInt_same _ _ (by decide), ?_, ?_⟩
  · rw [jobState_setInt _ _ (by decide), jobState_setJobState _ _ (by decide)]
  · rw [getF_setInt_ne _ _ _ _ (by decide), limit]
  · rw [setJobState_eq]
    simp [acceptedJob]

/-- Word `i` of the validation report in the GLB page's error log (20 R434). -/
def reportWord (i v : Nat) (s : State) : State := rset s (Reg.errLog .glb 0 i) (BitVec.ofNat 64 v)

/-- The registers of a rejected job's report, before its state is shown. -/
def rejectLog (e : Bad) (s : State) : State :=
  reportWord 3 e.code (reportWord 2 (e.desc + e.num * 2 ^ 56) (reportWord 1 e.entry (reportWord 0 e.stream
    (setF s Reg.jobStatus 47 32 e.code))))

/-- The report, and no halt asked for. -/
def rejectedJob (e : Bad) (s : State) : State :=
  { rejectLog e s with job := { (rejectLog e s).job with haltWanted := false } }

theorem rejectJob_eq (e : Bad) (s : State) : rejectJob e s = setInt .glb 0 8 (setJobState 5 (rejectedJob e s)) := rfl

theorem rejectedJob_regs (e : Bad) (s : State) : (rejectedJob e s).regs = (rejectLog e s).regs := rfl

theorem rejectLog_error (e : Bad) (s : State) : getF (rejectLog e s) Reg.jobStatus 47 32 = e.code % 2 ^ 16 := by
  simp (disch := decide) only [rejectLog, reportWord, getF_rset_ne]
  exact getF_setF_same _ _ _ _ _ (by decide) (by decide)

theorem rejectLog_words (e : Bad) (s : State) :
    rget (rejectLog e s) (Reg.errLog .glb 0 0) = BitVec.ofNat 64 e.stream ∧
      rget (rejectLog e s) (Reg.errLog .glb 0 1) = BitVec.ofNat 64 e.entry ∧
      rget (rejectLog e s) (Reg.errLog .glb 0 2) = BitVec.ofNat 64 (e.desc + e.num * 2 ^ 56) ∧
      rget (rejectLog e s) (Reg.errLog .glb 0 3) = BitVec.ofNat 64 e.code := by
  simp (disch := decide) only [rejectLog, reportWord, rget_rset_ne, rget_rset_same, and_self]

theorem rget_rejectJob_ne (e : Bad) (u : State) {a : Nat} (int : a ≠ Reg.intStatus .glb 0) (status : a ≠ Reg.jobStatus)
    (limit : a ≠ Reg.watchdog) : rget (rejectJob e u) a = rget (rejectLog e u) a := by
  rw [rejectJob_eq, rget_setInt_ne _ _ int, rget_setJobState_ne _ _ status limit]
  exact rget_congr (rejectedJob_regs e u) a

theorem rejectJob_state (e : Bad) (u : State) :
    (rejectJob e u).streams = u.streams ∧ (rejectJob e u).owned = u.owned ∧ (rejectJob e u).hbm = u.hbm ∧
      (rejectJob e u).slot = u.slot := by
  rw [rejectJob_eq, setJobState_eq]
  simp [rejectedJob, rejectLog, reportWord]

theorem rejectJob_shows (e : Bad) (u : State) :
    jobState (rejectJob e u) = 5 ∧ getB (rejectJob e u) (Reg.intStatus .glb 0) 8 = true ∧
      getF (rejectJob e u) Reg.jobStatus 47 32 = e.code % 2 ^ 16 := by
  rw [rejectJob_eq]
  refine ⟨?_, getB_setInt_same _ _ (by decide), ?_⟩
  · rw [jobState_setInt _ _ (by decide), jobState_setJobState _ _ (by decide)]
  · rw [getF_setInt_ne _ _ _ _ (by decide), getF_setJobState_other _ _ _ _ (by decide)]
    rw [getF_congr (rejectedJob_regs e u), rejectLog_error]

/-- A rejected job shows the code and place of its failed check. -/
theorem rejectJob_spec (e : Bad) (u : State) :
    jobState (rejectJob e u) = 5 ∧ getB (rejectJob e u) (Reg.intStatus .glb 0) 8 = true ∧
      getF (rejectJob e u) Reg.jobStatus 47 32 = e.code % 2 ^ 16 ∧
      rget (rejectJob e u) (Reg.errLog .glb 0 0) = BitVec.ofNat 64 e.stream ∧
      rget (rejectJob e u) (Reg.errLog .glb 0 1) = BitVec.ofNat 64 e.entry ∧
      rget (rejectJob e u) (Reg.errLog .glb 0 2) = BitVec.ofNat 64 (e.desc + e.num * 2 ^ 56) ∧
      rget (rejectJob e u) (Reg.errLog .glb 0 3) = BitVec.ofNat 64 e.code ∧ (rejectJob e u).streams = u.streams ∧
      (rejectJob e u).owned = u.owned ∧ (rejectJob e u).hbm = u.hbm ∧ (rejectJob e u).slot = u.slot := by
  obtain ⟨stream, entry, place, code⟩ := rejectLog_words e u
  obtain ⟨state, event, error⟩ := rejectJob_shows e u
  refine ⟨state, event, error, ?_, ?_, ?_, ?_, rejectJob_state e u⟩
  · rw [rget_rejectJob_ne e u (by decide) (by decide) (by decide), stream]
  · rw [rget_rejectJob_ne e u (by decide) (by decide) (by decide), entry]
  · rw [rget_rejectJob_ne e u (by decide) (by decide) (by decide), place]
  · rw [rget_rejectJob_ne e u (by decide) (by decide) (by decide), code]

/-- Settles O11: the outcome of the checks decides between `acceptJob` and `rejectJob`, each read off its own specification. -/
theorem jobValidationDecides : Obligations.JobValidationDecides := by
  unfold Obligations.JobValidationDecides
  refine ⟨fun ph s validating free => ?_, fun ph s other => by simp [exec, execJobValidation, other]⟩
  rcases hr : (checkJob ph).run (trafficPhys none ph s) with ⟨outcome, u⟩
  cases outcome with
  | ok c =>
    refine ⟨acceptJob c u, by simp [exec, execJobValidation, validating, free, hr], ?_⟩
    exact acceptJob_spec c
  | error e =>
    refine ⟨rejectJob e u, by simp [exec, execJobValidation, validating, free, hr], ?_⟩
    exact rejectJob_spec e u

/-! ## The Worksheet (03 R63) -/

/-- The state in which an accepted step waits in its slot. -/
def heldStep (p : PendingStep) (ws : Worksheet) (s : State) : State :=
  { s with slot := some { p with ws := some ws }, job := { s.job with lastAccepted := some ws.step } }

/-- Nothing runs and no card waits, so that a validated step leaves its slot at once (16 R371). -/
abbrev MayLeave (u : State) : Prop :=
  u.next = none ∧ u.step.active = false ∧ u.cards = [] ∧ (jobState u = 2 ∨ jobState u = 3)

theorem acceptStep_leaves (p : PendingStep) (ws : Worksheet) {u : State} (h : MayLeave u) :
    acceptStep p ws u = freeSlot { heldStep p ws u with next := some ws } := if_pos h

theorem acceptStep_waits (p : PendingStep) (ws : Worksheet) {u : State} (h : ¬ MayLeave u) :
    acceptStep p ws u = heldStep p ws u := if_neg h

/-- An accepted step is the last accepted one; it leaves the slot if nothing stands before it. -/
theorem acceptStep_spec (p : PendingStep) (ws : Worksheet) (u : State) :
    (acceptStep p ws u).job.lastAccepted = some ws.step ∧ (acceptStep p ws u).cards = u.cards ∧
      ((MayLeave u ∧ (acceptStep p ws u).next = some ws ∧ (acceptStep p ws u).slot = none ∧
          getB (acceptStep p ws u) Reg.dbStatus 63 = false) ∨
        (¬ MayLeave u ∧ (acceptStep p ws u).next = u.next ∧ (acceptStep p ws u).slot = some { p with ws := some ws } ∧
          (acceptStep p ws u).regs = u.regs)) := by
  by_cases h : MayLeave u
  · rw [acceptStep_leaves p ws h]
    exact ⟨rfl, rfl, .inl ⟨h, rfl, rfl, getB_setB_same _ _ _ _ (by decide)⟩⟩
  · rw [acceptStep_waits p ws h]
    exact ⟨rfl, rfl, .inr ⟨h, rfl, rfl, rfl⟩⟩

/-- Settles O12: the outcome of the checks decides between `acceptStep` and `rejectStep`, unless the slot changed meanwhile. -/
theorem worksheetValidationDecides : Obligations.WorksheetValidationDecides := by
  unfold Obligations.WorksheetValidationDecides
  refine ⟨fun ph s p held fresh open_ => ?_, fun ph s judged => ?_⟩
  · rcases hr : (checkSheet ph p.word).run (trafficPhys none ph s) with ⟨outcome, u⟩
    refine ⟨settleSheet p (outcome, u), by simp [exec, execWorksheetValidation, held, fresh, open_, hr], ?_⟩
    cases outcome with
    | ok ws =>
      by_cases same : u.slot = some p
      · have settled : settleSheet p (.ok ws, u) = acceptStep p ws u := by simp [settleSheet, same]
        simp only [settled, same, ne_eq, not_true_eq_false, false_implies, true_and]
        intro _
        obtain ⟨last, cards, ⟨⟨a, b, c, d⟩, next, slot, free⟩ | stays⟩ := acceptStep_spec p ws u
        · exact ⟨last, cards, .inl ⟨a, b, c, d, next, slot, free⟩⟩
        · exact ⟨last, cards, .inr stays⟩
      · simp [settleSheet, same]
    | error e => simp [settleSheet, rejectStep, queueCard]
  · cases held : s.slot with
    | none => simp [exec, execWorksheetValidation, held]
    | some p => simpa [exec, execWorksheetValidation, held] using fun a b => absurd (judged p held) (by simp [a, b])

end Sys2Proof.Machine
end

