-- ==== Sys2Proof/Proofs/IssuedEntries.lean ====
section
/-! SUPPORT. The stream table, the change of one entry in flight, and what the issue of an entry comes to. -/

namespace Sys2Proof.Machine
open Sys2Proof.Stmt

/-! ## The stream table -/

theorem streamAt_congr {s t : State} (h : t.streams = s.streams) (i : Nat) : streamAt t i = streamAt s i := by
  simp only [streamAt, h]

theorem streamAt_setStream_same {s : State} {i : Nat} {x : Stream} (h : streamAt s i = some x) (y : Stream) :
    streamAt (setStream i y s) i = some y := by
  obtain ⟨inside, -⟩ := List.getElem?_eq_some_iff.1 h
  simp [streamAt, setStream, List.getElem?_set_self inside]

theorem streamAt_setStream_ne (s : State) {i j : Nat} (y : Stream) (h : j ≠ i) :
    streamAt (setStream i y s) j = streamAt s j := List.getElem?_set_ne h.symm

@[simp] theorem setStream_setStream (i : Nat) (x y : Stream) (s : State) :
    setStream i y (setStream i x s) = setStream i y s := by simp [setStream]

theorem modStream_of_streamAt {s : State} {i : Nat} {x : Stream} (h : streamAt s i = some x) (f : Stream → Stream) :
    modStream i f s = setStream i (f x) s := by simp [modStream, h]

/-- A stream with its flights of entry `idx` changed. -/
def Stream.mapFlights (idx : Nat) (g : Flight → Flight) (x : Stream) : Stream :=
  { x with inflight := x.inflight.map fun f => if f.idx = idx then g f else f }

theorem modFlight_eq (st idx : Nat) (g : Flight → Flight) (s : State) :
    modFlight st idx g s = modStream st (Stream.mapFlights idx g) s := rfl

theorem modFlight_of_streamAt {s : State} {i : Nat} {x : Stream} (h : streamAt s i = some x) (idx : Nat) (g : Flight → Flight) :
    modFlight i idx g s = setStream i (x.mapFlights idx g) s := by
  rw [modFlight_eq, modStream_of_streamAt h]

theorem Stream.nextOp_eq {x : Stream} {e : Entry} (h : x.next? = some e) : x.nextOp = e.op := by
  simp only [Stream.nextOp, h, Entry.op]

/-! ## The issue of an entry (03 R50) -/

/-- The entry that stream `x` issues, in flight. -/
abbrev launchOf (s : State) (x : Stream) (e : Entry) (ph : List Phys) : Stream :=
  launch x (issueFlight s x e x.slotNow (slotVoid s x.slotNow) ph)

/-- The state in which an entry has issued and its effect has not run. -/
def launched (st : Nat) (x : Stream) (e : Entry) (ph : List Phys) (s : State) : State :=
  gateIssue e (setStream st (launchOf s x e ph) (markMixed e x.slotNow (slotVoid s x.slotNow) s))

/-- The context of the entry that stream `x` issues. -/
abbrev ctxNow (s : State) (st : Nat) (x : Stream) (e : Entry) (ph : List Phys) : Ctx :=
  ctxOf s st x x.pos e x.slotNow (slotVoid s x.slotNow) ph

/-- An entry that may issue is launched, and its effect runs in its turn. -/
theorem issue_of_stands {st : Nat} {x : Stream} {e : Entry} {s : State} (h : Stands st x e s) {ok : Entry → Bool}
    (admitted : ok e = true) (ph : List Phys) (eff : Ctx → Run → Run) :
    issue st ok ph eff s =
      if x.turn x.pos then settleRun (ctxNow s st x e ph) (eff (ctxNow s st x e ph) { s := launched st x e ph s })
          (launched st x e ph s)
      else launched st x e ph s := by
  obtain ⟨hx, he, runs, barrier, may⟩ := h
  simp only [issue, hx, he, runs, barrier, admitted, may, Bool.and_self, if_true]
  rfl

/-- The stream of an entry that has issued, however its entry in flight then changes but for its index, slot and void. -/
theorem launched_mapFlights (s : State) (x : Stream) (e : Entry) (ph : List Phys) {g : Flight → Flight}
    (keeps : ∀ f, (g f).idx = f.idx ∧ (g f).slot = f.slot ∧ (g f).voided = f.voided) :
    Launched s x ((launchOf s x e ph).mapFlights x.pos g) := by
  refine ⟨rfl, rfl, rfl, rfl, rfl, rfl, rfl, by simp [Stream.mapFlights, launch], ?_⟩
  obtain ⟨idx, slot, voided⟩ := keeps (issueFlight s x e x.slotNow (slotVoid s x.slotNow) ph)
  refine ⟨g (issueFlight s x e x.slotNow (slotVoid s x.slotNow) ph), ?_, idx, slot, voided⟩
  simp [Stream.mapFlights, launch, issueFlight, flightOf]

theorem launched_launchOf (s : State) (x : Stream) (e : Entry) (ph : List Phys) : Launched s x (launchOf s x e ph) := by
  have same := launched_mapFlights s x e ph (g := id) fun _ => ⟨rfl, rfl, rfl⟩
  simpa [Stream.mapFlights] using same

end Sys2Proof.Machine
end

