-- ==== Sys2Proof/Proofs/ControlEntries.lean ====
section
/-! The control entries, the start of a step and its set phase, and the statements of O13 and O14. -/

namespace Sys2Proof.Machine
open Sys2Proof.Stmt

/-! ## Entries without an effect (03 R50) -/

theorem mixes_of_control {e : Entry} (h : e.op < 0x10) : mixes e.op = false := by
  simp only [mixes, List.contains_eq_mem, decide_eq_false_iff_not, List.mem_cons, List.not_mem_nil, or_false]
  omega

theorem isGate_of_control {e : Entry} (h : e.op < 0x10) : isGate e = false := by
  have notColl : isColl e = false := by simp only [isColl, decide_eq_false_iff_not]; omega
  simp [isGate, notColl]

/-- A control entry that issues changes its stream alone. -/
theorem launched_control (st : Nat) (x : Stream) {e : Entry} (h : e.op < 0x10) (ph : List Phys) (s : State) :
    launched st x e ph s = setStream st (launchOf s x e ph) s := by
  have mixed : markMixed e x.slotNow (slotVoid s x.slotNow) s = s := by
    unfold markMixed
    split <;> simp [mixes_of_control h]
  simp [launched, gateIssue, isGate_of_control h, mixed]

theorem noteUpdate_control (st idx : Nat) {e : Entry} (h : e.op < 0x10) (s : State) : noteUpdate st idx e s = s := by
  have low : ¬ 0x10 ≤ e.op := by omega
  unfold noteUpdate
  split <;> simp [low]

/-- The mark of an entry in flight that has run and waits for no access. -/
def Flight.finish (f : Flight) : Flight := { f with ran := true, waiting := 0, done := true }

/-- The stream after a control entry: its entry is in flight, and done if its turn has come. -/
def controlled (s : State) (x : Stream) (e : Entry) (ph : List Phys) : Stream :=
  if x.turn x.pos then (launchOf s x e ph).mapFlights x.pos Flight.finish else launchOf s x e ph

/-- A control entry issues, and changes its stream alone. -/
theorem issue_control {st : Nat} {x : Stream} {e : Entry} {s : State} (h : Stands st x e s) {ok : Entry → Bool}
    (admitted : ok e = true) (low : e.op < 0x10) (ph : List Phys) :
    issue st ok ph noEffect s = setStream st (controlled s x e ph) s := by
  have there : streamAt (setStream st (launchOf s x e ph) s) st = some (launchOf s x e ph) := streamAt_setStream_same h.1 _
  rw [issue_of_stands h admitted, launched_control st x low]
  unfold controlled
  split
  · simp only [settleRun, noEffect, ctxOf, Bool.false_eq_true, if_false, if_true, List.foldl_nil, noteUpdate_control _ _ low,
      modFlight_of_streamAt there, setStream_setStream]
    rfl
  · rfl

theorem launched_controlled (s : State) (x : Stream) (e : Entry) (ph : List Phys) :
    Launched s x (controlled s x e ph) := by
  unfold controlled
  split
  · exact launched_mapFlights s x e ph fun _ => ⟨rfl, rfl, rfl⟩
  · exact launched_launchOf s x e ph

@[simp] theorem controlled_pos (s : State) (x : Stream) (e : Entry) (ph : List Phys) :
    (controlled s x e ph).pos = x.pos + 1 := (launched_controlled s x e ph).1

@[simp] theorem controlled_seg (s : State) (x : Stream) (e : Entry) (ph : List Phys) :
    (controlled s x e ph).seg = x.seg := by
  unfold controlled
  split <;> rfl

theorem controlled_done {s : State} {x : Stream} (turn : InTurn x) (e : Entry) (ph : List Phys) :
    ∃ f ∈ (controlled s x e ph).inflight, f.idx = x.pos ∧ f.done = true := by
  have shown : controlled s x e ph = (launchOf s x e ph).mapFlights x.pos Flight.finish := if_pos turn
  refine ⟨(issueFlight s x e x.slotNow (slotVoid s x.slotNow) ph).finish, ?_, rfl, rfl⟩
  rw [shown]
  simp [Stream.mapFlights, launch, issueFlight, flightOf]

theorem hasIssued_setStream {s u : State} {st : Nat} {x y : Stream} (before : streamAt s st = some x)
    (after : streamAt u st = some y) (h : y.pos = x.pos + 1) : hasIssued s u st = true := by
  simp [hasIssued, before, after, h]

/-! ## SEGMENT and UPDATE_BEGIN (03 R52, R54) -/

theorem execSegment_selected {st : Nat} {x : Stream} {e : Entry} {s : State} (h : Stands st x e s) (op : e.op = 2)
    (sel : selected s.step.ws e = true) :
    execSegment st s =
      .next (setStream st { controlled s x e [] with seg := some (e.mbSlot, x.pos + 1 + e.skipLen) } s) := by
  have issued := issue_control h (ok := fun e => e.op == 2) (by simp [op]) (by omega) []
  obtain ⟨hx, he, runs, barrier, -⟩ := h
  have there := streamAt_setStream_same hx (controlled s x e [])
  simp [execSegment, hx, he, runs, barrier, op, sel, issued, hasIssued_setStream hx there, modStream_of_streamAt there]

theorem postSecuring_of_released {s : State} (h : secReleased s = true) : postSecuring s = postSys 0x7F02 s := if_pos h

theorem postSys_eq (p : Nat) (s : State) : postSys p s = { s with step := (postSys p s).step } := by
  unfold postSys
  split <;> rfl

theorem mem_sysPasses_postSys (p : Nat) (s : State) : p ∈ (postSys p s).step.sysPasses := by
  unfold postSys
  split
  · next h => simpa using h
  · simp

/-- The running step with pass `p` posted. -/
theorem postSys_step (p : Nat) (s : State) :
    (postSys p s).step = { s.step with sysPasses := (postSys p s).step.sysPasses } := by
  unfold postSys
  split <;> rfl

theorem stepRuns_postSys (p : Nat) (s : State) : stepRuns (postSys p s) = stepRuns s := by
  rw [stepRuns, stepRuns, postSys_step]

theorem streamAt_postSys (p : Nat) (s : State) (i : Nat) : streamAt (postSys p s) i = streamAt s i := by
  rw [postSys_eq]; rfl

theorem launched_postSys (p : Nat) {s : State} {x y : Stream} (h : Launched (postSys p s) x y) : Launched s x y := by
  have void : slotVoid (postSys p s) x.slotNow = slotVoid s x.slotNow := by rw [postSys_eq]; rfl
  rw [Launched, void] at h
  exact h

theorem stands_postSys {st : Nat} {x : Stream} {e : Entry} {s : State} (h : Stands st x e s) (p : Nat) :
    Stands st x e (postSys p s) := by
  obtain ⟨hx, he, runs, barrier, may⟩ := h
  refine ⟨?_, he, ?_, ?_, may⟩
  · rw [streamAt_postSys, hx]
  · rw [stepRuns_postSys, runs]
  · rw [postSys_step, barrier]

theorem execUpdateBegin_open {st : Nat} {x : Stream} {e : Entry} {s : State} (h : Stands st x e s) (op : e.op = 3)
    (decided : s.step.decided = true) (released : secReleased s = true) (gate : s.step.gateOpen = true) :
    execUpdateBegin st s =
      .next (setStream st { controlled (postSys 0x7F02 s) x e [] with afterUpdate := true } (postSys 0x7F02 s)) := by
  have issued := issue_control (stands_postSys h 0x7F02) (ok := fun e => e.op == 3) (by simp [op]) (by omega) []
  obtain ⟨hx, he, runs, barrier, -⟩ := h
  have posted : streamAt (postSys 0x7F02 s) st = some x := by rw [streamAt_postSys, hx]
  have there := streamAt_setStream_same posted (controlled (postSys 0x7F02 s) x e [])
  simp [execUpdateBegin, hx, Stream.nextOp_eq he, runs, barrier, op, decided, released, gate, postSecuring_of_released, issued,
    hasIssued_setStream hx there, modStream_of_streamAt there]

theorem execUpdateBegin_closed {st : Nat} {x : Stream} {e : Entry} {s : State} (hx : streamAt s st = some x)
    (he : x.next? = some e) (op : e.op = 3) (runs : stepRuns s = true) (barrier : s.step.setOpen = true)
    (decided : s.step.decided = true) (released : secReleased s = true) (gate : s.step.gateOpen = false) :
    execUpdateBegin st s = .next (setStream st (moveTo (x.entries.length - 1) x) (postSys 0x7F02 s)) := by
  simp [execUpdateBegin, hx, Stream.nextOp_eq he, runs, barrier, op, decided, released, gate, postSecuring_of_released]

theorem execUpdateBegin_waits (st : Nat) {s : State} (h : s.step.decided = false ∨ secReleased s = false) :
    execUpdateBegin st s = .next s := by
  unfold execUpdateBegin
  split
  · rcases h with h | h <;> simp [h]
  · rfl

/-- Replacing one stream changes neither another stream nor the rest of the state. -/
theorem setStream_frame (st : Nat) (y : Stream) (s : State) :
    (∀ i, i ≠ st → streamAt (setStream st y s) i = streamAt s i) ∧
      setStream st y s = { s with streams := (setStream st y s).streams } :=
  ⟨fun _ other => streamAt_setStream_ne s y other, rfl⟩

/-- The same with pass `p` posted. -/
theorem setStream_postSys_frame (st p : Nat) (y : Stream) (s : State) :
    p ∈ (setStream st y (postSys p s)).step.sysPasses ∧
      (∀ i, i ≠ st → streamAt (setStream st y (postSys p s)) i = streamAt s i) ∧
      setStream st y (postSys p s) =
        { s with streams := (setStream st y (postSys p s)).streams, step := (setStream st y (postSys p s)).step } := by
  refine ⟨mem_sysPasses_postSys p s, fun i other => ?_, ?_⟩
  · rw [streamAt_setStream_ne _ _ other, streamAt_postSys]
  · unfold postSys
    split <;> rfl

/-- Settles O14, entry by entry: an entry that issues does so by `issue_control`, and the others move or stop their stream. -/
theorem controlEntriesMoveTheirStream : Obligations.ControlEntriesMoveTheirStream := by
  unfold Obligations.ControlEntriesMoveTheirStream
  refine ⟨?nop, ?selected, ?skipped, fun st s waits => execUpdateBegin_waits st waits, ?opened, ?closed, ?stepEnd⟩
  case nop =>
    intro st ph x e s h turn op
    have issued := issue_control h (ok := fun e => e.op == 0) (by simp [op]) (by omega) ph
    refine ⟨setStream st (controlled s x e ph) s, _, congrArg _ issued, streamAt_setStream_same h.1 _, launched_controlled s x e ph, controlled_seg s x e ph,
      controlled_done turn e ph, setStream_frame _ _ _⟩
  case selected =>
    intro st x e s h op sel
    exact ⟨_, _, execSegment_selected h op sel, streamAt_setStream_same h.1 _, launched_controlled s x e [], rfl,
      setStream_frame _ _ _⟩
  case skipped =>
    intro st x e s hx he op runs barrier unselected
    refine ⟨setStream st (moveTo (x.pos + 1 + e.skipLen) x) s, _, ?_, streamAt_setStream_same hx _, rfl, rfl, rfl, rfl, rfl, rfl,
      setStream_frame _ _ _⟩
    simp [exec, execSegment, hx, he, op, runs, barrier, unselected]
  case opened =>
    intro st x e s h op decided released gate
    have there : streamAt (postSys 0x7F02 s) st = some x := by rw [streamAt_postSys, h.1]
    exact ⟨_, _, execUpdateBegin_open h op decided released gate, streamAt_setStream_same there _,
      launched_postSys _ (launched_controlled _ x e []), rfl, setStream_postSys_frame _ _ _ _⟩
  case closed =>
    intro st x e s hx he op runs barrier decided released gate
    have there : streamAt (postSys 0x7F02 s) st = some x := by rw [streamAt_postSys, hx]
    exact ⟨_, _, execUpdateBegin_closed hx he op runs barrier decided released gate, streamAt_setStream_same there _, rfl, rfl,
      rfl, rfl, setStream_postSys_frame _ _ _ _⟩
  case stepEnd =>
    intro st x e s hx he op runs barrier
    refine ⟨setStream st { x with atEnd := true } s, ?_, streamAt_setStream_same hx _, setStream_frame _ _ _⟩
    simp [exec, execStepEnd, hx, Stream.nextOp_eq he, op, runs, barrier]

/-! ## The start of a step (03 R53) -/

/-- The registers of a step that begins. -/
def startRegs (ws : Worksheet) (s : State) : State :=
  rset (rset (setJobState 3 (setF (setF (clearGate s) Reg.watchdog 63 32 0) Reg.jobStatus 31 0 ws.step)) Reg.slotVoid 0)
    Reg.slotMixed 0

theorem startRegs_eq (ws : Worksheet) (s : State) : startRegs ws s = { s with regs := (startRegs ws s).regs } := by
  unfold startRegs
  rw [setJobState_eq]
  rfl

theorem jobState_startRegs (ws : Worksheet) (s : State) : jobState (startRegs ws s) = 3 := by
  rw [jobState, startRegs, getF_rset_ne _ _ _ _ (by decide), getF_rset_ne _ _ _ _ (by decide)]
  exact jobState_setJobState _ _ (by decide)

theorem step_startRegs (ws : Worksheet) (s : State) : getF (startRegs ws s) Reg.jobStatus 31 0 = ws.step % 2 ^ 32 := by
  rw [startRegs, getF_rset_ne _ _ _ _ (by decide), getF_rset_ne _ _ _ _ (by decide), getF_setJobState_other _ _ _ _ (by decide),
    getF_setF_same _ _ _ _ _ (by decide) (by decide)]

theorem elapsed_startRegs (ws : Worksheet) (s : State) : getF (startRegs ws s) Reg.watchdog 63 32 = 0 := by
  rw [startRegs, getF_rset_ne _ _ _ _ (by decide), getF_rset_ne _ _ _ _ (by decide), getF,
    rget_setJobState_limit _ _ (.inr rfl), ← getF, getF_setF_ne _ _ _ _ _ _ (by decide),
    getF_setF_same _ _ _ _ _ (by decide) (by decide), Nat.zero_mod]

theorem slots_startRegs (ws : Worksheet) (s : State) :
    rget (startRegs ws s) Reg.slotVoid = 0 ∧ rget (startRegs ws s) Reg.slotMixed = 0 :=
  ⟨by rw [startRegs, rget_rset_ne _ _ (by decide), rget_rset_same], rget_rset_same _ _ _⟩

/-- The state of a step that begins, before its markers leave and its breach of the floor is noted. -/
def begunStep (ws : Worksheet) (s : State) : State :=
  { startRegs ws s with
    next := none
    step := { active := true, ws := ws, maskA := ws.expectA, maskB := ws.expectB, maskC := ws.expectC,
              rateMin := rateNow (startRegs ws s) }
    streams := (startRegs ws s).streams.map openStream
    job := { (startRegs ws s).job with stepStarted := true }
    census := { (startRegs ws s).census with counts := [], totals := {} }
    views := (startRegs ws s).views.foldl (fun m v => cellSet noView m v.1 { v.2 with attached := false })
      (startRegs ws s).views }

theorem startStep_def (ws : Worksheet) (s : State) :
    startStep ws s =
      postSecuring ([0, 1, 2].foldl readyRing (noteBreach (rateNow (begunStep ws s)) (begunStep ws s))) := rfl

theorem readyRing_eq (s : State) (r : Nat) : readyRing s r = { s with rings := (readyRing s r).rings } := by
  unfold readyRing
  split <;> rfl

theorem readyRings_eq (l : List Nat) (s : State) : l.foldl readyRing s = { s with rings := (l.foldl readyRing s).rings } := by
  induction l generalizing s with
  | nil => rfl
  | cons r l ih => rw [List.foldl_cons, ih, readyRing_eq]

theorem postSecuring_eq (s : State) :
    postSecuring s = { s with step := { s.step with sysPasses := (postSecuring s).step.sysPasses } } := by
  unfold postSecuring
  split
  · rw [← postSys_step, ← postSys_eq]
  · rfl

/-- A step that begins is the begun step, with its markers queued, its breach noted and pass 0x7F02 posted where it holds. -/
theorem startStep_eq (ws : Worksheet) (s : State) :
    startStep ws s = { begunStep ws s with
      rings := (startStep ws s).rings
      step := { (begunStep ws s).step with
        floorBreach := (startStep ws s).step.floorBreach, sysPasses := (startStep ws s).step.sysPasses } } := by
  rw [startStep_def, postSecuring_eq, readyRings_eq, noteBreach_of_active rfl]

theorem startStep_spec (ws : Worksheet) (s : State) :
    (startStep ws s).regs = (startRegs ws s).regs ∧ (startStep ws s).next = none ∧ (startStep ws s).step.active = true ∧
      (startStep ws s).step.ws = ws ∧ (startStep ws s).step.maskA = ws.expectA ∧ (startStep ws s).step.maskB = ws.expectB ∧
      (startStep ws s).step.maskC = ws.expectC ∧ (startStep ws s).step.setOpen = false ∧ (startStep ws s).step.departed = 0 ∧
      (startStep ws s).step.dropped = 0 ∧ (startStep ws s).streams = s.streams.map openStream ∧
      (startStep ws s).passes = s.passes ∧ (startStep ws s).hbm = s.hbm ∧ (startStep ws s).sp = s.sp ∧
      (startStep ws s).slot = s.slot ∧ (startStep ws s).cards = s.cards ∧ (startStep ws s).stash = s.stash := by
  rw [startStep_eq, begunStep, startRegs_eq]
  exact ⟨rfl, rfl, rfl, rfl, rfl, rfl, rfl, rfl, rfl, rfl, rfl, rfl, rfl, rfl, rfl, rfl, rfl⟩

/-! ## The set phase -/

/-- The stream after a `PASS_SET`. -/
def afterSet (x : Stream) : Stream := { moveTo (x.pos + 1) x with setDone := (moveTo (x.pos + 1) x).nextOp != 1 }

theorem execPassSet_spec {st : Nat} {x : Stream} {e : Entry} {s : State} (hx : streamAt s st = some x)
    (he : x.next? = some e) (op : e.op = 1) (runs : stepRuns s = true) (barrier : s.step.setOpen = false) :
    execPassSet st s = .next (setPass e.postPass e.postCount (setStream st (afterSet x) s)) := by
  simp [execPassSet, hx, he, op, runs, barrier, afterSet]

theorem passCount_setPass_same (p n : Nat) (s : State) : passCount (setPass p n s) p = n := by
  simp [passCount, setPass, cellGet_set_same]

theorem passCount_setPass_ne {p q : Nat} (n : Nat) (s : State) (h : q ≠ p) :
    passCount (setPass p n s) q = passCount s q := by
  simp [passCount, setPass, cellGet_set_ne, h]

theorem execSetPhaseComplete_spec {s : State} (runs : stepRuns s = true) (barrier : s.step.setOpen = false)
    (finished : ∀ x ∈ s.streams, x.setDone = true) :
    execSetPhaseComplete s = .next (postSys 0x7F00 { s with step := { s.step with setOpen := true } }) := by
  have all : s.streams.all (·.setDone) = true := List.all_eq_true.2 finished
  simp [execSetPhaseComplete, runs, barrier, all]

/-- Settles O13: `startStep_spec`, and the two commands of the set phase. -/
theorem stepStartOpensStep : Obligations.StepStartOpensStep := by
  unfold Obligations.StepStartOpensStep
  refine ⟨?start, ?set, ?complete⟩
  case start =>
    intro s ws next idle cards state
    obtain ⟨regs, next', active, sheet, a, b, c, barrier, departed, dropped, streams, passes, hbm, sp, slot, cards', stash⟩ :=
      startStep_spec ws s
    obtain ⟨void, mixed⟩ := slots_startRegs ws s
    refine ⟨startStep ws s, by simp [exec, execStepStart, next, idle, cards, state], ?_, ?_, next', active, sheet, a, b, c, barrier,
      departed, dropped, ?_, ?_, ?_, streams, passes, hbm, sp, slot, cards'.trans cards, stash⟩
    · rw [jobState, getF_congr regs, ← jobState, jobState_startRegs]
    · rw [getF_congr regs, step_startRegs]
    · rw [rget_congr regs, void]
    · rw [rget_congr regs, mixed]
    · rw [getF_congr regs, elapsed_startRegs]
  case set =>
    intro st x e s hx he op runs barrier
    exact ⟨_, afterSet x, execPassSet_spec hx he op runs barrier, streamAt_setStream_same hx _, rfl, rfl, rfl, rfl,
      passCount_setPass_same _ _ _, fun p other => passCount_setPass_ne _ _ other,
      fun i other => streamAt_setStream_ne s _ other, rfl⟩
  case complete =>
    intro s runs barrier finished
    refine ⟨_, execSetPhaseComplete_spec runs barrier finished, ?_, mem_sysPasses_postSys _ _, ?_⟩
    · rw [postSys_step]
    · unfold postSys
      split <;> exact ⟨rfl, rfl, rfl, rfl⟩

end Sys2Proof.Machine
end

