-- ==== Sys2Proof/Proofs/HbmFrame.lean ====
section
/-! SUPPORT. FRAME. What no access to HBM changes: every part of the state but registers, outputs, the lines themselves, the crossings and
the bookkeeping of errors, and of the registers those of the GLB page. -/

namespace Sys2Proof.Machine

/-! ## The GLB page's registers -/

theorem le_reg_of_ne_glb {t : Blk} (h : t ≠ .glb) (i off : Nat) : 0x2000000 ≤ reg t i off := by
  have code : 1 ≤ blkCode t := by cases t <;> simp_all [blkCode]
  unfold reg
  omega

/-- The registers below the first page behind GLB's. -/
def glbRegs (s : State) (a : Nat) : W64 := if a < 0x2000000 then rget s a else 0

theorem glbRegs_rset_of_le {a : Nat} (h : 0x2000000 ≤ a) (s : State) (v : W64) : glbRegs (rset s a v) = glbRegs s := by
  funext b
  unfold glbRegs
  split
  · rw [rget_rset_ne _ _ (by omega)]
  · rfl

theorem rget_of_glbRegs {s t : State} (h : glbRegs t = glbRegs s) {a : Nat} (low : a < 0x2000000) : rget t a = rget s a := by
  simpa [glbRegs, low] using congrFun h a

/-! ## The frame -/

/-- The state without what an access to HBM may change, the registers apart. -/
def offHbm (s : State) : State :=
  { s with regs := [], out := [], hbm := [], chk := [], mended := [], crossings := [], ueGroups := [], free := 0
           step := { s.step with corrected := 0 } }

/-- What every access to HBM leaves as it is. -/
def hbmFrame (s : State) : State × (Nat → W64) := (offHbm s, glbRegs s)

theorem hbmFrame_congr {s t : State} (state : offHbm t = offHbm s) (regs : t.regs = s.regs) : hbmFrame t = hbmFrame s :=
  Prod.ext state (funext fun a => by simp [hbmFrame, glbRegs, rget_congr regs])

@[simp] theorem ite_hbmFrame (p : Prop) [Decidable p] (s t : State) :
    hbmFrame (if p then s else t) = if p then hbmFrame s else hbmFrame t := apply_ite hbmFrame p s t

variable (s : State)

theorem hbmFrame_rset {a : Nat} (h : 0x2000000 ≤ a) (v : W64) : hbmFrame (rset s a v) = hbmFrame s :=
  Prod.ext (by simp [hbmFrame, offHbm]) (glbRegs_rset_of_le h s v)

theorem hbmFrame_setB {a : Nat} (h : 0x2000000 ≤ a) (b : Nat) (v : Bool) : hbmFrame (setB s a b v) = hbmFrame s :=
  hbmFrame_rset s h _

theorem hbmFrame_incMod {a : Nat} (h : 0x2000000 ≤ a) (hi lo n : Nat) : hbmFrame (incMod s a hi lo n) = hbmFrame s :=
  hbmFrame_rset s h _

theorem hbmFrame_incSat {a : Nat} (h : 0x2000000 ≤ a) (hi lo n : Nat) : hbmFrame (incSat s a hi lo n) = hbmFrame s :=
  hbmFrame_rset s h _

theorem hbmFrame_errCount {t : Blk} (h : t ≠ .glb) (i n : Nat) : hbmFrame (errCount t i n s) = hbmFrame s :=
  hbmFrame_rset s (le_reg_of_ne_glb h i _) _

theorem hbmFrame_setInt {t : Blk} (h : t ≠ .glb) (i b : Nat) : hbmFrame (setInt t i b s) = hbmFrame s := by
  have raised : glbRegs (setB s (Reg.intStatus t i) b true) = glbRegs s :=
    glbRegs_rset_of_le (le_reg_of_ne_glb h i 0x020) s _
  have shown : glbRegs (setInt t i b s) = glbRegs (setB s (Reg.intStatus t i) b true) :=
    funext fun a => by simp only [glbRegs, rget_setInt]
  exact Prod.ext (by simp [hbmFrame, offHbm]) (shown.trans raised)

@[simp] theorem hbmFrame_alert (code : Nat) : hbmFrame (alert code s) = hbmFrame s := hbmFrame_congr rfl rfl

@[simp] theorem hbmFrame_countCorrected (n : Nat) : hbmFrame (countCorrected n s) = hbmFrame s := by
  unfold countCorrected
  split
  · exact hbmFrame_congr rfl rfl
  · rfl

@[simp] theorem hbmFrame_takeFree : hbmFrame (takeFree s).2 = hbmFrame s := hbmFrame_congr rfl rfl

@[simp] theorem hbmFrame_freeBytes (n : Nat) : hbmFrame (freeBytes n s).2 = hbmFrame s := by
  induction n generalizing s with
  | zero => rfl
  | succ n ih => exact (ih _).trans (hbmFrame_takeFree s)

@[simp] theorem hbmFrame_touchLine (line : Nat) : hbmFrame (touchLine line s) = hbmFrame s := by
  unfold touchLine
  split
  · rfl
  · rw [touchCrossing_eq]
    exact hbmFrame_congr rfl rfl

@[simp] theorem hbmFrame_putLine (line : Nat) (data chk : List Byte) : hbmFrame (putLine s line data chk) = hbmFrame s :=
  (hbmFrame_congr rfl rfl).trans (hbmFrame_touchLine s line)

/-- A register of a pseudo-channel lies behind the GLB page. -/
theorem le_hbc (i off : Nat) : 0x2000000 ≤ reg .hbc i off := le_reg_of_ne_glb (by decide) i off

@[simp] theorem hbmFrame_countOde (i : Nat) : hbmFrame (incMod s (Reg.hbcOde i) 47 0 1) = hbmFrame s :=
  hbmFrame_incMod s (le_hbc i _) _ _ _

@[simp] theorem hbmFrame_countUe (i : Nat) : hbmFrame (errCount .hbc i 1 (incMod s (Reg.hbcUe i) 47 0 1)) = hbmFrame s := by
  rw [hbmFrame_errCount _ (by decide)]
  exact hbmFrame_incMod s (le_hbc i _) _ _ _

@[simp] theorem hbmFrame_countAct (i : Nat) : hbmFrame (errCount .hbc i 1 (incMod s (Reg.hbcAct i) 47 0 1)) = hbmFrame s := by
  rw [hbmFrame_errCount _ (by decide)]
  exact hbmFrame_incMod s (le_hbc i _) _ _ _

@[simp] theorem hbmFrame_hbcCorrection (i : Nat) : hbmFrame (hbcCorrection i s) = hbmFrame s := by
  have counted : hbmFrame (countCorrected 1 (incSat (incMod s (Reg.hbcCe i) 47 0 1) (Reg.hbcCeLimit i) 62 32 1)) =
      hbmFrame s := by
    rw [hbmFrame_countCorrected, hbmFrame_incSat (a := Reg.hbcCeLimit i) _ (le_hbc i _),
      hbmFrame_incMod (a := Reg.hbcCe i) _ (le_hbc i _)]
  unfold hbcCorrection
  dsimp only
  split
  · rw [hbmFrame_alert, hbmFrame_setInt _ (by decide), counted]
  · exact counted

@[simp] theorem hbmFrame_hbcLog (p : Place) (kind cls rgn : Nat) (who : Reader) :
    hbmFrame (hbcLog p kind cls rgn who s) = hbmFrame s := by
  unfold hbcLog
  split
  · rfl
  · rw [hbmFrame_rset (a := Reg.hbcLog1 p.inst) _ (le_hbc _ _), hbmFrame_rset (a := Reg.hbcLog0 p.inst) _ (le_hbc _ _)]

@[simp] theorem hbmFrame_loseChannel (i : Nat) : hbmFrame (loseChannel i s).1 = hbmFrame s := by
  unfold loseChannel
  split
  · rfl
  · dsimp only
    rw [hbmFrame_setB (a := Reg.blkStatus .hbc i) _ (le_hbc _ _), hbmFrame_setB (a := Reg.hbcState i) _ (le_hbc _ _)]

theorem hbmFrame_ueGroups (l : List (Nat × Nat)) : hbmFrame { s with ueGroups := l } = hbmFrame s :=
  hbmFrame_congr rfl rfl

@[simp] theorem hbmFrame_hbcUncorrectable (p : Place) (kind cls rgn : Nat) (who : Reader) :
    hbmFrame (hbcUncorrectable p kind cls rgn who s).1 = hbmFrame s := by
  have logged : hbmFrame (hbcLog p kind cls rgn who (errCount .hbc p.inst 1 (incMod s (Reg.hbcUe p.inst) 47 0 1))) =
      hbmFrame s := by simp
  unfold hbcUncorrectable
  generalize hbcLog p kind cls rgn who (errCount .hbc p.inst 1 (incMod s (Reg.hbcUe p.inst) 47 0 1)) = t at logged ⊢
  dsimp only
  split
  · have kept : hbmFrame (if t.ueGroups.contains (p.inst, p.group) then t
        else { t with ueGroups := (p.inst, p.group) :: t.ueGroups }) = hbmFrame s := by
      split
      · exact logged
      · exact (hbmFrame_ueGroups t _).trans logged
    generalize (if t.ueGroups.contains (p.inst, p.group) then t
        else { t with ueGroups := (p.inst, p.group) :: t.ueGroups }) = u at kept ⊢
    split
    · rw [hbmFrame_loseChannel, kept]
    · exact kept
  · exact logged

@[simp] theorem hbmFrame_dieReports (ph : List Phys) (line : Nat) : hbmFrame (dieReports ph line s) = hbmFrame s := by
  simp [dieReports]

@[simp] theorem hbmFrame_keepPeer (ph : List Phys) (x : Nat × Option (List Byte × Nat)) :
    hbmFrame (keepPeer ph s x) = hbmFrame s := by
  unfold keepPeer
  split <;> simp

/-- The state of a line's outcome, held apart from the operations that made it. -/
theorem LineOut.hbmFrame_eq {t : State} {f : State × (Nat → W64)} (h : hbmFrame t = f) {d : List Byte} {e : List Evt} {b : Bool} :
    hbmFrame (LineOut.mk t d e b).s = f := h

@[simp] theorem hbmFrame_readLine (ph : List Phys) (who : Reader) (act : Option (Nat × Nat × Nat)) (line : Nat) :
    hbmFrame (readLine s ph who act line).s = hbmFrame s := by
  cases hr : regionOf s line with
  | none => simp only [readLine, hr]
  | some r =>
    have touched : hbmFrame (touchLine line (if dieFixed ph line then incMod s (Reg.hbcOde (locate s line).inst) 47 0 1
        else s)) = hbmFrame s := by simp
    simp only [readLine, hr]
    generalize touchLine line (if dieFixed ph line = true then incMod s (Reg.hbcOde (locate s line).inst) 47 0 1 else s) = t
      at touched ⊢
    rw [← touched]
    generalize locate s line = p
    split
    · split
      · simp
      · simp
      · have peers := foldl_keeps hbmFrame (keepPeer ph) (fun s x => hbmFrame_keepPeer s ph x)
          ((stripePeers r line).zip ((stripePeers r line).map (rsLine t ph))) t
        split
        · generalize ((stripePeers r line).zip ((stripePeers r line).map (rsLine t ph))).foldl (keepPeer ph) t = u at peers ⊢
          split
          · simp [peers]
          · exact LineOut.hbmFrame_eq (by simp [peers])
        · exact LineOut.hbmFrame_eq (by simp)
    · split
      · split
        · simp
        · simp
      · split
        · exact LineOut.hbmFrame_eq (by simp)
        · rfl

@[simp] theorem hbmFrame_fetchLine (ph : List Phys) (who : Reader) (act : Option (Nat × Nat × Nat)) (line : Nat) :
    hbmFrame (fetchLine s ph who act line).s = hbmFrame s := by
  unfold fetchLine
  split
  · simp
  · dsimp only
    split <;> simp

@[simp] theorem hbmFrame_readLines (ph : List Phys) (who : Reader) (act : Nat → Option (Nat × Nat × Nat)) (n line : Nat) :
    hbmFrame (readLines ph who act n line s).s = hbmFrame s := by
  induction n generalizing line s with
  | zero => rfl
  | succ n ih => simp [readLines, ih]

@[simp] theorem hbmFrame_writeLine (ph : List Phys) (who : Reader) (tags : Nat × Nat × Nat) (line o : Nat) (bs : List Byte) :
    hbmFrame (writeLine s ph who tags line o bs).s = hbmFrame s := by
  unfold writeLine
  cases regionOf s line with
  | none => rfl
  | some r => simp

@[simp] theorem hbmFrame_writeLines (ph : List Phys) (who : Reader) (tags : Nat → Nat × Nat × Nat) (n line o : Nat)
    (bs : List Byte) : hbmFrame (writeLines ph who tags n line o bs s).s = hbmFrame s := by
  induction n generalizing line o bs s with
  | zero => rfl
  | succ n ih => simp [writeLines, ih]

@[simp] theorem hbmFrame_hbmWrite (ph : List Phys) (who : Reader) (a : Nat) (bs : List Byte) :
    hbmFrame (hbmWrite s ph who a bs).s = hbmFrame s := by simp [hbmWrite]

@[simp] theorem hbmFrame_scaleWriteback : hbmFrame (scaleWriteback s) = hbmFrame s :=
  foldl_keeps hbmFrame _ (fun _ _ => hbmFrame_hbmWrite _ _ _ _ _) _ s

end Sys2Proof.Machine
end

