-- ==== Sys2Proof/Proofs/FaultFrame.lean ====
section
/-! SUPPORT. FRAME. What the end of a step and a hard fault leave as they are (01 R20, 14 R322): `endFrame` for what follows the end of
a step, `faultState` for the fault as a whole, and the registers that a fault's report shows. -/

namespace Sys2Proof.Machine

/-! ## The job's end -/

/-- The GLB registers that the end of a step leaves: all but `STATE`, the watchdog and the page's interrupt status. -/
def quietRegs (s : State) : (Nat → W64) × Nat :=
  (fun a => if a = Reg.jobStatus ∨ a = Reg.watchdog ∨ a = Reg.intStatus .glb 0 then 0 else glbRegs s a,
   fld (rget s Reg.jobStatus) 59 0)

/-- The state without what the end of a step may change beyond its memory traffic. -/
def endState (s : State) : State :=
  { offHbm s with rings := [], cards := [], slot := none, next := none, job := { s.job with haltWanted := false } }

def endFrame (s : State) : State × ((Nat → W64) × Nat) := (endState s, quietRegs s)

theorem quietRegs_of_glbRegs {s t : State} (h : glbRegs t = glbRegs s) : quietRegs t = quietRegs s := by
  have status : rget t Reg.jobStatus = rget s Reg.jobStatus := rget_of_glbRegs h (by decide)
  simp only [quietRegs, h, status]

theorem quietRegs_congr {s t : State} (h : t.regs = s.regs) : quietRegs t = quietRegs s :=
  quietRegs_of_glbRegs (funext fun a => by simp only [glbRegs, rget_congr h])

theorem endState_of_offHbm {s t : State} (h : offHbm t = offHbm s) : endState t = endState s := by
  have job : (offHbm t).job = (offHbm s).job := congrArg State.job h
  have same : t.job = s.job := job
  simp only [endState, h, same]

theorem endFrame_of_hbmFrame {s t : State} (h : hbmFrame t = hbmFrame s) : endFrame t = endFrame s :=
  Prod.ext (endState_of_offHbm (congrArg Prod.fst h)) (quietRegs_of_glbRegs (congrArg Prod.snd h))

/-- What a frame says of the registers that it keeps. -/
theorem rget_of_quietRegs {s t : State} (h : quietRegs t = quietRegs s) {a : Nat} (low : a < 0x2000000)
    (status : a ≠ Reg.jobStatus) (limit : a ≠ Reg.watchdog) (int : a ≠ Reg.intStatus .glb 0) : rget t a = rget s a := by
  simpa [quietRegs, glbRegs, low, status, limit, int] using congrFun (congrArg Prod.fst h) a

theorem fld_of_fld {v w : W64} {k hi lo : Nat} (h : fld v k 0 = fld w k 0) (inside : hi ≤ k) : fld v hi lo = fld w hi lo := by
  apply Nat.eq_of_testBit_eq
  intro i
  have bit := congrArg (·.testBit (lo + i)) h
  simp only [fld_testBit, Nat.zero_add, Nat.sub_zero] at bit
  rw [fld_testBit, fld_testBit]
  by_cases c : i < hi + 1 - lo
  · simpa [c, show lo + i < k + 1 by omega] using bit
  · simp [c]

theorem getF_of_quietRegs {s t : State} (h : quietRegs t = quietRegs s) {hi : Nat} (lo : Nat) (inside : hi < 60) :
    getF t Reg.jobStatus hi lo = getF s Reg.jobStatus hi lo :=
  fld_of_fld (congrArg Prod.snd h) (Nat.le_of_lt_succ inside)

@[simp] theorem ite_endFrame (p : Prop) [Decidable p] (s t : State) :
    endFrame (if p then s else t) = if p then endFrame s else endFrame t := apply_ite endFrame p s t

theorem quietRegs_of_reads {s t : State}
    (same : ∀ a, a < 0x2000000 → a ≠ Reg.jobStatus → a ≠ Reg.watchdog → a ≠ Reg.intStatus .glb 0 → rget t a = rget s a)
    (status : getF t Reg.jobStatus 59 0 = getF s Reg.jobStatus 59 0) : quietRegs t = quietRegs s := by
  refine Prod.ext (funext fun a => ?_) status
  by_cases listed : a = Reg.jobStatus ∨ a = Reg.watchdog ∨ a = Reg.intStatus .glb 0
  · simp [quietRegs, listed]
  · obtain ⟨notStatus, notLimit, notInt⟩ : a ≠ Reg.jobStatus ∧ a ≠ Reg.watchdog ∧ a ≠ Reg.intStatus .glb 0 := by
      simpa using listed
    by_cases low : a < 0x2000000
    · simp [quietRegs, listed, glbRegs, low, same a low notStatus notLimit notInt]
    · simp [quietRegs, glbRegs, low]

variable (s : State)

@[simp] theorem endFrame_setInt_glb (b : Nat) : endFrame (setInt .glb 0 b s) = endFrame s := by
  refine Prod.ext (by simp [endFrame, endState, offHbm]) (quietRegs_of_reads (fun a _ _ _ int => ?_) ?_)
  · exact rget_setInt_ne s b int
  · exact getF_setInt_ne s b _ _ (by decide)

@[simp] theorem endFrame_setJobState (v : Nat) : endFrame (setJobState v s) = endFrame s := by
  refine Prod.ext ?_ (quietRegs_of_reads (fun a _ status limit _ => ?_) ?_)
  · rw [setJobState_eq]; rfl
  · exact rget_setJobState_ne v s status limit
  · exact getF_setJobState_other v s _ _ (by decide)

@[simp] theorem endFrame_scaleWriteback : endFrame (scaleWriteback s) = endFrame s :=
  endFrame_of_hbmFrame (hbmFrame_scaleWriteback s)

@[simp] theorem endFrame_toHalted : endFrame (toHalted s) = endFrame s := by simp [toHalted]

@[simp] theorem endFrame_haltNow : endFrame (haltNow s) = endFrame s := by
  unfold haltNow
  split
  · exact (endFrame_toHalted _).trans (Prod.ext rfl (quietRegs_congr rfl))
  · rfl

@[simp] theorem endFrame_queueCard (c : Card) : endFrame (queueCard c s) = endFrame s := Prod.ext rfl (quietRegs_congr rfl)

@[simp] theorem queueCard_out (c : Card) : (queueCard c s).out = s.out := rfl
@[simp] theorem queueCard_job (c : Card) : (queueCard c s).job = s.job := rfl
@[simp] theorem queueCard_hbm (c : Card) : (queueCard c s).hbm = s.hbm := rfl
@[simp] theorem queueCard_regs (c : Card) : (queueCard c s).regs = s.regs := rfl
@[simp] theorem queueCard_step (c : Card) : (queueCard c s).step = s.step := rfl
@[simp] theorem queueCard_slot (c : Card) : (queueCard c s).slot = s.slot := rfl
@[simp] theorem queueCard_next (c : Card) : (queueCard c s).next = s.next := rfl
theorem queueCard_cards (c : Card) : (queueCard c s).cards = s.cards ++ [c] := rfl

@[simp] theorem endFrame_endReady : endFrame (endReady s) = endFrame s := Prod.ext rfl (quietRegs_congr rfl)

/-- The two halves of `discardPending`: the validated step that has not started, and the pending slot. -/
def discardNext (s : State) : State :=
  match s.next with
  | some ws =>
    queueCard { body := rejectedBody (BitVec.ofNat 64 (ws.step * 2 ^ 32 + ws.slot)) 0x020C 0xFF, annex := none,
                frees := false } { s with next := none }
  | none => s

def discardSlot (s : State) : State :=
  match s.slot with
  | some p =>
    if p.rejected then s
    else queueCard { body := rejectedBody p.word 0x020C 0xFF, annex := none, frees := true }
      { s with slot := some { p with rejected := true, ws := none } }
  | none => s

theorem discardPending_eq : discardPending s = discardSlot (discardNext s) := rfl

/-- Discarding changes the slot, the waiting step and the cards alone. -/
theorem discardNext_eq : discardNext s = { s with next := none, cards := (discardNext s).cards } := by
  unfold discardNext
  split
  · rfl
  · next h => rw [← h]

theorem discardSlot_eq : discardSlot s = { s with slot := (discardSlot s).slot, cards := (discardSlot s).cards } := by
  unfold discardSlot
  split
  · split <;> rfl
  · rfl

theorem discardPending_frame : discardPending s =
    { s with next := none, slot := (discardPending s).slot, cards := (discardPending s).cards } := by
  rw [discardPending_eq, discardSlot_eq, discardNext_eq]

@[simp] theorem discardPending_out : (discardPending s).out = s.out := by rw [discardPending_frame]
@[simp] theorem discardPending_job : (discardPending s).job = s.job := by rw [discardPending_frame]
@[simp] theorem discardPending_hbm : (discardPending s).hbm = s.hbm := by rw [discardPending_frame]
@[simp] theorem discardPending_regs : (discardPending s).regs = s.regs := by rw [discardPending_frame]
@[simp] theorem discardPending_step : (discardPending s).step = s.step := by rw [discardPending_frame]
@[simp] theorem discardPending_next : (discardPending s).next = none := by rw [discardPending_frame]

/-- The slot's step is rejected. -/
theorem discardPending_slot : (discardPending s).slot =
    s.slot.map fun p => if p.rejected then p else { p with rejected := true, ws := none } := by
  rw [discardPending_eq]
  have same : (discardNext s).slot = s.slot := by rw [discardNext_eq]
  unfold discardSlot
  rw [same]
  cases held : s.slot with
  | none => simp [same, held]
  | some p =>
    dsimp only
    split
    · simp [*]
    · simp [queueCard, *]

/-- Discarding only adds cards. -/
theorem discardPending_cards : ∃ l, (discardPending s).cards = s.cards ++ l := by
  rw [discardPending_eq]
  have first : ∃ l, (discardNext s).cards = s.cards ++ l := by
    unfold discardNext
    split
    · exact ⟨_, rfl⟩
    · exact ⟨[], (List.append_nil _).symm⟩
  obtain ⟨l, hl⟩ := first
  unfold discardSlot
  split
  · split
    · exact ⟨l, hl⟩
    · exact ⟨l ++ _, by simp only [queueCard, hl, List.append_assoc]; rfl⟩
  · exact ⟨l, hl⟩

@[simp] theorem endFrame_discardPending : endFrame (discardPending s) = endFrame s := by
  rw [discardPending_frame]
  exact Prod.ext rfl (quietRegs_congr rfl)

/-! ## Cards and outputs behind memory traffic -/

theorem cards_of_hbmFrame {s t : State} (h : hbmFrame t = hbmFrame s) : t.cards = s.cards :=
  congrArg (fun x : State × (Nat → W64) => x.1.cards) h

theorem slot_of_hbmFrame {s t : State} (h : hbmFrame t = hbmFrame s) : t.slot = s.slot :=
  congrArg (fun x : State × (Nat → W64) => x.1.slot) h

theorem next_of_hbmFrame {s t : State} (h : hbmFrame t = hbmFrame s) : t.next = s.next :=
  congrArg (fun x : State × (Nat → W64) => x.1.next) h

theorem job_of_hbmFrame {s t : State} (h : hbmFrame t = hbmFrame s) : t.job = s.job :=
  congrArg (fun x : State × (Nat → W64) => x.1.job) h

/-- What halting leaves beside memory and the registers. -/
theorem toHalted_keeps : (toHalted s).cards = s.cards ∧ (toHalted s).slot = s.slot ∧ (toHalted s).next = s.next ∧
    (toHalted s).job = s.job := by
  have kept := hbmFrame_scaleWriteback s
  simp only [toHalted, setInt_cards, setInt_slot, setInt_next, setInt_job, setJobState_cards, setJobState_slot,
    setJobState_next, setJobState_job]
  exact ⟨cards_of_hbmFrame kept, slot_of_hbmFrame kept, next_of_hbmFrame kept, job_of_hbmFrame kept⟩

theorem haltNow_cards : (haltNow s).cards = s.cards := by
  unfold haltNow
  split
  · exact (toHalted_keeps _).1
  · rfl

theorem haltNow_of_unwanted {s : State} (h : s.job.haltWanted = false) : haltNow s = s := by simp [haltNow, h]

theorem haltNow_of_wanted {s : State} (h : s.job.haltWanted = true) :
    haltNow s = toHalted { s with job := { s.job with haltWanted := false } } := by simp [haltNow, h]

/-- A halted job shows it, and sets `JOB_EVENT`. -/
theorem toHalted_shows : jobState (toHalted s) = 4 ∧ getB (toHalted s) (Reg.intStatus .glb 0) 8 = true ∧
    getF (toHalted s) Reg.watchdog 31 0 = 0 := by
  have limit : getF (setJobState 4 (scaleWriteback s)) Reg.watchdog 31 0 = 0 := by
    have written : setJobState 4 (scaleWriteback s) =
        setF (setF (scaleWriteback s) Reg.jobStatus 63 60 4) Reg.watchdog 31 0 0 := by simp [setJobState]
    rw [written, getF_setF_same _ _ _ _ _ (by decide) (by decide), Nat.zero_mod]
  refine ⟨?_, getB_setInt_same _ _ (by decide), ?_⟩
  · rw [toHalted, jobState_setInt _ _ (by decide), jobState_setJobState _ _ (by decide)]
  · rw [toHalted, getF_setInt_ne _ _ _ _ (by decide), limit]

end Sys2Proof.Machine
end

