-- ==== Sys2Proof/Proofs/LittleEndian.lean ====
section
/-! SUPPORT. Little-endian numbers, and the fields of a fault record's words (14 Table 14-2). -/

namespace Sys2Proof.Machine

@[simp] theorem length_leBytes (n v : Nat) : (leBytes n v).length = n := by
  induction n generalizing v with
  | zero => rfl
  | succ n ih => simp [leBytes, ih]

theorem leNat_append (a b : List Byte) : leNat (a ++ b) = leNat a + 256 ^ a.length * leNat b := by
  induction a with
  | nil => simp [leNat]
  | cons x a ih => simp only [List.cons_append, leNat, ih, List.length_cons, pow_succ]; ring

theorem leNat_leBytes (n v : Nat) : leNat (leBytes n v) = v % 256 ^ n := by
  induction n generalizing v with
  | zero => simp [leBytes, leNat, Nat.mod_one]
  | succ n ih =>
    have cut : v % 256 ^ (n + 1) = v % 256 + 256 * (v / 256 % 256 ^ n) := by rw [pow_succ', Nat.mod_mul]
    rw [leBytes, leNat, ih, BitVec.toNat_ofNat, cut]

theorem leAt_append_left (a b : List Byte) {o n : Nat} (h : o + n ≤ a.length) : leAt (a ++ b) o n = leAt a o n := by
  rw [leAt, leAt, List.drop_append_of_le_length (by omega), List.take_append_of_le_length (by rw [List.length_drop]; omega)]

theorem leAt_append_right (a b : List Byte) {o : Nat} (n : Nat) (h : a.length ≤ o) :
    leAt (a ++ b) o n = leAt b (o - a.length) n := by
  rw [leAt, leAt, List.drop_append, List.drop_eq_nil_of_le h, List.nil_append]

theorem leAt_leBytes (n v : Nat) : leAt (leBytes n v) 0 n = v % 256 ^ n := by
  rw [leAt, List.drop_zero, List.take_of_length_le (by simp), leNat_leBytes]

/-! ## Words of a fault record -/

/-- The first three words of a record, each in its own bytes. -/
def recHead (r : FaultRec) : List Byte :=
  leBytes 2 r.code ++ (leBytes 1 r.cls ++ (leBytes 1 r.block ++ (leBytes 2 r.inst ++ leBytes 2 r.stream)))

def recMiddle (r : FaultRec) : List Byte := leBytes 4 (r.entry % 2 ^ 28) ++ leBytes 4 r.step

def recTail (r : FaultRec) : List Byte :=
  leBytes 2 r.group ++ (leBytes 1 r.mbSlot ++
    (leBytes 1 (b2n r.mixed + 2 * b2n r.departed + 4 * b2n r.again) ++ leBytes 4 r.detail))

theorem recBytes_eq (r : FaultRec) : recBytes r = recHead r ++ (recMiddle r ++ (recTail r ++ List.replicate 8 0)) := by
  simp only [recBytes, recHead, recMiddle, recTail, List.append_assoc]

theorem recHead_length (r : FaultRec) : (recHead r).length = 8 := by simp [recHead]
theorem recMiddle_length (r : FaultRec) : (recMiddle r).length = 8 := by simp [recMiddle]
theorem recTail_length (r : FaultRec) : (recTail r).length = 8 := by simp [recTail]

theorem recWord_zero (r : FaultRec) : recWord r 0 = BitVec.ofNat 64 (leNat (recHead r)) := by
  rw [recWord, recBytes_eq, Nat.mul_zero, List.drop_zero, List.take_append_of_le_length (by rw [recHead_length]),
    List.take_of_length_le (by rw [recHead_length])]

theorem recWord_one (r : FaultRec) : recWord r 1 = BitVec.ofNat 64 (leNat (recMiddle r)) := by
  rw [recWord, recBytes_eq, List.drop_append_of_le_length (by rw [recHead_length]),
    List.drop_eq_nil_of_le (by rw [recHead_length]), List.nil_append, List.take_append_of_le_length (by rw [recMiddle_length]),
    List.take_of_length_le (by rw [recMiddle_length])]

theorem recWord_two (r : FaultRec) : recWord r 2 = BitVec.ofNat 64 (leNat (recTail r)) := by
  rw [recWord, recBytes_eq, ← List.append_assoc, List.drop_append_of_le_length (by simp [recHead_length, recMiddle_length]),
    List.drop_eq_nil_of_le (by simp [recHead_length, recMiddle_length]), List.nil_append,
    List.take_append_of_le_length (by rw [recTail_length]), List.take_of_length_le (by rw [recTail_length])]

theorem fld_ofNat {n : Nat} (small : n < 2 ^ 64) (hi lo : Nat) :
    fld (BitVec.ofNat 64 n) hi lo = n / 2 ^ lo % 2 ^ (hi + 1 - lo) := by
  rw [fld, bits, BitVec.toNat_ofNat, Nat.mod_eq_of_lt small]

/-- `CODE` and `STREAM` of a record. -/
theorem recWord_code (r : FaultRec) : fld (recWord r 0) 15 0 = r.code % 2 ^ 16 := by
  rw [recWord_zero]
  simp only [recHead, leNat_append, leNat_leBytes, length_leBytes]
  rw [fld_ofNat (by omega)]
  omega

theorem recWord_stream (r : FaultRec) : fld (recWord r 0) 63 48 = r.stream % 2 ^ 16 := by
  rw [recWord_zero]
  simp only [recHead, leNat_append, leNat_leBytes, length_leBytes]
  rw [fld_ofNat (by omega)]
  omega

/-- `ENTRY` of a record. -/
theorem recWord_entry (r : FaultRec) : fld (recWord r 1) 27 0 = r.entry % 2 ^ 28 := by
  rw [recWord_one]
  simp only [recMiddle, leNat_append, leNat_leBytes, length_leBytes]
  rw [fld_ofNat (by omega)]
  omega

/-- `DETAIL` of a record. -/
theorem recWord_detail (r : FaultRec) : fld (recWord r 2) 63 32 = r.detail % 2 ^ 32 := by
  rw [recWord_two]
  simp only [recTail, leNat_append, leNat_leBytes, length_leBytes]
  rw [fld_ofNat (by omega)]
  omega

end Sys2Proof.Machine
end

