-- ==== Sys2Proof/Proofs/HardFaults.lean ====
section
/-! SUPPORT. Hard faults (14 R322, 01 R20): what a fault leaves as it is, and what its report shows. -/

namespace Sys2Proof.Machine

/-! ## The frame -/

/-- The state without what a hard fault may change. -/
def faultState (s : State) : State :=
  { endState s with
    unitFaults := [], locker := {}
    job := { (endState s).job with faulted := false, stallNow := none }
    step := { (endState s).step with active := false, aborted := false, elapsedHeld := false } }

theorem faultState_of_endState {s t : State} (h : endState t = endState s) : faultState t = faultState s := by
  simp only [faultState, h]

theorem faultState_of_endFrame {s t : State} (h : endFrame t = endFrame s) : faultState t = faultState s :=
  faultState_of_endState (congrArg Prod.fst h)

theorem faultState_of_hbmFrame {s t : State} (h : hbmFrame t = hbmFrame s) : faultState t = faultState s :=
  faultState_of_endFrame (endFrame_of_hbmFrame h)

@[simp] theorem ite_faultState (p : Prop) [Decidable p] (s t : State) :
    faultState (if p then s else t) = if p then faultState s else faultState t := apply_ite faultState p s t

section
variable (s : State)

@[simp] theorem faultState_rset (a : Nat) (v : W64) : faultState (rset s a v) = faultState s := by
  simp [faultState, endState, offHbm]

@[simp] theorem faultState_setF (a hi lo v : Nat) : faultState (setF s a hi lo v) = faultState s := faultState_rset s _ _

@[simp] theorem faultState_setB (a b : Nat) (v : Bool) : faultState (setB s a b v) = faultState s := faultState_rset s _ _

@[simp] theorem faultState_incSat (a hi lo n : Nat) : faultState (incSat s a hi lo n) = faultState s := faultState_rset s _ _

@[simp] theorem faultState_errCount (t : Blk) (i n : Nat) : faultState (errCount t i n s) = faultState s := faultState_rset s _ _

@[simp] theorem faultState_setInt (t : Blk) (i b : Nat) : faultState (setInt t i b s) = faultState s := by
  simp [faultState, endState, offHbm]

@[simp] theorem faultState_emit (o : Out) : faultState (emit o s) = faultState s := by
  simp [faultState, endState, offHbm]

@[simp] theorem faultState_countCorrected (n : Nat) : faultState (countCorrected n s) = faultState s :=
  faultState_of_hbmFrame (hbmFrame_countCorrected s n)

@[simp] theorem faultState_pageRecord (ty : Blk) (r : FaultRec) : faultState (pageRecord ty r s) = faultState s := by
  have logged (t : State) : faultState ((List.range 4).foldl (fun s i => rset s (Reg.errLog ty r.inst i) (recWord r i)) t) =
      faultState t := foldl_keeps faultState _ (fun _ _ => faultState_rset _ _ _) _ t
  simp [pageRecord, logged]

@[simp] theorem faultState_hpbLog (inst kind pass st st2 : Nat) : faultState (hpbLog inst kind pass st st2 s) = faultState s := by
  simp [hpbLog]

@[simp] theorem faultState_noteUnitFault (ty inst sub : Nat) : faultState (noteUnitFault ty inst sub s) = faultState s := rfl

/-- `ELAPSED` is a register and a mark of the step. -/
theorem showElapsed_eq : showElapsed s = { s with
    regs := (showElapsed s).regs, free := (showElapsed s).free,
    step := { s.step with elapsedHeld := (showElapsed s).step.elapsedHeld } } := by
  unfold showElapsed
  split <;> rfl

@[simp] theorem showElapsed_cards : (showElapsed s).cards = s.cards := by rw [showElapsed_eq]
@[simp] theorem showElapsed_out : (showElapsed s).out = s.out := by rw [showElapsed_eq]
@[simp] theorem showElapsed_job : (showElapsed s).job = s.job := by rw [showElapsed_eq]
@[simp] theorem showElapsed_hbm : (showElapsed s).hbm = s.hbm := by rw [showElapsed_eq]
@[simp] theorem showElapsed_slot : (showElapsed s).slot = s.slot := by rw [showElapsed_eq]
@[simp] theorem showElapsed_next : (showElapsed s).next = s.next := by rw [showElapsed_eq]
@[simp] theorem showElapsed_census : (showElapsed s).census = s.census := by rw [showElapsed_eq]

@[simp] theorem faultState_showElapsed : faultState (showElapsed s) = faultState s := by
  rw [showElapsed_eq]
  rfl

/-- The running step marked as ended. -/
def markEnded (s : State) : State := { s with step := { s.step with active := false, aborted := true } }

@[simp] theorem markEnded_cards : (markEnded s).cards = s.cards := rfl
@[simp] theorem markEnded_out : (markEnded s).out = s.out := rfl
@[simp] theorem markEnded_job : (markEnded s).job = s.job := rfl
@[simp] theorem markEnded_hbm : (markEnded s).hbm = s.hbm := rfl
@[simp] theorem markEnded_regs : (markEnded s).regs = s.regs := rfl
@[simp] theorem endReady_cards : (endReady s).cards = s.cards := rfl
@[simp] theorem endReady_out : (endReady s).out = s.out := rfl
@[simp] theorem endReady_job : (endReady s).job = s.job := rfl
@[simp] theorem endReady_hbm : (endReady s).hbm = s.hbm := rfl
@[simp] theorem endReady_regs : (endReady s).regs = s.regs := rfl
@[simp] theorem endReady_step : (endReady s).step = s.step := rfl

/-- The card of a step that ends with `STEP_ABORTED`. -/
def abortCard (code : Nat) (fault : List Byte) (s : State) : Card :=
  { body := cardBody s 3 code fault (if s.step.bell = .drained then s.census.snapTotals else s.census.totals)
    annex := some (annexBytes s), frees := false }

/-- A step that has ended, with its card, before a requested halt. -/
def endedStep (code : Nat) (fault : List Byte) (s : State) : State :=
  discardPending (queueCard (abortCard code fault (showElapsed s)) (endReady (markEnded (showElapsed s))))

theorem abortStep_of_active {s : State} (h : s.step.active = true) (code : Nat) (fault : List Byte) :
    abortStep code fault s = haltNow (endedStep code fault s) := by
  simp only [abortStep, h, if_true]
  rfl

theorem abortStep_of_idle {s : State} (h : s.step.active = false) (code : Nat) (fault : List Byte) :
    abortStep code fault s = s := by simp [abortStep, h]

theorem endFrame_endedStep (code : Nat) (fault : List Byte) :
    endFrame (endedStep code fault s) = endFrame (markEnded (showElapsed s)) := by simp [endedStep]

theorem step_of_endFrame {s t : State} (h : endFrame t = endFrame s) :
    t.step.active = s.step.active ∧ t.step.aborted = s.step.aborted := by
  have step : (endState t).step = (endState s).step := congrArg (fun x : State × ((Nat → W64) × Nat) => x.1.step) h
  have active := congrArg StepSt.active step
  have aborted := congrArg StepSt.aborted step
  exact ⟨active, aborted⟩

@[simp] theorem faultState_abortStep (code : Nat) (fault : List Byte) : faultState (abortStep code fault s) = faultState s := by
  cases running : s.step.active with
  | false => rw [abortStep_of_idle running]
  | true =>
    have ended : faultState (haltNow (endedStep code fault s)) = faultState (markEnded (showElapsed s)) :=
      faultState_of_endFrame ((endFrame_haltNow _).trans (endFrame_endedStep s code fault))
    rw [abortStep_of_active running, ended, show faultState (markEnded (showElapsed s)) = faultState (showElapsed s) from rfl,
      faultState_showElapsed]

/-- Whatever ran, no step runs behind its abort. -/
theorem abortStep_ends (code : Nat) (fault : List Byte) : (abortStep code fault s).step.active = false := by
  cases running : s.step.active with
  | false => rw [abortStep_of_idle running, running]
  | true =>
    rw [abortStep_of_active running]
    exact (step_of_endFrame ((endFrame_haltNow _).trans (endFrame_endedStep s code fault))).1

theorem abortStep_aborted {s : State} (h : s.step.active = true) (code : Nat) (fault : List Byte) :
    (abortStep code fault s).step.aborted = true := by
  rw [abortStep_of_active h]
  exact (step_of_endFrame ((endFrame_haltNow _).trans (endFrame_endedStep s code fault))).2

/-- The mark that `ELAPSED` stands while an `UPDATE_BEGIN` is held. -/
def markHeld (b : Bool) (s : State) : State := { s with step := { s.step with elapsedHeld := b } }

@[simp] theorem rget_markHeld (b : Bool) (a : Nat) : rget (markHeld b s) a = rget s a := rfl

@[simp] theorem getF_markHeld (b : Bool) (a hi lo : Nat) : getF (markHeld b s) a hi lo = getF s a hi lo := rfl

/-- A running step whose `ELAPSED` does not stand shows a free value between the last one and `LIMIT`. -/
theorem showElapsed_of_running {s : State} (h : (!s.step.active || (updateHeld s && s.step.elapsedHeld)) = false) :
    showElapsed s = markHeld (updateHeld s) (setF (takeFree s).2 Reg.watchdog 63 32
      (max (getF s Reg.watchdog 63 32) (min (getF s Reg.watchdog 31 0) (fld (takeFree s).1 31 0)))) := by
  simp only [showElapsed, h]
  rfl

@[simp] theorem rget_takeFree (a : Nat) : rget (takeFree s).2 a = rget s a := rfl

@[simp] theorem quietRegs_showElapsed : quietRegs (showElapsed s) = quietRegs s := by
  cases stands : (!s.step.active || (updateHeld s && s.step.elapsedHeld)) with
  | true => simp only [showElapsed, stands, if_true]
  | false =>
    rw [showElapsed_of_running stands]
    refine quietRegs_of_reads (fun a _ _ limit _ => ?_) ?_
    · rw [rget_markHeld, rget_setF_ne _ _ _ _ limit, rget_takeFree]
    · rw [getF_markHeld, getF_setF_ne _ _ _ _ _ _ (by decide), getF, rget_takeFree, getF]

@[simp] theorem quietRegs_abortStep (code : Nat) (fault : List Byte) : quietRegs (abortStep code fault s) = quietRegs s := by
  cases running : s.step.active with
  | false => rw [abortStep_of_idle running]
  | true =>
    have ended := congrArg Prod.snd ((endFrame_haltNow _).trans (endFrame_endedStep s code fault))
    rw [abortStep_of_active running]
    exact ended.trans ((quietRegs_congr rfl).trans (quietRegs_showElapsed s))

/-! ## The end of a restart (14 R332) -/

theorem dropRefill_eq : dropRefill s = { s with locker := (dropRefill s).locker, rings := (dropRefill s).rings } := rfl

theorem setPhase_eq (p : Nat) : setPhase p s = { s with regs := (setPhase p s).regs, out := (setPhase p s).out } := by
  unfold setPhase
  split
  · rfl
  · rw [setInt_eq]
    rfl

theorem rget_setPhase_ne (p : Nat) {a : Nat} (status : a ≠ Reg.restartStatus) (int : a ≠ Reg.intStatus .glb 0) :
    rget (setPhase p s) a = rget s a := by
  unfold setPhase
  split
  · rfl
  · rw [rget_setInt_ne _ _ int, rget_setF_ne _ _ _ _ status]

theorem stopRestart_eq (code : Nat) : stopRestart code s = { s with
    locker := (stopRestart code s).locker, rings := (stopRestart code s).rings
    regs := (stopRestart code s).regs, out := (stopRestart code s).out } := by
  unfold stopRestart
  split
  · rw [failRestart, setPhase_eq, dropRefill_eq]
    rfl
  · rfl

theorem rget_stopRestart_ne (code : Nat) {a : Nat} (status : a ≠ Reg.restartStatus) (int : a ≠ Reg.intStatus .glb 0) :
    rget (stopRestart code s) a = rget s a := by
  unfold stopRestart
  split
  · rw [failRestart, rget_setPhase_ne _ _ status int, rget_setF_ne _ _ _ _ status]
    rfl
  · rfl

theorem stopRestart_of_none {s : State} (h : phase s = 0) (code : Nat) : stopRestart code s = s := by
  simp [stopRestart, h]

@[simp] theorem faultState_stopRestart (code : Nat) : faultState (stopRestart code s) = faultState s := by
  rw [stopRestart_eq]
  rfl

@[simp] theorem stopRestart_cards (code : Nat) : (stopRestart code s).cards = s.cards := by rw [stopRestart_eq]
@[simp] theorem stopRestart_hbm (code : Nat) : (stopRestart code s).hbm = s.hbm := by rw [stopRestart_eq]
@[simp] theorem stopRestart_job (code : Nat) : (stopRestart code s).job = s.job := by rw [stopRestart_eq]

@[simp] theorem step_stopRestart (code : Nat) : (stopRestart code s).step = s.step := by rw [stopRestart_eq]

/-! ## The report of a fault -/

/-- The record in `GLB_FAULT_REC0` to `3`. -/
def recordWords (r : FaultRec) (s : State) : State :=
  (List.range 4).foldl (fun s i => rset s (Reg.faultRec i) (recWord r i)) s

/-- The job marked as faulted. -/
def markFaulted (s : State) : State := { s with job := { s.job with faulted := true } }

@[simp] theorem rget_markFaulted (a : Nat) : rget (markFaulted s) a = rget s a := rfl

@[simp] theorem getF_markFaulted (a hi lo : Nat) : getF (markFaulted s) a hi lo = getF s a hi lo := rfl

@[simp] theorem markFaulted_cards : (markFaulted s).cards = s.cards := rfl
@[simp] theorem markFaulted_hbm : (markFaulted s).hbm = s.hbm := rfl
@[simp] theorem markFaulted_out : (markFaulted s).out = s.out := rfl
@[simp] theorem markFaulted_haltWanted : (markFaulted s).job.haltWanted = s.job.haltWanted := rfl
@[simp] theorem step_markFaulted : (markFaulted s).step = s.step := rfl

@[simp] theorem faultState_markFaulted : faultState (markFaulted s) = faultState s := rfl

theorem glbRecord_def (r : FaultRec) :
    glbRecord r s = setF (markFaulted (recordWords r s)) Reg.jobStatus 47 32 r.code := rfl

theorem recordWords_job (r : FaultRec) : (recordWords r s).job = s.job :=
  foldl_keeps State.job _ (fun _ _ => rset_job _ _ _) _ s

theorem recordWords_cards (r : FaultRec) : (recordWords r s).cards = s.cards :=
  foldl_keeps State.cards _ (fun _ _ => rset_cards _ _ _) _ s

theorem recordWords_hbm (r : FaultRec) : (recordWords r s).hbm = s.hbm :=
  foldl_keeps State.hbm _ (fun _ _ => rset_hbm _ _ _) _ s

theorem recordWords_out (r : FaultRec) : (recordWords r s).out = s.out :=
  foldl_keeps State.out _ (fun _ _ => rset_out _ _ _) _ s

theorem recordWords_step (r : FaultRec) : (recordWords r s).step = s.step :=
  foldl_keeps State.step _ (fun _ _ => rset_step _ _ _) _ s

@[simp] theorem faultState_recordWords (r : FaultRec) : faultState (recordWords r s) = faultState s :=
  foldl_keeps faultState _ (fun _ _ => faultState_rset _ _ _) _ s

theorem recordWords_word (r : FaultRec) {i : Nat} (h : i < 4) : rget (recordWords r s) (Reg.faultRec i) = recWord r i := by
  have cases : i = 0 ∨ i = 1 ∨ i = 2 ∨ i = 3 := by omega
  rcases cases with rfl | rfl | rfl | rfl <;>
    simp (disch := decide) [recordWords, List.range_succ, rget_rset_ne]

theorem rget_recordWords_ne (r : FaultRec) {a : Nat} (h : ∀ i, i < 4 → a ≠ Reg.faultRec i) :
    rget (recordWords r s) a = rget s a := by
  simp [recordWords, List.range_succ, rget_rset_ne, h]

@[simp] theorem faultState_glbRecord (r : FaultRec) : faultState (glbRecord r s) = faultState s := by
  simp [glbRecord_def]

@[simp] theorem glbRecord_cards (r : FaultRec) : (glbRecord r s).cards = s.cards := by
  rw [glbRecord_def, setF_cards, markFaulted_cards, recordWords_cards]

@[simp] theorem glbRecord_hbm (r : FaultRec) : (glbRecord r s).hbm = s.hbm := by
  rw [glbRecord_def, setF_hbm, markFaulted_hbm, recordWords_hbm]

@[simp] theorem glbRecord_out (r : FaultRec) : (glbRecord r s).out = s.out := by
  rw [glbRecord_def, setF_out, markFaulted_out, recordWords_out]

@[simp] theorem glbRecord_haltWanted (r : FaultRec) : (glbRecord r s).job.haltWanted = s.job.haltWanted := by
  rw [glbRecord_def, setF_job, markFaulted_haltWanted, recordWords_job]

@[simp] theorem step_glbRecord (r : FaultRec) : (glbRecord r s).step = s.step := by
  rw [glbRecord_def, setF_step, step_markFaulted, recordWords_step]

theorem glbRecord_word (r : FaultRec) {i : Nat} (h : i < 4) : rget (glbRecord r s) (Reg.faultRec i) = recWord r i := by
  have apart : Reg.faultRec i ≠ Reg.jobStatus := by
    simp only [Reg.faultRec, Reg.jobStatus, reg_glb]
    omega
  rw [glbRecord_def, rget_setF_ne _ _ _ _ apart, rget_markFaulted, recordWords_word s r h]

theorem glbRecord_error (r : FaultRec) : getF (glbRecord r s) Reg.jobStatus 47 32 = r.code % 2 ^ 16 := by
  rw [glbRecord_def, getF_setF_same _ _ _ _ _ (by decide) (by decide)]

/-- The fields of `GLB_JOB_STATUS` beside `ERROR`. -/
theorem glbRecord_status (r : FaultRec) (hi lo : Nat) (apart : 47 < lo ∨ hi < 32) :
    getF (glbRecord r s) Reg.jobStatus hi lo = getF s Reg.jobStatus hi lo := by
  have words : rget (recordWords r s) Reg.jobStatus = rget s Reg.jobStatus := rget_recordWords_ne s r fun i small => by
    simp only [Reg.faultRec, Reg.jobStatus, reg_glb]
    omega
  rw [glbRecord_def, getF_setF_other _ _ _ _ _ _ _ (by decide) (by decide) apart, getF_markFaulted, getF, words, getF]

theorem rget_glbRecord_ne (r : FaultRec) {a : Nat} (status : a ≠ Reg.jobStatus) (h : ∀ i, i < 4 → a ≠ Reg.faultRec i) :
    rget (glbRecord r s) a = rget s a := by
  rw [glbRecord_def, rget_setF_ne _ _ _ _ status, rget_markFaulted, rget_recordWords_ne s r h]

/-! ## The fault as a whole -/

/-- A fault of the watchdog class in a running step is kept for R71. -/
def noteStall (r : FaultRec) (s : State) : State :=
  if s.step.active then
    { s with job := { s.job with
        stallNow := if decide (0x0301 ≤ r.code ∧ r.code ≤ 0x0304) then some (r.step, r.stream, r.entry) else none } }
  else s

/-- The marks of a fault before the step ends. -/
def markFault (ty : Blk) (r : FaultRec) (s : State) : State :=
  if ty = .mov ∨ ty = .rng ∨ ty = .rcl then noteUnitFault (blkCode ty) r.inst 0 (noteStall r s) else noteStall r s

theorem noteStall_eq (r : FaultRec) :
    noteStall r s = { s with job := { s.job with stallNow := (noteStall r s).job.stallNow } } := by
  cases h : s.step.active <;> simp [noteStall, h]

theorem markFault_eq (ty : Blk) (r : FaultRec) : markFault ty r s =
    { noteStall r s with unitFaults := (markFault ty r s).unitFaults } := by
  unfold markFault
  split <;> rfl

@[simp] theorem regs_markFault (ty : Blk) (r : FaultRec) : (markFault ty r s).regs = s.regs := by
  rw [markFault_eq, noteStall_eq]

@[simp] theorem markFault_cards (ty : Blk) (r : FaultRec) : (markFault ty r s).cards = s.cards := by
  rw [markFault_eq, noteStall_eq]

@[simp] theorem markFault_hbm (ty : Blk) (r : FaultRec) : (markFault ty r s).hbm = s.hbm := by
  rw [markFault_eq, noteStall_eq]

@[simp] theorem markFault_out (ty : Blk) (r : FaultRec) : (markFault ty r s).out = s.out := by
  rw [markFault_eq, noteStall_eq]

@[simp] theorem markFault_haltWanted (ty : Blk) (r : FaultRec) : (markFault ty r s).job.haltWanted = s.job.haltWanted := by
  rw [markFault_eq, noteStall_eq]

@[simp] theorem step_markFault (ty : Blk) (r : FaultRec) : (markFault ty r s).step = s.step := by
  rw [markFault_eq, noteStall_eq]

@[simp] theorem faultState_markFault (ty : Blk) (r : FaultRec) : faultState (markFault ty r s) = faultState s := by
  rw [markFault_eq, noteStall_eq]
  rfl

theorem hardEnd_eq (ty : Blk) (r : FaultRec) :
    hardEnd ty r s = abortStep r.code (recBytes r) (markFault ty r (stopRestart r.code (glbRecord r s))) := rfl

@[simp] theorem faultState_hardEnd (ty : Blk) (r : FaultRec) : faultState (hardEnd ty r s) = faultState s := by
  simp [hardEnd_eq]

@[simp] theorem faultState_hardFault (ty : Blk) (r : FaultRec) : faultState (hardFault ty r s) = faultState s := by
  simp [hardFault]

@[simp] theorem faultState_bankFault (code kind pass st entry st2 : Nat) :
    faultState (bankFault code kind pass st entry st2 s) = faultState s := by
  simp [bankFault]

/-- What a hard fault shows once it has ended the step: its code and its record. -/
structure FaultShown (code : Nat) (word : Nat → W64) (t : State) : Prop where
  ended : t.step.active = false
  error : getF t Reg.jobStatus 47 32 = code % 2 ^ 16
  record : ∀ i, i < 4 → rget t (Reg.faultRec i) = word i

theorem faultRec_apart {i : Nat} (h : i < 4) : Reg.faultRec i < 0x2000000 ∧ Reg.faultRec i ≠ Reg.jobStatus ∧
    Reg.faultRec i ≠ Reg.watchdog ∧ Reg.faultRec i ≠ Reg.intStatus .glb 0 ∧ Reg.faultRec i ≠ Reg.restartStatus := by
  simp only [Reg.faultRec, Reg.jobStatus, Reg.watchdog, Reg.intStatus, Reg.restartStatus, reg_glb]
  omega

theorem hardEnd_shown (ty : Blk) (r : FaultRec) : FaultShown r.code (recWord r) (hardEnd ty r s) := by
  have quiet : quietRegs (hardEnd ty r s) = quietRegs (stopRestart r.code (glbRecord r s)) := by
    rw [hardEnd_eq, quietRegs_abortStep, quietRegs_congr (regs_markFault _ ty r)]
  refine ⟨by rw [hardEnd_eq, abortStep_ends], ?_, fun i h => ?_⟩
  · rw [getF_of_quietRegs quiet _ (by decide), getF, rget_stopRestart_ne _ _ (by decide) (by decide), ← getF, glbRecord_error]
  · obtain ⟨low, status, limit, int, restart⟩ := faultRec_apart h
    rw [rget_of_quietRegs quiet low status limit int, rget_stopRestart_ne _ _ restart int, glbRecord_word _ _ h]

theorem hardFault_shown (ty : Blk) (r : FaultRec) : FaultShown r.code (recWord r) (hardFault ty r s) := hardEnd_shown _ ty r

/-- A step that ran has been aborted. -/
theorem hardEnd_aborted {s : State} (h : s.step.active = true) (ty : Blk) (r : FaultRec) :
    (hardEnd ty r s).step.aborted = true := by
  have running : (markFault ty r (stopRestart r.code (glbRecord r s))).step.active = true := by
    rw [step_markFault, step_stopRestart, step_glbRecord, h]
  rw [hardEnd_eq, abortStep_aborted running]

/-- What a report shows in its fields. -/
theorem FaultShown.code_field {r : FaultRec} {t : State} (h : FaultShown r.code (recWord r) t) :
    getF t (Reg.faultRec 0) 15 0 = r.code % 2 ^ 16 := by
  rw [getF, h.record 0 (by decide), recWord_code]

theorem FaultShown.stream_field {r : FaultRec} {t : State} (h : FaultShown r.code (recWord r) t) :
    getF t (Reg.faultRec 0) 63 48 = r.stream % 2 ^ 16 := by
  rw [getF, h.record 0 (by decide), recWord_stream]

theorem FaultShown.entry_field {r : FaultRec} {t : State} (h : FaultShown r.code (recWord r) t) :
    getF t (Reg.faultRec 1) 27 0 = r.entry % 2 ^ 28 := by
  rw [getF, h.record 1 (by decide), recWord_entry]

theorem FaultShown.detail_field {r : FaultRec} {t : State} (h : FaultShown r.code (recWord r) t) :
    getF t (Reg.faultRec 2) 63 32 = r.detail % 2 ^ 32 := by
  rw [getF, h.record 2 (by decide), recWord_detail]

end

end Sys2Proof.Machine
end

