-- ==== Sys2Proof/Proofs/PassWaits.lean ====
section
/-! Waits on hall passes, the count words that they touch (03 R57, R59, 20 R442), and the statement of O15. -/

namespace Sys2Proof.Machine
open Sys2Proof.Stmt

/-! ## Count words -/

/-- One event of the physical world at the count words `ps`. -/
def passWord (ps : List Nat) (st idx : Nat) (s : State) : Phys → State
  | .passCorrected q => if ps.contains q then countCorrected 1 (errCount .hpb (bankOf s q) 1 s) else s
  | .passUncorrectable q =>
    if ps.contains q then bankFault 0x1401 2 q st idx 0xFFFF (noteUnitFault 9 (bankOf s q) 0 s) else s
  | _ => s

theorem passWords_eq (ph : List Phys) (ps : List Nat) (st idx : Nat) (s : State) :
    passWords ph ps st idx s = ph.foldl (passWord ps st idx) s := rfl

@[simp] theorem faultState_passWord (ps : List Nat) (st idx : Nat) (s : State) (p : Phys) :
    faultState (passWord ps st idx s p) = faultState s := by
  cases p <;> simp [passWord]

@[simp] theorem faultState_passWords (ph : List Phys) (ps : List Nat) (st idx : Nat) (s : State) :
    faultState (passWords ph ps st idx s) = faultState s := by
  rw [passWords_eq]
  exact foldl_keeps faultState _ (faultState_passWord ps st idx) ph s

/-! ### Corrected words -/

theorem bankOf_lt (s : State) (p : Nat) : bankOf s p < 33 := by
  unfold bankOf physOf
  cases found : (List.range (built .hpb)).find? (serves s .hpb (p / 1024)) with
  | none => simp
  | some b => simpa [built] using List.mem_of_find?_eq_some found

/-- The registers that the corrections of count words count in. -/
def bankCounts : List Nat := (List.range 33).map (Reg.errCount .hpb)

theorem errCount_mem_bankCounts (s : State) (p : Nat) : Reg.errCount .hpb (bankOf s p) ∈ bankCounts :=
  List.mem_map.2 ⟨_, List.mem_range.2 (bankOf_lt s p), rfl⟩

/-- A state that corrections alone have changed: counts of the banks, and the step's count of class 1 events. -/
structure Corrected (s t : State) : Prop where
  counts : RegsBut bankCounts s t
  rest : t = { s with regs := t.regs, step := { s.step with corrected := t.step.corrected } }

theorem Corrected.refl (s : State) : Corrected s s := ⟨fun _ _ => rfl, rfl⟩

theorem Corrected.trans {s t u : State} (h : Corrected s t) (k : Corrected t u) : Corrected s u where
  counts a off := (k.counts a off).trans (h.counts a off)
  rest := by rw [k.rest, h.rest]

theorem countCorrected_eq (n : Nat) (s : State) :
    countCorrected n s = { s with step := { s.step with corrected := (countCorrected n s).step.corrected } } := by
  unfold countCorrected
  split <;> rfl

theorem corrected_passCorrected (q : Nat) (s : State) : Corrected s (countCorrected 1 (errCount .hpb (bankOf s q) 1 s)) where
  counts a off := by
    rw [countCorrected_eq]
    exact rget_incSat_ne s _ _ _ fun same => off (same ▸ errCount_mem_bankCounts s q)
  rest := by
    rw [countCorrected_eq]
    rfl

theorem corrected_passWord {ph : List Phys} (good : ∀ q, Phys.passUncorrectable q ∉ ph) (ps : List Nat) (st idx : Nat)
    (s : State) {p : Phys} (mem : p ∈ ph) : Corrected s (passWord ps st idx s p) := by
  cases p with
  | passCorrected q =>
    simp only [passWord]
    split
    · exact corrected_passCorrected q s
    · exact .refl s
  | passUncorrectable q => exact absurd mem (good q)
  | _ => exact .refl s

/-- Without an uncorrectable word the count words only count their corrections. -/
theorem corrected_passWords {ph : List Phys} (good : ∀ q, Phys.passUncorrectable q ∉ ph) (ps : List Nat) (st idx : Nat)
    (s : State) : Corrected s (passWords ph ps st idx s) := by
  rw [passWords_eq]
  induction ph generalizing s with
  | nil => exact .refl s
  | cons p ph ih =>
    exact (corrected_passWord good ps st idx s (List.mem_cons_self ..)).trans
      (ih (fun q mem => good q (List.mem_cons_of_mem _ mem)) _)

/-! ### Uncorrectable words -/

/-- A fault that has ended the step with a code, as its record and `ERROR` show it. -/
structure EndedWith (code : Nat) (t : State) : Prop where
  ended : t.step.active = false
  error : getF t Reg.jobStatus 47 32 = code
  record : getF t (Reg.faultRec 0) 15 0 = code

theorem FaultShown.endedWith {r : FaultRec} {t : State} (h : FaultShown r.code (recWord r) t) (small : r.code < 2 ^ 16) :
    EndedWith r.code t :=
  ⟨h.ended, by rw [h.error, Nat.mod_eq_of_lt small], by rw [h.code_field, Nat.mod_eq_of_lt small]⟩

/-- A fault of a bank ends the step with its code. -/
theorem endedWith_bankFault {code : Nat} (small : code < 2 ^ 16) (kind pass st entry st2 : Nat) (s : State) :
    EndedWith code (bankFault code kind pass st entry st2 s) := by
  unfold bankFault
  have shown := hardFault_shown (hpbLog (bankOf s pass) kind pass st st2 s) .hpb
    (plainRec code 4 .hpb (bankOf s pass) (if st2 = 0xFFFF then st else st2) entry (stepNo s) pass)
  exact shown.endedWith small

theorem EndedWith.countCorrected {code : Nat} {s : State} (h : EndedWith code s) (n b : Nat) :
    EndedWith code (countCorrected n (errCount .hpb b 1 s)) := by
  have idle : Machine.countCorrected n (errCount .hpb b 1 s) = errCount .hpb b 1 s := by simp [Machine.countCorrected, h.ended]
  have apart {a : Nat} (low : a < 0x2000000) : a ≠ Reg.errCount .hpb b :=
    Nat.ne_of_lt (low.trans_le (le_reg_of_ne_glb (by decide) b _))
  rw [idle]
  refine ⟨by simpa using h.ended, ?_, ?_⟩
  · rw [getF, errCount, rget_incSat_ne _ _ _ _ (apart (by decide)), ← getF, h.error]
  · rw [getF, errCount, rget_incSat_ne _ _ _ _ (apart (by decide)), ← getF, h.record]

theorem EndedWith.passWord {s : State} (h : EndedWith 0x1401 s) (ps : List Nat) (st idx : Nat) (p : Phys) :
    EndedWith 0x1401 (passWord ps st idx s p) := by
  unfold Machine.passWord
  split
  · split
    · exact h.countCorrected _ _
    · exact h
  · split
    · exact endedWith_bankFault (by decide) _ _ _ _ _ _
    · exact h
  · exact h

theorem EndedWith.passWords {s : State} (h : EndedWith 0x1401 s) (ph : List Phys) (ps : List Nat) (st idx : Nat) :
    EndedWith 0x1401 (ph.foldl (Machine.passWord ps st idx) s) := by
  induction ph generalizing s with
  | nil => exact h
  | cons p ph ih => exact ih (h.passWord ps st idx p)

/-- An uncorrectable word among those touched raises `PASS_ECC`. -/
theorem endedWith_passWords {ph : List Phys} {ps : List Nat} {q : Nat} (touched : q ∈ ps)
    (bad : Phys.passUncorrectable q ∈ ph) (st idx : Nat) (s : State) : EndedWith 0x1401 (passWords ph ps st idx s) := by
  obtain ⟨pre, post, split⟩ := List.append_of_mem bad
  have raised (t : State) : EndedWith 0x1401 (passWord ps st idx t (.passUncorrectable q)) := by
    simp only [passWord, List.contains_eq_mem, touched, decide_true, if_true]
    exact endedWith_bankFault (by decide) _ _ _ _ _ _
  rw [passWords_eq, split, List.foldl_append, List.foldl_cons]
  exact (raised _).passWords post ps st idx

/-! ## The wait -/

/-- A fault leaves the hall passes, the waiters and the streams. -/
theorem passes_of_faultState {s t : State} (h : faultState t = faultState s) :
    t.passes = s.passes ∧ t.waiters = s.waiters ∧ t.streams = s.streams := by
  have passes : (faultState t).passes = (faultState s).passes := congrArg State.passes h
  have waiters : (faultState t).waiters = (faultState s).waiters := congrArg State.waiters h
  have streams : (faultState t).streams = (faultState s).streams := congrArg State.streams h
  exact ⟨passes, waiters, streams⟩

/-- A pass that no other stream waits on takes the stream as its waiter, and the wait may be tested. -/
theorem noteWaiter_own {p st : Nat} {s : State} (idx : Nat)
    (own : cellGet noWaiter s.waiters p = 0xFFFF ∨ cellGet noWaiter s.waiters p = st) :
    ∃ w, noteWaiter p st idx s = ({ s with waiters := w }, true) ∧ cellGet noWaiter w p = st ∧
      ∀ q, q ≠ p → cellGet noWaiter w q = cellGet noWaiter s.waiters q := by
  by_cases first : cellGet noWaiter s.waiters p = 0xFFFF
  · exact ⟨cellSet noWaiter s.waiters p st, by simp [noteWaiter, first], cellGet_set_same _ _ _ _,
      fun q other => cellGet_set_ne _ _ _ other⟩
  · have again : cellGet noWaiter s.waiters p = st := own.resolve_left first
    exact ⟨s.waiters, by simp [noteWaiter, again, again ▸ first], again, fun _ _ => rfl⟩

theorem noteWaiter_other {p st : Nat} {s : State} (idx : Nat) (taken : cellGet noWaiter s.waiters p ≠ 0xFFFF)
    (other : cellGet noWaiter s.waiters p ≠ st) :
    noteWaiter p st idx s = (bankFault 0x0304 1 p (cellGet noWaiter s.waiters p) idx st s, false) := by
  simp [noteWaiter, taken, other]

/-- The stream after its wait has been tested against a count of `n`. -/
def waitTested (e : Entry) (n : Nat) (x : Stream) : Stream :=
  if e.waitCount ≤ n then { x with released := true, blocked := false } else { x with blocked := true }

theorem waitTested_keeps (e : Entry) (n : Nat) (x : Stream) : (waitTested e n x).pos = x.pos ∧
    (waitTested e n x).inflight = x.inflight ∧ (waitTested e n x).entries = x.entries := by
  unfold waitTested
  split <;> exact ⟨rfl, rfl, rfl⟩

/-- The count of the waited pass after the test. -/
def waitTaken (e : Entry) (s : State) : State :=
  if e.waitCount ≤ passCount s e.waitPass then setPass e.waitPass (passCount s e.waitPass - e.waitCount) s else s

theorem testWait_own {st : Nat} {x : Stream} {e : Entry} {s : State} (hx : streamAt s st = some x)
    (own : cellGet noWaiter s.waiters e.waitPass = 0xFFFF ∨ cellGet noWaiter s.waiters e.waitPass = st) :
    ∃ w, testWait st x e s =
        setStream st (waitTested e (passCount s e.waitPass) x) (waitTaken e { s with waiters := w }) ∧
      cellGet noWaiter w e.waitPass = st ∧ ∀ q, q ≠ e.waitPass → cellGet noWaiter w q = cellGet noWaiter s.waiters q := by
  obtain ⟨w, noted, mine, others⟩ := noteWaiter_own x.pos own
  refine ⟨w, ?_, mine, others⟩
  have count : passCount { s with waiters := w } e.waitPass = passCount s e.waitPass := rfl
  have before : streamAt { s with waiters := w } st = some x := hx
  have taken (n : Nat) : streamAt (setPass e.waitPass n { s with waiters := w }) st = some x := hx
  unfold testWait
  simp only [noted, Bool.not_true, Bool.false_eq_true, if_false, count, waitTested, waitTaken]
  split
  · rw [modStream_of_streamAt (taken _)]
  · rw [modStream_of_streamAt before]

theorem passCount_waitTaken_ne (e : Entry) (s : State) {p : Nat} (h : p ≠ e.waitPass) :
    passCount (waitTaken e s) p = passCount s p := by
  unfold waitTaken
  split
  · exact passCount_setPass_ne _ _ h
  · rfl

theorem waitTaken_eq (e : Entry) (s : State) : waitTaken e s = { s with passes := (waitTaken e s).passes } := by
  unfold waitTaken
  split <;> rfl

theorem execPassWaitRelease_runs {st : Nat} {ph : List Phys} {x : Stream} {e : Entry} {s : State}
    (hx : streamAt s st = some x) (he : x.next? = some e) (waits : atWait s x e = true) :
    execPassWaitRelease st ph s =
      .next (if (passWords ph [e.waitPass] st x.pos s).step.active then
        testWait st x e (passWords ph [e.waitPass] st x.pos s) else passWords ph [e.waitPass] st x.pos s) := by
  simp [execPassWaitRelease, hx, he, waits]

theorem active_of_atWait {s : State} {x : Stream} {e : Entry} (h : atWait s x e = true) : s.step.active = true := by
  simp only [atWait, stepRuns, Bool.and_eq_true] at h
  tauto

/-- What a wait of the stream's own pass comes to, behind corrected words alone. -/
theorem waits_of_own {st : Nat} {ph : List Phys} {x : Stream} {e : Entry} {s : State} (hx : streamAt s st = some x)
    (he : x.next? = some e) (waits : atWait s x e = true) (good : ∀ q, Phys.passUncorrectable q ∉ ph)
    (own : cellGet noWaiter s.waiters e.waitPass = 0xFFFF ∨ cellGet noWaiter s.waiters e.waitPass = st) :
    ∃ u w, Corrected s u ∧ execPassWaitRelease st ph s =
        .next (setStream st (waitTested e (passCount s e.waitPass) x) (waitTaken e { u with waiters := w })) ∧
      cellGet noWaiter w e.waitPass = st ∧ ∀ q, q ≠ e.waitPass → cellGet noWaiter w q = cellGet noWaiter s.waiters q := by
  have words := corrected_passWords good [e.waitPass] st x.pos s
  have runs := execPassWaitRelease_runs (ph := ph) hx he waits
  generalize passWords ph [e.waitPass] st x.pos s = u at words runs
  have same : u.streams = s.streams ∧ u.waiters = s.waiters ∧ u.passes = s.passes ∧ u.step.active = s.step.active := by
    rw [words.rest]
    exact ⟨rfl, rfl, rfl, rfl⟩
  obtain ⟨streams, waiters, passes, active⟩ := same
  have count : passCount u e.waitPass = passCount s e.waitPass := by rw [passCount, passes, passCount]
  obtain ⟨w, tested, mine, others⟩ := testWait_own (e := e) ((streamAt_congr streams st).trans hx) (by rwa [waiters])
  rw [active, active_of_atWait waits, if_pos rfl, tested, count] at runs
  exact ⟨u, w, words, runs, mine, by rwa [waiters] at others⟩

/-- Settles O15: `waits_of_own`, and the two faults by what a fault of a bank shows. -/
theorem passWaitTestsAndSubtracts : Obligations.PassWaitTestsAndSubtracts := by
  unfold Obligations.PassWaitTestsAndSubtracts
  refine ⟨?own, ?contended, ?uncorrectable⟩
  case own =>
    intro st ph x e s hx he waits good own
    obtain ⟨u, w, words, runs, mine, others⟩ := waits_of_own hx he waits good own
    have there : streamAt (waitTaken e { u with waiters := w }) st = some x := by
      rw [waitTaken_eq, words.rest]
      exact hx
    have counts (p : Nat) : passCount { u with waiters := w } p = passCount s p := by
      rw [words.rest]
      rfl
    obtain ⟨pos, inflight, entries⟩ := waitTested_keeps e (passCount s e.waitPass) x
    refine ⟨_, _, runs, streamAt_setStream_same there _, pos, inflight, entries, fun enough => ?_, fun few => ?_, ?_,
      fun p other => ⟨?_, ?_⟩, fun i other => ?_, fun a off => ?_, ?_⟩
    · refine ⟨by rw [waitTested, if_pos enough], by rw [waitTested, if_pos enough], ?_⟩
      rw [waitTaken, counts, if_pos enough]
      exact passCount_setPass_same _ _ _
    · refine ⟨by rw [waitTested, if_neg (by omega)], by rw [waitTested, if_neg (by omega)], ?_⟩
      rw [waitTaken, counts, if_neg (by omega)]
      exact counts _
    · rw [waitTaken_eq]
      exact mine
    · exact (passCount_waitTaken_ne e _ other).trans (counts p)
    · rw [waitTaken_eq]
      exact others p other
    · rw [streamAt_setStream_ne _ _ other, waitTaken_eq, words.rest]
      rfl
    · rw [waitTaken_eq]
      exact words.counts a off
    · rw [waitTaken_eq, words.rest]
      rfl
  case contended =>
    intro st x e s hx he waits taken other
    have fault := endedWith_bankFault (code := 0x0304) (by decide) 1 e.waitPass (cellGet noWaiter s.waiters e.waitPass) x.pos st s
    have kept := passes_of_faultState
      (faultState_bankFault s 0x0304 1 e.waitPass (cellGet noWaiter s.waiters e.waitPass) x.pos st)
    refine ⟨_, ?_, fault.ended, fault.error, fault.record, kept⟩
    have tested : testWait st x e s =
        bankFault 0x0304 1 e.waitPass (cellGet noWaiter s.waiters e.waitPass) x.pos st s := by
      simp [testWait, noteWaiter_other _ taken other]
    rw [← tested]
    simp [exec, execPassWaitRelease_runs hx he waits, passWords_eq, active_of_atWait waits]
  case uncorrectable =>
    intro st ph x e s hx he waits bad
    have fault := endedWith_passWords (List.mem_singleton_self _) bad st x.pos s
    refine ⟨_, ?_, fault.ended, fault.error, fault.record, passes_of_faultState (faultState_passWords ph [e.waitPass] st x.pos s)⟩
    simp [exec, execPassWaitRelease_runs hx he waits, fault.ended]

end Sys2Proof.Machine
end

