-- ==== Sys2Proof/Proofs/Watchdogs.lean ====
section
/-! The watchdogs of a step (03 R69, R70), and the statement of O17. -/

namespace Sys2Proof.Machine
open Sys2Proof.Stmt

/-! ## Outputs behind memory traffic

A fault's halt writes the scale table back; what the device has put out before stays put out. -/

/-- Everything that a state has put out, another has too. -/
def Emits (s t : State) : Prop := s.out <+: t.out

theorem Emits.refl (s : State) : Emits s s := List.prefix_rfl

theorem Emits.trans {s t u : State} (h : Emits s t) (k : Emits t u) : Emits s u := List.IsPrefix.trans h k

theorem Emits.of_out {s t u : State} (h : Emits s t) (same : u.out = t.out) : Emits s u := by
  rw [Emits, same]
  exact h

theorem Emits.mem {s t : State} (h : Emits s t) {o : Out} (mem : o ∈ s.out) : o ∈ t.out := List.IsPrefix.subset h mem

theorem Emits.emit {s t : State} (h : Emits s t) (o : Out) : Emits s (emit o t) := h.trans (List.prefix_append _ _)

theorem Emits.setInt {s t : State} (h : Emits s t) (ty : Blk) (i b : Nat) : Emits s (setInt ty i b t) := by
  have raised : Emits s (setB t (Reg.intStatus ty i) b true) := h.of_out (setB_out _ _ _ _)
  unfold Machine.setInt irqEdge
  split
  · exact (raised.emit _).emit _
  · exact raised

theorem ite_out (p : Prop) [Decidable p] (s t : State) : (if p then s else t).out = if p then s.out else t.out :=
  apply_ite State.out p s t

section
variable (s : State)

@[simp] theorem countCorrected_out (n : Nat) : (countCorrected n s).out = s.out := by rw [countCorrected_eq]

@[simp] theorem touchLine_out (line : Nat) : (touchLine line s).out = s.out := by
  simp [touchLine, touchCrossing_eq, ite_out]

@[simp] theorem putLine_out (line : Nat) (data chk : List Byte) : (putLine s line data chk).out = s.out := by simp [putLine]

@[simp] theorem hbcLog_out (p : Place) (kind cls rgn : Nat) (who : Reader) : (hbcLog p kind cls rgn who s).out = s.out := by
  simp [hbcLog, ite_out]

@[simp] theorem loseChannel_out (i : Nat) : (loseChannel i s).1.out = s.out := by
  unfold loseChannel
  split <;> simp

@[simp] theorem hbcUncorrectable_out (p : Place) (kind cls rgn : Nat) (who : Reader) :
    (hbcUncorrectable p kind cls rgn who s).1.out = s.out := by
  have counted : (hbcLog p kind cls rgn who (errCount .hbc p.inst 1 (incMod s (Reg.hbcUe p.inst) 47 0 1))).out = s.out := by
    simp
  unfold hbcUncorrectable
  generalize hbcLog p kind cls rgn who (errCount .hbc p.inst 1 (incMod s (Reg.hbcUe p.inst) 47 0 1)) = t at counted ⊢
  dsimp only
  split
  · split <;> simp [ite_out, counted]
  · exact counted

@[simp] theorem dieReports_out (ph : List Phys) (line : Nat) : (dieReports ph line s).out = s.out := by
  simp [dieReports, ite_out]

end

theorem Emits.hbcCorrection {s t : State} (h : Emits s t) (i : Nat) : Emits s (hbcCorrection i t) := by
  have counted : Emits s (countCorrected 1 (incSat (incMod t (Reg.hbcCe i) 47 0 1) (Reg.hbcCeLimit i) 62 32 1)) :=
    h.of_out (by simp)
  unfold Machine.hbcCorrection
  dsimp only
  split
  · exact (counted.setInt _ _ _).emit _
  · exact counted

theorem Emits.keepPeer {s t : State} (h : Emits s t) (ph : List Phys) (x : Nat × Option (List Byte × Nat)) :
    Emits s (keepPeer ph t x) := by
  have touched : Emits s (touchLine x.1 (dieReports ph x.1 t)) := h.of_out (by simp)
  unfold Machine.keepPeer
  dsimp only
  split
  · split
    · exact touched
    · exact (touched.of_out (putLine_out _ _ _ _)).hbcCorrection _
  · exact touched

theorem Emits.foldl {β : Type} {f : State → β → State} {s : State} (step : ∀ t b, Emits s t → Emits s (f t b)) {t : State}
    (h : Emits s t) (l : List β) : Emits s (l.foldl f t) := by
  induction l generalizing t with
  | nil => exact h
  | cons b l ih => exact ih (step t b h)

/-- The state of a line's outcome, held apart from the operations that made it. -/
theorem Emits.lineOut {s t : State} (h : Emits s t) {d : List Byte} {e : List Evt} {b : Bool} :
    Emits s (LineOut.mk t d e b).s := h

theorem emits_readLine (ph : List Phys) (who : Reader) (act : Option (Nat × Nat × Nat)) (line : Nat) (s : State) :
    Emits s (readLine s ph who act line).s := by
  cases hr : regionOf s line with
  | none =>
    simp only [readLine, hr]
    exact .refl s
  | some r =>
    have touched : Emits s (touchLine line (if dieFixed ph line then incMod s (Reg.hbcOde (locate s line).inst) 47 0 1
        else s)) := (Emits.refl s).of_out (by simp [ite_out])
    simp only [readLine, hr]
    generalize touchLine line (if dieFixed ph line = true then incMod s (Reg.hbcOde (locate s line).inst) 47 0 1 else s) = t
      at touched ⊢
    generalize locate s line = p
    have counted {u : State} (h : Emits s u) :
        Emits s (if dieBad ph line then errCount .hbc p.inst 1 (incMod u (Reg.hbcUe p.inst) 47 0 1) else u) :=
      h.of_out (by simp [ite_out])
    split
    · split
      · exact (counted touched).lineOut
      · exact (counted ((touched.of_out (putLine_out _ _ _ _)).hbcCorrection _)).lineOut
      · split
        · have peers := Emits.foldl (f := keepPeer ph) (fun u x h => Emits.keepPeer h ph x) touched
            ((stripePeers r line).zip ((stripePeers r line).map (rsLine t ph)))
          split
          · exact (counted ((peers.of_out (putLine_out _ _ _ _)).hbcCorrection _)).lineOut
          · exact (peers.of_out (hbcUncorrectable_out ..)).lineOut
        · exact (touched.of_out (hbcUncorrectable_out ..)).lineOut
    · split
      · split
        · exact (counted touched).lineOut
        · split
          · exact (touched.of_out (by simp)).lineOut
          · split
            · exact (touched.of_out (by simp)).lineOut
            · exact (counted touched).lineOut
      · split
        · exact (touched.of_out (hbcUncorrectable_out ..)).lineOut
        · exact touched.lineOut

/-- The state of a written range, likewise. -/
theorem Emits.span {s t : State} (h : Emits s t) {d : List Byte} {e : List Evt} {b : Bool} : Emits s (Span.mk t d e b).s := h

theorem emits_writeLine (ph : List Phys) (who : Reader) (tags : Nat × Nat × Nat) (line o : Nat) (bs : List Byte) (s : State) :
    Emits s (writeLine s ph who tags line o bs).s := by
  unfold writeLine
  split
  · exact (Emits.refl s).span
  · split
    · exact (Emits.refl s).span
    · split
      · exact ((Emits.refl s).of_out (putLine_out _ _ _ _)).span
      · exact ((emits_readLine ph who none line s).of_out (putLine_out _ _ _ _)).span

theorem emits_writeLines (ph : List Phys) (who : Reader) (tags : Nat → Nat × Nat × Nat) (n line o : Nat) (bs : List Byte)
    (s : State) : Emits s (writeLines ph who tags n line o bs s).s := by
  induction n generalizing line o bs s with
  | zero => exact .refl s
  | succ n ih => exact ((emits_writeLine ph who (tags line) line o (bs.take (64 - o)) s).trans (ih _ _ _ _)).span

theorem Emits.scaleWriteback {s t : State} (h : Emits s t) : Emits s (scaleWriteback t) :=
  .foldl (f := fun (u : State) (i : Nat) => (hbmWrite u [] Reader.traffic (getF t Reg.scaleTable 47 8 * 256 + 128 * i)
    (scaleBytes (cellGet noScale u.census.scale i))).s) (fun _ _ k => k.trans (emits_writeLines ..)) h _

theorem Emits.toHalted {s t : State} (h : Emits s t) : Emits s (toHalted t) := by
  unfold Machine.toHalted
  exact (h.scaleWriteback.of_out (setJobState_out _ _)).setInt _ _ _

theorem Emits.haltNow {s t : State} (h : Emits s t) : Emits s (haltNow t) := by
  unfold Machine.haltNow
  split
  · have asked : Emits s { t with job := { t.job with haltWanted := false } } := h
    exact asked.toHalted
  · exact h

/-! ## Cards and outputs of a hard fault -/

theorem endedStep_out (code : Nat) (fault : List Byte) (s : State) : (endedStep code fault s).out = s.out := by
  rw [endedStep, discardPending_out, queueCard_out, endReady_out, markEnded_out, showElapsed_out]

theorem Emits.abortStep {s t : State} (h : Emits s t) (code : Nat) (fault : List Byte) : Emits s (abortStep code fault t) := by
  cases running : t.step.active with
  | false => rwa [abortStep_of_idle running]
  | true =>
    rw [abortStep_of_active running]
    exact (h.of_out (endedStep_out code fault t)).haltNow

/-- A step that ends has queued its card. -/
theorem abortStep_cards {s : State} (running : s.step.active = true) (code : Nat) (fault : List Byte) :
    ∃ c l, (abortStep code fault s).cards = s.cards ++ c :: l ∧ c.annex.isSome = true ∧ c.frees = false := by
  obtain ⟨l, more⟩ := discardPending_cards
    (queueCard (abortCard code fault (showElapsed s)) (endReady (markEnded (showElapsed s))))
  have before : (endReady (markEnded (showElapsed s))).cards = s.cards := by
    rw [endReady_cards, markEnded_cards, showElapsed_cards]
  refine ⟨abortCard code fault (showElapsed s), l, ?_, rfl, rfl⟩
  rw [abortStep_of_active running, haltNow_cards, endedStep, more, queueCard_cards, before, List.append_assoc, List.singleton_append]

/-- The state of a hard fault before the step ends: its report stands, and a restart under way has failed. -/
def reported (ty : Blk) (r : FaultRec) (s : State) : State := markFault ty r (stopRestart r.code (glbRecord r s))

theorem hardEnd_of_reported (ty : Blk) (r : FaultRec) (s : State) :
    hardEnd ty r s = abortStep r.code (recBytes r) (reported ty r s) := rfl

section
variable (ty : Blk) (r : FaultRec) (s : State)

/-- What a report leaves of what the end of the step reads or adds to. -/
theorem reported_keeps : (reported ty r s).cards = s.cards ∧ (reported ty r s).hbm = s.hbm ∧
    (reported ty r s).job.haltWanted = s.job.haltWanted ∧ (reported ty r s).step = s.step := by simp [reported]

theorem Emits.stopRestart {s t : State} (h : Emits s t) (code : Nat) : Emits s (stopRestart code t) := by
  have failed : Emits s (setF (dropRefill t) Reg.restartStatus 47 32 code) := h
  unfold Machine.stopRestart failRestart setPhase
  split
  · split
    · exact failed
    · exact (failed.of_out (setF_out _ _ _ _ _)).setInt _ _ _
  · exact h

theorem emits_reported : Emits s (reported ty r s) := by
  have recorded : Emits s (glbRecord r s) := (Emits.refl s).of_out (glbRecord_out s r)
  exact (recorded.stopRestart r.code).of_out (markFault_out _ ty r)

theorem reported_status (hi lo : Nat) (apart : 47 < lo ∨ hi < 32) :
    getF (reported ty r s) Reg.jobStatus hi lo = getF s Reg.jobStatus hi lo := by
  rw [reported, getF_congr (regs_markFault _ ty r), getF, rget_stopRestart_ne _ _ (by decide) (by decide), ← getF,
    glbRecord_status _ _ _ _ apart]

theorem reported_watchdog : rget (reported ty r s) Reg.watchdog = rget s Reg.watchdog := by
  rw [reported, rget_congr (regs_markFault _ ty r), rget_stopRestart_ne _ _ (by decide) (by decide),
    rget_glbRecord_ne _ _ (by decide) fun i small => (faultRec_apart small).2.2.1.symm]

end

/-! ## The report of a stall (03 R69) -/

/-- The row that a stall's record names: the first that is blocked on a pass, or the first. -/
def stallFirst (rows : List StallRow) : StallRow :=
  match rows.find? (fun (r : StallRow) => r.2.2.isSome) with
  | some r => r
  | none => rows.headD (0xFFFF, 0, none)

/-- The record of a stall. -/
def stallRec (rows : List StallRow) (s : State) : FaultRec :=
  plainRec (if (stallFirst rows).2.2.isSome then 0x0301 else 0x0302) 4 .glb 0 (stallFirst rows).1 (stallFirst rows).2.1 (stepNo s)
    (match (stallFirst rows).2.2 with
     | some q => q.1
     | none => 0)

theorem raiseStall_eq (rows : List StallRow) (s : State) :
    raiseStall rows s = hardFault .glb (stallRec rows s) (emit (.streamReport rows) s) := rfl

/-- The record names a blocked pass exactly if some row does. -/
theorem stallFirst_blocked (rows : List StallRow) : (stallFirst rows).2.2.isSome = rows.any fun r => r.2.2.isSome := by
  unfold stallFirst
  cases found : rows.find? (fun (r : StallRow) => r.2.2.isSome) with
  | some r =>
    have blocked : r.2.2.isSome = true := List.find?_some (p := fun (r : StallRow) => r.2.2.isSome) found
    rw [blocked, eq_comm, List.any_eq_true]
    exact ⟨r, List.mem_of_find?_eq_some found, blocked⟩
  | none =>
    have none_blocked := List.find?_eq_none.1 found
    rw [show (rows.any fun r => r.2.2.isSome) = false by simpa using none_blocked]
    cases rows with
    | nil => rfl
    | cons r rows => simpa using none_blocked r (List.mem_cons_self ..)

/-- A blocked row that comes first is the one that the record names. -/
theorem stallRec_cons (st pos : Nat) (q : Nat × Nat × Nat) (rows : List StallRow) (s : State) :
    stallRec ((st, pos, some q) :: rows) s = plainRec 0x0301 4 .glb 0 st pos (stepNo s) q.1 := rfl

theorem rget_showElapsed_ne (s : State) {a : Nat} (h : a ≠ Reg.watchdog) : rget (showElapsed s) a = rget s a := by
  cases stands : (!s.step.active || (updateHeld s && s.step.elapsedHeld)) with
  | true => simp only [showElapsed, stands, if_true]
  | false => rw [showElapsed_of_running stands, rget_markHeld, rget_setF_ne _ _ _ _ h, rget_takeFree]

/-- `ELAPSED` that stands at `LIMIT` goes on to stand there. -/
theorem showElapsed_at_limit {s : State} (h : getF s Reg.watchdog 63 32 = getF s Reg.watchdog 31 0) :
    getF (showElapsed s) Reg.watchdog 63 32 = getF s Reg.watchdog 31 0 := by
  cases stands : (!s.step.active || (updateHeld s && s.step.elapsedHeld)) with
  | true => simp only [showElapsed, stands, if_true, h]
  | false =>
    have small : getF s Reg.watchdog 31 0 < 2 ^ (63 + 1 - 32) := getF_lt s Reg.watchdog 31 0
    rw [showElapsed_of_running stands, getF_markHeld, getF_setF_same _ _ _ _ _ (by decide) (by decide), h,
      Nat.max_eq_left (Nat.min_le_left _ _), Nat.mod_eq_of_lt small]

/-- Where no halt is asked for, the end of a step changes neither HBM nor a register but the watchdog. -/
theorem abortStep_unwanted {s : State} (h : s.job.haltWanted = false) (code : Nat) (fault : List Byte) :
    (abortStep code fault s).hbm = s.hbm ∧ (abortStep code fault s).regs = (showElapsed s).regs := by
  cases running : s.step.active with
  | false =>
    have still : showElapsed s = s := by simp [showElapsed, running]
    rw [abortStep_of_idle running, still]
    exact ⟨rfl, rfl⟩
  | true =>
    have unwanted : (endedStep code fault s).job.haltWanted = false := by simpa [endedStep] using h
    rw [abortStep_of_active running, haltNow_of_unwanted unwanted]
    simp [endedStep]

/-- The GLB page keeps no error log of a fault and counts none. -/
theorem pageRecord_glb (r : FaultRec) (s : State) : pageRecord .glb r s = setInt .glb r.inst 0 s := by
  simp [pageRecord, countsFault]

/-- The state in which a stall's report has left and its fault stands in the GLB page. -/
def stalledState (rows : List StallRow) (s : State) : State := setInt .glb 0 0 (emit (.streamReport rows) s)

theorem raiseStall_eq_hardEnd (rows : List StallRow) (s : State) :
    raiseStall rows s = hardEnd .glb (stallRec rows s) (stalledState rows s) := by
  rw [raiseStall_eq, hardFault, pageRecord_glb]
  rfl

theorem stalledState_step (rows : List StallRow) (s : State) : (stalledState rows s).step = s.step := by simp [stalledState]

/-- What a stall's fault comes to, in a step that runs. -/
theorem raiseStall_spec (rows : List StallRow) {s : State} (running : s.step.active = true) :
    FaultShown (stallRec rows s).code (recWord (stallRec rows s)) (raiseStall rows s) ∧
      (raiseStall rows s).step.aborted = true ∧ .streamReport rows ∈ (raiseStall rows s).out ∧
      (∃ c l, (raiseStall rows s).cards = s.cards ++ c :: l ∧ c.annex.isSome = true ∧ c.frees = false) ∧
      faultState (raiseStall rows s) = faultState s := by
  have active : (stalledState rows s).step.active = true := by rw [stalledState_step, running]
  obtain ⟨cards, -, -, step⟩ := reported_keeps .glb (stallRec rows s) (stalledState rows s)
  have sent : .streamReport rows ∈ (stalledState rows s).out :=
    ((Emits.refl _).setInt .glb 0 0).mem (by simp [emit])
  rw [raiseStall_eq_hardEnd]
  refine ⟨hardEnd_shown _ _ _, hardEnd_aborted active _ _, ?_, ?_, ?_⟩
  · rw [hardEnd_of_reported]
    exact ((emits_reported _ _ _).abortStep _ _).mem sent
  · obtain ⟨c, l, more, annex, frees⟩ := abortStep_cards (s := reported .glb (stallRec rows s) (stalledState rows s))
      (by rw [step, active]) (stallRec rows s).code (recBytes (stallRec rows s))
    refine ⟨c, l, ?_, annex, frees⟩
    rw [hardEnd_of_reported, more, cards]
    simp [stalledState]
  · rw [faultState_hardEnd, stalledState, faultState_setInt, faultState_emit]

/-- Where no halt is asked for, a stall leaves HBM, the job's state and an `ELAPSED` that stands at `LIMIT`. -/
theorem raiseStall_unwanted (rows : List StallRow) {s : State} (h : s.job.haltWanted = false) :
    (raiseStall rows s).hbm = s.hbm ∧ jobState (raiseStall rows s) = jobState s ∧
      (getF s Reg.watchdog 63 32 = getF s Reg.watchdog 31 0 →
        getF (raiseStall rows s) Reg.watchdog 63 32 = getF s Reg.watchdog 31 0) := by
  obtain ⟨-, hbm, halt, -⟩ := reported_keeps .glb (stallRec rows s) (stalledState rows s)
  have status := reported_status .glb (stallRec rows s) (stalledState rows s) 63 60 (.inl (by decide))
  have watchdog := reported_watchdog .glb (stallRec rows s) (stalledState rows s)
  have before : rget (stalledState rows s) Reg.watchdog = rget s Reg.watchdog := by
    rw [stalledState, rget_setInt_ne _ _ (by decide), rget_emit]
  have shown : jobState (stalledState rows s) = jobState s := by
    rw [stalledState, jobState_setInt _ _ (by decide)]
    rfl
  rw [raiseStall_eq_hardEnd, hardEnd_of_reported]
  generalize reported .glb (stallRec rows s) (stalledState rows s) = u at hbm halt status watchdog
  obtain ⟨memory, regs⟩ := abortStep_unwanted (s := u) (by rw [halt]; simpa [stalledState] using h) (stallRec rows s).code
    (recBytes (stallRec rows s))
  refine ⟨?_, ?_, fun stands => ?_⟩
  · rw [memory, hbm]
    simp [stalledState]
  · rw [jobState, getF_congr regs, getF, rget_showElapsed_ne _ (by decide), ← getF, status]
    exact shown
  · have same : rget u Reg.watchdog = rget s Reg.watchdog := watchdog.trans before
    rw [getF_congr regs, showElapsed_at_limit (by simpa [getF, same] using stands), getF, same, getF]

/-- A fault leaves what the step has computed. -/
theorem data_of_faultState {s t : State} (h : faultState t = faultState s) :
    t.sp = s.sp ∧ t.acc = s.acc ∧ t.stash = s.stash := by
  have sp : (faultState t).sp = (faultState s).sp := congrArg State.sp h
  have acc : (faultState t).acc = (faultState s).acc := congrArg State.acc h
  have stash : (faultState t).stash = (faultState s).stash := congrArg State.stash h
  exact ⟨sp, acc, stash⟩

/-! ## The statement -/

/-- `ELAPSED` at `LIMIT`, as the step's watchdog finds it. -/
def atLimit (s : State) : State := setF s Reg.watchdog 63 32 (getF s Reg.watchdog 31 0)

theorem atLimit_watchdog (s : State) : getF (atLimit s) Reg.watchdog 63 32 = getF s Reg.watchdog 31 0 ∧
    getF (atLimit s) Reg.watchdog 31 0 = getF s Reg.watchdog 31 0 := by
  have small : getF s Reg.watchdog 31 0 < 2 ^ (63 + 1 - 32) := getF_lt s Reg.watchdog 31 0
  refine ⟨?_, ?_⟩
  · rw [atLimit, getF_setF_same _ _ _ _ _ (by decide) (by decide), Nat.mod_eq_of_lt small]
  · rw [atLimit, getF_setF_other _ _ _ _ _ _ _ (by decide) (by decide) (by decide)]

theorem blockedOn_update {s : State} {x : Stream} {e : Entry} (he : x.next? = some e) (barrier : s.step.setOpen = true)
    (op : e.op = 3) (held : s.step.decided = false ∨ secReleased s = false) :
    blockedOn s x = some (if s.step.decided then 0x7F02 else 0x7F01, 1, 0) := by
  cases decided : s.step.decided with
  | false => simp [blockedOn, barrier, he, op, decided]
  | true =>
    have unreleased : secReleased s = false := held.resolve_left (by simp [decided])
    simp [blockedOn, barrier, he, op, decided, unreleased]

theorem blockedOn_wait {s : State} {x : Stream} {e : Entry} (he : x.next? = some e) (waits : atWait s x e = true)
    (few : passCount s e.waitPass < e.waitCount) :
    blockedOn s x = some (e.waitPass, e.waitCount, passCount s e.waitPass) := by
  have parts := waits
  simp only [atWait, evaluates, Bool.and_eq_true] at parts
  obtain ⟨⟨⟨⟨⟨⟨-, barrier⟩, -⟩, comes⟩, -⟩, -⟩, -⟩ := parts
  have notHeld : e.op = 3 → s.step.decided = true ∧ secReleased s = true := fun op => by
    simp only [op, Nat.reduceEqDiff, or_self, if_false, if_true, Bool.and_eq_true] at comes
    exact ⟨comes.1.1, comes.2⟩
  have decided : ¬(e.op = 3 ∧ s.step.decided = false) := fun ⟨op, undecided⟩ => by simp [notHeld op] at undecided
  have released : ¬(e.op = 3 ∧ secReleased s = false) := fun ⟨op, unreleased⟩ => by simp [notHeld op] at unreleased
  simp [blockedOn, barrier, he, decided, released, waits, few]

/-- WAIT_LIMIT of a blocked stream: its row comes first, and names the fault. -/
theorem waitLimit_of_blocked {st : Nat} {x : Stream} {e : Entry} {s : State} {q : Nat × Nat × Nat} (small : st < 65536)
    (hx : streamAt s st = some x) (he : x.next? = some e) (runs : stepRuns s = true) (barrier : s.step.setOpen = true)
    (limit : 0 < e.waitLimit) (blocked : blockedOn s x = some q) :
    ∃ t, exec (.waitLimitExpiry st) s = .next t ∧ t.step.active = false ∧ getF t Reg.jobStatus 47 32 = 0x0301 ∧
      getF t (Reg.faultRec 0) 15 0 = 0x0301 ∧ getF t (Reg.faultRec 0) 63 48 = st ∧
      getF t (Reg.faultRec 1) 27 0 = x.pos % 2 ^ 28 ∧ getF t (Reg.faultRec 2) 63 32 = q.1 % 2 ^ 32 ∧
      t.streams = s.streams ∧ t.passes = s.passes ∧ t.sp = s.sp := by
  have running : s.step.active = true := by
    simp only [stepRuns, Bool.and_eq_true] at runs
    exact runs.1
  obtain ⟨shown, -, -, -, kept⟩ := raiseStall_spec
    ((st, x.pos, blockedOn s x) :: (stallRows s).filter fun (r : StallRow) => r.1 != st) running
  obtain ⟨passes, -, streams⟩ := passes_of_faultState kept
  rw [blocked] at shown passes streams kept
  rw [stallRec_cons] at shown
  have stream : getF _ (Reg.faultRec 0) 63 48 = st := shown.stream_field.trans (Nat.mod_eq_of_lt small)
  refine ⟨_, ?_, shown.ended, shown.error, shown.code_field, stream, shown.entry_field, shown.detail_field, streams, passes,
    (data_of_faultState kept).1⟩
  simp [exec, execWaitLimitExpiry, hx, he, runs, barrier, limit, blocked]

/-- Settles O17: the step watchdog by what a stall's fault comes to, and `waitLimit_of_blocked` for the two waits with a limit. -/
theorem watchdogsEndTheStep : Obligations.WatchdogsEndTheStep := by
  unfold Obligations.WatchdogsEndTheStep
  refine ⟨?step, ?none, ?update, ?wait⟩
  case step =>
    intro s running free
    obtain ⟨shown, aborted, sent, cards, kept⟩ := raiseStall_spec (stallRows s) (s := atLimit s) running
    obtain ⟨passes, -, streams⟩ := passes_of_faultState kept
    obtain ⟨sp, acc, stash⟩ := data_of_faultState kept
    obtain ⟨elapsed, limit⟩ := atLimit_watchdog s
    have code : (stallRec (stallRows s) (atLimit s)).code % 2 ^ 16 =
        if ∃ r ∈ stallRows s, r.2.2.isSome then 0x0301 else 0x0302 := by
      have named : (stallFirst (stallRows s)).2.2.isSome = true ↔ ∃ r ∈ stallRows s, r.2.2.isSome = true := by
        rw [stallFirst_blocked, List.any_eq_true]
      simp only [stallRec, plainRec, named]
      split <;> rfl
    refine ⟨raiseStall (stallRows s) (atLimit s), by simp [exec, execStepWatchdog, running, free, atLimit], shown.ended, aborted,
      shown.error.trans code, shown.code_field.trans shown.error.symm, sent, fun unwanted => ?_, cards, streams, passes, sp, acc,
      stash⟩
    obtain ⟨hbm, state, stands⟩ := raiseStall_unwanted (stallRows s) (s := atLimit s) unwanted
    refine ⟨(stands (elapsed.trans limit.symm)).trans limit, hbm, state.trans ?_⟩
    exact getF_setF_ne _ _ _ _ _ _ (by decide)
  case none =>
    intro s still
    rcases still with idle | held
    · simp [exec, execStepWatchdog, idle]
    · simp [exec, execStepWatchdog, held]
  case update =>
    intro st x e s small hx he runs barrier op limit held
    obtain ⟨t, go, ended, error, -, stream, entry, detail, kept⟩ :=
      waitLimit_of_blocked small hx he runs barrier limit (blockedOn_update he barrier op held)
    refine ⟨t, go, ended, error, stream, entry, detail.trans ?_, kept⟩
    split <;> rfl
  case wait =>
    intro st x e s small hx he waits limit few
    have parts := waits
    simp only [atWait, Bool.and_eq_true] at parts
    obtain ⟨⟨⟨⟨⟨⟨runs, barrier⟩, -⟩, -⟩, -⟩, -⟩, -⟩ := parts
    obtain ⟨t, go, ended, error, record, stream, entry, -, kept⟩ :=
      waitLimit_of_blocked small hx he runs barrier limit (blockedOn_wait he waits few)
    exact ⟨t, go, ended, error, record, stream, entry, kept⟩

end Sys2Proof.Machine
end

