-- ==== Sys2Proof/Proofs/EntryCompletion.lean ====
section
/-! The completion of an entry (03 R51, 14 R316 to R320), and the statement of O16. -/

namespace Sys2Proof.Machine
open Sys2Proof.Stmt

/-! ## What completion carries along -/

/-- No group of `m` is in a contributor mask. -/
def OffMasks (m : Mask) (s : State) : Prop := ∀ g, g < 4096 → maskHas m g = true →
  maskHas s.step.maskA g = false ∧ maskHas s.step.maskB g = false ∧ maskHas s.step.maskC g = false

/-- A later state of one completion: the streams stay, a void slot stays void, and a dropped group stays dropped. -/
structure Carries (s t : State) : Prop where
  streams : t.streams = s.streams
  sheet : t.step.ws = s.step.ws
  void : ∀ i, isVoid s i = true → isVoid t i = true
  dropped : ∀ m, OffMasks m s → OffMasks m t

theorem Carries.refl (s : State) : Carries s s := ⟨rfl, rfl, fun _ => id, fun _ => id⟩

theorem Carries.trans {s t u : State} (h : Carries s t) (k : Carries t u) : Carries s u :=
  ⟨k.streams.trans h.streams, k.sheet.trans h.sheet, fun i v => k.void i (h.void i v), fun m off => k.dropped m (h.dropped m off)⟩

theorem Carries.foldl {β : Type} {f : State → β → State} (step : ∀ t b, Carries t (f t b)) (s : State) (l : List β) :
    Carries s (l.foldl f s) := by
  induction l generalizing s with
  | nil => exact .refl s
  | cons b l ih => exact (step s b).trans (ih _)

theorem isVoid_congr {s t : State} (h : rget t Reg.slotVoid = rget s Reg.slotVoid) (i : Nat) : isVoid t i = isVoid s i := by
  simp only [isVoid, getB, getF, h]

/-- A change that keeps the streams, the step's sheet and masks and the void slots carries them. -/
theorem Carries.of_same {s t : State} (streams : t.streams = s.streams) (sheet : t.step.ws = s.step.ws)
    (a : t.step.maskA = s.step.maskA) (b : t.step.maskB = s.step.maskB) (c : t.step.maskC = s.step.maskC)
    (void : rget t Reg.slotVoid = rget s Reg.slotVoid) : Carries s t :=
  ⟨streams, sheet, fun i h => (isVoid_congr void i).trans h, fun m off => by simpa only [OffMasks, a, b, c] using off⟩

/-- A fault carries them if it leaves the register of the void slots. -/
theorem Carries.of_faultState {s t : State} (h : faultState t = faultState s)
    (void : rget t Reg.slotVoid = rget s Reg.slotVoid) : Carries s t := by
  have streams : (faultState t).streams = (faultState s).streams := congrArg State.streams h
  have step : (faultState t).step = (faultState s).step := congrArg State.step h
  have sheet := congrArg StepSt.ws step
  have a := congrArg StepSt.maskA step
  have b := congrArg StepSt.maskB step
  have c := congrArg StepSt.maskC step
  exact .of_same streams sheet a b c void

/-! ### Faults -/

theorem rget_hardEnd_void (ty : Blk) (r : FaultRec) (s : State) :
    rget (hardEnd ty r s) Reg.slotVoid = rget s Reg.slotVoid := by
  have apart (i : Nat) (h : i < 4) : Reg.slotVoid ≠ Reg.faultRec i := by
    simp only [Reg.slotVoid, Reg.faultRec, reg_glb]
    omega
  rw [hardEnd_eq, rget_of_quietRegs (quietRegs_abortStep _ _ _) (by decide) (by decide) (by decide) (by decide),
    rget_congr (regs_markFault _ ty r), rget_stopRestart_ne _ _ (by decide) (by decide), rget_glbRecord_ne _ _ (by decide) apart]

theorem carries_hardEnd (ty : Blk) (r : FaultRec) (s : State) : Carries s (hardEnd ty r s) :=
  .of_faultState (faultState_hardEnd s ty r) (rget_hardEnd_void ty r s)

/-- A page other than GLB's forms its record in its own registers. -/
theorem glbRegs_pageRecord {ty : Blk} (h : ty ≠ .glb) (r : FaultRec) (s : State) : glbRegs (pageRecord ty r s) = glbRegs s := by
  have logged (t : State) : glbRegs ((List.range 4).foldl (fun s i => rset s (Reg.errLog ty r.inst i) (recWord r i)) t) =
      glbRegs t := foldl_keeps glbRegs _ (fun s i => glbRegs_rset_of_le (le_reg_of_ne_glb h _ _) s _) _ t
  have raised (t : State) : glbRegs (setInt ty r.inst 0 t) = glbRegs t := congrArg Prod.snd (hbmFrame_setInt t h r.inst 0)
  have counted (t : State) : glbRegs (errCount ty r.inst 1 t) = glbRegs t := congrArg Prod.snd (hbmFrame_errCount t h r.inst 1)
  simp only [pageRecord, h, if_false, raised]
  split
  · rw [counted, logged]
  · exact logged s

theorem rget_bankFault_void (code kind pass st entry st2 : Nat) (s : State) :
    rget (bankFault code kind pass st entry st2 s) Reg.slotVoid = rget s Reg.slotVoid := by
  have low : Reg.slotVoid < 0x2000000 := by decide
  have logged : rget (hpbLog (bankOf s pass) kind pass st st2 s) Reg.slotVoid = rget s Reg.slotVoid := by
    unfold hpbLog
    split
    · rfl
    · exact rget_rset_ne _ _ (Nat.ne_of_lt (low.trans_le (le_reg_of_ne_glb (by decide) _ _)))
  rw [bankFault, hardFault, rget_hardEnd_void, rget_of_glbRegs (glbRegs_pageRecord (by decide) _ _) low, logged]

theorem carries_bankFault (code kind pass st entry st2 : Nat) (s : State) :
    Carries s (bankFault code kind pass st entry st2 s) :=
  .of_faultState (faultState_bankFault s code kind pass st entry st2) (rget_bankFault_void ..)

theorem carries_lateDrop (r : FaultRec) (s : State) : Carries s (lateDrop r s) := by
  refine .of_faultState (by simp [lateDrop]) ?_
  rw [lateDrop, hardFault, rget_hardEnd_void, pageRecord_glb]
  exact rget_setInt_ne _ _ (show Reg.slotVoid ≠ Reg.intStatus .glb 0 by decide)

/-! ### Voids and drops -/

theorem carries_taint (s : State) : Carries s { s with step := { s.step with taint := true } } :=
  .of_same rfl rfl rfl rfl rfl rfl

theorem carries_taintDeparted (m : Mask) (s : State) : Carries s (taintDeparted m s) := by
  unfold taintDeparted
  split
  · exact carries_taint s
  · exact .refl s

theorem maskHas_drop (a m : Mask) {g : Nat} (small : g < 4096) :
    maskHas (a &&& ~~~ m) g = (maskHas a g && !maskHas m g) := by
  simp [maskHas, small]

theorem carries_dropMask (m : Mask) (s : State) : Carries s (dropMask m s) := by
  refine ⟨rfl, rfl, fun _ => id, fun n off g small has => ?_⟩
  obtain ⟨a, b, c⟩ := off g small has
  simp [dropMask, maskHas_drop, small, a, b, c]

theorem offMasks_dropMask (m : Mask) (s : State) : OffMasks m (dropMask m s) := fun g small has => by
  simp [dropMask, maskHas_drop, small, has]

theorem blkOf_ne_glb {n : Nat} (h : n ≠ 0) : blkOf n ≠ .glb := by
  unfold blkOf
  split <;> simp_all

theorem carries_markRecord (r : FaultRec) (s : State) : Carries s (markRecord r s) := by
  have confined : Carries s { s with step := { s.step with
      confined := s.step.confined.map fun x => if x = r then { r with mixed := true } else x } } :=
    .of_same rfl rfl rfl rfl rfl rfl
  unfold markRecord
  dsimp only
  split
  · next held =>
    refine confined.trans (.of_faultState (faultState_rset _ _ _) (rget_rset_ne _ _ (Nat.ne_of_lt ?_)))
    exact (show Reg.slotVoid < 0x2000000 by decide).trans_le (le_reg_of_ne_glb (blkOf_ne_glb held.1) _ _)
  · exact confined

theorem isVoid_setB (s : State) {i : Nat} (small : i < 64) : isVoid (setB s Reg.slotVoid i true) i = true :=
  getB_setB_same _ _ _ _ small

/-- A field beyond the word is nowhere: writing it changes nothing. -/
theorem setFld_beyond (w : W64) {b : Nat} (h : 64 ≤ b) (v : Nat) : setFld w b b v = w := by
  have none (n : Nat) : BitVec.ofNat 64 (n * 2 ^ b) = 0#64 := by
    apply BitVec.eq_of_toNat_eq
    rw [BitVec.toNat_ofNat, show b = 64 + (b - 64) by omega, pow_add, Nat.mul_left_comm, Nat.mul_mod_right]
    rfl
  have mask : fieldMask b b = 0#64 := by
    rw [fieldMask, pow_succ, ← none 1]
    congr 1
    omega
  rw [setFld, mask, BitVec.not_zero, BitVec.and_allOnes, BitVec.and_zero, BitVec.or_zero]

theorem carries_setVoid (i : Nat) (s : State) : Carries s (setB s Reg.slotVoid i true) := by
  refine ⟨rfl, rfl, fun k void => ?_, fun _ => id⟩
  by_cases small : i < 64
  · by_cases same : k = i
    · rw [same, isVoid_setB s small]
    · rw [isVoid, getB_setB_other _ _ _ _ _ small (Ne.symm same)]
      exact void
  · have kept : rget (setB s Reg.slotVoid i true) Reg.slotVoid = rget s Reg.slotVoid := by
      rw [rget_setB, if_pos rfl, setFld_beyond _ (Nat.le_of_not_lt small)]
    rw [isVoid_congr kept, void]

theorem carries_voidSlot (r : FaultRec) (s : State) : Carries s (voidSlot r s) := by
  have set := carries_setVoid r.mbSlot s
  have late := set.trans (carries_lateDrop r _)
  unfold voidSlot
  dsimp only
  split
  · exact .refl s
  · split
    · exact set
    · split
      · exact set.trans (carries_taint _)
      · split
        · split
          · exact set
          · exact late
        · exact late

/-- The slot of a record is void behind `voidSlot`. -/
theorem isVoid_voidSlot (r : FaultRec) (s : State) (small : r.mbSlot < 64) : isVoid (voidSlot r s) r.mbSlot = true := by
  have set := isVoid_setB s small
  have late := (carries_lateDrop r (setB s Reg.slotVoid r.mbSlot true)).void _ set
  unfold voidSlot
  dsimp only
  split
  · assumption
  · split
    · exact set
    · split
      · exact set
      · split
        · split
          · exact set
          · exact late
        · exact late

/-- The state in which the groups of a record have left the masks. -/
def droppedGroups (r : FaultRec) (s : State) : State := dropMask (recMask r s) (taintDeparted (recMask r s) s)

/-- The record of a mixed slot, marked as such. -/
def markMixedRecord (r : FaultRec) (s : State) : State :=
  if isMixed s r.mbSlot && !isVoid s r.mbSlot && !r.mixed then markRecord r s else s

theorem voidNow_eq (r : FaultRec) (s : State) : voidNow r s =
    if r.mbSlot = 0xFF then droppedGroups r s else voidSlot r (markMixedRecord r (droppedGroups r s)) := rfl

theorem carries_droppedGroups (r : FaultRec) (s : State) : Carries s (droppedGroups r s) :=
  (carries_taintDeparted _ s).trans (carries_dropMask _ _)

theorem carries_markMixedRecord (r : FaultRec) (s : State) : Carries s (markMixedRecord r s) := by
  unfold markMixedRecord
  split
  · exact carries_markRecord r s
  · exact .refl s

theorem carries_voidNow_dropped (r : FaultRec) (s : State) : Carries (droppedGroups r s) (voidNow r s) := by
  rw [voidNow_eq]
  split
  · exact .refl _
  · exact (carries_markMixedRecord r _).trans (carries_voidSlot r _)

theorem carries_voidNow (r : FaultRec) (s : State) : Carries s (voidNow r s) :=
  (carries_droppedGroups r s).trans (carries_voidNow_dropped r s)

theorem isVoid_voidNow (r : FaultRec) (s : State) (small : r.mbSlot < 64) : isVoid (voidNow r s) r.mbSlot = true := by
  rw [voidNow_eq, if_neg (by omega)]
  exact isVoid_voidSlot r _ small

theorem offMasks_voidNow (r : FaultRec) (s : State) : OffMasks (recMask r s) (voidNow r s) :=
  (carries_voidNow_dropped r s).dropped _ (offMasks_dropMask _ _)

theorem recMask_congr {s t : State} (h : t.step.ws = s.step.ws) (r : FaultRec) : recMask r t = recMask r s := by
  simp only [recMask, h]

/-- After the voids of an entry, each of its records has had its effect. -/
theorem voids_of_mem (l : List FaultRec) (s : State) {r : FaultRec} (mem : r ∈ l) :
    (r.mbSlot < 64 → isVoid (l.foldl (fun s r => voidNow r s) s) r.mbSlot = true) ∧
      OffMasks (recMask r s) (l.foldl (fun s r => voidNow r s) s) := by
  obtain ⟨pre, post, rfl⟩ := List.append_of_mem mem
  have before : Carries s (pre.foldl (fun s r => voidNow r s) s) := .foldl (fun t r => carries_voidNow r t) s pre
  rw [List.foldl_append, List.foldl_cons]
  generalize pre.foldl (fun s r => voidNow r s) s = u at before
  have behind : Carries (voidNow r u) (post.foldl (fun s r => voidNow r s) (voidNow r u)) :=
    .foldl (fun t r => carries_voidNow r t) _ post
  refine ⟨fun small => behind.void _ (isVoid_voidNow r u small), ?_⟩
  rw [← recMask_congr before.sheet]
  exact behind.dropped _ (offMasks_voidNow r u)

/-! ### Posts -/

theorem carries_setPass (p n : Nat) (s : State) : Carries s (setPass p n s) := .of_same rfl rfl rfl rfl rfl rfl

theorem carries_postPass (p n st entry : Nat) (s : State) : Carries s (postPass p n st entry s) := by
  unfold postPass
  split
  · exact carries_bankFault ..
  · exact carries_setPass _ _ s

theorem carries_postEntry (e : Entry) (st idx : Nat) (s : State) : Carries s (postEntry e st idx s) := by
  unfold postEntry
  split
  · exact .foldl (fun t k => carries_postPass _ _ st idx t) s _
  · exact .refl s

theorem carries_noteUnitFault (ty inst sub : Nat) (s : State) : Carries s (noteUnitFault ty inst sub s) :=
  .of_same rfl rfl rfl rfl rfl rfl

theorem carries_passWord (ps : List Nat) (st idx : Nat) (s : State) (p : Phys) : Carries s (passWord ps st idx s p) := by
  cases p with
  | passCorrected q =>
    simp only [passWord]
    split
    · have words := corrected_passCorrected q s
      have bank : Reg.slotVoid ∉ bankCounts := by
        intro mem
        obtain ⟨b, -, same⟩ := List.mem_map.1 mem
        have low : Reg.slotVoid < 0x2000000 := by decide
        exact absurd (same ▸ le_reg_of_ne_glb (t := .hpb) (by decide) b 0x050) (Nat.not_le.2 low)
      exact .of_faultState (by simp) (words.counts _ bank)
    · exact .refl s
  | passUncorrectable q =>
    simp only [passWord]
    split
    · exact (carries_noteUnitFault 9 (bankOf s q) 0 s).trans (carries_bankFault ..)
    · exact .refl s
  | _ => exact .refl s

theorem carries_passWords (ph : List Phys) (ps : List Nat) (st idx : Nat) (s : State) :
    Carries s (passWords ph ps st idx s) := by
  rw [passWords_eq]
  exact .foldl (carries_passWord ps st idx) s ph

/-! ## The completion, part by part -/

theorem stashDone_eq (e : Entry) (f : Flight) (s : State) : stashDone e f s = { s with stash := (stashDone e f s).stash } := by
  unfold stashDone
  split <;> rfl

theorem noteGate_eq (x : Stream) (e : Entry) (s : State) :
    noteGate x e s = { s with step := { s.step with gateDone := (noteGate x e s).step.gateDone } } := by
  unfold noteGate
  split <;> rfl

/-- The entry has left its stream, and its voids, its record and its gate have taken effect. -/
def retired (st : Nat) (x : Stream) (rest : List Flight) (f : Flight) (e : Entry) (s : State) : State :=
  noteGate x e (stashDone e f (f.raised.foldl (fun s r => voidNow r s) (setStream st { x with inflight := rest } s)))

/-- A step that still runs has the entry's posts. -/
def postedEntry (ph : List Phys) (e : Entry) (st idx : Nat) (s : State) : State :=
  if s.step.active then passWords ph (postedBy e) st idx (postEntry e st idx s) else s

/-- The hard faults of an entry that has completed. -/
def hardFaults (l : List FaultRec) (s : State) : State := l.foldl (fun s r => hardEnd (blkOf r.block) r s) s

/-- An entry that ENTRY_COMPLETE retires: the oldest in flight of its stream, done, in a running step. -/
abbrev Retires (st : Nat) (x : Stream) (f : Flight) (rest : List Flight) (e : Entry) (s : State) : Prop :=
  streamAt s st = some x ∧ x.inflight = f :: rest ∧ x.entry? f.idx = some e ∧ f.done = true ∧ s.step.active = true

theorem execEntryComplete_retires {st : Nat} {x : Stream} {f : Flight} {rest : List Flight} {e : Entry} {s : State}
    (h : Retires st x f rest e s) (ph : List Phys) :
    exec (.entryComplete st ph) s = .next (hardFaults f.hard (postedEntry ph e st f.idx (retired st x rest f e s))) := by
  obtain ⟨hx, oldest, he, done, running⟩ := h
  simp only [exec, execEntryComplete, hx, oldest, he, done, running, Bool.and_self, if_true]
  rfl

theorem carries_stashDone (e : Entry) (f : Flight) (s : State) : Carries s (stashDone e f s) := by
  rw [stashDone_eq]
  exact .of_same rfl rfl rfl rfl rfl rfl

theorem carries_noteGate (x : Stream) (e : Entry) (s : State) : Carries s (noteGate x e s) := by
  rw [noteGate_eq]
  exact .of_same rfl rfl rfl rfl rfl rfl

theorem carries_postedEntry (ph : List Phys) (e : Entry) (st idx : Nat) (s : State) : Carries s (postedEntry ph e st idx s) := by
  unfold postedEntry
  split
  · exact (carries_postEntry e st idx s).trans (carries_passWords ..)
  · exact .refl s

theorem carries_hardFaults (l : List FaultRec) (s : State) : Carries s (hardFaults l s) :=
  .foldl (fun t r => carries_hardEnd _ r t) s l

/-- The entry leaves its stream, its slots are void, and its groups are in no mask. -/
theorem completes {st : Nat} {x : Stream} {f : Flight} {rest : List Flight} {e : Entry} {s : State}
    (h : Retires st x f rest e s) (ph : List Phys) :
    ∃ t y, exec (.entryComplete st ph) s = .next t ∧ streamAt t st = some y ∧ y.inflight = rest ∧
      y.pos = x.pos ∧ y.entries = x.entries ∧ (∀ i, i ≠ st → streamAt t i = streamAt s i) ∧
      (∀ r ∈ f.raised, r.mbSlot < 64 → isVoid t r.mbSlot = true) ∧ ∀ r ∈ f.raised, OffMasks (recMask r s) t := by
  let left := setStream st { x with inflight := rest } s
  let voided := f.raised.foldl (fun s r => voidNow r s) left
  have voids : Carries left voided := .foldl (fun t r => carries_voidNow r t) _ _
  have behind : Carries voided (hardFaults f.hard (postedEntry ph e st f.idx (retired st x rest f e s))) :=
    (((carries_stashDone e f voided).trans (carries_noteGate x e _)).trans (carries_postedEntry ..)).trans (carries_hardFaults ..)
  have streams (i : Nat) : streamAt (hardFaults f.hard (postedEntry ph e st f.idx (retired st x rest f e s))) i = streamAt left i :=
    streamAt_congr (voids.trans behind).streams i
  refine ⟨_, { x with inflight := rest }, execEntryComplete_retires h ph, ?_, rfl, rfl, rfl, fun i other => ?_,
    fun r mem small => ?_, fun r mem => ?_⟩
  · rw [streams]
    exact streamAt_setStream_same h.1 _
  · rw [streams]
    exact streamAt_setStream_ne s _ other
  · exact behind.void _ ((voids_of_mem f.raised left mem).1 small)
  · exact behind.dropped _ ((voids_of_mem f.raised left mem).2)

/-! ## Posts that fit -/

/-- An entry's post to pass `p`. -/
def postTo (e : Entry) (p : Nat) : Nat :=
  if e.postEn = true ∧ e.postPass ≤ p ∧ p ≤ e.postPass + e.postSpan then e.postCount else 0

theorem postPasses_fit (e : Entry) (st idx : Nat) (s : State) (n : Nat)
    (room : ∀ k, k < n → passCount s (e.postPass + k) + e.postCount ≤ 65535) :
    ∃ ps, (List.range n).foldl (fun s k => postPass (e.postPass + k) e.postCount st idx s) s = { s with passes := ps } ∧
      ∀ p, cellGet noNat ps p =
        passCount s p + if e.postPass ≤ p ∧ p < e.postPass + n then e.postCount else 0 := by
  induction n with
  | zero => exact ⟨s.passes, rfl, fun p => by simp [passCount, show ¬(e.postPass ≤ p ∧ p < e.postPass) by omega]⟩
  | succ n ih =>
    obtain ⟨ps, posted, counts⟩ := ih fun k small => room k (Nat.lt_succ_of_lt small)
    have count : passCount { s with passes := ps } (e.postPass + n) = passCount s (e.postPass + n) := by
      rw [passCount, counts]
      simp
    have fits : ¬ 65535 < passCount s (e.postPass + n) + e.postCount := Nat.not_lt.2 (room n (Nat.lt_succ_self n))
    refine ⟨cellSet noNat ps (e.postPass + n) (passCount s (e.postPass + n) + e.postCount), ?_, fun p => ?_⟩
    · rw [List.range_succ, List.foldl_append, posted, List.foldl_cons, List.foldl_nil, postPass, count, if_neg fits]
      rfl
    · by_cases here : p = e.postPass + n
      · rw [here, cellGet_set_same, if_pos (by omega)]
      · rw [cellGet_set_ne _ _ _ here, counts]
        congr 1
        exact if_congr (by omega) rfl rfl

/-- Posts that fit are added, each to its pass. -/
theorem postEntry_fits (e : Entry) (st idx : Nat) (s : State)
    (room : ∀ k, k ≤ e.postSpan → passCount s (e.postPass + k) + e.postCount ≤ 65535) :
    ∃ ps, postEntry e st idx s = { s with passes := ps } ∧ ∀ p, cellGet noNat ps p = passCount s p + postTo e p := by
  unfold postEntry postTo
  cases posts : e.postEn with
  | false => exact ⟨s.passes, by simp, fun p => by simp [passCount]⟩
  | true =>
    obtain ⟨ps, posted, counts⟩ := postPasses_fit e st idx s (e.postSpan + 1) fun k small => room k (Nat.le_of_lt_succ small)
    refine ⟨ps, by rw [if_pos rfl, posted], fun p => ?_⟩
    rw [counts]
    congr 1
    exact if_congr (by simp only [true_and]; omega) rfl rfl

/-! ## The statement -/

theorem retired_unraised (st : Nat) (x : Stream) (rest : List Flight) {f : Flight} (h : f.raised = []) (e : Entry) (s : State) :
    retired st x rest f e s = { setStream st { x with inflight := rest } s with
      stash := (stashDone e f s).stash
      step := { s.step with gateDone := (noteGate x e s).step.gateDone } } := by
  have gate (t : State) (same : t.step = s.step) : (noteGate x e t).step.gateDone = (noteGate x e s).step.gateDone := by
    unfold noteGate
    split <;> simp [same]
  have stash : (stashDone e f (setStream st { x with inflight := rest } s)).stash = (stashDone e f s).stash := by
    unfold stashDone
    split <;> rfl
  have freed : stashDone e f (setStream st { x with inflight := rest } s) =
      { setStream st { x with inflight := rest } s with stash := (stashDone e f s).stash } :=
    (stashDone_eq e f _).trans (by rw [stash])
  rw [retired, h, List.foldl_nil, freed, noteGate_eq]
  rw [gate { setStream st { x with inflight := rest } s with stash := (stashDone e f s).stash } rfl]
  rfl

/-- What a completion without confined events and bad count words comes to: posts that fit, and then its hard faults. -/
theorem completes_posting {st : Nat} {ph : List Phys} {x : Stream} {f : Flight} {rest : List Flight} {e : Entry} {s : State}
    (h : Retires st x f rest e s) (unraised : f.raised = []) (good : ∀ q, Phys.passUncorrectable q ∉ ph)
    (room : ∀ k, k ≤ e.postSpan → passCount s (e.postPass + k) + e.postCount ≤ 65535) :
    ∃ u, exec (.entryComplete st ph) s = .next (hardFaults f.hard u) ∧ (∀ p, passCount u p = passCount s p + postTo e p) ∧
      u.step.active = true ∧ u.stash = (stashDone e f s).stash ∧ u.step.gateDone = (noteGate x e s).step.gateDone ∧
      u.sp = s.sp ∧ u.acc = s.acc ∧ u.hbm = s.hbm := by
  have left := retired_unraised st x rest unraised e s
  obtain ⟨ps, posted, counts⟩ := postEntry_fits e st f.idx (retired st x rest f e s) (by rw [left]; exact room)
  have words := corrected_passWords good (postedBy e) st f.idx (postEntry e st f.idx (retired st x rest f e s))
  have running : (retired st x rest f e s).step.active = true := by
    rw [left]
    exact h.2.2.2.2
  have before (p : Nat) : passCount (retired st x rest f e s) p = passCount s p := by
    rw [left]
    rfl
  refine ⟨postedEntry ph e st f.idx (retired st x rest f e s), execEntryComplete_retires h ph, ?_⟩
  rw [postedEntry, if_pos running, words.rest, posted]
  refine ⟨fun p => ?_, running, ?_⟩
  · rw [← before p]
    exact counts p
  · rw [left]
    exact ⟨rfl, rfl, rfl, rfl, rfl⟩

theorem faultState_hardFaults (l : List FaultRec) (s : State) : faultState (hardFaults l s) = faultState s :=
  foldl_keeps faultState _ (fun _ _ => faultState_hardEnd _ _ _) l s

/-- Settles O16: `completes` for what every completion carries, `completes_posting` for posts that fit, and the fault of a post that
does not. -/
theorem entryCompleteRetiresOldest : Obligations.EntryCompleteRetiresOldest := by
  unfold Obligations.EntryCompleteRetiresOldest
  refine ⟨?voids, ?posts, ?overflow, ?waits⟩
  case voids =>
    intro st ph x f rest e s hx oldest he done running
    exact completes ⟨hx, oldest, he, done, running⟩ ph
  case posts =>
    intro st ph x f rest e s hx oldest he done running unraised good room
    obtain ⟨u, go, counts, active, stash, gate, sp, acc, hbm⟩ :=
      completes_posting ⟨hx, oldest, he, done, running⟩ unraised good room
    have kept := faultState_hardFaults f.hard u
    obtain ⟨passes, -, -⟩ := passes_of_faultState kept
    obtain ⟨sp', acc', stash'⟩ := data_of_faultState kept
    have step : (faultState (hardFaults f.hard u)).step = (faultState u).step := congrArg State.step kept
    have gate' := congrArg StepSt.gateDone step
    refine ⟨hardFaults f.hard u, go, fun p => ?_, fun r only small => ?_, fun op keep => ?_, fun op => ?_, fun kind lo hi sub => ?_,
      sp'.trans sp, acc'.trans acc, fun none => ?_⟩
    · rw [passCount, passes]
      exact counts p
    · have one : hardFaults f.hard u = hardEnd (blkOf r.block) r u := by rw [only]; rfl
      have shown := (hardEnd_shown u (blkOf r.block) r).endedWith small
      rw [one]
      exact ⟨shown.ended, hardEnd_aborted active _ _, shown.error, shown.record⟩
    · rw [stash', stash, stashDone, if_pos ⟨op, keep⟩]
    · rw [stash', stash, stashDone, if_neg (fun both => op both.1)]
    · have carries : x.kind = 3 ∧ (e.op = 0x50 ∨ e.op = 0x51 ∨ e.op = 0x52) ∧ e.subBit 0 = true := ⟨kind, by omega, sub⟩
      refine Eq.trans gate' (gate.trans ?_)
      rw [noteGate, if_pos carries]
    · have same : hardFaults f.hard u = u := by rw [none]; rfl
      rw [same]
      exact ⟨active, hbm⟩
  case overflow =>
    intro st x f rest e s hx oldest he done running unraised none posts span exceeds
    have left := retired_unraised st x rest unraised e s
    have active : (retired st x rest f e s).step.active = true := by
      rw [left]
      exact running
    have count : passCount (retired st x rest f e s) e.postPass = passCount s e.postPass := by
      rw [left]
      rfl
    have posted : postedEntry [] e st f.idx (retired st x rest f e s) =
        bankFault 0x0303 0 e.postPass st f.idx 0xFFFF (retired st x rest f e s) := by
      simp [postedEntry, active, passWords_eq, postEntry, posts, span, postPass, count, exceeds]
    have go := execEntryComplete_retires ⟨hx, oldest, he, done, running⟩ []
    rw [none, posted] at go
    obtain ⟨passes, -, -⟩ := passes_of_faultState (faultState_bankFault (retired st x rest f e s) 0x0303 0 e.postPass st f.idx 0xFFFF)
    have fault := endedWith_bankFault (code := 0x0303) (by decide) 0 e.postPass st f.idx 0xFFFF (retired st x rest f e s)
    refine ⟨_, go, passes.trans ?_, fault.ended, fault.error, fault.record⟩
    rw [left]
    rfl
  case waits =>
    intro st ph x f rest s hx oldest waits
    simp only [exec, execEntryComplete, hx, oldest, waits]
    split <;> simp

end Sys2Proof.Machine
end

