-- ==== Sys2Proof/Proofs/BellEnd.lean ====
section
/-! The end of a step at Bell drain complete (03 R65, 14 R325, R334), and the statement of O28. -/

namespace Sys2Proof.Machine
open Sys2Proof.Stmt

/-! ## The securing interval and the start of a pass -/

/-- The registers that the estimator and the start of a pass write. -/
def securingRegs : List Nat :=
  [Reg.frate, Reg.secureStatus, Reg.intStatus .mgt 0, Reg.lockerState, Reg.intStatus .glb 0]

/-- The state without registers, outputs, the Locker and the rings. -/
def offSecuring (s : State) : State := { s with regs := [], out := [], locker := {}, rings := [] }

/-- A change of registers, outputs, the Locker and the rings alone, and of the registers only those of securing. -/
structure Secures (s t : State) : Prop where
  regs : RegsBut securingRegs s t
  rest : offSecuring t = offSecuring s

theorem Secures.refl (s : State) : Secures s s := ⟨fun _ _ => rfl, rfl⟩

theorem Secures.trans {s t u : State} (h : Secures s t) (k : Secures t u) : Secures s u :=
  ⟨fun a off => (k.regs a off).trans (h.regs a off), k.rest.trans h.rest⟩

theorem secures_rset {a : Nat} (listed : a ∈ securingRegs) (v : W64) (s : State) : Secures s (rset s a v) :=
  ⟨fun _ off => rget_rset_ne s v fun same => off (same ▸ listed), by simp [offSecuring]⟩

theorem secures_setF {a : Nat} (listed : a ∈ securingRegs) (hi lo v : Nat) (s : State) : Secures s (setF s a hi lo v) :=
  secures_rset listed _ s

theorem secures_setB {a : Nat} (listed : a ∈ securingRegs) (b : Nat) (v : Bool) (s : State) : Secures s (setB s a b v) :=
  secures_rset listed _ s

theorem secures_setInt {t : Blk} {i : Nat} (listed : Reg.intStatus t i ∈ securingRegs) (b : Nat) (s : State) :
    Secures s (setInt t i b s) :=
  ⟨fun _ off => rget_setInt_ne s b fun same => off (same ▸ listed), by simp [offSecuring]⟩

theorem secures_setRing (r : Nat) (x : Ring) (s : State) : Secures s (setRing r x s) := ⟨fun _ _ => rfl, rfl⟩

theorem secures_locker (l : Locker) (s : State) : Secures s { s with locker := l } := ⟨fun _ _ => rfl, rfl⟩

theorem secures_secSend (op off len : Nat) (data : List Byte) (s : State) : Secures s (secSend op off len data s) :=
  secures_setRing ..

theorem Secures.foldl {β : Type} {f : State → β → State} (step : ∀ t b, Secures t (f t b)) (s : State) (l : List β) :
    Secures s (l.foldl f s) := by
  induction l generalizing s with
  | nil => exact .refl s
  | cons b l ih => exact (step s b).trans (ih _)

theorem secures_secWrite (off : Nat) (bs : List Byte) (s : State) : Secures s (secWrite off bs s) :=
  .foldl (fun t _ => secures_secSend _ _ _ _ t) s _

theorem status_listed : Reg.secureStatus ∈ securingRegs := by decide
theorem lockerState_listed : Reg.lockerState ∈ securingRegs := by decide

theorem secures_intervalStep (s : State) : Secures s (intervalStep s) := by
  unfold intervalStep
  dsimp only
  have shown (a b : Nat) (x y : Bool) := (((secures_setF status_listed 47 32 a s).trans (secures_setF status_listed 31 16 b _)).trans
    (secures_setB status_listed 62 x _)).trans (secures_setB status_listed 61 y _)
  split
  all_goals split
  · exact ((shown _ _ _ _).trans (secures_setB status_listed _ _ _)).trans (secures_setInt (by decide) _ _)
  · exact shown _ _ _ _
  · exact ((shown _ _ _ _).trans (secures_setB status_listed _ _ _)).trans (secures_setInt (by decide) _ _)
  · exact shown _ _ _ _

theorem secures_passStart (s : State) : Secures s (passStart s) := by
  unfold passStart
  dsimp only
  split
  · exact (secures_setB lockerState_listed _ _ s).trans (secures_setInt (by decide) _ _)
  · have targeted := ((secures_setB lockerState_listed 61 true s).trans (secures_setF lockerState_listed 60 60 (passTarget s) _)).trans
      (secures_setB lockerState_listed (63 - passTarget s) false _)
    exact (targeted.trans (secures_locker _ _)).trans (secures_secWrite _ _ _)

theorem secures_bellSecuring (s : State) : Secures s (bellSecuring s) := by
  have estimated := (secures_rset (show Reg.frate ∈ securingRegs by decide) (BitVec.ofNat 64 ((rget s Reg.frate).toNat -
    (rget s Reg.frate).toNat / 2 ^ getF s Reg.securePolicy 23 16)) s).trans (secures_intervalStep _)
  unfold bellSecuring
  dsimp only
  split
  · exact estimated.trans (secures_passStart _)
  · exact estimated

/-- What securing leaves of a step's end. -/
theorem Secures.keeps {s t : State} (h : Secures s t) :
    t.cards = s.cards ∧ t.step = s.step ∧ t.streams = s.streams ∧ t.stash = s.stash ∧ t.census = s.census ∧ t.job = s.job ∧
      t.hbm = s.hbm ∧ t.sp = s.sp ∧ t.host = s.host ∧ t.slot = s.slot := by
  have cards : (offSecuring t).cards = (offSecuring s).cards := congrArg State.cards h.rest
  have step : (offSecuring t).step = (offSecuring s).step := congrArg State.step h.rest
  have streams : (offSecuring t).streams = (offSecuring s).streams := congrArg State.streams h.rest
  have stash : (offSecuring t).stash = (offSecuring s).stash := congrArg State.stash h.rest
  have census : (offSecuring t).census = (offSecuring s).census := congrArg State.census h.rest
  have job : (offSecuring t).job = (offSecuring s).job := congrArg State.job h.rest
  have hbm : (offSecuring t).hbm = (offSecuring s).hbm := congrArg State.hbm h.rest
  have sp : (offSecuring t).sp = (offSecuring s).sp := congrArg State.sp h.rest
  have host : (offSecuring t).host = (offSecuring s).host := congrArg State.host h.rest
  have slot : (offSecuring t).slot = (offSecuring s).slot := congrArg State.slot h.rest
  exact ⟨cards, step, streams, stash, census, job, hbm, sp, host, slot⟩

/-! ## The end of the step -/

/-- The registers at the end of a step: `ELAPSED`, the update count of an open gate, and the slots. -/
def timedStep (us : Nat) (s : State) : State := setF s Reg.watchdog 63 32 us
def countUpdate (s : State) : State := if s.step.gateOpen then rset s Reg.updateCount (rget s Reg.updateCount + 1) else s
def clearSlots (s : State) : State := rset (rset s Reg.slotVoid 0) Reg.slotMixed 0

/-- The card of a step that reached its Bell. -/
def bellCard (s : State) : Card :=
  { body := cardBody s (bellStatus s) 0 (firstConfined s) s.census.snapTotals, annex := some (annexBytes s), frees := false }

/-- The step's end, with its registers, as one state. -/
def countedStep (us : Nat) (s : State) : State := countUpdate (timedStep us s)

theorem restStep_eq (s : State) : restStep s = { endReady (clearSlots s) with
    streams := s.streams.map restStream, rings := (endReady (clearSlots s)).rings.map restRing, step := { ws := s.step.ws }
    stash := [], stashTimeouts := [] } := rfl

/-- The state in which the device stands empty behind a step, before a pass starts. -/
def emptied (us : Nat) (s : State) : State :=
  latchBell (restStep (queueCard (bellCard (countedStep us s)) (countedStep us s)))

theorem execBellDrainComplete_eq {s : State} (running : s.step.active = true) (drained : s.step.bell = .drained) (us : Nat) :
    execBellDrainComplete us s = .next (if (bellSecuring (emptied us s)).job.haltWanted then
      haltNow (discardPending (bellSecuring (emptied us s))) else bellSecuring (emptied us s)) := by
  unfold execBellDrainComplete
  rw [if_pos ⟨running, drained⟩]
  rfl

theorem countUpdate_eq (s : State) : countUpdate s = { s with regs := (countUpdate s).regs } := by
  unfold countUpdate
  split <;> rfl

/-- The counted step differs in its registers alone. -/
theorem countedStep_eq (us : Nat) (s : State) : countedStep us s = { s with regs := (countedStep us s).regs } := by
  rw [countedStep, countUpdate_eq]
  rfl

/-- A register that the step's end does not write. -/
theorem rget_countedStep_ne (us : Nat) (s : State) {a : Nat} (limit : a ≠ Reg.watchdog) (count : a ≠ Reg.updateCount) :
    rget (countedStep us s) a = rget s a := by
  unfold countedStep countUpdate timedStep
  split
  · rw [rget_rset_ne _ _ count, rget_setF_ne _ _ _ _ limit]
  · rw [rget_setF_ne _ _ _ _ limit]

theorem updateCount_countedStep (us : Nat) (s : State) : rget (countedStep us s) Reg.updateCount =
    if s.step.gateOpen then rget s Reg.updateCount + 1 else rget s Reg.updateCount := by
  have before : rget (timedStep us s) Reg.updateCount = rget s Reg.updateCount := rget_setF_ne _ _ _ _ (by decide)
  have gate : (timedStep us s).step.gateOpen = s.step.gateOpen := rfl
  unfold countedStep countUpdate
  rw [gate]
  split
  · rw [rget_rset_same, before]
  · exact before

theorem elapsed_countedStep (us : Nat) (s : State) : getF (countedStep us s) Reg.watchdog 63 32 = us % 2 ^ 32 := by
  have shown : getF (timedStep us s) Reg.watchdog 63 32 = us % 2 ^ 32 := getF_setF_same _ _ _ _ _ (by decide) (by decide)
  unfold countedStep countUpdate
  split
  · rw [getF_rset_ne _ _ _ _ (by decide), shown]
  · exact shown

theorem rget_clearSlots_ne (s : State) {a : Nat} (void : a ≠ Reg.slotVoid) (mixed : a ≠ Reg.slotMixed) :
    rget (clearSlots s) a = rget s a := by
  rw [clearSlots, rget_rset_ne _ _ mixed, rget_rset_ne _ _ void]

theorem rget_restStep (s : State) (a : Nat) : rget (restStep s) a = rget (clearSlots s) a := rget_congr rfl a

theorem rget_latchBell (s : State) (a : Nat) : rget (latchBell s) a = rget s a := rfl

/-- The registers of the empty device. -/
theorem rget_emptied (us : Nat) (s : State) (a : Nat) : rget (emptied us s) a = rget (clearSlots (countedStep us s)) a := by
  rw [emptied, rget_latchBell, rget_restStep]
  by_cases mixed : a = Reg.slotMixed
  · rw [mixed, clearSlots, rget_rset_same, clearSlots, rget_rset_same]
  · by_cases void : a = Reg.slotVoid
    · rw [void, clearSlots, rget_rset_ne _ _ (by decide), rget_rset_same, clearSlots, rget_rset_ne _ _ (by decide), rget_rset_same]
    · rw [rget_clearSlots_ne _ void mixed, rget_clearSlots_ne _ void mixed, rget_congr (queueCard_regs _ _)]

theorem countedStep_step (us : Nat) (s : State) : (countedStep us s).step = s.step := by rw [countedStep_eq]

/-- The empty device, beside its registers and rings. -/
theorem emptied_keeps (us : Nat) (s : State) :
    (emptied us s).cards = s.cards ++ [bellCard (countedStep us s)] ∧ (emptied us s).step = { ws := s.step.ws } ∧
      (emptied us s).streams = s.streams.map restStream ∧ (emptied us s).stash = [] ∧ (emptied us s).hbm = s.hbm ∧
      (emptied us s).sp = s.sp ∧ (emptied us s).host = s.host ∧ (emptied us s).slot = s.slot := by
  rw [emptied, latchBell, restStep_eq, countedStep_eq]
  exact ⟨rfl, rfl, rfl, rfl, rfl, rfl, rfl, rfl⟩

/-- The values that take force at Bell drain complete. -/
theorem emptied_latched (us : Nat) (s : State) :
    (emptied us s).census.cfg = rget s (Reg.rclCfg 0) ∧ (emptied us s).job.stashCfg = rget s Reg.stashCfg ∧
      (emptied us s).job.stashQuota = rget s Reg.stashQuota ∧ (emptied us s).job.haltWanted = s.job.haltWanted := by
  have reads {a : Nat} (void : a ≠ Reg.slotVoid) (mixed : a ≠ Reg.slotMixed) (limit : a ≠ Reg.watchdog)
      (count : a ≠ Reg.updateCount) :
      rget (restStep (queueCard (bellCard (countedStep us s)) (countedStep us s))) a = rget s a := by
    rw [rget_restStep, rget_clearSlots_ne _ void mixed, rget_congr (queueCard_regs _ _), rget_countedStep_ne us s limit count]
  have cfg := reads (a := Reg.rclCfg 0) (by decide) (by decide) (by decide) (by decide)
  have stashCfg := reads (a := Reg.stashCfg) (by decide) (by decide) (by decide) (by decide)
  have quota := reads (a := Reg.stashQuota) (by decide) (by decide) (by decide) (by decide)
  have halt : (restStep (queueCard (bellCard (countedStep us s)) (countedStep us s))).job.haltWanted = s.job.haltWanted := by
    rw [restStep_eq, countedStep_eq]
    rfl
  rw [emptied]
  generalize restStep (queueCard (bellCard (countedStep us s)) (countedStep us s)) = u at *
  exact ⟨cfg, stashCfg, quota, halt⟩

/-- The first fields of a card (15 Table 15-4). -/
theorem cardBody_head (s : State) (status err : Nat) (fault : List Byte) (k : Counts) :
    leBytes 4 s.step.ws.step ++ (leBytes 1 status ++ leBytes 1 s.step.ws.slot) <+: cardBody s status err fault k := by
  unfold cardBody
  dsimp only
  simp only [List.append_assoc]
  generalize leBytes 4 s.step.ws.step = number
  generalize leBytes 1 status = state
  generalize leBytes 1 s.step.ws.slot = place
  exact (List.prefix_append_right_inj number).2 ((List.prefix_append_right_inj state).2 (List.prefix_append place _))

theorem cardBody_fields (s : State) (status err : Nat) (fault : List Byte) (k : Counts) :
    leAt (cardBody s status err fault k) 0 4 = stepNo s % 2 ^ 32 ∧ leAt (cardBody s status err fault k) 4 1 = status % 256 ∧
      leAt (cardBody s status err fault k) 5 1 = s.step.ws.slot % 256 := by
  obtain ⟨rest, shown⟩ := cardBody_head s status err fault k
  refine ⟨?_, ?_, ?_⟩
  · rw [← shown, leAt_append_left _ _ (by simp), leAt_append_left _ _ (by simp), leAt_leBytes]
    rfl
  · rw [← shown, leAt_append_left _ _ (by simp), leAt_append_right _ _ _ (by simp), length_leBytes,
      leAt_append_left _ _ (by simp), leAt_leBytes, pow_one]
  · rw [← shown, leAt_append_left _ _ (by simp), leAt_append_right _ _ _ (by simp), length_leBytes,
      leAt_append_right _ _ _ (by simp), length_leBytes, leAt_leBytes, pow_one]

theorem bellStatus_lt (s : State) : bellStatus s < 256 := by
  unfold bellStatus
  split
  · split
    · decide
    · split <;> decide
  · decide

theorem bellStatus_congr {s t : State} (h : t.step = s.step) : bellStatus t = bellStatus s := by simp only [bellStatus, h]

theorem bellCard_fields (s : State) : (bellCard s).annex.isSome = true ∧ (bellCard s).frees = false ∧
    leAt (bellCard s).body 0 4 = stepNo s % 2 ^ 32 ∧ leAt (bellCard s).body 4 1 = bellStatus s ∧
    leAt (bellCard s).body 5 1 = s.step.ws.slot % 256 := by
  obtain ⟨step, status, slot⟩ := cardBody_fields s (bellStatus s) 0 (firstConfined s) s.census.snapTotals
  exact ⟨rfl, rfl, step, status.trans (Nat.mod_eq_of_lt (bellStatus_lt s)), slot⟩

/-- A job that is halted with its pending step discarded. -/
theorem halted_spec {s : State} (wanted : s.job.haltWanted = true) :
    jobState (haltNow (discardPending s)) = 4 ∧ (haltNow (discardPending s)).job.haltWanted = false ∧
      (haltNow (discardPending s)).next = none ∧ (haltNow (discardPending s)).step.active = s.step.active ∧
      (∀ p, (haltNow (discardPending s)).slot = some p → p.rejected = true) ∧
      getB (haltNow (discardPending s)) (Reg.intStatus .glb 0) 8 = true := by
  have asked : (discardPending s).job.haltWanted = true := by rw [discardPending_job, wanted]
  have slot := discardPending_slot s
  have next := discardPending_next s
  have step := discardPending_step s
  rw [haltNow_of_wanted asked]
  generalize discardPending s = u at *
  obtain ⟨v, hv⟩ : ∃ v, v = { u with job := { u.job with haltWanted := false } } := ⟨_, rfl⟩
  obtain ⟨state, event, -⟩ := toHalted_shows v
  obtain ⟨-, slot', next', job'⟩ := toHalted_keeps v
  obtain ⟨active, -⟩ := step_of_endFrame (endFrame_toHalted v)
  rw [← hv]
  refine ⟨state, by rw [job', hv], by rw [next', hv, next], by rw [active, hv, step], fun p held => ?_, event⟩
  rw [slot', hv, slot, Option.map_eq_some_iff] at held
  obtain ⟨q, -, rfl⟩ := held
  split
  · assumption
  · rfl

/-- Settles O28: the counted step's card and registers, the empty device, and the securing that changes only registers of its own,
the Locker and the rings; a requested halt follows by `halted_spec`. -/
theorem bellDrainCompleteEndsStep : Obligations.BellDrainCompleteEndsStep := by
  unfold Obligations.BellDrainCompleteEndsStep
  refine ⟨?goesOn, ?halts⟩
  case goesOn =>
    intro us s running drained unwanted
    have secured := secures_bellSecuring (emptied us s)
    obtain ⟨cards, step, streams, stash, hbm, sp, host, slot⟩ := emptied_keeps us s
    obtain ⟨cfg, stashCfg, quota, halt⟩ := emptied_latched us s
    have go := execBellDrainComplete_eq running drained us
    have regs (a : Nat) (off : a ∉ securingRegs) : rget (bellSecuring (emptied us s)) a = rget (clearSlots (countedStep us s)) a :=
      (secured.regs a off).trans (rget_emptied us s a)
    generalize bellSecuring (emptied us s) = t at *
    obtain ⟨cards', step', streams', stash', census', job', hbm', sp', host', slot'⟩ := secured.keeps
    rw [if_neg (by rw [job', halt, unwanted]; decide)] at go
    obtain ⟨annex, frees, number, status, place⟩ := bellCard_fields (countedStep us s)
    have same := countedStep_step us s
    refine ⟨t, go, ?_, ?_, ⟨bellCard (countedStep us s), cards'.trans cards, annex, frees, ?_, ?_, ?_⟩, by rw [step', step],
      streams'.trans streams, stash'.trans stash, ?_, ?_, by rw [census', cfg], by rw [job', stashCfg], by rw [job', quota], ?_,
      hbm'.trans hbm, sp'.trans sp, host'.trans host, slot'.trans slot⟩
    · rw [getF, regs _ (by decide), rget_clearSlots_ne _ (by decide) (by decide), ← getF, elapsed_countedStep]
    · rw [regs _ (by decide), rget_clearSlots_ne _ (by decide) (by decide), updateCount_countedStep]
    · rw [number, stepNo, same, stepNo]
    · rw [status, bellStatus_congr same]
    · rw [place, same]
    · rw [regs _ (by decide), clearSlots, rget_rset_ne _ _ (by decide), rget_rset_same]
    · rw [regs _ (by decide), clearSlots, rget_rset_same]
    · rw [jobState, getF, regs _ (by decide), rget_clearSlots_ne _ (by decide) (by decide),
        rget_countedStep_ne us s (by decide) (by decide)]
      rfl
  case halts =>
    intro us s running drained wanted
    have secured := secures_bellSecuring (emptied us s)
    obtain ⟨-, step, -⟩ := emptied_keeps us s
    obtain ⟨-, -, -, halt⟩ := emptied_latched us s
    have go := execBellDrainComplete_eq running drained us
    generalize bellSecuring (emptied us s) = t at *
    obtain ⟨-, step', -, -, -, job', -⟩ := secured.keeps
    have asked : t.job.haltWanted = true := by rw [job', halt, wanted]
    obtain ⟨state, done, next, active, slot, event⟩ := halted_spec asked
    rw [if_pos asked] at go
    exact ⟨_, go, state, done, next, by rw [active, step', step], slot, event⟩

end Sys2Proof.Machine
end

