-- ==== Sys2Proof/Proofs/Bell.lean ====
section
/-! The Bell: its markers, its drain (03 R64, R65), and the statement of O27. -/

namespace Sys2Proof.Machine
open Sys2Proof.Stmt

/-! ## Ports -/

theorem port_setPort_same (x : Port) {p : Nat} {s : State} (h : p < s.ports.length) : port (setPort p x s) p = x := by
  simp [port, setPort, h]

theorem port_setPort_ne (x : Port) (s : State) {p q : Nat} (h : q ≠ p) : port (setPort p x s) q = port s q := by
  simp only [port, setPort, List.getD_eq_getElem?_getD, List.getElem?_set_ne h.symm]

theorem length_setPort (p : Nat) (x : Port) (s : State) : (setPort p x s).ports.length = s.ports.length := List.length_set

/-- A change of ports and crossings alone. -/
structure PortsOnly (s t : State) : Prop where
  rest : t = { s with ports := t.ports, crossings := t.crossings }
  length : t.ports.length = s.ports.length

theorem PortsOnly.refl (s : State) : PortsOnly s s := ⟨rfl, rfl⟩

theorem PortsOnly.trans {s t u : State} (h : PortsOnly s t) (k : PortsOnly t u) : PortsOnly s u :=
  ⟨by rw [k.rest, h.rest], k.length.trans h.length⟩

theorem portsOnly_modPort (p : Nat) (f : Port → Port) (s : State) : PortsOnly s (modPort p f s) :=
  ⟨rfl, length_setPort _ _ _⟩

theorem portsOnly_touch (ty : Blk) (i : Nat) (s : State) : PortsOnly s (touchCrossing ty i s) := by
  rw [touchCrossing_eq]
  exact ⟨rfl, rfl⟩

theorem portsOnly_sendInto (p : Nat) (fs : List Flit) (s : State) : PortsOnly s (sendInto p fs s) :=
  (portsOnly_modPort p _ s).trans (portsOnly_touch .nlp p _)

theorem PortsOnly.regs {s t : State} (h : PortsOnly s t) : t.regs = s.regs := by rw [h.rest]
theorem PortsOnly.step {s t : State} (h : PortsOnly s t) : t.step = s.step := by rw [h.rest]

theorem port_touch (ty : Blk) (i : Nat) (s : State) (q : Nat) : port (touchCrossing ty i s) q = port s q := by
  rw [touchCrossing_eq]
  rfl

theorem port_sendInto (p : Nat) (fs : List Flit) {s : State} (h : p < s.ports.length) (q : Nat) :
    port (sendInto p fs s) q = if q = p then { port s p with txq := (port s p).txq ++ fs } else port s q := by
  rw [sendInto, port_touch, modPort]
  split
  · next same => rw [same, port_setPort_same _ h]
  · next other => rw [port_setPort_ne _ _ other]

theorem crossingAt_sendInto (p : Nat) (fs : List Flit) (s : State) (q : Nat) :
    crossingAt (sendInto p fs s) .nlp q =
      if q = p ∧ (crossingAt s .nlp q).clockOn = false then { clockOn := false, wake := true } else crossingAt s .nlp q := by
  have key : crossingKey .nlp q = crossingKey .nlp p ↔ q = p := by simp [crossingKey]
  have same : (modPort p (fun x => { x with txq := x.txq ++ fs }) s).crossings = s.crossings := rfl
  rw [sendInto, touchCrossing_eq]
  simp only [crossingAt, same, cellGet_raiseWake]
  by_cases here : q = p
  · subst here
    simp
  · simp [here, mt key.1 here]

/-! ## BELL_START (03 R64) -/

theorem bellPort_congr {s t : State} (regs : t.regs = s.regs) {p : Nat} (same : port t p = port s p) :
    bellPort t p = bellPort s p := by
  simp only [bellPort, linkState, getF_congr regs, same]

theorem bellFlit_congr {s t : State} (regs : t.regs = s.regs) (step : t.step = s.step) {p : Nat} (same : port t p = port s p) :
    bellFlit t p = bellFlit s p := by
  unfold bellFlit portRole ringPos stepNo
  rw [same, step, getF_congr regs]

/-- The marker of port `p`, if it takes part in the Bell. -/
def markPort (s : State) (p : Nat) : State := if bellPort s p then sendInto p [bellFlit s p] s else s

/-- The first `n` ports have their markers. -/
structure MarkedTo (n : Nat) (s t : State) : Prop where
  only : PortsOnly s t
  sent : ∀ p, p < n → bellPort s p = true → port t p = { port s p with txq := (port s p).txq ++ [bellFlit s p] } ∧
    ((crossingAt s .nlp p).clockOn = false → (crossingAt t .nlp p).wake = true)
  kept : ∀ p, n ≤ p ∨ bellPort s p = false → port t p = port s p ∧ crossingAt t .nlp p = crossingAt s .nlp p

theorem MarkedTo.next {n : Nat} {s t : State} (h : MarkedTo n s t) (small : n < s.ports.length) :
    MarkedTo (n + 1) s (markPort t n) := by
  obtain ⟨here, clock⟩ := h.kept n (.inl (Nat.le_refl n))
  have takes := bellPort_congr h.only.regs here
  have flit := bellFlit_congr h.only.regs h.only.step here
  have inside : n < t.ports.length := by rwa [h.only.length]
  unfold markPort
  rw [takes, flit]
  cases part : bellPort s n with
  | false =>
    refine ⟨h.only, fun p low bell => h.sent p (Nat.lt_of_le_of_ne (Nat.le_of_lt_succ low) ?_) bell, fun p out => h.kept p ?_⟩
    · rintro rfl
      simp [part] at bell
    · by_cases same : p = n
      · exact .inr (same ▸ part)
      · exact out.imp_left fun _ => by omega
  | true =>
    refine ⟨h.only.trans (portsOnly_sendInto _ _ _), fun p low bell => ?_, fun p out => ?_⟩
    · rw [if_pos rfl, port_sendInto _ _ inside, crossingAt_sendInto]
      by_cases same : p = n
      · subst same
        refine ⟨by rw [if_pos rfl, here], fun stopped => ?_⟩
        rw [if_pos ⟨rfl, by rw [clock, stopped]⟩]
      · simp only [same, if_false, false_and]
        exact h.sent p (by omega) bell
    · have same : p ≠ n := by
        rintro rfl
        rcases out with out | out
        · omega
        · simp [part] at out
      rw [if_pos rfl, port_sendInto _ _ inside, crossingAt_sendInto]
      simp only [same, if_false, false_and]
      exact h.kept p (out.imp_left fun _ => by omega)

theorem markedTo_fold (s : State) (n : Nat) (small : n ≤ s.ports.length) : MarkedTo n s ((List.range n).foldl markPort s) := by
  induction n with
  | zero => exact ⟨.refl s, fun p low => absurd low (Nat.not_lt_zero p), fun _ _ => ⟨rfl, rfl⟩⟩
  | succ n ih =>
    rw [List.range_succ, List.foldl_append]
    exact (ih (Nat.le_of_succ_le small)).next small

/-- The Bell counted as sent. -/
def bellSent (s : State) : State := { s with step := { s.step with bell := .markersSent } }

theorem execBellStart_sends {s : State} (runs : stepRuns s = true) (decided : s.step.decided = true)
    (ended : ∀ x ∈ s.streams, x.atEnd = true ∧ x.inflight = [])
    (ready : ∀ p, p < 6 → bellPort s p = true → portSends s p = false ∧ crossingRoom (port s p) 1 = true ∧ peerReady s p = true) :
    execBellStart s = .next (bellSent ((List.range 6).foldl markPort s)) := by
  have streams : (s.streams.all fun x => x.atEnd && x.inflight.isEmpty) = true := by
    rw [List.all_eq_true]
    intro x mem
    obtain ⟨atEnd, empty⟩ := ended x mem
    simp [atEnd, empty]
  have ports : ((List.range 6).any fun p => bellPort s p && (portSends s p || !crossingRoom (port s p) 1 || !peerReady s p)) =
      false := by
    rw [List.any_eq_false]
    intro p mem
    cases part : bellPort s p with
    | false => simp
    | true =>
      obtain ⟨quiet, room, peer⟩ := ready p (List.mem_range.1 mem) part
      simp [quiet, room, peer]
  unfold execBellStart
  rw [runs, decided, streams, ports]
  rfl

theorem execBellStart_waits {s : State} {p : Nat} (small : p < 6) (part : bellPort s p = true)
    (busy : portSends s p = true ∨ peerReady s p = false) : execBellStart s = .next s := by
  have ports : ((List.range 6).any fun p => bellPort s p && (portSends s p || !crossingRoom (port s p) 1 || !peerReady s p)) =
      true := by
    rw [List.any_eq_true]
    refine ⟨p, List.mem_range.2 small, ?_⟩
    rcases busy with sends | unready
    · simp [part, sends]
    · simp [part, unready]
  unfold execBellStart
  rw [ports]
  simp

/-! ## BELL_DRAIN: bank pairs (03 R65, 10 R227) -/

/-- The retained pairs of the first cores are ON again. -/
def wokenCores (n : Nat) (s : State) : State := (List.range n).foldl (fun s k => wakePairs k s) s

theorem wakePairs_regs (c : Nat) (s : State) : wakePairs c s = { s with regs := (wakePairs c s).regs } := by
  unfold wakePairs
  dsimp only
  split <;> rfl

theorem wokenCores_regs (n : Nat) (s : State) : wokenCores n s = { s with regs := (wokenCores n s).regs } := by
  unfold wokenCores
  induction n with
  | zero => rfl
  | succ n ih => rw [List.range_succ, List.foldl_append, List.foldl_cons, List.foldl_nil, wakePairs_regs, ih]

theorem spPower_inj {c d : Nat} : Reg.spPower c = Reg.spPower d ↔ c = d := by
  simp [Reg.spPower, reg]

/-- The power word of a core whose retained pairs have returned to ON. -/
def wokenWord (w : W64) : W64 := if fld w 47 32 = 0 then w else setFld w 47 32 (fld w 47 32 &&& 0xAAAA)

theorem rget_wakePairs (c : Nat) (s : State) (a : Nat) :
    rget (wakePairs c s) a = if a = Reg.spPower c then wokenWord (rget s a) else rget s a := by
  by_cases here : a = Reg.spPower c
  · subst here
    rw [if_pos rfl]
    unfold wakePairs wokenWord getF
    dsimp only
    split
    · rfl
    · rw [rget_setF, if_pos rfl]
  · rw [if_neg here]
    unfold wakePairs
    dsimp only
    split
    · rfl
    · exact rget_setF_ne _ _ _ _ here

theorem rget_wokenCores (n c : Nat) (s : State) :
    rget (wokenCores n s) (Reg.spPower c) =
      if c < n then wokenWord (rget s (Reg.spPower c)) else rget s (Reg.spPower c) := by
  unfold wokenCores
  induction n with
  | zero => rfl
  | succ n ih =>
    rw [List.range_succ, List.foldl_append, List.foldl_cons, List.foldl_nil, rget_wakePairs, ih]
    simp only [spPower_inj]
    by_cases here : c = n
    · subst here
      simp
    · rw [if_neg here]
      exact if_congr (by omega) rfl rfl

theorem fld_pair (w : W64) {k : Nat} (h : k < 8) : fld w (2 * k + 33) (2 * k + 32) = fld w 47 32 / 2 ^ (2 * k) % 2 ^ 2 := by
  apply Nat.eq_of_testBit_eq
  intro i
  rw [Nat.testBit_mod_two_pow, Nat.testBit_div_two_pow, fld_testBit, fld_testBit]
  by_cases inside : i < 2
  · simp only [show i < 2 * k + 33 + 1 - (2 * k + 32) by omega, show i + 2 * k < 47 + 1 - 32 by omega, inside,
      decide_true, Bool.true_and]
    congr 1
    omega
  · simp [inside]

/-- Masking keeps the OFF bit of each pair and clears its retained bit. -/
theorem pair_masked (n : Nat) {k : Nat} (h : k < 8) :
    (n &&& 0xAAAA) / 2 ^ (2 * k) % 2 ^ 2 = if n / 2 ^ (2 * k) % 2 ^ 2 ≤ 1 then 0 else 2 := by
  have bits : 0xAAAA / 2 ^ (2 * k) % 2 ^ 2 = 2 := by interval_cases k <;> rfl
  have small : n / 2 ^ (2 * k) % 2 ^ 2 < 4 := Nat.mod_lt _ (by decide)
  rw [Nat.and_div_two_pow, Nat.and_mod_two_pow, bits]
  generalize n / 2 ^ (2 * k) % 2 ^ 2 = m at small ⊢
  interval_cases m <;> rfl

theorem pair_wokenWord (w : W64) {k : Nat} (h : k < 8) : fld (wokenWord w) (2 * k + 33) (2 * k + 32) =
    if fld w (2 * k + 33) (2 * k + 32) ≤ 1 then 0 else 2 := by
  rw [fld_pair _ h, fld_pair _ h, ← pair_masked _ h]
  congr 2
  have fits : fld w 47 32 &&& 0xAAAA < 2 ^ (47 + 1 - 32) := Nat.and_le_left.trans_lt (fld_lt w 47 32)
  unfold wokenWord
  split
  · next zero => rw [zero, Nat.zero_and]
  · rw [fld_setFld_same _ _ _ _ (by decide) (by decide), Nat.mod_eq_of_lt fits]

/-- Behind the Bell's drain a pair is ON, unless it was OFF. -/
theorem pair_wokenCores {n c k : Nat} (core : c < n) (h : k < 8) (s : State) :
    getF (wokenCores n s) (Reg.spPower c) (2 * k + 33) (2 * k + 32) =
      if getF s (Reg.spPower c) (2 * k + 33) (2 * k + 32) ≤ 1 then 0 else 2 := by
  rw [getF, rget_wokenCores, if_pos core, pair_wokenWord _ h, getF]

/-! ## BELL_DRAIN: ports that took no part -/

theorem portClean_congr {s t : State} {p : Nat} (same : port t p = port s p) : portClean t p = portClean s p := by
  simp only [portClean, same]

theorem portsOnly_cleanPort (s : State) (p : Nat) : PortsOnly s (cleanPort s p) := by
  unfold cleanPort
  split
  · exact .refl s
  · exact portsOnly_modPort p _ s

theorem port_cleanPort_ne (s : State) {p q : Nat} (h : q ≠ p) : port (cleanPort s p) q = port s q := by
  unfold cleanPort
  split
  · rfl
  · exact port_setPort_ne _ s h

theorem cleanPort_of_clean {s : State} {p : Nat} (h : portClean s p = true) : cleanPort s p = s := if_pos h

theorem get3_zero (c : Nat) : get3 (0, 0, 0) c = 0 := by simp [get3]

/-- A port without its link state is clean. -/
theorem portClean_cleanPort {s : State} {p : Nat} (inside : p < s.ports.length) : portClean (cleanPort s p) p = true := by
  unfold cleanPort
  split
  · assumption
  · simp [portClean, dropLinkState, modPort, port_setPort_same _ inside, credits, get3_zero, discardPort]

/-- The first `n` ports are clean, and those that were clean are as they were. -/
structure CleanedTo (n : Nat) (s t : State) : Prop where
  only : PortsOnly s t
  clean : ∀ p, p < n → portClean t p = true
  kept : ∀ p, n ≤ p ∨ portClean s p = true → port t p = port s p

theorem CleanedTo.next {n : Nat} {s t : State} (h : CleanedTo n s t) (small : n < s.ports.length) :
    CleanedTo (n + 1) s (cleanPort t n) := by
  refine ⟨h.only.trans (portsOnly_cleanPort t n), fun p low => ?_, fun p out => ?_⟩
  · by_cases here : p = n
    · rw [here]
      exact portClean_cleanPort (by rwa [h.only.length])
    · rw [portClean_congr (port_cleanPort_ne t here)]
      exact h.clean p (by omega)
  · by_cases here : p = n
    · subst here
      have clean : portClean s p = true := out.resolve_left (by omega)
      have before := h.kept p (.inr clean)
      rw [cleanPort_of_clean (by rw [portClean_congr before, clean]), before]
    · rw [port_cleanPort_ne t here]
      exact h.kept p (out.imp_left fun _ => by omega)

theorem cleanedTo_fold (s : State) (n : Nat) (small : n ≤ s.ports.length) : CleanedTo n s ((List.range n).foldl cleanPort s) := by
  induction n with
  | zero => exact ⟨.refl s, fun p low => absurd low (Nat.not_lt_zero p), fun _ _ => rfl⟩
  | succ n ih =>
    rw [List.range_succ, List.foldl_append]
    exact (ih (Nat.le_of_succ_le small)).next small

/-! ## BELL_DRAIN: silent layers (06 R140) -/

/-- The state without what the silent-layer counters may change. -/
def offSilent (s : State) : State :=
  { s with
    regs := [], out := [], census := { s.census with runs := [], alerted := [] }
    step := { s.step with silentAlerts := 0, silentIds := [] } }

/-- A change of those, and of the registers only those of the RCL pages and behind. -/
structure Quiets (s t : State) : Prop where
  rest : offSilent t = offSilent s
  regs : ∀ a, a < 0x1A000000 → rget t a = rget s a

theorem Quiets.refl (s : State) : Quiets s s := ⟨rfl, fun _ _ => rfl⟩

theorem Quiets.trans {s t u : State} (h : Quiets s t) (k : Quiets t u) : Quiets s u :=
  ⟨k.rest.trans h.rest, fun a low => (k.regs a low).trans (h.regs a low)⟩

theorem Quiets.foldl {β : Type} {f : State → β → State} (step : ∀ t b, Quiets t (f t b)) (s : State) (l : List β) :
    Quiets s (l.foldl f s) := by
  induction l generalizing s with
  | nil => exact .refl s
  | cons b l ih => exact (step s b).trans (ih _)

theorem le_rcl (d off : Nat) : 0x1A000000 ≤ reg .rcl d off := by
  simp only [reg, blkCode]
  omega

theorem quiets_rset {a : Nat} (h : 0x1A000000 ≤ a) (v : W64) (s : State) : Quiets s (rset s a v) :=
  ⟨by simp [offSilent], fun _ low => rget_rset_ne s v (by omega)⟩

theorem quiets_setInt (d b : Nat) (s : State) : Quiets s (setInt .rcl d b s) :=
  ⟨by simp [offSilent], fun a low => rget_setInt_ne s b (Nat.ne_of_lt (low.trans_le (le_rcl d 0x020)))⟩

theorem quiets_alert (n : Nat) (s : State) : Quiets s (alert n s) := ⟨by simp [offSilent], fun _ _ => rfl⟩

/-- The registers of one RCL instance as an alert leaves them. -/
def showSilent (id : Nat) (s : State) (d : Nat) : State :=
  setInt .rcl d 8 (setF (incSat (setB s (Reg.rclSilent d) 63 true) (Reg.rclSilent d) 47 32 1) (Reg.rclSilent d) 11 0 id)

theorem quiets_showSilent (id : Nat) (s : State) (d : Nat) : Quiets s (showSilent id s d) :=
  (((quiets_rset (le_rcl d _) _ s).trans (quiets_rset (le_rcl d _) _ _)).trans (quiets_rset (le_rcl d _) _ _)).trans
    (quiets_setInt d 8 _)

theorem quiets_silentStep (s : State) (id : Nat) : Quiets s (silentStep s id) := by
  have counted (r : Cells Nat) (l : List Nat) : Quiets s { s with census := { s.census with runs := r, alerted := l } } :=
    ⟨rfl, fun _ _ => rfl⟩
  have told (r : Cells Nat) (l : List Nat) (n : Nat) (ids : List Nat) :
      Quiets s { s with
        census := { s.census with runs := r, alerted := l }, step := { s.step with silentAlerts := n, silentIds := ids } } :=
    ⟨rfl, fun _ _ => rfl⟩
  unfold silentStep
  dsimp only
  split
  · exact .refl s
  · generalize (if fld s.census.cfg 51 32 * _ ≤ _ * 1000000 then _ else 0) = run
    split
    · refine Quiets.trans ?_ (quiets_alert _ _)
      refine Quiets.trans ?_ (Quiets.foldl (f := showSilent id) (quiets_showSilent id) _ (List.range 4))
      exact told _ _ _ _
    · exact counted _ _

theorem quiets_silentBell (s : State) : Quiets s (silentBell s) :=
  Quiets.foldl (f := fun t (p : Nat × ScaleRec) => silentStep t p.1) (fun t p => quiets_silentStep t p.1) s _

/-! ## BELL_DRAIN: the equation -/

/-- The ports and bank pairs as the drain leaves them. -/
def restedPorts (s : State) : State := (List.range 6).foldl cleanPort (wokenCores 136 s)

/-- The cleared data path with its census snapshot. -/
def clearedPath (s : State) : State :=
  { s with
    acc := [], ksteps := [], sp := [], spFix := [], passes := [], waiters := []
    census := censusBell s.census
    step := { s.step with bell := .drained, sysPasses := [] } }

theorem execBellDrain_eq {s : State} (active : s.step.active = true) (sent : s.step.bell = .markersSent)
    (markers : markersMissing s = []) (quiet : ∀ p, p < 6 → portQuiet s p = true) :
    execBellDrain s = .next (silentBell (clearedPath (restedPorts s))) := by
  have ports : (List.range 6).all (portQuiet s) = true := List.all_eq_true.2 fun p mem => quiet p (List.mem_range.1 mem)
  unfold execBellDrain
  rw [if_pos ⟨active, sent, markers, ports⟩]
  simp only [clearedPath, restedPorts, wokenCores]

theorem wokenCores_rest (n : Nat) (s : State) : (wokenCores n s).ports = s.ports ∧ (wokenCores n s).streams = s.streams ∧
    (wokenCores n s).hbm = s.hbm ∧ (wokenCores n s).stash = s.stash ∧ (wokenCores n s).cards = s.cards ∧
    (wokenCores n s).step = s.step ∧ (wokenCores n s).census = s.census := by
  rw [wokenCores_regs]
  exact ⟨rfl, rfl, rfl, rfl, rfl, rfl, rfl⟩

/-- What the drain leaves of the state behind its ports. -/
theorem restedPorts_spec {s : State} (length : s.ports.length = 6) : CleanedTo 6 (wokenCores 136 s) (restedPorts s) := by
  obtain ⟨ports, -⟩ := wokenCores_rest 136 s
  exact cleanedTo_fold _ 6 (by rw [ports, length])

theorem spPower_low {c : Nat} (h : c < 136) : Reg.spPower c < 0x1A000000 := by
  simp [Reg.spPower, reg, blkCode]
  omega

theorem rget_restedPorts {s : State} (length : s.ports.length = 6) (a : Nat) :
    rget (restedPorts s) a = rget (wokenCores 136 s) a :=
  rget_congr (restedPorts_spec length).only.regs a

theorem rget_clearedPath (s : State) (a : Nat) : rget (clearedPath s) a = rget s a := rfl

/-- A port that takes part in the Bell and is quiet is clean. -/
theorem portClean_of_quiet {s : State} {p : Nat} (quiet : portQuiet s p = true) (part : bellPort s p = true) :
    portClean s p = true := by
  simp only [portQuiet, part, Bool.not_true, Bool.false_or, Bool.and_eq_true] at quiet
  exact quiet.1

theorem ports_restedPorts {s : State} (length : s.ports.length = 6) (quiet : ∀ p, p < 6 → portQuiet s p = true) :
    ∀ p, p < 6 → portClean (restedPorts s) p = true ∧
      (bellPort s p = true ∨ portClean s p = true → port (restedPorts s) p = port s p) := by
  intro p low
  have spec := restedPorts_spec length
  have same : port (wokenCores 136 s) p = port s p := by rw [port, (wokenCores_rest 136 s).1, port]
  refine ⟨spec.clean p low, fun part => ?_⟩
  have clean : portClean s p = true := part.elim (portClean_of_quiet (quiet p low)) id
  rw [spec.kept p (.inr (by rw [portClean_congr same, clean])), same]

theorem restedPorts_rest {s : State} (length : s.ports.length = 6) : (restedPorts s).streams = s.streams ∧
    (restedPorts s).hbm = s.hbm ∧ (restedPorts s).stash = s.stash ∧ (restedPorts s).cards = s.cards ∧
    (restedPorts s).step = s.step ∧ (restedPorts s).census = s.census := by
  rw [(restedPorts_spec length).only.rest]
  exact (wokenCores_rest 136 s).2

/-- The drained device: the silent-layer counters behind the cleared data path change nothing of this. -/
theorem drained_spec {r t : State} (same : offSilent t = offSilent (clearedPath r)) :
    t.step.bell = .drained ∧ t.step.active = r.step.active ∧ t.acc = [] ∧ t.ksteps = [] ∧ t.sp = [] ∧ t.spFix = [] ∧
      t.passes = [] ∧ t.waiters = [] ∧ t.step.sysPasses = [] ∧ t.census.snap = r.census.counts ∧ t.census.counts = [] ∧
      t.census.snapTotals = r.census.totals ∧ t.census.scale = (censusBell r.census).scale ∧ t.streams = r.streams ∧
      t.hbm = r.hbm ∧ t.stash = r.stash ∧ t.cards = r.cards ∧ t.ports = r.ports := by
  have kept {β : Type} (f : State → β) : f (offSilent t) = f (offSilent (clearedPath r)) := congrArg f same
  exact ⟨kept (·.step.bell), kept (·.step.active), kept State.acc, kept State.ksteps, kept State.sp, kept State.spFix,
    kept State.passes, kept State.waiters, kept (·.step.sysPasses), kept (·.census.snap), kept (·.census.counts),
    kept (·.census.snapTotals), kept (·.census.scale), kept State.streams, kept State.hbm, kept State.stash,
    kept State.cards, kept State.ports⟩

/-- Settles O27: the fold over the ports marks one port at a time; the drain's cleared data path is then judged by the
silent-layer counters, which reach no core's page. -/
theorem bellDrainsTheStep : Obligations.BellDrainsTheStep := by
  refine ⟨fun s runs decided ended ready length => ?_, fun s p low part busy => execBellStart_waits low part busy,
    fun s active sent markers quiet length => ?_⟩
  · obtain ⟨only, marked, kept⟩ := markedTo_fold s 6 (by rw [length])
    refine ⟨_, execBellStart_sends runs decided ended ready, ?_, fun p low part => ?_, fun p low part => kept p (.inr part), ?_⟩
    · rw [bellSent, only.step]
    · obtain ⟨now, clock⟩ := marked p low part
      have held : port (bellSent ((List.range 6).foldl markPort s)) p = _ := now
      rw [held]
      exact ⟨rfl, rfl, clock⟩
    · rw [bellSent, only.rest]
  · have ports := ports_restedPorts length quiet
    have regs := rget_restedPorts length
    obtain ⟨streams, hbm, stash, cards, step, census⟩ := restedPorts_rest length
    refine ⟨_, execBellDrain_eq active sent markers quiet, ?_⟩
    generalize restedPorts s = r at ports regs streams hbm stash cards step census ⊢
    obtain ⟨same, low⟩ := quiets_silentBell (clearedPath r)
    generalize silentBell (clearedPath r) = t at same low ⊢
    obtain ⟨bell, active', acc, ksteps, sp, spFix, passes, waiters, sysPasses, snap, counts, totals, scale, streams', hbm',
      stash', cards', ports'⟩ := drained_spec same
    have power (c : Nat) (h : c < 136) : rget t (Reg.spPower c) = rget (wokenCores 136 s) (Reg.spPower c) := by
      rw [low _ (spPower_low h), rget_clearedPath, regs]
    have links (p : Nat) : port t p = port r p := by rw [port, ports', port]
    rw [step] at active'
    rw [census] at snap totals scale
    refine ⟨bell, active'.trans active, acc, ksteps, sp, spFix, passes, waiters, sysPasses, fun c k core pair => ?_, snap, counts,
      totals, scale, streams'.trans streams, hbm'.trans hbm, stash'.trans stash, cards'.trans cards, fun p lowp => ?_⟩
    · rw [getF, power c core, ← getF, pair_wokenCores core pair]
    · rw [portClean_congr (links p), links p]
      exact ports p lowp

end Sys2Proof.Machine
end

