-- ==== Sys2Proof/Proofs/JobControl.lean ====
section
/-! START and HALT (03 R47, R72), and the statements of O8 and O9. -/

namespace Sys2Proof.Machine
open Sys2Proof.Stmt

/-- `START_STEP` as a write of `GLB_JOB_CTRL` leaves it (20 R433). -/
def startStepField (v : W64) (s : State) : State := if jobActive s then s else setF s Reg.jobCtrl 31 0 (fld v 31 0)

theorem regFields_jobCtrl : regFields .glb 0x210 = [fWo 63, fWo 62, fRw 31 0] := rfl

/-- The fields of `GLB_JOB_CTRL` take a write while no job is active. -/
theorem writeFields_jobCtrl (m : Master) (v : W64) (s : State) : writeFields m .glb 0 0x210 v s = startStepField v s := by
  have fits : fld v 31 0 ≤ 18446744073709551616 := (fld_lt v 31 0).le.trans (by norm_num)
  unfold startStepField
  cases active : jobActive s with
  | true => simp [writeFields, openFields, fieldOpen, active]
  | false =>
    simp [writeFields, openFields, regFields_jobCtrl, fieldOpen, deniedHere, deniedFields, active, writeField, fWo, fRw, fits]
    rfl

/-- A write of `GLB_JOB_CTRL`: its field, then `START`, then `HALT`. -/
theorem writePage_jobCtrl (m : Master) (v : W64) (s : State) :
    writePage m .glb 0 0x210 v s =
      (if fld v 62 62 == 1 then haltAct else id) ((if fld v 63 63 == 1 then startAct else id) (startStepField v s)) := by
  have admitted : wholeDenied s m .glb 0x210 = false := rfl
  have carried : carriesDenied s m .glb 0 0x210 v = false := rfl
  rw [writePage, admitted, carried]
  simp only [Bool.false_eq_true, if_false, writeFields_jobCtrl, writeActions]
  cases fld v 63 63 == 1 <;> cases fld v 62 62 == 1 <;> rfl

theorem execHalt_eq {m : Master} {v : W64} {s : State} (h : Reaches m .glb 0 s) (unstarted : fld v 63 63 = 0) :
    execHalt m v s = .next (haltAct (startStepField v s)) := by
  rw [execHalt, regWrite_eq_writePage h (by decide) (by decide), writePage_jobCtrl, fld_withBit_same 62 v (by decide),
    fld_withBit_other _ _ _ _ (by decide), unstarted, startStepField, startStepField, fld_withBit_other _ _ _ _ (by decide)]
  rfl

theorem execStart_eq {m : Master} {v : W64} {s : State} (h : Reaches m .glb 0 s) :
    execStart m v s = .next ((if fld v 62 62 == 1 then haltAct else id) (startAct (startStepField v s))) := by
  rw [execStart, regWrite_eq_writePage h (by decide) (by decide), writePage_jobCtrl, fld_withBit_same 63 v (by decide),
    fld_withBit_other _ _ _ _ (by decide), startStepField, startStepField, fld_withBit_other _ _ _ _ (by decide)]
  rfl

/-! ## START: what the power sequences leave -/

/-- The state without what a power sequence that begins may change, the registers apart. -/
def offPower (s : State) : State := { s with regs := [], out := [], power := {} }

/-- What the beginning of a power sequence leaves as it is: the rest of the state and the GLB page. -/
def powerFrame (s : State) : State × (Nat → W64) := (offPower s, glbRegs s)

theorem powerFrame_congr {s t : State} (state : offPower t = offPower s) (regs : t.regs = s.regs) : powerFrame t = powerFrame s :=
  Prod.ext state (funext fun a => by simp [powerFrame, glbRegs, rget_congr regs])

@[simp] theorem ite_powerFrame (p : Prop) [Decidable p] (s t : State) :
    powerFrame (if p then s else t) = if p then powerFrame s else powerFrame t := apply_ite powerFrame p s t

theorem powerFrame_rset {a : Nat} (h : 0x2000000 ≤ a) (s : State) (v : W64) : powerFrame (rset s a v) = powerFrame s :=
  Prod.ext (by simp [powerFrame, offPower]) (glbRegs_rset_of_le h s v)

theorem powerFrame_setF {a : Nat} (h : 0x2000000 ≤ a) (s : State) (hi lo v : Nat) :
    powerFrame (setF s a hi lo v) = powerFrame s := powerFrame_rset h s _

theorem le_pwrStatus : 0x2000000 ≤ Reg.pwrStatus := le_reg_of_ne_glb (by decide) 0 _
theorem le_voltPolicy : 0x2000000 ≤ Reg.voltPolicy := le_reg_of_ne_glb (by decide) 0 _

section
variable (s : State)

theorem powerFrame_power (p : Power) : powerFrame { s with power := p } = powerFrame s := powerFrame_congr rfl rfl

theorem sendVolt_eq (r : Rail) (mv : Nat) :
    sendVolt r mv s = { s with power := (sendVolt r mv s).power, out := (sendVolt r mv s).out } := by
  cases r <;> rfl

@[simp] theorem powerFrame_sendVolt (r : Rail) (mv : Nat) : powerFrame (sendVolt r mv s) = powerFrame s := by
  rw [sendVolt_eq]
  exact powerFrame_congr rfl rfl

@[simp] theorem powerFrame_sramPump : powerFrame (sramPump s) = powerFrame s := by
  unfold sramPump
  split
  · dsimp only
    split
    · exact powerFrame_power s _
    · rw [powerFrame_sendVolt, powerFrame_power]
  · rfl

@[simp] theorem powerFrame_railPump : powerFrame (railPump s) = powerFrame s := by
  unfold railPump
  split
  · rfl
  · split
    · next v _ =>
      dsimp only
      generalize (if vcore s < v ∧ vsram s < sramFor v then _ else v) = goal
      split
      · exact powerFrame_sendVolt s _ _
      · split
        · rw [powerFrame_sramPump, powerFrame_power]
        · rw [powerFrame_sendVolt, powerFrame_power]
    · exact powerFrame_sramPump s

@[simp] theorem powerFrame_askCore (v : Nat) : powerFrame (askCore v s) = powerFrame s := by
  unfold askCore setCore
  split
  · rfl
  · rw [powerFrame_railPump, powerFrame_power]

@[simp] theorem powerFrame_beginRun (src : WakeSource) : powerFrame (beginRun src s) = powerFrame s := by
  unfold beginRun setSeq
  dsimp only
  rw [powerFrame_askCore, powerFrame_setF le_pwrStatus, powerFrame_setF le_pwrStatus, powerFrame_power, powerFrame_power]

@[simp] theorem powerFrame_setHeld (h : Option HeldReq) : powerFrame (setHeld h s) = powerFrame s := by
  unfold setHeld setB
  rw [powerFrame_setF le_pwrStatus, powerFrame_power]

@[simp] theorem powerFrame_leaveManual : powerFrame (leaveManual s) = powerFrame s := by
  unfold leaveManual
  dsimp only
  split
  · rw [powerFrame_askCore, powerFrame_power, setB, powerFrame_setF le_voltPolicy]
  · rw [powerFrame_power, setB, powerFrame_setF le_voltPolicy]

/-- The job held back while the device returns to RUN. -/
def holdStart (b : Bool) (s : State) : State := { s with job := { s.job with startHeld := b } }

/-- `START` holds the job back or not, and wakes the device. -/
theorem powerFrame_startPower : ∃ b, powerFrame (startPower s) = powerFrame (holdStart b s) := by
  unfold startPower
  split
  · exact ⟨s.job.startHeld, rfl⟩
  · refine ⟨true, ?_⟩
    dsimp only
    split
    · split
      · rw [powerFrame_beginRun]
        rfl
      · rfl
    · rfl
    · rw [powerFrame_setHeld]
      rfl

end

/-! ## START: what it latches (03 R47) -/

/-- The state without what `START` does before it clears the data path, the registers apart. -/
def offLatch (s : State) : State :=
  { s with
    regs := [], out := [], power := {}, unitFaults := [], ueGroups := [], locker := { s.locker with holder := none } }

/-- A new job forgets what condemnation had counted; one that continues over a restart keeps it (14 Table 14-5). -/
def forgetFaults (s : State) : State :=
  if phase s == 7 then s
  else setF (setF { s with unitFaults := [], ueGroups := [] } Reg.restartStatus 31 16 0) Reg.restartStatus 47 32 0

/-- What `START` does before it clears the data path. -/
def armed (s : State) : State :=
  let t := setF (setPhase 0 (forgetFaults s)) Reg.lockerState 31 0 ((getF s Reg.jobCtrl 31 0 + 2 ^ 32 - 1) % 2 ^ 32)
  if getB t Reg.voltPolicy 63 then leaveManual t else t

/-- The job that `START` latches. -/
def latchedJob (s : State) : Job :=
  { ttBase := getF s Reg.jobTtBase 47 8 * 256, seed := rget s Reg.jobSeed, wsBase := getF s Reg.wsBase 47 13 * 8192
    startStep := getF s Reg.jobCtrl 31 0, stashCfg := rget s Reg.stashCfg, stashQuota := rget s Reg.stashQuota
    stalls := if phase s == 7 then s.job.stalls else [] }

/-- The device with nothing of an earlier job in it. -/
def blankJob (j : Job) (s : State) : State :=
  { s with
    job := j, streams := [], step := {}, next := none
    census := { s.census with runs := [], alerted := [], counts := [], totals := {} }
    locker := { s.locker with holder := some (rget s (Reg.peerId 1)) } }

theorem startLatch_eq (s : State) : startLatch s = setJobState 1 (blankJob (latchedJob s) (clearDataPath (armed s))) := rfl

theorem rget_forgetFaults_ne {s : State} {a : Nat} (status : a ≠ Reg.restartStatus) : rget (forgetFaults s) a = rget s a := by
  unfold forgetFaults
  split
  · rfl
  · rw [rget_setF_ne _ _ _ _ status, rget_setF_ne _ _ _ _ status]
    rfl

theorem phase_setPhase (p : Nat) (h : p < 16) (s : State) : phase (setPhase p s) = p := by
  unfold setPhase
  split
  · assumption
  · rw [phase, getF_setInt_ne _ _ _ _ (by decide), getF_setF_same _ _ _ _ _ (by decide) (by decide)]
    exact Nat.mod_eq_of_lt h

theorem offLatch_of_powerFrame {s t : State} (h : powerFrame t = powerFrame s) : offLatch t = offLatch s := by
  have rest : offPower t = offPower s := congrArg Prod.fst h
  have blanked : offLatch (offPower t) = offLatch (offPower s) := congrArg offLatch rest
  exact blanked

theorem offLatch_setF (s : State) (a hi lo v : Nat) : offLatch (setF s a hi lo v) = offLatch s := by simp [offLatch]

/-- The registers of the GLB page that a `START` leaves as they are. -/
theorem rget_armed {s : State} {a : Nat} (glb : a < 0x2000000) (status : a ≠ Reg.restartStatus) (int : a ≠ Reg.intStatus .glb 0)
    (step : a ≠ Reg.lockerState) : rget (armed s) a = rget s a := by
  have before : rget (setF (setPhase 0 (forgetFaults s)) Reg.lockerState 31 0 ((getF s Reg.jobCtrl 31 0 + 2 ^ 32 - 1) % 2 ^ 32)) a =
      rget s a := by
    rw [rget_setF_ne _ _ _ _ step, rget_setPhase_ne _ _ status int, rget_forgetFaults_ne status]
  unfold armed
  dsimp only
  split
  · rw [rget_of_glbRegs (congrArg Prod.snd (powerFrame_leaveManual _)) glb, before]
  · exact before

theorem phase_armed (s : State) : phase (armed s) = 0 := by
  have before (v : Nat) : phase (setF (setPhase 0 (forgetFaults s)) Reg.lockerState 31 0 v) = 0 := by
    rw [phase, getF_setF_ne _ _ _ _ _ _ (by decide)]
    exact phase_setPhase 0 (by decide) _
  unfold armed
  dsimp only
  split
  · rw [phase, getF, rget_of_glbRegs (congrArg Prod.snd (powerFrame_leaveManual _)) (by decide)]
    exact before _
  · exact before _

theorem offLatch_armed (s : State) : offLatch (armed s) = offLatch s := by
  have forgotten : offLatch (forgetFaults s) = offLatch s := by
    unfold forgetFaults
    split
    · rfl
    · rw [offLatch_setF, offLatch_setF]
      rfl
  have before (v : Nat) : offLatch (setF (setPhase 0 (forgetFaults s)) Reg.lockerState 31 0 v) = offLatch s := by
    rw [offLatch_setF, ← forgotten, setPhase_eq]
    rfl
  unfold armed
  dsimp only
  split
  · rw [offLatch_of_powerFrame (powerFrame_leaveManual _), before]
  · exact before _

/-- What a `START` that is acted on does. -/
structure Latched (s t : State) : Prop where
  state : jobState t = 1
  phase : phase t = 0
  ctrl : getF t Reg.jobCtrl 31 0 = getF s Reg.jobCtrl 31 0
  rest : ∃ b, offLatch t = offLatch (holdStart b (blankJob (latchedJob s) (clearDataPath s)))

theorem offLatch_startLatch (s : State) : offLatch (startLatch s) = offLatch (blankJob (latchedJob s) (clearDataPath s)) := by
  have shown (v : Nat) (t : State) : offLatch (setJobState v t) = offLatch t := by
    rw [setJobState_eq]
    rfl
  have blanked (t : State) : offLatch (blankJob (latchedJob s) (clearDataPath (offLatch t))) =
      offLatch (blankJob (latchedJob s) (clearDataPath t)) := rfl
  rw [startLatch_eq, shown, ← blanked, offLatch_armed, blanked]

theorem latched_startAct {s : State} (acted : startIgnored s = false) : Latched s (startAct s) := by
  obtain ⟨b, power⟩ := powerFrame_startPower (startLatch s)
  have kept {a : Nat} (low : a < 0x2000000) : rget (startAct s) a = rget (startLatch s) a := by
    rw [startAct, acted]
    exact rget_of_glbRegs (congrArg Prod.snd power) low
  refine ⟨?_, ?_, ?_, b, ?_⟩
  · rw [jobState, getF, kept (by decide), ← getF, ← jobState, startLatch_eq, jobState_setJobState _ _ (by decide)]
  · rw [Machine.phase, getF, kept (by decide), ← getF, startLatch_eq, getF_setJobState_ne _ _ _ _ (by decide) (by decide)]
    exact phase_armed s
  · rw [getF, kept (by decide), ← getF, startLatch_eq, getF_setJobState_ne _ _ _ _ (by decide) (by decide)]
    exact congrArg (fld · 31 0) (rget_armed (by decide) (by decide) (by decide) (by decide))
  · rw [startAct, acted]
    refine (offLatch_of_powerFrame power).trans ?_
    have held := congrArg (holdStart b) (offLatch_startLatch s)
    exact held

/-- The field does not decide whether a `START` is acted on. -/
theorem startIgnored_startStepField (v : W64) (s : State) : startIgnored (startStepField v s) = startIgnored s := by
  unfold startStepField
  split
  · rfl
  · simp (disch := decide) only [startIgnored, jobActive, jobState, pwrState, getB, getF_setF_ne]
    rfl

/-- `HALT` behind `START` waits for the checks. -/
theorem haltAct_of_validating {s : State} (state : jobState s = 1) :
    haltAct s = { s with job := { s.job with haltWanted := true } } := by
  rw [haltAct, state]
  rfl

/-- A `HALT` in the same word is a halt asked for. -/
theorem halted_startAct {s t : State} (h : Bool) (spec : Latched s t) :
    (if h then haltAct else id) t = { t with job := { t.job with haltWanted := h } } := by
  obtain ⟨state, -, -, b, rest⟩ := spec
  cases h with
  | true => exact haltAct_of_validating state
  | false =>
    have unasked : t.job.haltWanted = false := congrArg (fun x => x.job.haltWanted) rest
    have same : { t with job := { t.job with haltWanted := t.job.haltWanted } } = t := rfl
    rw [unasked] at same
    exact same.symm

/-- Settles O8: an acted `START` latches from the state as the write's own field leaves it, and what wakes the device changes
nothing of that. -/
theorem startLatchesJob : Obligations.StartLatchesJob := by
  refine ⟨fun m v s reaches acted => ?_, fun m v s reaches active unhalted => ?_⟩
  · have idle : jobActive s = false := by
      simp only [startIgnored, Bool.or_eq_false_iff] at acted
      exact acted.1.1.1
    have field (a : Nat) (h : a ≠ Reg.jobCtrl) : rget (startStepField v s) a = rget s a := by
      rw [startStepField, idle]
      exact rget_setF_ne _ _ _ _ h
    have step : getF (startStepField v s) Reg.jobCtrl 31 0 = fld v 31 0 := by
      rw [startStepField, idle]
      exact (getF_setF_same _ _ _ _ _ (by decide) (by decide)).trans (Nat.mod_eq_of_lt (fld_lt v 31 0))
    have slot : (startStepField v s).slot = s.slot ∧ (startStepField v s).cards = s.cards ∧ (startStepField v s).hbm = s.hbm ∧
        (startStepField v s).chk = s.chk ∧ (startStepField v s).host = s.host ∧ (startStepField v s).stash = s.stash ∧
        (startStepField v s).owned = s.owned ∧ (startStepField v s).notices = s.notices ∧
        (startStepField v s).words = s.words := by
      rw [startStepField, idle]
      exact ⟨rfl, rfl, rfl, rfl, rfl, rfl, rfl, rfl, rfl⟩
    obtain ⟨slot, cards, hbm, chk, host, stash, owned, notices, words⟩ := slot
    have spec := latched_startAct ((startIgnored_startStepField v s).trans acted)
    refine ⟨_, (execStart_eq reaches).trans (congrArg Host.Outcome.next (halted_startAct _ spec)), ?_⟩
    generalize startStepField v s = r at field step slot cards hbm chk host stash owned notices words spec ⊢
    generalize startAct r = t at spec ⊢
    obtain ⟨state, phase, ctrl, b, rest⟩ := spec
    have kept {β : Type} (f : State → β) : f (offLatch t) = f (offLatch (holdStart b (blankJob (latchedJob r) (clearDataPath r)))) :=
      congrArg f rest
    have base : getF r Reg.jobTtBase 47 8 = getF s Reg.jobTtBase 47 8 := congrArg (fld · 47 8) (field _ (by decide))
    have sheet : getF r Reg.wsBase 47 13 = getF s Reg.wsBase 47 13 := congrArg (fld · 47 13) (field _ (by decide))
    have job (f : Job → Nat) : f t.job = f { latchedJob r with startHeld := b } := kept (fun x => f x.job)
    have word (f : Job → W64) : f t.job = f { latchedJob r with startHeld := b } := kept (fun x => f x.job)
    exact ⟨state, (job Job.ttBase).trans (congrArg (· * 256) base), (word Job.seed).trans (field _ (by decide)),
      (job Job.wsBase).trans (congrArg (· * 8192) sheet), (job Job.startStep).trans step,
      (word Job.stashCfg).trans (field _ (by decide)), (word Job.stashQuota).trans (field _ (by decide)), rfl, ctrl.trans step,
      kept State.streams, kept State.step, kept State.next, kept State.acc, kept State.ksteps, kept State.sp, kept State.spFix,
      kept State.passes, kept State.waiters, phase, (kept State.slot).trans slot, (kept State.cards).trans cards,
      (kept State.hbm).trans hbm, (kept State.chk).trans chk, (kept State.host).trans host, (kept State.stash).trans stash,
      (kept State.owned).trans owned, (kept State.notices).trans notices, (kept State.words).trans words⟩
  · have closed : startStepField v s = s := by rw [startStepField, if_pos active]
    have ignored : startIgnored s = true := by simp [startIgnored, active]
    refine (execStart_eq reaches).trans ?_
    rw [closed, startAct, ignored, unhalted]
    rfl

/-! ## HALT writes the scale table back: a record of more than 16 history values passes its end -/

theorem regionOf_below {s : State} {r : Region} (only : regions s = [r]) {a : Nat} (low : a < r.base) : regionOf s a = none := by
  have out : ¬ (r.base ≤ a ∧ a < r.base + r.size) := fun h => absurd h.1 (Nat.not_le.2 low)
  simp [regionOf, only, out]

theorem regionOf_inside {s : State} {r : Region} (only : regions s = [r]) {a : Nat} (low : r.base ≤ a) (high : a < r.base + r.size) :
    regionOf s a = some r := by
  simp [regionOf, only, low, high]

/-- A line of no region is not written (11 R238). -/
theorem writeLine_unmapped {s : State} {line : Nat} (none : regionOf s line = none) (ph : List Phys) (who : Reader)
    (tags : Nat × Nat × Nat) (o : Nat) (bs : List Byte) : (writeLine s ph who tags line o bs).s = s := by
  rw [writeLine, none]

/-- A whole line of a region is stored. -/
theorem hbm_writeLine_whole {s : State} {r : Region} {line : Nat} (here : regionOf s line = some r) (who : Reader)
    (tags : Nat × Nat × Nat) (o : Nat) {bs : List Byte} (whole : bs.length = 64) :
    (writeLine s [] who tags line o bs).s.hbm = memWrite s.hbm line bs := by
  have poison : lanePoison [] s line true = false := rfl
  simp only [writeLine, here, poison, Bool.false_eq_true, if_false, whole, if_true, putLine]

theorem writeLines_unmapped {s : State} (ph : List Phys) (who : Reader) (tags : Nat → Nat × Nat × Nat) (n line o : Nat)
    (bs : List Byte) (none : ∀ k, k < n → regionOf s (line + 64 * k) = none) : (writeLines ph who tags n line o bs s).s = s := by
  induction n generalizing line o bs with
  | zero => rfl
  | succ n ih =>
    rw [writeLines, writeLine_unmapped (by simpa using none 0 (Nat.succ_pos n))]
    refine ih _ _ _ fun k small => ?_
    rw [show line + 64 + 64 * k = line + 64 * (k + 1) by omega]
    exact none (k + 1) (by omega)

/-- A record of 32 history values, which the table's 128 bytes do not hold. -/
def longRecord : ScaleRec := { hist := List.replicate 32 1 }

/-- With a region behind the table, the last record's third line is that region's first. -/
theorem scaleWriteback_passes_end {s : State} {r : Region} (table : getF s Reg.scaleTable 47 8 * 256 = 0x80000)
    (only : regions s = [r]) (base : r.base = 0x100000) (size : 0 < r.size) (scales : s.census.scale = [(4095, longRecord)]) :
    memGet (scaleWriteback s).hbm 0x100000 = 1 := by
  have below {a : Nat} (low : a < 0x100000) : regionOf s a = none := regionOf_below only (by rw [base]; exact low)
  have short (i : Nat) (small : i < 4095) :
      (hbmWrite s [] Reader.traffic (0x80000 + 128 * i) (scaleBytes (cellGet noScale s.census.scale i))).s = s := by
    have plain : cellGet noScale s.census.scale i = {} := by
      rw [scales, cellGet, if_neg (by omega)]
      rfl
    have length : (scaleBytes {}).length = 128 := by decide +kernel
    rw [plain, hbmWrite]
    refine writeLines_unmapped _ _ _ _ _ _ _ fun k lines => below ?_
    rw [lineCount, length, if_neg (by decide)] at lines
    omega
  have fixed (n : Nat) (small : n ≤ 4095) : (List.range n).foldl (fun s i =>
      (hbmWrite s [] Reader.traffic (0x80000 + 128 * i) (scaleBytes (cellGet noScale s.census.scale i))).s) s = s := by
    induction n with
    | zero => rfl
    | succ n ih => rw [List.range_succ, List.foldl_append, ih (by omega), List.foldl_cons, List.foldl_nil, short n small]
  have here : regionOf s 0x100000 = some r := regionOf_inside only (by rw [base]) (by omega)
  have long : cellGet noScale s.census.scale 4095 = longRecord := by rw [scales]; rfl
  rw [scaleWriteback, table, List.range_succ, List.foldl_append, fixed 4095 (Nat.le_refl _), List.foldl_cons, List.foldl_nil,
    long, hbmWrite]
  generalize content : scaleBytes longRecord = bs
  have length : bs.length = 192 := by rw [← content]; decide +kernel
  have first : ((bs.drop 64).drop 64).getD 0 0 = 1 := by rw [← content]; decide +kernel
  rw [length, show lineCount (0x80000 + 128 * 4095) 192 = 3 by decide, show (0x80000 + 128 * 4095) / 64 * 64 = 0xFFF80 by decide,
    show (0x80000 + 128 * 4095) % 64 = 0 by decide]
  simp only [writeLines, writeLine_unmapped (below (show 0xFFF80 < 0x100000 by decide)),
    writeLine_unmapped (below (show 0xFFF80 + 64 < 0x100000 by decide))]
  have whole : (((bs.drop 64).drop 64).take 64).length = 64 := by simp [length]
  refine (congrArg (memGet · 0x100000) (hbm_writeLine_whole here _ _ _ whole)).trans ?_
  rw [memGet_write, if_pos (by omega), Nat.sub_self]
  rw [← first]
  simp [List.getD_eq_getElem?_getD]

/-- A READY job with a scale table at 0x80000 and a region behind it. -/
def longHistory : State :=
  let s := rset (rset State.reset (Reg.regionW0 0) 0x8000000000100000) (Reg.regionW1 0) 0x100000
  let s := setF (setF (setF s Reg.pwrStatus 63 60 0) Reg.jobStatus 63 60 2) Reg.scaleTable 47 8 0x800
  { s with census := { s.census with scale := [(4095, longRecord)] } }

theorem regions_longHistory : regions longHistory = [⟨0, 0, 0x100000, 0x100000⟩] := by decide +kernel

theorem hbm_setJobState (v : Nat) (s : State) : (setJobState v s).hbm = s.hbm := by rw [setJobState_eq]

theorem hbm_toHalted (s : State) : (toHalted s).hbm = (scaleWriteback s).hbm := by
  rw [toHalted, setInt_hbm, hbm_setJobState]

/-- With nothing pending a discard changes nothing. -/
theorem discardPending_of_none {s : State} (next : s.next = none) (slot : s.slot = none) : discardPending s = s := by
  rw [discardPending, next]
  dsimp only
  rw [slot]

/-- `HALT` with no step running and nothing pending. -/
theorem haltAct_of_idle {s : State} (state : jobState s = 2) (idle : s.step.active = false) (next : s.next = none)
    (slot : s.slot = none) : haltAct s = toHalted s := by
  rw [haltAct, state]
  exact (if_neg (by simp [idle])).trans (congrArg toHalted (discardPending_of_none next slot))

/-- Refutes O9: the record's bytes behind the 128 of its place change the first byte of the region at 0x100000. -/
theorem not_haltEndsJob : ¬ Obligations.HaltEndsJob := by
  intro ⟨_, halts, _⟩
  have reaches : Reaches .host .glb 0 longHistory := by decide +kernel
  obtain ⟨t, run, -, -, -, -, -, -, -, kept, -⟩ := halts .host 0 longHistory reaches rfl (.inl (by decide +kernel)) rfl
  have state : jobState longHistory = 2 := by decide +kernel
  have active : jobActive longHistory = true := by rw [jobActive, state]; rfl
  have ended : execHalt .host 0 longHistory = .next (toHalted longHistory) := by
    rw [execHalt_eq reaches rfl, startStepField, if_pos active, haltAct_of_idle state rfl rfl rfl]
  rw [show exec (.halt .host 0) longHistory = execHalt .host 0 longHistory from rfl, ended] at run
  obtain rfl := Host.Outcome.next.inj run
  have past := kept 0x100000 (.inr (by decide +kernel))
  rw [hbm_toHalted, scaleWriteback_passes_end (by decide +kernel) regions_longHistory rfl (by decide) rfl] at past
  exact absurd past (by decide +kernel)

end Sys2Proof.Machine
end

