-- ==== Sys2Proof/Proofs/EntryFrame.lean ====
section
/-! SUPPORT. FRAME. What nothing that an entry does to the state changes (03 R50): the streams but for what events add to the entry's own
flights, the waiters, ports, owned windows, mailboxes, intake, management and power state, and the Locker state outside a
restart. -/

namespace Sys2Proof.Machine
open Sys2Proof.Stmt

/-- What a frame demands beyond that: `passes`, that no hall pass changes; `sends`, that nothing is sent that an entry waits
for. -/
structure Scope where
  passes : Bool
  sends : Bool

/-! ## The frame -/

/-- A flight without what events add to it, and without the record that it notes. -/
def bareFlight (f : Flight) : Flight := { f with raised := [], hard := [], record := none }

def bareStream (x : Stream) : Stream := { x with inflight := x.inflight.map bareFlight }

/-- The Locker state, where no restart is under way (14 R332). -/
def heldLocker (s : State) : Option Locker := if phase s = 0 then some s.locker else none

/-- The state without what an entry of stream `st` may change. -/
def entryState (v : Scope) (st : Nat) (s : State) : State :=
  { s with
    regs := [], hbm := [], chk := [], sp := [], spFix := [], acc := [], ksteps := []
    passes := if v.passes then s.passes else []
    job := { windows := s.job.windows, descs := s.job.descs, seed := s.job.seed }
    streams := s.streams.modify st bareStream
    step := {}, slot := none, next := none, cards := [], census := {}, stash := [], stashTimeouts := [], rings := [], views := []
    locker := {}, host := [], crossings := [], heldHost := [], ueGroups := [], mended := [], unitFaults := [], out := []
    free := 0 }

def entryFrame (v : Scope) (st : Nat) (s : State) : State × Option Locker := (entryState v st s, heldLocker s)

variable {v : Scope} {st : Nat}

@[simp] theorem ite_entryFrame (p : Prop) [Decidable p] (s t : State) :
    entryFrame v st (if p then s else t) = if p then entryFrame v st s else entryFrame v st t :=
  apply_ite (entryFrame v st) p s t

theorem phase_of_glbRegs {s t : State} (h : glbRegs t = glbRegs s) : phase t = phase s := by
  rw [phase, phase, getF, rget_of_glbRegs h (by decide), ← getF]

theorem heldLocker_congr {s t : State} (locker : t.locker = s.locker) (same : phase t = phase s) : heldLocker t = heldLocker s := by
  rw [heldLocker, heldLocker, locker, same]

/-- A change of what the frame leaves out, the registers and the Locker state apart. -/
theorem entryFrame_congr {s t : State} (state : entryState v st t = entryState v st s) (regs : t.regs = s.regs)
    (locker : t.locker = s.locker) : entryFrame v st t = entryFrame v st s :=
  Prod.ext state (heldLocker_congr locker (by rw [phase, phase, getF_congr regs]))

theorem entryState_of_hbmFrame {s t : State} (h : offHbm t = offHbm s) : entryState v st t = entryState v st s :=
  have shown (u : State) : entryState v st (offHbm u) = entryState v st u := rfl
  (shown t).symm.trans ((congrArg (entryState v st) h).trans (shown s))

theorem entryFrame_of_hbmFrame {s t : State} (h : hbmFrame t = hbmFrame s) : entryFrame v st t = entryFrame v st s :=
  Prod.ext (entryState_of_hbmFrame (congrArg Prod.fst h))
    (heldLocker_congr (congrArg (fun x => x.1.locker) h) (phase_of_glbRegs (congrArg Prod.snd h)))

theorem entryState_of_faultState {s t : State} (h : faultState t = faultState s) : entryState v st t = entryState v st s := by
  have shown (u : State) : entryState v st (faultState u) = entryState v st u := rfl
  rw [← shown t, h, shown]

/-! ## Registers -/

section
variable (s : State)

theorem entryFrame_rset {a : Nat} (h : a ≠ Reg.restartStatus) (w : W64) : entryFrame v st (rset s a w) = entryFrame v st s := by
  refine Prod.ext (by simp [entryFrame, entryState]) (heldLocker_congr (by simp) ?_)
  rw [phase, phase, getF, rget_rset_ne _ _ (Ne.symm h), ← getF]

theorem entryFrame_setF {a : Nat} (h : a ≠ Reg.restartStatus) (hi lo n : Nat) :
    entryFrame v st (setF s a hi lo n) = entryFrame v st s := entryFrame_rset s h _

theorem entryFrame_setB {a : Nat} (h : a ≠ Reg.restartStatus) (b : Nat) (x : Bool) :
    entryFrame v st (setB s a b x) = entryFrame v st s := entryFrame_rset s h _

theorem entryFrame_incMod {a : Nat} (h : a ≠ Reg.restartStatus) (hi lo n : Nat) :
    entryFrame v st (incMod s a hi lo n) = entryFrame v st s := entryFrame_rset s h _

theorem entryFrame_incSat {a : Nat} (h : a ≠ Reg.restartStatus) (hi lo n : Nat) :
    entryFrame v st (incSat s a hi lo n) = entryFrame v st s := entryFrame_rset s h _

/-- A register of the common part of a page, or of its first 512 bytes, is not `GLB_RESTART_STATUS`. -/
theorem ne_restartStatus (t : Blk) (i : Nat) {off : Nat} (low : off < 0x270) : reg t i off ≠ Reg.restartStatus := by
  simp only [reg, blkCode, Reg.restartStatus]
  omega

theorem entryFrame_setInt (t : Blk) (i b : Nat) : entryFrame v st (setInt t i b s) = entryFrame v st s := by
  refine Prod.ext (by simp [entryFrame, entryState]) (heldLocker_congr (by simp) ?_)
  rw [phase, phase, getF_setInt_ne _ _ _ _ (ne_restartStatus t i (by decide)).symm]

theorem entryFrame_errCount (t : Blk) (i n : Nat) : entryFrame v st (errCount t i n s) = entryFrame v st s :=
  entryFrame_rset s (ne_restartStatus t i (by decide)) _

/-! ## Reads, writes and counts -/

@[simp] theorem entryFrame_emit (o : Out) : entryFrame v st (emit o s) = entryFrame v st s := entryFrame_congr rfl rfl rfl

@[simp] theorem entryFrame_alert (code : Nat) : entryFrame v st (alert code s) = entryFrame v st s := entryFrame_emit s _

@[simp] theorem entryFrame_takeFree : entryFrame v st (takeFree s).2 = entryFrame v st s :=
  entryFrame_of_hbmFrame (hbmFrame_takeFree s)

@[simp] theorem entryFrame_freeBytes (n : Nat) : entryFrame v st (freeBytes n s).2 = entryFrame v st s :=
  entryFrame_of_hbmFrame (hbmFrame_freeBytes s n)

@[simp] theorem entryFrame_countCorrected (n : Nat) : entryFrame v st (countCorrected n s) = entryFrame v st s :=
  entryFrame_of_hbmFrame (hbmFrame_countCorrected s n)

@[simp] theorem entryFrame_noteUnitFault (ty inst sub : Nat) :
    entryFrame v st (noteUnitFault ty inst sub s) = entryFrame v st s := entryFrame_congr rfl rfl rfl

@[simp] theorem entryFrame_sramFixed : entryFrame v st (sramFixed s) = entryFrame v st s :=
  entryFrame_rset s (ne_restartStatus .mgt 0 (by decide)) _

@[simp] theorem entryFrame_report (d id : Nat) (c : Counts) : entryFrame v st (report d id c s) = entryFrame v st s := by
  unfold report
  dsimp only
  split
  · rfl
  · split
    · exact (entryFrame_setB _ (ne_restartStatus .rcl _ (by decide)) _ _).trans (entryFrame_congr rfl rfl rfl)
    · exact entryFrame_congr rfl rfl rfl

@[simp] theorem entryFrame_readLines (ph : List Phys) (who : Reader) (act : Nat → Option (Nat × Nat × Nat)) (n line : Nat) :
    entryFrame v st (readLines ph who act n line s).s = entryFrame v st s :=
  entryFrame_of_hbmFrame (hbmFrame_readLines s ph who act n line)

@[simp] theorem entryFrame_writeLine (ph : List Phys) (who : Reader) (tags : Nat × Nat × Nat) (line o : Nat) (bs : List Byte) :
    entryFrame v st (writeLine s ph who tags line o bs).s = entryFrame v st s :=
  entryFrame_of_hbmFrame (hbmFrame_writeLine s ph who tags line o bs)

@[simp] theorem entryFrame_wakeLines (a n : Nat) : entryFrame v st (wakeLines a n s) = entryFrame v st s := by
  rw [wakeLines_eq]
  exact entryFrame_congr rfl rfl rfl

@[simp] theorem entryFrame_actLine (ph : List Phys) (line : Nat) : entryFrame v st (actLine ph line s).2 = entryFrame v st s := by
  have touched : entryFrame v st (touchLine line (dieReports ph line s)) = entryFrame v st s :=
    entryFrame_of_hbmFrame ((hbmFrame_touchLine _ _).trans (hbmFrame_dieReports _ _ _))
  unfold actLine
  generalize lanePoison ph s line true = lost
  cases lost with
  | true => simp
  | false =>
    dsimp only
    generalize touchLine line (dieReports ph line s) = t at touched
    simp [touched]

@[simp] theorem entryFrame_getActLines (ph : List Phys) (a n : Nat) :
    entryFrame v st (getActLines ph a n s).2 = entryFrame v st s :=
  foldl_keeps (fun x : List Byte × State => entryFrame v st x.2) _ (fun _ _ => by simp) _ ([], s)

@[simp] theorem entryFrame_putActLines (ph : List Phys) (a : Nat) (bs : List Byte) :
    entryFrame v st (putActLines ph a bs s) = entryFrame v st s := by
  refine foldl_keeps (entryFrame v st) _ (fun s i => ?_) _ _
  dsimp only
  split
  · rfl
  · exact entryFrame_of_hbmFrame (hbmFrame_putLine s _ _ _)

@[simp] theorem entryFrame_hostBlocked : entryFrame v st (hostBlocked s) = entryFrame v st s := by
  have apart : Reg.hifStatus ≠ Reg.restartStatus := ne_restartStatus .hif 0 (by decide)
  rw [hostBlocked, entryFrame_alert, entryFrame_setInt, entryFrame_incSat _ apart, entryFrame_setB _ apart]

@[simp] theorem entryFrame_postHost (a : Nat) (bs : List Byte) : entryFrame v st (postHost a bs s) = entryFrame v st s :=
  (foldl_keeps (entryFrame v st) _ (fun _ _ => entryFrame_emit _ _) _ _).trans (entryFrame_congr rfl rfl rfl)

@[simp] theorem entryFrame_hostWrite (k off : Nat) (bs : List Byte) :
    entryFrame v st (hostWrite k off bs s).1 = entryFrame v st s := by
  unfold hostWrite
  split
  · exact entryFrame_postHost s _ _
  · exact entryFrame_hostBlocked s

@[simp] theorem entryFrame_depart (m : Mask) : entryFrame v st (depart m s) = entryFrame v st s := entryFrame_congr rfl rfl rfl

/-! ## Sends -/

@[simp] theorem entryFrame_setRing (r : Nat) (x : Ring) : entryFrame v st (setRing r x s) = entryFrame v st s :=
  entryFrame_congr rfl rfl rfl

@[simp] theorem entryFrame_setView (w : Nat) (x : View) : entryFrame v st (setView w x s) = entryFrame v st s :=
  entryFrame_congr rfl rfl rfl

@[simp] theorem entryFrame_queueTransfer (r : Nat) (t : Transfer) : entryFrame v st (queueTransfer r t s) = entryFrame v st s :=
  entryFrame_setRing s _ _

@[simp] theorem entryFrame_sendAccess (w op : Nat) (act : Bool) (g : GTag) (off len key : Nat) (data : List Byte) (i idx : Nat) :
    entryFrame v st (sendAccess w op act g off len key data i idx s) = entryFrame v st s := by
  simp only [sendAccess]
  split
  · rfl
  · rw [entryFrame_setView, entryFrame_setRing]

@[simp] theorem entryFrame_sendMarker (r dst kind window epoch size : Nat) (from? : Sender) :
    entryFrame v st (sendMarker r dst kind window epoch size from? s) = entryFrame v st s := by
  unfold sendMarker
  split
  · rfl
  · exact entryFrame_queueTransfer s _ _

@[simp] theorem entryFrame_askRange (i idx : Nat) (x : Nat × Nat) : entryFrame v st (askRange i idx x s) = entryFrame v st s := by
  refine foldl_keeps (entryFrame v st) _ (fun s i => ?_) _ _
  dsimp only
  split
  · exact entryFrame_sendAccess s _ _ _ _ _ _ _ _ _ _
  · exact entryFrame_sendAccess s _ _ _ _ _ _ _ _ _ _

/-! ## Faults -/

theorem entryFrame_logWords (ty : Blk) (r : FaultRec) :
    entryFrame v st ((List.range 4).foldl (fun s i => rset s (Reg.errLog ty r.inst i) (recWord r i)) s) = entryFrame v st s := by
  have apart : ∀ i ∈ List.range 4, Reg.errLog ty r.inst i ≠ Reg.restartStatus := fun i mem =>
    ne_restartStatus ty r.inst (by have := List.mem_range.1 mem; omega)
  generalize List.range 4 = l at apart
  induction l generalizing s with
  | nil => rfl
  | cons i l ih =>
    rw [List.foldl_cons, ih _ fun j mem => apart j (List.mem_cons_of_mem i mem), entryFrame_rset s (apart i List.mem_cons_self)]

@[simp] theorem entryFrame_pageRecord (ty : Blk) (r : FaultRec) : entryFrame v st (pageRecord ty r s) = entryFrame v st s := by
  have logged := entryFrame_logWords (v := v) (st := st) s ty r
  unfold pageRecord
  generalize (List.range 4).foldl (fun s i => rset s (Reg.errLog ty r.inst i) (recWord r i)) s = t at logged ⊢
  dsimp only
  rw [entryFrame_setInt]
  split
  · rw [entryFrame_errCount, ite_entryFrame, logged, ite_self]
  · rw [ite_entryFrame, logged, ite_self]

end

/-- Where the phase stays, the end of a step keeps the Locker state. -/
theorem heldLocker_of_endFrame {s t : State} (h : endFrame t = endFrame s) : heldLocker t = heldLocker s := by
  refine heldLocker_congr (congrArg (fun x => x.1.locker) h) ?_
  rw [phase, phase, getF, rget_of_quietRegs (congrArg Prod.snd h) (by decide) (by decide) (by decide) (by decide), ← getF]

section
variable (s : State)

theorem heldLocker_abortStep (code : Nat) (fault : List Byte) : heldLocker (abortStep code fault s) = heldLocker s := by
  cases running : s.step.active with
  | false => rw [abortStep_of_idle running]
  | true =>
    have shown : heldLocker (markEnded (showElapsed s)) = heldLocker s := by
      refine heldLocker_congr (by rw [showElapsed_eq]; rfl) ?_
      rw [phase, phase, getF, getF]
      exact congrArg (fld · 63 60) (rget_of_quietRegs (quietRegs_showElapsed s) (by decide) (by decide) (by decide) (by decide))
    rw [abortStep_of_active running, ← shown]
    exact heldLocker_of_endFrame ((endFrame_haltNow _).trans (endFrame_endedStep s code fault))

theorem heldLocker_stopRestart (code : Nat) : heldLocker (stopRestart code s) = heldLocker s := by
  by_cases none : phase s = 0
  · rw [stopRestart_of_none none]
  · have still : phase (stopRestart code s) ≠ 0 := by
      unfold stopRestart
      split
      · rw [failRestart, phase_setPhase 8 (by decide)]
        decide
      · exact none
    rw [heldLocker, heldLocker, if_neg none, if_neg still]

theorem recordWords_locker (r : FaultRec) : (recordWords r s).locker = s.locker :=
  foldl_keeps State.locker _ (fun _ _ => rset_locker _ _ _) _ s

theorem markFaulted_locker : (markFaulted s).locker = s.locker := rfl

theorem heldLocker_glbRecord (r : FaultRec) : heldLocker (glbRecord r s) = heldLocker s := by
  refine heldLocker_congr ?_ ?_
  · rw [glbRecord_def, setF, rset_locker, markFaulted_locker, recordWords_locker]
  · exact congrArg (fld · 63 60) (rget_glbRecord_ne s r (by decide) (by decide))

theorem heldLocker_markFault (ty : Blk) (r : FaultRec) : heldLocker (markFault ty r s) = heldLocker s := by
  refine heldLocker_congr ?_ (by rw [phase, phase, getF_congr (regs_markFault s ty r)])
  rw [markFault_eq, noteStall_eq]

theorem heldLocker_hardEnd (ty : Blk) (r : FaultRec) : heldLocker (hardEnd ty r s) = heldLocker s := by
  rw [hardEnd_eq, heldLocker_abortStep, heldLocker_markFault, heldLocker_stopRestart, heldLocker_glbRecord]

@[simp] theorem entryFrame_hardEnd (ty : Blk) (r : FaultRec) : entryFrame v st (hardEnd ty r s) = entryFrame v st s :=
  Prod.ext (entryState_of_faultState (faultState_hardEnd s ty r)) (heldLocker_hardEnd s ty r)

@[simp] theorem entryFrame_hardFault (ty : Blk) (r : FaultRec) : entryFrame v st (hardFault ty r s) = entryFrame v st s := by
  rw [hardFault, entryFrame_hardEnd, entryFrame_pageRecord]

@[simp] theorem entryFrame_raiseHard (code : Nat) (ty : Blk) (inst detail : Nat) :
    entryFrame v st (raiseHard code ty inst detail s) = entryFrame v st s := entryFrame_hardFault s _ _

@[simp] theorem entryFrame_crossingLoss (e : Evt) : entryFrame v st (crossingLoss e s) = entryFrame v st s := by
  unfold crossingLoss
  split
  · dsimp only
    refine (foldl_keeps (entryFrame v st) _ (fun s e => entryFrame_raiseHard s _ _ _ _) _ _).trans ?_
    exact entryFrame_of_hbmFrame (hbmFrame_loseChannel s _)
  · rfl

@[simp] theorem entryFrame_bankFault (code kind pass i entry st2 : Nat) :
    entryFrame v st (bankFault code kind pass i entry st2 s) = entryFrame v st s := by
  unfold bankFault
  dsimp only
  rw [entryFrame_hardFault, hpbLog]
  split
  · rfl
  · exact entryFrame_rset s (ne_restartStatus .hpb _ (by decide)) _

/-! ## Flights of the entry's stream -/

theorem bareStream_mapFlights {g : Flight → Flight} (bare : ∀ f, bareFlight (g f) = bareFlight f) (idx : Nat) (x : Stream) :
    bareStream (x.mapFlights idx g) = bareStream x := by
  simp only [bareStream, Stream.mapFlights, List.map_map]
  congr 1
  refine List.map_congr_left fun f _ => ?_
  simp only [Function.comp]
  split
  · exact bare f
  · rfl

theorem entryFrame_modFlight {g : Flight → Flight} (bare : ∀ f, bareFlight (g f) = bareFlight f) (idx : Nat) :
    entryFrame v st (modFlight st idx g s) = entryFrame v st s := by
  cases found : streamAt s st with
  | none => rw [modFlight_eq, modStream, found]
  | some x =>
    have streams : (s.streams.set st (x.mapFlights idx g)).modify st bareStream = s.streams.modify st bareStream := by
      refine List.ext_getElem? fun i => ?_
      have here : s.streams[st]? = some x := found
      rw [List.getElem?_modify, List.getElem?_modify, List.getElem?_set]
      by_cases same : st = i
      · subst same
        have inside : st < s.streams.length := (List.getElem?_eq_some_iff.1 here).1
        obtain ⟨_, rfl⟩ := List.getElem?_eq_some_iff.1 here
        simp [inside, bareStream_mapFlights bare]
      · simp [same]
    rw [modFlight_of_streamAt found]
    refine entryFrame_congr ?_ rfl rfl
    simp only [entryState, setStream, streams]

theorem entryFrame_addConfined (r : FaultRec) : entryFrame v st (addConfined r s) = entryFrame v st s :=
  entryFrame_congr rfl rfl rfl

@[simp] theorem entryFrame_dropNow (c : Confined) (stream entry : Nat) (slot : Option Nat) :
    entryFrame v st (dropNow c stream entry slot s) = entryFrame v st s := by
  rw [dropNow, entryFrame_addConfined, entryFrame_pageRecord]

@[simp] theorem entryFrame_confinedIdle (c : Confined) (stream entry : Nat) :
    entryFrame v st (confinedIdle c stream entry s) = entryFrame v st s := by
  unfold confinedIdle
  dsimp only
  rw [entryFrame_pageRecord]
  split
  · rfl
  · exact entryFrame_errCount s _ _ _

@[simp] theorem entryFrame_confineEntry (idx : Nat) (c : Confined) :
    entryFrame v st (confineEntry st idx s c) = entryFrame v st s := by
  unfold confineEntry
  split
  · dsimp only
    refine (entryFrame_modFlight _ ?_ idx).trans (entryFrame_dropNow s _ _ _ _)
    exact fun _ => rfl
  · exact entryFrame_confinedIdle s _ _ _

@[simp] theorem entryFrame_raiseEntry (idx : Nat) (tagged : Bool) (e : Evt) :
    entryFrame v st (raiseEntry st idx tagged s e) = entryFrame v st s := by
  unfold raiseEntry
  split
  · exact entryFrame_confineEntry s _ _
  · dsimp only
    split
    · refine (entryFrame_modFlight _ ?_ idx).trans (entryFrame_pageRecord s _ _)
      exact fun _ => rfl
    · rw [entryFrame_crossingLoss, entryFrame_hardFault]

@[simp] theorem entryFrame_noteUpdate (i idx : Nat) (e : Entry) : entryFrame v st (noteUpdate i idx e s) = entryFrame v st s := by
  unfold noteUpdate
  split
  · split
    · exact entryFrame_congr rfl rfl rfl
    · rfl
  · rfl

/-! ## Arrival passes -/

theorem entryFrame_setPass (free : v.passes = false) (p n : Nat) : entryFrame v st (setPass p n s) = entryFrame v st s := by
  refine entryFrame_congr ?_ rfl rfl
  simp only [entryState, setPass, free]
  rfl

theorem entryFrame_blockEndAt (free : v.passes = false) (r w : Nat) : entryFrame v st (blockEndAt r w s) = entryFrame v st s := by
  unfold blockEndAt
  dsimp only
  split
  · split
    · exact entryFrame_bankFault s _ _ _ _ _ _
    · exact entryFrame_setPass s free _ _
  · exact entryFrame_incMod s (ne_restartStatus .rng r (by decide)) _ _ _

theorem entryFrame_putMarker (free : v.passes = false) (r dst window epoch size : Nat) (from? : Sender) :
    entryFrame v st (putMarker r dst 0 window epoch size from? s) = entryFrame v st s := by
  unfold putMarker
  split
  · exact entryFrame_blockEndAt s free _ _
  · exact entryFrame_sendMarker s _ _ _ _ _ _ _

end

end Sys2Proof.Machine
end

