-- ==== Sys2Proof/Proofs/RunFrame.lean ====
section
/-! SUPPORT. FRAME. What a run of an entry keeps: the frame of its state and the running clocks; and where every clock runs and
no window is remote, that the run neither waits for a clock nor lacks bytes. -/

namespace Sys2Proof.Machine
open Sys2Proof.Stmt

/-! ## The frame of a run -/

/-- Every clock runs, and no window of the job is remote. -/
def homely (s : State) : Prop := (∀ k, (clocks s.crossings k).isSome) ∧ ∀ w, (winOf s w).kind < 2

open Classical in
/-- Of a run in a homely state, whether it waits for a clock, what it lacks and, where the scope asks for it, what it has
sent. -/
noncomputable def hush (v : Scope) (r : Run) : Option (Bool × List (Nat × Nat) × Nat) :=
  if homely r.s then some (r.late, r.need, if v.sends then r.sent else 0) else none

noncomputable def kept (v : Scope) (st : Nat) (r : Run) :
    (State × Option Locker) × (Nat → Option Crossing) × Option (Bool × List (Nat × Nat) × Nat) :=
  (entryFrame v st r.s, clocks r.s.crossings, hush v r)

variable {v : Scope} {st : Nat}

theorem homely_congr {s t : State} (frame : entryFrame v st t = entryFrame v st s)
    (running : clocks t.crossings = clocks s.crossings) : homely t ↔ homely s := by
  have windows : t.job.windows = s.job.windows := congrArg (fun x => x.1.job.windows) frame
  simp only [homely, running, winOf, windows]

/-- A run in whose state nothing of the frame has changed, and that is as it was but for a homely run's sends. -/
theorem kept_of {q r : Run} (frame : entryFrame v st q.s = entryFrame v st r.s)
    (running : clocks q.s.crossings = clocks r.s.crossings)
    (same : homely r.s → q.late = r.late ∧ q.need = r.need ∧ (v.sends = true → q.sent = r.sent)) : kept v st q = kept v st r := by
  have silent : hush v q = hush v r := by
    by_cases home : homely r.s
    · obtain ⟨late, need, sent⟩ := same home
      rw [hush, hush, if_pos home, if_pos ((homely_congr frame running).2 home), late, need]
      cases asked : v.sends with
      | true => rw [sent asked]
      | false => rfl
    · rw [hush, hush, if_neg home, if_neg (mt (homely_congr frame running).1 home)]
  rw [kept, kept, frame, running, silent]

/-- A change of the state alone. -/
theorem kept_state {q r : Run} (frame : entryFrame v st q.s = entryFrame v st r.s)
    (running : clocks q.s.crossings = clocks r.s.crossings) (late : q.late = r.late) (need : q.need = r.need)
    (sent : q.sent = r.sent) : kept v st q = kept v st r := kept_of frame running fun _ => ⟨late, need, fun _ => sent⟩

@[simp] theorem kept_mk (r : Run) (s : State) (evs : List Evt) (stage : Mem) (asked bads banks : List (Nat × Nat)) (failed : Bool)
    (frame : entryFrame v st s = entryFrame v st r.s) (running : clocks s.crossings = clocks r.s.crossings) :
    kept v st ⟨s, evs, stage, asked, r.need, r.sent, bads, failed, banks, r.late⟩ = kept v st r :=
  kept_state frame running rfl rfl rfl

@[simp] theorem kept_mod (r : Run) (f : State → State) (frame : entryFrame v st (f r.s) = entryFrame v st r.s)
    (running : clocks (f r.s).crossings = clocks r.s.crossings) : kept v st (r.mod f) = kept v st r :=
  kept_state frame running rfl rfl rfl

@[simp] theorem ite_kept (p : Prop) [Decidable p] (q r : Run) :
    kept v st (if p then q else r) = if p then kept v st q else kept v st r := apply_ite (kept v st) p q r

@[simp] theorem foldl_kept {β : Type} (f : Run → β → Run) (hf : ∀ r b, kept v st (f r b) = kept v st r) (l : List β) (r : Run) :
    kept v st (l.foldl f r) = kept v st r := foldl_keeps (kept v st) f hf l r

@[simp] theorem foldl_keptWith {α β : Type} (f : α × Run → β → α × Run)
    (hf : ∀ x b, kept v st (f x b).2 = kept v st x.2) (l : List β) (x : α × Run) :
    kept v st (l.foldl f x).2 = kept v st x.2 := foldl_keeps (fun x => kept v st x.2) f hf l x

/-! ## Events -/

@[simp] theorem kept_raise (r : Run) (e : Evt) : kept v st (r.raise e) = kept v st r := by
  unfold Run.raise
  split
  · rfl
  · simp

@[simp] theorem kept_raises (r : Run) (es : List Evt) : kept v st (r.raises es) = kept v st r := foldl_kept _ kept_raise es r

/-! ## Reads and writes -/

@[simp] theorem entryFrame_spTouch (core off n : Nat) (s : State) : entryFrame v st (spTouch core off n s) = entryFrame v st s := by
  unfold spTouch
  split
  · rfl
  · exact foldl_keeps (entryFrame v st) _ (fun s k => entryFrame_setF s (ne_restartStatus .core core (by decide)) _ _ _) _ s

theorem entryFrame_sp (m : Mem) (l : List Nat) (s : State) : entryFrame v st { s with sp := m, spFix := l } = entryFrame v st s :=
  entryFrame_congr rfl rfl rfl

@[simp] theorem kept_spFault (c : Ctx) (core w : Nat) (r : Run) : kept v st (spFault c core w r) = kept v st r := by
  have apart : Reg.spEccLog core ≠ Reg.restartStatus := ne_restartStatus .core core (by decide)
  simp [spFault, entryFrame_rset _ apart]

/-- Words corrected on the way. -/
theorem kept_corrected (f : State → Nat → State) (l : List Nat) (r : Run)
    (frame : ∀ s a, entryFrame v st (f s a) = entryFrame v st s)
    (running : ∀ s a, (f s a).crossings = s.crossings) : kept v st (r.mod fun s => l.foldl f s) = kept v st r :=
  kept_mod r _ (foldl_keeps _ f frame l r.s) (by rw [foldl_crossings f running])

@[simp] theorem kept_spRead (c : Ctx) (core off n : Nat) (r : Run) : kept v st (spRead c core off n r).2 = kept v st r := by
  simp only [spRead, foldl_kept _ fun r w => kept_spFault c core w r]
  rw [kept_corrected, kept_mod]
  case frame => exact entryFrame_spTouch core off n r.s
  case running => simp
  · intro s a
    split
    · rfl
    · rw [entryFrame_countCorrected, entryFrame_errCount]
      exact entryFrame_congr rfl rfl rfl
  · intro s a
    simp

@[simp] theorem kept_spWrite (c : Ctx) (core off : Nat) (bs : List Byte) (r : Run) :
    kept v st (spWrite c core off bs r) = kept v st r := by
  simp only [spWrite]
  rw [kept_mod _ _ (by rw [entryFrame_spTouch, entryFrame_sp]) (by simp), foldl_kept, kept_corrected]
  · intro s a
    simp [entryFrame_errCount]
  · intro s a
    simp
  · intro r w
    rw [kept_spFault, kept_mod _ _ (entryFrame_congr rfl rfl rfl) rfl]

/-- Where every clock runs, no line lies behind a stopped one. -/
theorem linesStopped_of_homely {s : State} (home : homely s) (a n : Nat) : linesStopped a n s = false := by
  have running (k : Nat) : (cellGet runningCrossing s.crossings k).clockOn = true := by
    have some := home.1 k
    simp only [clocks, Option.isSome_filter, Option.any_some] at some
    exact some
  simp [linesStopped, crossingAt, running]

@[simp] theorem kept_touch (a n : Nat) (r : Run) : kept v st (r.touch a n) = kept v st r :=
  kept_of (entryFrame_wakeLines r.s a n) (wakeLines_clocks a n r.s) fun home =>
    ⟨by simp [Run.touch, linesStopped_of_homely home], rfl, fun _ => rfl⟩

@[simp] theorem kept_devReadAct (act : Nat → Option (Nat × Nat × Nat)) (c : Ctx) (a n : Nat) (r : Run) :
    kept v st (devReadAct act c a n r).2 = kept v st r := by simp [devReadAct]

@[simp] theorem kept_devRead (c : Ctx) (a n : Nat) (r : Run) : kept v st (devRead c a n r).2 = kept v st r := by simp [devRead]

@[simp] theorem kept_devWriteLine (tags : Nat → Nat × Nat × Nat) (c : Ctx) (a : Nat) (bs : List Byte) (l : Nat) (r : Run) :
    kept v st (devWriteLine tags c a bs l r) = kept v st r := by simp [devWriteLine]

@[simp] theorem kept_devWriteAct (tags : Nat → Nat × Nat × Nat) (c : Ctx) (a : Nat) (bs : List Byte) (r : Run) :
    kept v st (devWriteAct tags c a bs r) = kept v st r := by simp [devWriteAct]

@[simp] theorem kept_devWrite (c : Ctx) (a : Nat) (bs : List Byte) (r : Run) : kept v st (devWrite c a bs r) = kept v st r := by
  simp [devWrite]

@[simp] theorem entryFrame_refusedAt (ty : Blk) (inst idx w : Nat) (s : State) :
    entryFrame v st (refusedAt ty inst idx w s) = entryFrame v st s := by
  have counted (n : Nat) : entryFrame v st { s with step := { s.step with refused := n } } = entryFrame v st s :=
    entryFrame_congr rfl rfl rfl
  have mov : Reg.movFaultLog inst ≠ Reg.restartStatus := ne_restartStatus .mov inst (by decide)
  have jnc : Reg.jncFaultLog inst ≠ Reg.restartStatus := ne_restartStatus .jnc inst (by decide)
  simp only [refusedAt, ite_entryFrame, entryFrame_rset _ mov, entryFrame_rset _ jnc, counted, ite_self]

@[simp] theorem kept_refuse (c : Ctx) (w status : Nat) (r : Run) : kept v st (r.refuse c w status) = kept v st r := by
  simp [Run.refuse]

/-- No path of a homely state leaves the device. -/
theorem winPath_of_homely {s : State} (home : homely s) (w : Nat) : winPath s w ≠ .remote := by
  have kind := home.2 w
  unfold winPath
  dsimp only
  split
  · exact nofun
  · rw [if_pos (by have : (winOf s w).kind = 0 := by omega
                   simp [this])]
    exact nofun

/-- Off home nothing but the frame is asked of a run. -/
theorem kept_away {q r : Run} (away : ¬ homely r.s) (frame : entryFrame v st q.s = entryFrame v st r.s)
    (running : clocks q.s.crossings = clocks r.s.crossings) : kept v st q = kept v st r :=
  kept_of frame running fun home => absurd home away

@[simp] theorem kept_winRead (c : Ctx) (w off n : Nat) (r : Run) : kept v st (winRead c w off n r).2 = kept v st r := by
  unfold winRead
  split
  · rfl
  · split
    · simp
    · split
      · dsimp only
        split <;> simp
      · simp
      · next path =>
        have away : ¬ homely r.s := fun home => winPath_of_homely home w path
        split
        · simp
        · exact kept_away away (by simp) (by simp)

@[simp] theorem kept_winWrite (c : Ctx) (g : GTag) (w off : Nat) (bs : List Byte) (r : Run) :
    kept v st (winWrite c g w off bs r) = kept v st r := by
  unfold winWrite
  split
  · rfl
  · split
    · dsimp only
      split <;> simp
    · simp
    · next path =>
      have away : ¬ homely r.s := fun home => winPath_of_homely home w path
      refine kept_away away ?_ ?_
      · exact foldl_keeps (entryFrame v st) _ (fun s p => entryFrame_sendAccess s _ _ _ _ _ _ _ _ _ _) _ _
      · simp

@[simp] theorem kept_hostRead (c : Ctx) (k off n : Nat) (r : Run) : kept v st (hostRead c k off n r).2 = kept v st r := by
  unfold hostRead
  split
  · split <;> simp
  · simp

@[simp] theorem kept_getBytes (c : Ctx) (d : Desc) (off n : Nat) (r : Run) : kept v st (getBytes c d off n r).2 = kept v st r := by
  simp [getBytes]

@[simp] theorem kept_putBytes (c : Ctx) (g : GTag) (d : Desc) (off : Nat) (bs : List Byte) (r : Run) :
    kept v st (putBytes c g d off bs r) = kept v st r := by
  simp [putBytes]

/-! ## The unit's words and the physical world -/

@[simp] theorem entryFrame_unitLog (c : Ctx) (unit kind detail : Nat) (s : State) :
    entryFrame v st (unitLog c unit kind detail s) = entryFrame v st s := by
  have mov : Reg.movFaultLog c.inst ≠ Reg.restartStatus := ne_restartStatus .mov c.inst (by decide)
  have jnc : Reg.jncFaultLog c.inst ≠ Reg.restartStatus := ne_restartStatus .jnc c.inst (by decide)
  have apart : (if c.kind = 1 then Reg.jncFaultLog c.inst else Reg.movFaultLog c.inst) ≠ Reg.restartStatus := by
    split <;> assumption
  simp only [unitLog, ite_entryFrame, entryFrame_rset _ apart, ite_self]

theorem entryFrame_count (t : Blk) (i : Nat) {off : Nat} (low : off < 0x270) (hi lo n : Nat) (s : State) :
    entryFrame v st (incMod s (reg t i off) hi lo n) = entryFrame v st s := entryFrame_incMod s (ne_restartStatus t i low) hi lo n

@[simp] theorem kept_physEvents (c : Ctx) (r : Run) : kept v st (physEvents c r) = kept v st r := by
  refine foldl_kept _ (fun r p => ?_) c.ph r
  cases p with
  | waits f rd w st m =>
    dsimp only
    split
    · refine kept_mod r _ ?_ (by simp)
      rw [Reg.arrayStarved, Reg.spWriteWait, Reg.spReadWait, Reg.spFeedConflict]
      repeat rw [entryFrame_count _ _ (by decide)]
    · split
      · split
        · rfl
        · exact kept_mod r _ (entryFrame_count _ _ (by decide) _ _ _ _) (by simp)
      · rfl
  | gridWaits k rd w =>
    dsimp only
    split
    · rfl
    · refine kept_mod r _ ?_ (by simp)
      rw [Reg.spWriteWait, Reg.spReadWait]
      repeat rw [entryFrame_count _ _ (by decide)]
  | sramCorrected => exact kept_mod r _ (entryFrame_sramFixed r.s) (by simp [sramFixed])
  | _ => simp [entryFrame_errCount]

end Sys2Proof.Machine
end

