-- ==== Sys2Proof/Proofs/RowFrame.lean ====
section
/-! SUPPORT. FRAME. The rows and tensors that an entry reads and writes keep the frame of its run. -/

namespace Sys2Proof.Machine
open Sys2Proof.Stmt

variable {v : Scope} {st : Nat}

/-! ## Rows of codes -/

@[simp] theorem kept_tryRow (c : Ctx) (d : Desc) (i : Nat) (r : Run) : kept v st (tryRow c d i r).2 = kept v st r := by
  simp [tryRow]

@[simp] theorem kept_tryRows (c : Ctx) (d : Desc) (r : Run) : kept v st (tryRows c d r).2 = kept v st r := by simp [tryRows]

@[simp] theorem kept_loadRows (c : Ctx) (d : Desc) (r : Run) : kept v st (loadRows c d r).2 = kept v st r := by simp [loadRows]

@[simp] theorem kept_loadRow (c : Ctx) (d : Desc) (i : Nat) (r : Run) : kept v st (loadRow c d i r).2 = kept v st r := by
  simp [loadRow]

@[simp] theorem kept_storeRow (c : Ctx) (g : GTag) (d : Desc) (i : Nat) (codes : List Nat) (r : Run) :
    kept v st (storeRow c g d i codes r) = kept v st r := by simp [storeRow]

@[simp] theorem kept_storeRows (c : Ctx) (g : GTag) (d : Desc) (rows : List (List Nat)) (r : Run) :
    kept v st (storeRows c g d rows r) = kept v st r := by simp [storeRows]

/-! ## Values -/

@[simp] theorem kept_loadScales (c : Ctx) (d : Desc) (r : Run) : kept v st (loadScales c d r).2 = kept v st r := by
  unfold loadScales
  split <;> simp

@[simp] theorem kept_loadPairs (c : Ctx) (d : Desc) (r : Run) : kept v st (loadPairs c d r).2 = kept v st r := by
  simp only [loadPairs]
  split <;> simp

@[simp] theorem kept_loadVals (c : Ctx) (d : Desc) (r : Run) : kept v st (loadVals c d r).2 = kept v st r := by simp [loadVals]

@[simp] theorem entryFrame_reportRows (c : Ctx) (id : Nat) (rows : List OutRow) (s : State) :
    entryFrame v st (reportRows c id rows s) = entryFrame v st s := by simp [reportRows]

@[simp] theorem entryFrame_departBy (c : Ctx) (d : Desc) (s : State) :
    entryFrame v st (departBy c d s) = entryFrame v st s := by simp [departBy]

@[simp] theorem kept_departs (c : Ctx) (ids : List Nat) (r : Run) : kept v st (departs c ids r) = kept v st r := by
  refine kept_mod r _ (foldl_keeps (entryFrame v st) _ (fun s id => entryFrame_departBy c _ s) ids r.s) ?_
  rw [foldl_crossings _ fun s id => departBy_crossings s c _]

@[simp] theorem kept_writeRows (c : Ctx) (g : GTag) (d : Desc) (id : Nat) (rows : List OutRow) (r : Run) :
    kept v st (writeRows c g d id rows r) = kept v st r := by
  simp only [writeRows]
  split <;> simp

@[simp] theorem kept_writeZeros (c : Ctx) (g : GTag) (d : Desc) (r : Run) : kept v st (writeZeros c g d r) = kept v st r := by
  simp [writeZeros]

/-! ## Some rows -/

@[simp] theorem kept_storeSome (c : Ctx) (d : Desc) (rows : List (Nat × List Nat)) (r : Run) :
    kept v st (storeSome c d rows r) = kept v st r := by simp [storeSome]

@[simp] theorem kept_writeSome (c : Ctx) (d : Desc) (id : Nat) (rows : List (Nat × OutRow)) (r : Run) :
    kept v st (writeSome c d id rows r) = kept v st r := by
  simp only [writeSome]
  split <;> simp

@[simp] theorem kept_tryFeedRows (c : Ctx) (d : Desc) (rows : List Nat) (r : Run) :
    kept v st (tryFeedRows c d rows r).2 = kept v st r := by
  refine foldl_keptWith _ (fun x b => ?_) _ ([], r)
  exact foldl_keptWith _ (fun m l => by simp) _ (([], []), x.2)

@[simp] theorem kept_trySome (c : Ctx) (d : Desc) (rows : List Nat) (r : Run) :
    kept v st (trySome c d rows r).2 = kept v st r := by simp [trySome]

@[simp] theorem kept_somePairs (c : Ctx) (d : Desc) (rows : List Nat) (r : Run) :
    kept v st (somePairs c d rows r).2 = kept v st r := by
  simp only [somePairs]
  split <;> simp

@[simp] theorem kept_loadSome (c : Ctx) (d : Desc) (rows : List Nat) (r : Run) :
    kept v st (loadSome c d rows r).2 = kept v st r := by simp [loadSome]

@[simp] theorem kept_denseBytes (c : Ctx) (d : Desc) (r : Run) : kept v st (denseBytes c d r).2 = kept v st r := by
  simp [denseBytes]

@[simp] theorem kept_putDense (c : Ctx) (d : Desc) (bs : List Byte) (r : Run) :
    kept v st (putDense c d bs r) = kept v st r := by simp [putDense]

@[simp] theorem kept_putTable (c : Ctx) (d : Desc) (bs : List Byte) (r : Run) :
    kept v st (putTable c d bs r) = kept v st r := by simp [putTable]

@[simp] theorem kept_loadFlat (c : Ctx) (d : Desc) (r : Run) : kept v st (loadFlat c d r).2 = kept v st r := by simp [loadFlat]

@[simp] theorem kept_loadIndices (c : Ctx) (d : Desc) (r : Run) : kept v st (loadIndices c d r).2 = kept v st r := by
  simp [loadIndices]

@[simp] theorem kept_loadCodeRow (c : Ctx) (d : Desc) (i : Nat) (r : Run) :
    kept v st (loadCodeRow c d i r).2 = kept v st r := by simp [loadCodeRow]

end Sys2Proof.Machine
end

