-- ==== Sys2Proof/Proofs/EffectFrame.lean ====
section
/-! SUPPORT. FRAME. The effects of the entries keep the frame of their run. -/

namespace Sys2Proof.Machine
open Sys2Proof.Stmt

variable {v : Scope} {st : Nat}

/-! ## Counters and step fields -/

section
variable (s : State)

@[simp] theorem entryFrame_step (x : StepSt) : entryFrame v st { s with step := x } = entryFrame v st s :=
  entryFrame_congr rfl rfl rfl

theorem entryFrame_flag (t : Blk) (i : Nat) {off : Nat} (low : off < 0x270) (b : Nat) (x : Bool) :
    entryFrame v st (setB s (reg t i off) b x) = entryFrame v st s := entryFrame_setB s (ne_restartStatus t i low) b x

theorem entryFrame_field (t : Blk) (i : Nat) {off : Nat} (low : off < 0x270) (hi lo n : Nat) :
    entryFrame v st (setF s (reg t i off) hi lo n) = entryFrame v st s := entryFrame_setF s (ne_restartStatus t i low) hi lo n

end

/-! ## MATMUL -/

@[simp] theorem entryFrame_clearSets (core set : Nat) (arrays : List Nat) (s : State) :
    entryFrame v st (clearSets core set arrays s) = entryFrame v st s := by
  unfold clearSets
  refine foldl_keeps (entryFrame v st) _ (fun s a => ?_) arrays s
  exact entryFrame_congr rfl rfl rfl

@[simp] theorem entryFrame_accumulate (c : Ctx) (core : Nat) (a b : Desc) (live : List Nat) (av bv : List (List Val)) (s : State) :
    entryFrame v st (accumulate c core a b live av bv s) = entryFrame v st s := entryFrame_congr rfl rfl rfl

theorem entryFrame_noteFix (l : List Nat) (core : Nat) (s : State) :
    entryFrame v st (countCorrected 1 (errCount .core core 1 { s with spFix := l })) = entryFrame v st s := by
  rw [entryFrame_countCorrected, entryFrame_errCount]
  exact entryFrame_congr rfl rfl rfl

@[simp] theorem kept_feedFaults (c : Ctx) (core : Nat) (lines : List Nat) (r : Run) :
    kept v st (feedFaults c core lines r) = kept v st r := by
  refine foldl_kept _ (fun r p => ?_) c.ph r
  cases p with
  | spCorrected k o =>
    dsimp only
    split
    · exact kept_mod r _ (entryFrame_noteFix _ core r.s) (by simp)
    · rfl
  | _ => simp

@[simp] theorem kept_residueFault (c : Ctx) (fs : List Feed) (live : List Nat) (r : Run) :
    kept v st (residueFault c fs live r) = kept v st r := by
  have apart : Reg.residueLog c.inst ≠ Reg.restartStatus := ne_restartStatus .core c.inst (by decide)
  refine foldl_kept _ (fun r p => ?_) c.ph r
  cases p <;> simp [entryFrame_rset _ apart]

@[simp] theorem kept_drainTile (c : Ctx) (core : Nat) (a b : Desc) (live : List Nat) (r : Run) :
    kept v st (drainTile c core a b live r) = kept v st r := by simp [drainTile]

@[simp] theorem kept_matmulEff (c : Ctx) (r : Run) : kept v st (matmulEff c r) = kept v st r := by
  simp [matmulEff, Reg.arrayFed, Reg.arraySkipped, Reg.spFeedConflict, entryFrame_count]

/-! ## The movers -/

@[simp] theorem kept_movedRows (c : Ctx) (a d : Desc) (perm : List Nat) (r : Run) :
    kept v st (movedRows c a d perm r).2 = kept v st r := by simp [movedRows]

@[simp] theorem entryFrame_countMover (c : Ctx) (rd wr tiles members : Nat) (s : State) :
    entryFrame v st (countMover c rd wr tiles members s) = entryFrame v st s := by
  simp [countMover, Reg.movRead, Reg.movWritten, Reg.movTiles, Reg.movMembers, entryFrame_count]

@[simp] theorem kept_copyStream (c : Ctx) (g : GTag) (a d : Desc) (r : Run) :
    kept v st (copyStream c g a d r) = kept v st r := by simp [copyStream]

@[simp] theorem kept_moveEff (c : Ctx) (r : Run) : kept v st (moveEff c r) = kept v st r := by simp [moveEff]

@[simp] theorem kept_fillMembers (c : Ctx) (d : Desc) (r : Run) : kept v st (fillMembers c d r).2 = kept v st r := by
  simp [fillMembers]

@[simp] theorem kept_fillOne (c : Ctx) (d : Desc) (rows : List OutRow) (u : Nat) (r : Run) :
    kept v st (fillOne c d rows u r) = kept v st r := by simp [fillOne]

@[simp] theorem kept_fillEff (c : Ctx) (r : Run) : kept v st (fillEff c r) = kept v st r := by simp [fillEff]

/-! ## The vector unit -/

@[simp] theorem kept_vectorEff (c : Ctx) (r : Run) : kept v st (vectorEff c r) = kept v st r := by simp [vectorEff]

theorem kept_updateLost (d id : Nat) (n : Counts) (r : Run) :
    kept v st (r.mod fun s => { report d id n s with step := { (report d id n s).step with updateNonfinite := true } }) =
      kept v st r :=
  kept_mod r _ ((entryFrame_step _ _).trans (entryFrame_report _ _ _ _)) (by simp)

@[simp] theorem kept_optimRun (c : Ctx) (r : Run) : kept v st (optimRun c r) = kept v st r := by
  simp only [optimRun, ite_kept, kept_updateLost]
  simp

@[simp] theorem kept_optimEff (c : Ctx) (r : Run) : kept v st (optimEff c r) = kept v st r := by simp [optimEff]

/-! ## The Junction -/

@[simp] theorem entryFrame_countIndices (c : Ctx) (cs : List IndexClass) (s : State) :
    entryFrame v st (countIndices c cs s) = entryFrame v st s := by
  unfold countIndices
  refine (entryFrame_step _ _).trans ?_
  simp [Reg.indexStatus, Reg.indexAbsent, Reg.indexOob, entryFrame_count, entryFrame_flag, entryFrame_field]

@[simp] theorem entryFrame_countFetches (c : Ctx) (away : Bool) (rows : List (Option Nat)) (s : State) :
    entryFrame v st (countFetches c away rows s) = entryFrame v st s := by
  rw [countFetches, Reg.fetches, Reg.fetchesMerged]
  rw [entryFrame_count _ _ (by decide), entryFrame_count _ _ (by decide)]
  split <;> simp

@[simp] theorem kept_gatherEff (c : Ctx) (r : Run) : kept v st (gatherEff c r) = kept v st r := by
  simp only [gatherEff, kept_physEvents]
  split
  · rfl
  · split
    · simp
    · rw [kept_writeRows]
      refine (foldl_keptWith _ (fun x p => ?_) _ _).trans (by simp)
      split <;> simp

@[simp] theorem kept_scatterEff (c : Ctx) (r : Run) : kept v st (scatterEff c r) = kept v st r := by
  simp [scatterEff, Reg.fetches, entryFrame_count]

@[simp] theorem kept_mergeEff (c : Ctx) (r : Run) : kept v st (mergeEff c r) = kept v st r := by simp [mergeEff]

@[simp] theorem kept_histEff (c : Ctx) (r : Run) : kept v st (histEff c r) = kept v st r := by simp [histEff]

@[simp] theorem entryFrame_countTile (c : Ctx) (form : Nat) (s : State) :
    entryFrame v st (countTile c form s) = entryFrame v st s := by simp [countTile, Reg.tiles, entryFrame_count]

@[simp] theorem kept_compressEff (c : Ctx) (r : Run) : kept v st (compressEff c r) = kept v st r := by simp [compressEff]

@[simp] theorem kept_decompressTile (c : Ctx) (a : Desc) (f k : Nat) (r : Run) :
    kept v st (decompressTile c a f k r).2 = kept v st r := by
  simp only [decompressTile]
  split
  · split <;> simp
  · simp

@[simp] theorem kept_decompressEff (c : Ctx) (r : Run) : kept v st (decompressEff c r) = kept v st r := by simp [decompressEff]

end Sys2Proof.Machine
end

