-- ==== Sys2Proof/Proofs/FarEffectFrame.lean ====
section
/-! SUPPORT. FRAME. The effects of the stash, of routing and of the collectives keep the frame of their run: of routing all but
the hall passes, of the collectives all but what they send. -/

namespace Sys2Proof.Machine
open Sys2Proof.Stmt

variable {v : Scope} {st : Nat}

/-! ## The stash -/

@[simp] theorem kept_stashGet (c : Ctx) (tags : Nat × Nat) (d : Desc) (off n pos : Nat) (r : Run) :
    kept v st (stashGet c tags d off n pos r).2 = kept v st r := by simp [stashGet]

@[simp] theorem kept_stashPut (c : Ctx) (tags : Nat × Nat) (d : Desc) (off : Nat) (bs : List Byte) (pos : Nat) (r : Run) :
    kept v st (stashPut c tags d off bs pos r) = kept v st r := by simp [stashPut]

@[simp] theorem kept_recordLines (c : Ctx) (tags : Nat × Nat) (d : Desc) (r : Run) :
    kept v st (recordLines c tags d r).2 = kept v st r := by simp [recordLines]

section
variable (s : State)

theorem stashStatus_ne_restartStatus : Reg.stashStatus ≠ Reg.restartStatus := by decide

@[simp] theorem entryFrame_stashPin (pin : Bool) : entryFrame v st (stashPin pin s) = entryFrame v st s := by
  unfold stashPin
  split
  · rw [entryFrame_setB _ stashStatus_ne_restartStatus]
    exact entryFrame_step s _
  · rfl

@[simp] theorem entryFrame_addRecord (x : StashRec) : entryFrame v st (addRecord x s) = entryFrame v st s :=
  entryFrame_congr rfl rfl rfl

@[simp] theorem entryFrame_putRecord (tag bytes : Nat) (bs : List (Nat × Nat)) :
    entryFrame v st (putRecord tag bytes bs s) = entryFrame v st s := by
  rw [putRecord, entryFrame_setF _ stashStatus_ne_restartStatus]
  exact (entryFrame_step _ _).trans (entryFrame_addRecord s _)

@[simp] theorem entryFrame_putExhausted (tag bytes : Nat) :
    entryFrame v st (putExhausted tag bytes s) = entryFrame v st s := by
  rw [putExhausted, entryFrame_setB _ stashStatus_ne_restartStatus, entryFrame_addRecord]

@[simp] theorem entryFrame_freeRecord (tag : Nat) : entryFrame v st (freeRecord tag s) = entryFrame v st s :=
  entryFrame_congr rfl rfl rfl

@[simp] theorem entryFrame_clearTimeouts (gs : List Nat) : entryFrame v st (clearTimeouts gs s) = entryFrame v st s :=
  entryFrame_congr rfl rfl rfl

@[simp] theorem entryFrame_countMoved (c : Ctx) (rd wr : Nat) : entryFrame v st (countMoved c rd wr s) = entryFrame v st s := by
  simp [countMoved, Reg.movRead, Reg.movWritten, entryFrame_count]

theorem entryFrame_noteRecord (c : Ctx) (tag : Nat) : entryFrame v c.st (noteRecord c tag s) = entryFrame v c.st s := by
  refine entryFrame_modFlight _ ?_ c.idx
  exact fun _ => rfl

end

@[simp] theorem kept_putStashLine (c : Ctx) (tags : Nat × Nat) (bs : List (Nat × Nat)) (x : Nat × List Byte) (r : Run) :
    kept v st (putStashLine c tags bs x r) = kept v st r := by simp [putStashLine]

@[simp] theorem kept_winWriteAct (c : Ctx) (w off : Nat) (wire : List Byte) (r : Run) :
    kept v st (winWriteAct c w off wire r) = kept v st r := by
  unfold winWriteAct
  split
  · dsimp only
    split <;> simp
  · simp
  · next path =>
    have away : ¬ homely r.s := fun home => winPath_of_homely home w path
    split
    · rfl
    · exact kept_away away (by simp) (by simp)

@[simp] theorem kept_putNbrGroup (c : Ctx) (tags : Nat × Nat) (w b i0 g : Nat) (ls : List (Nat × List Byte)) (r : Run) :
    kept v st (putNbrGroup c tags w b i0 g ls r) = kept v st r := by simp [putNbrGroup]

@[simp] theorem kept_putNbrLines (c : Ctx) (tags : Nat × Nat) (bs : List (Nat × Nat)) (ls : List (Nat × List Byte)) (r : Run) :
    kept v st (putNbrLines c tags bs ls r) = kept v st r := by
  unfold putNbrLines
  split <;> simp

@[simp] theorem kept_stashWriteEff (c : Ctx) (r : Run) : kept v st (stashWriteEff c r) = kept v st r := by
  simp only [stashWriteEff, kept_physEvents]
  split
  · rfl
  · have freed (pin : Bool) : kept v st ((r.mod (freeRecord (stashTags r.s c.e c.slot).2)).mod (stashPin pin)) = kept v st r := by
      rw [kept_mod _ _ (entryFrame_stashPin _ _) (by simp), kept_mod _ _ (entryFrame_freeRecord _ _) (by simp)]
    split <;> simp [freed]

@[simp] theorem kept_checkStashLine (c : Ctx) (tags : Nat × Nat) (i : Nat) (data chk : List Byte) (late : Bool) (r : Run) :
    kept v st (checkStashLine c tags i data chk late r).2 = kept v st r := by
  unfold checkStashLine
  split
  · simp
  · split <;> simp

@[simp] theorem kept_hostStashLine (c : Ctx) (tags : Nat × Nat) (b i : Nat) (r : Run) :
    kept v st (hostStashLine c tags b i r).2 = kept v st r := by simp [hostStashLine]

@[simp] theorem kept_nbrStashLines (c : Ctx) (tags : Nat × Nat) (b i n : Nat) (r : Run) :
    kept v st (nbrStashLines c tags b i n r).2 = kept v st r := by
  unfold nbrStashLines
  split
  · rfl
  · dsimp only
    split
    · simp
    · split
      · simp
      · split <;> simp
      · next path =>
        have away : ¬ homely r.s := fun home => winPath_of_homely home _ path
        split
        · rfl
        · exact kept_away away (by simp) (by simp)

@[simp] theorem kept_blockStashLines (c : Ctx) (tags : Nat × Nat) (bs : List (Nat × Nat)) (i n : Nat) (r : Run) :
    kept v st (blockStashLines c tags bs i n r).2 = kept v st r := by simp [blockStashLines]

@[simp] theorem kept_stashLines (c : Ctx) (tags : Nat × Nat) (bs : List (Nat × Nat)) (i n : Nat) (r : Run) :
    kept v st (stashLines c tags bs i n r).2 = kept v st r := by simp [stashLines]

@[simp] theorem kept_putRecordBytes (c : Ctx) (tags : Nat × Nat) (d : Desc) (bs : List Byte) (r : Run) :
    kept v st (putRecordBytes c tags d bs r) = kept v st r := by simp [putRecordBytes]

@[simp] theorem kept_deliverRecord (c : Ctx) (tags : Nat × Nat) (d : Desc) (bs : List (Nat × Nat)) (r : Run) :
    kept v st (deliverRecord c tags d bs r) = kept v st r := by simp [deliverRecord]

theorem kept_stashReadEff (c : Ctx) (r : Run) : kept v c.st (stashReadEff c r) = kept v c.st r := by
  simp only [stashReadEff, kept_physEvents]
  rw [kept_mod _ _ (entryFrame_noteRecord _ c _) (by simp)]
  split
  · simp
  · split
    · simp
    · split <;> simp

/-! ## Routing -/

@[simp] theorem kept_routeEff (c : Ctx) (r : Run) : kept v st (routeEff c r) = kept v st r := by
  simp [routeEff, Reg.routeOverflow, entryFrame_count]

@[simp] theorem kept_rowRaw (c : Ctx) (d : Desc) (i : Nat) (r : Run) : kept v st (rowRaw c d i r).2 = kept v st r := by
  simp [rowRaw]

@[simp] theorem entryFrame_answerDropped (s : State) : entryFrame v st (answerDropped s) = entryFrame v st s := by
  have apart : Reg.answerStatus ≠ Reg.restartStatus := by decide
  rw [answerDropped, entryFrame_alert, entryFrame_incSat _ apart, entryFrame_setB _ apart, entryFrame_step]

@[simp] theorem kept_sendRow (c : Ctx) (g : GTag) (w off : Nat) (bs : List Byte) (r : Run) :
    kept v st (sendRow c g w off bs r) = kept v st r := by
  unfold sendRow
  split
  · split
    · exact kept_mod r _ (entryFrame_answerDropped r.s) rfl
    · simp
  · simp

theorem kept_sendBlockEnd (free : v.passes = false) (w : Nat) (r : Run) : kept v st (sendBlockEnd w r) = kept v st r := by
  simp [sendBlockEnd, entryFrame_blockEndAt _ free, entryFrame_putMarker _ free]

@[simp] theorem kept_dispatchSlot (c : Ctx) (d : Desc) (tbl : List Byte) (groups : List Nat) (e : Nat) (pl : Placement)
    (b s : Nat) (x : List (Option GTag) × Run) :
    kept v st (dispatchSlot c d tbl groups e pl b s x).2 = kept v st x.2 := by
  unfold dispatchSlot
  split <;> simp [Reg.dispatchRows, Reg.dispatchSkipped, entryFrame_count]

theorem kept_dispatchBlock (free : v.passes = false) (c : Ctx) (d : Desc) (tbl : List Byte) (groups : List Nat) (e : Nat)
    (pl : Placement) (r : Run) : kept v st (dispatchBlock c d tbl groups e pl r) = kept v st r := by
  simp [dispatchBlock, kept_sendBlockEnd free]

theorem kept_dispatchEff (free : v.passes = false) (c : Ctx) (r : Run) : kept v st (dispatchEff c r) = kept v st r := by
  simp [dispatchEff, kept_dispatchBlock free]

@[simp] theorem kept_returnSlot (c : Ctx) (d : Desc) (hdr : List Byte) (w b s : Nat) (r : Run) :
    kept v st (returnSlot c d hdr w b s r) = kept v st r := by
  simp [returnSlot, Reg.dispatchRows, entryFrame_count]

theorem kept_returnEff (free : v.passes = false) (c : Ctx) (r : Run) : kept v st (returnEff c r) = kept v st r := by
  simp [returnEff, kept_sendBlockEnd free]

@[simp] theorem kept_combineEff (c : Ctx) (r : Run) : kept v st (combineEff c r) = kept v st r := by simp [combineEff]

@[simp] theorem entryFrame_countExcess (c : Ctx) (padded : Bool) (d : Nat) (s : State) :
    entryFrame v st (countExcess c padded d s) = entryFrame v st s := by simp [countExcess]

@[simp] theorem kept_groupedRow (c : Ctx) (a d : Desc) (i : Nat) (r : Run) :
    kept v st (groupedRow c a d i r).2 = kept v st r := by simp [groupedRow]

@[simp] theorem kept_copyRanges (c : Ctx) (a d : Desc) (padded : Bool) (r : Run) :
    kept v st (copyRanges c a d padded r) = kept v st r := by
  simp only [copyRanges, kept_writeRows]
  refine foldl_keptWith _ (fun x row => ?_) _ ([], r)
  split <;> simp

@[simp] theorem kept_packEff (c : Ctx) (r : Run) : kept v st (packEff c r) = kept v st r := by simp [packEff]

@[simp] theorem kept_unpackEff (c : Ctx) (r : Run) : kept v st (unpackEff c r) = kept v st r := by simp [unpackEff]

@[simp] theorem kept_idsEff (padded : Bool) (c : Ctx) (r : Run) : kept v st (idsEff padded c r) = kept v st r := by
  simp [idsEff]

@[simp] theorem kept_lenmaskEff (c : Ctx) (r : Run) : kept v st (lenmaskEff c r) = kept v st r := by simp [lenmaskEff]

/-! ## The collectives -/

/-- Where sends are left out, a run that has sent keeps its frame. -/
theorem kept_sent (free : v.sends = false) {q r : Run} (frame : entryFrame v st q.s = entryFrame v st r.s)
    (running : clocks q.s.crossings = clocks r.s.crossings) (late : q.late = r.late) (need : q.need = r.need) :
    kept v st q = kept v st r :=
  kept_of frame running fun _ => ⟨late, need, fun asked => by simp [free] at asked⟩

section
variable (free : v.sends = false)
include free

theorem kept_counted (r : Run) (n : Nat) : kept v st { r with sent := n } = kept v st r := kept_sent free rfl rfl rfl rfl

omit free in
theorem kept_putColl (u : Nat) (k : Coll) (r : Run) : kept v st (r.mod (putColl u k)) = kept v st r :=
  kept_mod r _ (entryFrame_setRing _ _ _) rfl

theorem kept_sendRing (c : Ctx) (g : GTag) (dst port phase off : Nat) (bs : List Byte) (r : Run) :
    kept v st (sendRing c g dst port phase off bs r) = kept v st r := by
  refine kept_sent free ?_ (by simp) rfl rfl
  exact foldl_keeps (entryFrame v st) _ (fun s x => entryFrame_queueTransfer s _ _) _ r.s

theorem kept_sendHalf (c : Ctx) (x : Shape) (half phase off : Nat) (bs : List Byte) (r : Run) :
    kept v st (sendHalf c x half phase off bs r) = kept v st r := kept_sendRing free c _ _ _ _ _ _ r

omit free in
theorem entryFrame_raiseOnce (idx : Nat) (cs : List Confined) (s : State) :
    entryFrame v st (raiseOnce st idx cs s) = entryFrame v st s := by
  refine foldl_keeps (entryFrame v st) _ (fun s c => ?_) cs s
  split
  · rfl
  · exact entryFrame_confineEntry s idx c

omit free in
theorem entryFrame_setMask (r : Nat) (m : Mask) (s : State) : entryFrame v st (setMask r m s) = entryFrame v st s :=
  entryFrame_step s _

omit free in
theorem entryFrame_adopt (c : Ctx) (w : CtlWord) (s : State) : entryFrame v c.st (adopt c w s) = entryFrame v c.st s :=
  (entryFrame_step _ _).trans ((entryFrame_setMask _ _ _).trans (entryFrame_raiseOnce _ _ s))

omit free in
@[simp] theorem kept_writeFlat (c : Ctx) (d : Desc) (row : OutRow) (r : Run) :
    kept v st (writeFlat c d row r) = kept v st r := by simp [writeFlat]

omit free in
@[simp] theorem kept_finishColl (c : Ctx) (x : Shape) (k : CollRun) : kept v st (finishColl c x k).2 = kept v st k.2 := by
  simp [finishColl]

theorem kept_startGather (c : Ctx) (x : Shape) (k : CollRun) : kept v st (startGather c x k).2 = kept v st k.2 := by
  unfold startGather
  dsimp only
  split
  · simp
  · exact foldl_kept _ (fun r h => kept_sendHalf free c x h 2 0 _ r) _ _

theorem kept_endReduce (c : Ctx) (x : Shape) (k : CollRun) : kept v st (endReduce c x k).2 = kept v st k.2 := by
  unfold endReduce
  split
  · simp
  · exact kept_startGather free c x k

theorem kept_startReduce (c : Ctx) (x : Shape) (k : CollRun) : kept v st (startReduce c x k).2 = kept v st k.2 := by
  unfold startReduce
  split
  · exact kept_startGather free c x k
  · dsimp only
    split
    · exact kept_endReduce free c x _
    · exact foldl_kept _ (fun r h => kept_sendHalf free c x h 1 0 _ r) _ _

theorem kept_afterControl (c : Ctx) (x : Shape) (w : Option CtlWord) (k : CollRun) :
    kept v c.st (afterControl c x w k).2 = kept v c.st k.2 := by
  unfold afterControl
  split
  · rw [kept_startReduce free, kept_mod _ _ (entryFrame_adopt c _ _) (by simp)]
  · exact kept_startReduce free c x k

omit free in
@[simp] theorem kept_sourceCodes (c : Ctx) (a : Desc) (r : Run) : kept v st (sourceCodes c a r).2 = kept v st r := by
  simp [sourceCodes]

theorem kept_collEff (c : Ctx) (r : Run) : kept v c.st (collEff c r) = kept v c.st r := by
  unfold collEff
  dsimp only
  rw [kept_physEvents, kept_counted free, kept_putColl]
  split
  · rw [kept_afterControl free, kept_sourceCodes]
  · split
    · rw [kept_afterControl free, kept_sourceCodes]
    · split
      · exact (kept_sendHalf free c _ _ _ _ _ _).trans (kept_sourceCodes c _ r)
      · exact kept_sourceCodes c _ r

omit free in
@[simp] theorem kept_putBlock (c : Ctx) (d : Desc) (bs : List Byte) (r : Run) :
    kept v st (putBlock c d bs r) = kept v st r := by simp [putBlock]

theorem kept_rotateEff (c : Ctx) (r : Run) : kept v st (rotateEff c r) = kept v st r := by
  have read (p : Prop) [Decidable p] (bs : List Byte) (d : Desc) :
      kept v st (if p then (bs, r) else denseBytes c d r).2 = kept v st r := by split <;> simp
  simp only [rotateEff, kept_physEvents]
  split
  · rw [kept_putBlock, read]
  · rw [kept_counted free, kept_putColl, kept_sendRing free, read]

end

end Sys2Proof.Machine
end

