-- ==== Sys2Proof/Proofs/Launch.lean ====
section
/-! SUPPORT. FRAME. What the issue of an entry whose effect keeps the frame does: the entry is in flight, and nothing of the frame
changes. -/

namespace Sys2Proof.Machine
open Sys2Proof.Stmt

variable {v : Scope} {st : Nat} {x : Stream} {e : Entry} {s : State}

/-! ## The frame of a stream that is put -/

theorem entryFrame_setStream (y : Stream) (s : State) :
    entryFrame v st (setStream st y s) = (setStream st (bareStream y) (entryState v st s), heldLocker s) := by
  have streams : (s.streams.set st y).modify st bareStream = (s.streams.modify st bareStream).set st (bareStream y) := by
    refine List.ext_getElem? fun i => ?_
    rw [List.getElem?_modify, List.getElem?_set, List.getElem?_set, List.getElem?_modify, List.length_modify]
    by_cases same : st = i
    · subst same
      by_cases inside : st < s.streams.length <;> simp [inside]
    · simp [same]
  refine Prod.ext ?_ rfl
  simp only [entryFrame, entryState, setStream, streams]

/-- Of two states in one frame, the streams put with one bare stream keep it. -/
theorem entryFrame_setStream_congr {s t : State} (frame : entryFrame v st t = entryFrame v st s) {y z : Stream}
    (bare : bareStream y = bareStream z) : entryFrame v st (setStream st y t) = entryFrame v st (setStream st z s) := by
  rw [entryFrame_setStream, entryFrame_setStream, bare]
  have state : entryState v st t = entryState v st s := congrArg Prod.fst frame
  have locker : heldLocker t = heldLocker s := congrArg Prod.snd frame
  rw [state, locker]

theorem bareStream_of_entryFrame {s t : State} (frame : entryFrame v st t = entryFrame v st s) :
    (streamAt t st).map bareStream = (streamAt s st).map bareStream := by
  have streams : t.streams.modify st bareStream = s.streams.modify st bareStream := congrArg (fun x => x.1.streams) frame
  have here := congrArg (fun l : List Stream => l[st]?) streams
  simpa [List.getElem?_modify, streamAt] using here

/-! ## Flights that are marked -/

/-- A change of a flight that leaves its number, slot and void, and what events add to it. -/
structure Marks (g : Flight → Flight) : Prop where
  keeps : ∀ f, (g f).idx = f.idx ∧ (g f).slot = f.slot ∧ (g f).voided = f.voided
  bare : ∀ f, bareFlight (g f) = g (bareFlight f)

theorem Marks.id : Marks id := ⟨fun _ => ⟨rfl, rfl, rfl⟩, fun _ => rfl⟩

theorem Marks.mapFlights {g : Flight → Flight} (marks : Marks g) (idx : Nat) (x : Stream) :
    bareStream (x.mapFlights idx g) = (bareStream x).mapFlights idx g := by
  simp only [bareStream, Stream.mapFlights, List.map_map]
  congr 1
  refine List.map_congr_left fun f _ => ?_
  have number : (bareFlight f).idx = f.idx := rfl
  simp only [Function.comp, number, apply_ite bareFlight, marks.bare]

theorem mapFlights_id (idx : Nat) (x : Stream) : x.mapFlights idx id = x := by
  simp [Stream.mapFlights]

theorem setStream_self {i : Nat} {y : Stream} (here : streamAt s i = some y) : setStream i y s = s := by
  obtain ⟨inside, same⟩ := List.getElem?_eq_some_iff.1 here
  rw [setStream, ← same, List.set_getElem_self]

/-- The marks of an entry in flight, in a state of the same frame. -/
theorem entryFrame_mark {g : Flight → Flight} (marks : Marks g) {s t : State} (frame : entryFrame v st t = entryFrame v st s)
    {y : Stream} (here : streamAt s st = some y) (idx : Nat) :
    entryFrame v st (modFlight st idx g t) = entryFrame v st (setStream st (y.mapFlights idx g) s) := by
  have bares := bareStream_of_entryFrame frame
  rw [here, Option.map_some] at bares
  obtain ⟨z, there, bare⟩ := Option.map_eq_some_iff.1 bares
  rw [modFlight_of_streamAt there]
  exact entryFrame_setStream_congr frame (by rw [marks.mapFlights, marks.mapFlights, bare])

/-! ## The run of an effect -/

/-- The effect of an entry keeps the frame of its run. -/
def KeepsFrame (v : Scope) (eff : Ctx → Run → Run) : Prop := ∀ c r, kept v c.st (eff c r) = kept v c.st r

/-- The marks of an entry whose effect has run. -/
def ranWith (sent : Nat) (f : Flight) : Flight := { f with ran := true, waiting := sent, done := sent == 0 }

theorem marks_ranWith (sent : Nat) : Marks (ranWith sent) := ⟨fun _ => ⟨rfl, rfl, rfl⟩, fun _ => rfl⟩

/-- What a run that lacks bytes asks for now (07 R149), and the marks of its entry. -/
def asksNow (c : Ctx) (r : Run) : List (Nat × Nat) := if c.kind = 1 then r.need.take maxFetches else r.need
def askedFor (l : List (Nat × Nat)) (f : Flight) : Flight := { f with waiting := askCount l, asked := f.asked ++ l }

theorem marks_askedFor (l : List (Nat × Nat)) : Marks (askedFor l) := ⟨fun _ => ⟨rfl, rfl, rfl⟩, fun _ => rfl⟩

/-- How a settled run marks its entry: as one that has run, if it waits for no clock and lacks no bytes. -/
theorem settleRun_frame {c : Ctx} {r : Run} {u : State} {y : Stream} (frame : entryFrame v c.st r.s = entryFrame v c.st u)
    (here : streamAt u c.st = some y) :
    ∃ g, Marks g ∧ entryFrame v c.st (settleRun c r u) = entryFrame v c.st (setStream c.st (y.mapFlights c.idx g) u) ∧
      (r.late = false → r.need = [] → g = ranWith r.sent) := by
  unfold settleRun
  split
  · next late =>
    refine ⟨id, Marks.id, ?_, fun free => absurd late (by simp [free])⟩
    rw [mapFlights_id, setStream_self here]
    exact entryFrame_congr rfl rfl rfl
  · split
    · refine ⟨ranWith r.sent, marks_ranWith _, ?_, fun _ _ => rfl⟩
      dsimp only
      rw [foldl_keeps (entryFrame v c.st) _ (fun s ev => entryFrame_raiseEntry s _ _ ev), entryFrame_noteUpdate]
      exact entryFrame_mark (marks_ranWith _) frame here c.idx
    · next lacking =>
      have asked : entryFrame v c.st ((asksNow c r).foldl (fun s ask => askRange c.st c.idx ask s) u) = entryFrame v c.st u :=
        foldl_keeps (entryFrame v c.st) _ (fun s ask => entryFrame_askRange s _ _ ask) _ u
      exact ⟨askedFor (asksNow c r), marks_askedFor _, entryFrame_mark (marks_askedFor _) asked here c.idx,
        fun _ none => absurd none lacking⟩

/-! ## The issue -/

theorem markMixed_streams (e : Entry) (slot : Option Nat) (voided : Bool) (s : State) :
    (markMixed e slot voided s).streams = s.streams := by
  unfold markMixed
  split
  · rw [apply_ite State.streams, setB_streams, ite_self]
  · rfl

theorem streamAt_launched (h : streamAt s st = some x) (e : Entry) (ph : List Phys) :
    streamAt (launched st x e ph s) st = some (launchOf s x e ph) := by
  have mixed : streamAt (markMixed e x.slotNow (slotVoid s x.slotNow) s) st = some x := by
    rw [streamAt_congr (markMixed_streams e _ _ s)]
    exact h
  rw [launched, streamAt_congr (s := setStream st (launchOf s x e ph) _) (by unfold gateIssue; split <;> rfl)]
  exact streamAt_setStream_same mixed _

theorem entryFrame_markMixed (e : Entry) (slot : Option Nat) (voided : Bool) (s : State) :
    entryFrame v st (markMixed e slot voided s) = entryFrame v st s := by
  have apart : Reg.slotMixed ≠ Reg.restartStatus := by decide
  unfold markMixed
  split
  · rw [ite_entryFrame, entryFrame_setB _ apart, ite_self]
  · rfl

theorem entryFrame_gateIssue (e : Entry) (s : State) : entryFrame v st (gateIssue e s) = entryFrame v st s := by
  rw [gateIssue, ite_entryFrame, entryFrame_step, ite_self]

/-- What an entry that issues changes of the frame is its stream alone. -/
theorem entryFrame_launched (x : Stream) (e : Entry) (ph : List Phys) (s : State) :
    entryFrame v st (launched st x e ph s) = entryFrame v st (setStream st (launchOf s x e ph) s) := by
  rw [launched, entryFrame_gateIssue]
  exact entryFrame_setStream_congr (entryFrame_markMixed e _ _ s) rfl

theorem crossings_launched (st : Nat) (x : Stream) (e : Entry) (ph : List Phys) (s : State) :
    (launched st x e ph s).crossings = s.crossings := by
  unfold launched gateIssue markMixed
  split <;> split <;> simp

theorem windows_launched (st : Nat) (x : Stream) (e : Entry) (ph : List Phys) (s : State) :
    (launched st x e ph s).job.windows = s.job.windows :=
  congrArg (fun x => x.1.job.windows) (entryFrame_launched (v := ⟨true, true⟩) x e ph s)

theorem homely_launched (running : ClocksRun s) (near : ∀ w, (winOf s w).kind < 2) (x : Stream) (e : Entry) (ph : List Phys) :
    homely (launched st x e ph s) := by
  refine ⟨fun k => ?_, fun w => ?_⟩
  · rw [crossings_launched]
    simp [clocks, running k]
  · have same := near w
    rwa [winOf, ← windows_launched st x e ph s] at same

/-- A run in a homely state neither waits for a clock nor lacks bytes. -/
theorem hush_of_kept {q r : Run} (same : kept v st q = kept v st r) (home : homely r.s) (late : r.late = false)
    (need : r.need = []) : q.late = false ∧ q.need = [] ∧ (v.sends = true → q.sent = r.sent) := by
  have frame : entryFrame v st q.s = entryFrame v st r.s := congrArg Prod.fst same
  have running : clocks q.s.crossings = clocks r.s.crossings := congrArg (fun x => x.2.1) same
  have silent : hush v q = hush v r := congrArg (fun x => x.2.2) same
  rw [hush, hush, if_pos home, if_pos ((homely_congr frame running).2 home)] at silent
  obtain ⟨lates, needs, sents⟩ := (by simpa using silent : _ ∧ _ ∧ _)
  refine ⟨lates.trans late, needs.trans need, fun asked => ?_⟩
  simpa [asked] using sents

/-- The issue of an entry whose effect keeps the frame: the entry is in flight, marked as one that has run where it is in turn,
every clock runs and no window is remote. -/
theorem issue_frame {eff : Ctx → Run → Run} (keeps : KeepsFrame v eff) (h : Stands st x e s) {ok : Entry → Bool}
    (admitted : ok e = true) (ph : List Phys) :
    ∃ g, Marks g ∧
      entryFrame v st (issue st ok ph eff s) = entryFrame v st (setStream st ((launchOf s x e ph).mapFlights x.pos g) s) ∧
      (InTurn x → ClocksRun s → (∀ w, (winOf s w).kind < 2) → ∀ f, (g f).ran = true ∧ (v.sends = true → (g f).done = true)) := by
  rw [issue_of_stands h admitted]
  split
  · next turn =>
    have same := keeps (ctxNow s st x e ph) { s := launched st x e ph s }
    have there := streamAt_launched h.1 e ph
    obtain ⟨g, marks, frame, ran⟩ := settleRun_frame (c := ctxNow s st x e ph) (congrArg Prod.fst same) there
    refine ⟨g, marks, frame.trans ?_, fun _ running near f => ?_⟩
    · have put := entryFrame_setStream_congr (entryFrame_launched (v := v) (st := st) x e ph s)
        (y := (launchOf s x e ph).mapFlights x.pos g) rfl
      rwa [setStream_setStream] at put
    · obtain ⟨late, need, sent⟩ := hush_of_kept same (homely_launched running near x e ph) rfl rfl
      rw [ran late need]
      exact ⟨rfl, fun asked => by simp [ranWith, sent asked]⟩
  · next turn =>
    refine ⟨id, Marks.id, ?_, fun inTurn => absurd inTurn turn⟩
    rw [mapFlights_id, entryFrame_launched]

/-! ## What the statement says of it -/

theorem flight_of_bare {y z : Stream} (bare : bareStream y = bareStream z) {f : Flight} (mem : f ∈ z.inflight) :
    ∃ f' ∈ y.inflight, bareFlight f' = bareFlight f := by
  have flights : y.inflight.map bareFlight = z.inflight.map bareFlight := congrArg Stream.inflight bare
  have there : bareFlight f ∈ y.inflight.map bareFlight := flights ▸ List.mem_map_of_mem mem
  simpa using there

/-- A stream in flight as another, but for what events add. -/
theorem launched_of_bare {y z : Stream} (bare : bareStream y = bareStream z) (h : Launched s x z) : Launched s x y := by
  have kept {β} (f : Stream → β) : f (bareStream y) = f (bareStream z) := congrArg f bare
  obtain ⟨pos, released, blocked, entries, kind, unit, atEnd, count, f, mem, idx, slot, voided⟩ := h
  have length : y.inflight.length = z.inflight.length := by simpa [bareStream] using kept fun x => x.inflight.length
  obtain ⟨f', mem', same⟩ := flight_of_bare bare mem
  exact ⟨(kept Stream.pos).trans pos, (kept Stream.released).trans released, (kept Stream.blocked).trans blocked,
    (kept Stream.entries).trans entries, (kept Stream.kind).trans kind, (kept Stream.unit).trans unit,
    (kept Stream.atEnd).trans atEnd, length.trans count, f', mem', (congrArg Flight.idx same).trans idx,
    (congrArg Flight.slot same).trans slot, (congrArg Flight.voided same).trans voided⟩

theorem entryFrame_of_setStream {t : State} {y : Stream} (frame : entryFrame v st t = entryFrame v st (setStream st y s)) :
    EntryFrame st s t := by
  have kept {β} (f : State → β) : f (entryState v st t) = f (entryState v st (setStream st y s)) :=
    congrArg f (congrArg Prod.fst frame)
  have locker : heldLocker t = heldLocker s := congrArg Prod.snd frame
  refine ⟨fun i other => ?_, kept State.waiters, kept State.ports, kept State.owned, kept State.notices, kept State.words,
    kept State.intake, kept State.mgt, kept State.power, fun none => ?_, kept fun u => u.job.windows, kept fun u => u.job.descs,
    kept fun u => u.job.seed, kept State.drains, kept State.drainHeld, kept State.unbuilt, kept State.scrubbed, kept State.fill,
    kept State.pending⟩
  · have here := kept fun u => u.streams[i]?
    simpa [entryState, setStream, List.getElem?_modify, List.getElem?_set, other.symm, streamAt] using here
  · rw [heldLocker, heldLocker, if_pos none] at locker
    split at locker
    · exact Option.some.inj locker
    · exact nomatch locker

/-- What the issue of an entry whose effect keeps the frame leaves (03 R50). -/
theorem issue_launches {eff : Ctx → Run → Run} (keeps : KeepsFrame v eff) (h : Stands st x e s) {ok : Entry → Bool}
    (admitted : ok e = true) (ph : List Phys) :
    ∃ y, streamAt (issue st ok ph eff s) st = some y ∧ Launched s x y ∧ EntryFrame st s (issue st ok ph eff s) ∧
      (v.passes = true → (issue st ok ph eff s).passes = s.passes) ∧
      (InTurn x → ClocksRun s → (∀ w, (winOf s w).kind < 2) →
        ∃ f ∈ y.inflight, f.idx = x.pos ∧ f.ran = true ∧ (v.sends = true → f.done = true)) := by
  obtain ⟨g, marks, frame, ran⟩ := issue_frame keeps h admitted ph
  generalize issue st ok ph eff s = t at frame
  have bares := bareStream_of_entryFrame frame
  rw [streamAt_setStream_same h.1, Option.map_some] at bares
  obtain ⟨y, here, bare⟩ := Option.map_eq_some_iff.1 bares
  refine ⟨y, here, launched_of_bare bare (launched_mapFlights s x e ph marks.keeps), entryFrame_of_setStream frame,
    fun asked => ?_, fun turn running near => ?_⟩
  · have same := congrArg (fun u => u.1.passes) frame
    simpa [entryFrame, entryState, asked, setStream] using same
  · have mine : g (issueFlight s x e x.slotNow (slotVoid s x.slotNow) ph) ∈
        ((launchOf s x e ph).mapFlights x.pos g).inflight := by
      simp [Stream.mapFlights, launch, issueFlight, flightOf]
    obtain ⟨done, finished⟩ := ran turn running near (issueFlight s x e x.slotNow (slotVoid s x.slotNow) ph)
    obtain ⟨f, mem, same⟩ := flight_of_bare bare mine
    exact ⟨f, mem, (congrArg Flight.idx same).trans (marks.keeps _).1, (congrArg Flight.ran same).trans done,
      fun asked => (congrArg Flight.done same).trans (finished asked)⟩

end Sys2Proof.Machine
end

