-- ==== Sys2Proof/Proofs/DataEntries.lean ====
section
/-! SUPPORT. ISSUE. The commands of the data entries issue an entry whose effect keeps the frame (03 R50): the parts of O18 that hold
of every data entry. -/

namespace Sys2Proof.Machine
open Sys2Proof.Stmt

variable {st : Nat} {ph : List Phys} {x : Stream} {e : Entry} {s : State}

/-! ## The effects -/

/-- A command issues the entry that it admits, with an effect that keeps the frame. -/
def Issues (v : Scope) (st : Nat) (ph : List Phys) (p : Instr × (Entry → Bool)) : Prop :=
  ∃ eff, KeepsFrame v eff ∧ ∀ s, exec p.1 s = .next (issue st p.2 ph eff s)

theorem dataEntries_issue : ∀ p ∈ dataEntries st ph, Issues ⟨true, true⟩ st ph p := by
  simp only [dataEntries, List.forall_mem_cons]
  exact ⟨⟨matmulEff, fun c r => kept_matmulEff c r, fun _ => rfl⟩, ⟨vectorEff, fun c r => kept_vectorEff c r, fun _ => rfl⟩,
    ⟨optimEff, fun c r => kept_optimEff c r, fun _ => rfl⟩, ⟨moveEff, fun c r => kept_moveEff c r, fun _ => rfl⟩,
    ⟨moveEff, fun c r => kept_moveEff c r, fun _ => rfl⟩, ⟨moveEff, fun c r => kept_moveEff c r, fun _ => rfl⟩,
    ⟨fillEff, fun c r => kept_fillEff c r, fun _ => rfl⟩, ⟨stashWriteEff, fun c r => kept_stashWriteEff c r, fun _ => rfl⟩,
    ⟨stashReadEff, kept_stashReadEff, fun _ => rfl⟩, ⟨gatherEff, fun c r => kept_gatherEff c r, fun _ => rfl⟩,
    ⟨scatterEff, fun c r => kept_scatterEff c r, fun _ => rfl⟩, ⟨mergeEff, fun c r => kept_mergeEff c r, fun _ => rfl⟩,
    ⟨routeEff, fun c r => kept_routeEff c r, fun _ => rfl⟩, ⟨combineEff, fun c r => kept_combineEff c r, fun _ => rfl⟩,
    ⟨compressEff, fun c r => kept_compressEff c r, fun _ => rfl⟩,
    ⟨decompressEff, fun c r => kept_decompressEff c r, fun _ => rfl⟩, ⟨histEff, fun c r => kept_histEff c r, fun _ => rfl⟩,
    ⟨packEff, fun c r => kept_packEff c r, fun _ => rfl⟩, ⟨unpackEff, fun c r => kept_unpackEff c r, fun _ => rfl⟩,
    ⟨idsEff false, fun c r => kept_idsEff false c r, fun _ => rfl⟩, ⟨idsEff true, fun c r => kept_idsEff true c r, fun _ => rfl⟩,
    ⟨lenmaskEff, fun c r => kept_lenmaskEff c r, fun _ => rfl⟩, nofun⟩

theorem markerEntries_issue : ∀ p ∈ markerEntries st ph, Issues ⟨false, true⟩ st ph p := by
  simp only [markerEntries, List.forall_mem_cons]
  exact ⟨⟨dispatchEff, fun c r => kept_dispatchEff rfl c r, fun _ => rfl⟩,
    ⟨returnEff, fun c r => kept_returnEff rfl c r, fun _ => rfl⟩, nofun⟩

theorem ringEntries_issue : ∀ p ∈ ringEntries st ph, Issues ⟨true, false⟩ st ph p := by
  simp only [ringEntries, List.forall_mem_cons]
  exact ⟨⟨collEff, kept_collEff rfl, fun _ => rfl⟩, ⟨collEff, kept_collEff rfl, fun _ => rfl⟩,
    ⟨collEff, kept_collEff rfl, fun _ => rfl⟩, ⟨rotateEff, fun c r => kept_rotateEff rfl c r, fun _ => rfl⟩, nofun⟩

/-! ## In turn and behind others -/

/-- What a command that issues leaves. -/
theorem exec_launches {v : Scope} {p : Instr × (Entry → Bool)} (issues : Issues v st ph p) (h : Stands st x e s)
    (admitted : p.2 e = true) :
    ∃ t y, exec p.1 s = .next t ∧ streamAt t st = some y ∧ Launched s x y ∧ EntryFrame st s t ∧
      (v.passes = true → t.passes = s.passes) ∧
      (InTurn x → ClocksRun s → (∀ w, (winOf s w).kind < 2) →
        ∃ f ∈ y.inflight, f.idx = x.pos ∧ f.ran = true ∧ (v.sends = true → f.done = true)) := by
  obtain ⟨eff, keeps, runs⟩ := issues
  obtain ⟨y, here, launches⟩ := issue_launches keeps h admitted ph
  exact ⟨_, y, runs s, here, launches⟩

theorem markMixed_regs (e : Entry) (slot : Option Nat) (voided : Bool) (s : State) :
    markMixed e slot voided s = { s with regs := (markMixed e slot voided s).regs } := by
  unfold markMixed
  split
  · split <;> rfl
  · rfl

theorem launched_eq (st : Nat) (x : Stream) (e : Entry) (ph : List Phys) (s : State) :
    launched st x e ph s = { s with
      streams := (launched st x e ph s).streams, regs := (launched st x e ph s).regs
      step := if isGate e then { s.step with snapshot := true } else s.step } := by
  rw [launched, gateIssue, markMixed_regs]
  split <;> rfl

theorem regsBut_launched (st : Nat) (x : Stream) (e : Entry) (ph : List Phys) (s : State) :
    RegsBut [Reg.slotMixed] s (launched st x e ph s) := by
  intro a other
  have apart : a ≠ Reg.slotMixed := by simpa using other
  have mixed : rget (markMixed e x.slotNow (slotVoid s x.slotNow) s) a = rget s a := by
    unfold markMixed
    split
    · split
      · exact rget_rset_ne _ _ apart
      · rfl
    · rfl
  rw [launched, gateIssue]
  split
  · exact mixed
  · exact mixed

/-- An entry behind one that has not run waits for its turn. -/
theorem exec_waits {v : Scope} {p : Instr × (Entry → Bool)} (issues : Issues v st ph p) (h : Stands st x e s)
    (admitted : p.2 e = true) (behind : ¬ InTurn x) :
    ∃ t y, exec p.1 s = .next t ∧ streamAt t st = some y ∧ Launched s x y ∧
      (∃ f ∈ y.inflight, f.idx = x.pos ∧ f.ran = false ∧ f.done = false) ∧ RegsBut [Reg.slotMixed] s t ∧
      t = { s with streams := t.streams, regs := t.regs,
                   step := if isGate e then { s.step with snapshot := true } else s.step } := by
  obtain ⟨eff, -, runs⟩ := issues
  refine ⟨launched st x e ph s, launchOf s x e ph, ?_, streamAt_launched h.1 e ph, launched_launchOf s x e ph, ?_,
    regsBut_launched st x e ph s, launched_eq st x e ph s⟩
  · rw [runs, issue_of_stands h admitted, if_neg behind]
  · exact ⟨issueFlight s x e x.slotNow (slotVoid s x.slotNow) ph, by simp [launch], rfl, rfl, rfl⟩

end Sys2Proof.Machine
end

