-- ==== Sys2Proof/Proofs/Desk.lean ====
section
/-! SUPPORT. EFFECT. The run of an entry whose operands lie in the scratchpads, with nothing that the physical world adds: what its
reads bring, and what its writes and reports leave. -/

namespace Sys2Proof.Machine
open Sys2Proof.Stmt

/-! ## The desk of a run -/

/-- What such an entry reads of the state, and what it writes. -/
structure Desk where
  sp : Mem
  counts : Cells Counts
  scale : Cells ScaleRec
  nonfinite : Bool
  active : Bool
  job : Job
  ws : Worksheet
  mask : Mask
  /-- What says which core serves a logical core (20 R431). -/
  ctrl : Nat → W64

def deskOf (s : State) : Desk :=
  { sp := s.sp, counts := s.census.counts, scale := s.census.scale, nonfinite := s.step.nonfinite, active := s.step.active
    job := s.job, ws := s.step.ws, mask := s.step.maskA, ctrl := fun i => rget s (Reg.blkCtrl .core i) }

/-- The events of a run but those of a `DECOMPRESS`. -/
def otherEvents (l : List Evt) : List Evt := l.filter fun e => e.code != 0x0702

/-- The desk of a run, and what holds the run back. -/
def runDesk (r : Run) : Desk × Bool × List (Nat × Nat) × Nat × Bool × List Evt :=
  (deskOf r.s, r.late, r.need, r.sent, r.failed, otherEvents r.evs)

variable {s t : State} {q r : Run}

theorem runDesk_mod {f : State → State} (same : deskOf (f r.s) = deskOf r.s) : runDesk (r.mod f) = runDesk r := by
  simp only [runDesk, Run.mod, same]

/-! ## Changes beside the desk -/

/-- A register that is not a `BLK_CTRL` is not on the desk. -/
theorem deskOf_rset (s : State) {a : Nat} (apart : a % 0x10000 ≠ 16) (w : W64) : deskOf (rset s a w) = deskOf s := by
  have ctrl : (fun i => rget (rset s a w) (Reg.blkCtrl .core i)) = fun i => rget s (Reg.blkCtrl .core i) := by
    funext i
    refine rget_rset_ne _ _ fun same => apart ?_
    rw [← same]
    simp [Reg.blkCtrl, reg, blkCode]
    omega
  simp only [deskOf, ctrl]
  simp

/-- A register of a page at an offset other than that of `BLK_CTRL`. -/
theorem off_blkCtrl (b : Blk) (i : Nat) {off : Nat} (low : off < 0x10000) (apart : off ≠ 16) : reg b i off % 0x10000 ≠ 16 := by
  simp only [reg]
  omega

theorem deskOf_setF (s : State) {a : Nat} (apart : a % 0x10000 ≠ 16) (hi lo n : Nat) : deskOf (setF s a hi lo n) = deskOf s :=
  deskOf_rset s apart _

theorem deskOf_setB (s : State) {a : Nat} (apart : a % 0x10000 ≠ 16) (b : Nat) (x : Bool) : deskOf (setB s a b x) = deskOf s :=
  deskOf_rset s apart _

theorem deskOf_incMod (s : State) {a : Nat} (apart : a % 0x10000 ≠ 16) (hi lo n : Nat) :
    deskOf (incMod s a hi lo n) = deskOf s := deskOf_rset s apart _

@[simp] theorem ite_deskOf (p : Prop) [Decidable p] (s t : State) :
    deskOf (if p then s else t) = if p then deskOf s else deskOf t := apply_ite deskOf p s t

@[simp] theorem deskOf_alert (code : Nat) (s : State) : deskOf (alert code s) = deskOf s := rfl

@[simp] theorem deskOf_spTouch (core off n : Nat) (s : State) : deskOf (spTouch core off n s) = deskOf s := by
  have apart : Reg.spPower core % 0x10000 ≠ 16 := off_blkCtrl .core core (by decide) (by decide)
  unfold spTouch
  split
  · rfl
  · exact foldl_keeps deskOf _ (fun s k => deskOf_setF s apart _ _ _) _ s

@[simp] theorem deskOf_countIndices (c : Ctx) (cs : List IndexClass) (s : State) : deskOf (countIndices c cs s) = deskOf s := by
  have status : Reg.indexStatus c.inst % 0x10000 ≠ 16 := off_blkCtrl .jnc c.inst (by decide) (by decide)
  have absent : Reg.indexAbsent c.inst % 0x10000 ≠ 16 := off_blkCtrl .jnc c.inst (by decide) (by decide)
  have oob : Reg.indexOob c.inst % 0x10000 ≠ 16 := off_blkCtrl .jnc c.inst (by decide) (by decide)
  have stepped (s : State) (m n : Nat) : deskOf { s with step := { s.step with idxAbsent := m, idxOob := n } } = deskOf s := rfl
  rw [countIndices, stepped]
  simp [deskOf_setB _ status, deskOf_setF _ status, deskOf_incMod _ absent, deskOf_incMod _ oob]

/-! ## What the desk says -/

theorem physOf_of_desk (h : deskOf t = deskOf s) (l : Nat) : physOf t .core l = physOf s .core l := by
  have ctrl (i : Nat) : rget t (Reg.blkCtrl .core i) = rget s (Reg.blkCtrl .core i) := congrFun (congrArg Desk.ctrl h) i
  have same : serves t .core l = serves s .core l := funext fun i => by simp only [serves, getB, getF, ctrl]
  rw [physOf, physOf, same]

theorem coreIn_of_desk (h : deskOf t = deskOf s) (own : Nat) (d : Desc) : coreIn t own d = coreIn s own d := by
  simp only [coreIn, physOf_of_desk h]

theorem descOr_of_desk (h : deskOf t = deskOf s) (id : Nat) : descOr t id = descOr s id := by
  have job : t.job = s.job := congrArg Desk.job h
  simp only [descOr, descAt, job]

theorem scaleExp_of_desk (h : deskOf t = deskOf s) (d : Desc) : scaleExp t d = scaleExp s d := by
  have scale : t.census.scale = s.census.scale := congrArg Desk.scale h
  simp only [scaleExp, scaleOf, scale]

section
variable {own : Nat} {d : Desc}

theorem bytesIn_of_desk (h : deskOf t = deskOf s) (place : d.place = 1) : bytesIn t own d = bytesIn s own d := by
  have sp : t.sp = s.sp := congrArg Desk.sp h
  funext i
  simp only [bytesIn, placeMem, rowAddr, if_pos place, sp, coreIn_of_desk h]

theorem codesIn_of_desk (h : deskOf t = deskOf s) (place : d.place = 1) : codesIn t own d = codesIn s own d := by
  funext i
  simp only [codesIn, bytesIn_of_desk h place]

theorem valsIn_of_desk (h : deskOf t = deskOf s) (place : d.place = 1) : valsIn t own d = valsIn s own d := by
  funext i
  simp only [valsIn, codesIn_of_desk h place, scaleExp_of_desk h]

end

/-! ## Reads -/

/-- A read of the rows of one list: each brings its part, and the desk stays. -/
theorem foldl_reads {β ι : Type} {f : List β × Run → ι → List β × Run} {part : ι → List β} {r0 : Run}
    (l : List ι)
    (read : ∀ x, ∀ i ∈ l, runDesk x.2 = runDesk r0 → (f x i).1 = x.1 ++ part i ∧ runDesk (f x i).2 = runDesk r0)
    (x : List β × Run) (start : runDesk x.2 = runDesk r0) :
    (l.foldl f x).1 = x.1 ++ (l.map part).flatten ∧ runDesk (l.foldl f x).2 = runDesk r0 := by
  induction l generalizing x with
  | nil => exact ⟨by simp, start⟩
  | cons i l ih =>
    obtain ⟨value, desk⟩ := read x i List.mem_cons_self start
    obtain ⟨values, desks⟩ := ih (fun x j mem => read x j (List.mem_cons_of_mem i mem)) (f x i) desk
    exact ⟨by simp [values, value], desks⟩

section
variable {c : Ctx} (free : c.ph = [])
include free

theorem spRead_eq (core off n : Nat) (r : Run) :
    spRead c core off n r = (memRead r.s.sp (core * 524288 + off) n, r.mod (spTouch core off n)) := by
  have sp : (spTouch core off n r.s).sp = r.s.sp := congrArg Desk.sp (deskOf_spTouch core off n r.s)
  simp only [spRead, free, spBad, List.filterMap_nil, List.foldl_nil, Run.mod, sp]

variable {d : Desc}

theorem getBytes_value (place : d.place = 1) (off n : Nat) (r : Run) :
    (getBytes c d off n r).1 = memRead r.s.sp (coreIn r.s c.inst d * 524288 + off) n := by
  unfold getBytes
  split
  · next none => rw [none]; rfl
  · rw [if_neg (show d.place ≠ 0 by omega), spRead_eq free]
    rfl

theorem getBytes_desk (place : d.place = 1) (off n : Nat) (r : Run) : runDesk (getBytes c d off n r).2 = runDesk r := by
  unfold getBytes
  split
  · rfl
  · rw [if_neg (show d.place ≠ 0 by omega), spRead_eq free]
    exact runDesk_mod (deskOf_spTouch _ _ _ _)

/-- A row of a scratchpad tensor: its codes as the scratchpad holds them. -/
theorem tryRow_reads (place : d.place = 1) (i : Nat) (r : Run) :
    (tryRow c d i r).1 = some (codesIn r.s c.inst d i) ∧ runDesk (tryRow c d i r).2 = runDesk r := by
  have desk := getBytes_desk free place (d.rowOff i) d.rowBytes { r with failed := false }
  have good : (getBytes c d (d.rowOff i) d.rowBytes { r with failed := false }).2.failed = false :=
    congrArg (fun x => x.2.2.2.2.1) desk
  refine ⟨?_, ?_⟩
  · simp only [tryRow, good, getBytes_value free place, codesIn, bytesIn, placeMem, rowAddr, if_pos place]
    rfl
  · simp only [tryRow, good]
    simp only [runDesk, Prod.mk.injEq, Bool.or_false] at desk ⊢
    obtain ⟨state, late, need, sent, -, evs⟩ := desk
    exact ⟨state, late, need, sent, trivial, evs⟩

variable (plain : PlainSp d)
include plain

theorem tryRows_reads (r : Run) :
    (tryRows c d r).1 = (allCodes r.s c.inst d).map some ∧ runDesk (tryRows c d r).2 = runDesk r := by
  obtain ⟨place, layout, -⟩ := plain
  have reads := foldl_reads (r0 := r) (part := fun i => [some (codesIn r.s c.inst d i)])
    (f := fun (x : List (Option (List Nat)) × Run) i => let y := tryRow c d i x.2; (x.1 ++ [y.1], y.2))
    (List.range d.rows) (fun x i _ h => by
      obtain ⟨value, desk⟩ := tryRow_reads free place i x.2
      exact ⟨by simp only [value, codesIn_of_desk (congrArg Prod.fst h) place], desk.trans h⟩)
    ([], r) rfl
  rw [tryRows, if_neg (by omega)]
  refine ⟨reads.1.trans ?_, reads.2⟩
  simp only [allCodes, List.nil_append, ← List.flatMap_def, List.map_map]
  exact List.map_eq_flatMap.symm

theorem loadRows_reads (r : Run) : (loadRows c d r).1 = allCodes r.s c.inst d ∧ runDesk (loadRows c d r).2 = runDesk r := by
  obtain ⟨value, desk⟩ := tryRows_reads free plain r
  exact ⟨by simp [loadRows, value], desk⟩

omit free in
theorem scaleDesc_plain (s : State) : scaleDesc s d = none := by
  obtain ⟨-, -, mx⟩ := plain
  simp [scaleDesc, mx]

theorem loadVals_reads (r : Run) : (loadVals c d r).1 = allVals r.s c.inst d ∧ runDesk (loadVals c d r).2 = runDesk r := by
  obtain ⟨value, desk⟩ := tryRows_reads free plain r
  have none := scaleDesc_plain plain (tryRows c d r).2.s
  have scale := scaleExp_of_desk (congrArg Prod.fst desk) d
  simp only [loadVals, loadPairs, none, value]
  refine ⟨?_, desk⟩
  simp [valsOf, joinRow, allVals, allCodes, valsIn, scale]

theorem denseBytes_reads (r : Run) : (denseBytes c d r).1 = allBytes r.s c.inst d ∧ runDesk (denseBytes c d r).2 = runDesk r := by
  obtain ⟨place, layout, -⟩ := plain
  have reads := foldl_reads (r0 := r) (part := fun i => bytesIn r.s c.inst d i)
    (f := fun (a : List Byte × Run) i => let y := getBytes c d (d.rowOff i) d.rowBytes a.2; (a.1 ++ y.1, y.2))
    (List.range d.rows) (fun x i _ h => by
      refine ⟨?_, (getBytes_desk free place _ _ x.2).trans h⟩
      rw [← bytesIn_of_desk (congrArg Prod.fst h) place]
      simp only [getBytes_value free place, bytesIn, placeMem, rowAddr, if_pos place])
    ([], r) rfl
  rw [denseBytes, if_neg (by omega)]
  exact reads

end

end Sys2Proof.Machine
end

