-- ==== Sys2Proof/Proofs/DeskWrites.lean ====
section
/-! SUPPORT. EFFECT. The writes and reports of such a run, one by one, and that they leave what the statement's results say. -/

namespace Sys2Proof.Machine
open Sys2Proof.Stmt

/-- The desk of a run with what holds it back. -/
abbrev RunDesk := Desk × Bool × List (Nat × Nat) × Nat × Bool × List Evt

/-- A byte run put into the scratchpads of a desk. -/
def putRun (b : RunDesk) (w : Nat × List Byte) : RunDesk := ({ b.1 with sp := memWrite b.1.sp w.1 w.2 }, b.2)

/-- Counts told under a tensor id (06 R138, R142). -/
def tellRun (b : RunDesk) (x : Nat × Counts) : RunDesk :=
  if x.1 = 0xFFFF ∨ x.2 = {} then b
  else ({ b.1 with
    counts := if x.1 < 0x1000 then cellSet noCounts b.1.counts x.1 (mergeCounts (cellGet noCounts b.1.counts x.1) x.2)
      else b.1.counts
    nonfinite := b.1.nonfinite || decide (0 < x.2.nonfinite) }, b.2)

/-- A desk after a result. -/
def resultRun (w : Result) (b : RunDesk) : RunDesk := w.told.foldl tellRun (w.writes.foldl putRun b)

variable {s t : State} {q r : Run}

/-! ## What results leave -/

section
variable (m : Mem)

/-- A byte outside every run of a list stays. -/
theorem memGet_foldl_write (ws : List (Nat × List Byte)) (k : Nat) (out : ∀ w ∈ ws, k < w.1 ∨ w.1 + w.2.length ≤ k) :
    memGet (ws.foldl (fun m w => memWrite m w.1 w.2) m) k = memGet m k := by
  induction ws generalizing m with
  | nil => rfl
  | cons w ws ih =>
    obtain ⟨here, rest⟩ := List.forall_mem_cons.1 out
    rw [List.foldl_cons, ih _ rest, memGet_write, if_neg (by omega)]

theorem memRead_congr {m n : Mem} {a len : Nat} (h : ∀ k, a ≤ k → k < a + len → memGet m k = memGet n k) :
    memRead m a len = memRead n a len := by
  induction len generalizing a with
  | zero => rfl
  | succ len ih => rw [memRead, memRead, h a (by omega) (by omega), ih fun k lo hi => h k (by omega) (by omega)]

/-- Every run of a list of runs that share no byte, unless they are one and the same, stands there after all of them. -/
theorem memRead_foldl_write {ws : List (Nat × List Byte)} (apart : Disjoint ws) {w : Nat × List Byte} (mem : w ∈ ws) :
    memRead (ws.foldl (fun m w => memWrite m w.1 w.2) m) w.1 w.2.length = w.2 := by
  induction ws generalizing m with
  | nil => exact nomatch mem
  | cons v ws ih =>
    obtain ⟨first, rest⟩ := List.pairwise_cons.1 apart
    by_cases again : w ∈ ws
    · exact ih _ rest again
    · obtain rfl : w = v := (List.mem_cons.1 mem).resolve_right again
      have stays : ∀ k, w.1 ≤ k → k < w.1 + w.2.length →
          memGet (ws.foldl (fun m w => memWrite m w.1 w.2) (memWrite m w.1 w.2)) k = memGet (memWrite m w.1 w.2) k := by
        intro k lo hi
        refine memGet_foldl_write _ ws k fun u there => ?_
        rcases first u there with same | before | behind
        · exact absurd (same ▸ there) again
        · exact Or.inl (by omega)
        · exact Or.inr (by omega)
      rw [List.foldl_cons, memRead_congr stays, memRead_write]

end

theorem foldl_putRun (ws : List (Nat × List Byte)) (b : RunDesk) :
    ws.foldl putRun b = ({ b.1 with sp := ws.foldl (fun m w => memWrite m w.1 w.2) b.1.sp }, b.2) := by
  induction ws generalizing b with
  | nil => rfl
  | cons w ws ih => rw [List.foldl_cons, ih]; rfl

theorem tellRun_sp (b : RunDesk) (x : Nat × Counts) : (tellRun b x).1.sp = b.1.sp := by
  unfold tellRun
  split <;> rfl

/-- The counts of a tensor id after one report. -/
theorem tellRun_counts (b : RunDesk) (x : Nat × Counts) {i : Nat} (low : i < 0x1000) :
    cellGet noCounts (tellRun b x).1.counts i =
      if x.1 == i && x.2 != {} then mergeCounts (cellGet noCounts b.1.counts i) x.2 else cellGet noCounts b.1.counts i := by
  unfold tellRun
  by_cases none : x.2 = {}
  · simp [none]
  · by_cases here : x.1 = i
    · subst here
      have told : (x.2 != {}) = true := bne_iff_ne.2 none
      rw [if_neg (by rintro (far | same); exacts [by omega, none same]), beq_self_eq_true, told]
      simp [low]
    · split
      · simp [here]
      · dsimp only
        split
        · rw [cellGet_set_ne _ _ _ (Ne.symm here)]
          simp [here]
        · simp [here]

theorem tellRun_nonfinite (b : RunDesk) (x : Nat × Counts) :
    (tellRun b x).1.nonfinite = (b.1.nonfinite || (x.1 != 0xFFFF && decide (0 < x.2.nonfinite))) := by
  unfold tellRun
  split
  · next quiet => rcases quiet with far | same <;> simp_all
  · next told =>
    have id : (x.1 != 0xFFFF) = true := bne_iff_ne.2 fun far => told (Or.inl far)
    rw [id, Bool.true_and]

/-- The scratchpads, the counts and the flag of nonfinite elements after a list of reports. -/
theorem foldl_tellRun (l : List (Nat × Counts)) (b : RunDesk) :
    (l.foldl tellRun b).1.sp = b.1.sp ∧
    (∀ i, i < 0x1000 → cellGet noCounts (l.foldl tellRun b).1.counts i =
      (l.filter fun x => x.1 == i && x.2 != {}).foldl (fun n x => mergeCounts n x.2) (cellGet noCounts b.1.counts i)) ∧
    (l.foldl tellRun b).1.nonfinite = (b.1.nonfinite || l.any fun x => x.1 != 0xFFFF && decide (0 < x.2.nonfinite)) := by
  induction l generalizing b with
  | nil => exact ⟨rfl, fun _ _ => rfl, by simp⟩
  | cons x l ih =>
    obtain ⟨sp, counts, flag⟩ := ih (tellRun b x)
    refine ⟨sp.trans (tellRun_sp b x), fun i low => ?_, ?_⟩
    · rw [List.foldl_cons, counts i low, tellRun_counts b x low, List.filter_cons]
      split <;> rfl
    · rw [List.foldl_cons, flag, tellRun_nonfinite, List.any_cons, Bool.or_assoc]

/-- A desk after a result whose runs are apart gives the result. -/
theorem gives_of_resultRun {w : Result} (apart : Disjoint w.writes) {b : RunDesk} (before : b.1 = deskOf s)
    (sp : t.sp = (resultRun w b).1.sp) (counts : t.census.counts = (resultRun w b).1.counts)
    (flag : t.step.nonfinite = (resultRun w b).1.nonfinite) : Gives w s t := by
  obtain ⟨stays, told, flagged⟩ := foldl_tellRun w.told (w.writes.foldl putRun b)
  rw [foldl_putRun, before] at stays told flagged
  rw [resultRun, foldl_putRun, before] at sp counts flag
  refine ⟨fun x mem => ?_, fun k out => ?_, fun i low => ?_, ?_⟩
  · rw [sp, stays]
    exact memRead_foldl_write s.sp apart mem
  · rw [sp, stays]
    exact memGet_foldl_write s.sp w.writes k out
  · rw [counts, told i low]
    rfl
  · rw [flag, flagged]
    rfl

/-! ## Writes of rows -/

/-- Writes of the rows of one list, each a run of bytes, of a desk whose cores stay. -/
theorem foldl_writes {ι : Type} {f : Run → ι → Run} {w : ι → Nat × List Byte} {ctrl : Nat → W64}
    (write : ∀ r i, (deskOf r.s).ctrl = ctrl → runDesk (f r i) = putRun (runDesk r) (w i)) (l : List ι) (r : Run)
    (start : (deskOf r.s).ctrl = ctrl) : runDesk (l.foldl f r) = (l.map w).foldl putRun (runDesk r) := by
  induction l generalizing r with
  | nil => rfl
  | cons i l ih =>
    have first := write r i start
    have still : (deskOf (f r i).s).ctrl = ctrl := (congrArg (fun b => b.1.ctrl) first).trans start
    rw [List.foldl_cons, ih _ still, first]
    rfl

theorem coreIn_of_ctrl (h : (deskOf t).ctrl = (deskOf s).ctrl) (own : Nat) (d : Desc) : coreIn t own d = coreIn s own d := by
  have same : deskOf t = { deskOf t with ctrl := (deskOf s).ctrl } := by rw [← h]
  have ctrl (i : Nat) : rget t (Reg.blkCtrl .core i) = rget s (Reg.blkCtrl .core i) := congrFun h i
  have serving (l : Nat) : serves t .core l = serves s .core l := funext fun i => by simp only [serves, getB, getF, ctrl]
  simp only [coreIn, physOf, serving]

theorem reportRows_eq (c : Ctx) (id : Nat) (rows : List OutRow) (s : State) :
    reportRows c id rows s = if id = 0xFFFF then s else report c.district id (tally rows) s := rfl

/-- A report of rows. -/
theorem runDesk_reportRows (c : Ctx) (id : Nat) (rows : List OutRow) (r : Run) :
    runDesk (r.mod (reportRows c id rows)) = tellRun (runDesk r) (id, tally rows) := by
  have apart (d : Nat) : Reg.rclGate d % 0x10000 ≠ 16 := off_blkCtrl .rcl d (by decide) (by decide)
  unfold tellRun
  split
  · next quiet =>
    refine runDesk_mod ?_
    rw [reportRows_eq]
    split
    · rfl
    · next told => rw [report, if_pos (Or.inr (quiet.resolve_left told))]
  · next told =>
    obtain ⟨far, some⟩ := not_or.1 told
    refine Prod.ext ?_ rfl
    change deskOf (reportRows c id rows r.s) = _
    rw [reportRows_eq, if_neg far, report, if_neg (by rintro (same | none); exacts [far same, some none])]
    dsimp only
    split
    · next lost =>
      rw [deskOf_setB _ (apart _)]
      have flagged : decide (0 < (tally rows).nonfinite) = true := decide_eq_true lost
      simp only [deskOf, runDesk, flagged, Bool.or_true]
      rfl
    · next fine =>
      have flagged : decide (0 < (tally rows).nonfinite) = false := decide_eq_false fine
      simp only [deskOf, runDesk, flagged, Bool.or_false]
      rfl

section
variable {c : Ctx} (free : c.ph = [])
include free

theorem behind_of_free (d : Desc) : c.behind d = c := by
  cases c
  simp only at free
  simp [Ctx.behind, free]

theorem spoil_of_free (o : Nat) (bs : List Byte) : spoil c o bs = bs := by simp [spoil, spoiled, free]

theorem spWrite_desk (core off : Nat) (bs : List Byte) (r : Run) :
    runDesk (spWrite c core off bs r) = putRun (runDesk r) (core * 524288 + off, bs) := by
  simp only [spWrite, free, spBad, spPartFixed, List.filterMap_nil, List.filter_nil, List.foldl_nil]
  refine Prod.ext ?_ rfl
  exact deskOf_spTouch _ _ _ _

variable {d : Desc} (place : d.place = 1)
include place

theorem putBytes_desk (g : GTag) (off : Nat) (bs : List Byte) (r : Run) :
    runDesk (putBytes c g d off bs r) = putRun (runDesk r) (coreIn r.s c.inst d * 524288 + off, bs) := by
  unfold putBytes
  split
  · next none => rw [List.length_eq_zero_iff.1 none]; rfl
  · rw [if_neg (show d.place ≠ 0 by omega)]
    exact spWrite_desk free _ _ _ _

theorem storeRow_desk (g : GTag) (i : Nat) (codes : List Nat) (r : Run) :
    runDesk (storeRow c g d i codes r) =
      putRun (runDesk r) (coreIn r.s c.inst d * 524288 + d.rowOff i, packCodes (widthOf d.fmt) codes) := by
  simp only [storeRow, spoil_of_free free]
  exact putBytes_desk free place _ _ _ _

end

end Sys2Proof.Machine
end

