-- ==== Sys2Proof/Proofs/DeskRows.lean ====
section
/-! SUPPORT. EFFECT. The tensors that such a run loads and writes, in the terms of the state before it. -/

namespace Sys2Proof.Machine
open Sys2Proof.Stmt

variable {s : State} {c : Ctx} {d : Desc} {r : Run}

/-! ## Loads -/

section
variable (free : c.ph = []) (plain : PlainSp d) (h : deskOf r.s = deskOf s)
include free plain h

theorem loadRows_at : (loadRows c d r).1 = allCodes s c.inst d ∧ runDesk (loadRows c d r).2 = runDesk r := by
  obtain ⟨value, desk⟩ := loadRows_reads free plain r
  exact ⟨by simp only [value, allCodes, codesIn_of_desk h plain.1], desk⟩

theorem loadFlat_at : (loadFlat c d r).1 = flatCodes s c.inst d ∧ runDesk (loadFlat c d r).2 = runDesk r := by
  obtain ⟨value, desk⟩ := loadRows_at free plain h
  exact ⟨by simp only [loadFlat, value, flatCodes], desk⟩

theorem loadIndices_at (n : Nat) :
    (loadIndices c d r).1.map (classify n) = classesIn s c.inst d n ∧ runDesk (loadIndices c d r).2 = runDesk r := by
  obtain ⟨value, desk⟩ := loadRows_at free plain h
  exact ⟨by simp [loadIndices, value, classesIn, flatCodes, Function.comp_def], desk⟩

theorem loadVals_at : (loadVals c d r).1 = allVals s c.inst d ∧ runDesk (loadVals c d r).2 = runDesk r := by
  obtain ⟨value, desk⟩ := loadVals_reads free plain r
  exact ⟨by simp only [value, allVals, valsIn_of_desk h plain.1], desk⟩

theorem denseBytes_at : (denseBytes c d r).1 = allBytes s c.inst d ∧ runDesk (denseBytes c d r).2 = runDesk r := by
  obtain ⟨value, desk⟩ := denseBytes_reads free plain r
  exact ⟨by simp only [value, allBytes, bytesIn_of_desk h plain.1], desk⟩

theorem trySome_at (rows : List Nat) :
    (trySome c d rows r).1 = (rows.map fun i => (i, some (codesIn s c.inst d i))) ∧
      runDesk (trySome c d rows r).2 = runDesk r := by
  have reads := foldl_reads (r0 := r) (part := fun i => [(i, some (codesIn s c.inst d i))])
    (f := fun (a : List (Nat × Option (List Nat)) × Run) i => let x := tryRow c d i a.2; (a.1 ++ [(i, x.1)], x.2))
    rows (fun x i _ same => by
      obtain ⟨value, desk⟩ := tryRow_reads free plain.1 i x.2
      exact ⟨by simp only [value, codesIn_of_desk ((congrArg Prod.fst same).trans h) plain.1], desk.trans same⟩)
    ([], r) rfl
  rw [trySome, if_neg (by have := plain.2.1; omega)]
  exact ⟨by rw [reads.1, ← List.flatMap_def]; exact List.map_eq_flatMap.symm, reads.2⟩

theorem somePairs_at (rows : List Nat) :
    (somePairs c d rows r).1 = (rows.map fun i => (i, codesIn s c.inst d i, [])) ∧
      runDesk (somePairs c d rows r).2 = runDesk r := by
  obtain ⟨value, desk⟩ := trySome_at free plain h rows
  have none := scaleDesc_plain plain (trySome c d rows r).2.s
  simp only [somePairs, none, value]
  exact ⟨by simp [joinRow], desk⟩

theorem loadSome_at (rows : List Nat) :
    (loadSome c d rows r).1 = (rows.map fun i => (i, valsIn s c.inst d i)) ∧ runDesk (loadSome c d rows r).2 = runDesk r := by
  obtain ⟨value, desk⟩ := somePairs_at free plain h rows
  have scale := scaleExp_of_desk ((congrArg Prod.fst desk).trans h) d
  exact ⟨by simp [loadSome, value, scale, valsIn], desk⟩

theorem loadCodeRow_at (i : Nat) :
    (loadCodeRow c d i r).1 = (codesIn s c.inst d i, []) ∧ runDesk (loadCodeRow c d i r).2 = runDesk r := by
  obtain ⟨value, desk⟩ := somePairs_at free plain h [i]
  exact ⟨by simp [loadCodeRow, value, lookupD], desk⟩

end

theorem rowOfVals_map {l : List Nat} {i : Nat} (mem : i ∈ l) (f : Nat → List Val) :
    rowOfVals (l.map fun k => (k, f k)) i = f i := by
  induction l with
  | nil => exact nomatch mem
  | cons k l ih =>
    by_cases here : k = i
    · simp [rowOfVals, lookupD, here]
    · have later := ih ((List.mem_cons.1 mem).resolve_left (Ne.symm here))
      simpa [rowOfVals, lookupD, List.find?_cons, here] using later

/-! ## Effects beside the tensors -/

theorem departs_desk (c : Ctx) (ids : List Nat) (r : Run) : runDesk (departs c ids r) = runDesk r := by
  refine runDesk_mod (foldl_keeps deskOf _ (fun s id => ?_) ids r.s)
  unfold departBy
  split <;> rfl

theorem physEvents_of_free (free : c.ph = []) (r : Run) : physEvents c r = r := by simp [physEvents, free]

/-! ## Writes -/

section
variable (free : c.ph = [])
include free

theorem spoilRows_of_free (d : Desc) (rows : List OutRow) : spoilRows c d rows = rows := by
  simp [spoilRows, Ctx.spoils, spoiled, free]

theorem spoilRow_of_free (d : Desc) (i : Nat) (x : OutRow) : spoilRow c d i x = x := by
  simp [spoilRow, Ctx.spoils, spoiled, free]

variable (plain : PlainSp d) (h : (deskOf r.s).ctrl = (deskOf s).ctrl)
include plain h

theorem storeRows_at (g : GTag) (rows : List (List Nat)) :
    runDesk (storeRows c g d rows r) = (allWrites (coreIn s c.inst d) d rows).foldl putRun (runDesk r) := by
  rw [storeRows, if_neg (by have := plain.2.1; omega)]
  have puts := foldl_writes (f := fun r (x : List Nat × Nat) => storeRow c g d x.2 x.1 r)
    (w := fun x => (coreIn s c.inst d * 524288 + d.rowOff x.2, packCodes (widthOf d.fmt) x.1))
    (fun q x same => by rw [storeRow_desk free plain.1, coreIn_of_ctrl same]) rows.zipIdx r h
  rw [puts]
  simp [allWrites, rowWrites, Function.comp_def]

theorem storeSome_at (rows : List (Nat × List Nat)) :
    runDesk (storeSome c d rows r) = (rowWrites (coreIn s c.inst d) d rows).foldl putRun (runDesk r) := by
  rw [storeSome, if_neg (by have := plain.2.1; omega)]
  exact foldl_writes (fun q x same => by rw [storeRow_desk free plain.1, coreIn_of_ctrl same]) rows r h

/-- A tensor written and reported. -/
theorem writeRows_at (g : GTag) (id : Nat) (rows : List OutRow) :
    runDesk (writeRows c g d id rows r) = resultRun (rowsResult s c.inst d id rows) (runDesk r) := by
  have none := scaleDesc_plain plain (storeRows c g d (rows.map OutRow.codes) r).s
  simp only [writeRows, spoilRows_of_free free, none, runDesk_reportRows, storeRows_at free plain h]
  rfl

/-- Some of its rows written and reported. -/
theorem writeSome_at (id : Nat) (rows : List (Nat × OutRow)) :
    runDesk (writeSome c d id rows r) = resultRun (someResult s c.inst d id rows) (runDesk r) := by
  have same : (rows.map fun (p : Nat × OutRow) => (p.1, spoilRow c d p.1 p.2)) = rows := by simp [spoilRow_of_free free]
  have none (rows : List (Nat × List Nat)) := scaleDesc_plain plain (storeSome c d rows r).s
  simp only [writeSome, same, none, runDesk_reportRows, storeSome_at free plain h]
  rfl

/-- A tensor of raw bytes written. -/
theorem putTable_at (bs : List Byte) :
    runDesk (putTable c d bs r) = (tableWrites (coreIn s c.inst d) d bs).foldl putRun (runDesk r) :=
  storeRows_at free plain h _ _

theorem putDense_at (bs : List Byte) :
    runDesk (putDense c d bs r) = (tableWrites (coreIn s c.inst d) d bs).foldl putRun (runDesk r) := by
  simp only [putDense]
  rw [if_neg (by have := plain.2.1; omega)]
  exact storeRows_at free plain h _ _

end

end Sys2Proof.Machine
end

