-- ==== Sys2Proof/Proofs/DeskEffects.lean ====
section
/-! SUPPORT. EFFECT. Merging, histograms, compression, routing and the grouped forms over plain scratchpad tensors leave what the
statement's results say (07 R162 to R169; 08 R176, R188, R192). -/

namespace Sys2Proof.Machine
open Sys2Proof.Stmt

variable {s : State} {c : Ctx} {r : Run}

theorem ctrl_of_runDesk {q : Run} (desk : runDesk q = runDesk r) (h : deskOf r.s = deskOf s) :
    (deskOf q.s).ctrl = (deskOf s).ctrl := congrArg Desk.ctrl ((congrArg Prod.fst desk).trans h)

theorem desk_of_runDesk {q : Run} (desk : runDesk q = runDesk r) (h : deskOf r.s = deskOf s) : deskOf q.s = deskOf s :=
  (congrArg Prod.fst desk).trans h

/-- Rows that no tensor id reports are written alone. -/
theorem resultRun_untold (s : State) (own : Nat) (d : Desc) (rows : List OutRow) (b : RunDesk) :
    resultRun (rowsResult s own d 0xFFFF rows) b = (allWrites (coreIn s own d) d (rows.map (·.codes))).foldl putRun b := by
  simp [resultRun, rowsResult, tellRun]

theorem tellRun_ctrl (b : RunDesk) (x : Nat × Counts) : (tellRun b x).1.ctrl = b.1.ctrl := by
  unfold tellRun
  split <;> rfl

theorem foldl_putRun_ctrl (ws : List (Nat × List Byte)) (b : RunDesk) : (ws.foldl putRun b).1.ctrl = b.1.ctrl := by
  rw [foldl_putRun]

theorem resultRun_ctrl (w : Result) (b : RunDesk) : (resultRun w b).1.ctrl = b.1.ctrl :=
  (foldl_keeps (fun b : RunDesk => b.1.ctrl) _ tellRun_ctrl w.told _).trans (foldl_putRun_ctrl w.writes b)

theorem plainRows_codes (rows : List (List Nat)) : (plainRows rows).map (·.codes) = rows := by
  simp [plainRows, Function.comp_def]

/-! ## MERGE -/

/-- The present partials of row `i` of a `MERGE`, and the rows that it writes. -/
def mergeHere (a : Desc) (present : Nat → Bool) (i : Nat) : List Nat :=
  (List.range (mergeParts a)).filter fun p => present (p * mergeRows a + i)
def mergeWrites (a : Desc) (accum : Bool) (present : Nat → Bool) : List Nat :=
  (List.range (mergeRows a)).filter fun i => !accum || !(mergeHere a present i).isEmpty

/-- A `MERGE` whose mask is read. -/
def mergeRun (c : Ctx) (a d : Desc) (present : Nat → Bool) (r : Run) : Run :=
  let x := loadVals c a (departs c [c.e.descC] r)
  let write := mergeWrites a (c.e.subBit 0) present
  let y := if c.e.subBit 0 then loadSome c d write x.2 else ([], x.2)
  writeSome c d c.e.tensorId (write.map fun i =>
    (i, encodeRow d.fmt (scaleExp y.2.s d)
      ((mergeRow (if c.e.subBit 0 then some (rowOfVals y.1 i) else none)
        ((mergeHere a present i).map fun p => partRow a x.1 p i)).getD (List.replicate (d.dim 0) Val.zero)))) y.2

section
variable (free : c.ph = []) (live : c.voided = false) (h : deskOf r.s = deskOf s)
include free live

theorem mergeEff_eq (r : Run) :
    mergeEff c r =
      if c.e.descB = noDesc then mergeRun c (descOr r.s c.e.descA) (descOr r.s c.e.descC) (fun _ => true) r
      else
        let x := loadRows c (descOr r.s c.e.descB) r
        mergeRun c (descOr r.s c.e.descA) (descOr r.s c.e.descC) (fun k => nth x.1.flatten k == 1) x.2 := by
  rw [mergeEff, physEvents_of_free free]
  by_cases none : c.e.descB = noDesc
  · simp only [Ctx.voidPlain, Ctx.void0, live, Bool.false_and, Bool.false_eq_true, if_false, none, if_true, mergeRun,
      mergeWrites, mergeHere, List.map_map, Function.comp_def]
  · simp only [Ctx.voidPlain, Ctx.void0, live, Bool.false_and, Bool.false_eq_true, if_false, none, mergeRun, mergeWrites,
      mergeHere, List.map_map, Function.comp_def]

include h

omit live in
theorem mergeRun_at {a d : Desc} (plainA : PlainSp a) (plainC : PlainSp d) (present : Nat → Bool) :
    runDesk (mergeRun c a d present r) = resultRun (someResult s c.inst d c.e.tensorId
      ((mergeWrites a (c.e.subBit 0) present).map fun i => (i, encodeRow d.fmt (scaleExp s d)
        ((mergeRow (if c.e.subBit 0 then some (valsIn s c.inst d i) else none)
          ((mergeHere a present i).map fun p => partRow a (allVals s c.inst a) p i)).getD
            (List.replicate (d.dim 0) Val.zero))))) (runDesk r) := by
  have asked := departs_desk c [c.e.descC] r
  unfold mergeRun
  generalize departs c [c.e.descC] r = q at asked
  obtain ⟨parts, desk⟩ := loadVals_at free plainA (desk_of_runDesk asked h)
  have loaded := desk.trans asked
  generalize loadVals c a q = x at parts loaded
  dsimp only
  generalize before : (if c.e.subBit 0 then loadSome c d (mergeWrites a (c.e.subBit 0) present) x.2
    else (([] : List (Nat × List Val)), x.2)) = y
  have old : (∀ i ∈ mergeWrites a (c.e.subBit 0) present, (if c.e.subBit 0 then some (rowOfVals y.1 i) else none) =
      if c.e.subBit 0 then some (valsIn s c.inst d i) else none) ∧ runDesk y.2 = runDesk r := by
    rw [← before]
    split
    · obtain ⟨rows, desk⟩ := loadSome_at free plainC (desk_of_runDesk loaded h) (mergeWrites a (c.e.subBit 0) present)
      exact ⟨fun i mem => by rw [rows, rowOfVals_map mem], desk.trans loaded⟩
    · exact ⟨fun _ _ => rfl, loaded⟩
  obtain ⟨start, olden⟩ := old
  rw [writeSome_at free plainC (ctrl_of_runDesk olden h), olden, scaleExp_of_desk (desk_of_runDesk olden h), parts]
  congr 2
  exact List.map_congr_left fun i mem => by rw [start i mem]

/-- A `MERGE` leaves the sums of the present partials. -/
theorem mergeEff_at (plainA : PlainSp (descOr s c.e.descA)) (plainC : PlainSp (descOr s c.e.descC))
    (plainB : c.e.descB ≠ noDesc → PlainSp (descOr s c.e.descB)) :
    runDesk (mergeEff c r) = resultRun (mergeIn s c.inst c.e) (runDesk r) := by
  rw [mergeEff_eq free live]
  simp only [descOr_of_desk h]
  split
  · next none =>
    rw [mergeRun_at free h plainA plainC]
    simp [mergeIn, none, mergeWrites, mergeHere]
  · next some =>
    obtain ⟨mask, desk⟩ := loadRows_at free (plainB some) h
    rw [mergeRun_at free (desk_of_runDesk desk h) plainA plainC, desk, mask]
    have off : (c.e.descB == noDesc) = false := beq_eq_false_iff_ne.2 some
    simp [mergeIn, off, mergeWrites, mergeHere, flatCodes]

/-! ## HISTOGRAM -/

/-- A `HISTOGRAM` leaves the counts of the bins, and the ranks where it has them. -/
theorem histEff_at (plainA : PlainSp (descOr s c.e.descA)) (plainC : PlainSp (descOr s c.e.descC))
    (plainD : c.e.descD ≠ noDesc → PlainSp (descOr s c.e.descD)) :
    runDesk (histEff c r) = resultRun (histIn s c.inst c.e) (runDesk r) := by
  rw [histEff, physEvents_of_free free]
  simp only [descOr_of_desk h, Ctx.voidPlain, Ctx.void0, live, Bool.false_and, Bool.false_eq_true, if_false, behind_of_free free]
  generalize entryTag c r.s = g
  generalize [c.e.descC] ++ _ = ids
  have asked := departs_desk c ids r
  generalize departs c ids r = q at asked
  obtain ⟨indices, desk1⟩ := loadIndices_at free plainA (desk_of_runDesk asked h) (descOr s c.e.descC).count
  rw [descOr_of_desk (desk_of_runDesk asked h), indices]
  generalize loadIndices c (descOr s c.e.descA) q = x at desk1
  have counted : runDesk (x.2.mod (countIndices c (classesIn s c.inst (descOr s c.e.descA) (descOr s c.e.descC).count))) =
      runDesk r := (runDesk_mod (deskOf_countIndices c _ x.2.s)).trans (desk1.trans asked)
  generalize x.2.mod (countIndices c (classesIn s c.inst (descOr s c.e.descA) (descOr s c.e.descC).count)) = p at counted
  generalize before : (if c.e.subBit 1 then _ else _) = y
  have old : y.1 = (if c.e.subBit 1 then flatCodes s c.inst (descOr s c.e.descC) else List.replicate (descOr s c.e.descC).count 0) ∧
      runDesk y.2 = runDesk r := by
    rw [← before]
    split
    · obtain ⟨rows, desk⟩ := loadRows_at free plainC (desk_of_runDesk counted h)
      exact ⟨congrArg List.flatten rows, desk.trans counted⟩
    · exact ⟨rfl, counted⟩
  obtain ⟨start, desk⟩ := old
  rw [start]
  have bins := writeRows_at free plainC (ctrl_of_runDesk desk h) g 0xFFFF
  simp only [resultRun_untold, desk] at bins
  by_cases ranks : c.e.descD = noDesc
  · simp only [ranks, bne_self_eq_false, Bool.false_eq_true, if_false, bins, plainRows_codes, histIn, if_true, List.append_nil]
    rfl
  · simp only [bne_iff_ne.2 ranks, if_true]
    rw [writeRows_at (s := s) free (plainD ranks) ?_, resultRun_untold, bins]
    · simp only [plainRows_codes, histIn, ranks, if_false, resultRun, List.foldl_append, List.foldl_nil]
    · refine (congrArg (fun b => b.1.ctrl) (bins _)).trans ((foldl_putRun_ctrl _ _).trans ?_)
      exact congrArg Desk.ctrl h

end

end Sys2Proof.Machine
end

