-- ==== Sys2Proof/Proofs/DeskStreams.lean ====
section
/-! SUPPORT. EFFECT. Compressed streams of the scratchpads (07 R164 to R169). -/

namespace Sys2Proof.Machine
open Sys2Proof.Stmt

variable {s : State} {c : Ctx} {r : Run}

theorem deskOf_countTile (c : Ctx) (form : Nat) (s : State) : deskOf (countTile c form s) = deskOf s := by
  have apart : Reg.tiles c.inst % 0x10000 ≠ 16 := off_blkCtrl .jnc c.inst (by decide) (by decide)
  simp only [countTile, ite_deskOf, deskOf_incMod _ apart, ite_self]

theorem deskOf_unitLog (c : Ctx) (unit kind detail : Nat) (s : State) : deskOf (unitLog c unit kind detail s) = deskOf s := by
  have jnc : Reg.jncFaultLog c.inst % 0x10000 ≠ 16 := off_blkCtrl .jnc c.inst (by decide) (by decide)
  have mov : Reg.movFaultLog c.inst % 0x10000 ≠ 16 := off_blkCtrl .mov c.inst (by decide) (by decide)
  have apart : (if c.kind = 1 then Reg.jncFaultLog c.inst else Reg.movFaultLog c.inst) % 0x10000 ≠ 16 := by
    split <;> assumption
  simp only [unitLog, ite_deskOf, deskOf_rset _ apart, ite_self]

theorem runDesk_raiseTile (e : Evt) (tile : e.code = 0x0702) (r : Run) : runDesk (r.raise e) = runDesk r := by
  unfold Run.raise
  split
  · rfl
  · simp [runDesk, otherEvents, List.filter_append, tile]

/-- A tile has a line at least. -/
theorem lines_pos_of_header {f k h : Nat} (ok : tileHeaderOk f k h = true) : 0 < bits h 38 32 := by
  obtain ⟨-, lines⟩ := Bool.and_eq_true_iff.1 ok
  rw [beq_iff_eq.1 lines, formLines, ceilDiv]
  omega

section
variable (free : c.ph = []) (h : deskOf r.s = deskOf s)
include free h

/-- A tile of a stream as the scratchpad holds it, zero codes where it fails a check. -/
theorem decompressTile_at {a : Desc} (place : a.place = 1) (f k : Nat) :
    (decompressTile c a f k r).1 = tileIn s c.inst a f k ∧ runDesk (decompressTile c a f k r).2 = runDesk r := by
  have read (q : Run) (same : runDesk q = runDesk r) (off n : Nat) :
      (getBytes c a off n q).1 = memRead s.sp (coreIn s c.inst a * 524288 + off) n ∧
        runDesk (getBytes c a off n q).2 = runDesk r := by
    have desk := desk_of_runDesk same h
    refine ⟨?_, (getBytes_desk free place off n q).trans same⟩
    rw [getBytes_value free place, coreIn_of_desk desk, show q.s.sp = s.sp from congrArg Desk.sp desk]
  obtain ⟨header, desk⟩ := read r rfl (a.offset + 4160 * k) 64
  simp only [decompressTile, tileIn]
  generalize getBytes c a (a.offset + 4160 * k) 64 r = x at header desk
  rw [header]
  generalize leAt (memRead s.sp (coreIn s c.inst a * 524288 + (a.offset + 4160 * k)) 64) 0 8 = hd
  have bad (q : Run) (same : runDesk q = runDesk r) : runDesk ((q.mod (unitLog c 4 2 (k % 2 ^ 16))).raise
      { code := 0x0702, ty := .jnc, inst := c.inst, detail := k % 2 ^ 16 }) = runDesk r :=
    (runDesk_raiseTile _ rfl _).trans ((runDesk_mod (deskOf_unitLog c _ _ _ q.s)).trans same)
  by_cases ok : tileHeaderOk f k hd = true
  · have lines := lines_pos_of_header ok
    obtain ⟨rest, desk2⟩ := read x.2 desk (a.offset + 4160 * k + 64) (64 * (bits hd 38 32 - 1))
    generalize getBytes c a (a.offset + 4160 * k + 64) (64 * (bits hd 38 32 - 1)) x.2 = y at rest desk2
    have whole : memRead s.sp (coreIn s c.inst a * 524288 + (a.offset + 4160 * k)) 64 ++ y.1 =
        memRead s.sp (coreIn s c.inst a * 524288 + (a.offset + 4160 * k)) (64 * bits hd 38 32) := by
      rw [rest, show 64 * bits hd 38 32 = 64 + 64 * (bits hd 38 32 - 1) by omega, memRead_append, Nat.add_assoc (_ * 524288)]
    simp only [ok, if_true, whole]
    cases decodeTile f hd
        ((memRead s.sp (coreIn s c.inst a * 524288 + (a.offset + 4160 * k)) (64 * bits hd 38 32)).drop 8) with
    | some codes => exact ⟨rfl, desk2⟩
    | none => exact ⟨rfl, bad y.2 desk2⟩
  · simp only [ok, Bool.false_eq_true, if_false]
    exact ⟨rfl, bad x.2 desk⟩

variable (live : c.voided = false)
include live

/-- A `COMPRESS` leaves each tile at its slot of the stream. -/
theorem compressEff_at (plainA : PlainSp (descOr s c.e.descA)) (place : (descOr s c.e.descC).place = 1) :
    runDesk (compressEff c r) = resultRun (compressIn s c.inst c.e) (runDesk r) := by
  rw [compressEff, physEvents_of_free free]
  simp only [descOr_of_desk h, Ctx.voidPlain, Ctx.void0, live, Bool.false_and, Bool.false_eq_true, if_false, spoil_of_free free]
  obtain ⟨bytes, desk⟩ := denseBytes_at free plainA h
  have asked := (departs_desk c [c.e.descC] (denseBytes c (descOr s c.e.descA) r).2).trans desk
  have puts := foldl_writes (ctrl := (deskOf s).ctrl)
    (f := fun r (t : List Byte × Nat) => (putBytes c (entryTag c r.s) (descOr s c.e.descC) ((descOr s c.e.descC).offset + 4160 * t.2)
      (compressTile (descOr s c.e.descA).fmt t.2 t.1).2 r).mod (countTile c (compressTile (descOr s c.e.descA).fmt t.2 t.1).1))
    (w := fun t => (coreIn s c.inst (descOr s c.e.descC) * 524288 + ((descOr s c.e.descC).offset + 4160 * t.2),
      (compressTile (descOr s c.e.descA).fmt t.2 t.1).2))
    (fun q t same => by rw [runDesk_mod (deskOf_countTile c _ _), putBytes_desk free place, coreIn_of_ctrl same])
  rw [bytes, puts _ _ (ctrl_of_runDesk asked h), asked]
  simp [resultRun, compressIn, List.zipIdx_map, Function.comp_def]

/-- A `DECOMPRESS` leaves the bytes of the tiles. -/
theorem decompressEff_at (place : (descOr s c.e.descA).place = 1) (plainC : PlainSp (descOr s c.e.descC)) :
    runDesk (decompressEff c r) = resultRun { writes := (tableWrites (coreIn s c.inst (descOr s c.e.descC)) (descOr s c.e.descC)
      ((List.range (ceilDiv (plainBytes (descOr s c.e.descC)) 4096)).map
        (tileIn s c.inst (descOr s c.e.descA) (descOr s c.e.descC).fmt)).flatten) } (runDesk r) := by
  rw [decompressEff, physEvents_of_free free]
  simp only [descOr_of_desk h, Ctx.voidPlain, Ctx.void0, live, Bool.false_and, Bool.false_eq_true, if_false]
  obtain ⟨bytes, desk⟩ := foldl_reads (r0 := r) (part := tileIn s c.inst (descOr s c.e.descA) (descOr s c.e.descC).fmt)
    (f := fun (acc : List Byte × Run) k =>
      let y := decompressTile c (descOr s c.e.descA) (descOr s c.e.descC).fmt k acc.2
      (acc.1 ++ y.1, y.2))
    (List.range (ceilDiv (plainBytes (descOr s c.e.descC)) 4096)) (fun x k _ same => by
      obtain ⟨value, stays⟩ := decompressTile_at free (desk_of_runDesk same h) place (descOr s c.e.descC).fmt k
      exact ⟨by simp only [value], stays.trans same⟩)
    ([], r) rfl
  have asked := (departs_desk c [c.e.descC] _).trans desk
  rw [putDense_at free plainC (ctrl_of_runDesk asked h), asked, bytes]
  rfl

end

end Sys2Proof.Machine
end

