-- ==== Sys2Proof/Proofs/DeskRouting.lean ====
section
/-! SUPPORT. EFFECT. `ROUTE`, the merging `COMBINE` and the five forms of `GROUPED` over plain scratchpad tensors (08 R176, R188,
R192). -/

namespace Sys2Proof.Machine
open Sys2Proof.Stmt

variable {s t : State} {c : Ctx} {r : Run}

/-- A tell and a put of a desk in either order. -/
theorem putRun_tellRun (b : RunDesk) (x : Nat × Counts) (w : Nat × List Byte) :
    putRun (tellRun b x) w = tellRun (putRun b w) x := by
  unfold tellRun
  split
  · rfl
  · rfl

theorem putRun_foldl_tellRun (told : List (Nat × Counts)) (b : RunDesk) (w : Nat × List Byte) :
    putRun (told.foldl tellRun b) w = told.foldl tellRun (putRun b w) := by
  induction told generalizing b with
  | nil => rfl
  | cons x told ih => rw [List.foldl_cons, ih, putRun_tellRun, List.foldl_cons]

/-- More byte runs after a result. -/
theorem resultRun_more (w : Result) (ws : List (Nat × List Byte)) (b : RunDesk) :
    resultRun { w with writes := w.writes ++ ws } b = ws.foldl putRun (resultRun w b) := by
  induction ws generalizing w with
  | nil => simp
  | cons v ws ih =>
    have step := ih { w with writes := w.writes ++ [v] }
    simp only [List.append_assoc, List.singleton_append] at step
    rw [step, List.foldl_cons]
    congr 1
    simp only [resultRun, List.foldl_append, List.foldl_cons, List.foldl_nil, putRun_foldl_tellRun]

theorem mergeChoices_of_desk (same : deskOf t = deskOf s) (tbl : List Byte) (k cap g p : Nat) :
    mergeChoices t tbl k cap g p = mergeChoices s tbl k cap g p := by
  have mask : t.step.maskA = s.step.maskA := congrArg Desk.mask same
  simp only [mergeChoices, mask]

/-- The answers that the tokens of a `COMBINE` take. -/
def answersIn (s : State) (own : Nat) (e : Entry) : List (List (F32 × Nat)) :=
  (flatCodes s own (descOr s e.descD)).zipIdx.map fun x =>
    mergeChoices s (allBytes s own (descOr s e.descB)) e.topk e.capacity x.1 x.2

/-- The sum of the answers of a token is that of the rows as the scratchpad holds them. -/
theorem mergeToken_eq {ret : List (Nat × List Val)} {value : Nat → List Val} {xs : List (F32 × Nat)}
    (known : ∀ x ∈ xs, rowOfVals ret x.2 = value x.2) (acc : List Val) :
    mergeToken ret acc xs = xs.foldl (fun acc x => addRow acc ((value x.2).map (rMul (f32 x.1)))) acc := by
  induction xs generalizing acc with
  | nil => rfl
  | cons x xs ih =>
    obtain ⟨first, rest⟩ := List.forall_mem_cons.1 known
    have later := ih rest
    rw [mergeToken, List.foldl_cons, List.foldl_cons, first]
    exact later _

section
variable (free : c.ph = []) (live : c.voided = false) (h : deskOf r.s = deskOf s)
include free live h

/-! ## ROUTE -/

/-- A `ROUTE` leaves the route table and the loads. -/
theorem routeEff_at (plainA : PlainSp (descOr s c.e.descA)) (plainB : PlainSp (descOr s c.e.descB))
    (plainC : PlainSp (descOr s c.e.descC)) (plainD : PlainSp (descOr s c.e.descD)) :
    runDesk (routeEff c r) = resultRun (routeIn s c.inst c.e) (runDesk r) := by
  have apart : Reg.routeOverflow c.inst % 0x10000 ≠ 16 := off_blkCtrl .jnc c.inst (by decide) (by decide)
  rw [routeEff, physEvents_of_free free]
  simp only [descOr_of_desk h, live, Bool.false_eq_true, if_false, behind_of_free free]
  have asked := departs_desk c [c.e.descC, c.e.descD] r
  generalize departs c [c.e.descC, c.e.descD] r = q at asked
  rw [descOr_of_desk (desk_of_runDesk asked h)]
  obtain ⟨rows, desk1⟩ := loadVals_at free plainA (desk_of_runDesk asked h)
  have loaded := desk1.trans asked
  generalize loadVals c (descOr s c.e.descA) q = x at rows loaded
  rw [descOr_of_desk (desk_of_runDesk asked h)]
  obtain ⟨groups, desk2⟩ := loadFlat_at free plainB (desk_of_runDesk loaded h)
  have read := desk2.trans loaded
  generalize loadFlat c (descOr s c.e.descB) x.2 = g at groups read
  rw [rows, groups]
  generalize choices : routeAll c.e.capacity c.e.topk (c.e.subBit 0) (allVals s c.inst (descOr s c.e.descA))
    (flatCodes s c.inst (descOr s c.e.descB)) c.e.experts = y
  have counted (n : Nat) : runDesk (g.2.mod fun s =>
      let s := incMod { s with step := { s.step with overflow := s.step.overflow + n } } (Reg.routeOverflow c.inst) 47 0 n
      if n = 0 then s else alert 0x0801 s) = runDesk r := by
    refine (runDesk_mod ?_).trans read
    simp only [ite_deskOf, deskOf_alert, deskOf_incMod _ apart, ite_self]
    rfl
  have full := counted (y.1.foldl (fun n l => n + l.2) 0)
  generalize g.2.mod _ = p at full
  have table := putTable_at free plainC (ctrl_of_runDesk full h) y.2
  have still := (congrArg (fun b => b.1.ctrl) table).trans (foldl_putRun_ctrl _ _)
  rw [putTable_at (s := s) free plainD (still.trans (ctrl_of_runDesk full h)), table, full]
  simp only [routeIn, resultRun, choices, List.foldl_append, List.foldl_nil]

/-! ## COMBINE -/

/-- A `COMBINE` without `RETURN` leaves the sum of each token's answers. -/
theorem combineEff_at (plainA : PlainSp (descOr s c.e.descA)) (plainB : PlainSp (descOr s c.e.descB))
    (plainC : PlainSp (descOr s c.e.descC)) (plainD : PlainSp (descOr s c.e.descD)) :
    runDesk (combineEff c r) = resultRun (combineIn s c.inst c.e) (runDesk r) := by
  rw [combineEff, physEvents_of_free free]
  simp only [descOr_of_desk h, live, Bool.false_eq_true, if_false]
  have asked := departs_desk c [c.e.descC] r
  generalize departs c [c.e.descC] r = q at asked
  simp only [descOr_of_desk (desk_of_runDesk asked h)]
  obtain ⟨table, desk1⟩ := denseBytes_at free plainB (desk_of_runDesk asked h)
  have tabled := desk1.trans asked
  generalize denseBytes c (descOr s c.e.descB) q = t at table tabled
  obtain ⟨groups, desk2⟩ := loadFlat_at free plainD (desk_of_runDesk tabled h)
  have grouped := desk2.trans tabled
  generalize loadFlat c (descOr s c.e.descD) t.2 = g at groups grouped
  simp only [table, groups, mergeChoices_of_desk (desk_of_runDesk grouped h)]
  rw [← answersIn]
  generalize named : (((answersIn s c.inst c.e).map fun xs => xs.map fun x => x.2).flatten).eraseDups = rows
  obtain ⟨answers, desk3⟩ := loadSome_at free plainA (desk_of_runDesk grouped h) rows
  have answered := desk3.trans grouped
  generalize loadSome c (descOr s c.e.descA) rows g.2 = ret at answers answered
  generalize before : (if c.e.subBit 1 then loadVals c (descOr s c.e.descC) ret.2 else _) = old
  have start : (∀ p, (if c.e.subBit 1 then old.1.getD p [] else List.replicate ((descOr s c.e.descC).dim 0) Val.zero) =
      if c.e.subBit 1 then (if p < (descOr s c.e.descC).rows then valsIn s c.inst (descOr s c.e.descC) p else [])
      else List.replicate ((descOr s c.e.descC).dim 0) Val.zero) ∧ runDesk old.2 = runDesk r := by
    rw [← before]
    split
    · obtain ⟨rows, desk⟩ := loadVals_at free plainC (desk_of_runDesk answered h)
      refine ⟨fun p => ?_, desk.trans answered⟩
      rw [rows]
      by_cases inside : p < (descOr s c.e.descC).rows <;> simp [allVals, inside]
    · exact ⟨fun _ => rfl, answered⟩
  obtain ⟨started, desk⟩ := start
  rw [writeRows_at free plainC (ctrl_of_runDesk desk h), desk, scaleExp_of_desk (desk_of_runDesk desk h)]
  have sums (xs : List (F32 × Nat)) (mem : xs ∈ answersIn s c.inst c.e) := mergeToken_eq (ret := ret.1) (xs := xs)
    (value := valsIn s c.inst (descOr s c.e.descA)) (fun x here => by
      rw [answers, rowOfVals_map]
      rw [← named, List.mem_eraseDups]
      exact List.mem_flatten.2 ⟨_, List.mem_map_of_mem mem, List.mem_map_of_mem here⟩)
  simp only [started]
  rw [combineIn]
  congr 2
  refine List.ext_getElem? fun p => ?_
  have token : (answersIn s c.inst c.e)[p]? = (flatCodes s c.inst (descOr s c.e.descD))[p]?.map fun g =>
      mergeChoices s (allBytes s c.inst (descOr s c.e.descB)) c.e.topk c.e.capacity g p := by
    simp [answersIn, Function.comp_def]
  simp only [List.getElem?_map, List.getElem?_mapIdx, token]
  cases group : (flatCodes s c.inst (descOr s c.e.descD))[p]? with
  | none => rfl
  | some g =>
    rw [group, Option.map_some] at token
    simp only [Option.map_some, sums _ (List.mem_of_getElem? token)]

end

end Sys2Proof.Machine
end

