-- ==== Sys2Proof/Proofs/DeskGroups.lean ====
section
/-! SUPPORT. EFFECT. The five forms of `GROUPED` over plain scratchpad tensors (08 R192). -/

namespace Sys2Proof.Machine
open Sys2Proof.Stmt

variable {s t : State} {c : Ctx} {r : Run}

theorem microOf_of_desk (same : deskOf t = deskOf s) (c : Ctx) : microOf c t = microOf c s := by
  have ws : t.step.ws = s.step.ws := congrArg Desk.ws same
  simp only [microOf, ws]

theorem rangesOf_of_desk (same : deskOf t = deskOf s) (c : Ctx) : rangesOf c t = rangesOf c s := by
  have ws : t.step.ws = s.step.ws := congrArg Desk.ws same
  simp only [rangesOf, ws, microOf_of_desk same]

theorem runDesk_countExcess (c : Ctx) (padded : Bool) (n : Nat) (r : Run) :
    runDesk (r.mod (countExcess c padded n)) = runDesk r := runDesk_mod (deskOf_countIndices c _ r.s)

/-! ## Ranges copied -/

/-- One row of a copy of ranges: of the source, or zero (08 R192). -/
def copyStep (c : Ctx) (a d : Desc) (gs : List GroupRange) (padded : Bool) (acc : List OutRow × Run) (row : Nat) :
    List OutRow × Run :=
  match coverOf gs padded row with
  | some g =>
    let y := groupedRow c a d (rangeAt (!padded) g + (row - rangeAt padded g)) acc.2
    (acc.1 ++ [y.1], y.2)
  | none => (acc.1 ++ [zeroRow d.fmt (d.dim 0)], acc.2)

theorem copyRanges_eq (c : Ctx) (a d : Desc) (padded : Bool) (r : Run) :
    copyRanges c a d padded r =
      let x := (List.range d.rows).foldl (copyStep c a d (rangesOf c r.s) padded) ([], r)
      writeRows c {} d c.e.tensorId x.1 x.2 := rfl

/-- That row, as the scratchpad holds the source. -/
def coverRow (s : State) (c : Ctx) (padded : Bool) (row : Nat) : OutRow :=
  (coverOf (rangesOf c s) padded row).elim (zeroRow (descOr s c.e.descC).fmt ((descOr s c.e.descC).dim 0)) fun g =>
    copyRow (descOr s c.e.descC).fmt (scaleExp s (descOr s c.e.descC)) []
      (codesIn s c.inst (descOr s c.e.descA) (rangeAt (!padded) g + (row - rangeAt padded g)))

theorem rangesIn_eq (s : State) (c : Ctx) (padded : Bool) :
    rangesIn s c padded = (List.range (descOr s c.e.descC).rows).map (coverRow s c padded) := by
  refine List.map_congr_left fun row _ => ?_
  unfold coverRow
  cases coverOf (rangesOf c s) padded row <;> rfl

section
variable (free : c.ph = []) (live : c.voided = false) (h : deskOf r.s = deskOf s)
include free h

theorem copyStep_at {padded : Bool} (plainA : PlainSp (descOr s c.e.descA)) (sources : SourceRows s c padded)
    (x : List OutRow × Run) {row : Nat} (inside : row < (descOr s c.e.descC).rows) (same : runDesk x.2 = runDesk r) :
    (copyStep c (descOr s c.e.descA) (descOr s c.e.descC) (rangesOf c s) padded x row).1 = x.1 ++ [coverRow s c padded row] ∧
      runDesk (copyStep c (descOr s c.e.descA) (descOr s c.e.descC) (rangesOf c s) padded x row).2 = runDesk r := by
  unfold copyStep coverRow
  cases cover : coverOf (rangesOf c s) padded row with
  | none => exact ⟨rfl, same⟩
  | some g =>
    obtain ⟨codes, desk⟩ := loadCodeRow_at free plainA (desk_of_runDesk same h) (rangeAt (!padded) g + (row - rangeAt padded g))
    have read := desk.trans same
    simp only [groupedRow, if_pos (sources row g inside cover), codes, scaleExp_of_desk (desk_of_runDesk read h)]
    exact ⟨rfl, read⟩

/-- Ranges copied between the layouts. -/
theorem copyRanges_at {padded : Bool} (plainA : PlainSp (descOr s c.e.descA)) (plainC : PlainSp (descOr s c.e.descC))
    (sources : SourceRows s c padded) :
    runDesk (copyRanges c (descOr s c.e.descA) (descOr s c.e.descC) padded r) =
      resultRun (rowsResult s c.inst (descOr s c.e.descC) c.e.tensorId (rangesIn s c padded)) (runDesk r) := by
  obtain ⟨rows, desk⟩ := foldl_reads (r0 := r) (part := fun row => [coverRow s c padded row])
    (List.range (descOr s c.e.descC).rows)
    (fun x row mem same => copyStep_at free h plainA sources x (List.mem_range.1 mem) same) ([], r) rfl
  rw [copyRanges_eq, rangesOf_of_desk h]
  dsimp only
  rw [writeRows_at free plainC (ctrl_of_runDesk desk h), desk, rows, rangesIn_eq, List.nil_append, ← List.flatMap_def,
    List.map_eq_flatMap]

include live

/-! ## The forms -/

/-- `IDS` and `IDS_PADDED` leave the group of each row. -/
theorem idsEff_at (padded : Bool) (plainC : PlainSp (descOr s c.e.descC)) :
    runDesk (idsEff padded c r) = resultRun { writes := (allWrites (coreIn s c.inst (descOr s c.e.descC)) (descOr s c.e.descC)
      (rowsOf ((descOr s c.e.descC).dim 0) ((List.range (descOr s c.e.descC).count).map fun row =>
        (coverOf (rangesOf c s) padded row).elim 0xFFFF (·.group)))) } (runDesk r) := by
  rw [idsEff, physEvents_of_free free]
  simp only [descOr_of_desk h, rangesOf_of_desk h, live, Bool.false_eq_true, if_false]
  have counted := runDesk_countExcess c padded (descOr s c.e.descC).count r
  rw [storeRows_at free plainC (ctrl_of_runDesk counted h), counted]
  refine congrArg (fun ids => (allWrites (coreIn s c.inst (descOr s c.e.descC)) (descOr s c.e.descC)
    (rowsOf ((descOr s c.e.descC).dim 0) ids)).foldl putRun (runDesk r)) (List.map_congr_left fun row _ => ?_)
  cases coverOf (rangesOf c s) padded row <;> rfl

/-- `LENMASK` leaves the mask lines of the rows below the length. -/
theorem lenmaskEff_at (plainC : PlainSp (descOr s c.e.descC)) :
    runDesk (lenmaskEff c r) = resultRun { writes := (tableWrites (coreIn s c.inst (descOr s c.e.descC)) (descOr s c.e.descC)
      (maskBytesOf (maskRows c.e) (maskLines (descOr s c.e.descC)) fun row => decide (row < (microOf c s).length))) }
        (runDesk r) := by
  rw [lenmaskEff, physEvents_of_free free]
  simp only [descOr_of_desk h, microOf_of_desk h, live, Bool.false_eq_true, if_false]
  have counted := runDesk_countExcess c false (maskLines (descOr s c.e.descC) * maskRows c.e) r
  rw [putTable_at free plainC (ctrl_of_runDesk counted h), counted]
  rfl

/-- `UNPACK` leaves the packed rows. -/
theorem unpackEff_at (plainA : PlainSp (descOr s c.e.descA)) (plainC : PlainSp (descOr s c.e.descC))
    (sources : SourceRows s c false) :
    runDesk (unpackEff c r) =
      resultRun (rowsResult s c.inst (descOr s c.e.descC) c.e.tensorId (rangesIn s c false)) (runDesk r) := by
  rw [unpackEff, physEvents_of_free free]
  simp only [descOr_of_desk h, live, Bool.false_eq_true, if_false]
  have counted := runDesk_countExcess c false (descOr s c.e.descC).rows r
  rw [copyRanges_at free (desk_of_runDesk counted h) plainA plainC sources, counted]

/-- `PACK` leaves the padded rows, and the mask lines of those that are covered where it has a mask. -/
theorem packEff_at (plainA : PlainSp (descOr s c.e.descA)) (plainC : PlainSp (descOr s c.e.descC))
    (plainD : c.e.descD ≠ noDesc → PlainSp (descOr s c.e.descD)) (sources : SourceRows s c true) (form : c.e.subop % 8 = 0) :
    runDesk (packEff c r) = resultRun (groupedIn s c) (runDesk r) := by
  rw [packEff, physEvents_of_free free]
  simp only [descOr_of_desk h, rangesOf_of_desk h, live, Bool.false_eq_true, if_false, behind_of_free free]
  have counted := runDesk_countExcess c true (descOr s c.e.descC).rows r
  have copied := copyRanges_at free (desk_of_runDesk counted h) plainA plainC sources
  rw [counted] at copied
  by_cases masked : c.e.descD = noDesc
  · simp only [masked, bne_self_eq_false, Bool.false_eq_true, if_false, copied, groupedIn, form, if_true]
  · simp only [bne_iff_ne.2 masked, if_true, groupedIn, form, masked, if_false]
    have still := (congrArg (fun b => b.1.ctrl) copied).trans (resultRun_ctrl _ _)
    rw [putTable_at (s := s) free (plainD masked) (still.trans (congrArg Desk.ctrl h)), copied, resultRun_more]

end

end Sys2Proof.Machine
end

