-- ==== Sys2Proof/Proofs/DeskSettle.lean ====
section
/-! SUPPORT. ISSUE. An entry whose effect leaves a result on the desk of its run leaves it in the state: the part of O18 on the
results of the Junction, of routing and of the grouped forms. -/

namespace Sys2Proof.Machine
open Sys2Proof.Stmt

variable {s t : State} {st : Nat}

/-! ## What the end of a run keeps -/

/-- What the results of an entry are in, and whether its step runs and it is in flight. -/
def outcome (st : Nat) (s : State) : Mem × Cells Counts × Bool × Bool × Option (List Nat) :=
  (s.sp, s.census.counts, s.step.nonfinite, s.step.active, (streamAt s st).map fun x => x.inflight.map (·.idx))

@[simp] theorem ite_outcome (p : Prop) [Decidable p] (s t : State) :
    outcome st (if p then s else t) = if p then outcome st s else outcome st t := apply_ite (outcome st) p s t

theorem outcome_rset (s : State) (a : Nat) (w : W64) : outcome st (rset s a w) = outcome st s := by
  simp [outcome, streamAt]

theorem outcome_pageRecord (ty : Blk) (r : FaultRec) (s : State) : outcome st (pageRecord ty r s) = outcome st s := by
  have logged : outcome st ((List.range 4).foldl (fun s i => rset s (Reg.errLog ty r.inst i) (recWord r i)) s) = outcome st s :=
    foldl_keeps (outcome st) _ (fun s i => outcome_rset s _ _) _ s
  unfold pageRecord
  generalize (List.range 4).foldl (fun s i => rset s (Reg.errLog ty r.inst i) (recWord r i)) s = u at logged ⊢
  have raised (s : State) : outcome st (setInt ty r.inst 0 s) = outcome st s := by simp [outcome, streamAt]
  have counted (s : State) : outcome st (errCount ty r.inst 1 s) = outcome st s := outcome_rset s _ _
  simp only [raised, ite_outcome, counted, ite_self, logged]

theorem outcome_modFlight {g : Flight → Flight} (same : ∀ f, (g f).idx = f.idx) (idx : Nat) (s : State) :
    outcome st (modFlight st idx g s) = outcome st s := by
  cases found : streamAt s st with
  | none => rw [modFlight_eq, modStream, found]
  | some x =>
    have indices : ((x.mapFlights idx g).inflight.map (·.idx)) = x.inflight.map (·.idx) := by
      simp only [Stream.mapFlights, List.map_map]
      refine List.map_congr_left fun f _ => ?_
      simp only [Function.comp, apply_ite Flight.idx, same, ite_self]
    rw [modFlight_of_streamAt found]
    simp only [outcome, streamAt_setStream_same found, found, Option.map_some, indices]
    rfl

theorem outcome_noteUpdate (i idx : Nat) (e : Entry) (s : State) : outcome st (noteUpdate i idx e s) = outcome st s := by
  unfold noteUpdate
  split
  · split <;> rfl
  · rfl

theorem inFlight_of_outcome (same : outcome st t = outcome st s) (idx : Nat) : inFlight t st idx = inFlight s st idx := by
  have shown (u : State) : inFlight u st idx =
      ((streamAt u st).map fun x => x.inflight.map (·.idx)).any fun l => l.any (· == idx) := by
    unfold inFlight
    cases streamAt u st with
    | none => rfl
    | some x => simp [Function.comp_def]
  rw [shown, shown]
  exact congrArg (fun x => x.2.2.2.2.any fun l => l.any (· == idx)) same

theorem outcome_dropNow (c : Confined) (i entry : Nat) (slot : Option Nat) (s : State) :
    outcome st (dropNow c i entry slot s) = outcome st s := by
  have added (r : FaultRec) (u : State) : outcome st (addConfined r u) = outcome st u := rfl
  rw [dropNow, added, outcome_pageRecord]

/-- An event of a tile, of an entry in flight in a running step, is recorded and changes no result (07 R169). -/
theorem outcome_raiseTile {idx : Nat} {tagged : Bool} {e : Evt} (tile : e.code = 0x0702) (runs : s.step.active = true)
    (here : inFlight s st idx = true) : outcome st (raiseEntry st idx tagged s e) = outcome st s := by
  have first : completesFirst e.code = true := by rw [tile]; decide
  unfold raiseEntry
  split
  · rw [confineEntry, if_pos runs]
    refine (outcome_modFlight ?_ idx _).trans (outcome_dropNow _ _ _ _ s)
    exact fun _ => rfl
  · dsimp only
    rw [first, runs, here, Bool.and_self, Bool.and_self, if_pos rfl]
    refine (outcome_modFlight ?_ idx _).trans (outcome_pageRecord _ _ s)
    exact fun _ => rfl

theorem outcome_raiseTiles {idx : Nat} {tagged : Bool} {l : List Evt} (tiles : ∀ e ∈ l, e.code = 0x0702)
    (runs : s.step.active = true) (here : inFlight s st idx = true) :
    outcome st (l.foldl (raiseEntry st idx tagged) s) = outcome st s := by
  induction l generalizing s with
  | nil => rfl
  | cons e l ih =>
    obtain ⟨first, rest⟩ := List.forall_mem_cons.1 tiles
    have same := outcome_raiseTile (tagged := tagged) first runs here
    have still : (raiseEntry st idx tagged s e).step.active = true := (congrArg (fun x => x.2.2.2.1) same).trans runs
    rw [List.foldl_cons, ih rest still ((inFlight_of_outcome same idx).trans here), same]

/-! ## A run that has its result -/

theorem deskOf_launched (st : Nat) (x : Stream) (e : Entry) (ph : List Phys) (s : State) :
    deskOf (launched st x e ph s) = deskOf s := by
  have apart : Reg.slotMixed % 0x10000 ≠ 16 := by decide
  have mixed : deskOf (markMixed e x.slotNow (slotVoid s x.slotNow) s) = deskOf s := by
    unfold markMixed
    split
    · rw [ite_deskOf, deskOf_setB _ apart, ite_self]
    · rfl
  have put (u : State) : deskOf (setStream st (launchOf s x e ph) u) = deskOf u := rfl
  rw [launched, gateIssue, ite_deskOf, put, mixed]
  exact (ite_congr rfl (fun _ => mixed) fun _ => rfl).trans (ite_self _)

/-- The effect of an entry leaves a result on the desk of its run. -/
def Leaves (w : Result) (s : State) (c : Ctx) (eff : Ctx → Run → Run) : Prop :=
  ∀ r, deskOf r.s = deskOf s → runDesk (eff c r) = resultRun w (runDesk r)

theorem resultRun_wait (w : Result) (b : RunDesk) : (resultRun w b).2 = b.2 := by
  refine (foldl_keeps Prod.snd _ (fun b x => ?_) w.told _).trans ?_
  · unfold tellRun
    split <;> rfl
  · rw [foldl_putRun]

theorem resultRun_active (w : Result) (b : RunDesk) : (resultRun w b).1.active = b.1.active := by
  refine (foldl_keeps (fun b : RunDesk => b.1.active) _ (fun b x => ?_) w.told _).trans ?_
  · unfold tellRun
    split <;> rfl
  · rw [foldl_putRun]

/-- The flights of a state in the frame of another are those of that one. -/
theorem inFlight_of_frame {v : Scope} {y : Stream} (frame : entryFrame v st t = entryFrame v st s)
    (there : streamAt s st = some y) {f : Flight} (mem : f ∈ y.inflight) : inFlight t st f.idx = true := by
  have bares := bareStream_of_entryFrame frame
  rw [there, Option.map_some] at bares
  obtain ⟨z, here, bare⟩ := Option.map_eq_some_iff.1 bares
  obtain ⟨g, inside, same⟩ := flight_of_bare bare mem
  have number : (bareFlight g).idx = (bareFlight f).idx := congrArg Flight.idx same
  simp only [inFlight, here, List.any_eq_true]
  exact ⟨g, inside, beq_iff_eq.2 number⟩

/-- A run that has its result is settled: its entry is done, and the result stands in the state. -/
theorem settleRun_gives {c : Ctx} {q : Run} {u : State} {y : Stream} {w : Result} {f : Flight}
    (framed : entryFrame ⟨true, true⟩ c.st q.s = entryFrame ⟨true, true⟩ c.st u) (there : streamAt u c.st = some y)
    (result : runDesk q = resultRun w (runDesk { s := u })) (desk : deskOf u = deskOf s) (runs : u.step.active = true)
    (mem : f ∈ y.inflight) (number : f.idx = c.idx) (apart : Disjoint w.writes) :
    ∃ z, streamAt (settleRun c q u) c.st = some z ∧ bareStream z = bareStream (y.mapFlights c.idx (ranWith 0)) ∧
      Gives w s (settleRun c q u) := by
  have wait : (q.late, q.need, q.sent, q.failed, otherEvents q.evs) = (false, [], 0, false, []) :=
    (congrArg Prod.snd result).trans (resultRun_wait w _)
  simp only [Prod.mk.injEq] at wait
  obtain ⟨late, need, sent, -, events⟩ := wait
  have tiles : ∀ ev ∈ q.evs, ev.code = 0x0702 := by simpa [otherEvents] using events
  obtain ⟨g, marks, frame, ran⟩ := settleRun_frame framed there
  rw [ran late need, sent] at frame
  have bares := bareStream_of_entryFrame frame
  rw [streamAt_setStream_same there, Option.map_some] at bares
  obtain ⟨z, here, bare⟩ := Option.map_eq_some_iff.1 bares
  refine ⟨z, here, bare, ?_⟩
  have active : q.s.step.active = true :=
    (congrArg (fun b => b.1.active) result).trans ((resultRun_active w _).trans runs)
  have marked : outcome c.st (noteUpdate c.st c.idx c.e (modFlight c.st c.idx (ranWith q.sent) q.s)) = outcome c.st q.s :=
    (outcome_noteUpdate _ _ _ _).trans (outcome_modFlight (g := ranWith q.sent) (fun _ => rfl) _ _)
  have inside : inFlight q.s c.st c.idx = true := number ▸ inFlight_of_frame framed there mem
  have settled : outcome c.st (settleRun c q u) = outcome c.st q.s := by
    rw [settleRun, late, need, if_neg Bool.false_ne_true, if_pos rfl]
    refine (outcome_raiseTiles tiles ?_ ((inFlight_of_outcome marked _).trans inside)).trans marked
    exact (congrArg (fun x => x.2.2.2.1) marked).trans active
  refine gives_of_resultRun (b := runDesk { s := u }) apart desk ?_ ?_ ?_
  · exact (congrArg (fun x => x.1) settled).trans (congrArg (fun b => b.1.sp) result)
  · exact (congrArg (fun x => x.2.1) settled).trans (congrArg (fun b => b.1.counts) result)
  · exact (congrArg (fun x => x.2.2.1) settled).trans (congrArg (fun b => b.1.nonfinite) result)

variable {x : Stream} {e : Entry}

/-- An entry in turn and not void leaves the result of its effect. -/
theorem issue_gives {w : Result} {eff : Ctx → Run → Run} (keeps : KeepsFrame ⟨true, true⟩ eff) (h : Stands st x e s)
    (turn : InTurn x) (live : slotVoid s x.slotNow = false) {ok : Entry → Bool} (admitted : ok e = true)
    (leaves : Leaves w s (ctxOf s st x x.pos e x.slotNow false []) eff) (apart : Disjoint w.writes) :
    ∃ y, streamAt (issue st ok [] eff s) st = some y ∧ (∃ f ∈ y.inflight, f.idx = x.pos ∧ f.ran = true ∧ f.done = true) ∧
      Gives w s (issue st ok [] eff s) := by
  have context : ctxNow s st x e [] = ctxOf s st x x.pos e x.slotNow false [] := by rw [ctxNow, live]
  have desk : deskOf (launched st x e [] s) = deskOf s := deskOf_launched st x e [] s
  have runs : (launched st x e [] s).step.active = true :=
    (congrArg Desk.active desk).trans (Bool.and_eq_true_iff.1 h.2.2.1).1
  have mine : issueFlight s x e x.slotNow (slotVoid s x.slotNow) [] ∈ (launchOf s x e []).inflight := by simp [launch]
  rw [issue_of_stands h admitted, if_pos turn, context]
  obtain ⟨z, here, bare, gives⟩ := settleRun_gives (c := ctxOf s st x x.pos e x.slotNow false [])
    (congrArg Prod.fst (keeps (ctxOf s st x x.pos e x.slotNow false []) { s := launched st x e [] s }))
    (streamAt_launched h.1 e []) (leaves _ desk) desk runs mine rfl apart
  have marked : ranWith 0 (issueFlight s x e x.slotNow (slotVoid s x.slotNow) []) ∈
      ((launchOf s x e []).mapFlights x.pos (ranWith 0)).inflight := by
    simp [Stream.mapFlights, launch, issueFlight, flightOf]
  obtain ⟨f, mem, same⟩ := flight_of_bare bare marked
  exact ⟨z, here, ⟨f, mem, congrArg Flight.idx same, congrArg Flight.ran same, congrArg Flight.done same⟩, gives⟩

end Sys2Proof.Machine
end

