-- ==== Sys2Proof/Proofs/Results.lean ====
section
/-! SUPPORT. EFFECT. The results of the statement, operation by operation. -/

namespace Sys2Proof.Machine
open Sys2Proof.Stmt

variable {s : State} {c : Ctx}

section
variable (free : c.ph = []) (live : c.voided = false) (operands : ∀ d ∈ operandsOf s c.e, PlainSp d)
include free live operands

theorem leaves_merge (op : c.e.op = 0x42) : Leaves (resultOf s c) s c mergeEff := fun r h => by
  simp only [operandsOf, op] at operands
  simp only [resultOf, op]
  refine mergeEff_at free live h (operands _ (by simp)) (operands _ (by simp)) fun masked => operands _ ?_
  simp [bne_iff_ne.2 masked]

theorem leaves_route (op : c.e.op = 0x43) : Leaves (resultOf s c) s c routeEff := fun r h => by
  simp only [operandsOf, op] at operands
  simp only [resultOf, op]
  exact routeEff_at free live h (operands _ (by simp)) (operands _ (by simp)) (operands _ (by simp)) (operands _ (by simp))

theorem leaves_combine (op : c.e.op = 0x45) : Leaves (resultOf s c) s c combineEff := fun r h => by
  simp only [operandsOf, op] at operands
  simp only [resultOf, op]
  exact combineEff_at free live h (operands _ (by simp)) (operands _ (by simp)) (operands _ (by simp)) (operands _ (by simp))

theorem leaves_compress (op : c.e.op = 0x46) (place : (descOr s c.e.descC).place = 1) :
    Leaves (resultOf s c) s c compressEff := fun r h => by
  simp only [operandsOf, op] at operands
  simp only [resultOf, op]
  exact compressEff_at free h live (operands _ (by simp)) place

theorem leaves_decompress (op : c.e.op = 0x47) (place : (descOr s c.e.descA).place = 1) :
    Leaves (resultOf s c) s c decompressEff := fun r h => by
  simp only [operandsOf, op] at operands
  simp only [resultOf, op]
  exact decompressEff_at free h live place (operands _ (by simp))

theorem leaves_histogram (op : c.e.op = 0x48) : Leaves (resultOf s c) s c histEff := fun r h => by
  simp only [operandsOf, op] at operands
  simp only [resultOf, op]
  refine histEff_at free live h (operands _ (by simp)) (operands _ (by simp)) fun ranks => operands _ ?_
  simp [bne_iff_ne.2 ranks]

/-! ## GROUPED -/

variable (op : c.e.op = 0x49)
include op

theorem leaves_pack (form : c.e.subop % 8 = 0) (sources : SourceRows s c true) : Leaves (resultOf s c) s c packEff :=
  fun r h => by
    simp only [operandsOf, op, form] at operands
    simp only [resultOf, op]
    refine packEff_at free live h (operands _ (by simp)) (operands _ (by simp)) (fun masked => operands _ ?_) sources form
    simp [bne_iff_ne.2 masked]

theorem leaves_unpack (form : c.e.subop % 8 = 1) (sources : SourceRows s c false) : Leaves (resultOf s c) s c unpackEff :=
  fun r h => by
    simp only [operandsOf, op, form] at operands
    simp only [resultOf, op, groupedIn, form]
    exact unpackEff_at free live h (operands _ (by simp)) (operands _ (by simp)) sources

theorem leaves_ids {padded : Bool} (form : c.e.subop % 8 = if padded then 3 else 2) :
    Leaves (resultOf s c) s c (idsEff padded) := fun r h => by
  cases padded with
  | false =>
    simp only [operandsOf, op, form] at operands
    simp only [resultOf, op, groupedIn, form]
    exact idsEff_at free live h false (operands _ (by simp))
  | true =>
    simp only [operandsOf, op, form] at operands
    simp only [resultOf, op, groupedIn, form]
    exact idsEff_at free live h true (operands _ (by simp))

theorem leaves_lenmask (form : c.e.subop % 8 = 4) : Leaves (resultOf s c) s c lenmaskEff := fun r h => by
  simp only [operandsOf, op, form] at operands
  simp only [resultOf, op, groupedIn, form]
  exact lenmaskEff_at free live h (operands _ (by simp))

end

/-! ## The entries whose results the statement gives -/

/-- Such an entry's command issues it, and its effect leaves its result. -/
theorem dataEntries_leave {st : Nat} (free : c.ph = []) (live : c.voided = false)
    (result : c.e.op ∈ [0x42, 0x43, 0x45, 0x46, 0x47, 0x48, 0x49]) (operands : ∀ d ∈ operandsOf s c.e, PlainSp d)
    (packs : c.e.op = 0x46 → (descOr s c.e.descC).place = 1) (unpacks : c.e.op = 0x47 → (descOr s c.e.descA).place = 1)
    (sources : c.e.op = 0x49 → c.e.subop % 8 ≤ 1 → SourceRows s c (c.e.subop % 8 == 0)) :
    ∀ p ∈ dataEntries st [], p.2 c.e = true → ∃ eff, KeepsFrame ⟨true, true⟩ eff ∧
      (∀ s, exec p.1 s = .next (issue st p.2 [] eff s)) ∧ Leaves (resultOf s c) s c eff := by
  have other {n : Nat} (op : c.e.op = n) (out : n ∉ [0x42, 0x43, 0x45, 0x46, 0x47, 0x48, 0x49]) {P : Prop} : P :=
    absurd (op ▸ result) out
  simp only [dataEntries, List.forall_mem_cons, beq_iff_eq, Bool.and_eq_true]
  refine ⟨fun op => other op (by decide), fun op => other op (by decide), fun op => other op (by decide),
    fun op => other op (by decide), fun op => other op (by decide), fun op => other op (by decide),
    fun op => other op (by decide), fun op => other op (by decide), fun op => other op (by decide),
    fun op => other op (by decide), fun op => other op (by decide), ?_, ?_, ?_, ?_, ?_, ?_, ?_, ?_, ?_, ?_, ?_, nofun⟩
  · exact fun op => ⟨mergeEff, fun c r => kept_mergeEff c r, fun _ => rfl, leaves_merge free live operands op⟩
  · exact fun op => ⟨routeEff, fun c r => kept_routeEff c r, fun _ => rfl, leaves_route free live operands op⟩
  · exact fun op => ⟨combineEff, fun c r => kept_combineEff c r, fun _ => rfl, leaves_combine free live operands op.1⟩
  · exact fun op => ⟨compressEff, fun c r => kept_compressEff c r, fun _ => rfl,
      leaves_compress free live operands op (packs op)⟩
  · exact fun op => ⟨decompressEff, fun c r => kept_decompressEff c r, fun _ => rfl,
      leaves_decompress free live operands op (unpacks op)⟩
  · exact fun op => ⟨histEff, fun c r => kept_histEff c r, fun _ => rfl, leaves_histogram free live operands op⟩
  · rintro ⟨op, form⟩
    have rows := sources op (by omega)
    rw [form] at rows
    exact ⟨packEff, fun c r => kept_packEff c r, fun _ => rfl, leaves_pack free live operands op form rows⟩
  · rintro ⟨op, form⟩
    have rows := sources op (by omega)
    rw [form] at rows
    exact ⟨unpackEff, fun c r => kept_unpackEff c r, fun _ => rfl, leaves_unpack free live operands op form rows⟩
  · rintro ⟨op, form⟩
    exact ⟨idsEff false, fun c r => kept_idsEff false c r, fun _ => rfl, leaves_ids free live operands op form⟩
  · rintro ⟨op, form⟩
    exact ⟨idsEff true, fun c r => kept_idsEff true c r, fun _ => rfl, leaves_ids free live operands op form⟩
  · rintro ⟨op, form⟩
    exact ⟨lenmaskEff, fun c r => kept_lenmaskEff c r, fun _ => rfl, leaves_lenmask free live operands op form⟩

end Sys2Proof.Machine
end

