-- ==== Sys2Proof/Proofs/Sends.lean ====
section
/-! SUPPORT. EFFECT. What the sends of a `DISPATCH` into the windows of other devices leave: each is queued on its ring, and nothing
that a later send goes by changes (13 R286, R289). -/

namespace Sys2Proof.Machine
open Sys2Proof.Stmt

variable {s t u : State} {q r : Run}

/-! ## What a send goes by -/

/-- What the sends of a `DISPATCH` go by: the desk, HBM, the roles of the ports, the rings and the windows that are open. -/
structure Flow where
  desk : Desk
  hbm : Mem
  ports : List Port
  place : Nat → W64
  rings : Nat
  isOpen : Nat → Bool

def flowOf (s : State) : Flow :=
  { desk := deskOf s, hbm := s.hbm, ports := s.ports, place := fun i => rget s (Reg.rngPos i), rings := s.rings.length
    isOpen := fun w => (viewOf s w).isOpen }

/-- State `t` follows `s`: sends go by the same, and what is queued or has departed stays so. -/
structure Follows (s t : State) : Prop where
  flow : flowOf t = flowOf s
  queued : ∀ i m, m ∈ (ringAt s i).sendq → m ∈ (ringAt t i).sendq
  departed : ∀ g, maskHas s.step.departed g = true → maskHas t.step.departed g = true

theorem Follows.refl (s : State) : Follows s s := ⟨rfl, fun _ _ h => h, fun _ h => h⟩

theorem Follows.trans (first : Follows s t) (next : Follows t u) : Follows s u :=
  ⟨next.flow.trans first.flow, fun i m h => next.queued i m (first.queued i m h), fun g h => next.departed g (first.departed g h)⟩

theorem Follows.of_eq (flow : flowOf t = flowOf s) (rings : t.rings = s.rings) (step : t.step.departed = s.step.departed) :
    Follows s t := ⟨flow, fun i m h => by simpa [ringAt, rings] using h, fun g h => by rw [step]; exact h⟩

theorem flowOf_rset (s : State) {a : Nat} (control : a % 0x10000 ≠ 16) (place : a % 0x10000 ≠ 0x100) (w : W64) :
    flowOf (rset s a w) = flowOf s := by
  have places : (fun i => rget (rset s a w) (Reg.rngPos i)) = fun i => rget s (Reg.rngPos i) := by
    funext i
    refine rget_rset_ne _ _ fun same => place ?_
    rw [← same]
    simp [Reg.rngPos, reg, blkCode]
    omega
  simp only [flowOf, places, deskOf_rset s control]
  simp [viewOf]

theorem follows_rset (s : State) {a : Nat} (control : a % 0x10000 ≠ 16) (place : a % 0x10000 ≠ 0x100) (w : W64) :
    Follows s (rset s a w) := Follows.of_eq (flowOf_rset s control place w) (by simp) (by simp)

theorem follows_foldl {β : Type} {f : State → β → State} (step : ∀ t b, Follows s t → Follows t (f t b)) (l : List β) :
    Follows s (l.foldl f s) := by
  have steps (u : State) (h : Follows s u) : Follows s (l.foldl f u) := by
    induction l generalizing u with
    | nil => exact h
    | cons b l ih => exact ih _ (h.trans (step u b h))
  exact steps s (Follows.refl s)

theorem follows_spTouch (core off n : Nat) (s : State) : Follows s (spTouch core off n s) := by
  have control : Reg.spPower core % 0x10000 ≠ 16 := off_blkCtrl .core core (by decide) (by decide)
  have place : Reg.spPower core % 0x10000 ≠ 0x100 := by
    simp only [Reg.spPower, reg]
    omega
  unfold spTouch
  split
  · exact Follows.refl s
  · exact follows_foldl (fun s k _ => follows_rset s control place _) _

/-! ## Paths -/

theorem ringLen_of_flow (h : flowOf t = flowOf s) (i : Nat) : ringLen t i = ringLen s i := by
  have place : rget t (Reg.rngPos i) = rget s (Reg.rngPos i) := congrFun (congrArg Flow.place h) i
  rw [ringLen, ringLen, getF, getF, place]

theorem ringPos_of_flow (h : flowOf t = flowOf s) (i : Nat) : ringPos t i = ringPos s i := by
  have place : rget t (Reg.rngPos i) = rget s (Reg.rngPos i) := congrFun (congrArg Flow.place h) i
  rw [ringPos, ringPos, getF, getF, place]

theorem routePort_of_flow (h : flowOf t = flowOf s) (i dst : Nat) : routePort t i dst = routePort s i dst := by
  have ports : t.ports = s.ports := congrArg Flow.ports h
  have tree : inTreeRole t i = inTreeRole s i := by simp only [inTreeRole, portRole, port, ports]
  rw [routePort, routePort, tree, ringLen_of_flow h, ringPos_of_flow h]

theorem winOf_of_flow (h : flowOf t = flowOf s) (w : Nat) : winOf t w = winOf s w := by
  have job : t.job = s.job := congrArg (fun x => x.desk.job) h
  rw [winOf, winOf, job]

theorem winOwner_of_flow (h : flowOf t = flowOf s) (e : WinEntry) : winOwner t e = winOwner s e := by
  rw [winOwner, winOwner, ringLen_of_flow h, ringPos_of_flow h]

theorem away_of_flow (h : flowOf t = flowOf s) {w : Nat} (away : Away s w) : Away t w := by
  have isOpen : (viewOf t w).isOpen = (viewOf s w).isOpen := congrFun (congrArg Flow.isOpen h) w
  have rings : t.rings.length = s.rings.length := congrArg Flow.rings h
  simpa only [Away, winOf_of_flow h, isOpen, rings, routePort_of_flow h, winOwner_of_flow h] using away

theorem winPath_of_away {w : Nat} (away : Away s w) : winPath s w = .remote := by
  obtain ⟨kind, isOpen, -, route⟩ := away
  obtain ⟨p, found⟩ := Option.isSome_iff_exists.1 route
  unfold winPath
  dsimp only
  rw [if_neg (by omega), isOpen, found]
  simp
  omega

/-! ## Sends -/

theorem follows_setView (s : State) (w n : Nat) : Follows s (setView w { viewOf s w with unanswered := n } s) := by
  have isOpen : (fun v => (viewOf (setView w { viewOf s w with unanswered := n } s) v).isOpen) = fun v => (viewOf s v).isOpen := by
    funext v
    simp only [viewOf, setView, cellGet_set]
    split
    · next same => rw [same]
    · rfl
  refine Follows.of_eq ?_ rfl rfl
  simp only [flowOf, isOpen]
  rfl

/-- A ring that keeps what it has queued. -/
theorem follows_setRing (s : State) (i : Nat) {x : Ring} (kept : ∀ m ∈ (ringAt s i).sendq, m ∈ x.sendq) :
    Follows s (setRing i x s) := by
  refine ⟨?_, fun j m mem => ?_, fun _ h => h⟩
  · simp only [flowOf, setRing, List.length_set]
    rfl
  · by_cases same : j = i
    · subst same
      by_cases inside : j < s.rings.length
      · simpa [ringAt, setRing, inside] using kept m mem
      · simp [ringAt, inside] at mem
    · simpa [ringAt, setRing, List.getElem?_set_ne (Ne.symm same)] using mem

theorem ringAt_setRing {i : Nat} (inside : i < s.rings.length) (x : Ring) : ringAt (setRing i x s) i = x := by
  simp [ringAt, setRing, inside]

/-- The transfer of an access to a window (13 R289). -/
def accessOf (s : State) (p w op : Nat) (act : Bool) (g : GTag) (off len : Nat) (data : List Byte) (st idx : Nat) : Transfer :=
  { port := p
    first := firstFlit 2 0 g (headPayload s (winOf s w).ring
      { dst := winOwner s (winOf s w), op := op, act := act, window := (winOf s w).target, epoch := (viewOf s w).epoch,
        xfer := (ringAt s (winOf s w).ring).nextXfer, length := len, step := stepNo s, offset := off })
    data := data, xfer := some (ringAt s (winOf s w).ring).nextXfer, entry := some (st, idx) }

/-- An access to the window of another device is queued on its ring. -/
theorem sendAccess_sends {w : Nat} (away : Away s w) (op : Nat) (act : Bool) (g : GTag) (off len key : Nat) (data : List Byte)
    (st idx : Nat) :
    Follows s (sendAccess w op act g off len key data st idx s) ∧
      ∃ p, accessOf s p w op act g off len data st idx ∈
        (ringAt (sendAccess w op act g off len key data st idx s) (winOf s w).ring).sendq := by
  obtain ⟨-, -, inside, route⟩ := away
  obtain ⟨p, found⟩ := Option.isSome_iff_exists.1 route
  simp only [sendAccess, found]
  refine ⟨(follows_setRing s _ fun m mem => List.mem_append_left _ mem).trans (follows_setView _ w _), p, ?_⟩
  have queued (x : Ring) (v : View) : ringAt (setView w v (setRing (winOf s w).ring x s)) (winOf s w).ring = x :=
    ringAt_setRing inside x
  rw [queued]
  exact List.mem_append_right _ List.mem_cons_self

theorem leAt_behind (n v k : Nat) (b : List Byte) {o : Nat} (h : n ≤ o) : leAt (leBytes n v ++ b) o k = leAt b (o - n) k := by
  rw [leAt_append_right _ _ _ (by simpa using h), length_leBytes]

theorem leAt_here (n v : Nat) (b : List Byte) : leAt (leBytes n v ++ b) 0 n = v % 256 ^ n := by
  rw [leAt_append_left _ _ (by simp), leAt_leBytes]

/-- The operation, the window and the offset of a `HEAD` (13 Table 13-2). -/
theorem headPayload_fields (s : State) (i : Nat) (h : Head) :
    leAt (headPayload s i h) 6 1 = h.op % 256 ∧ leAt (headPayload s i h) 8 2 = h.window % 2 ^ 16 ∧
      leAt (headPayload s i h) 0x18 8 = h.offset % 2 ^ 64 := by
  simp only [headPayload, pad240, ringHdr, List.append_assoc]
  refine ⟨?_, ?_, ?_⟩
  · repeat rw [leAt_behind _ _ _ _ (by decide)]
    exact leAt_here 1 _ _
  · repeat rw [leAt_behind _ _ _ _ (by decide)]
    exact leAt_here 2 _ _
  · repeat rw [leAt_behind _ _ _ _ (by decide)]
    exact leAt_here 8 _ _

/-! ## Writes into windows of other devices -/

/-- A run goes on from another: it follows it, waits for nothing more, and of the registers only power states of scratchpads
change. -/
structure Goes (r q : Run) : Prop where
  follows : Follows r.s q.s
  late : q.late = r.late
  need : q.need = r.need
  evs : q.evs = r.evs
  still : ∀ a, a % 0x10000 ≠ 0x130 → rget q.s a = rget r.s a

theorem Goes.refl (r : Run) : Goes r r := ⟨Follows.refl _, rfl, rfl, rfl, fun _ _ => rfl⟩

theorem Goes.trans {p : Run} (first : Goes p q) (next : Goes q r) : Goes p r :=
  ⟨first.follows.trans next.follows, next.late.trans first.late, next.need.trans first.need, next.evs.trans first.evs,
    fun a apart => (next.still a apart).trans (first.still a apart)⟩

theorem rget_of_regs (h : t.regs = s.regs) (a : Nat) : rget t a = rget s a := by rw [rget, rget, h]

theorem goes_mod {f : State → State} (follows : Follows r.s (f r.s)) (regs : (f r.s).regs = r.s.regs) : Goes r (r.mod f) :=
  ⟨follows, rfl, rfl, rfl, fun a _ => rget_of_regs regs a⟩

theorem sendAccess_regs (w op : Nat) (act : Bool) (g : GTag) (off len key : Nat) (data : List Byte) (st idx : Nat) (s : State) :
    (sendAccess w op act g off len key data st idx s).regs = s.regs := by
  simp only [sendAccess]
  split <;> rfl

theorem away_of_follows (h : Follows s t) {w : Nat} (away : Away s w) : Away t w := away_of_flow h.flow away

variable {c : Ctx} (free : c.ph = [])
include free

theorem awayPoisoned_of_free (s : State) (w : Nat) : awayPoisoned c s w = false := by
  unfold awayPoisoned
  dsimp only
  split
  · simp [poisoned, free]
  · rfl

theorem winWrite_goes {w : Nat} (away : Away r.s w) (g : GTag) (off : Nat) (bs : List Byte) :
    Goes r (winWrite c g w off bs r) := by
  unfold winWrite
  split
  · exact Goes.refl r
  · rw [winPath_of_away away, awayPoisoned_of_free free]
    refine ⟨?_, rfl, rfl, rfl, fun a _ => rget_of_regs ?_ a⟩
    · exact follows_foldl (fun t p h => (sendAccess_sends (away_of_follows h away) _ _ _ _ _ _ _ _ _).1) _
    · exact foldl_keeps State.regs _ (fun s p => sendAccess_regs _ _ _ _ _ _ _ _ _ _ s) _ _

/-- A row of one transfer at most is queued with its tag, its bytes and its offset in the window. -/
theorem winWrite_row {w : Nat} (away : Away r.s w) (g : GTag) (off : Nat) {bs : List Byte} (filled : 0 < bs.length)
    (short : bs.length ≤ 15360) :
    ∃ p, accessOf r.s p w 0 false g off (roundUp bs.length 16) (pad16 bs) c.st c.idx ∈
      (ringAt (winWrite c g w off bs r).s (winOf r.s w).ring).sendq := by
  have one : chunks maxData bs = [bs] := by
    have count : ceilDiv bs.length (max maxData 1) = 1 := by
      rw [ceilDiv, show max maxData 1 = 15360 from rfl]
      omega
    rw [chunks, count]
    simp [maxData, List.take_of_length_le short]
  unfold winWrite
  rw [if_neg (by omega), winPath_of_away away, awayPoisoned_of_free free]
  simp only [Bool.false_eq_true, if_false, one, List.zipIdx_cons, List.zipIdx_nil, List.foldl_cons, List.foldl_nil,
    Nat.zero_mul, Nat.add_zero]
  exact (sendAccess_sends away 0 false g off (roundUp bs.length 16) 0 (pad16 bs) c.st c.idx).2

omit free in
/-- A block end into the window of another device is queued. -/
theorem sendBlockEnd_goes {w : Nat} (away : Away r.s w) : Goes r (sendBlockEnd w r) := by
  obtain ⟨kind, -, -, route⟩ := away
  obtain ⟨p, found⟩ := Option.isSome_iff_exists.1 route
  unfold sendBlockEnd
  have queued (u : Transfer) : Follows r.s (queueTransfer (winOf r.s w).ring u r.s) :=
    follows_setRing r.s _ fun m mem => List.mem_append_left _ mem
  refine goes_mod ?_ ?_
  · rw [if_neg (by omega), if_neg (by omega), putMarker, found]
    dsimp only
    rw [sendMarker, found]
    exact queued _
  · rw [if_neg (by omega), if_neg (by omega), putMarker, found]
    dsimp only
    rw [sendMarker, found]
    rfl

/-! ## Reads of scratchpad tensors -/

section
variable {d : Desc} (place : d.place = 1)
include place

theorem getBytes_goes (off n : Nat) (r : Run) : Goes r (getBytes c d off n r).2 := by
  unfold getBytes
  split
  · exact Goes.refl r
  · rw [if_neg (show d.place ≠ 0 by omega), spRead_eq free]
    refine ⟨follows_spTouch _ _ _ _, rfl, rfl, rfl, fun a apart => ?_⟩
    unfold Run.mod spTouch
    dsimp only
    split
    · rfl
    · refine foldl_keeps (fun s => rget s a) _ (fun s k => rget_rset_ne _ _ fun same => apart ?_) _ _
      rw [same]
      simp only [Reg.spPower, reg]
      omega

theorem tryRow_goes (i : Nat) (r : Run) : Goes r (tryRow c d i r).2 := by
  obtain ⟨follows, late, need, evs, still⟩ := getBytes_goes free place (d.rowOff i) d.rowBytes { r with failed := false }
  exact ⟨follows, late, need, evs, still⟩

end

omit free in
theorem foldl_goes {β ι : Type} {f : β × Run → ι → β × Run} (step : ∀ x i, Goes x.2 (f x i).2) (l : List ι) (x : β × Run) :
    Goes x.2 (l.foldl f x).2 := by
  induction l generalizing x with
  | nil => exact Goes.refl _
  | cons i l ih => exact (step x i).trans (ih _)

section
variable {d : Desc} (plain : PlainSp d)
include plain

theorem loadFlat_goes (r : Run) : Goes r (loadFlat c d r).2 := by
  rw [loadFlat, loadRows, tryRows, if_neg (by have := plain.2.1; omega)]
  exact foldl_goes (f := fun (x : List (Option (List Nat)) × Run) i => let y := tryRow c d i x.2; (x.1 ++ [y.1], y.2))
    (fun x i => tryRow_goes free plain.1 i x.2) (List.range d.rows) ([], r)

theorem denseBytes_goes (r : Run) : Goes r (denseBytes c d r).2 := by
  rw [denseBytes, if_neg (by have := plain.2.1; omega)]
  exact foldl_goes (f := fun (x : List Byte × Run) i => let y := getBytes c d (d.rowOff i) d.rowBytes x.2; (x.1 ++ y.1, y.2))
    (fun x i => getBytes_goes free plain.1 _ _ x.2) (List.range d.rows) ([], r)

end

end Sys2Proof.Machine
end

