-- ==== Sys2Proof/Proofs/Dispatch.lean ====
section
/-! SUPPORT. EFFECT. A `DISPATCH` into the windows of other devices: each row of a live group is queued under the group's tag, and
the rows sent and withheld are counted (08 R180 to R182). -/

namespace Sys2Proof.Machine
open Sys2Proof.Stmt

variable {s t u : State} {p q r : Run}

/-! ## Counts of rows -/

/-- A run goes on from another and counts `sent` rows as sent and `withheld` as withheld in engine `own`. -/
structure Dispatches (own sent withheld : Nat) (r q : Run) : Prop where
  follows : Follows r.s q.s
  late : q.late = r.late
  need : q.need = r.need
  evs : q.evs = r.evs
  rows : getF q.s (Reg.dispatchRows own) 47 0 = (getF r.s (Reg.dispatchRows own) 47 0 + sent) % 2 ^ 48
  skipped : getF q.s (Reg.dispatchSkipped own) 47 0 = (getF r.s (Reg.dispatchSkipped own) 47 0 + withheld) % 2 ^ 48

variable {own m n m' n' : Nat}

theorem Dispatches.trans (first : Dispatches own m n r p) (next : Dispatches own m' n' p q) :
    Dispatches own (m + m') (n + n') r q where
  follows := first.follows.trans next.follows
  late := next.late.trans first.late
  need := next.need.trans first.need
  evs := next.evs.trans first.evs
  rows := by rw [next.rows, first.rows, Nat.mod_add_mod, Nat.add_assoc]
  skipped := by rw [next.skipped, first.skipped, Nat.mod_add_mod, Nat.add_assoc]

/-- A part of a run that counts no row. -/
theorem Goes.dispatches (h : Goes r q) (own : Nat) : Dispatches own 0 0 r q := by
  have rows : rget q.s (Reg.dispatchRows own) = rget r.s (Reg.dispatchRows own) := h.still _ (by
    simp only [Reg.dispatchRows, reg]
    omega)
  have skipped : rget q.s (Reg.dispatchSkipped own) = rget r.s (Reg.dispatchSkipped own) := h.still _ (by
    simp only [Reg.dispatchSkipped, reg]
    omega)
  refine ⟨h.follows, h.late, h.need, h.evs, ?_, ?_⟩
  · rw [getF, rows, Nat.add_zero, Nat.mod_eq_of_lt (getF_lt r.s _ 47 0)]
    rfl
  · rw [getF, skipped, Nat.add_zero, Nat.mod_eq_of_lt (getF_lt r.s _ 47 0)]
    rfl

theorem dispatchSkipped_ne_dispatchRows (own : Nat) : Reg.dispatchSkipped own ≠ Reg.dispatchRows own := by
  simp only [Reg.dispatchRows, Reg.dispatchSkipped, reg]
  omega

/-- A counter of an engine is nothing that a send goes by. -/
theorem follows_incMod (s : State) {off : Nat} (small : off < 0x10000) (control : off ≠ 16) (place : off ≠ 0x100) (i hi lo n : Nat) :
    Follows s (incMod s (reg .jnc i off) hi lo n) := by
  refine follows_rset s (off_blkCtrl .jnc i small control) ?_ _
  simp only [reg]
  omega

theorem dispatches_sentRow (own : Nat) (r : Run) :
    Dispatches own 1 0 r (r.mod fun s => incMod s (Reg.dispatchRows own) 47 0 1) where
  follows := follows_incMod r.s (by decide) (by decide) (by decide) own 47 0 1
  late := rfl
  need := rfl
  evs := rfl
  rows := getF_incMod r.s _ 47 0 1 (by decide) (by decide)
  skipped := by
    rw [Nat.add_zero, Nat.mod_eq_of_lt (getF_lt r.s _ 47 0)]
    exact getF_setF_ne r.s _ _ _ _ _ (dispatchSkipped_ne_dispatchRows own)

theorem dispatches_withheldRow (own : Nat) (r : Run) :
    Dispatches own 0 1 r (r.mod fun s => alert 0x0803 (incMod s (Reg.dispatchSkipped own) 47 0 1)) where
  follows := (follows_incMod r.s (by decide) (by decide) (by decide) own 47 0 1).trans (Follows.of_eq rfl rfl rfl)
  late := rfl
  need := rfl
  evs := rfl
  rows := by
    rw [Nat.add_zero, Nat.mod_eq_of_lt (getF_lt r.s _ 47 0)]
    exact getF_setF_ne r.s _ _ _ _ _ (dispatchSkipped_ne_dispatchRows own).symm
  skipped := getF_incMod r.s (Reg.dispatchSkipped own) 47 0 1 (by decide) (by decide)

/-- A loop over parts each of which counts its rows and leaves what it is to leave. -/
theorem foldl_dispatches {β ι : Type} {f : β → ι → β} {run : β → Run} {sent withheld : ι → Nat} {left : ι → State → Prop}
    (kept : ∀ i {t u}, left i t → Follows t u → left i u) (l : List ι)
    (step : ∀ x, flowOf (run x).s = flowOf s → ∀ i ∈ l,
      Dispatches own (sent i) (withheld i) (run x) (run (f x i)) ∧ left i (run (f x i)).s)
    (x : β) (flow : flowOf (run x).s = flowOf s) :
    Dispatches own (l.map sent).sum (l.map withheld).sum (run x) (run (l.foldl f x)) ∧
      ∀ i ∈ l, left i (run (l.foldl f x)).s := by
  induction l generalizing x with
  | nil => exact ⟨(Goes.refl _).dispatches own, nofun⟩
  | cons i l ih =>
    obtain ⟨counts, here⟩ := step x flow i List.mem_cons_self
    obtain ⟨rest, others⟩ := ih (fun x flow j mem => step x flow j (List.mem_cons_of_mem i mem)) (f x i)
      (counts.follows.flow.trans flow)
    exact ⟨counts.trans rest, List.forall_mem_cons.2 ⟨kept i here rest.follows, others⟩⟩

theorem sum_map_b2n {ι : Type} (ok : ι → Bool) (l : List ι) : (l.map fun i => b2n (ok i)).sum = (l.filter ok).length := by
  induction l with
  | nil => rfl
  | cons i l ih =>
    rw [List.map_cons, List.sum_cons, ih]
    cases here : ok i <;> simp [here, b2n, Nat.add_comm]

/-! ## Rows that are sent -/

/-- The transfer that writes bytes `bs` at offset `off` of window `w` under the tag of group `g`, in the terms of state `s`. -/
structure RowWrite (s : State) (w g off : Nat) (bs : List Byte) (m : Transfer) : Prop where
  data : m.data = pad16 bs
  typ : m.first.typ = 2
  op : leAt m.first.payload 6 1 = 0
  tagged : m.first.gv = true
  tag : m.first.tag = epochTag s g
  group : m.first.group = g
  window : leAt m.first.payload 8 2 = (winOf s w).target % 2 ^ 16
  offset : leAt m.first.payload 0x18 8 = off % 2 ^ 64

/-- In state `t` the row is queued and its group has departed. -/
def RowSent (s : State) (w g off : Nat) (bs : List Byte) (t : State) : Prop :=
  (∃ m ∈ (ringAt t (winOf s w).ring).sendq, RowWrite s w g off bs m) ∧ maskHas t.step.departed g = true

variable {w g off : Nat} {bs : List Byte}

theorem RowSent.follow (h : RowSent s w g off bs t) (follows : Follows t u) : RowSent s w g off bs u := by
  obtain ⟨⟨m, queued, row⟩, departed⟩ := h
  exact ⟨⟨m, follows.queued _ m queued, row⟩, follows.departed g departed⟩

theorem epochTag_of_flow (h : flowOf t = flowOf s) (g : Nat) : epochTag t g = epochTag s g := by
  have sheet : t.step.ws = s.step.ws := congrArg (fun x => x.desk.ws) h
  have mask : t.step.maskA = s.step.maskA := congrArg (fun x => x.desk.mask) h
  rw [epochTag, epochTag, stepNo, stepNo, sheet, mask]

/-- The access that a tagged row of a live group makes. -/
theorem rowWrite_accessOf (h : flowOf t = flowOf s) (port w g off len st idx : Nat) (bs : List Byte) :
    RowWrite s w g off bs (accessOf t port w 0 false (groupTag s g) off len (pad16 bs) st idx) := by
  obtain ⟨op, window, offset⟩ := headPayload_fields t (winOf t w).ring
    { dst := winOwner t (winOf t w), op := 0, act := false, window := (winOf t w).target, epoch := (viewOf t w).epoch,
      xfer := (ringAt t (winOf t w).ring).nextXfer, length := len, step := stepNo t, offset := off }
  exact ⟨rfl, rfl, op, rfl, rfl, rfl, by rw [← winOf_of_flow h]; exact window, offset⟩

theorem maskHas_lt {m : Mask} (h : maskHas m g = true) : g < 4096 := by
  by_contra out
  rw [maskHas, BitVec.getLsbD_of_ge _ _ (by omega)] at h
  exact nomatch h

theorem maskHas_maskRange_one (small : g < 4096) : maskHas (maskRange g 1) g = true := by
  rw [maskHas, maskRange, BitVec.getLsbD_ofNat]
  simp [small]

theorem maskHas_depart (h : g < 4096) (s : State) : maskHas (depart (maskRange g 1) s).step.departed g = true := by
  have set := maskHas_maskRange_one h
  simp only [maskHas] at set
  simp [maskHas, depart, set]

theorem goes_depart (m : Mask) (r : Run) : Goes r (r.mod (depart m)) :=
  goes_mod ⟨rfl, fun _ _ h => h, fun g h => by simp only [maskHas] at h; simp [maskHas, depart, h]⟩ rfl

/-! ## Slots, blocks and the entry -/

theorem length_memRead (m : Mem) (a n : Nat) : (memRead m a n).length = n := by
  induction n generalizing a with
  | zero => rfl
  | succ n ih => rw [memRead, List.length_cons, ih]

/-- The group of a row is in the mask. -/
def liveRow (s : State) (groups : List Nat) (p : Nat) : Bool := maskHas s.step.maskA (nth groups p)

section
variable {c : Ctx} (free : c.ph = []) (live : c.voided = false) {d : Desc} (place : d.place = 1)
  (filled : 0 < d.rowBytes) (short : d.rowBytes ≤ 15360) (tbl : List Byte) (groups : List Nat) (k : Nat) {pl : Placement}
  (away : Away s pl.window)
include free live place filled short away

/-- What slot `q` of block `b` counts and sends. -/
theorem dispatchSlot_sends (b q : Nat) (x : List (Option GTag) × Run) (flow : flowOf x.2.s = flowOf s) :
    Dispatches c.inst (b2n ((tokenOf tbl groups.length c.e.topk k q).any (liveRow s groups)))
        (b2n ((tokenOf tbl groups.length c.e.topk k q).any fun p => !liveRow s groups p)) x.2
        (dispatchSlot c d tbl groups k pl b q x).2 ∧
      ∀ p, tokenOf tbl groups.length c.e.topk k q = some p → liveRow s groups p = true →
        RowSent s pl.window (nth groups p) ((b * c.e.capacity + q) * d.rowBytes) (bytesIn s c.inst d p)
          (dispatchSlot c d tbl groups k pl b q x).2.s := by
  have mask (p : Nat) : maskHas x.2.s.step.maskA (nth groups p) = liveRow s groups p :=
    congrArg (fun x => maskHas x.desk.mask (nth groups p)) flow
  unfold dispatchSlot
  split
  · next none =>
    rw [none]
    exact ⟨(Goes.refl _).dispatches c.inst, nofun⟩
  · next p chosen =>
    simp only [chosen, live, Bool.not_false, Bool.true_and, mask, Option.any_some, Option.some.injEq, forall_eq']
    cases alive : liveRow s groups p with
    | false => exact ⟨dispatches_withheldRow c.inst x.2, nofun⟩
    | true =>
      have row : (rowRaw c d p x.2).1 = bytesIn s c.inst d p := by
        rw [← bytesIn_of_desk (congrArg Flow.desk flow) place]
        simp only [rowRaw, getBytes_value free place, bytesIn, placeMem, rowAddr, if_pos place]
      have length : (bytesIn s c.inst d p).length = d.rowBytes := by simp [bytesIn, length_memRead]
      have tag : groupTag x.2.s (nth groups p) = groupTag s (nth groups p) := by
        rw [groupTag, groupTag, epochTag_of_flow flow]
      have read : Goes x.2 (rowRaw c d p x.2).2 := getBytes_goes free place _ _ x.2
      generalize rowRaw c d p x.2 = y at row read
      have flow' : flowOf (y.2.mod (depart (maskRange (nth groups p) 1))).s = flowOf s := read.follows.flow.trans flow
      have path := winPath_of_away (away_of_flow (t := y.2.s) (read.follows.flow.trans flow) away)
      have departs := goes_depart (maskRange (nth groups p) 1) y.2
      have departed := maskHas_depart (maskHas_lt alive) y.2.s
      simp only [path, if_true, spoil_of_free free, row, tag]
      change maskHas (y.2.mod (depart (maskRange (nth groups p) 1))).s.step.departed (nth groups p) = true at departed
      generalize y.2.mod (depart (maskRange (nth groups p) 1)) = z at flow' departs departed
      have here := away_of_flow flow' away
      have writes := winWrite_goes free here (groupTag s (nth groups p)) ((b * c.e.capacity + q) * d.rowBytes)
        (bytesIn s c.inst d p)
      obtain ⟨port, queued⟩ := winWrite_row free here (groupTag s (nth groups p)) ((b * c.e.capacity + q) * d.rowBytes)
        (bs := bytesIn s c.inst d p) (by omega) (by omega)
      have counts := (((read.trans departs).trans writes).dispatches c.inst).trans (dispatches_sentRow c.inst _)
      refine ⟨by simpa [b2n] using counts, fun _ => ?_⟩
      rw [winOf_of_flow flow'] at queued
      exact RowSent.follow ⟨⟨_, queued, rowWrite_accessOf flow' _ _ _ _ _ _ _ _⟩, writes.follows.departed _ departed⟩
        (dispatches_sentRow c.inst _).follows

/-- What the block of expert `k` counts and sends. -/
theorem dispatchBlock_sends (r : Run) (flow : flowOf r.s = flowOf s) :
    Dispatches c.inst
        (((List.range c.e.capacity).filter fun q => (tokenOf tbl groups.length c.e.topk k q).any (liveRow s groups)).length)
        (((List.range c.e.capacity).filter fun q =>
          (tokenOf tbl groups.length c.e.topk k q).any fun p => !liveRow s groups p).length) r
        (dispatchBlock c d tbl groups k pl r) ∧
      ∀ q < c.e.capacity, ∀ p, tokenOf tbl groups.length c.e.topk k q = some p → liveRow s groups p = true →
        RowSent s pl.window (nth groups p) (((pl.local_ * pl.sources + pl.source) * c.e.capacity + q) * d.rowBytes)
          (bytesIn s c.inst d p) (dispatchBlock c d tbl groups k pl r).s := by
  obtain ⟨counts, rows⟩ := foldl_dispatches (own := c.inst) (run := fun x : List (Option GTag) × Run => x.2)
    (f := fun x q => dispatchSlot c d tbl groups k pl (pl.local_ * pl.sources + pl.source) q x)
    (left := fun q t => ∀ p, tokenOf tbl groups.length c.e.topk k q = some p → liveRow s groups p = true →
      RowSent s pl.window (nth groups p) (((pl.local_ * pl.sources + pl.source) * c.e.capacity + q) * d.rowBytes)
        (bytesIn s c.inst d p) t)
    (fun q _ _ sent follows p chosen alive => (sent p chosen alive).follow follows) (List.range c.e.capacity)
    (fun x flow q _ => dispatchSlot_sends free live place filled short tbl groups k away _ q x flow) ([], r) flow
  rw [sum_map_b2n, sum_map_b2n] at counts
  unfold dispatchBlock
  dsimp only at counts rows ⊢
  generalize (List.range c.e.capacity).foldl _ ([], r) = x at counts rows
  have here := away_of_flow (counts.follows.flow.trans flow) away
  have header := winWrite_goes free here {} (pl.hdr * 64 + (pl.local_ * pl.sources + pl.source) * headerBytes c.e.capacity)
    (blockHeader c.e.capacity k x.1)
  have ends := header.trans (sendBlockEnd_goes (away_of_follows header.follows here))
  exact ⟨counts.trans (ends.dispatches c.inst), fun q inside p chosen alive =>
    (rows q (List.mem_range.2 inside) p chosen alive).follow ends.follows⟩

end

/-- The slots that the entry sends, and those that it withholds. -/
def sentSlots (s : State) (own : Nat) (e : Entry) : Nat :=
  slotsOf e fun k q => (chosenBy s own e k q).any (liveRow s (flatCodes s own (descOr s e.descC)))
def withheldSlots (s : State) (own : Nat) (e : Entry) : Nat :=
  slotsOf e fun k q => (chosenBy s own e k q).any fun p => !liveRow s (flatCodes s own (descOr s e.descC)) p

/-- In state `t` every row of a live group that expert `k` is to get is sent. -/
def BlockSent (s : State) (own : Nat) (e : Entry) (k : Nat) (t : State) : Prop :=
  ∀ q < e.capacity, ∀ p, chosenBy s own e k q = some p → liveRow s (flatCodes s own (descOr s e.descC)) p = true →
    RowSent s (placedAt s own e k).window (nth (flatCodes s own (descOr s e.descC)) p)
      ((((placedAt s own e k).local_ * (placedAt s own e k).sources + (placedAt s own e k).source) * e.capacity + q) *
        (descOr s e.descA).rowBytes) (bytesIn s own (descOr s e.descA) p) t

theorem BlockSent.follow {e : Entry} {k : Nat} (h : BlockSent s own e k t) (follows : Follows t u) : BlockSent s own e k u :=
  fun q inside p chosen alive => (h q inside p chosen alive).follow follows

section
variable {c : Ctx} (free : c.ph = []) (live : c.voided = false) (operands : ∀ d ∈ operandsOf s c.e, PlainSp d)
  (op : c.e.op = 0x44) (away : ∀ k < c.e.experts, Away s (placedAt s c.inst c.e k).window)
  (filled : 0 < (descOr s c.e.descA).rowBytes) (short : (descOr s c.e.descA).rowBytes ≤ 15360)
include free live operands op away filled short

/-- What a `DISPATCH` counts and sends. -/
theorem dispatchEff_sends (r : Run) (flow : flowOf r.s = flowOf s) :
    Dispatches c.inst (sentSlots s c.inst c.e) (withheldSlots s c.inst c.e) r (dispatchEff c r) ∧
      ∀ k < c.e.experts, BlockSent s c.inst c.e k (dispatchEff c r).s := by
  simp only [operandsOf, op] at operands
  have plainA : PlainSp (descOr s c.e.descA) := operands _ (by simp)
  have plainB : PlainSp (descOr s c.e.descB) := operands _ (by simp)
  have plainC : PlainSp (descOr s c.e.descC) := operands _ (by simp)
  have plainD : PlainSp (descOr s c.e.descD) := operands _ (by simp)
  have h : deskOf r.s = deskOf s := congrArg Flow.desk flow
  rw [dispatchEff, physEvents_of_free free]
  simp only [descOr_of_desk h]
  obtain ⟨table, desk1⟩ := denseBytes_at free plainB h
  have tabled := denseBytes_goes free plainB r
  generalize denseBytes c (descOr s c.e.descB) r = t at table desk1 tabled
  have h1 := desk_of_runDesk desk1 h
  obtain ⟨groups, desk2⟩ := loadFlat_at free plainC h1
  have grouped := tabled.trans (loadFlat_goes free plainC t.2)
  generalize loadFlat c (descOr s c.e.descC) t.2 = g at groups desk2 grouped
  have h2 := desk_of_runDesk desk2 h1
  obtain ⟨places, -⟩ := denseBytes_at free plainD h2
  have placed := grouped.trans (denseBytes_goes free plainD g.2)
  generalize denseBytes c (descOr s c.e.descD) g.2 = p at places placed
  obtain ⟨counts, blocks⟩ := foldl_dispatches (own := c.inst) (run := id) (left := BlockSent s c.inst c.e)
    (f := fun r k => dispatchBlock c (descOr s c.e.descA) t.1 g.1 k (placementOf ((p.1.drop (16 * k)).take 16)) r)
    (fun k _ _ sent follows => sent.follow follows) (List.range c.e.experts)
    (fun r flow k inside => by
      rw [table, groups, places]
      exact dispatchBlock_sends free live plainA.1 filled short _ _ k (away k (List.mem_range.1 inside)) r flow)
    p.2 (placed.follows.flow.trans flow)
  have all := (placed.dispatches c.inst).trans counts
  rw [Nat.zero_add, Nat.zero_add] at all
  exact ⟨all, fun k inside => blocks k (List.mem_range.2 inside)⟩

end

end Sys2Proof.Machine
end

