-- ==== Sys2Proof/Proofs/DataEntriesLaunch.lean ====
section
/-! SETTLES. O18: what the launch of a data entry does, and the results of the Junction, of routing and of the grouped forms (03 R50,
14 R317). -/

namespace Sys2Proof.Machine
open Sys2Proof.Stmt

variable {s t : State} {st : Nat} {x : Stream} {e : Entry}

/-! ## The end of a `DISPATCH` -/

/-- What the statement reads of a state after a `DISPATCH`. -/
def sendView (s : State) : List Ring × Cells W64 × Mask × Mem × Mem := (s.rings, s.regs, s.step.departed, s.sp, s.hbm)

theorem sendView_modFlight (st idx : Nat) (g : Flight → Flight) (s : State) : sendView (modFlight st idx g s) = sendView s := by
  rw [modFlight_eq, modStream]
  split <;> rfl

theorem sendView_noteUpdate (st idx : Nat) (e : Entry) (s : State) : sendView (noteUpdate st idx e s) = sendView s := by
  unfold noteUpdate
  split
  · split <;> rfl
  · rfl

/-- A run that waits for nothing and meets no event is settled as it stands. -/
theorem sendView_settleRun {c : Ctx} {q : Run} (late : q.late = false) (need : q.need = []) (evs : q.evs = []) (u : State) :
    sendView (settleRun c q u) = sendView q.s := by
  rw [settleRun, late, need, evs, if_neg Bool.false_ne_true, if_pos rfl, List.foldl_nil]
  exact (sendView_noteUpdate _ _ _ _).trans (sendView_modFlight _ _ _ _)

theorem getF_of_sendView (h : sendView t = sendView s) (a hi lo : Nat) : getF t a hi lo = getF s a hi lo := by
  have regs : t.regs = s.regs := congrArg (fun v => v.2.1) h
  rw [getF, getF, rget_of_regs regs]

theorem RowSent.view {u : State} {w g off : Nat} {bs : List Byte} (h : RowSent u w g off bs s) (same : sendView t = sendView s) :
    RowSent u w g off bs t := by
  have rings : t.rings = s.rings := congrArg (fun v => v.1) same
  have departed : t.step.departed = s.step.departed := congrArg (fun v => v.2.2.1) same
  rw [RowSent, ringAt, rings, departed]
  exact h

theorem follows_launched (st : Nat) (x : Stream) (e : Entry) (ph : List Phys) (s : State) : Follows s (launched st x e ph s) := by
  have places : (fun i => rget (launched st x e ph s) (Reg.rngPos i)) = fun i => rget s (Reg.rngPos i) := by
    funext i
    refine regsBut_launched st x e ph s _ fun mem => ?_
    have same : Reg.rngPos i = Reg.slotMixed := by simpa using mem
    simp only [Reg.rngPos, Reg.slotMixed, reg] at same
    omega
  have desk := deskOf_launched st x e ph s
  have rest := launched_eq st x e ph s
  generalize launched st x e ph s = t at places desk rest
  have hbm : t.hbm = s.hbm := by rw [rest]
  have ports : t.ports = s.ports := by rw [rest]
  have rings : t.rings = s.rings := by rw [rest]
  have views : t.views = s.views := by rw [rest]
  have departed : t.step.departed = s.step.departed := by
    rw [rest]
    split <;> rfl
  refine Follows.of_eq ?_ rings departed
  simp only [flowOf, desk, hbm, ports, places, rings, viewOf, views]

/-- What a `DISPATCH` in turn and not void into the windows of other devices leaves (08 R182). -/
theorem issue_dispatches (h : Stands st x e s) (turn : InTurn x) (live : slotVoid s x.slotNow = false) (op : e.op = 0x44)
    (operands : ∀ d ∈ operandsOf s e, PlainSp d) (away : ∀ k < e.experts, Away s (placedAt s (streamInst s x) e k).window)
    (filled : 0 < (descOr s e.descA).rowBytes) (short : (descOr s e.descA).rowBytes ≤ 15360) :
    ∃ t, exec (.dispatch st []) s = .next t ∧ (∀ k < e.experts, BlockSent s (streamInst s x) e k t) ∧
      getF t (Reg.dispatchRows (streamInst s x)) 47 0 =
        (getF s (Reg.dispatchRows (streamInst s x)) 47 0 + sentSlots s (streamInst s x) e) % 2 ^ 48 ∧
      getF t (Reg.dispatchSkipped (streamInst s x)) 47 0 =
        (getF s (Reg.dispatchSkipped (streamInst s x)) 47 0 + withheldSlots s (streamInst s x) e) % 2 ^ 48 ∧
      t.sp = s.sp ∧ t.hbm = s.hbm := by
  have flow := (follows_launched st x e [] s).flow
  have counter (a n : Nat) (apart : a ≠ Reg.slotMixed) :
      (getF (launched st x e [] s) a 47 0 + n) % 2 ^ 48 = (getF s a 47 0 + n) % 2 ^ 48 := by
    rw [getF, regsBut_launched st x e [] s a (by simpa using apart)]
    rfl
  have context : ctxNow s st x e [] = ctxOf s st x x.pos e x.slotNow false [] := by rw [ctxNow, live]
  obtain ⟨sends, blocks⟩ := dispatchEff_sends (c := ctxOf s st x x.pos e x.slotNow false []) rfl rfl operands op away filled short
    { s := launched st x e [] s } flow
  refine ⟨_, rfl, ?_⟩
  have same := sendView_settleRun (c := ctxOf s st x x.pos e x.slotNow false []) sends.late sends.need sends.evs
    (launched st x e [] s)
  have settled := issue_of_stands h (ok := fun e => e.op == 0x44) (beq_iff_eq.2 op) [] dispatchEff
  rw [if_pos turn, context] at settled
  rw [settled]
  have after := sends.follows.flow.trans flow
  have sp : (deskOf (dispatchEff (ctxOf s st x x.pos e x.slotNow false []) { s := launched st x e [] s }).s).sp = s.sp :=
    congrArg (fun f => f.desk.sp) after
  have hbm : (flowOf (dispatchEff (ctxOf s st x x.pos e x.slotNow false []) { s := launched st x e [] s }).s).hbm = s.hbm :=
    congrArg Flow.hbm after
  refine ⟨fun k inside q slot p chosen alive => (blocks k inside q slot p chosen alive).view same, ?_, ?_,
    (congrArg (fun v => v.2.2.2.1) same).trans sp, (congrArg (fun v => v.2.2.2.2) same).trans hbm⟩
  · refine (getF_of_sendView same _ 47 0).trans (sends.rows.trans (counter _ _ ?_))
    simp only [Reg.dispatchRows, Reg.slotMixed, reg]
    omega
  · refine (getF_of_sendView same _ 47 0).trans (sends.skipped.trans (counter _ _ ?_))
    simp only [Reg.dispatchSkipped, Reg.slotMixed, reg]
    omega

/-! ## The obligation -/

/-- Every such entry issues in some frame. -/
theorem allEntries_issue {ph : List Phys} :
    ∀ p ∈ dataEntries st ph ++ ringEntries st ph ++ markerEntries st ph, ∃ v, Issues v st ph p := by
  intro p mem
  rcases List.mem_append.1 mem with plain | marker
  · rcases List.mem_append.1 plain with data | ring
    · exact ⟨_, dataEntries_issue p data⟩
    · exact ⟨_, ringEntries_issue p ring⟩
  · exact ⟨_, markerEntries_issue p marker⟩

/-- Settles O18: every such command issues an entry whose effect keeps the frame, the results stand on the desk of its run, and a
`DISPATCH` queues row by row. -/
theorem dataEntriesLaunch : Obligations.DataEntriesLaunch := by
  unfold Obligations.DataEntriesLaunch
  refine fun st ph x e s h => ⟨fun p mem ok => ?_, fun p mem ok => ?_, fun p mem ok => ?_, fun p mem ok behind => ?_,
    fun turn live result operands packs unpacks sources apart p mem ok => ?_,
    fun turn live op operands away filled short => ?_⟩
  · obtain ⟨t, y, runs, here, launches, frame, passes, ran⟩ := exec_launches (dataEntries_issue p mem) h ok
    refine ⟨t, y, runs, here, launches, frame, passes rfl, fun turn running near => ?_⟩
    obtain ⟨f, inside, idx, marked, done⟩ := ran turn running near
    exact ⟨f, inside, idx, marked, done rfl⟩
  · obtain ⟨t, y, runs, here, launches, frame, passes, ran⟩ := exec_launches (ringEntries_issue p mem) h ok
    refine ⟨t, y, runs, here, launches, frame, passes rfl, fun turn running near => ?_⟩
    obtain ⟨f, inside, idx, marked, -⟩ := ran turn running near
    exact ⟨f, inside, idx, marked⟩
  · obtain ⟨t, y, runs, here, launches, frame, -, ran⟩ := exec_launches (markerEntries_issue p mem) h ok
    refine ⟨t, y, runs, here, launches, frame, fun turn running near => ?_⟩
    obtain ⟨f, inside, idx, marked, done⟩ := ran turn running near
    exact ⟨f, inside, idx, marked, done rfl⟩
  · obtain ⟨v, issues⟩ := allEntries_issue p mem
    exact exec_waits issues h ok behind
  · obtain ⟨eff, keeps, runs, leaves⟩ := dataEntries_leave (c := ctxOf s st x x.pos e x.slotNow false []) rfl rfl result operands
      packs unpacks sources p mem ok
    obtain ⟨y, here, done, gives⟩ := issue_gives keeps h turn live ok leaves apart
    exact ⟨_, y, runs s, here, done, gives⟩
  · obtain ⟨t, runs, sent, rows, skipped, sp, hbm⟩ := issue_dispatches h turn live op operands away filled short
    refine ⟨t, runs, ?_, rows, skipped, sp, hbm⟩
    rintro k q p g pl inside slot chosen rfl alive rfl
    obtain ⟨⟨m, queued, row⟩, departed⟩ := sent k inside q slot p chosen alive
    exact ⟨m, queued, row.data, row.typ, row.op, row.tagged, row.tag, row.group, row.window, row.offset, departed⟩

end Sys2Proof.Machine
end

