-- ==== Sys2Proof/Proofs/ArrayFrame.lean ====
section
/-! SUPPORT. FRAME. What the reads, the faults and the end of an entry leave of the accumulators, their step counts and the stash; a
write to the scratchpads changes nothing else of these. -/

namespace Sys2Proof.Machine
open Sys2Proof.Stmt

/-! ## The accumulators -/

/-- The accumulators with their step counts, and the stash. -/
def accState (s : State) : Cells F32 × Cells Nat × List StashRec := (s.acc, s.ksteps, s.stash)

/-- The scratchpads with them. -/
def held (s : State) : Mem × Cells F32 × Cells Nat × List StashRec := (s.sp, accState s)

/-- What a run holds, and what holds the run back. -/
def heldRun (r : Run) : (Mem × Cells F32 × Cells Nat × List StashRec) × Bool × List (Nat × Nat) := (held r.s, r.late, r.need)

variable {s t : State} {r : Run}

theorem accState_of_held (h : held t = held s) : accState t = accState s := congrArg Prod.snd h

theorem held_of_faultState (h : faultState t = faultState s) : held t = held s := by
  have shown (u : State) : held (faultState u) = held u := rfl
  rw [← shown t, h, shown]

theorem held_rset (s : State) (a : Nat) (w : W64) : held (rset s a w) = held s := by simp [held, accState]

@[simp] theorem ite_held (p : Prop) [Decidable p] (s t : State) :
    held (if p then s else t) = if p then held s else held t := apply_ite held p s t

theorem held_errCount (b : Blk) (i n : Nat) (s : State) : held (errCount b i n s) = held s := held_rset s _ _

theorem held_countCorrected (n : Nat) (s : State) : held (countCorrected n s) = held s :=
  held_of_faultState (faultState_countCorrected s n)

theorem held_spTouch (core off n : Nat) (s : State) : held (spTouch core off n s) = held s := by
  unfold spTouch
  split
  · rfl
  · exact foldl_keeps held _ (fun s _ => held_rset s _ _) _ s

theorem held_noteUnitFault (ty inst sub : Nat) (s : State) : held (noteUnitFault ty inst sub s) = held s := rfl

/-- A corrected word that is noted (10 R222). -/
theorem held_noteFix (l : List Nat) (core : Nat) (s : State) :
    held (countCorrected 1 (errCount .core core 1 { s with spFix := l })) = held s := by
  rw [held_countCorrected, held_errCount]
  rfl

/-! ## The end of a run -/

theorem held_pageRecord (b : Blk) (f : FaultRec) (s : State) : held (pageRecord b f s) = held s :=
  held_of_faultState (faultState_pageRecord s b f)

theorem held_hardFault (b : Blk) (f : FaultRec) (s : State) : held (hardFault b f s) = held s :=
  held_of_faultState (faultState_hardFault s b f)

theorem held_modFlight (st idx : Nat) (g : Flight → Flight) (s : State) : held (modFlight st idx g s) = held s := by
  rw [modFlight_eq, modStream]
  split <;> rfl

theorem held_noteUpdate (st idx : Nat) (e : Entry) (s : State) : held (noteUpdate st idx e s) = held s := by
  unfold noteUpdate
  split
  · split <;> rfl
  · rfl

theorem held_dropNow (c : Confined) (st idx : Nat) (slot : Option Nat) (s : State) : held (dropNow c st idx slot s) = held s := by
  have added (f : FaultRec) (u : State) : held (addConfined f u) = held u := rfl
  rw [dropNow, added, held_pageRecord]

theorem held_confineEntry (st idx : Nat) (s : State) (c : Confined) : held (confineEntry st idx s c) = held s := by
  unfold confineEntry
  split
  · exact (held_modFlight _ _ _ _).trans (held_dropNow _ _ _ _ s)
  · rw [confinedIdle, held_pageRecord, ite_held, held_errCount, ite_self]

theorem held_crossingLoss (e : Evt) (s : State) : held (crossingLoss e s) = held s := by
  unfold crossingLoss
  split
  · refine (foldl_keeps held _ (fun s e => held_hardFault _ _ s) _ _).trans ?_
    exact held_of_faultState (faultState_of_hbmFrame (hbmFrame_loseChannel s e.inst))
  · rfl

/-- No event of an entry reaches the scratchpads, the accumulators or the stash (14 R314, R322). -/
theorem held_raiseEntry (st idx : Nat) (tagged : Bool) (s : State) (e : Evt) : held (raiseEntry st idx tagged s e) = held s := by
  unfold raiseEntry
  split
  · exact held_confineEntry st idx s _
  · dsimp only
    split
    · exact (held_modFlight _ _ _ _).trans (held_pageRecord _ _ s)
    · rw [held_crossingLoss, held_hardFault]

/-- A run that waits for nothing is settled with what it holds. -/
theorem held_settleRun {c : Ctx} (late : r.late = false) (need : r.need = []) (u : State) :
    held (settleRun c r u) = held r.s := by
  rw [settleRun, late, need, if_neg Bool.false_ne_true, if_pos rfl]
  dsimp only
  rw [foldl_keeps held _ (held_raiseEntry _ _ _), held_noteUpdate, held_modFlight]

/-! ## Faults of a run -/

theorem heldRun_mod {f : State → State} (same : held (f r.s) = held r.s) : heldRun (r.mod f) = heldRun r := by
  simp only [heldRun, Run.mod, same]

@[simp] theorem ite_heldRun (p : Prop) [Decidable p] (q r : Run) :
    heldRun (if p then q else r) = if p then heldRun q else heldRun r := apply_ite heldRun p q r

theorem heldRun_raise (r : Run) (e : Evt) : heldRun (r.raise e) = heldRun r := by
  unfold Run.raise
  split <;> rfl

theorem held_incMod (s : State) (a hi lo n : Nat) : held (incMod s a hi lo n) = held s := held_rset s _ _

theorem held_unitLog (c : Ctx) (unit kind detail : Nat) (s : State) : held (unitLog c unit kind detail s) = held s := by
  unfold unitLog
  dsimp only
  rw [ite_held, held_rset, ite_self]

theorem heldRun_unitFault (c : Ctx) (unit kind detail : Nat) (e : Evt) (r : Run) :
    heldRun ((r.mod (unitLog c unit kind detail)).raise e) = heldRun r :=
  (heldRun_raise _ e).trans (heldRun_mod (held_unitLog c unit kind detail r.s))

/-- What the physical world did to the unit and the crossings reaches none of it (02 R35 to R37). -/
theorem heldRun_physEvents (c : Ctx) (r : Run) : heldRun (physEvents c r) = heldRun r := by
  have counted (b : Blk) (i : Nat) (r : Run) : heldRun (r.mod fun s => countCorrected 1 (errCount b i 1 s)) = heldRun r :=
    heldRun_mod ((held_countCorrected _ _).trans (held_errCount b i 1 r.s))
  refine foldl_keeps heldRun _ (fun r p => ?_) c.ph r
  cases p with
  | unitUncorrectable u lo n => simp only [ite_heldRun, heldRun_unitFault, ite_self]
  | junctionResidue u => simp only [ite_heldRun, heldRun_unitFault, ite_self]
  | unitCorrected => simp only [ite_heldRun, counted, ite_self]
  | crossingUncorrectable b i d => exact heldRun_raise r _
  | crossingCorrected b i => exact counted b i r
  | sramCorrected => exact heldRun_mod (held_rset r.s _ _)
  | waits f rd w st m =>
    dsimp only
    split
    · exact heldRun_mod (by simp only [held_incMod])
    · split
      · split
        · rfl
        · exact heldRun_mod (held_incMod r.s _ _ _ _)
      · rfl
  | gridWaits k rd w =>
    dsimp only
    split
    · rfl
    · exact heldRun_mod (by simp only [held_incMod])
  | _ => rfl

/-- A residue mismatch is logged and raised, and the accumulators go on with their sums (04 R99). -/
theorem heldRun_residueFault (c : Ctx) (fs : List Feed) (live : List Nat) (r : Run) :
    heldRun (residueFault c fs live r) = heldRun r := by
  refine foldl_keeps heldRun _ (fun r p => ?_) c.ph r
  cases p with
  | residue a row col =>
    dsimp only
    split
    · rfl
    · rw [heldRun, ite_held, held_rset, ite_self]
      rfl
  | _ => rfl

/-! ## Reads and writes of the scratchpads -/

section
variable (c : Ctx)

theorem accState_spFault (core w : Nat) (r : Run) : accState (spFault c core w r).s = accState r.s := by
  refine accState_of_held ?_
  simp only [spFault, Run.raise_s, ite_held, held_rset, held_noteUnitFault, ite_self]

theorem accState_spRead (core off n : Nat) (r : Run) : accState (spRead c core off n r).2.s = accState r.s := by
  simp only [spRead]
  rw [foldl_keeps (fun r : Run => accState r.s) _ fun r w => accState_spFault c core w r]
  refine accState_of_held ?_
  simp only [Run.mod]
  rw [foldl_keeps held, held_spTouch]
  intro s a
  rw [ite_held, held_noteFix, ite_self]

theorem accState_spWrite (core off : Nat) (bs : List Byte) (r : Run) : accState (spWrite c core off bs r).s = accState r.s := by
  have counted (s : State) : accState (countCorrected 1 (errCount .core core 1 s)) = accState s :=
    accState_of_held ((held_countCorrected _ _).trans (held_errCount _ _ _ s))
  have fixed (l : List Nat) (s : State) : accState (l.foldl (fun s a =>
      if s.spFix.contains a then s else countCorrected 1 (errCount .core core 1 s)) s) = accState s := by
    refine foldl_keeps accState _ (fun s a => ?_) l s
    split
    · rfl
    · exact counted s
  have lost (l : List Nat) (base : Nat) (r : Run) : accState (l.foldl (fun r w =>
      spFault c core w (r.mod fun s => { s with sp := memZero s.sp (base + w) 8 })) r).s = accState r.s := by
    refine foldl_keeps (fun r : Run => accState r.s) _ (fun r w => ?_) l r
    exact accState_spFault c core w _
  have touched (m : Mem) (l : List Nat) (s : State) :
      accState (spTouch core off bs.length { s with sp := m, spFix := l }) = accState s := by
    rw [accState_of_held (held_spTouch core off bs.length _)]
    rfl
  exact (touched _ _ _).trans ((lost _ _ _).trans (fixed _ _))

variable {d : Desc} (place : d.place = 1)
include place

theorem accState_getBytes (off n : Nat) (r : Run) : accState (getBytes c d off n r).2.s = accState r.s := by
  unfold getBytes
  split
  · rfl
  · rw [if_neg (show d.place ≠ 0 by omega)]
    exact accState_spRead c _ off n r

theorem accState_putBytes (g : GTag) (off : Nat) (bs : List Byte) (r : Run) : accState (putBytes c g d off bs r).s = accState r.s := by
  unfold putBytes
  split
  · rfl
  · rw [if_neg (show d.place ≠ 0 by omega)]
    exact accState_spWrite c _ off bs r

theorem accState_tryRow (i : Nat) (r : Run) : accState (tryRow c d i r).2.s = accState r.s := accState_getBytes c place _ _ _

omit place in
theorem accState_reportRows (id : Nat) (rows : List OutRow) (s : State) : accState (reportRows c id rows s) = accState s := by
  rw [reportRows_eq]
  split
  · rfl
  · unfold report
    split
    · rfl
    · dsimp only
      split <;> rfl

omit place
variable (plain : PlainSp d)
include plain

theorem accState_loadSome (rows : List Nat) (r : Run) : accState (loadSome c d rows r).2.s = accState r.s := by
  have read : accState (trySome c d rows r).2.s = accState r.s := by
    rw [trySome, if_neg (by have := plain.2.1; omega)]
    exact foldl_keeps (fun x : List (Nat × Option (List Nat)) × Run => accState x.2.s) _
      (fun x i => accState_tryRow c plain.1 i x.2) rows ([], r)
  simp only [loadSome, somePairs, scaleDesc_plain plain]
  exact read

theorem accState_writeSome (id : Nat) (rows : List (Nat × OutRow)) (r : Run) : accState (writeSome c d id rows r).s = accState r.s := by
  have stored (rows : List (Nat × List Nat)) (r : Run) : accState (storeSome c d rows r).s = accState r.s := by
    rw [storeSome, if_neg (by have := plain.2.1; omega)]
    exact foldl_keeps (fun r : Run => accState r.s) _ (fun r p => accState_putBytes c plain.1 _ _ _ r) rows r
  simp only [writeSome, scaleDesc_plain plain]
  exact (accState_reportRows c id _ _).trans (stored _ r)

end

end Sys2Proof.Machine
end

