-- ==== Sys2Proof/Proofs/Accumulators.lean ====
section
/-! SUPPORT. ARRAYS. Where the cells of a tile lie in the arrays (04 Table 04-2), and what clearing a set and running a tile leave in
each accumulator (04 R77 to R81). -/

namespace Sys2Proof.Machine
open Sys2Proof.Stmt

/-! ## Cells written one by one -/

section
variable {β ι : Type} [DecidableEq β] {d : Nat → β} {key : ι → Nat} {val : ι → β} {k : Nat}

theorem cellGet_foldl_set_ne (l : List ι) (m : Cells β) (other : ∀ x ∈ l, key x ≠ k) :
    cellGet d (l.foldl (fun m x => cellSet d m (key x) (val x)) m) k = cellGet d m k := by
  induction l generalizing m with
  | nil => rfl
  | cons x l ih =>
    obtain ⟨here, rest⟩ := List.forall_mem_cons.1 other
    rw [List.foldl_cons, ih _ rest, cellGet_set_ne d m _ here.symm]

/-- A cell that is written holds its value, if every write of it brings that value. -/
theorem cellGet_foldl_set_mem {l : List ι} (m : Cells β) {x : ι} (mem : x ∈ l) (one : ∀ y ∈ l, key y = key x → val y = val x) :
    cellGet d (l.foldl (fun m x => cellSet d m (key x) (val x)) m) (key x) = val x := by
  induction l generalizing m x with
  | nil => exact nomatch mem
  | cons z l ih =>
    obtain ⟨first, rest⟩ := List.forall_mem_cons.1 one
    rw [List.foldl_cons]
    by_cases again : ∃ y ∈ l, key y = key x
    · obtain ⟨y, later, same⟩ := again
      rw [← same, ih _ later fun u mem eq => (rest u mem (eq.trans same)).trans (rest y later same).symm, rest y later same]
    · have apart : ∀ y ∈ l, key y ≠ key x := fun y mem same => again ⟨y, mem, same⟩
      obtain rfl : x = z := (List.mem_cons.1 mem).resolve_right fun later => apart x later rfl
      rw [cellGet_foldl_set_ne l _ apart, cellGet_set_same]

end

/-! ## Where the cells lie -/

/-- A tile of `batch` products, `rows` packed rows and `cols` columns fits the arrays of a gang mode (04 Table 04-2). -/
def FitsArrays (gang batch rows cols : Nat) : Prop :=
  (gang = 0 ∧ batch ≤ 4 ∧ rows ≤ 64 ∧ cols ≤ 64) ∨ (gang = 1 ∧ batch ≤ 2 ∧ rows ≤ 128 ∧ cols ≤ 64) ∨
    (gang = 2 ∧ batch ≤ 1 ∧ rows ≤ 128 ∧ cols ≤ 128)

theorem gangFits_iff (s : State) (core : Nat) (e : Entry) : GangFits s core e ↔
    FitsArrays e.gang ((descOr s e.descA).dim 2) (liveIn s core e).length ((descOr s e.descB).dim 1) := Iff.rfl

section
variable {gang batch rows cols : Nat} (fits : FitsArrays gang batch rows cols) {q p j : Nat}
  (product : q < batch) (row : p < rows) (column : j < cols)
include fits product row column

theorem cellOf_bounds : (cellOf gang q p j).1 ∈ arraysOf gang batch ∧ (cellOf gang q p j).2.1 < 64 ∧ (cellOf gang q p j).2.2 < 64 := by
  rcases fits with ⟨rfl, _, _, _⟩ | ⟨rfl, _, _, _⟩ | ⟨rfl, _, _, _⟩
  · simp only [cellOf, arraysOf, if_true, List.mem_range]
    omega
  · have half : p / 64 = 0 ∨ p / 64 = 1 := by omega
    simp only [cellOf, arraysOf, one_ne_zero, if_false, if_true, List.mem_append, List.mem_range, List.mem_map]
    refine ⟨?_, by omega, by omega⟩
    rcases half with lower | upper
    · exact Or.inl (by omega)
    · exact Or.inr ⟨q, product, by omega⟩
  · have quarter : 2 * (p / 64) + j / 64 = 0 ∨ 2 * (p / 64) + j / 64 = 1 ∨ 2 * (p / 64) + j / 64 = 2 ∨
        2 * (p / 64) + j / 64 = 3 := by omega
    simp only [cellOf, arraysOf, OfNat.ofNat_ne_zero, OfNat.ofNat_ne_one, if_false, List.mem_cons, List.not_mem_nil, or_false]
    exact ⟨quarter, by omega, by omega⟩

/-- The set of an array in which a cell's accumulator lies. -/
theorem accKey_div (core set : Nat) : accKey core set (cellOf gang q p j) / 4096 = setKey core (cellOf gang q p j).1 set := by
  obtain ⟨-, low, narrow⟩ := cellOf_bounds fits product row column
  simp only [accKey]
  omega

/-- Two elements of a tile never share an accumulator. -/
theorem accKey_inj {core set q' p' j' : Nat} (product' : q' < batch) (row' : p' < rows) (column' : j' < cols)
    (same : accKey core set (cellOf gang q' p' j') = accKey core set (cellOf gang q p j)) : q' = q ∧ p' = p ∧ j' = j := by
  have array : setKey core (cellOf gang q' p' j').1 set = setKey core (cellOf gang q p j).1 set := by
    rw [← accKey_div fits product row column, ← accKey_div fits product' row' column', same]
  obtain ⟨-, low, narrow⟩ := cellOf_bounds fits product row column
  obtain ⟨-, low', narrow'⟩ := cellOf_bounds fits product' row' column'
  simp only [accKey, array] at same
  simp only [setKey] at array
  rcases fits with ⟨rfl, _, _, _⟩ | ⟨rfl, _, _, _⟩ | ⟨rfl, _, _, _⟩
  · simp only [cellOf, if_true] at array same low low' narrow narrow'
    omega
  · simp only [cellOf, one_ne_zero, if_false, if_true] at array same
    omega
  · simp only [cellOf, OfNat.ofNat_ne_zero, OfNat.ofNat_ne_one, if_false] at array same
    omega

end

/-! ## Clearing (04 R80, R81) -/

section
variable (core set : Nat)

theorem clearSets_cons (a : Nat) (arrays : List Nat) (s : State) :
    clearSets core set (a :: arrays) s = clearSets core set arrays { s with
      acc := cellClear (setKey core a set * 4096) 4096 s.acc, ksteps := cellErase (setKey core a set) s.ksteps } := rfl

/-- Clearing changes the accumulators and their step counts alone. -/
theorem clearSets_eq (arrays : List Nat) (s : State) : clearSets core set arrays s =
    { s with acc := (clearSets core set arrays s).acc, ksteps := (clearSets core set arrays s).ksteps } := by
  induction arrays generalizing s with
  | nil => rfl
  | cons a arrays ih => rw [clearSets_cons, ih]

theorem deskOf_clearSets (arrays : List Nat) (s : State) : deskOf (clearSets core set arrays s) = deskOf s := by
  rw [clearSets_eq]
  rfl

theorem clearSets_stash (arrays : List Nat) (s : State) : (clearSets core set arrays s).stash = s.stash := by
  rw [clearSets_eq]

/-- The accumulators of the cleared sets are at +0, and no other changes. -/
theorem cellGet_clearSets_acc (arrays : List Nat) (s : State) (k : Nat) :
    cellGet noF32 (clearSets core set arrays s).acc k =
      if ∃ a ∈ arrays, k / 4096 = setKey core a set then 0 else cellGet noF32 s.acc k := by
  induction arrays generalizing s with
  | nil => simp [clearSets]
  | cons a arrays ih =>
    have inside : (setKey core a set * 4096 ≤ k ∧ k < setKey core a set * 4096 + 4096) ↔ k / 4096 = setKey core a set := by omega
    simp only [clearSets_cons, ih, cellGet_clear, inside, List.exists_mem_cons_iff]
    by_cases here : k / 4096 = setKey core a set
    · simp [here, noF32]
    · simp [here]

theorem cellGet_clearSets_ksteps (arrays : List Nat) (s : State) (k : Nat) :
    cellGet noNat (clearSets core set arrays s).ksteps k =
      if ∃ a ∈ arrays, k = setKey core a set then 0 else cellGet noNat s.ksteps k := by
  induction arrays generalizing s with
  | nil => simp [clearSets]
  | cons a arrays ih =>
    simp only [clearSets_cons, ih, cellGet_erase, List.exists_mem_cons_iff]
    by_cases here : k = setKey core a set
    · simp [here, noNat]
    · simp [here]

end

/-! ## Accumulation (04 R77 to R80) -/

/-- The cells of a tile: product, row, packed row and column. -/
def tileCells (batch : Nat) (live : List Nat) (cols : Nat) : List (Nat × Nat × Nat × Nat) :=
  ((List.range batch).map fun q =>
    (live.zipIdx.map fun x => (List.range cols).map fun j => (q, x.1, x.2, j)).flatten).flatten

theorem mem_tileCells {batch : Nat} {live : List Nat} {cols : Nat} {x : Nat × Nat × Nat × Nat} :
    x ∈ tileCells batch live cols ↔ x.1 < batch ∧ live[x.2.2.1]? = some x.2.1 ∧ x.2.2.2 < cols := by
  obtain ⟨q, i, p, j⟩ := x
  simp only [tileCells, ← List.flatMap_def, List.mem_flatMap, List.mem_range, List.mem_map, Prod.mk.injEq]
  constructor
  · rintro ⟨_, inside, y, packed, _, column, rfl, rfl, rfl, rfl⟩
    exact ⟨inside, List.mem_zipIdx_iff_getElem?.1 packed, column⟩
  · rintro ⟨inside, packed, column⟩
    exact ⟨q, inside, (i, p), List.mem_zipIdx_iff_getElem?.2 packed, j, column, rfl, rfl, rfl, rfl⟩

section
variable (c : Ctx) (core : Nat) (a b : Desc) (av bv : List (List Val)) (s : State)

/-- What the accumulator of product `q`, row `i`, packed row `p` and column `j` holds after a tile. -/
def cellSum (x : Nat × Nat × Nat × Nat) : F32 :=
  let cell := cellOf c.e.gang x.1 x.2.2.1 x.2.2.2
  cellRun s.job.seed.toNat (stepNo s) c.e.tensorId (cellGet noNat s.ksteps (setKey core cell.1 (accSet c.e)))
    (x.1 * 16384 + x.2.1 * 128 + x.2.2.2) (kPer a.fmt) c.e.longSum (av.getD (x.1 * a.dim 1 + x.2.1) [])
    (bv.getD (x.1 * b.dim 1 + x.2.2.2) []) (cellGet noF32 s.acc (accKey core (accSet c.e) cell))

variable (live : List Nat)

theorem accumulate_acc : (accumulate c core a b live av bv s).acc =
    (tileCells (a.dim 2) live (b.dim 1)).foldl (fun acc x =>
      cellSet noF32 acc (accKey core (accSet c.e) (cellOf c.e.gang x.1 x.2.2.1 x.2.2.2)) (cellSum c core a b av bv s x)) s.acc := rfl

theorem deskOf_accumulate : deskOf (accumulate c core a b live av bv s) = deskOf s := rfl

theorem accumulate_stash : (accumulate c core a b live av bv s).stash = s.stash := rfl

variable {live} (fits : FitsArrays c.e.gang (a.dim 2) live.length (b.dim 1))
include fits

/-- Every cell of the tile holds its sum. -/
theorem cellGet_accumulate {q p i j : Nat} (product : q < a.dim 2) (packed : live[p]? = some i) (column : j < b.dim 1) :
    cellGet noF32 (accumulate c core a b live av bv s).acc (accKey core (accSet c.e) (cellOf c.e.gang q p j)) =
      cellSum c core a b av bv s (q, i, p, j) := by
  have row {p i : Nat} (packed : live[p]? = some i) : p < live.length := (List.getElem?_eq_some_iff.1 packed).1
  rw [accumulate_acc]
  refine cellGet_foldl_set_mem (x := (q, i, p, j)) s.acc (mem_tileCells.2 ⟨product, packed, column⟩) ?_
  rintro ⟨q', i', p', j'⟩ mem same
  obtain ⟨product', packed', column'⟩ := mem_tileCells.1 mem
  obtain ⟨rfl, rfl, rfl⟩ := accKey_inj fits product (row packed) column product' (row packed') column' same
  rw [packed] at packed'
  rw [Option.some.inj packed']

/-- No other set changes. -/
theorem cellGet_accumulate_off {k : Nat} (off : ∀ r ∈ arraysOf c.e.gang (a.dim 2), k / 4096 ≠ setKey core r (accSet c.e)) :
    cellGet noF32 (accumulate c core a b live av bv s).acc k = cellGet noF32 s.acc k := by
  rw [accumulate_acc]
  refine cellGet_foldl_set_ne _ s.acc ?_
  rintro ⟨q, i, p, j⟩ mem rfl
  obtain ⟨product, packed, column⟩ := mem_tileCells.1 mem
  have row : p < live.length := (List.getElem?_eq_some_iff.1 packed).1
  exact off _ (cellOf_bounds fits product row column).1 (accKey_div fits product row column core (accSet c.e))

end

end Sys2Proof.Machine
end

