-- ==== Sys2Proof/Proofs/MatmulFeed.lean ====
section
/-! SUPPORT. ARRAYS. What a `MATMUL` that meets no uncorrectable scratchpad word reads, and the sums that it leaves in the accumulators
(04 R77 to R93). -/

namespace Sys2Proof.Machine
open Sys2Proof.Stmt

/-- The desk of a run, and the accumulators beside it. -/
def bench (r : Run) : RunDesk × Cells F32 × Cells Nat × List StashRec := (runDesk r, accState r.s)

variable {s t : State} {c : Ctx} {d : Desc} {q r : Run}

theorem bench_mod {f : State → State} (desk : deskOf (f r.s) = deskOf r.s) (same : held (f r.s) = held r.s) :
    bench (r.mod f) = bench r := Prod.ext (runDesk_mod desk) (accState_of_held same)

theorem desk_of_bench (same : bench q = bench r) (h : deskOf r.s = deskOf s) : deskOf q.s = deskOf s :=
  desk_of_runDesk (congrArg Prod.fst same) h

/-! ## Reads -/

theorem deskOf_noteFix (l : List Nat) (core : Nat) (s : State) :
    deskOf (countCorrected 1 (errCount .core core 1 { s with spFix := l })) = deskOf s := by
  have counted (s : State) : deskOf (countCorrected 1 s) = deskOf s := by
    unfold countCorrected
    split <;> rfl
  have apart : Reg.errCount .core core % 0x10000 ≠ 16 := off_blkCtrl .core core (by decide) (by decide)
  exact (counted _).trans (deskOf_rset _ apart _)

theorem scaleDesc_of_desk (h : deskOf t = deskOf s) (d : Desc) : scaleDesc t d = scaleDesc s d := by
  have job : t.job = s.job := congrArg Desk.job h
  simp only [scaleDesc, descAt, job]

theorem feedCodes_of_desk (h : deskOf t = deskOf s) (core : Nat) (d : Desc) : feedCodes t core d = feedCodes s core d := by
  have sp : t.sp = s.sp := congrArg Desk.sp h
  simp only [feedCodes, sp]

section
variable (sound : ∀ k o, Phys.spUncorrectable k o ∉ c.ph)
include sound

theorem spBad_of_sound (core off n unit : Nat) : spBad c.ph core off n unit = [] := by
  rw [spBad, List.filterMap_eq_nil_iff]
  intro p mem
  cases p with
  | spUncorrectable k o => exact absurd mem (sound k o)
  | _ => rfl

theorem spRead_sound (core off n : Nat) (r : Run) :
    (spRead c core off n r).1 = memRead r.s.sp (core * 524288 + off) n ∧ bench (spRead c core off n r).2 = bench r := by
  have sp : (spTouch core off n r.s).sp = r.s.sp := congrArg Desk.sp (deskOf_spTouch core off n r.s)
  refine ⟨by simp only [spRead, spBad_of_sound sound, List.foldl_nil, Run.mod, sp], Prod.ext ?_ (accState_spRead c core off n r)⟩
  simp only [bench, spRead, spBad_of_sound sound, List.foldl_nil]
  refine (runDesk_mod (foldl_keeps deskOf _ (fun s a => ?_) _ _)).trans (runDesk_mod (deskOf_spTouch _ _ _ _))
  rw [ite_deskOf, deskOf_noteFix, ite_self]

theorem getBytes_sound (place : d.place = 1) (off n : Nat) (r : Run) :
    (getBytes c d off n r).1 = memRead r.s.sp (coreIn r.s c.inst d * 524288 + off) n ∧ bench (getBytes c d off n r).2 = bench r := by
  unfold getBytes
  split
  · next none => exact ⟨by rw [none]; rfl, rfl⟩
  · rw [if_neg (show d.place ≠ 0 by omega)]
    exact spRead_sound sound _ off n r

omit sound in
/-- A read that does not fail, of a run that notes whether its reads have. -/
theorem bench_noteFailed {q r : Run} (same : bench q = bench { r with failed := false }) :
    q.failed = false ∧ bench { q with failed := r.failed || q.failed } = bench r := by
  simp only [bench, runDesk, Prod.mk.injEq] at same
  obtain ⟨⟨state, late, need, sent, good, evs⟩, acc⟩ := same
  refine ⟨good, ?_⟩
  simp only [bench, runDesk, state, late, need, sent, good, evs, acc, Bool.or_false]

/-- The mask of a tile (04 R89). -/
theorem loadRow_sound (place : d.place = 1) (h : deskOf r.s = deskOf s) (i : Nat) :
    (loadRow c d i r).1 = codesIn s c.inst d i ∧ bench (loadRow c d i r).2 = bench r := by
  obtain ⟨value, same⟩ := getBytes_sound sound place (d.rowOff i) d.rowBytes { r with failed := false }
  obtain ⟨good, noted⟩ := bench_noteFailed same
  refine ⟨?_, noted⟩
  rw [← codesIn_of_desk h place]
  simp only [loadRow, tryRow, good, value, codesIn, bytesIn, placeMem, rowAddr, if_pos place]
  rfl

/-- The rows of product `b` of a tensor in feed layout behind those read before it (09 R198). -/
def readProduct (c : Ctx) (d : Desc) (x : List (Option (List Nat)) × Run) (b : Nat) : List (Option (List Nat)) × Run :=
  let o := d.offset + b * nth d.stride 2 * 64
  let y := getBytes c d o d.product { x.2 with failed := false }
  (x.1 ++ (List.range (d.dim 1)).map fun i =>
      if y.2.failed && (feedLines d [i]).any fun l => partLost c d o d.product (o + 64 * l) 64 y.2 then none
      else some (feedRow d i y.1),
    { y.2 with failed := x.2.failed || y.2.failed })

omit sound in
theorem tryRows_feed (layout : d.layout = 1) (r : Run) :
    tryRows c d r = (List.range (d.dim 2)).foldl (readProduct c d) ([], r) := by
  rw [tryRows, if_pos layout]
  rfl

theorem loadRows_feed (place : d.place = 1) (layout : d.layout = 1) (h : deskOf r.s = deskOf s) :
    (loadRows c d r).1 = feedCodes s (coreIn s c.inst d) d ∧ bench (loadRows c d r).2 = bench r := by
  have reads := foldl_reads (f := readProduct c d) (part := fun b => (List.range (d.dim 1)).map fun i => some (feedRow d i
      (memRead s.sp (coreIn s c.inst d * 524288 + (d.offset + b * nth d.stride 2 * 64)) d.product)))
    (List.range (d.dim 2)) (fun x b _ same => by
      obtain ⟨value, kept⟩ := getBytes_sound sound place (d.offset + b * nth d.stride 2 * 64) d.product { x.2 with failed := false }
      obtain ⟨good, noted⟩ := bench_noteFailed kept
      have desk : deskOf x.2.s = deskOf s := desk_of_runDesk same h
      have sp : x.2.s.sp = s.sp := congrArg Desk.sp desk
      refine ⟨?_, (congrArg Prod.fst noted).trans same⟩
      simp only [readProduct, good, value, sp, coreIn_of_desk desk, Bool.false_and, Bool.false_eq_true, if_false])
    ([], r) rfl
  have sums := foldl_keeps (fun x : List (Option (List Nat)) × Run => accState x.2.s) (readProduct c d)
    (fun x b => accState_getBytes c place _ _ _) (List.range (d.dim 2)) ([], r)
  simp only [loadRows, tryRows_feed layout]
  refine ⟨?_, Prod.ext reads.2 sums⟩
  rw [reads.1]
  simp [feedCodes, List.map_flatten, Function.comp_def]

/-- The block scales of an operand (09 R199). -/
theorem loadScales_sound (beside : ScalesBeside s c.inst d) (h : deskOf r.s = deskOf s) :
    (loadScales c d r).1 = (scaleDesc s d).elim [] (feedCodes s c.inst) ∧ bench (loadScales c d r).2 = bench r := by
  unfold loadScales
  rw [scaleDesc_of_desk h]
  cases scales : scaleDesc s d with
  | none => exact ⟨rfl, rfl⟩
  | some x =>
    obtain ⟨place, layout, core⟩ := beside x scales
    obtain ⟨value, same⟩ := loadRows_feed sound place layout h
    exact ⟨by rw [value, core]; rfl, same⟩

/-- The words that the feeder's reads correct are counted and noted (10 R222). -/
theorem bench_feedFaults (core : Nat) (lines : List Nat) (r : Run) : bench (feedFaults c core lines r) = bench r := by
  unfold feedFaults
  generalize c.ph = ph at sound ⊢
  induction ph generalizing r with
  | nil => rfl
  | cons p ph ih =>
    rw [List.foldl_cons, ih (sound := fun k o mem => sound k o (List.mem_cons_of_mem p mem))]
    cases p with
    | spUncorrectable k o => exact absurd List.mem_cons_self (sound k o)
    | spCorrected k o =>
      dsimp only
      split
      · exact bench_mod (deskOf_noteFix _ core r.s) (held_noteFix _ core r.s)
      · rfl
    | _ => rfl

end

/-! ## The parts of a MATMUL -/

/-- The mask row, if there is one, and the run behind its read (04 R89). -/
def readMask (c : Ctx) (r : Run) : Option (List Nat) × Run :=
  if c.e.maskDesc = noDesc then (none, r)
  else (some (loadRow c (descOr r.s c.e.maskDesc) 0 r).1, (loadRow c (descOr r.s c.e.maskDesc) 0 r).2)

/-- The run in which the K-steps begin (04 R80). -/
def startTile (c : Ctx) (a : Desc) (r : Run) : Run :=
  if c.e.accInit then r.mod (clearSets c.inst (accSet c.e) (arraysOf c.e.gang (a.dim 2))) else r

/-- The fed lines that hold an uncorrectable word (10 R223). -/
def badLines (c : Ctx) (lines : List Nat) : List Nat :=
  c.ph.filterMap fun p => match p with
    | .spUncorrectable k o => if k = c.inst ∧ lines.contains (o / 64) then some (o / 64) else none
    | _ => none

/-- The values that the arrays take of an operand. -/
def operandVals (c : Ctx) (d : Desc) (bad : List Nat) (scales : List (List Nat)) (s : State) : List (List Val) :=
  (feedRows c c.inst d bad s).mapIdx fun i row => feedVals d.fmt (scales.getD i []) row

/-- What a feed counts and touches (04 R92, 10 R219, R222, R226). -/
def noteFed (c : Ctx) (f : Fed) (r : Run) : Run :=
  f.lines.eraseDups.foldl (fun r l => r.mod (spTouch c.inst (l * 64) 64))
    ((feedFaults c c.inst f.lines r).mod fun s =>
      incMod (incMod (incMod s (Reg.arrayFed c.inst) 47 0 f.fed) (Reg.arraySkipped c.inst) 47 0 f.skipped)
        (Reg.spFeedConflict c.inst) 47 0 f.conflicts)

/-- The K-steps of a tile: what is read, counted and accumulated, and the residue faults. -/
def feedTile (c : Ctx) (a b : Desc) (live : List Nat) (r : Run) : Run :=
  let sa := loadScales c a r
  let sb := loadScales c b sa.2
  let fs := feedsOf (a.dim 2) (b.dim 1) live
  let f := feedAll sb.2.s c.ph c.inst c.e.zeroSkip a b fs
  residueFault c (fedFeeds sb.2.s c.ph c.inst c.e.zeroSkip a b fs) live
    ((noteFed c f sb.2).mod (accumulate c c.inst a b live (operandVals c a (badLines c f.lines) sa.1 sb.2.s)
      (operandVals c b (badLines c f.lines) sb.1 sb.2.s)))

/-- A `MATMUL` reads its mask, feeds its tile unless it is voided, and drains it where it says so. -/
theorem matmulEff_eq (c : Ctx) (r : Run) :
    matmulEff c r =
      let a := descOr r.s c.e.descA
      let b := descOr r.s c.e.descB
      let x := readMask c r
      let rows := liveRows (a.dim 1) x.1
      let q := if c.voided then startTile c a x.2 else feedTile c a b rows (startTile c a x.2)
      physEvents c (if c.e.drain then drainTile c c.inst a b rows q else q) := rfl

/-! ## What they leave -/

section
variable (sound : ∀ k o, Phys.spUncorrectable k o ∉ c.ph) (h : deskOf r.s = deskOf s)
include sound h

theorem readMask_sound (masked : c.e.maskDesc ≠ noDesc → PlainSp (descOr s c.e.maskDesc)) :
    liveRows ((descOr s c.e.descA).dim 1) (readMask c r).1 = liveIn s c.inst c.e ∧ bench (readMask c r).2 = bench r := by
  unfold readMask liveIn
  split
  · next none => exact ⟨rfl, rfl⟩
  · next some =>
    obtain ⟨value, same⟩ := loadRow_sound sound (masked some).1 h 0
    rw [descOr_of_desk h, value]
    exact ⟨rfl, same⟩

omit h in
theorem badLines_of_sound (lines : List Nat) : badLines c lines = [] := by
  rw [badLines, List.filterMap_eq_nil_iff]
  intro p mem
  cases p with
  | spUncorrectable k o => exact absurd mem (sound k o)
  | _ => rfl

omit h in
theorem bench_noteFed (f : Fed) (r : Run) : bench (noteFed c f r) = bench r := by
  have fed : Reg.arrayFed c.inst % 0x10000 ≠ 16 := off_blkCtrl .core c.inst (by decide) (by decide)
  have skipped : Reg.arraySkipped c.inst % 0x10000 ≠ 16 := off_blkCtrl .core c.inst (by decide) (by decide)
  have conflicts : Reg.spFeedConflict c.inst % 0x10000 ≠ 16 := off_blkCtrl .core c.inst (by decide) (by decide)
  refine (foldl_keeps bench _ (fun r _ => bench_mod (deskOf_spTouch _ _ _ r.s) (held_spTouch _ _ _ r.s)) _ _).trans ?_
  refine (bench_mod ?_ (by simp only [held_incMod])).trans (bench_feedFaults sound _ _ r)
  rw [deskOf_incMod _ conflicts, deskOf_incMod _ skipped, deskOf_incMod _ fed]

omit sound in
theorem operandVals_of_desk (d : Desc) :
    operandVals c d [] ((scaleDesc s d).elim [] (feedCodes s c.inst)) r.s = feedIn s c.inst d := by
  have codes : feedRows c c.inst d [] r.s = feedCodes s c.inst d := feedCodes_of_desk h c.inst d
  rw [operandVals, codes, feedIn]

/-- A tile is read whole before its sums are formed. -/
theorem feedTile_sound {a b : Desc} (besideA : ScalesBeside s c.inst a) (besideB : ScalesBeside s c.inst b) (live : List Nat) :
    ∃ q fs, bench q = bench r ∧ feedTile c a b live r =
      residueFault c fs live (q.mod (accumulate c c.inst a b live (feedIn s c.inst a) (feedIn s c.inst b))) := by
  obtain ⟨scalesA, sameA⟩ := loadScales_sound sound besideA h
  obtain ⟨scalesB, sameB⟩ := loadScales_sound sound besideB (desk_of_bench sameA h)
  have desk := desk_of_bench (sameB.trans sameA) h
  simp only [feedTile, badLines_of_sound sound, scalesA, scalesB, operandVals_of_desk desk]
  exact ⟨_, _, (bench_noteFed sound _ _).trans (sameB.trans sameA), rfl⟩

end

/-! ## The sums -/

/-- The sums of the tile stand in its cells, and every set but the entry's is as it was. -/
structure Tiled (s : State) (core : Nat) (e : Entry) (t : State) : Prop where
  sums : ∀ q p i j, q < (descOr s e.descA).dim 2 → (liveIn s core e)[p]? = some i → j < (descOr s e.descB).dim 1 →
    cellGet noF32 t.acc (accKey core (accSet e) (cellOf e.gang q p j)) = sumIn s core e q p i j
  rest : ∀ k, (∀ r ∈ arraysOf e.gang ((descOr s e.descA).dim 2), k / 4096 ≠ setKey core r (accSet e)) →
    cellGet noF32 t.acc k = cellGet noF32 s.acc k
  stash : t.stash = s.stash

theorem Tiled.of_accState {u : State} (tiled : Tiled s c.inst c.e t) (same : accState u = accState t) : Tiled s c.inst c.e u := by
  have acc : u.acc = t.acc := congrArg Prod.fst same
  have stash : u.stash = t.stash := congrArg (fun x => x.2.2) same
  exact ⟨by rw [acc]; exact tiled.sums, by rw [acc]; exact tiled.rest, stash.trans tiled.stash⟩

theorem runDesk_startTile (c : Ctx) (a : Desc) (r : Run) : runDesk (startTile c a r) = runDesk r := by
  unfold startTile
  split
  · exact runDesk_mod (deskOf_clearSets _ _ _ _)
  · rfl

/-- What the K-steps of a tile go on from (04 R80). -/
theorem startTile_sets (c : Ctx) (a : Desc) (r : Run) :
    (∀ k, cellGet noF32 (startTile c a r).s.acc k =
      if c.e.accInit = true ∧ ∃ i ∈ arraysOf c.e.gang (a.dim 2), k / 4096 = setKey c.inst i (accSet c.e) then 0
      else cellGet noF32 r.s.acc k) ∧
    (∀ k, cellGet noNat (startTile c a r).s.ksteps k =
      if c.e.accInit = true ∧ ∃ i ∈ arraysOf c.e.gang (a.dim 2), k = setKey c.inst i (accSet c.e) then 0
      else cellGet noNat r.s.ksteps k) ∧
    (startTile c a r).s.stash = r.s.stash := by
  unfold startTile
  cases c.e.accInit with
  | false => simp
  | true =>
    simp only [if_true, true_and]
    exact ⟨cellGet_clearSets_acc _ _ _ r.s, cellGet_clearSets_ksteps _ _ _ r.s, clearSets_stash _ _ _ r.s⟩

/-- The tile of a `MATMUL` (04 R77 to R81). -/
theorem tiled_accumulate (fits : GangFits s c.inst c.e) (before : accState r.s = accState s)
    (same : accState q.s = accState (startTile c (descOr s c.e.descA) r).s) (desk : deskOf q.s = deskOf s) :
    Tiled s c.inst c.e (accumulate c c.inst (descOr s c.e.descA) (descOr s c.e.descB) (liveIn s c.inst c.e)
      (feedIn s c.inst (descOr s c.e.descA)) (feedIn s c.inst (descOr s c.e.descB)) q.s) := by
  rw [gangFits_iff] at fits
  obtain ⟨acc, ksteps, stash⟩ := startTile_sets c (descOr s c.e.descA) r
  simp only [accState, Prod.mk.injEq] at before same
  obtain ⟨accBefore, kstepsBefore, stashBefore⟩ := before
  obtain ⟨accSame, kstepsSame, stashSame⟩ := same
  rw [← accSame, accBefore] at acc
  rw [← kstepsSame, kstepsBefore] at ksteps
  refine ⟨fun n p i j product packed column => ?_, fun k off => ?_, ?_⟩
  · have row : p < (liveIn s c.inst c.e).length := (List.getElem?_eq_some_iff.1 packed).1
    have array := (cellOf_bounds fits product row column).1
    have accStart : cellGet noF32 q.s.acc (accKey c.inst (accSet c.e) (cellOf c.e.gang n p j)) = if c.e.accInit then 0
        else cellGet noF32 s.acc (accKey c.inst (accSet c.e) (cellOf c.e.gang n p j)) :=
      (acc _).trans (if_congr (and_iff_left ⟨_, array, accKey_div fits product row column c.inst (accSet c.e)⟩) rfl rfl)
    have stepStart : cellGet noNat q.s.ksteps (setKey c.inst (cellOf c.e.gang n p j).1 (accSet c.e)) = if c.e.accInit then 0
        else cellGet noNat s.ksteps (setKey c.inst (cellOf c.e.gang n p j).1 (accSet c.e)) :=
      (ksteps _).trans (if_congr (and_iff_left ⟨_, array, rfl⟩) rfl rfl)
    have job : q.s.job = s.job := congrArg Desk.job desk
    have ws : q.s.step.ws = s.step.ws := congrArg Desk.ws desk
    rw [cellGet_accumulate c _ _ _ _ _ _ fits product packed column]
    simp only [cellSum, sumIn, stepNo, accStart, stepStart, job, ws]
  · rw [cellGet_accumulate_off c _ _ _ _ _ _ fits off, acc, if_neg]
    rintro ⟨-, i, mem, here⟩
    exact off i mem here
  · rw [accumulate_stash, stashSame, stash, stashBefore]

end Sys2Proof.Machine
end

