-- ==== Sys2Proof/Proofs/MatmulDrain.lean ====
section
/-! SUPPORT. EFFECT. The drain of a tile, with nothing that the physical world adds, writes and reports what the statement's result says,
and leaves the entry's set at +0 (04 R89, R94 to R97). -/

namespace Sys2Proof.Machine
open Sys2Proof.Stmt

/-! ## The rows of a drain -/

/-- The rows of a destination that a tile drains: those of live rows, and the masked ones with zero codes (04 R89). -/
def liveDest (batch m : Nat) (live : List Nat) : List Nat := (List.range (batch * m)).filter fun i => live.contains (i % m)
def maskedDest (batch m : Nat) (live : List Nat) (d : Desc) : List (Nat × OutRow) :=
  ((List.range (batch * m)).filter fun i => !live.contains (i % m)).map fun i => (i, quietZero d)

/-- The descaled accumulators of destination row `i` (04 R94). -/
def descaledRow (t : State) (core : Nat) (e : Entry) (a b : Desc) (live : List Nat) (i : Nat) : List Val :=
  (List.range (b.dim 1)).map fun j =>
    descale (cellGet noF32 t.acc (accKey core (accSet e) (cellOf e.gang (i / a.dim 1) (live.findIdx (· == i % a.dim 1)) j)))
      (scaleExp t a) (scaleExp t b)

/-- A row through the drain program, added to what stands there under `DRAIN_ADD` (04 R94, R97). -/
def drainedRow (t : State) (e : Entry) (d : Desc) (vs side old : List Val) : OutRow :=
  let ws := vs.mapIdx fun k v => runProg t e.drainProg v (side.getD k Val.zero)
  encodeRow d.fmt (scaleExp t d) (if drainAdd e then ws.mapIdx fun k w => rnd32 (Val.add (old.getD k Val.zero) w) else ws)

/-- Rows that are read where they are asked for. -/
def loadWhere (on : Prop) [Decidable on] (c : Ctx) (d : Desc) (rows : List Nat) (r : Run) : List (Nat × List Val) × Run :=
  if on then loadSome c d rows r else ([], r)

/-- The saved copy of a drain of kind 1 (04 R94). -/
def keepRows (c : Ctx) (side : Desc) (rows : List (Nat × OutRow)) (r : Run) : Run :=
  if progKind c.e.drainProg = 1 then writeSome c side (c.e.tensorId + 1) rows r else r

/-- A drain that is not voided. -/
theorem drainTile_of_live {c : Ctx} (live : c.voided = false) (core : Nat) (a b : Desc) (rows : List Nat) (r : Run) :
    drainTile c core a b rows r =
      let e := c.e
      let d := descOr r.s e.descC
      let side := descOr r.s (e.descC + 1)
      let dest := liveDest (a.dim 2) (a.dim 1) rows
      let xs := loadWhere (progKind e.drainProg = 2) c side dest r
      let ys := loadWhere (drainAdd e) c d dest xs.2
      let vs := fun i => descaledRow ys.2.s core e a b rows i
      let kept := keepRows c side ((dest.map fun i => (i, encodeRow side.fmt (scaleExp ys.2.s side) (vs i))) ++
        maskedDest (a.dim 2) (a.dim 1) rows side) ys.2
      (writeSome c d e.tensorId ((dest.map fun i =>
          (i, drainedRow ys.2.s e d (vs i) (rowOfVals xs.1 i) (rowOfVals ys.1 i))) ++
          (if e.keepDest || drainAdd e then [] else maskedDest (a.dim 2) (a.dim 1) rows d)) kept).mod
        (clearSets core (accSet e) (arraysOf e.gang (a.dim 2))) := by
  obtain ⟨st, idx, e, kind, unit, inst, slot, voided, ph, fetch⟩ := c
  obtain rfl : voided = false := live
  simp only [drainTile, Ctx.void0, Bool.false_and, Bool.false_eq_true, if_false, List.map_map]
  rfl

variable {s : State} {c : Ctx} {r : Run}

/-! ## Two results in a row -/

/-- One result behind another is the two together. -/
theorem resultRun_resultRun (v w : Result) (b : RunDesk) :
    resultRun w (resultRun v b) = resultRun { writes := v.writes ++ w.writes, told := v.told ++ w.told } b := by
  have puts := resultRun_more v w.writes b
  rw [resultRun, ← puts]
  simp only [resultRun, List.foldl_append]

theorem runProg_of_desk {t : State} (h : deskOf t = deskOf s) (p : Nat) (v x : Val) : runProg t p v x = runProg s p v x := by
  have job : t.job = s.job := congrArg Desk.job h
  simp only [runProg, fCurve, dCurve, curvesOf, job]

/-! ## The statement's result -/

/-- The descaled sums of destination row `i`, in the terms of the state before the entry. -/
def descaledIn (s : State) (core : Nat) (e : Entry) (i : Nat) : List Val :=
  let a := descOr s e.descA
  let b := descOr s e.descB
  (List.range (b.dim 1)).map fun j =>
    descale (sumIn s core e (i / a.dim 1) ((liveIn s core e).findIdx (· == i % a.dim 1)) (i % a.dim 1) j)
      (scaleExp s a) (scaleExp s b)

/-- What a drain writes to `DESC_C` (04 R94, R97, R89). -/
def mainIn (s : State) (core : Nat) (e : Entry) : Result :=
  let a := descOr s e.descA
  let d := descOr s e.descC
  let side := descOr s (e.descC + 1)
  someResult s core d e.tensorId (((liveDest (a.dim 2) (a.dim 1) (liveIn s core e)).map fun i =>
      (i, drainedRow s e d (descaledIn s core e i) (if progKind e.drainProg = 2 then valsIn s core side i else [])
        (if drainAdd e then valsIn s core d i else []))) ++
    (if e.keepDest || drainAdd e then [] else maskedDest (a.dim 2) (a.dim 1) (liveIn s core e) d))

/-- The copy that a drain of kind 1 saves in the tensor behind it, and what the drain saves. -/
def copyIn (s : State) (core : Nat) (e : Entry) : List (Nat × OutRow) :=
  let a := descOr s e.descA
  let side := descOr s (e.descC + 1)
  ((liveDest (a.dim 2) (a.dim 1) (liveIn s core e)).map fun i =>
    (i, encodeRow side.fmt (scaleExp s side) (descaledIn s core e i))) ++ maskedDest (a.dim 2) (a.dim 1) (liveIn s core e) side
def keptIn (s : State) (core : Nat) (e : Entry) : Result :=
  if progKind e.drainProg = 1 then someResult s core (descOr s (e.descC + 1)) (e.tensorId + 1) (copyIn s core e)
  else { writes := [] }

theorem drainIn_eq (s : State) (core : Nat) (e : Entry) : drainIn s core e =
    { writes := (keptIn s core e).writes ++ (mainIn s core e).writes
      told := (keptIn s core e).told ++ (mainIn s core e).told } := by
  have sum (old : List Val) (ws : List Val) : (if drainAdd e then ws.mapIdx fun k w =>
      rnd32 (Val.add ((if drainAdd e then old else []).getD k Val.zero) w) else ws) =
      if drainAdd e then ws.mapIdx fun k w => rnd32 (Val.add (old.getD k Val.zero) w) else ws := by
    split <;> rfl
  simp only [mainIn, keptIn, copyIn, drainedRow, sum]
  by_cases one : progKind e.drainProg = 1
  · simp only [drainIn, one, if_true]
    rfl
  · simp only [drainIn, one, if_false]
    rfl

/-! ## The drain -/

/-- A destination row that is drained is one of a product, and its tile row is packed where the drain looks for it. -/
theorem packed_of_liveDest {batch m i : Nat} {live : List Nat} (mem : i ∈ liveDest batch m live) :
    i / m < batch ∧ live[live.findIdx (· == i % m)]? = some (i % m) := by
  obtain ⟨inside, packed⟩ := List.mem_filter.1 mem
  have low : i < batch * m := List.mem_range.1 inside
  have found : live.findIdx (· == i % m) < live.length :=
    List.findIdx_lt_length_of_exists ⟨_, List.contains_iff_mem.1 packed, beq_self_eq_true _⟩
  refine ⟨Nat.div_lt_of_lt_mul (by rwa [Nat.mul_comm]), ?_⟩
  rw [List.getElem?_eq_getElem found, beq_iff_eq.1 (List.findIdx_getElem (w := found))]

theorem descaledRow_of_tiled {t : State} (tiled : Tiled s c.inst c.e t) (h : deskOf t = deskOf s) {i : Nat}
    (mem : i ∈ liveDest ((descOr s c.e.descA).dim 2) ((descOr s c.e.descA).dim 1) (liveIn s c.inst c.e)) :
    descaledRow t c.inst c.e (descOr s c.e.descA) (descOr s c.e.descB) (liveIn s c.inst c.e) i = descaledIn s c.inst c.e i := by
  obtain ⟨product, packed⟩ := packed_of_liveDest mem
  refine List.map_congr_left fun j column => ?_
  rw [tiled.sums _ _ _ j product packed (List.mem_range.1 column), scaleExp_of_desk h, scaleExp_of_desk h]

section
variable (free : c.ph = [])
include free

theorem loadWhere_at {on : Prop} [Decidable on] {d : Desc} (plain : on → PlainSp d) (h : deskOf r.s = deskOf s) (rows : List Nat) :
    (∀ i ∈ rows, rowOfVals (loadWhere on c d rows r).1 i = if on then valsIn s c.inst d i else []) ∧
      bench (loadWhere on c d rows r).2 = bench r := by
  unfold loadWhere
  split
  · next asked =>
    obtain ⟨values, desk⟩ := loadSome_at free (plain asked) h rows
    exact ⟨fun i mem => by rw [values, rowOfVals_map mem], Prod.ext desk (accState_loadSome c (plain asked) rows r)⟩
  · exact ⟨fun _ _ => rfl, rfl⟩

theorem keepRows_at (plain : progKind c.e.drainProg = 1 → PlainSp (descOr s (c.e.descC + 1))) (h : deskOf r.s = deskOf s) :
    runDesk (keepRows c (descOr s (c.e.descC + 1)) (copyIn s c.inst c.e) r) = resultRun (keptIn s c.inst c.e) (runDesk r) ∧
      accState (keepRows c (descOr s (c.e.descC + 1)) (copyIn s c.inst c.e) r).s = accState r.s := by
  unfold keepRows keptIn
  split
  · next one => exact ⟨writeSome_at free (plain one) (congrArg Desk.ctrl h) _ _, accState_writeSome c (plain one) _ _ r⟩
  · exact ⟨rfl, rfl⟩

/-- What a drain leaves: its result on the desk, and the entry's set at +0 (04 R94). -/
theorem drainTile_at (live : c.voided = false) (h : deskOf r.s = deskOf s) (tiled : Tiled s c.inst c.e r.s)
    (plainC : PlainSp (descOr s c.e.descC))
    (plainSide : progKind c.e.drainProg = 1 ∨ progKind c.e.drainProg = 2 → PlainSp (descOr s (c.e.descC + 1))) :
    runDesk (drainTile c c.inst (descOr s c.e.descA) (descOr s c.e.descB) (liveIn s c.inst c.e) r) =
        resultRun (drainIn s c.inst c.e) (runDesk r) ∧
      ∃ u, accState u = accState r.s ∧
        (drainTile c c.inst (descOr s c.e.descA) (descOr s c.e.descB) (liveIn s c.inst c.e) r).s =
          clearSets c.inst (accSet c.e) (arraysOf c.e.gang ((descOr s c.e.descA).dim 2)) u := by
  rw [drainTile_of_live live]
  dsimp only
  rw [descOr_of_desk h, descOr_of_desk h]
  generalize dest : liveDest ((descOr s c.e.descA).dim 2) ((descOr s c.e.descA).dim 1) (liveIn s c.inst c.e) = rows
  obtain ⟨sides, sameX⟩ := loadWhere_at (on := progKind c.e.drainProg = 2) free (fun two => plainSide (Or.inr two)) h rows
  generalize loadWhere (progKind c.e.drainProg = 2) c (descOr s (c.e.descC + 1)) rows r = xs at sides sameX
  obtain ⟨olds, sameY⟩ := loadWhere_at (on := drainAdd c.e = true) free (fun _ => plainC) (desk_of_bench sameX h) rows
  generalize loadWhere (drainAdd c.e = true) c (descOr s c.e.descC) rows xs.2 = ys at olds sameY
  have same := sameY.trans sameX
  have desk := desk_of_bench same h
  have values (i : Nat) (mem : i ∈ rows) : descaledRow ys.2.s c.inst c.e (descOr s c.e.descA) (descOr s c.e.descB)
      (liveIn s c.inst c.e) i = descaledIn s c.inst c.e i :=
    descaledRow_of_tiled (tiled.of_accState (congrArg Prod.snd same)) desk (dest ▸ mem)
  have copies : (rows.map fun i => (i, encodeRow (descOr s (c.e.descC + 1)).fmt (scaleExp ys.2.s (descOr s (c.e.descC + 1)))
        (descaledRow ys.2.s c.inst c.e (descOr s c.e.descA) (descOr s c.e.descB) (liveIn s c.inst c.e) i))) ++
      maskedDest ((descOr s c.e.descA).dim 2) ((descOr s c.e.descA).dim 1) (liveIn s c.inst c.e) (descOr s (c.e.descC + 1)) =
      copyIn s c.inst c.e := by
    rw [copyIn, dest]
    refine congrArg (· ++ _) (List.map_congr_left fun i mem => ?_)
    rw [values i mem, scaleExp_of_desk desk]
  obtain ⟨keptDesk, keptAcc⟩ := keepRows_at free (fun one => plainSide (Or.inl one)) desk
  rw [copies]
  generalize keepRows c (descOr s (c.e.descC + 1)) (copyIn s c.inst c.e) ys.2 = k at keptDesk keptAcc
  have ctrl : (deskOf k.s).ctrl = (deskOf s).ctrl :=
    (congrArg (fun b : RunDesk => b.1.ctrl) keptDesk).trans ((resultRun_ctrl _ _).trans (congrArg Desk.ctrl desk))
  refine ⟨?_, _, (accState_writeSome c plainC _ _ k).trans (keptAcc.trans (congrArg Prod.snd same)), rfl⟩
  have before : runDesk ys.2 = runDesk r := congrArg Prod.fst same
  rw [runDesk_mod (deskOf_clearSets _ _ _ _), writeSome_at free plainC ctrl, keptDesk, before, drainIn_eq, ← resultRun_resultRun]
  congr 2
  refine congrArg (· ++ _) ?_
  rw [dest]
  refine List.map_congr_left fun i mem => ?_
  simp only [drainedRow, values i mem, sides i mem, olds i mem, runProg_of_desk desk, scaleExp_of_desk desk]

end

end Sys2Proof.Machine
end

