-- ==== Sys2Proof/Proofs/Matmul.lean ====
section
/-! SETTLES. O20: what a `MATMUL` leaves in the accumulators, and what its drain writes (04 R77 to R97). -/

namespace Sys2Proof.Machine
open Sys2Proof.Stmt

variable {s : State} {c : Ctx} {r : Run} {st : Nat} {x : Stream} {e : Entry}

/-! ## The effect -/

/-- The operands of a `MATMUL` that the statement speaks of. -/
structure TileOperands (s : State) (core : Nat) (e : Entry) : Prop where
  fits : GangFits s core e
  besideA : ScalesBeside s core (descOr s e.descA)
  besideB : ScalesBeside s core (descOr s e.descB)
  masked : e.maskDesc ≠ noDesc → PlainSp (descOr s e.maskDesc)

/-- A `MATMUL` forms the sums of its tile, then meets its residue faults, then drains. -/
theorem matmulEff_tiles (sound : ∀ k o, Phys.spUncorrectable k o ∉ c.ph) (live : c.voided = false)
    (operands : TileOperands s c.inst c.e) (h : deskOf r.s = deskOf s) (before : accState r.s = accState s) :
    ∃ u fs, runDesk u = runDesk r ∧ Tiled s c.inst c.e u.s ∧ matmulEff c r = physEvents c (if c.e.drain then
      drainTile c c.inst (descOr s c.e.descA) (descOr s c.e.descB) (liveIn s c.inst c.e) (residueFault c fs (liveIn s c.inst c.e) u)
      else residueFault c fs (liveIn s c.inst c.e) u) := by
  obtain ⟨rows, read⟩ := readMask_sound sound h operands.masked
  have started : runDesk (startTile c (descOr s c.e.descA) (readMask c r).2) = runDesk r :=
    (runDesk_startTile c _ _).trans (congrArg Prod.fst read)
  obtain ⟨q, fs, fed, tile⟩ := feedTile_sound sound (desk_of_runDesk started h) operands.besideA operands.besideB
    (liveIn s c.inst c.e)
  have desk : runDesk q = runDesk r := (congrArg Prod.fst fed).trans started
  refine ⟨q.mod (accumulate c c.inst (descOr s c.e.descA) (descOr s c.e.descB) (liveIn s c.inst c.e)
    (feedIn s c.inst (descOr s c.e.descA)) (feedIn s c.inst (descOr s c.e.descB))), fs,
    (runDesk_mod (deskOf_accumulate c _ _ _ _ _ q.s _)).trans desk, ?_, ?_⟩
  · exact tiled_accumulate operands.fits ((congrArg Prod.snd read).trans before) (congrArg Prod.snd fed) (desk_of_runDesk desk h)
  · rw [matmulEff_eq]
    simp only [descOr_of_desk h, rows, live, Bool.false_eq_true, if_false, tile]

/-- Without a drain the sums stay in the accumulators. -/
theorem matmulEff_fed (sound : ∀ k o, Phys.spUncorrectable k o ∉ c.ph) (live : c.voided = false)
    (operands : TileOperands s c.inst c.e) (h : deskOf r.s = deskOf s) (before : accState r.s = accState s)
    (drain : c.e.drain = false) :
    Tiled s c.inst c.e (matmulEff c r).s ∧ (matmulEff c r).s.sp = s.sp ∧ (matmulEff c r).late = r.late ∧
      (matmulEff c r).need = r.need := by
  obtain ⟨u, fs, desk, tiled, eff⟩ := matmulEff_tiles sound live operands h before
  rw [drain, if_neg Bool.false_ne_true] at eff
  have same : heldRun (matmulEff c r) = heldRun u := by
    rw [eff, heldRun_physEvents, heldRun_residueFault]
  have holds : held (matmulEff c r).s = held u.s := congrArg Prod.fst same
  refine ⟨tiled.of_accState (accState_of_held holds), ?_, ?_, ?_⟩
  · exact (congrArg Prod.fst holds).trans (congrArg Desk.sp (desk_of_runDesk desk h))
  · exact (congrArg (fun x => x.2.1) same).trans (congrArg (fun b => b.2.1) desk)
  · exact (congrArg (fun x => x.2.2) same).trans (congrArg (fun b => b.2.2.1) desk)

/-- With a drain, and with nothing that the physical world adds, the result is on the desk and the entry's set at +0. -/
theorem matmulEff_drained (free : c.ph = []) (live : c.voided = false) (operands : TileOperands s c.inst c.e)
    (h : deskOf r.s = deskOf s) (before : accState r.s = accState s) (drain : c.e.drain = true)
    (plainC : PlainSp (descOr s c.e.descC))
    (plainSide : progKind c.e.drainProg = 1 ∨ progKind c.e.drainProg = 2 → PlainSp (descOr s (c.e.descC + 1))) :
    runDesk (matmulEff c r) = resultRun (drainIn s c.inst c.e) (runDesk r) ∧ (matmulEff c r).s.stash = s.stash ∧
      ∀ k, cellGet noF32 (matmulEff c r).s.acc k =
        if ∃ i ∈ arraysOf c.e.gang ((descOr s c.e.descA).dim 2), k / 4096 = setKey c.inst i (accSet c.e) then 0
        else cellGet noF32 s.acc k := by
  have sound : ∀ k o, Phys.spUncorrectable k o ∉ c.ph := by simp [free]
  obtain ⟨u, fs, desk, tiled, eff⟩ := matmulEff_tiles sound live operands h before
  have noFaults : residueFault c fs (liveIn s c.inst c.e) u = u := by simp [residueFault, free]
  rw [drain, if_pos rfl, physEvents_of_free free, noFaults] at eff
  obtain ⟨result, t, same, cleared⟩ := drainTile_at free live (desk_of_runDesk desk h) tiled plainC plainSide
  have held : Tiled s c.inst c.e t := tiled.of_accState same
  rw [eff, result, desk, cleared]
  refine ⟨rfl, (clearSets_stash _ _ _ t).trans held.stash, fun k => ?_⟩
  rw [cellGet_clearSets_acc]
  split
  · rfl
  · next off => exact held.rest k fun i mem here => off ⟨i, mem, here⟩

/-! ## The command -/

theorem accState_launched (st : Nat) (x : Stream) (e : Entry) (ph : List Phys) (s : State) :
    accState (launched st x e ph s) = accState s := by
  rw [launched_eq]
  rfl

section
variable (h : Stands st x e s) (turn : InTurn x) (op : e.op = 0x10) (live : slotVoid s x.slotNow = false)
  (operands : TileOperands s (streamInst s x) e)
include h turn op live

/-- A `MATMUL` in turn and not void runs and is settled at once. -/
theorem issue_matmul (ph : List Phys) :
    issue st (fun e => e.op == 0x10) ph matmulEff s = settleRun (ctxOf s st x x.pos e x.slotNow false ph)
      (matmulEff (ctxOf s st x x.pos e x.slotNow false ph) { s := launched st x e ph s }) (launched st x e ph s) := by
  have context : ctxNow s st x e ph = ctxOf s st x x.pos e x.slotNow false ph := by rw [ctxNow, live]
  rw [issue_of_stands h (ok := fun e => e.op == 0x10) (beq_iff_eq.2 op), if_pos turn, context]

include operands

theorem issue_feeds {ph : List Phys} (sound : ∀ k o, Phys.spUncorrectable k o ∉ ph) (drain : e.drain = false) :
    Tiled s (streamInst s x) e (issue st (fun e => e.op == 0x10) ph matmulEff s) ∧
      (issue st (fun e => e.op == 0x10) ph matmulEff s).sp = s.sp := by
  obtain ⟨tiled, sp, late, need⟩ := matmulEff_fed (c := ctxOf s st x x.pos e x.slotNow false ph)
    (r := { s := launched st x e ph s }) sound rfl operands (deskOf_launched st x e ph s) (accState_launched st x e ph s) drain
  have same := held_settleRun (c := ctxOf s st x x.pos e x.slotNow false ph) late need (launched st x e ph s)
  rw [issue_matmul h turn op live]
  exact ⟨tiled.of_accState (accState_of_held same), (congrArg Prod.fst same).trans sp⟩

theorem issue_drains (drain : e.drain = true) (plainC : PlainSp (descOr s e.descC))
    (plainSide : progKind e.drainProg = 1 ∨ progKind e.drainProg = 2 → PlainSp (descOr s (e.descC + 1)))
    (apart : Disjoint (drainIn s (streamInst s x) e).writes) :
    Gives (drainIn s (streamInst s x) e) s (issue st (fun e => e.op == 0x10) [] matmulEff s) ∧
      (issue st (fun e => e.op == 0x10) [] matmulEff s).stash = s.stash ∧
      ∀ k, cellGet noF32 (issue st (fun e => e.op == 0x10) [] matmulEff s).acc k =
        if ∃ i ∈ arraysOf e.gang ((descOr s e.descA).dim 2), k / 4096 = setKey (streamInst s x) i (accSet e) then 0
        else cellGet noF32 s.acc k := by
  have desk := deskOf_launched st x e [] s
  obtain ⟨result, stash, sets⟩ := matmulEff_drained (c := ctxOf s st x x.pos e x.slotNow false [])
    (r := { s := launched st x e [] s }) rfl rfl operands desk (accState_launched st x e [] s) drain plainC plainSide
  have mine : issueFlight s x e x.slotNow (slotVoid s x.slotNow) [] ∈ (launchOf s x e []).inflight := by simp [launch]
  have runs : (launched st x e [] s).step.active = true :=
    (congrArg Desk.active desk).trans (Bool.and_eq_true_iff.1 h.2.2.1).1
  have framed := congrArg Prod.fst (kept_matmulEff (v := ⟨true, true⟩) (st := st) (ctxOf s st x x.pos e x.slotNow false [])
    { s := launched st x e [] s })
  obtain ⟨-, -, -, gives⟩ := settleRun_gives (c := ctxOf s st x x.pos e x.slotNow false []) framed
    (streamAt_launched h.1 e []) result desk runs mine rfl apart
  have wait := (congrArg Prod.snd result).trans (resultRun_wait _ _)
  have same := held_settleRun (c := ctxOf s st x x.pos e x.slotNow false []) (congrArg (fun b => b.1) wait)
    (congrArg (fun b => b.2.1) wait) (launched st x e [] s)
  have acc := congrArg (fun b => b.2.1) same
  have stashSame := congrArg (fun b => b.2.2.2) same
  rw [issue_matmul h turn op live]
  exact ⟨gives, stashSame.trans stash, fun k => (congrArg (cellGet noF32 · k) acc).trans (sets k)⟩

end

/-! ## The obligation -/

/-- Settles O20: the tile's sums stand in distinct accumulators, which no fault of the entry reaches, and the drain's result stands on
the desk of its run. -/
theorem matmulAccumulatesRoundedSums : Obligations.MatmulAccumulatesRoundedSums := by
  unfold Obligations.MatmulAccumulatesRoundedSums
  rintro st ph x e s a b core h turn op live rfl rfl rfl fits besideA besideB masked sound
  have operands : TileOperands s (streamInst s x) e := ⟨fits, besideA, besideB, masked⟩
  obtain ⟨y, here, launches, frame, passes, -⟩ := issue_launches (v := ⟨true, true⟩) (eff := matmulEff)
    (fun c r => kept_matmulEff c r) h (ok := fun e => e.op == 0x10) (beq_iff_eq.2 op) ph
  refine ⟨fun drain => ?_, fun drain none plainC plainSide apart => ?_⟩
  · obtain ⟨tiled, sp⟩ := issue_feeds h turn op live operands sound drain
    exact ⟨_, y, rfl, here, launches, tiled.sums, tiled.rest, sp, passes rfl, tiled.stash, frame.1⟩
  · subst none
    obtain ⟨gives, stash, sets⟩ := issue_drains h turn op live operands drain plainC plainSide apart
    exact ⟨_, y, rfl, here, launches, gives, sets, passes rfl, stash, frame.1⟩

end Sys2Proof.Machine
end

