-- ==== Sys2Proof/Proofs/StashFrame.lean ====
section
/-! SUPPORT. FRAME. What an entry reads and writes, at whatever place and level, leaves the accumulators and the stash records as they
are (05 R113, R118). -/

namespace Sys2Proof.Machine
open Sys2Proof.Stmt

/-! ## States -/

theorem accState_of_hbmFrame {s t : State} (h : hbmFrame t = hbmFrame s) : accState t = accState s :=
  accState_of_held (held_of_faultState (faultState_of_hbmFrame h))

@[simp] theorem ite_accState (p : Prop) [Decidable p] (s t : State) :
    accState (if p then s else t) = if p then accState s else accState t := apply_ite accState p s t

section
variable (s : State)

@[simp] theorem accState_rset (a : Nat) (w : W64) : accState (rset s a w) = accState s := accState_of_held (held_rset s a w)

@[simp] theorem accState_setF (a hi lo n : Nat) : accState (setF s a hi lo n) = accState s := accState_rset s a _

@[simp] theorem accState_setB (a b : Nat) (x : Bool) : accState (setB s a b x) = accState s := accState_rset s a _

@[simp] theorem accState_incMod (a hi lo n : Nat) : accState (incMod s a hi lo n) = accState s := accState_rset s a _

@[simp] theorem accState_freeBytes (n : Nat) : accState (freeBytes n s).2 = accState s :=
  accState_of_hbmFrame (hbmFrame_freeBytes s n)

@[simp] theorem accState_wakeLines (a n : Nat) : accState (wakeLines a n s) = accState s := by
  rw [wakeLines_eq]
  rfl

@[simp] theorem accState_readLines (ph : List Phys) (who : Reader) (act : Nat → Option (Nat × Nat × Nat)) (n line : Nat) :
    accState (readLines ph who act n line s).s = accState s := accState_of_hbmFrame (hbmFrame_readLines s ph who act n line)

@[simp] theorem accState_writeLine (ph : List Phys) (who : Reader) (tags : Nat × Nat × Nat) (line o : Nat) (bs : List Byte) :
    accState (writeLine s ph who tags line o bs).s = accState s :=
  accState_of_hbmFrame (hbmFrame_writeLine s ph who tags line o bs)

@[simp] theorem accState_actLine (ph : List Phys) (line : Nat) : accState (actLine ph line s).2 = accState s := by
  have touched : accState (touchLine line (dieReports ph line s)) = accState s :=
    accState_of_hbmFrame ((hbmFrame_touchLine _ _).trans (hbmFrame_dieReports _ _ _))
  simp only [actLine, apply_ite Prod.snd, ite_accState, accState_freeBytes, touched, ite_self]

@[simp] theorem accState_getActLines (ph : List Phys) (a n : Nat) : accState (getActLines ph a n s).2 = accState s :=
  foldl_keeps (fun x : List Byte × State => accState x.2) _ (fun _ _ => by simp) _ ([], s)

@[simp] theorem accState_putActLines (ph : List Phys) (a : Nat) (bs : List Byte) :
    accState (putActLines ph a bs s) = accState s := by
  refine foldl_keeps accState _ (fun s i => ?_) _ s
  dsimp only
  split
  · rfl
  · exact accState_of_hbmFrame (hbmFrame_putLine s _ _ _)

@[simp] theorem accState_hostBlocked : accState (hostBlocked s) = accState s := by
  simp [hostBlocked, accState]

theorem accState_postHost (a : Nat) (bs : List Byte) : accState (postHost a bs s) = accState s :=
  (foldl_keeps accState (fun s _ => emit _ s) (fun _ _ => rfl) _ _).trans rfl

@[simp] theorem accState_hostWrite (k off : Nat) (bs : List Byte) : accState (hostWrite k off bs s).1 = accState s := by
  unfold hostWrite
  split
  · exact accState_postHost s _ bs
  · exact accState_hostBlocked s

@[simp] theorem accState_sendAccess (w op : Nat) (act : Bool) (g : GTag) (off len key : Nat) (data : List Byte) (st idx : Nat) :
    accState (sendAccess w op act g off len key data st idx s) = accState s := by
  simp only [sendAccess]
  split <;> rfl

@[simp] theorem accState_refusedAt (ty : Blk) (inst idx w : Nat) : accState (refusedAt ty inst idx w s) = accState s := by
  have counted (n : Nat) : accState { s with step := { s.step with refused := n } } = accState s := rfl
  simp only [refusedAt, ite_accState, accState_rset, counted, ite_self]

@[simp] theorem accState_countMoved (c : Ctx) (rd wr : Nat) : accState (countMoved c rd wr s) = accState s := by
  simp [countMoved]

@[simp] theorem accState_modFlight (st idx : Nat) (g : Flight → Flight) : accState (modFlight st idx g s) = accState s :=
  accState_of_held (held_modFlight st idx g s)

theorem accState_askRange (st idx : Nat) (x : Nat × Nat) : accState (askRange st idx x s) = accState s := by
  refine foldl_keeps accState _ (fun s i => ?_) _ s
  simp

end

/-! ## Runs -/

@[simp] theorem foldl_accState {β : Type} (f : Run → β → Run) (hf : ∀ r b, accState (f r b).s = accState r.s) (l : List β)
    (r : Run) :
    accState (l.foldl f r).s = accState r.s := foldl_keeps (fun r => accState r.s) f hf l r

@[simp] theorem foldl_accStateWith {α β : Type} (f : α × Run → β → α × Run) (hf : ∀ x b, accState (f x b).2.s = accState x.2.s)
    (l : List β) (x : α × Run) : accState (l.foldl f x).2.s = accState x.2.s := foldl_keeps (fun x => accState x.2.s) f hf l x

section
variable (c : Ctx) (r : Run)

@[simp] theorem accState_touch (a n : Nat) : accState (r.touch a n).s = accState r.s := accState_wakeLines r.s a n

@[simp] theorem accState_devReadAct (act : Nat → Option (Nat × Nat × Nat)) (a n : Nat) :
    accState (devReadAct act c a n r).2.s = accState r.s := by simp [devReadAct]

@[simp] theorem accState_devWriteAct (tags : Nat → Nat × Nat × Nat) (a : Nat) (bs : List Byte) :
    accState (devWriteAct tags c a bs r).s = accState r.s := by simp [devWriteAct, devWriteLine]

@[simp] theorem accState_refuse (w status : Nat) : accState (r.refuse c w status).s = accState r.s := by simp [Run.refuse]

@[simp] theorem accState_hostRead (k off n : Nat) : accState (hostRead c k off n r).2.s = accState r.s := by
  unfold hostRead
  split
  · split <;> simp
  · simp

@[simp] theorem accState_winRead (w off n : Nat) : accState (winRead c w off n r).2.s = accState r.s := by
  unfold winRead
  split
  · rfl
  · split
    · simp
    · split
      · dsimp only
        split <;> simp [devRead]
      · simp
      · split <;> simp

@[simp] theorem accState_winWrite (g : GTag) (w off : Nat) (bs : List Byte) : accState (winWrite c g w off bs r).s = accState r.s := by
  unfold winWrite
  split
  · rfl
  · split
    · dsimp only
      split <;> simp [devWrite]
    · simp
    · exact foldl_keeps accState _ (fun s p => accState_sendAccess s _ _ _ _ _ _ _ _ _ _) _ r.s

/-- A read at any place. -/
@[simp] theorem accState_read (d : Desc) (off n : Nat) : accState (getBytes c d off n r).2.s = accState r.s := by
  simp [getBytes, devRead, accState_spRead]

/-- A write at any place. -/
@[simp] theorem accState_write (g : GTag) (d : Desc) (off : Nat) (bs : List Byte) :
    accState (putBytes c g d off bs r).s = accState r.s := by
  simp [putBytes, devWrite, accState_spWrite]

@[simp] theorem accState_physEvents : accState (physEvents c r).s = accState r.s :=
  accState_of_held (congrArg (fun x => x.1) (heldRun_physEvents c r))

/-! ## The lines of a record -/

variable (tags : Nat × Nat)

@[simp] theorem accState_stashGet (d : Desc) (off n pos : Nat) : accState (stashGet c tags d off n pos r).2.s = accState r.s := by
  simp [stashGet]

@[simp] theorem accState_stashPut (d : Desc) (off : Nat) (bs : List Byte) (pos : Nat) :
    accState (stashPut c tags d off bs pos r).s = accState r.s := by simp [stashPut]

@[simp] theorem accState_recordLines (d : Desc) : accState (recordLines c tags d r).2.s = accState r.s := by simp [recordLines]

@[simp] theorem accState_putStashLine (bs : List (Nat × Nat)) (x : Nat × List Byte) :
    accState (putStashLine c tags bs x r).s = accState r.s := by simp [putStashLine]

@[simp] theorem accState_winWriteAct (w off : Nat) (wire : List Byte) : accState (winWriteAct c w off wire r).s = accState r.s := by
  unfold winWriteAct
  split
  · dsimp only
    split <;> simp
  · simp
  · split <;> simp

@[simp] theorem accState_putNbrGroup (w b i0 g : Nat) (ls : List (Nat × List Byte)) :
    accState (putNbrGroup c tags w b i0 g ls r).s = accState r.s := by simp [putNbrGroup]

@[simp] theorem accState_putNbrLines (bs : List (Nat × Nat)) (ls : List (Nat × List Byte)) :
    accState (putNbrLines c tags bs ls r).s = accState r.s := by
  unfold putNbrLines
  split <;> simp

@[simp] theorem accState_checkStashLine (i : Nat) (data chk : List Byte) (late : Bool) :
    accState (checkStashLine c tags i data chk late r).2.s = accState r.s := by
  unfold checkStashLine
  split
  · simp
  · split <;> simp

@[simp] theorem accState_nbrStashLines (b i n : Nat) : accState (nbrStashLines c tags b i n r).2.s = accState r.s := by
  unfold nbrStashLines
  split
  · rfl
  · dsimp only
    split
    · simp
    · split
      · simp
      · split <;> simp
      · split <;> simp

@[simp] theorem accState_stashLines (bs : List (Nat × Nat)) (i n : Nat) : accState (stashLines c tags bs i n r).2.s = accState r.s := by
  simp [stashLines, blockStashLines, hostStashLine]

@[simp] theorem accState_putRecordBytes (d : Desc) (bs : List Byte) : accState (putRecordBytes c tags d bs r).s = accState r.s := by
  simp [putRecordBytes]

@[simp] theorem accState_deliverRecord (d : Desc) (bs : List (Nat × Nat)) :
    accState (deliverRecord c tags d bs r).s = accState r.s := by simp [deliverRecord]

/-- A `STASH_READ` changes no record until it completes (05 R118). -/
theorem accState_stashReadEff : accState (stashReadEff c r).s = accState r.s := by
  have cleared (gs : List Nat) (s : State) : accState (clearTimeouts gs s) = accState s := rfl
  simp only [stashReadEff, noteRecord, accState_physEvents, Run.mod_s, accState_modFlight]
  split
  · simp
  · split
    · simp
    · split <;> simp [cleared]

end

/-! ## The issue of an entry -/

/-- A run that is settled, waits or asks leaves what it holds, if its effect does. -/
theorem accState_settleRun {c : Ctx} {r : Run} {u : State} (same : accState r.s = accState u) :
    accState (settleRun c r u) = accState u := by
  unfold settleRun
  split
  · rfl
  · split
    · dsimp only
      rw [foldl_keeps accState _ fun s e => accState_of_held (held_raiseEntry _ _ _ s e), accState_of_held (held_noteUpdate _ _ _ _),
        accState_modFlight, same]
    · rw [accState_modFlight]
      exact foldl_keeps accState _ (fun s x => accState_askRange s c.st c.idx x) _ u

theorem accState_issue {st : Nat} {x : Stream} {e : Entry} {s : State} (h : Stands st x e s) {ok : Entry → Bool}
    (admitted : ok e = true) (ph : List Phys) {eff : Ctx → Run → Run}
    (same : ∀ r, accState (eff (ctxNow s st x e ph) r).s = accState r.s) : accState (issue st ok ph eff s) = accState s := by
  have launch := accState_launched st x e ph s
  rw [issue_of_stands h admitted]
  split
  · exact (accState_settleRun (same _)).trans launch
  · exact launch

end Sys2Proof.Machine
end

