-- ==== Sys2Proof/Proofs/StashPace.lean ====
section
/-! SUPPORT. FRAME. While every clock runs, a `STASH_WRITE` of a tensor that is in no window neither waits for a clock nor lacks bytes
(02 R40, 05 R113). -/

namespace Sys2Proof.Machine
open Sys2Proof.Stmt

/-! ## Where every clock runs -/

theorem clocksRun_iff {s : State} : ClocksRun s ↔ ∀ k, (clocks s.crossings k).isSome := by
  simp [ClocksRun, clocks]

theorem clocksRun_congr {s t : State} (same : clocks t.crossings = clocks s.crossings) : ClocksRun t ↔ ClocksRun s := by
  rw [clocksRun_iff, clocksRun_iff, same]

section
variable {s : State} (running : ClocksRun s)
include running

theorem touchCrossing_of_running (ty : Blk) (inst : Nat) : touchCrossing ty inst s = s := if_pos (running _)

theorem touchLine_of_running (line : Nat) : touchLine line s = s := by
  rw [touchLine, touchCrossing_of_running running, ite_self]

theorem wakeLines_of_running (a n : Nat) : wakeLines a n s = s := by
  rw [wakeLines, List.foldl_fixed' (fun l => touchCrossing_of_running running _ _), ite_self]

theorem linesStopped_of_running (a n : Nat) : linesStopped a n s = false := by
  simp [linesStopped, crossingAt, running _]

end

theorem touch_of_running {r : Run} (running : ClocksRun r.s) (a n : Nat) : r.touch a n = r := by
  rw [Run.touch, wakeLines_of_running running, linesStopped_of_running running, Bool.or_false]

/-! ## The pace of a run -/

open Classical in
/-- The running clocks of a run and, where every clock runs, whether the run waits for one and what it lacks. -/
noncomputable def pace (r : Run) : (Nat → Option Crossing) × Option (Bool × List (Nat × Nat)) :=
  (clocks r.s.crossings, if ClocksRun r.s then some (r.late, r.need) else none)

theorem pace_of {q r : Run} (clock : clocks q.s.crossings = clocks r.s.crossings)
    (same : ClocksRun r.s → q.late = r.late ∧ q.need = r.need) : pace q = pace r := by
  refine Prod.ext clock ?_
  by_cases running : ClocksRun r.s
  · obtain ⟨late, need⟩ := same running
    simp only [pace, if_pos running, if_pos ((clocksRun_congr clock).2 running), late, need]
  · simp only [pace, if_neg running, if_neg (mt (clocksRun_congr clock).1 running)]

/-- A run at the pace of one that waits for nothing waits for nothing. -/
theorem waits_of_pace {q r : Run} (same : pace q = pace r) (running : ClocksRun r.s) (late : r.late = false) (need : r.need = []) :
    q.late = false ∧ q.need = [] := by
  have still : ClocksRun q.s := (clocksRun_congr (congrArg Prod.fst same)).2 running
  have held := congrArg Prod.snd same
  simp only [pace, if_pos still, if_pos running, late, need, Option.some.injEq, Prod.mk.injEq] at held
  exact held

@[simp] theorem ite_pace (p : Prop) [Decidable p] (q r : Run) : pace (if p then q else r) = if p then pace q else pace r :=
  apply_ite pace p q r

@[simp] theorem foldl_pace {β : Type} (f : Run → β → Run) (hf : ∀ r b, pace (f r b) = pace r) (l : List β) (r : Run) :
    pace (l.foldl f r) = pace r := foldl_keeps pace f hf l r

@[simp] theorem foldl_paceWith {α β : Type} (f : α × Run → β → α × Run) (hf : ∀ x b, pace (f x b).2 = pace x.2) (l : List β)
    (x : α × Run) : pace (l.foldl f x).2 = pace x.2 := foldl_keeps (fun x => pace x.2) f hf l x

section
variable (c : Ctx) (r : Run)

theorem pace_mod {f : State → State} (clock : clocks (f r.s).crossings = clocks r.s.crossings) : pace (r.mod f) = pace r :=
  pace_of clock fun _ => ⟨rfl, rfl⟩

/-- Another state of the same clocks, in the same run. -/
theorem pace_state {s : State} (clock : clocks s.crossings = clocks r.s.crossings) : pace { r with s := s } = pace r :=
  pace_of clock fun _ => ⟨rfl, rfl⟩

@[simp] theorem pace_touch (a n : Nat) : pace (r.touch a n) = pace r :=
  pace_of (by simp) fun running => by rw [touch_of_running running]; exact ⟨rfl, rfl⟩

@[simp] theorem pace_raise (e : Evt) : pace (r.raise e) = pace r := by
  unfold Run.raise
  split
  · rfl
  · exact pace_of rfl fun _ => ⟨rfl, rfl⟩

@[simp] theorem pace_raises (es : List Evt) : pace (r.raises es) = pace r := foldl_pace _ pace_raise es r

@[simp] theorem pace_devReadAct (act : Nat → Option (Nat × Nat × Nat)) (a n : Nat) : pace (devReadAct act c a n r).2 = pace r := by
  rw [devReadAct, pace_raises, pace_state _ (by simp), pace_touch]

@[simp] theorem pace_devWriteAct (tags : Nat → Nat × Nat × Nat) (a : Nat) (bs : List Byte) :
    pace (devWriteAct tags c a bs r) = pace r := by
  rw [devWriteAct, foldl_pace, pace_touch]
  intro r l
  rw [devWriteLine, pace_raises, pace_state _ (by simp)]

@[simp] theorem pace_refuse (w status : Nat) : pace (r.refuse c w status) = pace r := by
  rw [Run.refuse, pace_raise, pace_mod _ (by simp)]
  exact pace_of rfl fun _ => ⟨rfl, rfl⟩

@[simp] theorem pace_spFault (core w : Nat) : pace (spFault c core w r) = pace r := by
  rw [spFault, pace_raise]
  exact pace_of (by simp) fun _ => ⟨rfl, rfl⟩

@[simp] theorem pace_spRead (core off n : Nat) : pace (spRead c core off n r).2 = pace r := by
  simp only [spRead, foldl_pace _ fun r w => pace_spFault c r core w]
  rw [pace_mod _ (by simp), pace_mod _ (by simp)]

@[simp] theorem pace_hostRead (k off n : Nat) : pace (hostRead c k off n r).2 = pace r := by
  unfold hostRead
  split
  · split
    · exact pace_state r (by simp)
    · rfl
  · exact pace_state r (by simp)

/-- A read of a tensor that is in no window. -/
theorem pace_getBytes {d : Desc} (home : d.place ≠ 2) (off n : Nat) : pace (getBytes c d off n r).2 = pace r := by
  simp [getBytes, home, devRead]

variable (tags : Nat × Nat)

theorem pace_stashGet {d : Desc} (home : d.place ≠ 2) (off n pos : Nat) : pace (stashGet c tags d off n pos r).2 = pace r := by
  simp [stashGet, pace_getBytes _ _ home]

theorem pace_recordLines {d : Desc} (home : d.place ≠ 2) : pace (recordLines c tags d r).2 = pace r := by
  simp [recordLines, pace_stashGet _ _ _ home]

@[simp] theorem pace_putStashLine (bs : List (Nat × Nat)) (x : Nat × List Byte) : pace (putStashLine c tags bs x r) = pace r := by
  simp only [putStashLine, ite_pace, pace_devWriteAct]
  rw [pace_mod _ (by simp)]
  simp

@[simp] theorem pace_winWriteAct (w off : Nat) (wire : List Byte) : pace (winWriteAct c w off wire r) = pace r := by
  unfold winWriteAct
  split
  · dsimp only
    split
    · rw [pace_mod _ (by simp), pace_touch]
    · simp
  · simp
  · split
    · rfl
    · exact pace_of (by simp) fun _ => ⟨rfl, rfl⟩

@[simp] theorem pace_putNbrGroup (w b i0 g : Nat) (ls : List (Nat × List Byte)) : pace (putNbrGroup c tags w b i0 g ls r) = pace r := by
  simp [putNbrGroup]

@[simp] theorem pace_putNbrLines (bs : List (Nat × Nat)) (ls : List (Nat × List Byte)) : pace (putNbrLines c tags bs ls r) = pace r := by
  unfold putNbrLines
  split <;> simp

end

end Sys2Proof.Machine
end

