-- ==== Sys2Proof/Proofs/StashStatus.lean ====
section
/-! SUPPORT. FRAME. What the physical world does to an entry, and the events that it raises, leave `GLB_STASH_STATUS` as it is (05 Table
05-11). -/

namespace Sys2Proof.Machine
open Sys2Proof.Stmt

/-- `GLB_STASH_STATUS`. -/
def stashWord (s : State) : W64 := rget s Reg.stashStatus

/-- A register of a page at another offset is not `GLB_STASH_STATUS`. -/
theorem ne_stashStatus (t : Blk) (i : Nat) {off : Nat} (low : off < 0x10000) (apart : off ≠ 0x318) : Reg.stashStatus ≠ reg t i off := by
  simp only [reg, blkCode, Reg.stashStatus]
  omega

section
variable (s : State)

theorem stashWord_rset {a : Nat} (apart : Reg.stashStatus ≠ a) (w : W64) : stashWord (rset s a w) = stashWord s :=
  rget_rset_ne s w apart

@[simp] theorem ite_stashWord (p : Prop) [Decidable p] (s t : State) :
    stashWord (if p then s else t) = if p then stashWord s else stashWord t := apply_ite stashWord p s t

theorem stashWord_errCount (t : Blk) (i n : Nat) : stashWord (errCount t i n s) = stashWord s :=
  stashWord_rset s (ne_stashStatus t i (by decide) (by decide)) _

theorem stashWord_count (t : Blk) (i : Nat) {off : Nat} (low : off < 0x10000) (apart : off ≠ 0x318) (hi lo n : Nat) :
    stashWord (incMod s (reg t i off) hi lo n) = stashWord s := stashWord_rset s (ne_stashStatus t i low apart) _

theorem stashWord_setInt (t : Blk) (i b : Nat) : stashWord (setInt t i b s) = stashWord s :=
  (rget_setInt s t i b _).trans (stashWord_rset s (ne_stashStatus t i (by decide) (by decide)) _)

theorem stashWord_countCorrected (n : Nat) : stashWord (countCorrected n s) = stashWord s := by
  unfold countCorrected
  split <;> rfl

/-! ## Faults -/

theorem stashWord_pageRecord (t : Blk) (r : FaultRec) : stashWord (pageRecord t r s) = stashWord s := by
  have logged : stashWord ((List.range 4).foldl (fun s i => rset s (Reg.errLog t r.inst i) (recWord r i)) s) = stashWord s := by
    simp only [show List.range 4 = [0, 1, 2, 3] from rfl, List.foldl_cons, List.foldl_nil, Reg.errLog]
    repeat rw [stashWord_rset _ (ne_stashStatus t r.inst (by decide) (by decide))]
  simp only [pageRecord, stashWord_setInt, ite_stashWord, stashWord_errCount, logged, ite_self]

theorem stashWord_hardEnd (t : Blk) (r : FaultRec) : stashWord (hardEnd t r s) = stashWord s := by
  have apart (i : Nat) (h : i < 4) : Reg.stashStatus ≠ Reg.faultRec i := by
    simp only [Reg.stashStatus, Reg.faultRec, reg_glb]
    omega
  rw [stashWord, hardEnd_eq, rget_of_quietRegs (quietRegs_abortStep _ _ _) (by decide) (by decide) (by decide) (by decide),
    rget_congr (regs_markFault _ t r), rget_stopRestart_ne _ _ (by decide) (by decide), rget_glbRecord_ne _ _ (by decide) apart,
    stashWord]

theorem stashWord_hardFault (t : Blk) (r : FaultRec) : stashWord (hardFault t r s) = stashWord s := by
  rw [hardFault, stashWord_hardEnd, stashWord_pageRecord]

theorem stashWord_crossingLoss (e : Evt) : stashWord (crossingLoss e s) = stashWord s := by
  unfold crossingLoss
  split
  · refine (foldl_keeps stashWord _ (fun s e => stashWord_hardFault s _ _) _ _).trans ?_
    exact rget_of_glbRegs (congrArg Prod.snd (hbmFrame_loseChannel s e.inst)) (by decide)
  · rfl

/-! ## The entry's flights and events -/

theorem stashWord_modFlight (st idx : Nat) (g : Flight → Flight) : stashWord (modFlight st idx g s) = stashWord s := by
  rw [modFlight_eq, modStream]
  split <;> rfl

theorem stashWord_noteUpdate (st idx : Nat) (e : Entry) : stashWord (noteUpdate st idx e s) = stashWord s := by
  unfold noteUpdate
  split
  · split <;> rfl
  · rfl

theorem stashWord_confineEntry (st idx : Nat) (c : Confined) : stashWord (confineEntry st idx s c) = stashWord s := by
  have added (r : FaultRec) (u : State) : stashWord (addConfined r u) = stashWord u := rfl
  simp only [confineEntry, confinedIdle, dropNow, ite_stashWord, stashWord_modFlight, added, stashWord_pageRecord, stashWord_errCount,
    ite_self]

theorem stashWord_raiseEntry (st idx : Nat) (tagged : Bool) (e : Evt) : stashWord (raiseEntry st idx tagged s e) = stashWord s := by
  simp only [raiseEntry, ite_stashWord, stashWord_confineEntry, stashWord_modFlight, stashWord_pageRecord, stashWord_crossingLoss,
    stashWord_hardFault, ite_self]

end

theorem stashWord_settleRun {c : Ctx} {r : Run} (late : r.late = false) (need : r.need = []) (u : State) :
    stashWord (settleRun c r u) = stashWord r.s := by
  rw [settleRun, late, need, if_neg Bool.false_ne_true, if_pos rfl]
  dsimp only
  rw [foldl_keeps stashWord _ fun s e => stashWord_raiseEntry s _ _ _ e, stashWord_noteUpdate, stashWord_modFlight]

/-! ## The physical world -/

theorem stashWord_unitLog (c : Ctx) (unit kind detail : Nat) (s : State) : stashWord (unitLog c unit kind detail s) = stashWord s := by
  have apart : Reg.stashStatus ≠ if c.kind = 1 then Reg.jncFaultLog c.inst else Reg.movFaultLog c.inst := by
    split
    · exact ne_stashStatus .jnc c.inst (by decide) (by decide)
    · exact ne_stashStatus .mov c.inst (by decide) (by decide)
  simp only [unitLog, ite_stashWord, stashWord_rset _ apart, ite_self]

theorem stashWord_physEvents (c : Ctx) (r : Run) : stashWord (physEvents c r).s = stashWord r.s := by
  have counted (b : Blk) (i : Nat) (s : State) : stashWord (countCorrected 1 (errCount b i 1 s)) = stashWord s :=
    (stashWord_countCorrected _ _).trans (stashWord_errCount s b i 1)
  refine foldl_keeps (fun r : Run => stashWord r.s) _ (fun r p => ?_) c.ph r
  cases p with
  | sramCorrected => exact stashWord_rset r.s (ne_stashStatus .mgt 0 (by decide) (by decide)) _
  | _ =>
    simp (disch := decide) only [ite_run, ite_stashWord, Run.raise_s, Run.mod_s, stashWord_unitLog, counted, ite_self,
      Reg.arrayStarved, Reg.spWriteWait, Reg.spReadWait, Reg.spFeedConflict, Reg.mergeWait, stashWord_count]

end Sys2Proof.Machine
end

