-- ==== Sys2Proof/Proofs/StashRecords.lean ====
section
/-! SUPPORT. EFFECT. The records that a `STASH_WRITE` and a `STASH_READ` leave (05 R111 to R113, R118; 14 R317). -/

namespace Sys2Proof.Machine
open Sys2Proof.Stmt

variable {s t : State} {c : Ctx} {r : Run} {st : Nat} {x : Stream} {e : Entry}

/-! ## Issue -/

/-- The issue of an entry of the stash changes its stream alone. -/
theorem launched_stash (op : e.op = 0x34 ∨ e.op = 0x35) (st : Nat) (x : Stream) (ph : List Phys) (s : State) :
    launched st x e ph s = setStream st (launchOf s x e ph) s := by
  have pure : mixes e.op = false ∧ isGate e = false := by rcases op with op | op <;> simp [mixes, isGate, isColl, op]
  obtain ⟨mixed, gate⟩ := pure
  have unmixed : markMixed e x.slotNow (slotVoid s x.slotNow) s = s := by
    unfold markMixed
    split <;> simp [mixed]
  rw [launched, unmixed, gateIssue, gate, if_neg Bool.false_ne_true]

/-- An entry of the stash that issues in turn runs. -/
theorem issue_stash (h : Stands st x e s) (turn : InTurn x) (op : e.op = 0x34 ∨ e.op = 0x35) {ok : Entry → Bool}
    (admitted : ok e = true) (ph : List Phys) (eff : Ctx → Run → Run) :
    issue st ok ph eff s = settleRun (ctxNow s st x e ph)
      (eff (ctxNow s st x e ph) { s := setStream st (launchOf s x e ph) s }) (setStream st (launchOf s x e ph) s) := by
  rw [issue_of_stands h admitted, if_pos turn, launched_stash op]

/-! ## Placement -/

/-- The blocks of a record of `n` bytes, where the directory has room for it (05 R112, R113), and whether a quota moved one on. -/
def placedFor (s : State) (n : Nat) : Option (List (Nat × Nat)) × Bool :=
  if recordsHeld s < 16384 then placeBlocks s (ceilDiv n 65536) (blocksUsed s) [] false else (none, false)

theorem placeBlock_congr (on : levelOn t = levelOn s) (phys : levelPhys t = levelPhys s) (quota : levelQuota t = levelQuota s)
    (used : List (Nat × Nat)) (levels : List Nat) (pin : Bool) : placeBlock t used levels pin = placeBlock s used levels pin := by
  induction levels generalizing pin with
  | nil => rfl
  | cons lv levels ih => simp only [placeBlock, freeBlock, on, phys, quota, ih]

theorem placeBlocks_congr (on : levelOn t = levelOn s) (phys : levelPhys t = levelPhys s) (quota : levelQuota t = levelQuota s)
    (n : Nat) (used got : List (Nat × Nat)) (pin : Bool) : placeBlocks t n used got pin = placeBlocks s n used got pin := by
  induction n generalizing used got pin with
  | zero => rfl
  | succ n ih => simp only [placeBlocks, placeBlock_congr on phys quota, ih]

/-- The stream of an entry bears on no level. -/
theorem placedFor_setStream (st : Nat) (y : Stream) (tag n : Nat) (s : State) :
    placedFor (freeRecord tag (setStream st y s)) n = placedFor (freeRecord tag s) n := by
  unfold placedFor
  rw [placeBlocks_congr (t := freeRecord tag (setStream st y s)) (s := freeRecord tag s) rfl rfl rfl]
  rfl

/-! ## The effect of a STASH_WRITE -/

/-- The lines of the source are written to the blocks of their record. -/
def storeRecord (c : Ctx) (tags : Nat × Nat) (d : Desc) (bs : List (Nat × Nat)) (r : Run) : Run :=
  let x := recordLines c tags d r
  let ls := x.1.map fun l => (l.1, spoil c (64 * l.1) l.2)
  (putNbrLines c tags bs ls (ls.foldl (fun r l => putStashLine c tags bs l r) x.2)).mod
    (countMoved c (if d.layout = 2 then 64 * ls.length else stashSize d) (64 * ls.length))

/-- The record of a source, with the blocks placed for it or without any. -/
def noteAndStore (c : Ctx) (tags : Nat × Nat) (d : Desc) (placed : Option (List (Nat × Nat))) (r : Run) : Run :=
  match placed with
  | none => (r.mod (putExhausted tags.2 (stashSize d))).raise { code := 0x0501, ty := .mov, inst := c.inst }
  | some bs => storeRecord c tags d bs (r.mod (putRecord tags.2 (stashSize d) bs))

theorem stashWriteEff_live (live : c.voided = false) (r : Run) :
    stashWriteEff c r =
      let d := descOr r.s c.e.descA
      let tags := stashTags r.s c.e c.slot
      let p := placedFor (freeRecord tags.2 r.s) (stashSize d)
      physEvents c (noteAndStore c tags d p.1 ((r.mod (freeRecord tags.2)).mod (stashPin p.2))) := by
  rw [stashWriteEff, live]
  rfl

theorem stashWriteEff_voided (void : c.voided = true) (r : Run) : stashWriteEff c r = physEvents c r := by
  simp only [stashWriteEff, void, if_true]

/-- The record that a step makes next (05 R113). -/
def nextRecord (s : State) (tag n : Nat) (placed : Option (List (Nat × Nat))) : StashRec :=
  { id := s.step.stashMade, tag := tag, bytes := n, exhausted := placed.isNone, blocks := placed.getD [] }

theorem accState_putRecord (tag n : Nat) (bs : List (Nat × Nat)) (pin : Bool) (s : State) :
    accState (putRecord tag n bs (stashPin pin s)) = (s.acc, s.ksteps, s.stash ++ [nextRecord s tag n (some bs)]) := by
  rw [putRecord, accState_setF]
  cases pin <;> rfl

theorem accState_putExhausted (tag n : Nat) (pin : Bool) (s : State) :
    accState (putExhausted tag n (stashPin pin s)) = (s.acc, s.ksteps, s.stash ++ [nextRecord s tag n none]) := by
  rw [putExhausted, accState_setB]
  cases pin <;> rfl

theorem accState_storeRecord (tags : Nat × Nat) (d : Desc) (bs : List (Nat × Nat)) (r : Run) :
    accState (storeRecord c tags d bs r).s = accState r.s := by simp [storeRecord]

theorem pace_storeRecord (tags : Nat × Nat) {d : Desc} (home : d.place ≠ 2) (bs : List (Nat × Nat)) (r : Run) :
    pace (storeRecord c tags d bs r) = pace r := by
  rw [storeRecord, pace_mod _ (by simp [countMoved]), pace_putNbrLines, foldl_pace _ fun r l => pace_putStashLine c r tags bs l,
    pace_recordLines c r tags home]

theorem waits_physEvents (c : Ctx) {q : Run} (late : q.late = false) (need : q.need = []) :
    (physEvents c q).late = false ∧ (physEvents c q).need = [] := by
  have same := heldRun_physEvents c q
  exact ⟨(congrArg (fun x => x.2.1) same).trans late, (congrArg (fun x => x.2.2) same).trans need⟩

theorem accState_noteAndStore (tags : Nat × Nat) (d : Desc) (placed : Option (List (Nat × Nat))) (pin : Bool) (r : Run) :
    accState (noteAndStore c tags d placed (r.mod (stashPin pin))).s =
      (r.s.acc, r.s.ksteps, r.s.stash ++ [nextRecord r.s tags.2 (stashSize d) placed]) := by
  cases placed with
  | none =>
    rw [noteAndStore, Run.raise_s]
    exact accState_putExhausted _ _ pin r.s
  | some bs =>
    rw [noteAndStore, accState_storeRecord]
    exact accState_putRecord _ _ bs pin r.s

theorem pace_noteAndStore (tags : Nat × Nat) {d : Desc} (home : d.place ≠ 2) (placed : Option (List (Nat × Nat))) (r : Run) :
    pace (noteAndStore c tags d placed r) = pace r := by
  cases placed with
  | none => rw [noteAndStore, pace_raise, pace_mod _ (by simp)]
  | some bs => rw [noteAndStore, pace_storeRecord tags home, pace_mod _ (by simp)]

/-- A record that is made without blocks sets its status bit (05 R113). -/
theorem exhausted_noteAndStore (tags : Nat × Nat) (d : Desc) (r : Run) :
    getB (noteAndStore c tags d none r).s Reg.stashStatus 62 = true := by
  rw [noteAndStore, Run.raise_s]
  exact getB_setB_same _ Reg.stashStatus 62 true (by decide)

section
variable (h : Stands st x e s) (turn : InTurn x) (op : e.op = 0x34) (live : slotVoid s x.slotNow = false)
include h turn op live

/-- A `STASH_WRITE` in turn and not void runs, with the blocks that are placed for its record. -/
theorem issue_stashWrite (ph : List Phys) :
    issue st (fun e => e.op == 0x34) ph stashWriteEff s =
      let c := ctxOf s st x x.pos e x.slotNow false ph
      let d := descOr s e.descA
      let tags := stashTags s e x.slotNow
      let p := placedFor (freeRecord tags.2 s) (stashSize d)
      let u := setStream st (launchOf s x e ph) s
      settleRun c (physEvents c (noteAndStore c tags d p.1 ((({ s := u } : Run).mod (freeRecord tags.2)).mod (stashPin p.2)))) u := by
  have context : ctxNow s st x e ph = ctxOf s st x x.pos e x.slotNow false ph := by rw [ctxNow, live]
  have placed := placedFor_setStream st (launchOf s x e ph) (stashTags s e x.slotNow).2 (stashSize (descOr s e.descA)) s
  rw [issue_stash h turn (Or.inl op) (ok := fun e => e.op == 0x34) (beq_iff_eq.2 op), context, stashWriteEff_live rfl]
  dsimp only
  rw [← placed]
  rfl

/-- It replaces the record of its tag (05 R112, R113). -/
theorem stashWrite_records (running : ClocksRun s) (home : (descOr s e.descA).place ≠ 2) (ph : List Phys)
    {placed : Option (List (Nat × Nat))}
    (places : (placedFor (freeRecord (slotTag e x.slotNow) s) (stashSize (descOr s e.descA))).1 = placed) :
    accState (issue st (fun e => e.op == 0x34) ph stashWriteEff s) = (s.acc, s.ksteps,
      (freeRecord (slotTag e x.slotNow) s).stash ++ [nextRecord s (slotTag e x.slotNow) (stashSize (descOr s e.descA)) placed]) ∧
    (placed = none → getB (issue st (fun e => e.op == 0x34) ph stashWriteEff s) Reg.stashStatus 62 = true) := by
  rw [issue_stashWrite h turn op live]
  dsimp only
  generalize ctxOf s st x x.pos e x.slotNow false ph = c
  have tag : (stashTags s e x.slotNow).2 = slotTag e x.slotNow := rfl
  rw [tag, places]
  generalize (placedFor (freeRecord (slotTag e x.slotNow) s) (stashSize (descOr s e.descA))).2 = pin
  generalize freed : ({ s := setStream st (launchOf s x e ph) s } : Run).mod (freeRecord (slotTag e x.slotNow)) = r
  have calm : ClocksRun r.s ∧ r.late = false ∧ r.need = [] := by subst freed; exact ⟨running, rfl, rfl⟩
  obtain ⟨clock, late, need⟩ := calm
  have same : pace (noteAndStore c (stashTags s e x.slotNow) (descOr s e.descA) placed (r.mod (stashPin pin))) = pace r := by
    rw [pace_noteAndStore _ home, pace_mod _ (by simp)]
  obtain ⟨late, need⟩ := waits_of_pace same clock late need
  obtain ⟨late, need⟩ := waits_physEvents c late need
  refine ⟨?_, fun none => ?_⟩
  · rw [accState_of_held (held_settleRun late need _), accState_physEvents, accState_noteAndStore]
    subst freed
    rfl
  · subst none
    have word := stashWord_settleRun (c := c) late need (setStream st (launchOf s x e ph) s)
    rw [stashWord_physEvents] at word
    have set := exhausted_noteAndStore (c := c) (stashTags s e x.slotNow) (descOr s e.descA) (r.mod (stashPin pin))
    rw [getB, getF] at set ⊢
    rwa [← stashWord, word]

end

/-- A void `STASH_WRITE` changes no record (14 R317). -/
theorem stashWrite_void (h : Stands st x e s) (op : e.op = 0x34) (void : slotVoid s x.slotNow = true) (ph : List Phys) :
    accState (issue st (fun e => e.op == 0x34) ph stashWriteEff s) = accState s := by
  refine accState_issue h (ok := fun e => e.op == 0x34) (beq_iff_eq.2 op) ph fun r => ?_
  rw [stashWriteEff_voided void, accState_physEvents]

end Sys2Proof.Machine
end

