-- ==== Sys2Proof/Proofs/ScratchpadRuns.lean ====
section
/-! SUPPORT. EFFECT. What an entry that reads and writes plain scratchpad tensors, with nothing that the physical world adds, changes of
its run: the bytes that it writes and the power states of the banks (10 R222, R226). -/

namespace Sys2Proof.Machine
open Sys2Proof.Stmt

variable {s t : State} {c : Ctx} {d : Desc} {p q r : Run}

/-! ## Byte runs -/

/-- A memory after the byte runs of a list, in their order. -/
def memPut (m : Mem) (ws : List (Nat × List Byte)) : Mem := ws.foldl (fun m w => memWrite m w.1 w.2) m

theorem memPut_append (m : Mem) (ws vs : List (Nat × List Byte)) : memPut m (ws ++ vs) = memPut (memPut m ws) vs :=
  List.foldl_append

/-- Runs of zeros leave zeros wherever one of them lies, share they bytes or not. -/
theorem memGet_memPut_zeros {ws : List (Nat × List Byte)} (zeros : ∀ w ∈ ws, ∀ b ∈ w.2, b = 0) (m : Mem) {k : Nat}
    (inside : (∃ w ∈ ws, w.1 ≤ k ∧ k < w.1 + w.2.length) ∨ memGet m k = 0) : memGet (memPut m ws) k = 0 := by
  induction ws generalizing m with
  | nil => simpa [memPut] using inside
  | cons w ws ih =>
    obtain ⟨first, rest⟩ := List.forall_mem_cons.1 zeros
    refine ih rest (memWrite m w.1 w.2) ?_
    rw [memGet_write]
    split
    · next here =>
      refine Or.inr (first _ ?_)
      have small : k - w.1 < w.2.length := by omega
      simp [List.getD, small]
    · next off =>
      rcases inside with ⟨v, mem, here⟩ | zero
      · rcases List.mem_cons.1 mem with rfl | later
        · exact absurd here off
        · exact Or.inl ⟨v, later, here⟩
      · exact Or.inr zero

theorem memRead_of_zeros {m : Mem} {a n : Nat} (zeros : ∀ k, a ≤ k → k < a + n → memGet m k = 0) :
    memRead m a n = List.replicate n 0 := by
  rw [← memRead_nil a n]
  exact memRead_congr fun k lo hi => (zeros k lo hi).trans rfl

/-- Byte runs that share no byte stand in the scratchpads that they are put into. -/
theorem puts_of_disjoint {ws : List (Nat × List Byte)} (apart : Disjoint ws) (sp : t.sp = memPut s.sp ws) : Puts ws s t := by
  refine ⟨fun w mem => ?_, fun k out => ?_⟩
  · rw [sp]
    exact memRead_foldl_write s.sp apart mem
  · rw [sp]
    exact memGet_foldl_write s.sp ws k out

theorem puts_of_zeros {ws : List (Nat × List Byte)} (zeros : ∀ w ∈ ws, ∀ b ∈ w.2, b = 0) (sp : t.sp = memPut s.sp ws) :
    Puts ws s t := by
  refine ⟨fun w mem => ?_, fun k out => ?_⟩
  · rw [sp, memRead_of_zeros fun k lo hi => memGet_memPut_zeros zeros s.sp (Or.inl ⟨w, mem, lo, hi⟩)]
    exact (List.eq_replicate_iff.2 ⟨rfl, zeros w mem⟩).symm
  · rw [sp]
    exact memGet_foldl_write s.sp ws k out

/-! ## Runs that write -/

/-- Run `q` is run `r` after byte runs written to the scratchpads: of the rest the write-backs due and the power states of banks alone
may differ. -/
structure Writes (ws : List (Nat × List Byte)) (r q : Run) : Prop where
  run : q = { r with s := q.s }
  state : ∃ regs fix, q.s = { r.s with regs := regs, spFix := fix, sp := memPut r.s.sp ws }
  still : ∀ a, a % 0x10000 ≠ 0x130 → rget q.s a = rget r.s a

theorem Writes.refl (r : Run) : Writes [] r r := ⟨rfl, ⟨_, _, rfl⟩, fun _ _ => rfl⟩

theorem Writes.trans {ws vs : List (Nat × List Byte)} (first : Writes ws p q) (next : Writes vs q r) : Writes (ws ++ vs) p r := by
  refine ⟨?_, ?_, fun a apart => (next.still a apart).trans (first.still a apart)⟩
  · rw [next.run, first.run]
  · obtain ⟨_, _, before⟩ := first.state
    obtain ⟨regs, fix, after⟩ := next.state
    exact ⟨regs, fix, by rw [after, before, memPut_append]⟩

/-- The core that serves a tensor, in a run that has written. -/
theorem Writes.coreIn {ws : List (Nat × List Byte)} (h : Writes ws r q) (own : Nat) (d : Desc) : coreIn q.s own d = coreIn r.s own d := by
  refine coreIn_of_ctrl (funext fun i => h.still _ ?_) own d
  simp only [Reg.blkCtrl, reg]
  omega

/-- An access touches the power states of banks alone. -/
theorem spTouch_eq (core off n : Nat) (s : State) : ∃ regs, spTouch core off n s = { s with regs := regs } := by
  unfold spTouch
  split
  · exact ⟨s.regs, rfl⟩
  · next asleep =>
    clear asleep
    generalize ((linesOf off n).map fun l => spBank l / 2).eraseDups = pairs
    induction pairs generalizing s with
    | nil => exact ⟨s.regs, rfl⟩
    | cons k pairs ih =>
      obtain ⟨regs, rest⟩ := ih (setF s (Reg.spPower core) (2 * k + 33) (2 * k + 32) 0)
      exact ⟨regs, rest⟩

theorem rget_spTouch (core off n : Nat) (s : State) {a : Nat} (apart : a % 0x10000 ≠ 0x130) :
    rget (spTouch core off n s) a = rget s a := by
  unfold spTouch
  split
  · rfl
  · refine foldl_keeps (fun s => rget s a) _ (fun s k => rget_rset_ne _ _ fun same => apart ?_) _ s
    rw [same]
    simp only [Reg.spPower, reg]
    omega

section
variable (free : c.ph = [])
include free

theorem spRead_writes (core off n : Nat) (r : Run) :
    (spRead c core off n r).1 = memRead r.s.sp (core * 524288 + off) n ∧ Writes [] r (spRead c core off n r).2 := by
  obtain ⟨regs, touched⟩ := spTouch_eq core off n r.s
  rw [spRead_eq free]
  exact ⟨rfl, rfl, ⟨regs, r.s.spFix, touched⟩, fun a apart => rget_spTouch core off n r.s apart⟩

theorem spWrite_writes (core off : Nat) (bs : List Byte) (r : Run) :
    Writes [(core * 524288 + off, bs)] r (spWrite c core off bs r) := by
  simp only [spWrite, free, spBad, spPartFixed, List.filterMap_nil, List.filter_nil, List.foldl_nil]
  obtain ⟨regs, touched⟩ := spTouch_eq core off bs.length { r.s with
    sp := memWrite r.s.sp (core * 524288 + off) bs
    spFix := r.s.spFix.filter fun a => !(decide (core * 524288 + off < a + 8) && decide (a < core * 524288 + off + bs.length)) }
  exact ⟨rfl, ⟨regs, _, touched⟩, fun a apart => rget_spTouch core off bs.length _ apart⟩

variable (place : d.place = 1)
include place

theorem getBytes_writes (off n : Nat) (r : Run) :
    (getBytes c d off n r).1 = memRead r.s.sp (coreIn r.s c.inst d * 524288 + off) n ∧ Writes [] r (getBytes c d off n r).2 := by
  unfold getBytes
  split
  · next none => exact ⟨by rw [none]; rfl, Writes.refl r⟩
  · rw [if_neg (show d.place ≠ 0 by omega)]
    exact spRead_writes free _ off n r

theorem putBytes_writes (g : GTag) (off : Nat) (bs : List Byte) (r : Run) :
    Writes [(coreIn r.s c.inst d * 524288 + off, bs)] r (putBytes c g d off bs r) := by
  unfold putBytes
  split
  · next none =>
    rw [List.length_eq_zero_iff.1 none]
    exact ⟨rfl, ⟨_, _, rfl⟩, fun _ _ => rfl⟩
  · rw [if_neg (show d.place ≠ 0 by omega)]
    exact spWrite_writes free _ off bs r

omit free in
theorem inAct_of_place (s : State) : inAct s d = false := by simp [inAct, place]

theorem stashGet_writes (tags : Nat × Nat) (off n pos : Nat) (r : Run) :
    (stashGet c tags d off n pos r).1 = memRead r.s.sp (coreIn r.s c.inst d * 524288 + off) n ∧
      Writes [] r (stashGet c tags d off n pos r).2 := by
  rw [stashGet, inAct_of_place place, if_neg Bool.false_ne_true]
  exact getBytes_writes free place off n r

theorem stashPut_writes (tags : Nat × Nat) (off : Nat) (bs : List Byte) (pos : Nat) (r : Run) :
    Writes [(coreIn r.s c.inst d * 524288 + off, bs)] r (stashPut c tags d off bs pos r) := by
  simp only [stashPut, inAct_of_place place, Bool.false_eq_true, if_false, spoil_of_free free]
  exact putBytes_writes free place {} off bs r

end

end Sys2Proof.Machine
end

