-- ==== Sys2Proof/Proofs/RecordBytes.lean ====
section
/-! SUPPORT. EFFECT. A stash record of a plain scratchpad tensor: its bytes are those of the rows, in lines that are completed with zeros
(05 R111). -/

namespace Sys2Proof.Machine
open Sys2Proof.Stmt

variable {s : State} {c : Ctx} {d : Desc} {r : Run}

/-! ## Rows -/

theorem stashExtents_plain (plain : PlainSp d) : stashExtents d = (List.range d.rows).map fun i => (d.rowOff i, d.rowBytes) := by
  simp [stashExtents, plain.2.1]

theorem stashSize_plain (plain : PlainSp d) : stashSize d = d.rows * d.rowBytes := by
  rw [stashSize, stashExtents_plain plain]
  induction d.rows with
  | zero => simp
  | succ n ih => rw [List.range_succ, List.map_append, List.foldl_append, ih, Nat.succ_mul]; rfl

theorem length_allBytes (plain : PlainSp d) (s : State) (own : Nat) : (allBytes s own d).length = stashSize d := by
  have rows : (fun i => (bytesIn s own d i).length) = fun _ => d.rowBytes := funext fun i => by rw [bytesIn, length_memRead]
  rw [stashSize_plain plain, allBytes, List.length_flatten, List.map_map, Function.comp_def, rows]
  simp

theorem bytesIn_plain (place : d.place = 1) (s : State) (own i : Nat) :
    bytesIn s own d i = memRead s.sp (coreIn s own d * 524288 + d.rowOff i) d.rowBytes := by
  rw [bytesIn, placeMem, rowAddr, if_pos place, if_pos place]

theorem Writes.sp {ws : List (Nat × List Byte)} {q : Run} (h : Writes ws r q) : q.s.sp = memPut r.s.sp ws := by
  obtain ⟨_, _, same⟩ := h.state
  rw [same]

section
variable (free : c.ph = []) (place : d.place = 1) (tags : Nat × Nat)
include free place

/-- The first `n` rows of a source, in record order. -/
theorem readRows_writes (n : Nat) (r : Run) :
    let x := ((List.range n).map fun i => (d.rowOff i, d.rowBytes)).foldl (fun (a : List Byte × Run) x =>
      let y := stashGet c tags d x.1 x.2 a.1.length a.2
      (a.1 ++ y.1, y.2)) ([], r)
    x.1 = ((List.range n).map (bytesIn r.s c.inst d)).flatten ∧ Writes [] r x.2 := by
  induction n with
  | zero => exact ⟨rfl, Writes.refl r⟩
  | succ n ih =>
    obtain ⟨value, wrote⟩ := ih
    simp only [List.range_succ, List.map_append, List.foldl_append, List.map_cons, List.map_nil, List.foldl_cons, List.foldl_nil,
      List.flatten_append, List.flatten_cons, List.flatten_nil, List.append_nil]
    generalize ((List.range n).map fun i => (d.rowOff i, d.rowBytes)).foldl _ (([], r) : List Byte × Run) = x at value wrote
    obtain ⟨bytes, same⟩ := stashGet_writes free place tags (d.rowOff n) d.rowBytes x.1.length x.2
    refine ⟨?_, wrote.trans same⟩
    rw [bytes, wrote.sp, wrote.coreIn, value, bytesIn_plain place]
    rfl

/-- A record's bytes put into the first `n` rows of a destination. -/
theorem putRows_writes (bs : List Byte) (n : Nat) (r : Run) :
    let x := ((List.range n).map fun i => (d.rowOff i, d.rowBytes)).foldl (fun (a : Nat × Run) x =>
      (a.1 + x.2, stashPut c tags d x.1 ((bs.drop a.1).take x.2) a.1 a.2)) (0, r)
    x.1 = n * d.rowBytes ∧ Writes ((List.range n).map fun i =>
      (coreIn r.s c.inst d * 524288 + d.rowOff i, (bs.drop (i * d.rowBytes)).take d.rowBytes)) r x.2 := by
  induction n with
  | zero => exact ⟨by simp, Writes.refl r⟩
  | succ n ih =>
    obtain ⟨at_, wrote⟩ := ih
    simp only [List.range_succ, List.map_append, List.foldl_append, List.map_cons, List.map_nil, List.foldl_cons, List.foldl_nil]
    generalize ((List.range n).map fun i => (d.rowOff i, d.rowBytes)).foldl _ ((0, r) : Nat × Run) = x at at_ wrote
    have put := stashPut_writes free place tags (d.rowOff n) ((bs.drop x.1).take d.rowBytes) x.1 x.2
    rw [wrote.coreIn, at_] at put
    exact ⟨by rw [at_, Nat.succ_mul], by rw [at_]; exact wrote.trans put⟩

end

section
variable (free : c.ph = []) (plain : PlainSp d) (tags : Nat × Nat)
include free plain

/-- What a `STASH_READ` of a plain scratchpad destination writes. -/
theorem putRecordBytes_writes (bs : List Byte) (r : Run) :
    Writes (recordWrites (coreIn r.s c.inst d) d bs) r (putRecordBytes c tags d bs r) := by
  rw [putRecordBytes, stashExtents_plain plain]
  exact (putRows_writes free plain.1 tags bs d.rows r).2

/-- What a `STASH_WRITE` of a plain scratchpad source reads. -/
theorem recordLines_writes (r : Run) :
    (recordLines c tags d r).1 = numberLines 0 (allBytes r.s c.inst d) ∧ Writes [] r (recordLines c tags d r).2 := by
  obtain ⟨value, wrote⟩ := readRows_writes free plain.1 tags d.rows r
  rw [recordLines, if_neg (by have := plain.2.1; omega), stashExtents_plain plain]
  exact ⟨congrArg (numberLines 0) value, wrote⟩

end

/-! ## Lines -/

theorem length_recordLine (bs : List Byte) (i : Nat) : (recordLine bs i).length = 64 := by
  simp only [recordLine, List.length_append, List.length_replicate, List.length_take]
  omega

/-- Line `i` of a byte string that is completed to whole lines. -/
theorem line_completed (bs : List Byte) {i n : Nat} (inside : i < n) (whole : bs.length ≤ 64 * n) :
    ((bs ++ List.replicate (64 * n - bs.length) 0).drop (64 * i)).take 64 = recordLine bs i := by
  rw [recordLine, List.drop_append, List.take_append, List.drop_replicate, List.take_replicate]
  congr 2
  simp only [List.length_drop, List.length_take]
  omega

/-- The numbered lines of a byte string (05 R111, R112). -/
theorem numberLines_eq (bs : List Byte) :
    numberLines 0 bs = (List.range (ceilDiv bs.length 64)).map fun i => (i, recordLine bs i) := by
  have whole : roundUp bs.length 64 = 64 * ceilDiv bs.length 64 := Nat.mul_comm _ _
  have long : bs.length ≤ 64 * ceilDiv bs.length 64 := by
    rw [ceilDiv]
    omega
  have count : ceilDiv (bs ++ List.replicate (64 * ceilDiv bs.length 64 - bs.length) (0 : Byte)).length 64 = ceilDiv bs.length 64 := by
    simp only [List.length_append, List.length_replicate, ceilDiv]
    omega
  rw [numberLines, whole, chunks, show max 64 1 = 64 from rfl, count]
  refine List.ext_getElem (by simp) fun i low high => ?_
  have inside : i < ceilDiv bs.length 64 := by simpa using high
  have row := line_completed bs inside long
  rw [Nat.mul_comm 64 i] at row
  simpa using row

end Sys2Proof.Machine
end

