-- ==== Sys2Proof/Proofs/StashLines.lean ====
section
/-! SUPPORT. EFFECT. Lines of a stash record at the local level, while every clock runs and with nothing that the physical world adds: a
line that is written stands there with its check bytes, and lines whose check bytes agree are read back (11 R245, R246). -/

namespace Sys2Proof.Machine
open Sys2Proof.Stmt

variable {s t : State} {c : Ctx} {r : Run}

/-! ## Regions and addresses -/

/-- Two states have one region table and one job. -/
structure SameRegions (s t : State) : Prop where
  job : t.job = s.job
  table : ∀ a, 0x1000 ≤ a → a < 0x2000 → rget t a = rget s a

theorem SameRegions.raw (h : SameRegions s t) {k : Nat} (low : k < 256) : regionRaw t k = regionRaw s k := by
  have first : rget t (Reg.regionW0 k) = rget s (Reg.regionW0 k) := by
    simp only [Reg.regionW0, reg_glb]
    exact h.table _ (by omega) (by omega)
  have second : rget t (Reg.regionW1 k) = rget s (Reg.regionW1 k) := by
    simp only [Reg.regionW1, reg_glb]
    exact h.table _ (by omega) (by omega)
  simp only [regionRaw, getF, first, second]

theorem SameRegions.regionOf (h : SameRegions s t) (a : Nat) : regionOf t a = regionOf s a := by
  have each : ∀ k ∈ List.range 256, region? t k = region? s k := fun k mem => by
    have low := List.mem_range.1 mem
    have valid : rget t (Reg.regionW0 k) = rget s (Reg.regionW0 k) := by
      simp only [Reg.regionW0, reg_glb]
      exact h.table _ (by omega) (by omega)
    simp [region?, h.raw low, getB, getF, valid]
  simp only [Machine.regionOf, regions, List.filterMap_congr each]

theorem stashRegion_lt (s : State) : stashRegion s < 256 := fld_lt _ _ _

theorem SameRegions.lineAt (h : SameRegions s t) (bs : List (Nat × Nat)) (i : Nat) : lineAt t bs i = lineAt s bs i := by
  have region : stashRegion t = stashRegion s := by simp only [stashRegion, h.job]
  simp only [Stmt.lineAt, localAddr, region, h.raw (stashRegion_lt s)]

theorem SameRegions.atHome (h : SameRegions s t) {bs : List (Nat × Nat)} {n : Nat} (home : AtHome s bs n) : AtHome t bs n := by
  refine ⟨home.1, fun i inside => ?_⟩
  rw [h.lineAt, h.regionOf]
  exact home.2 i inside

theorem localAddr_aligned (s : State) (b j : Nat) : localAddr s b j % 64 = 0 := by
  simp only [localAddr, regionRaw]
  omega

theorem lineBlock_home {bs : List (Nat × Nat)} (home : ∀ b ∈ bs, b.1 = 0) (i : Nat) : (lineBlock bs i).1 = 0 := by
  rw [lineBlock, List.getD]
  cases found : bs[i / 1024]? with
  | none => rfl
  | some b => exact home b (List.mem_of_getElem? found)

/-! ## Check bytes -/

theorem leBytes_two_mod (v : Nat) : leBytes 2 (v % 2 ^ 16) = leBytes 2 v := by
  have low : BitVec.ofNat 8 (v % 2 ^ 16) = BitVec.ofNat 8 v := BitVec.eq_of_toNat_eq (by simp only [BitVec.toNat_ofNat]; omega)
  have high : BitVec.ofNat 8 (v % 2 ^ 16 / 256) = BitVec.ofNat 8 (v / 256) :=
    BitVec.eq_of_toNat_eq (by simp only [BitVec.toNat_ofNat]; omega)
  simp only [leBytes, low, high]

theorem actCheck_mod (data : List Byte) (step slot i : Nat) :
    actCheck data (step % 2 ^ 16) (slot % 2 ^ 16) i = actCheck data step slot i := by
  simp only [actCheck, leBytes_two_mod]

theorem length_actCheck (data : List Byte) (step slot i : Nat) : (actCheck data step slot i).length = 8 := by
  simp [actCheck]

/-- The tags that check bytes carry (11 R245). -/
theorem actCheck_tags (data : List Byte) (step slot i : Nat) :
    leNat (((actCheck data step slot i).drop 4).take 2) = step % 2 ^ 16 ∧
      leNat (((actCheck data step slot i).drop 6).take 2) = slot % 2 ^ 16 := by
  refine ⟨?_, ?_⟩
  · rw [actCheck, List.append_assoc, List.drop_left' (by simp), List.take_left' (by simp), leNat_leBytes]
    rfl
  · rw [actCheck, List.drop_left' (by simp), List.take_of_length_le (by simp), leNat_leBytes]
    rfl

/-! ## One line -/

section
variable (running : ClocksRun s) {line : Nat} {g : Region} (here : regionOf s line = some g) (act : g.cls = 2)
include running here act

/-- A line of an ACT region whose check bytes agree is delivered as it stands. -/
theorem fetchLine_act (who : Reader) {step slot i : Nat}
    (agree : memRead s.chk (line / 8) 8 = actCheck (memRead s.hbm line 64) step slot i) :
    fetchLine s [] who (some (step, slot, i)) line = { s := s, data := memRead s.hbm line 64, evs := [], bad := false } := by
  have fixed : dieFixed [] line = false := rfl
  have bad : dieBad [] line = false := rfl
  have poison (b : Bool) : lanePoison [] s line b = false := rfl
  have raw : lineRaw s [] line = memRead s.hbm line 64 ++ memRead s.chk (line / 8) 8 := rfl
  have data : (lineRaw s [] line).take 64 = memRead s.hbm line 64 := by rw [raw, List.take_left' (length_memRead _ _ _)]
  have chk : (lineRaw s [] line).drop 64 = actCheck (memRead s.hbm line 64) step slot i := by
    rw [raw, List.drop_left' (length_memRead _ _ _), agree]
  obtain ⟨stepTag, slotTag⟩ := actCheck_tags (memRead s.hbm line 64) step slot i
  simp [fetchLine, readLine, here, act, fixed, bad, poison, touchLine_of_running running, data, chk, stepTag, slotTag]
  exact (actCheck_mod ..).symm

/-- A whole line of an ACT region is stored with its check bytes. -/
theorem writeLine_act (who : Reader) (tags : Nat × Nat × Nat) (o : Nat) {bs : List Byte} (whole : bs.length = 64) :
    writeLine s [] who tags line o bs =
      { s := { s with hbm := memWrite s.hbm line bs, chk := memWrite s.chk (line / 8) (actCheck bs tags.1 tags.2.1 tags.2.2) },
        data := [], evs := [], bad := false } := by
  have poison : lanePoison [] s line true = false := rfl
  have built : isUnbuilt s line = false := by simp [isUnbuilt, here, act]
  simp [writeLine, here, poison, whole, putLine, built, touchLine_of_running running, lineCheck, act]

end

/-! ## The lines of a record -/

theorem lineAt_add (s : State) (bs : List (Nat × Nat)) {i k : Nat} (inside : i % 1024 + k < 1024) :
    lineAt s bs (i + k) = lineAt s bs i + 64 * k := by
  have block : (i + k) / 1024 = i / 1024 := by omega
  have place : (i + k) % 1024 = i % 1024 + k := by omega
  rw [lineAt, lineAt, lineBlock, lineBlock, block, place, localAddr, localAddr]
  omega

theorem lineCount_aligned {a : Nat} (aligned : a % 64 = 0) (n : Nat) : lineCount a (64 * n) = n := by
  unfold lineCount
  split <;> omega

theorem memRead_lines (m : Mem) (a n : Nat) :
    memRead m a (64 * n) = ((List.range n).map fun k => memRead m (a + 64 * k) 64).flatten := by
  induction n with
  | zero => rfl
  | succ n ih =>
    rw [Nat.mul_succ, memRead_append, ih, List.range_succ]
    simp

/-- Lines that are delivered as they stand. -/
theorem readLines_of_each {ph : List Phys} {who : Reader} {act : Nat → Option (Nat × Nat × Nat)} {n line : Nat}
    (each : ∀ k, k < n → fetchLine s ph who (act (line + 64 * k)) (line + 64 * k) =
      { s := s, data := memRead s.hbm (line + 64 * k) 64, evs := [], bad := false }) :
    readLines ph who act n line s = { s := s, data := memRead s.hbm line (64 * n), evs := [], bad := false } := by
  induction n generalizing line with
  | zero => rfl
  | succ n ih =>
    have first := each 0 (Nat.succ_pos n)
    have rest := ih (line := line + 64) fun k below => by
      have next := each (k + 1) (Nat.succ_lt_succ below)
      rwa [Nat.mul_succ, Nat.add_comm (64 * k), ← Nat.add_assoc] at next
    rw [Nat.mul_zero, Nat.add_zero] at first
    rw [readLines, first]
    dsimp only
    rw [rest, Nat.mul_succ, Nat.add_comm (64 * n), memRead_append]
    rfl

/-- Whole lines that are delivered as they stand, to a run. -/
theorem devReadAct_of_each (free : c.ph = []) (running : ClocksRun r.s) {a n : Nat} (aligned : a % 64 = 0)
    {act : Nat → Option (Nat × Nat × Nat)} (each : ∀ k, k < n → fetchLine r.s [] c.who (act (a + 64 * k)) (a + 64 * k) =
      { s := r.s, data := memRead r.s.hbm (a + 64 * k) 64, evs := [], bad := false }) :
    devReadAct act c a (64 * n) r = (memRead r.s.hbm a (64 * n), r) := by
  rw [devReadAct, touch_of_running running, lineCount_aligned aligned, free, Nat.div_mul_cancel (Nat.dvd_of_mod_eq_zero aligned),
    readLines_of_each each, aligned, List.drop_zero, List.take_of_length_le (by rw [length_memRead])]
  rfl

section
variable (free : c.ph = []) (running : ClocksRun r.s) {tags : Nat × Nat} {bs : List (Nat × Nat)} {n : Nat} (home : AtHome r.s bs n)
include free running home

section
variable (agree : ∀ i, i < n → memRead r.s.chk (lineAt r.s bs i / 8) 8 =
  actCheck (memRead r.s.hbm (lineAt r.s bs i) 64) tags.1 tags.2 i)
include agree

/-- Lines of one block are read as they stand (11 R246). -/
theorem blockStashLines_home {i m : Nat} (block : i % 1024 + m ≤ 1024) (inside : ∀ k, k < m → i + k < n) :
    blockStashLines c tags bs i m r = (((List.range m).map fun k => memRead r.s.hbm (lineAt r.s bs (i + k)) 64).flatten, r) := by
  obtain ⟨level, act⟩ := home
  have aligned : lineAt r.s bs i % 64 = 0 := localAddr_aligned _ _ _
  have lines : (List.range m).map (fun k => memRead r.s.hbm (lineAt r.s bs (i + k)) 64) =
      (List.range m).map fun k => memRead r.s.hbm (lineAt r.s bs i + 64 * k) 64 :=
    List.map_congr_left fun k mem => by
      have := List.mem_range.1 mem
      rw [lineAt_add _ _ (by omega)]
  have first : localAddr r.s (lineBlock bs i).2 (i % 1024) = lineAt r.s bs i := rfl
  simp only [blockStashLines, if_pos (lineBlock_home level i), first]
  rw [lines, ← memRead_lines]
  refine devReadAct_of_each free running aligned fun k below => ?_
  obtain ⟨g, here, cls⟩ := act (i + k) (inside k below)
  have checked := agree (i + k) (inside k below)
  rw [lineAt_add _ _ (by omega)] at here checked
  rw [Nat.add_sub_cancel_left, Nat.mul_div_cancel_left k (by decide)]
  exact fetchLine_act running here cls c.who checked

/-- The lines of a record are read as they stand. -/
theorem stashLines_home :
    stashLines c tags bs 0 n r = (((List.range n).map fun i => memRead r.s.hbm (lineAt r.s bs i) 64).flatten, r) := by
  have blocks (m : Nat) : (List.range m).foldl (fun (a : List Byte × Run) k =>
      let lo := max 0 ((0 / 1024 + k) * 1024)
      let hi := min (0 + n) ((0 / 1024 + k + 1) * 1024)
      let x := blockStashLines c tags bs lo (hi - lo) a.2
      (a.1 ++ x.1, x.2)) ([], r) =
        (((List.range (min n (m * 1024))).map fun i => memRead r.s.hbm (lineAt r.s bs i) 64).flatten, r) := by
    induction m with
    | zero => simp
    | succ m ih =>
      rw [List.range_succ, List.foldl_append, ih]
      simp only [List.foldl_cons, List.foldl_nil, Nat.zero_div, Nat.zero_add, Nat.zero_max, Nat.succ_mul]
      clear ih
      rw [blockStashLines_home free running home agree (by omega) (by omega)]
      rcases Nat.le_total n (m * 1024) with past | more
      · rw [Nat.min_eq_left past, Nat.min_eq_left (Nat.le_add_right_of_le past), Nat.sub_eq_zero_of_le past]
        simp
      · obtain ⟨k, upTo⟩ := Nat.exists_eq_add_of_le (Nat.le_min.2 ⟨more, Nat.le_add_right _ 1024⟩)
        rw [Nat.min_eq_right more, upTo, Nat.add_sub_cancel_left, List.range_add]
        simp [Function.comp_def]
  unfold stashLines
  split
  · next none => simp [none]
  · next some =>
    have all : min n (((0 + n - 1) / 1024 + 1 - 0 / 1024) * 1024) = n := by
      clear blocks
      omega
    rw [blocks, all]

end

end

end Sys2Proof.Machine
end

