-- ==== Sys2Proof/Proofs/StashStore.lean ====
section
/-! SUPPORT. EFFECT. The lines of a new stash record at the local level: its blocks are placed apart from each other, and each line
stands in its place with its check bytes (05 R112, R113; 11 R245). -/

namespace Sys2Proof.Machine
open Sys2Proof.Stmt

variable {s t : State} {c : Ctx} {r : Run} {bs : List (Nat × Nat)}

/-! ## Placement -/

theorem freeBlock_new {used : List (Nat × Nat)} {lv b : Nat} (free : freeBlock s used lv = some b) : (lv, b) ∉ used := by
  unfold freeBlock at free
  split at free
  · next found =>
    split at free
    · obtain rfl := Option.some.inj free
      simpa using List.find?_some found
    · cases free
  · cases free

theorem placeBlock_new {used : List (Nat × Nat)} {levels : List Nat} {pin : Bool} {b : Nat × Nat}
    (placed : (placeBlock s used levels pin).1 = some b) : b ∉ used := by
  induction levels generalizing pin with
  | nil => cases placed
  | cons lv levels ih =>
    unfold placeBlock at placed
    split at placed
    · next free =>
      split at placed
      · exact ih placed
      · split at placed
        · obtain rfl := Option.some.inj placed
          exact freeBlock_new free
        · exact ih placed
    · exact ih placed

/-- Blocks that are placed differ from each other, and there are as many as asked for. -/
theorem placeBlocks_apart {n : Nat} {used got : List (Nat × Nat)} {pin : Bool} (known : ∀ b ∈ got, b ∈ used) (apart : got.Nodup)
    (placed : (placeBlocks s n used got pin).1 = some bs) : bs.Nodup ∧ bs.length = got.length + n := by
  induction n generalizing used got pin with
  | zero =>
    obtain rfl := Option.some.inj placed
    exact ⟨apart, rfl⟩
  | succ n ih =>
    unfold placeBlocks at placed
    split at placed
    · next b _ first =>
      have fresh : b ∉ used := placeBlock_new (congrArg Prod.fst first)
      have more : (got ++ [b]).Nodup := List.nodup_append.2 ⟨apart, List.nodup_singleton b, fun x old y new same =>
        fresh (List.mem_singleton.1 new ▸ same ▸ known x old)⟩
      obtain ⟨differ, long⟩ := ih (fun x mem => by
        rcases List.mem_append.1 mem with old | new
        · exact List.mem_cons_of_mem _ (known x old)
        · exact List.mem_cons.2 (Or.inl (List.mem_singleton.1 new))) more placed
      exact ⟨differ, by rw [long, List.length_append, List.length_singleton, Nat.add_assoc, Nat.add_comm 1]⟩
    · cases placed

/-- Two lines of a record lie apart. -/
theorem lineAt_apart (home : ∀ b ∈ bs, b.1 = 0) (differ : bs.Nodup) {i j : Nat} (low : i / 1024 < bs.length)
    (high : j / 1024 < bs.length) (other : i ≠ j) :
    lineAt s bs i + 64 ≤ lineAt s bs j ∨ lineAt s bs j + 64 ≤ lineAt s bs i := by
  have first : lineBlock bs i = bs[i / 1024] := by simp [lineBlock, low]
  have second : lineBlock bs j = bs[j / 1024] := by simp [lineBlock, high]
  have levels : (lineBlock bs i).1 = (lineBlock bs j).1 := by rw [lineBlock_home home, lineBlock_home home]
  have blocks : (lineBlock bs i).2 = (lineBlock bs j).2 → i / 1024 = j / 1024 := fun same => by
    have equal := Prod.ext levels same
    rw [first, second] at equal
    exact (List.Nodup.getElem_inj_iff differ).1 equal
  rw [lineAt, lineAt, localAddr, localAddr]
  generalize (lineBlock bs i).2 = a at blocks
  generalize (lineBlock bs j).2 = b at blocks
  omega

/-! ## Writing -/

section
variable (running : ClocksRun r.s) (free : c.ph = []) (tags : Nat × Nat)
include running free

/-- A run after whole lines and their check bytes are stored (11 R245). -/
def storeLines (tags : Nat × Nat) (bs : List (Nat × Nat)) (ls : List (Nat × List Byte)) (r : Run) : Run :=
  { r with s := { r.s with
    hbm := memPut r.s.hbm (ls.map fun l => (lineAt r.s bs l.1, l.2))
    chk := memPut r.s.chk (ls.map fun l => (lineAt r.s bs l.1 / 8, actCheck l.2 tags.1 tags.2 l.1)) } }

omit running free in
theorem linesOf_aligned {a : Nat} (aligned : a % 64 = 0) : linesOf a 64 = [a / 64] := by
  have one := lineCount_aligned aligned 1
  rw [linesOf, one]
  rfl

/-- A line at the local level is stored with its check bytes. -/
theorem putStashLine_home {l : Nat × List Byte} (level : (lineBlock bs l.1).1 = 0) {g : Region}
    (here : regionOf r.s (lineAt r.s bs l.1) = some g) (act : g.cls = 2) (whole : l.2.length = 64) :
    putStashLine c tags bs l r = storeLines tags bs [l] r := by
  have aligned : lineAt r.s bs l.1 % 64 = 0 := localAddr_aligned _ _ _
  have first : localAddr r.s (lineBlock bs l.1).2 (l.1 % 1024) = lineAt r.s bs l.1 := rfl
  have back : lineAt r.s bs l.1 / 64 * 64 = lineAt r.s bs l.1 := Nat.div_mul_cancel (Nat.dvd_of_mod_eq_zero aligned)
  simp only [putStashLine, if_pos level, first]
  rw [devWriteAct, touch_of_running running, whole, linesOf_aligned aligned, List.foldl_cons, List.foldl_nil, devWriteLine, back, free]
  simp only [Nat.max_self, Nat.sub_self, List.drop_zero, Nat.add_sub_cancel_left]
  rw [List.take_of_length_le (Nat.le_of_eq whole), writeLine_act running here act _ _ _ whole]
  rfl

/-- Lines at the local level are stored with their check bytes. -/
theorem putStashLines_home (level : ∀ b ∈ bs, b.1 = 0) (ls : List (Nat × List Byte))
    (here : ∀ l ∈ ls, ∃ g, regionOf r.s (lineAt r.s bs l.1) = some g ∧ g.cls = 2) (whole : ∀ l ∈ ls, l.2.length = 64) :
    ls.foldl (fun r l => putStashLine c tags bs l r) r = storeLines tags bs ls r := by
  induction ls generalizing r with
  | nil => rfl
  | cons l ls ih =>
    obtain ⟨⟨g, at_, act⟩, others⟩ := List.forall_mem_cons.1 here
    obtain ⟨long, rest⟩ := List.forall_mem_cons.1 whole
    rw [List.foldl_cons, putStashLine_home running free tags (lineBlock_home level _) at_ act long]
    exact ih running others rest

end

/-- No line of a record at the local level goes to the neighbour. -/
theorem putNbrLines_home (level : ∀ b ∈ bs, b.1 = 0) (tags : Nat × Nat) (ls : List (Nat × List Byte)) (r : Run) :
    putNbrLines c tags bs ls r = r := by
  unfold putNbrLines
  split
  · rfl
  · refine (List.foldl_ext _ (fun r _ => r) r fun r x mem => if_neg ?_).trans (List.foldl_fixed _)
    rw [level x.1 (List.fst_mem_of_mem_zipIdx mem)]
    decide

end Sys2Proof.Machine
end

