-- ==== Sys2Proof/Proofs/StashSettle.lean ====
section
/-! SUPPORT. EFFECT. The end of a run of a stash entry: its memories stay as the run left them, and its entry in flight is marked
as run and, where a record is missing, with the event that it raises (05 R118, 14 R316). -/

namespace Sys2Proof.Machine
open Sys2Proof.Stmt

variable {s t u : State} {c : Ctx} {q : Run} {st : Nat} {x : Stream} {e : Entry}

/-! ## Memories -/

/-- HBM with its check bytes, the scratchpads and the host's memory. -/
def memories (s : State) : Mem × Mem × Mem × Mem := (s.hbm, s.chk, s.sp, s.host)

/-- The memories, the streams and whether a step is active. -/
def memoriesAndStreams (s : State) : (Mem × Mem × Mem × Mem) × List Stream × Bool := (memories s, s.streams, s.step.active)

theorem streamAt_of_memories (same : memoriesAndStreams t = memoriesAndStreams s) (i : Nat) : streamAt t i = streamAt s i :=
  congrArg (fun v => v.2.1[i]?) same

theorem memories_rset (s : State) (a : Nat) (w : W64) : memoriesAndStreams (rset s a w) = memoriesAndStreams s := rfl

theorem memories_pageRecord (ty : Blk) (r : FaultRec) (s : State) : memoriesAndStreams (pageRecord ty r s) = memoriesAndStreams s := by
  have logged : memoriesAndStreams ((List.range 4).foldl (fun s i => rset s (Reg.errLog ty r.inst i) (recWord r i)) s) =
      memoriesAndStreams s := foldl_keeps memoriesAndStreams _ (fun s i => memories_rset s _ _) _ s
  unfold pageRecord
  generalize (List.range 4).foldl (fun s i => rset s (Reg.errLog ty r.inst i) (recWord r i)) s = u at logged ⊢
  have raised (s : State) : memoriesAndStreams (setInt ty r.inst 0 s) = memoriesAndStreams s := by
    simp [memoriesAndStreams, memories]
  have counted (s : State) : memoriesAndStreams (errCount ty r.inst 1 s) = memoriesAndStreams s := memories_rset s _ _
  simp only [raised, apply_ite memoriesAndStreams, counted, ite_self, logged]

theorem memories_dropNow (c : Confined) (st idx : Nat) (slot : Option Nat) (s : State) :
    memoriesAndStreams (dropNow c st idx slot s) = memoriesAndStreams s := by
  have added (r : FaultRec) (u : State) : memoriesAndStreams (addConfined r u) = memoriesAndStreams u := rfl
  rw [dropNow, added, memories_pageRecord]

theorem memories_noteUpdate (st idx : Nat) (e : Entry) (s : State) :
    memoriesAndStreams (noteUpdate st idx e s) = memoriesAndStreams s := by
  unfold noteUpdate
  split
  · split <;> rfl
  · rfl

/-! ## Marks of an entry in flight -/

theorem streamAt_modFlight (st idx : Nat) (g : Flight → Flight) (s : State) :
    streamAt (modFlight st idx g s) st = (streamAt s st).map (Stream.mapFlights idx g) := by
  cases there : streamAt s st with
  | none => rw [modFlight_eq, modStream, there]; exact there
  | some y => rw [modFlight_of_streamAt there, streamAt_setStream_same there]; rfl

theorem memories_modFlight (st idx : Nat) (g : Flight → Flight) (s : State) : memories (modFlight st idx g s) = memories s := by
  rw [modFlight_eq, modStream]
  split <;> rfl

theorem active_modFlight (st idx : Nat) (g : Flight → Flight) (s : State) :
    (modFlight st idx g s).step.active = s.step.active := by
  rw [modFlight_eq, modStream]
  split <;> rfl

theorem mapFlights_mapFlights {g : Flight → Flight} (same : ∀ f, (g f).idx = f.idx) (g' : Flight → Flight) (idx : Nat) (y : Stream) :
    (y.mapFlights idx g).mapFlights idx g' = y.mapFlights idx (g' ∘ g) := by
  simp only [Stream.mapFlights, List.map_map]
  congr 1
  refine List.map_congr_left fun f _ => ?_
  by_cases here : f.idx = idx <;> simp [here, same]

/-- The mark of an entry that has raised a record. -/
def raising (r : FaultRec) (f : Flight) : Flight := { f with raised := f.raised ++ [r] }

/-- The mark of a `STASH_READ` with the record that it reads (05 R118). -/
def recording (n : Option Nat) (f : Flight) : Flight := { f with record := n }

theorem flight_launched (s : State) (x : Stream) (e : Entry) (ph : List Phys) (g : Flight → Flight) :
    g (issueFlight s x e x.slotNow (slotVoid s x.slotNow) ph) ∈ ((launchOf s x e ph).mapFlights x.pos g).inflight := by
  simp [Stream.mapFlights, launch, issueFlight, flightOf]

/-! ## The end of a run -/

/-- A missing record's event, of an entry in a running step, is confined (14 R316). -/
theorem raiseEntry_missing {ev : Evt} (code : ev.code = 0x0B01) (runs : s.step.active = true) (idx : Nat) (tagged : Bool) :
    ∃ f u, f.code = 0x0B01 ∧ memoriesAndStreams u = memoriesAndStreams s ∧
      raiseEntry st idx tagged s ev = modFlight st idx (raising f) u := by
  have always : alwaysConfined ev.code = true := by rw [code]; decide
  obtain ⟨k, named, confined⟩ : ∃ k : Confined, k.code = ev.code ∧ raiseEntry st idx tagged s ev = confineEntry st idx s k :=
    ⟨_, rfl, if_pos (Or.inl always)⟩
  refine ⟨confinedRec k st idx (confinedSlot k (flightSlot s st idx) s) s, dropNow k st idx (flightSlot s st idx) s, named.trans code,
    memories_dropNow _ _ _ _ s, ?_⟩
  rw [confined, confineEntry, if_pos runs]
  rfl

section
variable (late : q.late = false) (need : q.need = []) (there : streamAt q.s c.st = some x)
include late need

/-- A run that waits for nothing and meets no event is settled as it stands. -/
theorem memories_settleRun (evs : q.evs = []) (u : State) : memories (settleRun c q u) = memories q.s := by
  rw [settleRun, late, need, evs, if_neg Bool.false_ne_true, if_pos rfl, List.foldl_nil]
  exact (congrArg Prod.fst (memories_noteUpdate _ _ _ _)).trans (memories_modFlight _ _ _ _)

include there

theorem streamAt_settleRun (evs : q.evs = []) (u : State) :
    streamAt (settleRun c q u) c.st = some (x.mapFlights c.idx (ranWith q.sent)) := by
  rw [settleRun, late, need, evs, if_neg Bool.false_ne_true, if_pos rfl, List.foldl_nil,
    streamAt_of_memories (memories_noteUpdate _ _ _ _), streamAt_modFlight, there]
  rfl

/-- A run whose record is missing is settled with the event that it raises. -/
theorem settleRun_missing {ev : Evt} (evs : q.evs = [ev]) (code : ev.code = 0x0B01) (runs : q.s.step.active = true) (u : State) :
    memories (settleRun c q u) = memories q.s ∧ ∃ f, f.code = 0x0B01 ∧
      streamAt (settleRun c q u) c.st = some (x.mapFlights c.idx (raising f ∘ ranWith q.sent)) := by
  rw [settleRun, late, need, evs, if_neg Bool.false_ne_true, if_pos rfl, List.foldl_cons, List.foldl_nil]
  have noted := memories_noteUpdate c.st c.idx c.e (modFlight c.st c.idx (ranWith q.sent) q.s)
  have active : (noteUpdate c.st c.idx c.e (modFlight c.st c.idx (ranWith q.sent) q.s)).step.active = true :=
    (congrArg (fun v => v.2.2) noted).trans ((active_modFlight _ _ _ _).trans runs)
  obtain ⟨f, w, named, same, raised⟩ := raiseEntry_missing (st := c.st) code active c.idx c.e.tagged
  have before := same.trans noted
  refine ⟨?_, f, named, ?_⟩
  · exact (congrArg memories raised).trans ((memories_modFlight _ _ _ _).trans
      ((congrArg Prod.fst before).trans (memories_modFlight _ _ _ _)))
  · refine (congrArg (streamAt · c.st) raised).trans ?_
    rw [streamAt_modFlight, streamAt_of_memories before, streamAt_modFlight, there,
      ← mapFlights_mapFlights (g := ranWith q.sent) fun _ => rfl]
    rfl

end

end Sys2Proof.Machine
end

