-- ==== Sys2Proof/Proofs/StashWrites.lean ====
section
/-! SUPPORT. EFFECT. What a `STASH_WRITE` of a plain scratchpad source stores at the local level (05 R111 to R113; 11 R245). -/

namespace Sys2Proof.Machine
open Sys2Proof.Stmt

variable {s t : State} {c : Ctx} {r : Run} {d : Desc} {bs : List (Nat × Nat)} {st : Nat} {x : Stream} {e : Entry}

/-! ## A state that differs in its directory -/

/-- Two states that differ at most in `GLB_STASH_STATUS`, the directory and what the step counts. -/
structure SameLines (s t : State) : Prop where
  kept : memories t = memories s
  job : t.job = s.job
  crossings : t.crossings = s.crossings
  still : ∀ a, a ≠ Reg.stashStatus → rget t a = rget s a

theorem SameLines.trans {u : State} (first : SameLines s t) (next : SameLines t u) : SameLines s u :=
  ⟨next.kept.trans first.kept, next.job.trans first.job, next.crossings.trans first.crossings,
    fun a apart => (next.still a apart).trans (first.still a apart)⟩

theorem sameLines_setStream (st : Nat) (y : Stream) (s : State) : SameLines s (setStream st y s) := ⟨rfl, rfl, rfl, fun _ _ => rfl⟩

theorem sameLines_freeRecord (tag : Nat) (s : State) : SameLines s (freeRecord tag s) := ⟨rfl, rfl, rfl, fun _ _ => rfl⟩

theorem sameLines_stashPin (pin : Bool) (s : State) : SameLines s (stashPin pin s) := by
  cases pin with
  | false => exact ⟨rfl, rfl, rfl, fun _ _ => rfl⟩
  | true => exact ⟨rfl, rfl, rfl, fun _ apart => rget_rset_ne _ _ apart⟩

theorem sameLines_putRecord (tag n : Nat) (bs : List (Nat × Nat)) (s : State) : SameLines s (putRecord tag n bs s) :=
  ⟨rfl, rfl, rfl, fun _ apart => rget_rset_ne _ _ apart⟩

theorem SameLines.regions (h : SameLines s t) : SameRegions s t :=
  ⟨h.job, fun a low high => h.still _ fun same => by
    rw [same, Reg.stashStatus, reg_glb] at low
    omega⟩

theorem SameLines.allBytes (h : SameLines s t) (place : d.place = 1) (own : Nat) : allBytes t own d = allBytes s own d := by
  have core : coreIn t own d = coreIn s own d := coreIn_of_ctrl (funext fun i => h.still _ fun same => by
    simp only [Reg.blkCtrl, reg, blkCode, Reg.stashStatus] at same
    omega) own d
  have sp : t.sp = s.sp := congrArg (fun m => m.2.2.1) h.kept
  have rows : bytesIn t own d = bytesIn s own d := funext fun i => by
    rw [bytesIn_plain place, bytesIn_plain place, core, sp]
  rw [Stmt.allBytes, Stmt.allBytes, rows]

theorem SameLines.running (h : SameLines s t) (running : ClocksRun s) : ClocksRun t :=
  (clocksRun_congr (congrArg clocks h.crossings)).2 running

/-- A run that has written nothing has the regions of the one before. -/
theorem Writes.regions {ws : List (Nat × List Byte)} {q : Run} (h : Writes ws r q) : SameRegions r.s q.s := by
  obtain ⟨regs, fix, same⟩ := h.state
  refine ⟨?_, fun a low high => h.still a (by omega)⟩
  rw [same]

/-! ## The lines of a record -/

/-- The lines that a record holds, each with its number. -/
def linesFrom (src : List Byte) : List (Nat × List Byte) := (List.range (ceilDiv src.length 64)).map fun i => (i, recordLine src i)

/-- The memories after the lines of a source are stored in the blocks of their record. -/
theorem storeRecord_home (free : c.ph = []) (running : ClocksRun r.s) (plain : PlainSp d) (tags : Nat × Nat)
    (home : AtHome r.s bs (ceilDiv (allBytes r.s c.inst d).length 64)) :
    storeRecord c tags d bs r = { r with s := (storeRecord c tags d bs r).s } ∧
    memories (storeRecord c tags d bs r).s =
      (memPut r.s.hbm ((linesFrom (allBytes r.s c.inst d)).map fun l => (lineAt r.s bs l.1, l.2)),
        memPut r.s.chk ((linesFrom (allBytes r.s c.inst d)).map fun l => (lineAt r.s bs l.1 / 8, actCheck l.2 tags.1 tags.2 l.1)),
        r.s.sp, r.s.host) := by
  obtain ⟨numbered, wrote⟩ := recordLines_writes free plain tags r
  obtain ⟨run, ⟨regs, fix, state⟩, -⟩ := id wrote
  have same := wrote.regions
  rw [numberLines_eq] at numbered
  change _ = linesFrom _ at numbered
  rw [storeRecord]
  generalize recordLines c tags d r = y at *
  have unspoiled : y.1.map (fun l => (l.1, spoil c (64 * l.1) l.2)) = y.1 := by simp [spoil_of_free free]
  have clocks : ClocksRun y.2.s := state ▸ running
  have level := home.1
  have here : ∀ l ∈ y.1, ∃ g, regionOf y.2.s (lineAt y.2.s bs l.1) = some g ∧ g.cls = 2 := fun l mem => by
    rw [numbered] at mem
    obtain ⟨i, inside, rfl⟩ := List.mem_map.1 mem
    exact (same.atHome home).2 i (List.mem_range.1 inside)
  have whole : ∀ l ∈ y.1, l.2.length = 64 := fun l mem => by
    rw [numbered] at mem
    obtain ⟨i, -, rfl⟩ := List.mem_map.1 mem
    exact length_recordLine _ i
  simp only [unspoiled, putStashLines_home clocks free tags level y.1 here whole, putNbrLines_home level, storeLines, same.lineAt]
  rw [← numbered, run]
  refine ⟨rfl, ?_⟩
  rw [state]
  rfl

/-- Blocks that are placed for a record differ from each other, and there are as many as its bytes take (05 R112). -/
theorem placedFor_apart {n : Nat} (placed : (placedFor s n).1 = some bs) : bs.Nodup ∧ bs.length = ceilDiv n 65536 := by
  unfold placedFor at placed
  split at placed
  · obtain ⟨differ, long⟩ := placeBlocks_apart (by simp) List.nodup_nil placed
    exact ⟨differ, by simpa using long⟩
  · cases placed

section
variable {src : List Byte} (level : ∀ b ∈ bs, b.1 = 0) (differ : bs.Nodup) (long : bs.length = ceilDiv src.length 65536)
include level differ long

/-- The lines of a record, as runs of `k` bytes at its lines' addresses in units of `64 / k` bytes, share no byte. -/
theorem linesFrom_apart (s : State) {k : Nat} (unit : k = 64 ∨ k = 8) {put : Nat × List Byte → List Byte}
    (size : ∀ l ∈ linesFrom src, (put l).length = k) :
    Disjoint ((linesFrom src).map fun l => (lineAt s bs l.1 / (64 / k), put l)) := by
  refine List.pairwise_map.2 ?_
  rw [linesFrom] at size ⊢
  refine List.pairwise_map.2 (List.pairwise_lt_range.imp_of_mem fun {i j} first second before => Or.inr ?_)
  have low := List.mem_range.1 first
  have high := List.mem_range.1 second
  have one := size _ (List.mem_map_of_mem first)
  have two := size _ (List.mem_map_of_mem second)
  have inside (i : Nat) (below : i < ceilDiv src.length 64) : i / 1024 < bs.length := by
    rw [long]
    unfold ceilDiv at below ⊢
    omega
  have apart := lineAt_apart (s := s) level differ (inside i low) (inside j high) (Nat.ne_of_lt before)
  have here : lineAt s bs i % 64 = 0 := localAddr_aligned _ _ _
  have there : lineAt s bs j % 64 = 0 := localAddr_aligned _ _ _
  dsimp only
  rw [one, two]
  generalize lineAt s bs i = a at *
  generalize lineAt s bs j = b at *
  rcases unit with rfl | rfl <;> omega

end

section
variable (h : Stands st x e s) (turn : InTurn x) (op : e.op = 0x34) (live : slotVoid s x.slotNow = false) (running : ClocksRun s)
  (plain : PlainSp (descOr s e.descA)) {src : List Byte} (source : src = allBytes s (streamInst s x) (descOr s e.descA))
  (places : (placedFor (freeRecord (slotTag e x.slotNow) s) (stashSize (descOr s e.descA))).1 = some bs)
  (home : AtHome s bs (ceilDiv src.length 64))
include h turn op live running plain source places home

/-- The memories after a `STASH_WRITE` of a plain scratchpad source to the local level. -/
theorem memories_stashWrite :
    memories (issue st (fun e => e.op == 0x34) [] stashWriteEff s) =
      (memPut s.hbm ((linesFrom src).map fun l => (lineAt s bs l.1, l.2)),
        memPut s.chk ((linesFrom src).map fun l => (lineAt s bs l.1 / 8,
          actCheck l.2 (stashTags s e x.slotNow).1 (stashTags s e x.slotNow).2 l.1)),
        s.sp, s.host) := by
  subst source
  change (placedFor (freeRecord (stashTags s e x.slotNow).2 s) _).1 = _ at places
  rw [issue_stashWrite h turn op live]
  dsimp only
  rw [places, physEvents_of_free rfl, noteAndStore]
  generalize (placedFor (freeRecord (stashTags s e x.slotNow).2 s) (stashSize (descOr s e.descA))).2 = pin
  generalize made : ((({ s := setStream st (launchOf s x e []) s } : Run).mod (freeRecord (stashTags s e x.slotNow).2)).mod
    (stashPin pin)).mod (putRecord (stashTags s e x.slotNow).2 (stashSize (descOr s e.descA)) bs) = r
  have same : SameLines s r.s := made ▸ (((sameLines_setStream st _ s).trans (sameLines_freeRecord _ _)).trans
    (sameLines_stashPin _ _)).trans (sameLines_putRecord _ _ _ _)
  have idle : r.late = false ∧ r.need = [] ∧ r.evs = [] := made ▸ ⟨rfl, rfl, rfl⟩
  obtain ⟨late, need, evs⟩ := idle
  have bytes : allBytes r.s (streamInst s x) (descOr s e.descA) = allBytes s (streamInst s x) (descOr s e.descA) :=
    same.allBytes plain.1 _
  obtain ⟨run, stored⟩ := storeRecord_home (c := ctxOf s st x x.pos e x.slotNow false []) rfl (same.running running) plain
    (stashTags s e x.slotNow) (bytes.symm ▸ same.regions.atHome home)
  rw [memories_settleRun (by rw [run]; exact late) (by rw [run]; exact need) (by rw [run]; exact evs), stored]
  have kept := same.kept
  simp only [memories, Prod.mk.injEq] at kept
  obtain ⟨hbm, chk, sp, host⟩ := kept
  simp only [same.regions.lineAt, hbm, chk, sp, host]
  rw [show (ctxOf s st x x.pos e x.slotNow false []).inst = streamInst s x from rfl, bytes]

/-- A `STASH_WRITE` of a plain scratchpad source to the local level stores its lines, and no other byte of HBM changes. -/
theorem stashWrite_lines {u : State} (result : issue st (fun e => e.op == 0x34) [] stashWriteEff s = u) :
    (∀ i, i < ceilDiv src.length 64 → memRead u.hbm (lineAt s bs i) 64 = recordLine src i ∧
      memRead u.chk (lineAt s bs i / 8) 8 =
        actCheck (recordLine src i) (stashTags s e x.slotNow).1 (stashTags s e x.slotNow).2 i) ∧
    (∀ k, (∀ i, i < ceilDiv src.length 64 → k < lineAt s bs i ∨ lineAt s bs i + 64 ≤ k) → memGet u.hbm k = memGet s.hbm k) ∧
    u.sp = s.sp ∧ u.host = s.host := by
  have stored := memories_stashWrite h turn op live running plain source places home
  obtain ⟨differ, long⟩ := placedFor_apart places
  rw [← length_allBytes plain s (streamInst s x), ← source] at long
  simp only [result, memories, Prod.mk.injEq] at stored
  obtain ⟨hbm, chk, sp, host⟩ := stored
  have there {i : Nat} (inside : i < ceilDiv src.length 64) : (i, recordLine src i) ∈ linesFrom src :=
    List.mem_map_of_mem (List.mem_range.2 inside)
  have wide : ∀ l ∈ linesFrom src, l.2.length = 64 := fun l mem => by
    obtain ⟨i, -, rfl⟩ := List.mem_map.1 mem
    exact length_recordLine _ i
  refine ⟨fun i inside => ⟨?_, ?_⟩, fun k out => ?_, sp, host⟩
  · have apart := linesFrom_apart home.1 differ long s (Or.inl rfl) wide
    simp only [Nat.div_self (show 0 < 64 by decide), Nat.div_one] at apart
    have line := memRead_foldl_write s.hbm apart (List.mem_map_of_mem (there inside))
    rwa [length_recordLine, ← memPut, ← hbm] at line
  · have apart := linesFrom_apart home.1 differ long s (Or.inr rfl)
      (put := fun l => actCheck l.2 (stashTags s e x.slotNow).1 (stashTags s e x.slotNow).2 l.1) fun _ _ => length_actCheck _ _ _ _
    have line := memRead_foldl_write s.chk apart (List.mem_map_of_mem (there inside))
    rwa [length_actCheck, ← memPut, ← chk] at line
  · rw [hbm]
    refine memGet_foldl_write _ _ k fun w mem => ?_
    obtain ⟨l, line, rfl⟩ := List.mem_map.1 mem
    obtain ⟨i, inside, rfl⟩ := List.mem_map.1 line
    rw [length_recordLine]
    exact out i (List.mem_range.1 inside)

end

end Sys2Proof.Machine
end

