-- ==== Sys2Proof/Proofs/StashReads.lean ====
section
/-! SUPPORT. EFFECT. What a `STASH_READ` to a plain scratchpad destination delivers: the bytes of its record's lines or, where there is no
record with lines, zeros (05 R115, R118; 14 R316, R317). -/

namespace Sys2Proof.Machine
open Sys2Proof.Stmt

variable {s t : State} {c : Ctx} {p q r : Run} {d : Desc} {st : Nat} {x y : Stream} {e : Entry}

/-! ## The cases of the effect -/

/-- Zeros are put in the place of a record's bytes. -/
def blankRecord (c : Ctx) (tags : Nat × Nat) (d : Desc) (r : Run) : Run :=
  (putRecordBytes c tags d (List.replicate (stashSize d) 0) r).mod (countMoved c 0 (stashSize d))

/-- The groups of host lines whose time-outs a delivery clears. -/
def heldGroups (c : Ctx) (tags : Nat × Nat) (d : Desc) (bs : List (Nat × Nat)) (r : Run) : List Nat :=
  if r.s.stashTimeouts = [] then [] else (hostGroups c tags d bs r).map (·.2)

/-- The event of a record that is missing (05 R118). -/
def missingRecord (c : Ctx) : Evt := { code := 0x0B01, ty := .mov, inst := c.inst }

section
variable (free : c.ph = [])
include free

theorem stashReadEff_voided (void : c.voided = true) (r : Run) :
    stashReadEff c r =
      (blankRecord c (stashTags r.s c.e c.slot) (descOr r.s c.e.descC) r).mod (noteRecord c (stashTags r.s c.e c.slot).2) := by
  simp only [stashReadEff, void, if_true, physEvents_of_free free]
  rfl

variable (live : c.voided = false)
include live

theorem stashReadEff_missing (none : r.s.stash.find? (fun z => z.tag == (stashTags r.s c.e c.slot).2) = none) :
    stashReadEff c r = (blankRecord c (stashTags r.s c.e c.slot) (descOr r.s c.e.descC) (r.raise (missingRecord c))).mod
      (noteRecord c (stashTags r.s c.e c.slot).2) := by
  simp only [stashReadEff, live, none, Bool.false_eq_true, if_false, physEvents_of_free free]
  rfl

variable {z : StashRec} (found : r.s.stash.find? (fun z => z.tag == (stashTags r.s c.e c.slot).2) = some z)
include found

theorem stashReadEff_exhausted (empty : z.exhausted = true) :
    stashReadEff c r =
      (blankRecord c (stashTags r.s c.e c.slot) (descOr r.s c.e.descC) r).mod (noteRecord c (stashTags r.s c.e c.slot).2) := by
  simp only [stashReadEff, live, found, empty, if_true, Bool.false_eq_true, if_false, physEvents_of_free free]
  rfl

theorem stashReadEff_present (full : z.exhausted = false) :
    stashReadEff c r =
      ((deliverRecord c (stashTags r.s c.e c.slot) (descOr r.s c.e.descC) z.blocks r).mod
        (clearTimeouts (heldGroups c (stashTags r.s c.e c.slot) (descOr r.s c.e.descC) z.blocks r))).mod
          (noteRecord c (stashTags r.s c.e c.slot).2) := by
  simp only [stashReadEff, live, found, full, Bool.false_eq_true, if_false, physEvents_of_free free]
  rfl

end

/-! ## What is written -/

theorem memories_countMoved (c : Ctx) (rd wr : Nat) (s : State) : memoriesAndStreams (countMoved c rd wr s) = memoriesAndStreams s := rfl

theorem Writes.memories {ws : List (Nat × List Byte)} (h : Writes ws r q) :
    memoriesAndStreams q.s = ((r.s.hbm, r.s.chk, memPut r.s.sp ws, r.s.host), r.s.streams, r.s.step.active) := by
  obtain ⟨_, _, same⟩ := h.state
  rw [same]
  rfl

/-- Run `q` is run `r` after byte runs written to the scratchpads, and what it counts. -/
def WritesAndCounts (ws : List (Nat × List Byte)) (r q : Run) : Prop :=
  q = { r with s := q.s } ∧
    memoriesAndStreams q.s = ((r.s.hbm, r.s.chk, memPut r.s.sp ws, r.s.host), r.s.streams, r.s.step.active)

theorem Writes.mod {ws : List (Nat × List Byte)} (h : Writes ws r q) {f : State → State}
    (same : memoriesAndStreams (f q.s) = memoriesAndStreams q.s) : WritesAndCounts ws r (q.mod f) :=
  ⟨by rw [Run.mod, h.run], same.trans h.memories⟩

section
variable (free : c.ph = []) (plain : PlainSp d) (tags : Nat × Nat)
include free plain

theorem blankRecord_writes (r : Run) :
    WritesAndCounts (recordWrites (coreIn r.s c.inst d) d (List.replicate (stashSize d) 0)) r (blankRecord c tags d r) :=
  (putRecordBytes_writes free plain tags _ r).mod (memories_countMoved _ _ _ _)

theorem deliverRecord_writes (running : ClocksRun r.s) {bs : List (Nat × Nat)} (home : AtHome r.s bs (ceilDiv (stashSize d) 64))
    (agree : ∀ i, i < ceilDiv (stashSize d) 64 → memRead r.s.chk (lineAt r.s bs i / 8) 8 =
      actCheck (memRead r.s.hbm (lineAt r.s bs i) 64) tags.1 tags.2 i) (gs : List Nat) :
    WritesAndCounts (recordWrites (coreIn r.s c.inst d) d
      ((List.range (ceilDiv (stashSize d) 64)).map fun i => memRead r.s.hbm (lineAt r.s bs i) 64).flatten) r
      ((deliverRecord c tags d bs r).mod (clearTimeouts gs)) := by
  have linear : d.layout ≠ 2 := by have := plain.2.1; omega
  rw [deliverRecord, if_neg linear]
  dsimp only
  rw [stashLines_home free running home agree]
  exact (putRecordBytes_writes free plain tags _ r).mod
    (f := fun s => clearTimeouts gs (countMoved c (stashSize d) (stashSize d) s)) rfl

end

theorem zeros_recordWrites (core : Nat) (d : Desc) (n : Nat) :
    ∀ w ∈ recordWrites core d (List.replicate n 0), ∀ b ∈ w.2, b = 0 := fun w mem b inside => by
  obtain ⟨i, -, rfl⟩ := List.mem_map.1 mem
  exact List.eq_of_mem_replicate (List.mem_of_mem_drop (List.mem_of_mem_take inside))

/-! ## The end of the run -/

/-- The stream `st` holds `y` with its entry `idx` marked as run, and what that entry has raised. -/
def Ended (st idx : Nat) (y : Stream) (l : List FaultRec) (t : State) : Prop :=
  ∃ g, (∀ f, (g f).idx = f.idx ∧ (g f).slot = f.slot ∧ (g f).voided = f.voided) ∧
    (∀ f, (g f).ran = true ∧ (g f).raised = f.raised ++ l) ∧ streamAt t st = some (y.mapFlights idx g)

theorem launched_of_ended {l : List FaultRec} {ph : List Phys} (h : Ended st x.pos (launchOf s x e ph) l t) :
    ∃ y, streamAt t st = some y ∧ Launched s x y ∧ ∃ f ∈ y.inflight, f.idx = x.pos ∧ f.ran = true ∧ f.raised = l := by
  obtain ⟨g, keeps, marks, there⟩ := h
  obtain ⟨idx, -, -⟩ := keeps (issueFlight s x e x.slotNow (slotVoid s x.slotNow) ph)
  obtain ⟨ran, raised⟩ := marks (issueFlight s x e x.slotNow (slotVoid s x.slotNow) ph)
  exact ⟨_, there, launched_mapFlights s x e ph keeps, _, flight_launched s x e ph g, idx, ran, raised⟩

theorem streamAt_noteRecord (there : streamAt s c.st = some y) (tag : Nat) :
    streamAt (noteRecord c tag s) c.st = some (y.mapFlights c.idx (recording (recordAt s tag))) := by
  refine (streamAt_modFlight _ _ _ _).trans ?_
  rw [there]
  rfl

section
variable (late : p.late = false) (need : p.need = []) (there : streamAt p.s c.st = some y) (tag : Nat)
include late need there

theorem settleRun_read (evs : p.evs = []) (u : State) :
    memories (settleRun c (p.mod (noteRecord c tag)) u) = memories p.s ∧
      Ended c.st c.idx y [] (settleRun c (p.mod (noteRecord c tag)) u) := by
  have noted := streamAt_noteRecord there tag
  refine ⟨(memories_settleRun (q := p.mod _) late need evs u).trans (memories_modFlight _ _ _ _),
    ranWith p.sent ∘ recording (recordAt p.s tag), fun _ => ⟨rfl, rfl, rfl⟩, fun f => ⟨rfl, (List.append_nil _).symm⟩, ?_⟩
  rw [streamAt_settleRun (q := p.mod _) late need noted evs, mapFlights_mapFlights (g := recording (recordAt p.s tag)) fun _ => rfl]
  rfl

theorem settleRun_readMissing {ev : Evt} (evs : p.evs = [ev]) (code : ev.code = 0x0B01) (runs : p.s.step.active = true) (u : State) :
    memories (settleRun c (p.mod (noteRecord c tag)) u) = memories p.s ∧
      ∃ f, f.code = 0x0B01 ∧ Ended c.st c.idx y [f] (settleRun c (p.mod (noteRecord c tag)) u) := by
  have noted := streamAt_noteRecord there tag
  have active : (p.mod (noteRecord c tag)).s.step.active = true := (active_modFlight _ _ _ _).trans runs
  obtain ⟨same, f, named, ended⟩ := settleRun_missing (q := p.mod _) late need noted evs code active u
  refine ⟨same.trans (memories_modFlight _ _ _ _), f, named, raising f ∘ ranWith p.sent ∘ recording (recordAt p.s tag),
    fun _ => ⟨rfl, rfl, rfl⟩, fun f => ⟨rfl, rfl⟩, ?_⟩
  rw [ended, mapFlights_mapFlights (g := recording (recordAt p.s tag)) fun _ => rfl]
  rfl

end

section
variable {ws : List (Nat × List Byte)} (wrote : WritesAndCounts ws r p) (late : r.late = false) (need : r.need = [])
  (there : streamAt r.s c.st = some y) (tag : Nat)
include wrote late need there

/-- A `STASH_READ` that meets no event ends with its bytes written. -/
theorem WritesAndCounts.ends (evs : r.evs = []) (u : State) :
    memories (settleRun c (p.mod (noteRecord c tag)) u) = (r.s.hbm, r.s.chk, memPut r.s.sp ws, r.s.host) ∧
      Ended c.st c.idx y [] (settleRun c (p.mod (noteRecord c tag)) u) := by
  obtain ⟨run, same⟩ := wrote
  have streams : streamAt p.s c.st = some y := (congrArg (fun v => v.2.1[c.st]?) same).trans there
  obtain ⟨kept, ended⟩ := settleRun_read (c := c) (p := p) (by rw [run]; exact late) (by rw [run]; exact need) streams tag
    (by rw [run]; exact evs) u
  exact ⟨kept.trans (congrArg Prod.fst same), ended⟩

/-- One whose record is missing ends with its bytes written and its event raised. -/
theorem WritesAndCounts.endsMissing {ev : Evt} (evs : r.evs = [ev]) (code : ev.code = 0x0B01) (runs : r.s.step.active = true)
    (u : State) :
    memories (settleRun c (p.mod (noteRecord c tag)) u) = (r.s.hbm, r.s.chk, memPut r.s.sp ws, r.s.host) ∧
      ∃ f, f.code = 0x0B01 ∧ Ended c.st c.idx y [f] (settleRun c (p.mod (noteRecord c tag)) u) := by
  obtain ⟨run, same⟩ := wrote
  have streams : streamAt p.s c.st = some y := (congrArg (fun v => v.2.1[c.st]?) same).trans there
  have active : p.s.step.active = true := (congrArg (fun v => v.2.2) same).trans runs
  obtain ⟨kept, ended⟩ := settleRun_readMissing (c := c) (p := p) (by rw [run]; exact late) (by rw [run]; exact need) streams tag
    (by rw [run]; exact evs) code active u
  exact ⟨kept.trans (congrArg Prod.fst same), ended⟩

end

/-! ## The entry -/

/-- A `STASH_READ` is void or finds an exhausted record. -/
def ReadsBlank (s : State) (x : Stream) (e : Entry) : Prop :=
  slotVoid s x.slotNow = true ∨
    slotVoid s x.slotNow = false ∧ ∃ z, s.stash.find? (fun r => r.tag == slotTag e x.slotNow) = some z ∧ z.exhausted = true

section
variable (h : Stands st x e s) (turn : InTurn x) (op : e.op = 0x35) (plain : PlainSp (descOr s e.descC))
include h turn op plain

/-- A `STASH_READ` of lines at the local level delivers their bytes (05 R115, 11 R246). -/
theorem stashRead_delivers (running : ClocksRun s) (live : slotVoid s x.slotNow = false) {z : StashRec}
    (found : s.stash.find? (fun r => r.tag == slotTag e x.slotNow) = some z) (full : z.exhausted = false)
    (home : AtHome s z.blocks (ceilDiv (stashSize (descOr s e.descC)) 64))
    (agree : ∀ i, i < ceilDiv (stashSize (descOr s e.descC)) 64 → memRead s.chk (lineAt s z.blocks i / 8) 8 =
      actCheck (memRead s.hbm (lineAt s z.blocks i) 64) (stashTags s e x.slotNow).1 (stashTags s e x.slotNow).2 i) :
    memories (issue st (fun e => e.op == 0x35) [] stashReadEff s) = (s.hbm, s.chk,
        memPut s.sp (recordWrites (coreIn s (streamInst s x) (descOr s e.descC)) (descOr s e.descC)
          ((List.range (ceilDiv (stashSize (descOr s e.descC)) 64)).map fun i => memRead s.hbm (lineAt s z.blocks i) 64).flatten),
        s.host) ∧
      Ended st x.pos (launchOf s x e []) [] (issue st (fun e => e.op == 0x35) [] stashReadEff s) := by
  have there := streamAt_setStream_same h.1 (launchOf s x e [])
  rw [issue_stash h turn (Or.inr op) (ok := fun e => e.op == 0x35) (beq_iff_eq.2 op),
    stashReadEff_present (c := ctxNow s st x e []) rfl live (r := { s := setStream st (launchOf s x e []) s }) found full]
  have wrote := deliverRecord_writes (c := ctxNow s st x e []) (r := { s := setStream st (launchOf s x e []) s }) rfl plain
    (stashTags s e x.slotNow) running home agree
  exact (wrote _).ends rfl rfl there _ rfl _

/-- One that is void or whose record is exhausted delivers zeros (05 R113, 14 R317). -/
theorem stashRead_blank (empty : ReadsBlank s x e) :
    memories (issue st (fun e => e.op == 0x35) [] stashReadEff s) = (s.hbm, s.chk,
        memPut s.sp (recordWrites (coreIn s (streamInst s x) (descOr s e.descC)) (descOr s e.descC)
          (List.replicate (stashSize (descOr s e.descC)) 0)), s.host) ∧
      Ended st x.pos (launchOf s x e []) [] (issue st (fun e => e.op == 0x35) [] stashReadEff s) := by
  have there := streamAt_setStream_same h.1 (launchOf s x e [])
  have wrote := blankRecord_writes (c := ctxNow s st x e []) rfl plain (stashTags s e x.slotNow)
    { s := setStream st (launchOf s x e []) s }
  rw [issue_stash h turn (Or.inr op) (ok := fun e => e.op == 0x35) (beq_iff_eq.2 op)]
  rcases empty with void | ⟨live, z, found, empty⟩
  · rw [stashReadEff_voided (c := ctxNow s st x e []) rfl void]
    exact wrote.ends rfl rfl there _ rfl _
  · rw [stashReadEff_exhausted (c := ctxNow s st x e []) rfl live (r := { s := setStream st (launchOf s x e []) s }) found empty]
    exact wrote.ends rfl rfl there _ rfl _

/-- One that finds no record delivers zeros and raises its event (05 R118, 14 R316). -/
theorem stashRead_missing (live : slotVoid s x.slotNow = false)
    (none : s.stash.find? (fun r => r.tag == slotTag e x.slotNow) = none) :
    memories (issue st (fun e => e.op == 0x35) [] stashReadEff s) = (s.hbm, s.chk,
        memPut s.sp (recordWrites (coreIn s (streamInst s x) (descOr s e.descC)) (descOr s e.descC)
          (List.replicate (stashSize (descOr s e.descC)) 0)), s.host) ∧
      ∃ f, f.code = 0x0B01 ∧ Ended st x.pos (launchOf s x e []) [f] (issue st (fun e => e.op == 0x35) [] stashReadEff s) := by
  have there := streamAt_setStream_same h.1 (launchOf s x e [])
  have runs : s.step.active = true := (Bool.and_eq_true_iff.1 h.2.2.1).1
  have wrote := blankRecord_writes (c := ctxNow s st x e []) rfl plain (stashTags s e x.slotNow)
    (({ s := setStream st (launchOf s x e []) s } : Run).raise (missingRecord (ctxNow s st x e [])))
  rw [issue_stash h turn (Or.inr op) (ok := fun e => e.op == 0x35) (beq_iff_eq.2 op),
    stashReadEff_missing (c := ctxNow s st x e []) rfl live (r := { s := setStream st (launchOf s x e []) s }) none]
  exact wrote.endsMissing (c := ctxNow s st x e []) rfl rfl there _ rfl rfl runs _

end

end Sys2Proof.Machine
end

