-- ==== Sys2Proof/Proofs/StashEntries.lean ====
section
/-! SETTLES. O24: the entries of the stash keep its directory, and their data (05 R111 to R113, R115, R117, R118). -/

namespace Sys2Proof.Machine
open Sys2Proof.Stmt

variable {s : State} {st : Nat} {x : Stream} {e : Entry}

theorem stash_of_accState {t : State} {stash : List StashRec} (h : accState t = (s.acc, s.ksteps, stash)) :
    t.stash = stash ∧ t.acc = s.acc := ⟨congrArg (fun v => v.2.2) h, congrArg (fun v => v.1) h⟩

theorem placedFor_freeRecord {tag : Nat} (room : recordsHeld (freeRecord tag s) < 16384) (n : Nat) :
    placedFor (freeRecord tag s) n = placeBlocks s (ceilDiv n 65536) (blocksUsed (freeRecord tag s)) [] false :=
  (if_pos room).trans (placeBlocks_congr (t := freeRecord tag s) (s := s) rfl rfl rfl _ _ _ _)

/-- The record that a `STASH_WRITE` leaves for its tag, with its blocks or exhausted (05 R112, R113). -/
theorem stashWrite_directory (h : Stands st x e s) (turn : InTurn x) (running : ClocksRun s) (op : e.op = 0x34)
    (live : slotVoid s x.slotNow = false) (home : (descOr s e.descA).place ≠ 2) (ph : List Phys) {n : Nat} {kept : List StashRec}
    (bytes : n = stashSize (descOr s e.descA)) (others : kept = s.stash.filter fun r => r.tag != slotTag e x.slotNow) {t : State}
    (result : issue st (fun e => e.op == 0x34) ph stashWriteEff s = t) :
    (∀ bs, recordsHeld { s with stash := kept } < 16384 →
      (placeBlocks s (ceilDiv n 65536) (blocksUsed { s with stash := kept }) [] false).1 = some bs →
      t.stash = kept ++ [{ id := s.step.stashMade, tag := slotTag e x.slotNow, bytes := n, exhausted := false, blocks := bs }]) ∧
    ((recordsHeld { s with stash := kept } < 16384 →
        (placeBlocks s (ceilDiv n 65536) (blocksUsed { s with stash := kept }) [] false).1 = none) →
      t.stash = kept ++ [{ id := s.step.stashMade, tag := slotTag e x.slotNow, bytes := n, exhausted := true, blocks := [] }] ∧
      getB t Reg.stashStatus 62 = true) := by
  subst bytes others result
  refine ⟨fun bs room placed => ?_, fun none => ?_⟩
  · have places : (placedFor (freeRecord (slotTag e x.slotNow) s) (stashSize (descOr s e.descA))).1 = some bs :=
      (congrArg Prod.fst (placedFor_freeRecord room _)).trans placed
    exact (stash_of_accState (stashWrite_records h turn op live running home ph places).1).1
  · have places : (placedFor (freeRecord (slotTag e x.slotNow) s) (stashSize (descOr s e.descA))).1 = .none := by
      by_cases room : recordsHeld (freeRecord (slotTag e x.slotNow) s) < 16384
      · exact (congrArg Prod.fst (placedFor_freeRecord room _)).trans (none room)
      · rw [placedFor, if_neg room]
    obtain ⟨acc, status⟩ := stashWrite_records h turn op live running home ph places
    exact ⟨(stash_of_accState acc).1, status rfl⟩

theorem blankOrMissing (cases : slotVoid s x.slotNow = true ∨ s.stash.find? (fun r => r.tag == slotTag e x.slotNow) = none ∨
      ∃ z, s.stash.find? (fun r => r.tag == slotTag e x.slotNow) = some z ∧ z.exhausted = true) :
    ReadsBlank s x e ∨ slotVoid s x.slotNow = false ∧ s.stash.find? (fun r => r.tag == slotTag e x.slotNow) = none := by
  cases void : slotVoid s x.slotNow with
  | true => exact Or.inl (Or.inl void)
  | false =>
    rcases cases with void' | none | exhausted
    · exact absurd void' (by simp [void])
    · exact Or.inr ⟨rfl, none⟩
    · exact Or.inl (Or.inr ⟨void, exhausted⟩)

theorem not_missing (empty : ReadsBlank s x e) :
    ¬ (slotVoid s x.slotNow = false ∧ s.stash.find? (fun r => r.tag == slotTag e x.slotNow) = none) := by
  rintro ⟨live, none⟩
  rcases empty with void | ⟨-, z, found, -⟩
  · simp [live] at void
  · simp [none] at found

/-- Settles O24: the record that an entry of the stash leaves comes from what its effect keeps of the directory, the bytes from the lines
that it stores or reads at the local level. -/
theorem stashEntriesKeepDirectory : Obligations.StashEntriesKeepDirectory := by
  unfold Obligations.StashEntriesKeepDirectory
  refine ⟨fun st ph x e s h turn running op live home => ?_, fun st ph x e s h op void => ?_, fun st ph x e s h op => ?_,
    fun st x e s a kept bs src h turn running op live isA plain source others room placed home => ?_,
    fun st x e s d z bs h turn running op live isC plain found full home agree bytes apart => ?_,
    fun st x e s d h turn op isC plain cases => ?_⟩
  · obtain ⟨y, there, launched, -, passes, -⟩ := issue_launches (v := ⟨true, true⟩) (fun c r => kept_stashWriteEff c r) h
      (ok := fun e => e.op == 0x34) (beq_iff_eq.2 op) ph
    refine ⟨_, y, rfl, there, launched, fun n kept bytes others => ?_, ?_, passes rfl⟩
    · exact stashWrite_directory h turn running op live home ph bytes others rfl
    · exact (stash_of_accState (stashWrite_records h turn op live running home ph rfl).1).2
  · obtain ⟨y, there, launched, -⟩ := issue_launches (v := ⟨true, true⟩) (fun c r => kept_stashWriteEff c r) h
      (ok := fun e => e.op == 0x34) (beq_iff_eq.2 op) ph
    exact ⟨_, y, rfl, there, launched, (stash_of_accState (stashWrite_void h op void ph)).1⟩
  · obtain ⟨y, there, launched, -, passes, -⟩ := issue_launches (v := ⟨true, true⟩) kept_stashReadEff h
      (ok := fun e => e.op == 0x35) (beq_iff_eq.2 op) ph
    have same := accState_issue h (ok := fun e => e.op == 0x35) (beq_iff_eq.2 op) ph fun r => accState_stashReadEff _ r
    obtain ⟨stash, acc⟩ := stash_of_accState same
    exact ⟨_, y, rfl, there, launched, stash, acc, passes rfl⟩
  · subst isA others
    have places : (placedFor (freeRecord (slotTag e x.slotNow) s) (stashSize (descOr s e.descA))).1 = some bs :=
      (congrArg Prod.fst (placedFor_freeRecord room _)).trans placed
    exact ⟨_, rfl, stashWrite_lines h turn op live running plain source places home rfl⟩
  · subst isC bytes
    obtain ⟨memory, ended⟩ := stashRead_delivers h turn op plain running live found full home agree
    obtain ⟨y, there, launched, flight⟩ := launched_of_ended ended
    simp only [memories, Prod.mk.injEq] at memory
    obtain ⟨hbm, chk, sp, host⟩ := memory
    exact ⟨_, y, rfl, there, launched, flight, puts_of_disjoint apart sp, hbm, chk, host⟩
  · subst isC
    rcases blankOrMissing cases with empty | ⟨live, none⟩
    · obtain ⟨memory, ended⟩ := stashRead_blank h turn op plain empty
      obtain ⟨y, there, launched, f, mem, idx, ran, raised⟩ := launched_of_ended ended
      simp only [memories, Prod.mk.injEq] at memory
      obtain ⟨hbm, -, sp, host⟩ := memory
      refine ⟨_, y, rfl, there, launched, puts_of_zeros (zeros_recordWrites _ _ _) sp, hbm, host, f, mem, idx, ran, ?_⟩
      rwa [if_neg (not_missing empty)]
    · obtain ⟨memory, r, code, ended⟩ := stashRead_missing h turn op plain live none
      obtain ⟨y, there, launched, f, mem, idx, ran, raised⟩ := launched_of_ended ended
      simp only [memories, Prod.mk.injEq] at memory
      obtain ⟨hbm, -, sp, host⟩ := memory
      refine ⟨_, y, rfl, there, launched, puts_of_zeros (zeros_recordWrites _ _ _) sp, hbm, host, f, mem, idx, ran, ?_⟩
      rw [if_pos ⟨live, none⟩, raised, List.map_cons, List.map_nil, code]

end Sys2Proof.Machine
end
